-- ==== Sys2Proof/Word.lean ====
section
/-! DEFINITION. The machine's words and their plainest arithmetic (00_scope R4, 05_encoding R54). -/

namespace Sys2Proof

/-- One byte of memory. -/
abbrev Byte := BitVec 8

/-- A 32-bit register value (R60, R71). -/
abbrev Word := BitVec 32

/-- A 64-bit value: a register pair, or one slot of a fetch line (R30, R71). -/
abbrev DWord := BitVec 64

/-- Bits `[lo + len - 1 : lo]` of a value, as a number of exactly `len` bits (R4). -/
abbrev bits {w : Nat} (x : BitVec w) (lo len : Nat) : BitVec len := x.extractLsb' lo len

end Sys2Proof
end

