-- ==== Sys2Proof/Syntax.lean ====
section
/-! DEFINITION. The instructions and the device's events: one constructor of `Instr` for each row of
spec/opcode_table.json, with the operands the encodings of spec/05, 06, 08, 12, 15, 18 and 23 give them. -/

namespace Sys2Proof

/-- Element types (R63); the constructors stand in the order of their codes 0 to E. -/
inductive Ty where
  | i8 | n8 | i16 | n16 | i32 | n32 | i64 | n64 | f16 | bf16 | f32 | e4m3 | e5m2 | e2m1 | b32
deriving DecidableEq, Repr

/-- Rounding modes (R64), in the order of their codes 0 to 5. -/
inductive Rm where
  | rne | rtz | rdn | rup | rna | rst
deriving DecidableEq, Repr

/-- Special registers (R62), in the order of their codes 0xC8 to 0xD5. -/
inductive SReg where
  | wl | ro | lid | oid | cid | bid | swc | clk | clid | core | part | lnch | rng | cbase
deriving DecidableEq, Repr

/-- A register field (R60): vector, scalar, predicate, special, or none (code 0xFF). -/
inductive Reg where
  | v (n : BitVec 7)
  | s (n : BitVec 6)
  | q (n : BitVec 3)
  | sp (r : SReg)
  | none
deriving DecidableEq, Repr

/-- A guard (R55): predicate `p`, negated when `neg`; the always-true guard is `⟨false, 0⟩`. -/
structure Guard where
  neg : Bool
  p : BitVec 3
deriving DecidableEq, Repr

/-- Conditions of ICMP and WAITC (R100, R203), in the order of FN 0 to 5. -/
inductive Cond where
  | eq | ne | lt | le | gt | ge
deriving DecidableEq, Repr

/-- Conditions of FCMP (R131), in the order of FN 0 to 7. -/
inductive FCond where
  | eq | ne | lt | le | gt | ge | un | ord
deriving DecidableEq, Repr

/-- How a comparison is combined with predicate C (R100): M[2:1] = 0 to 3. -/
inductive Comb where
  | none | and | or | xor
deriving DecidableEq, Repr

/-- The form of MOVI (R93): FN 0 writes K, FN 1 a sign-extended and FN 2 a zero-extended pair. -/
inductive MoviForm where
  | word | i64 | n64
deriving DecidableEq, Repr

/-- VOTE modes (R239), FN 0 to 2. -/
inductive VoteMode where
  | all | any | uni
deriving DecidableEq, Repr

/-- SHFL modes (R241), FN 0 to 3. -/
inductive ShflMode where
  | idx | up | down | xor
deriving DecidableEq, Repr

/-- SCAN and REDUCE operations (R243), FN 0 to 5. -/
inductive ScanOp where
  | add | min | max | and | or | xor
deriving DecidableEq, Repr

/-- Atomic operations (R195), FN 0 to 9. -/
inductive AtomOp where
  | add | min | max | and | or | xor | exch | fadd | fmin | fmax
deriving DecidableEq, Repr

/-- Access codes Z (R187): the memory forms, in the order 0 to 9, A, B and E. -/
inductive Acc where
  | i8 | n8 | i16 | n16 | i32 | n32 | i64 | n64 | f16 | bf16 | f32 | b128 | b32
deriving DecidableEq, Repr

/-- Cache hints H (R188), 0 to 3. -/
inductive Hint where
  | none | first | nl1 | keep
deriving DecidableEq, Repr

/-- The space of an atomic (R188, field P 0 to 2). -/
inductive ASpace where
  | global | sp | peer
deriving DecidableEq, Repr

/-- FENCE scopes (R199), FN 0 to 4. -/
inductive Scope where
  | crew | block | clust | part | sys
deriving DecidableEq, Repr

/-- The memory operand of format M (R57, R186): base, index and signed offset in access units. -/
structure Mem where
  b : Reg
  x : Reg
  f : BitVec 16
deriving DecidableEq, Repr

/-- Operand formats an MDESC names (R291), M[7:5] = 0 to 6. -/
inductive MFmt where
  | none | e2m1 | e4m3 | e5m2 | i8 | bf16 | f16
deriving DecidableEq, Repr

/-- Tile-group shapes of MLOOP (R294), FN 0 to 6. -/
inductive Shape where
  | s1x1 | s1x2 | s1x4 | s1x8 | s2x1 | s2x2 | s2x4
deriving DecidableEq, Repr

/-- Directions of CCOPY (R300), FN 0 to 2. -/
inductive CopyDir where
  | g2s | s2g | s2s
deriving DecidableEq, Repr

/-- The second word of CGATHER, CSCATTER and CSCATADD (R299). -/
structure RowWord where
  off : BitVec 12
  rb : BitVec 12
  nr : BitVec 16
  str : BitVec 24
deriving DecidableEq, Repr

/-- The second word of CCOPY and CFILL (R300, R301). -/
structure CopyWord where
  off : BitVec 12
  rb : BitVec 12
  nr : BitVec 8
  ss : BitVec 16
  ds : BitVec 16
deriving DecidableEq, Repr

/-- What a power-up stage ended with (R399, R400): success, or the error code 1 to 5. -/
inductive BootResult where
  | ok
  | failed (err : BitVec 8)
deriving DecidableEq, Repr

/-- What management writes to the fabric (R397): the device id, or one entry of the route table. -/
inductive RouteWrite where
  | devId (d : BitVec 16)
  | route (d : BitVec 16) (port : Option (Fin 12))
deriving DecidableEq, Repr

/-- One constructor per row of spec/opcode_table.json. The instructions come first, in the table's order; the
rows after `sealset` are the device's own steps (events), whose arguments say which crew, block, engine or
record the step belongs to and, where the spec leaves a choice open, which choice it takes. -/
inductive Instr where
  -- 06_control_integer R79-R89: control
  | nop (g : Guard)
  | go (g : Guard) (l : Word)
  | gox (g : Guard) (r : Reg)
  | call (g : Guard) (w : BitVec 16) (l : Word)
  | callx (g : Guard) (r : Reg) (l : Word)
  | ret (g : Guard)
  | done (g : Guard)
  | trap (g : Guard) (k : Word)
  | brk (g : Guard) (k : Word)
  | wantc (g : Guard) (d : Reg) (k : Word)
  | prefiIc (g : Guard) (n : Reg) (line : BitVec 28)
  | prefiL2 (g : Guard) (n : Reg) (line : BitVec 28)
  | pini (g : Guard) (n : Reg) (line : BitVec 28)
  | unpini (g : Guard) (n : Reg) (line : BitVec 28)
  | movs (g : Guard) (d : Reg) (r : SReg)
  -- R93-R103: integer
  | mov (g : Guard) (t : Ty) (d a : Reg)
  | movi (g : Guard) (f : MoviForm) (d : Reg) (k : Word)
  | movh (g : Guard) (d a : Reg) (k : Word)
  | iadd (g : Guard) (t : Ty) (sat : Bool) (d a b : Reg)
  | iadd3 (g : Guard) (t : Ty) (sat : Bool) (d a b c : Reg)
  | isub (g : Guard) (t : Ty) (sat : Bool) (d a b : Reg)
  | addc (g : Guard) (d a b : Reg) (q : BitVec 3)
  | subb (g : Guard) (d a b : Reg) (q : BitVec 3)
  | imul (g : Guard) (t : Ty) (sat : Bool) (d a b : Reg)
  | imulh (g : Guard) (t : Ty) (d a b : Reg)
  | imad (g : Guard) (t : Ty) (sat : Bool) (d a b c : Reg)
  | imin (g : Guard) (t : Ty) (d a b : Reg)
  | imax (g : Guard) (t : Ty) (d a b : Reg)
  | iabs (g : Guard) (t : Ty) (sat : Bool) (d a : Reg)
  | ineg (g : Guard) (t : Ty) (sat : Bool) (d a : Reg)
  | and (g : Guard) (t : Ty) (d a b : Reg)
  | or (g : Guard) (t : Ty) (d a b : Reg)
  | xor (g : Guard) (t : Ty) (d a b : Reg)
  | andn (g : Guard) (t : Ty) (d a b : Reg)
  | shl (g : Guard) (t : Ty) (d a b : Reg)
  | shr (g : Guard) (t : Ty) (d a b : Reg)
  | sar (g : Guard) (t : Ty) (d a b : Reg)
  | rot (g : Guard) (t : Ty) (d a b : Reg)
  | bfx (g : Guard) (t : Ty) (d a b : Reg)
  | bfi (g : Guard) (t : Ty) (d a b c : Reg)
  | popc (g : Guard) (t : Ty) (d a : Reg)
  | clz (g : Guard) (t : Ty) (d a : Reg)
  | ctz (g : Guard) (t : Ty) (d a : Reg)
  | brev (g : Guard) (t : Ty) (d a : Reg)
  | icmp (g : Guard) (t : Ty) (cond : Cond) (comb : Comb) (d : BitVec 3) (a b c : Reg)
  | isel (g : Guard) (t : Ty) (d a b : Reg) (q : BitVec 3)
  | lea (g : Guard) (t : Ty) (sh : BitVec 3) (d a b : Reg)
  | idot4 (g : Guard) (t : Ty) (sat mixed : Bool) (d a b c : Reg)
  | got (g : Guard) (r : Reg) (tbl : Word) (n w : BitVec 16)
  -- 08_float_convert R128: float and conversion
  | fadd (g : Guard) (t : Ty) (rm : Rm) (sat x2 ftz : Bool) (d a b : Reg)
  | fsub (g : Guard) (t : Ty) (rm : Rm) (sat x2 ftz : Bool) (d a b : Reg)
  | fmul (g : Guard) (t : Ty) (rm : Rm) (sat x2 ftz : Bool) (d a b : Reg)
  | ffma (g : Guard) (t : Ty) (rm : Rm) (sat x2 ftz : Bool) (d a b c : Reg)
  | fmin (g : Guard) (t : Ty) (x2 ftz : Bool) (d a b : Reg)
  | fmax (g : Guard) (t : Ty) (x2 ftz : Bool) (d a b : Reg)
  | fcmp (g : Guard) (t : Ty) (cond : FCond) (comb : Comb) (ftz : Bool) (d : BitVec 3) (a b c : Reg)
  | fclass (g : Guard) (t : Ty) (d a : Reg)
  | frcp (g : Guard) (t : Ty) (rm : Rm) (sat ftz : Bool) (d a : Reg)
  | frsq (g : Guard) (t : Ty) (sat ftz : Bool) (d a : Reg)
  | fsqrt (g : Guard) (t : Ty) (rm : Rm) (sat ftz : Bool) (d a : Reg)
  | fexp2 (g : Guard) (t : Ty) (sat ftz : Bool) (d a : Reg)
  | flog2 (g : Guard) (t : Ty) (sat ftz : Bool) (d a : Reg)
  | fsin (g : Guard) (t : Ty) (sat ftz : Bool) (d a : Reg)
  | fcos (g : Guard) (t : Ty) (sat ftz : Bool) (d a : Reg)
  | ftanh (g : Guard) (t : Ty) (sat ftz : Bool) (d a : Reg)
  | fscale (g : Guard) (t : Ty) (rm : Rm) (sat ftz : Bool) (d a b : Reg)
  | frnd (g : Guard) (t : Ty) (rm : Rm) (ftz : Bool) (d a : Reg)
  | fdot2 (g : Guard) (t : Ty) (rm : Rm) (sat ftz : Bool) (d a b c : Reg)
  | cvt (g : Guard) (td ts : Ty) (rm : Rm) (sat ftz : Bool) (d a b : Reg)
  | pack (g : Guard) (td ts : Ty) (rm : Rm) (sat ftz : Bool) (n : BitVec 3) (d a b c : Reg)
  | unpack (g : Guard) (td ts : Ty) (rm : Rm) (sat ftz : Bool) (n : BitVec 3) (d a b : Reg)
  -- 15_crew_instructions R238: crew-wide
  | vote (g : Guard) (m : VoteMode) (d : Reg) (q : BitVec 3)
  | ballot (g : Guard) (d : Reg) (q : BitVec 3)
  | shfl (g : Guard) (m : ShflMode) (t : Ty) (d a b : Reg)
  | scan (g : Guard) (op : ScanOp) (t : Ty) (rm : Rm) (sat excl ftz : Bool) (d a : Reg)
  | reduce (g : Guard) (op : ScanOp) (t : Ty) (rm : Rm) (sat ftz : Bool) (d a : Reg)
  | matchI (g : Guard) (t : Ty) (d a c : Reg)
  | isect (g : Guard) (t : Ty) (q : BitVec 3) (d a b c : Reg)
  | regroup (d : BitVec 3) (a b : Reg) (n : BitVec 7)
  | qnt (g : Guard) (t : Ty) (rm : Rm) (fine outl ftz : Bool) (d a c : Reg)
  | take (g : Guard) (w32 : Bool) (d a c : Reg)
  | netcnt (g : Guard) (d a : Reg)
  -- 12_memory_instructions: memory, atomics, fences, barriers, arrival words
  | ld (g : Guard) (z : Acc) (h : Hint) (home : Bool) (d : Reg) (m : Mem)
  | st (g : Guard) (z : Acc) (h : Hint) (d : Reg) (m : Mem)
  | lds (g : Guard) (z : Acc) (d : Reg) (m : Mem)
  | sts (g : Guard) (z : Acc) (d : Reg) (m : Mem)
  | ldp (g : Guard) (z : Acc) (d : Reg) (m : Mem)
  | stp (g : Guard) (z : Acc) (d : Reg) (m : Mem)
  | ldl (g : Guard) (z : Acc) (h : Hint) (d : Reg) (m : Mem)
  | stl (g : Guard) (z : Acc) (h : Hint) (d : Reg) (m : Mem)
  | atom (g : Guard) (op : AtomOp) (z : Acc) (spc : ASpace) (d : Reg) (m : Mem)
  | cas (g : Guard) (z : Acc) (spc : ASpace) (d : Reg) (m : Mem)
  | red (g : Guard) (op : AtomOp) (z : Acc) (spc : ASpace) (d : Reg) (m : Mem)
  | fence (g : Guard) (sc : Scope)
  | phasePub (g : Guard)
  | phaseRef (g : Guard)
  | phaseFull (g : Guard)
  | waitc (g : Guard) (cond : Cond) (z : Acc) (d : Reg) (m : Mem)
  | pref (g : Guard) (l2 : Bool) (h : Hint) (m : Mem)
  | sfence (g : Guard) (a b : Reg)
  | bar
  | barc
  | awinit (g : Guard) (d : Reg) (m : Mem)
  | arrive (g : Guard) (d : Reg) (m : Mem)
  | await (g : Guard) (d : Reg) (m : Mem)
  -- 18_engine_instructions: matrix, copy and collective engines
  | mdesc (g : Guard) (l2 : Bool) (fmt : MFmt) (h : BitVec 4) (stride : Word) (a b : Reg)
  | mzero (g : Guard) (t : BitVec 3)
  | mwrite (g : Guard) (int : Bool) (t : BitVec 3) (a b c : Reg)
  | mloop (g : Guard) (sh : Shape) (t : BitVec 3) (ha hb : BitVec 4) (k : BitVec 16) (ia ib : BitVec 20)
  | mwait (g : Guard) (all : Bool) (t : BitVec 3)
  | mread (g : Guard) (i64 : Bool) (t : BitVec 3) (d a b : Reg)
  | mfence (g : Guard)
  | mstat (g : Guard) (d : Reg)
  | mstatLog (g : Guard) (d a : Reg)
  | mstatExp (g : Guard) (t : BitVec 3) (d : Reg)
  | mstatClr (g : Guard)
  | cgather (g : Guard) (r : RowWord) (d a b c : Reg)
  | cscatter (g : Guard) (r : RowWord) (d a b c : Reg)
  | cscatadd (g : Guard) (t : Ty) (r : RowWord) (d a b c : Reg)
  | ccopy (g : Guard) (dir : CopyDir) (mc : Bool) (w : CopyWord) (d a c : Reg)
  | cfill (g : Guard) (glob : Bool) (w : CopyWord) (d a c : Reg)
  | cstat (g : Guard) (d : Reg)
  | cstatClr (g : Guard) (d : Reg)
  | xgrp (g : Guard) (slot : BitVec 4) (a : Reg)
  | xgrpEnd (g : Guard) (slot : BitVec 4)
  | xgather (g : Guard) (slot : BitVec 4) (ioff cb : Word) (a : Reg)
  | xrscat (g : Guard) (t : Ty) (slot : BitVec 4) (ioff cb : Word) (a : Reg)
  | xa2a (g : Guard) (slot : BitVec 4) (ioff cb : Word) (a : Reg)
  | xbar (g : Guard) (slot : BitVec 4)
  | xwait (g : Guard) (slot : BitVec 4)
  -- 23_system_instructions R373
  | rsplit (g : Guard) (one : Bool) (d a b c : Reg)
  | rmerge (g : Guard) (d a b : Reg)
  | rinval (g : Guard) (all : Bool) (a b c : Reg)
  | rprobe (g : Guard) (d a b : Reg) (q : BitVec 3)
  | rprobeS2 (g : Guard) (d a b : Reg) (q : BitVec 3)
  | rcompact (g : Guard) (d a b c : Reg)
  | netsave (g : Guard) (d a b : Reg)
  | netload (g : Guard) (d a b : Reg)
  | netdrain (g : Guard) (a : Reg)
  | netreset (g : Guard) (a : Reg)
  | hinfo (g : Guard) (pc : Bool) (d : Reg)
  | hget (g : Guard) (d r : Reg)
  | hput (g : Guard) (r a : Reg)
  | hresume (g : Guard)
  | hkill (g : Guard)
  | habort (g : Guard)
  | launch (g : Guard) (d a b : Reg)
  | cntcfg (g : Guard) (d a b c : Reg)
  | cntrd (g : Guard) (d a : Reg)
  | sealset (g : Guard) (d a b : Reg)
  -- events: sequencer, phase machine, scheduling (04, 11, 14)
  | spanCensus (b c : Nat)
  | fetchLineLoad (b c time : Nat)
  | laneUnpark (b c l : Nat)
  | operationPerform (b c k : Nat) (posted : Bool) (picks : List Nat)
  | drain (b k : Nat)
  | waitcPoll (b c l : Nat)
  | regroupPair (b c c2 : Nat)
  | regroupTimeout (b c : Nat)
  | crewPromote (b c : Nat)
  | localityScoreDecay (core : Nat)
  | tokenNumberReturn (net : Nat) (hops : List Nat) (tok : Nat)
  | networkDrained (net : Nat)
  -- events: handler crews, blocks, launches (21, 22)
  | handlerCrewFormFull (core : Nat)
  | handlerCrewFormTimeout (core : Nat)
  | blockAbortStop (b : Nat)
  | blockComplete (b : Nat)
  | launchComplete (launch : Word)
  | launchListTake (vf list : Nat)
  | listHeadWake (vf list : Nat)
  | blockPlace (launch : Word)
  | groupPlace (launch : Word)
  -- events: engines (17)
  | copyPiece (b k row piece : Nat) (ecc : Bool)
  | copyMarker (b k : Nat)
  | matrixCmdExecute (b : Nat)
  /-- block; operand rows that come from the cache, 512 * side + row; uncorrectable elements, 32768 * side + 64 * row + element, and
  scale words, 65536 + 32768 * side + 64 * row -/
  | matrixKstep (b : Nat) (cached ecc : List Nat)
  | collectiveDeliver (op member : Nat) (order : List Nat)
  | collectiveOpComplete (op member : Nat)
  | collectiveTimeout (b c l : Nat)
  | collectiveFallback (op : Nat)
  -- events: the fuller, slices, resets, records (20, 22, 24)
  | fullerStart (die : Nat)
  | fullerGranuleMove (die : Nat)
  | sliceExpiry (part : Nat)
  | sliceEarlyEnd (part : Nat)
  | partitionReset (part : Nat)
  | partitionDrainComplete (part : Nat)
  | hostSwitchAck (part : Nat)
  | partitionRecordWrite (part off : Nat) (data : List Byte)
  | functionRecordWrite (part vf off : Nat) (data : List Byte)
  | denialConsumerWrite (part : Nat) (c : DWord)
  | registerWrite (off : Nat) (v : DWord)
  -- events: host, link, fabric, power and management (24, 25)
  | hostApertureWrite (off : Nat) (data : List Byte)
  | hostApertureRead (off n : Nat)
  | hostRecall (line : Nat) (off : Nat) (data : List Byte)
  | hostTierResponse (k : Nat)
  | linkFlitReceive (flit : BitVec 2048)
  | fabricFlitReceive (port : Nat) (flit : BitVec 512)
  | fabricRouteWrite (w : RouteWrite)
  | powerGood
  | bootStageComplete (r : BootResult)
  | adaptiveAdjust
  | plimSet (watts : Nat)
  | powerLimitThrottle (lower space : Bool)
  | thermalTrip
  | memoryRetrain (channel : Nat)
  | retrainRequest (channel : Nat)
  | attestationReport (nonce : BitVec 384)
  | keySlotLoad (slot : Nat) (key : Nat)
  | powerRemoved
  | unassignedMajor (w : DWord)
deriving DecidableEq, Repr

end Sys2Proof
end

