-- ==== Sys2Proof/WellFormed.lean ====
section
/-! DEFINITION. Which instructions are well formed: the encoding limits of every entry (R55, R56, R59-R64 and the
entry's own table). A limit that depends on the crew (its budget, its block's tiles) is checked at issue instead
(Machine/Ops.lean). An encoding whose instruction is not well formed raises an illegal-instruction trap (R68). -/

namespace Sys2Proof

/-- G = 0b1000 is reserved (R55). -/
def Guard.wf (g : Guard) : Bool := !(g.neg && g.p == 0)

/-- The guard that is always true (R55, G = 0). -/
def Guard.always : Guard := ⟨false, 0⟩

namespace Ty

/-- The eight types i8 to n64 that R94 abbreviates "i8-n64". -/
def isInt : Ty → Bool
  | i8 | n8 | i16 | n16 | i32 | n32 | i64 | n64 => true
  | _ => false

/-- The six float types (R106). -/
def isFloat : Ty → Bool
  | f16 | bf16 | f32 | e4m3 | e5m2 | e2m1 => true
  | _ => false

/-- f32, f16 and bf16: the types most float instructions list (R128). -/
def isArith : Ty → Bool
  | f16 | bf16 | f32 => true
  | _ => false

/-- Types that live in an even-aligned pair (R61). -/
def is64 : Ty → Bool
  | i64 | n64 => true
  | _ => false

/-- Signed integer types (R63). -/
def isSigned : Ty → Bool
  | i8 | i16 | i32 | i64 => true
  | _ => false

/-- The width of a value of the type in bits (R105, R106). -/
def width : Ty → Nat
  | i8 | n8 | e4m3 | e5m2 => 8
  | i16 | n16 | f16 | bf16 => 16
  | i32 | n32 | f32 | b32 => 32
  | i64 | n64 => 64
  | e2m1 => 4

end Ty

namespace Reg

/-- A vector register. -/
def isV : Reg → Bool
  | v _ => true
  | _ => false

/-- A scalar register. -/
def isS : Reg → Bool
  | s _ => true
  | _ => false

/-- A predicate. -/
def isQ : Reg → Bool
  | q _ => true
  | _ => false

/-- The code 0xFF. -/
def isNone : Reg → Bool
  | none => true
  | _ => false

/-- A vector or scalar register. -/
def isVS (r : Reg) : Bool := r.isV || r.isS

/-- A scalar register or 0xFF. -/
def isSN (r : Reg) : Bool := r.isS || r.isNone

/-- A vector register, a scalar register or 0xFF. -/
def isGp (r : Reg) : Bool := r.isV || r.isS || r.isNone

/-- An even register of a pair, or 0xFF (R61). -/
def isEven : Reg → Bool
  | v n => n.toNat % 2 == 0
  | s n => n.toNat % 2 == 0
  | none => true
  | _ => false

/-- A register whose number is a multiple of `k`, or 0xFF (R187, R240, R377). -/
def isMul (k : Nat) : Reg → Bool
  | v n => n.toNat % k == 0
  | s n => n.toNat % k == 0
  | none => true
  | _ => false

/-- An even scalar register. -/
def isES (r : Reg) : Bool := r.isS && r.isEven

/-- The operand of a value of type `t`: a general register, even when the type is 64-bit (R61). -/
def fits (t : Ty) (r : Reg) : Bool := r.isGp && (!t.is64 || r.isEven)

end Reg

/-- R56, R92: a scalar destination needs scalar sources or 0xFF. -/
def crewOk (d : Reg) (srcs : List Reg) : Bool := !d.isS || srcs.all Reg.isSN

/-- R100, R131: the combine names predicate C exactly when it is present. -/
def Comb.wf (c : Comb) (r : Reg) : Bool :=
  match c with
  | .none => r.isNone
  | _ => r.isQ

namespace Acc

/-- Access size in bytes (R187). -/
def size : Acc → Nat
  | i8 | n8 => 1
  | i16 | n16 | f16 | bf16 => 2
  | i32 | n32 | f32 | b32 => 4
  | i64 | n64 => 8
  | b128 => 16

/-- A data register of the access: its class and alignment (R61, R187, R189). -/
def regOk (z : Acc) (d : Reg) : Bool :=
  d.isGp && match z with
    | i64 | n64 => d.isEven
    | b128 => d.isMul 4
    | _ => true

/-- Access types that WAITC and CAS accept (R196, R203). -/
def isWord : Acc → Bool
  | b32 | i32 | n32 | i64 | n64 => true
  | _ => false

end Acc

/-- Global memory operands name an even base pair (R186). -/
def Mem.globalOk (m : Mem) : Bool := m.b.isGp && m.b.isEven && m.x.isGp

/-- Operands of the other spaces name a 32-bit base (R186). -/
def Mem.localOk (m : Mem) : Bool := m.b.isGp && m.x.isGp

/-- R189: with a scalar destination, base and index are scalar registers or 0xFF. -/
def Mem.crewOk (m : Mem) (d : Reg) : Bool := !d.isS || (m.b.isSN && m.x.isSN)

/-- The operand of an atomic by its space (R186). -/
def Mem.atomOk (m : Mem) (spc : ASpace) : Bool :=
  match spc with
  | .global => m.globalOk
  | _ => m.localOk

/-- The access types an atomic operation accepts (R195). -/
def AtomOp.accepts (op : AtomOp) (z : Acc) : Bool :=
  match op with
  | .add | .min | .max => z == .i32 || z == .n32 || z == .i64 || z == .n64
  | .and | .or | .xor => z == .b32 || z == .n32 || z == .n64
  | .exch => z == .b32 || z == .i32 || z == .n32 || z == .f32 || z == .i64 || z == .n64
  | .fadd | .fmin | .fmax => z == .f32

/-- The compared and new values of CAS: a pair, or four registers (R196). -/
def casRegOk (z : Acc) (d : Reg) : Bool := d.isGp && (if z.size == 8 then d.isMul 4 else d.isEven)

/-- R243: the types, rounding, saturation and flush a scan operation accepts. -/
def ScanOp.accepts (op : ScanOp) (t : Ty) (rm : Rm) (sat ftz : Bool) : Bool :=
  match op with
  | .add => (t.isInt && rm == .rne && !ftz) || (t.isArith && rm != .rst)
  | .min | .max => (t.isInt && !ftz || t.isArith) && rm == .rne && !sat
  | .and | .or | .xor => (t == .b32 || t == .n64) && rm == .rne && !sat && !ftz

/-- The types CVT converts (R139): all but b32. -/
def Ty.isCvt (t : Ty) : Bool := t != .b32

/-- R139: which RM and S a plain conversion accepts. -/
def cvtModesOk (td ts : Ty) (rm : Rm) (sat : Bool) : Bool :=
  if ts.isFloat then (td.isFloat || !sat)
  else (td.isFloat || rm == .rne)

/-- R140: the limits of a block decode. -/
def blockDecodeOk (td ts : Ty) (sat : Bool) (b : Reg) : Bool :=
  b.isVS && (ts == .e2m1 || ts == .e4m3 || ts == .e5m2 || ts == .i8) && td.isArith && !sat

/-- Narrow types of PACK and UNPACK (R142). -/
def Ty.isNarrow : Ty → Bool
  | .f16 | .bf16 | .i16 | .n16 | .e4m3 | .e5m2 | .i8 | .n8 | .e2m1 => true
  | _ => false

/-- Source types of PACK (R142): i8 to n32, f32, f16, bf16. -/
def Ty.isPackSrc : Ty → Bool
  | .i8 | .n8 | .i16 | .n16 | .i32 | .n32 | .f32 | .f16 | .bf16 => true
  | _ => false

/-- R291: the formats each form of MDESC may carry. -/
def mdescFmtOk (l2 : Bool) (f : MFmt) : Bool :=
  match f with
  | .none | .bf16 | .f16 => l2
  | .e2m1 | .e4m3 | .e5m2 | .i8 => !l2

/-- Element types of CSCATADD (R290). -/
def Ty.isScatAdd (t : Ty) : Bool := t == .i32 || t == .n32 || t == .i64 || t == .n64 || t == .f32

/-- Element types of XRSCAT (R290). -/
def Ty.isReduce (t : Ty) : Bool := t == .f32 || t == .bf16 || t == .i32 || t == .n32

/-- The tiles of a group (R261): rows and columns of tiles. -/
def Shape.dims : Shape → Nat × Nat
  | .s1x1 => (1, 1)
  | .s1x2 => (1, 2)
  | .s1x4 => (1, 4)
  | .s1x8 => (1, 8)
  | .s2x1 => (2, 1)
  | .s2x2 => (2, 2)
  | .s2x4 => (2, 4)

/-- Special registers whose scope is the lane (R62). -/
def SReg.isLane : SReg → Bool
  | .wl | .ro | .lid | .oid | .rng => true
  | _ => false

/-- Special registers that need a pair (R62). -/
def SReg.is64 : SReg → Bool
  | .clk | .cbase => true
  | _ => false

/-- Origin codes HGET and HPUT accept (R383): not clk, cbase, reserved or 0xFF. -/
def Reg.isOrigin : Reg → Bool
  | .sp .clk | .sp .cbase | .none => false
  | _ => true

/-- R96: the three operands are general registers of the type, or, for b32, all predicates (0xFF in a source). -/
def logicOk (t : Ty) (d a b : Reg) : Bool :=
  (t == .b32 || t == .n64) &&
  ((d.fits t && a.fits t && b.fits t && crewOk d [a, b]) ||
   (t == .b32 && d.isQ && (a.isQ || a.isNone) && (b.isQ || b.isNone)))

/-- R94: a two-operand integer instruction. -/
def int2Ok (t : Ty) (d a b : Reg) : Bool := d.fits t && a.fits t && b.fits t && crewOk d [a, b]

/-- R94: a three-operand integer instruction. -/
def int3Ok (t : Ty) (d a b c : Reg) : Bool :=
  d.fits t && a.fits t && b.fits t && c.fits t && crewOk d [a, b, c]

/-- R97, R98: the value operands have the type, the count or control is 32-bit. -/
def shiftOk (t : Ty) (d a b : Reg) : Bool := d.fits t && a.fits t && b.isGp && crewOk d [a, b]

/-- R124: float operands. -/
def floatOk (d : Reg) (srcs : List Reg) : Bool := d.isGp && srcs.all Reg.isGp && crewOk d srcs

/-- R127: `.x2` needs f16 or bf16. -/
def x2Ok (t : Ty) (x2 : Bool) : Bool := t.isArith && (!x2 || t == .f16 || t == .bf16)

/-- The guard of an instruction; those without one issue unguarded (R204, R246). -/
def Instr.guard : Instr → Guard
  | .nop g | .go g _ | .gox g _ | .call g _ _ | .callx g _ _ | .ret g | .done g | .trap g _ | .brk g _
  | .wantc g _ _ | .prefiIc g _ _ | .prefiL2 g _ _ | .pini g _ _ | .unpini g _ _ | .movs g _ _
  | .mov g _ _ _ | .movi g _ _ _ | .movh g _ _ _ | .iadd g _ _ _ _ _ | .iadd3 g _ _ _ _ _ _
  | .isub g _ _ _ _ _ | .addc g _ _ _ _ | .subb g _ _ _ _ | .imul g _ _ _ _ _ | .imulh g _ _ _ _
  | .imad g _ _ _ _ _ _ | .imin g _ _ _ _ | .imax g _ _ _ _ | .iabs g _ _ _ _ | .ineg g _ _ _ _
  | .and g _ _ _ _ | .or g _ _ _ _ | .xor g _ _ _ _ | .andn g _ _ _ _ | .shl g _ _ _ _ | .shr g _ _ _ _
  | .sar g _ _ _ _ | .rot g _ _ _ _ | .bfx g _ _ _ _ | .bfi g _ _ _ _ _ | .popc g _ _ _ | .clz g _ _ _
  | .ctz g _ _ _ | .brev g _ _ _ | .icmp g _ _ _ _ _ _ _ | .isel g _ _ _ _ _ | .lea g _ _ _ _ _
  | .idot4 g _ _ _ _ _ _ _ | .got g _ _ _ _ | .fadd g _ _ _ _ _ _ _ _ | .fsub g _ _ _ _ _ _ _ _
  | .fmul g _ _ _ _ _ _ _ _ | .ffma g _ _ _ _ _ _ _ _ _ | .fmin g _ _ _ _ _ _ | .fmax g _ _ _ _ _ _
  | .fcmp g _ _ _ _ _ _ _ _ | .fclass g _ _ _ | .frcp g _ _ _ _ _ _ | .frsq g _ _ _ _ _
  | .fsqrt g _ _ _ _ _ _ | .fexp2 g _ _ _ _ _ | .flog2 g _ _ _ _ _ | .fsin g _ _ _ _ _ | .fcos g _ _ _ _ _
  | .ftanh g _ _ _ _ _ | .fscale g _ _ _ _ _ _ _ | .frnd g _ _ _ _ _ | .fdot2 g _ _ _ _ _ _ _ _
  | .cvt g _ _ _ _ _ _ _ _ | .pack g _ _ _ _ _ _ _ _ _ _ | .unpack g _ _ _ _ _ _ _ _ _
  | .vote g _ _ _ | .ballot g _ _ | .shfl g _ _ _ _ _ | .scan g _ _ _ _ _ _ _ _ | .reduce g _ _ _ _ _ _ _
  | .matchI g _ _ _ _ | .isect g _ _ _ _ _ _ | .qnt g _ _ _ _ _ _ _ _ | .take g _ _ _ _ | .netcnt g _ _
  | .ld g _ _ _ _ _ | .st g _ _ _ _ | .lds g _ _ _ | .sts g _ _ _ | .ldp g _ _ _ | .stp g _ _ _
  | .ldl g _ _ _ _ | .stl g _ _ _ _ | .atom g _ _ _ _ _ | .cas g _ _ _ _ | .red g _ _ _ _ _ | .fence g _
  | .phasePub g | .phaseRef g | .phaseFull g | .waitc g _ _ _ _ | .pref g _ _ _ | .sfence g _ _
  | .awinit g _ _ | .arrive g _ _ | .await g _ _ | .mdesc g _ _ _ _ _ _ | .mzero g _ | .mwrite g _ _ _ _ _
  | .mloop g _ _ _ _ _ _ _ | .mwait g _ _ | .mread g _ _ _ _ _ | .mfence g | .mstat g _ | .mstatLog g _ _
  | .mstatExp g _ _ | .mstatClr g | .cgather g _ _ _ _ _ | .cscatter g _ _ _ _ _ | .cscatadd g _ _ _ _ _ _
  | .ccopy g _ _ _ _ _ _ | .cfill g _ _ _ _ _ | .cstat g _ | .cstatClr g _ | .xgrp g _ _ | .xgrpEnd g _
  | .xgather g _ _ _ _ | .xrscat g _ _ _ _ _ | .xa2a g _ _ _ _ | .xbar g _ | .xwait g _
  | .rsplit g _ _ _ _ _ | .rmerge g _ _ _ | .rinval g _ _ _ _ | .rprobe g _ _ _ _ | .rprobeS2 g _ _ _ _
  | .rcompact g _ _ _ _ | .netsave g _ _ _ | .netload g _ _ _ | .netdrain g _ | .netreset g _ | .hinfo g _ _
  | .hget g _ _ | .hput g _ _ | .hresume g | .hkill g | .habort g | .launch g _ _ _ | .cntcfg g _ _ _ _
  | .cntrd g _ _ | .sealset g _ _ _ => g
  | _ => Guard.always

/-- The assigned majors of the opcode map (R65). -/
def majorAssigned (c : BitVec 8) : Bool :=
  let o := c.toNat
  (0x01 ≤ o && o ≤ 0x0C) || (0x10 ≤ o && o ≤ 0x2D) || (0x30 ≤ o && o ≤ 0x45) || (0x50 ≤ o && o ≤ 0x5A)
  || (0x60 ≤ o && o ≤ 0x6F) || (0x80 ≤ o && o ≤ 0x84) || (0xA0 ≤ o && o ≤ 0xAF) || (0xC0 ≤ o && o ≤ 0xC7)
  || (0xD0 ≤ o && o ≤ 0xD5) || (0xE0 ≤ o && o ≤ 0xE5) || o == 0xF0

/-- The limits of each entry on its operands; the guard is checked beside it (`Instr.wf`). -/
def Instr.operandsOk : Instr → Bool
  | .nop _ | .go _ _ | .call _ _ _ | .ret _ | .done _ | .trap _ _ | .brk _ _ => true
  | .gox _ r | .callx _ r _ => r.isVS
  | .wantc _ d _ => d.isVS
  | .prefiIc _ n _ | .prefiL2 _ n _ | .pini _ n _ | .unpini _ n _ => n.isSN
  | .movs _ d r => (if r.isLane then d.isV || d.isNone else d.isGp) && (!r.is64 || d.isEven)
  | .mov _ t d a =>
      (t == .b32 && ((d.isGp && a.isGp && crewOk d [a]) || (d.isQ && a.isGp) || (a.isQ && (d.isV || d.isNone))))
      || (t.is64 && d.fits t && a.fits t && crewOk d [a])
  | .movi _ f d _ => d.isGp && (f == .word || d.isEven)
  | .movh _ d a _ => d.isGp && d.isEven && a.isGp && crewOk d [a]
  | .iadd _ t _ d a b | .isub _ t _ d a b | .imul _ t _ d a b => t.isInt && int2Ok t d a b
  | .imin _ t d a b | .imax _ t d a b => t.isInt && int2Ok t d a b
  | .iadd3 _ t _ d a b c | .imad _ t _ d a b c => t.isInt && int3Ok t d a b c
  | .addc _ d a b _ | .subb _ d a b _ => d.isV && a.isGp && b.isGp
  | .imulh _ t d a b => (t == .i32 || t == .n32 || t.is64) && int2Ok t d a b
  | .iabs _ t _ d a | .ineg _ t _ d a => t.isSigned && d.fits t && a.fits t && crewOk d [a]
  | .and _ t d a b | .or _ t d a b | .xor _ t d a b | .andn _ t d a b => logicOk t d a b
  | .shl _ t d a b => (t == .b32 || t == .n32 || t == .i32 || t.is64) && shiftOk t d a b
  | .shr _ t d a b => (t == .b32 || t == .n32 || t == .n64) && shiftOk t d a b
  | .sar _ t d a b => (t == .i32 || t == .i64) && shiftOk t d a b
  | .rot _ t d a b => (t == .b32 || t == .n64) && shiftOk t d a b
  | .bfx _ t d a b => (t == .i32 || t == .n32 || t.is64) && shiftOk t d a b
  | .bfi _ t d a b c =>
      (t == .b32 || t == .n64) && d.fits t && a.fits t && b.fits t && c.isGp && crewOk d [a, b, c]
  | .popc _ t d a | .clz _ t d a | .ctz _ t d a =>
      (t == .b32 || t == .n64) && d.isGp && a.fits t && crewOk d [a]
  | .brev _ t d a => (t == .b32 || t == .n64) && d.fits t && a.fits t && crewOk d [a]
  | .icmp _ t cond comb _ a b c =>
      (t.isInt || (t == .b32 && (cond == .eq || cond == .ne))) && a.fits t && b.fits t && comb.wf c
  | .isel _ t d a b _ => (t == .b32 || t.is64) && d.fits t && !d.isS && a.fits t && b.fits t
  | .lea _ t _ d a b =>
      (t == .i32 || t == .n32) && d.isGp && d.isEven && a.isGp && a.isEven && b.isGp && crewOk d [a, b]
  | .idot4 _ t _ _ d a b c =>
      (t == .i8 || t == .n8) && d.isGp && a.isGp && b.isGp && c.isGp && crewOk d [a, b, c]
  | .got _ r _ n _ => r.isVS && n != 0
  | .fadd _ t _ _ x2 _ d a b | .fsub _ t _ _ x2 _ d a b | .fmul _ t _ _ x2 _ d a b =>
      x2Ok t x2 && floatOk d [a, b]
  | .ffma _ t _ _ x2 _ d a b c => x2Ok t x2 && floatOk d [a, b, c]
  | .fmin _ t x2 _ d a b | .fmax _ t x2 _ d a b => x2Ok t x2 && floatOk d [a, b]
  | .fcmp _ t _ comb _ _ a b c => t.isArith && a.isGp && b.isGp && comb.wf c
  | .fclass _ t d a => t.isFloat && floatOk d [a]
  | .frcp _ t _ _ _ d a | .fsqrt _ t _ _ _ d a => t.isArith && floatOk d [a]
  | .frsq _ t _ _ d a | .fexp2 _ t _ _ d a | .flog2 _ t _ _ d a | .fsin _ t _ _ d a | .fcos _ t _ _ d a
  | .ftanh _ t _ _ d a => t.isArith && floatOk d [a]
  | .fscale _ t _ _ _ d a b => t.isArith && floatOk d [a, b]
  | .frnd _ t _ _ d a => t.isArith && floatOk d [a]
  | .fdot2 _ t _ _ _ d a b c => (t == .f16 || t == .bf16) && floatOk d [a, b, c]
  | .cvt _ td ts rm sat _ d a b =>
      td.isCvt && ts.isCvt && d.fits td && a.fits ts && crewOk d [a, b]
      && (if b.isNone then cvtModesOk td ts rm sat else blockDecodeOk td ts sat b)
  | .pack _ td ts rm sat _ n d a b c =>
      td.isNarrow && ts.isPackSrc && floatOk d [a, b, c] && cvtModesOk td ts rm sat
      && decide (n.toNat * td.width < 16) && (td.width != 16 || c.isNone)
  | .unpack _ td ts rm sat _ n d a b =>
      ts.isNarrow && td.isCvt && !td.is64 && floatOk d [a, b] && decide (n.toNat * ts.width < 32)
      && (if b.isNone then cvtModesOk td ts rm sat else blockDecodeOk td ts sat b)
  | .vote _ _ d _ => d.isQ || d.isS
  | .ballot _ d _ => d.isS && d.isMul 4
  | .shfl _ _ t d a b => (t == .b32 || t == .n64) && d.isV && a.isVS && b.isVS && d.fits t && a.fits t
  | .scan _ op t rm sat _ ftz d a => op.accepts t rm sat ftz && d.isV && a.isVS && d.fits t && a.fits t
  | .reduce _ op t rm sat ftz d a => op.accepts t rm sat ftz && d.isVS && a.isVS && d.fits t && a.fits t
  | .matchI _ t d a c => (t == .b32 || t == .n64) && d.isV && a.isVS && a.fits t && (c.isQ || c.isNone)
  | .isect _ t _ d a b c =>
      (t == .i32 || t == .n32 || t.is64) && d.isV && d.isEven && a.isVS && a.fits t && b.isVS && b.fits t && c.isES
  | .regroup _ a b _ => a.isSN && b.isV
  | .qnt _ t _ _ outl _ d a c =>
      (t == .e2m1 || t == .e4m3 || t == .e5m2 || t == .i8) && d.isV && a.isV && c.isES && (!outl || t == .e2m1)
  | .take _ w32 d a c => d.isV && a.isS && (if w32 then c.isQ else d.isEven && c.isNone)
  | .netcnt _ d a => d.isVS && d.isEven && a.isS
  | .ld _ z _ _ d m => z.regOk d && m.globalOk && m.crewOk d
  | .st _ z _ d m => z.regOk d && m.globalOk
  | .lds _ z d m | .ldp _ z d m => z.regOk d && m.localOk && m.crewOk d
  | .sts _ z d m | .stp _ z d m => z.regOk d && m.localOk
  | .ldl _ z _ d m => z.regOk d && m.localOk && m.crewOk d
  | .stl _ z _ d m => z.regOk d && m.localOk
  | .atom _ op z spc d m => op.accepts z && z.regOk d && m.atomOk spc && m.crewOk d
  | .cas _ z spc d m => z.isWord && casRegOk z d && m.atomOk spc && m.crewOk d
  | .red _ op z spc d m => op != .exch && op.accepts z && z.regOk d && m.atomOk spc
  | .fence _ _ | .phasePub _ | .phaseRef _ | .phaseFull _ | .bar | .barc => true
  | .waitc _ cond z d m =>
      z.isWord && (z != .b32 || cond == .eq || cond == .ne) && z.regOk d && m.globalOk
  | .pref _ _ _ m => m.globalOk
  | .sfence _ a b => a.isSN && b.isSN
  | .awinit _ d m | .arrive _ d m | .await _ d m => d.isVS && m.localOk
  | .mdesc _ l2 fmt _ _ a b => mdescFmtOk l2 fmt && a.isS && (if l2 then a.isEven && b.isNone else b.isSN)
  | .mzero _ _ => true
  | .mwrite _ _ _ a b c => a.isVS && b.isVS && c.isVS
  | .mloop _ _ _ _ _ k _ _ => k != 0
  | .mwait _ all t => !all || t == 0
  | .mread _ i64 _ d a b => d.isV && (!i64 || d.isEven) && a.isVS && b.isVS
  | .mfence _ | .mstatClr _ => true
  | .mstat _ d => d.isES
  | .mstatLog _ d a => d.isES && a.isSN
  | .mstatExp _ _ d => d.isES
  | .cgather _ r d a b c | .cscatter _ r d a b c =>
      d.isVS && a.isVS && a.isEven && b.isVS && c.isVS && r.nr != 0
  | .cscatadd _ t r d a b c =>
      t.isScatAdd && d.isVS && a.isVS && a.isEven && b.isVS && c.isVS && r.nr != 0
      && (r.rb.toNat + 1) % (t.width / 8) == 0
  | .ccopy _ dir mc _ d a c =>
      d.isVS && a.isVS && c.isVS && (!mc || dir == .g2s)
      && (match dir with
          | .g2s => a.isEven
          | .s2g => d.isEven
          | .s2s => true)
  | .cfill _ glob w d a c => d.isVS && a.isVS && c.isVS && w.ss == 0 && (!glob || (d.isEven && w.off == 0))
  | .cstat _ d | .cstatClr _ d => d.isES
  | .xgrp _ _ a => a.isES
  | .xgrpEnd _ _ | .xbar _ _ | .xwait _ _ => true
  | .xgather _ _ _ cb a | .xa2a _ _ _ cb a => a.isES && cb != 0
  | .xrscat _ t _ _ cb a => t.isReduce && a.isES && cb != 0 && cb.toNat % (t.width / 8) == 0
  | .rsplit _ _ d a b c | .rcompact _ d a b c => d.isS && a.isS && b.isES && c.isES
  | .rmerge _ d a b | .netsave _ d a b | .netload _ d a b | .sealset _ d a b => d.isS && a.isS && b.isES
  | .rinval _ all a b c => a.isS && (if all then b.isNone && c.isNone else b.isES && c.isS)
  | .rprobe _ d a b _ | .rprobeS2 _ d a b _ => d.isS && d.isMul 8 && a.isS && b.isES
  | .netdrain _ a | .netreset _ a => a.isS
  | .hinfo _ pc d => d.isV && (pc || d.isEven)
  | .hget _ d r => d.isV && r.isOrigin
  | .hput _ r a => r.isOrigin && a.isVS
  | .hresume _ | .hkill _ | .habort _ => true
  | .launch _ d a b => d.isES && a.isS && b.isES
  | .cntcfg _ d a b c => d.isS && a.isS && b.isS && c.isS
  | .cntrd _ d a => d.isES && a.isS
  | .unassignedMajor w => !majorAssigned (bits w 56 8)
  | _ => true

/-- A well-formed instruction: one that `legal` of R69 passes as far as its encoding alone decides. -/
def Instr.wf (i : Instr) : Bool := i.guard.wf && i.operandsOk

/-- The rows of the opcode table that are steps of the device rather than instructions of a crew. -/
def Instr.isEvent : Instr → Bool
  | .spanCensus .. | .fetchLineLoad .. | .laneUnpark .. | .operationPerform .. | .drain .. | .waitcPoll ..
  | .regroupPair .. | .regroupTimeout .. | .crewPromote .. | .localityScoreDecay .. | .tokenNumberReturn ..
  | .networkDrained .. | .handlerCrewFormFull .. | .handlerCrewFormTimeout .. | .blockAbortStop ..
  | .blockComplete .. | .launchComplete .. | .launchListTake .. | .listHeadWake .. | .blockPlace ..
  | .groupPlace .. | .copyPiece .. | .copyMarker .. | .matrixCmdExecute .. | .matrixKstep ..
  | .collectiveDeliver .. | .collectiveOpComplete .. | .collectiveTimeout .. | .collectiveFallback ..
  | .fullerStart .. | .fullerGranuleMove .. | .sliceExpiry .. | .sliceEarlyEnd .. | .partitionReset ..
  | .partitionDrainComplete .. | .hostSwitchAck .. | .partitionRecordWrite .. | .functionRecordWrite ..
  | .denialConsumerWrite .. | .registerWrite .. | .hostApertureWrite .. | .hostApertureRead ..
  | .hostRecall .. | .hostTierResponse .. | .linkFlitReceive .. | .fabricFlitReceive ..
  | .fabricRouteWrite .. | .powerGood | .bootStageComplete .. | .adaptiveAdjust | .plimSet ..
  | .powerLimitThrottle .. | .thermalTrip | .memoryRetrain .. | .retrainRequest .. | .attestationReport ..
  | .keySlotLoad .. | .powerRemoved => true
  | _ => false

end Sys2Proof
end

