-- ==== Sys2Proof/Decode.lean ====
section
/-! DEFINITION. Decoding and encoding (05_encoding R50-R68 and the encoding tables of 06, 08, 12, 15, 18, 23).
A word is taken apart by its format (R57), its codes are read by R60-R64, and the entry's own fields by its table.
What remains of R59 (unused register fields hold 0xFF, every other unused bit is zero, FN has an assigned value)
is one test: the instruction read must encode to the words it was read from. The device's events have no words. -/

namespace Sys2Proof

/-- Why a word is no instruction (R68); every one of them raises an illegal-instruction trap when it issues. -/
inductive DecodeError where
  /-- fewer bytes than the instruction has -/
  | short
  /-- an FN that the entry does not define (R66) -/
  | fn
  /-- a reserved or unlisted T, RM, Z or mode code (R63, R64, R187) -/
  | code
  /-- a reserved register code (R60, R62) -/
  | register
  /-- an operand that breaks the entry's limits or R61 -/
  | operand
  /-- an unused field that breaks R59 -/
  | unused
deriving DecidableEq, Repr

/-! ### Codes -/

/-- The code of a special register (R62). -/
def SReg.code : SReg → BitVec 8
  | .wl => 0xC8 | .ro => 0xC9 | .lid => 0xCA | .oid => 0xCB | .cid => 0xCC | .bid => 0xCD | .swc => 0xCE
  | .clk => 0xCF | .clid => 0xD0 | .core => 0xD1 | .part => 0xD2 | .lnch => 0xD3 | .rng => 0xD4 | .cbase => 0xD5

/-- The special register of a code (R62). -/
def SReg.ofCode (c : BitVec 8) : Option SReg :=
  if c == 0xC8 then some .wl else if c == 0xC9 then some .ro else if c == 0xCA then some .lid
  else if c == 0xCB then some .oid else if c == 0xCC then some .cid else if c == 0xCD then some .bid
  else if c == 0xCE then some .swc else if c == 0xCF then some .clk else if c == 0xD0 then some .clid
  else if c == 0xD1 then some .core else if c == 0xD2 then some .part else if c == 0xD3 then some .lnch
  else if c == 0xD4 then some .rng else if c == 0xD5 then some .cbase else none

/-- The code of a predicate (R60). -/
def predCode (n : BitVec 3) : BitVec 8 := (0b11000 : BitVec 5) ++ n

/-- The code of a register operand (R60). -/
def Reg.code : Reg → BitVec 8
  | .v n => (0 : BitVec 1) ++ n
  | .s n => (0b10 : BitVec 2) ++ n
  | .q n => predCode n
  | .sp r => r.code
  | .none => 0xFF

/-- The register operand of a code (R60). -/
def Reg.ofCode (c : BitVec 8) : Except DecodeError Reg :=
  if bits c 7 1 == 0 then .ok (.v (bits c 0 7))
  else if bits c 6 2 == 0b10 then .ok (.s (bits c 0 6))
  else if bits c 3 5 == 0b11000 then .ok (.q (bits c 0 3))
  else if c == 0xFF then .ok .none
  else match SReg.ofCode c with
    | some r => .ok (.sp r)
    | Option.none => .error .register

/-- A predicate field (R60). -/
def predOf (c : BitVec 8) : Except DecodeError (BitVec 3) :=
  if bits c 3 5 == 0b11000 then .ok (bits c 0 3) else .error .register

/-- A special-register field (R62). -/
def sregOf (c : BitVec 8) : Except DecodeError SReg :=
  match SReg.ofCode c with
  | some r => .ok r
  | none => .error .register

/-- T codes (R63). -/
def Ty.code : Ty → BitVec 4
  | .i8 => 0 | .n8 => 1 | .i16 => 2 | .n16 => 3 | .i32 => 4 | .n32 => 5 | .i64 => 6 | .n64 => 7
  | .f16 => 8 | .bf16 => 9 | .f32 => 0xA | .e4m3 => 0xB | .e5m2 => 0xC | .e2m1 => 0xD | .b32 => 0xE

/-- The type of a T code (R63). -/
def Ty.ofCode (c : BitVec 4) : Except DecodeError Ty :=
  match c.toNat with
  | 0 => .ok .i8 | 1 => .ok .n8 | 2 => .ok .i16 | 3 => .ok .n16 | 4 => .ok .i32 | 5 => .ok .n32
  | 6 => .ok .i64 | 7 => .ok .n64 | 8 => .ok .f16 | 9 => .ok .bf16 | 10 => .ok .f32 | 11 => .ok .e4m3
  | 12 => .ok .e5m2 | 13 => .ok .e2m1 | 14 => .ok .b32 | _ => .error .code

/-- RM codes (R64). -/
def Rm.code : Rm → BitVec 3
  | .rne => 0 | .rtz => 1 | .rdn => 2 | .rup => 3 | .rna => 4 | .rst => 5

/-- The rounding mode of a code (R64). -/
def Rm.ofCode (c : BitVec 3) : Except DecodeError Rm :=
  match c.toNat with
  | 0 => .ok .rne | 1 => .ok .rtz | 2 => .ok .rdn | 3 => .ok .rup | 4 => .ok .rna | 5 => .ok .rst
  | _ => .error .code

/-- FN of a condition (R100, R203). -/
def Cond.code : Cond → BitVec 4
  | .eq => 0 | .ne => 1 | .lt => 2 | .le => 3 | .gt => 4 | .ge => 5

/-- The condition of an FN (R100, R203). -/
def Cond.ofCode (c : BitVec 4) : Except DecodeError Cond :=
  match c.toNat with
  | 0 => .ok .eq | 1 => .ok .ne | 2 => .ok .lt | 3 => .ok .le | 4 => .ok .gt | 5 => .ok .ge
  | _ => .error .fn

/-- FN of a float condition (R131). -/
def FCond.code : FCond → BitVec 4
  | .eq => 0 | .ne => 1 | .lt => 2 | .le => 3 | .gt => 4 | .ge => 5 | .un => 6 | .ord => 7

/-- The float condition of an FN (R131). -/
def FCond.ofCode (c : BitVec 4) : Except DecodeError FCond :=
  match c.toNat with
  | 0 => .ok .eq | 1 => .ok .ne | 2 => .ok .lt | 3 => .ok .le | 4 => .ok .gt | 5 => .ok .ge | 6 => .ok .un
  | 7 => .ok .ord | _ => .error .fn

/-- M[2:1] of a combine (R100). -/
def Comb.code : Comb → BitVec 2
  | .none => 0 | .and => 1 | .or => 2 | .xor => 3

/-- The combine of M[2:1] (R100). -/
def Comb.ofCode (c : BitVec 2) : Comb :=
  match c.toNat with
  | 0 => .none | 1 => .and | 2 => .or | _ => .xor

/-- FN of MOVI (R93). -/
def MoviForm.code : MoviForm → BitVec 4
  | .word => 0 | .i64 => 1 | .n64 => 2

/-- The MOVI form of an FN (R93). -/
def MoviForm.ofCode (c : BitVec 4) : Except DecodeError MoviForm :=
  match c.toNat with
  | 0 => .ok .word | 1 => .ok .i64 | 2 => .ok .n64 | _ => .error .fn

/-- FN of VOTE (R239). -/
def VoteMode.code : VoteMode → BitVec 4
  | .all => 0 | .any => 1 | .uni => 2

/-- The VOTE mode of an FN (R239). -/
def VoteMode.ofCode (c : BitVec 4) : Except DecodeError VoteMode :=
  match c.toNat with
  | 0 => .ok .all | 1 => .ok .any | 2 => .ok .uni | _ => .error .fn

/-- FN of SHFL (R241). -/
def ShflMode.code : ShflMode → BitVec 4
  | .idx => 0 | .up => 1 | .down => 2 | .xor => 3

/-- The SHFL mode of an FN (R241). -/
def ShflMode.ofCode (c : BitVec 4) : Except DecodeError ShflMode :=
  match c.toNat with
  | 0 => .ok .idx | 1 => .ok .up | 2 => .ok .down | 3 => .ok .xor | _ => .error .fn

/-- FN of SCAN and REDUCE (R243). -/
def ScanOp.code : ScanOp → BitVec 4
  | .add => 0 | .min => 1 | .max => 2 | .and => 3 | .or => 4 | .xor => 5

/-- The scan operation of an FN (R243). -/
def ScanOp.ofCode (c : BitVec 4) : Except DecodeError ScanOp :=
  match c.toNat with
  | 0 => .ok .add | 1 => .ok .min | 2 => .ok .max | 3 => .ok .and | 4 => .ok .or | 5 => .ok .xor
  | _ => .error .fn

/-- FN of the atomics (R195). -/
def AtomOp.code : AtomOp → BitVec 4
  | .add => 0 | .min => 1 | .max => 2 | .and => 3 | .or => 4 | .xor => 5 | .exch => 6 | .fadd => 7
  | .fmin => 8 | .fmax => 9

/-- The atomic operation of an FN (R195). -/
def AtomOp.ofCode (c : BitVec 4) : Except DecodeError AtomOp :=
  match c.toNat with
  | 0 => .ok .add | 1 => .ok .min | 2 => .ok .max | 3 => .ok .and | 4 => .ok .or | 5 => .ok .xor
  | 6 => .ok .exch | 7 => .ok .fadd | 8 => .ok .fmin | 9 => .ok .fmax | _ => .error .fn

/-- Z codes (R187). -/
def Acc.code : Acc → BitVec 4
  | .i8 => 0 | .n8 => 1 | .i16 => 2 | .n16 => 3 | .i32 => 4 | .n32 => 5 | .i64 => 6 | .n64 => 7 | .f16 => 8
  | .bf16 => 9 | .f32 => 0xA | .b128 => 0xB | .b32 => 0xE

/-- The access of a Z code (R187). -/
def Acc.ofCode (c : BitVec 4) : Except DecodeError Acc :=
  match c.toNat with
  | 0 => .ok .i8 | 1 => .ok .n8 | 2 => .ok .i16 | 3 => .ok .n16 | 4 => .ok .i32 | 5 => .ok .n32
  | 6 => .ok .i64 | 7 => .ok .n64 | 8 => .ok .f16 | 9 => .ok .bf16 | 10 => .ok .f32 | 11 => .ok .b128
  | 14 => .ok .b32 | _ => .error .code

/-- H codes (R188). -/
def Hint.code : Hint → BitVec 2
  | .none => 0 | .first => 1 | .nl1 => 2 | .keep => 3

/-- The hint of an H code (R188). -/
def Hint.ofCode (c : BitVec 2) : Hint :=
  match c.toNat with
  | 0 => .none | 1 => .first | 2 => .nl1 | _ => .keep

/-- P of an atomic (R188). -/
def ASpace.code : ASpace → BitVec 2
  | .global => 0 | .sp => 1 | .peer => 2

/-- The space of an atomic's P (R188). -/
def ASpace.ofCode (c : BitVec 2) : Except DecodeError ASpace :=
  match c.toNat with
  | 0 => .ok .global | 1 => .ok .sp | 2 => .ok .peer | _ => .error .code

/-- FN of FENCE (R199). -/
def Scope.code : Scope → BitVec 4
  | .crew => 0 | .block => 1 | .clust => 2 | .part => 3 | .sys => 4

/-- The scope of FENCE's FN (R199). -/
def Scope.ofCode (c : BitVec 4) : Except DecodeError Scope :=
  match c.toNat with
  | 0 => .ok .crew | 1 => .ok .block | 2 => .ok .clust | 3 => .ok .part | 4 => .ok .sys | _ => .error .fn

/-- M[7:5] of MDESC (R291). -/
def MFmt.code : MFmt → BitVec 3
  | .none => 0 | .e2m1 => 1 | .e4m3 => 2 | .e5m2 => 3 | .i8 => 4 | .bf16 => 5 | .f16 => 6

/-- The format of MDESC's M[7:5] (R291). -/
def MFmt.ofCode (c : BitVec 3) : Except DecodeError MFmt :=
  match c.toNat with
  | 0 => .ok .none | 1 => .ok .e2m1 | 2 => .ok .e4m3 | 3 => .ok .e5m2 | 4 => .ok .i8 | 5 => .ok .bf16
  | 6 => .ok .f16 | _ => .error .code

/-- FN of MLOOP (R294). -/
def Shape.code : Shape → BitVec 4
  | .s1x1 => 0 | .s1x2 => 1 | .s1x4 => 2 | .s1x8 => 3 | .s2x1 => 4 | .s2x2 => 5 | .s2x4 => 6

/-- The shape of MLOOP's FN (R294). -/
def Shape.ofCode (c : BitVec 4) : Except DecodeError Shape :=
  match c.toNat with
  | 0 => .ok .s1x1 | 1 => .ok .s1x2 | 2 => .ok .s1x4 | 3 => .ok .s1x8 | 4 => .ok .s2x1 | 5 => .ok .s2x2
  | 6 => .ok .s2x4 | _ => .error .fn

/-- FN of CCOPY (R300). -/
def CopyDir.code : CopyDir → BitVec 4
  | .g2s => 0 | .s2g => 1 | .s2s => 2

/-- The direction of CCOPY's FN (R300). -/
def CopyDir.ofCode (c : BitVec 4) : Except DecodeError CopyDir :=
  match c.toNat with
  | 0 => .ok .g2s | 1 => .ok .s2g | 2 => .ok .s2s | _ => .error .fn

/-- The guard field (R55). -/
def Guard.code (g : Guard) : BitVec 4 := BitVec.ofBool g.neg ++ g.p

/-- The guard of its field (R55). -/
def Guard.ofCode (c : BitVec 4) : Guard := ⟨bits c 3 1 == 1, bits c 0 3⟩

/-! ### Formats (R54, R57) -/

/-- The top 16 bits that every format shares (R54). -/
def head (opc : BitVec 8) (fn g : BitVec 4) : BitVec 16 := opc ++ fn ++ g

/-- Format R (R57). -/
def packR (opc : BitVec 8) (fn g : BitVec 4) (d a b c : BitVec 8) (t : BitVec 4) (rm : BitVec 3) (s : Bool)
    (m : BitVec 8) : DWord :=
  head opc fn g ++ (d ++ a ++ b ++ c ++ (t ++ rm ++ BitVec.ofBool s ++ m : BitVec 16) : BitVec 48)

/-- Format I (R57). -/
def packI (opc : BitVec 8) (fn g : BitVec 4) (d a : BitVec 8) (k : BitVec 32) : DWord :=
  head opc fn g ++ (d ++ a ++ k : BitVec 48)

/-- Format J whose bits [47:32] are W (R58). -/
def packW (opc : BitVec 8) (fn g : BitVec 4) (w : BitVec 16) (l : BitVec 32) : DWord :=
  head opc fn g ++ (w ++ l : BitVec 48)

/-- Format M (R57). -/
def packM (opc : BitVec 8) (fn g : BitVec 4) (d b x : BitVec 8) (z : BitVec 4) (h p : BitVec 2)
    (f : BitVec 16) : DWord :=
  head opc fn g ++ (d ++ b ++ x ++ (z ++ (h ++ p : BitVec 4) : BitVec 8) ++ f : BitVec 48)

/-- The second word of CGATHER, CSCATTER and CSCATADD (R299). -/
def RowWord.code (r : RowWord) : DWord := r.off ++ r.rb ++ r.nr ++ r.str

/-- The fields of the second word of CGATHER, CSCATTER and CSCATADD (R299). -/
def RowWord.ofCode (w : DWord) : RowWord := ⟨bits w 52 12, bits w 40 12, bits w 24 16, bits w 0 24⟩

/-- The second word of CCOPY and CFILL (R300). -/
def CopyWord.code (r : CopyWord) : DWord := r.off ++ r.rb ++ r.nr ++ r.ss ++ r.ds

/-- The fields of the second word of CCOPY and CFILL (R300). -/
def CopyWord.ofCode (w : DWord) : CopyWord :=
  ⟨bits w 52 12, bits w 40 12, bits w 32 8, bits w 16 16, bits w 0 16⟩

/-- OPC (R54). -/
def opcOf (w : DWord) : BitVec 8 := bits w 56 8

/-- FN (R54). -/
def fnOf (w : DWord) : BitVec 4 := bits w 52 4

/-- G (R54). -/
def gOf (w : DWord) : BitVec 4 := bits w 48 4

/-- D of formats R, I and M; A of format J (R57). -/
def dOf (w : DWord) : BitVec 8 := bits w 40 8

/-- A of formats R and I; B of formats J and M (R57). -/
def aOf (w : DWord) : BitVec 8 := bits w 32 8

/-- B of format R; X of format M (R57). -/
def bOf (w : DWord) : BitVec 8 := bits w 24 8

/-- C of format R (R57). -/
def cOf (w : DWord) : BitVec 8 := bits w 16 8

/-- T (R57). -/
def tOf (w : DWord) : BitVec 4 := bits w 12 4

/-- RM (R57). -/
def rmOf (w : DWord) : BitVec 3 := bits w 9 3

/-- S (R57). -/
def sOf (w : DWord) : Bool := bits w 8 1 == 1

/-- M (R57). -/
def mOf (w : DWord) : BitVec 8 := bits w 0 8

/-- K and L of formats I and J (R57). -/
def kOf (w : DWord) : BitVec 32 := bits w 0 32

/-- W of format J (R58). -/
def wOf (w : DWord) : BitVec 16 := bits w 32 16

/-- Z of format M (R57). -/
def zOf (w : DWord) : BitVec 4 := bits w 20 4

/-- H of format M (R188). -/
def hOf (w : DWord) : BitVec 2 := bits w 18 2

/-- P of format M (R188). -/
def pOf (w : DWord) : BitVec 2 := bits w 16 2

/-- F of format M (R57). -/
def fOf (w : DWord) : BitVec 16 := bits w 0 16

/-- One M bit. -/
def mBit (m : BitVec 8) (i : Nat) : Bool := bits m i 1 == 1

/-- The length of an instruction in words, from its first word (R51). -/
def lengthOf (w0 : DWord) : Nat := if (opcOf w0).toNat ≥ 0xC0 then 2 else 1

/-! ### Encoding -/

/-- M with only M[1] (R127, R374 and others). -/
def m1 (b : Bool) : BitVec 8 := (0 : BitVec 6) ++ BitVec.ofBool b ++ (0 : BitVec 1)

/-- M with M[1] and M[0]. -/
def m10 (b a : Bool) : BitVec 8 := (0 : BitVec 6) ++ BitVec.ofBool b ++ BitVec.ofBool a

/-- M with M[3:1]. -/
def m31 (t : BitVec 3) : BitVec 8 := (0 : BitVec 4) ++ t ++ (0 : BitVec 1)

/-- M with M[4:1]. -/
def m41 (t : BitVec 4) : BitVec 8 := (0 : BitVec 3) ++ t ++ (0 : BitVec 1)

/-- M with M[2:1] and M[0] (R100, R131). -/
def mComb (c : Comb) (ftz : Bool) : BitVec 8 := (0 : BitVec 5) ++ c.code ++ BitVec.ofBool ftz

/-- M with a source type in M[7:4], N in M[3:1] and M[0] (R139, R142). -/
def mCvt (t : Ty) (n : BitVec 3) (ftz : Bool) : BitVec 8 := t.code ++ n ++ BitVec.ofBool ftz

/-- Format R with only registers: T, RM, S and M are zero. -/
def packRR (opc : BitVec 8) (fn : BitVec 4) (g : Guard) (d a b c : Reg) (m : BitVec 8 := 0) : DWord :=
  packR opc fn g.code d.code a.code b.code c.code 0 0 false m

/-- Format R of an integer or float instruction. -/
def packRT (opc : BitVec 8) (fn : BitVec 4) (g : Guard) (d a b c : Reg) (t : Ty) (rm : Rm) (s : Bool)
    (m : BitVec 8) : DWord :=
  packR opc fn g.code d.code a.code b.code c.code t.code rm.code s m

/-- Format M of a memory instruction. -/
def packMem (opc : BitVec 8) (fn : BitVec 4) (g : Guard) (d : Reg) (m : Mem) (z : Acc) (h : Hint)
    (p : BitVec 2) : DWord :=
  packM opc fn g.code d.code m.b.code m.x.code z.code h.code p m.f

/-- Format J with two register fields. -/
def packJ (opc : BitVec 8) (g : Guard) (a b : Reg) (l : BitVec 32) : DWord :=
  packI opc 0 g.code a.code b.code l

/-- Format I of an instruction whose FN is given. -/
def packIK (opc : BitVec 8) (fn : BitVec 4) (g : Guard) (d a : Reg) (k : BitVec 32) : DWord :=
  packI opc fn g.code d.code a.code k

/-- The words of an instruction: the first, and the second of a long one (zero otherwise). Events have none. -/
def Instr.words : Instr → Option (DWord × DWord)
  | .nop g => some (packJ 0x01 g .none .none 0, 0)
  | .go g l => some (packJ 0x02 g .none .none l, 0)
  | .gox g r => some (packJ 0x03 g r .none 0, 0)
  | .call g w l => some (packW 0x04 0 g.code w l, 0)
  | .callx g r l => some (packJ 0x05 g r .none l, 0)
  | .ret g => some (packJ 0x06 g .none .none 0, 0)
  | .done g => some (packJ 0x07 g .none .none 0, 0)
  | .trap g k => some (packIK 0x08 0 g .none .none k, 0)
  | .brk g k => some (packIK 0x09 0 g .none .none k, 0)
  | .wantc g d k => some (packIK 0x0A 0 g d .none k, 0)
  | .prefiIc g n l => some (packIK 0x0B 0 g .none n (l ++ (0 : BitVec 4)), 0)
  | .prefiL2 g n l => some (packIK 0x0B 0 g .none n (l ++ (1 : BitVec 4)), 0)
  | .pini g n l => some (packIK 0x0B 1 g .none n (l ++ (0 : BitVec 4)), 0)
  | .unpini g n l => some (packIK 0x0B 2 g .none n (l ++ (0 : BitVec 4)), 0)
  | .movs g d r => some (packRR 0x0C 0 g d (.sp r) .none .none, 0)
  | .mov g t d a => some (packRT 0x10 0 g d a .none .none t .rne false 0, 0)
  | .movi g f d k => some (packIK 0x11 f.code g d .none k, 0)
  | .movh g d a k => some (packIK 0x12 0 g d a k, 0)
  | .iadd g t s d a b => some (packRT 0x13 0 g d a b .none t .rne s 0, 0)
  | .iadd3 g t s d a b c => some (packRT 0x14 0 g d a b c t .rne s 0, 0)
  | .isub g t s d a b => some (packRT 0x15 0 g d a b .none t .rne s 0, 0)
  | .addc g d a b q => some (packRT 0x16 0 g d a b (.q q) .n32 .rne false 0, 0)
  | .subb g d a b q => some (packRT 0x17 0 g d a b (.q q) .n32 .rne false 0, 0)
  | .imul g t s d a b => some (packRT 0x18 0 g d a b .none t .rne s 0, 0)
  | .imulh g t d a b => some (packRT 0x19 0 g d a b .none t .rne false 0, 0)
  | .imad g t s d a b c => some (packRT 0x1A 0 g d a b c t .rne s 0, 0)
  | .imin g t d a b => some (packRT 0x1B 0 g d a b .none t .rne false 0, 0)
  | .imax g t d a b => some (packRT 0x1C 0 g d a b .none t .rne false 0, 0)
  | .iabs g t s d a => some (packRT 0x1D 0 g d a .none .none t .rne s 0, 0)
  | .ineg g t s d a => some (packRT 0x1E 0 g d a .none .none t .rne s 0, 0)
  | .and g t d a b => some (packRT 0x1F 0 g d a b .none t .rne false 0, 0)
  | .or g t d a b => some (packRT 0x20 0 g d a b .none t .rne false 0, 0)
  | .xor g t d a b => some (packRT 0x21 0 g d a b .none t .rne false 0, 0)
  | .andn g t d a b => some (packRT 0x22 0 g d a b .none t .rne false 0, 0)
  | .shl g t d a b => some (packRT 0x23 0 g d a b .none t .rne false 0, 0)
  | .shr g t d a b => some (packRT 0x24 0 g d a b .none t .rne false 0, 0)
  | .sar g t d a b => some (packRT 0x25 0 g d a b .none t .rne false 0, 0)
  | .rot g t d a b => some (packRT 0x26 0 g d a b .none t .rne false 0, 0)
  | .bfx g t d a b => some (packRT 0x27 0 g d a b .none t .rne false 0, 0)
  | .bfi g t d a b c => some (packRT 0x28 0 g d a b c t .rne false 0, 0)
  | .popc g t d a => some (packRT 0x29 0 g d a .none .none t .rne false 0, 0)
  | .clz g t d a => some (packRT 0x29 1 g d a .none .none t .rne false 0, 0)
  | .ctz g t d a => some (packRT 0x29 2 g d a .none .none t .rne false 0, 0)
  | .brev g t d a => some (packRT 0x29 3 g d a .none .none t .rne false 0, 0)
  | .icmp g t cond comb d a b c => some (packRT 0x2A cond.code g (.q d) a b c t .rne false (mComb comb false), 0)
  | .isel g t d a b q => some (packRT 0x2B 0 g d a b (.q q) t .rne false 0, 0)
  | .lea g t sh d a b => some (packRT 0x2C 0 g d a b .none t .rne false (m31 sh), 0)
  | .idot4 g t s mixed d a b c => some (packRT 0x2D 0 g d a b c t .rne s (m1 mixed), 0)
  | .got g r tbl n w => some (packRR 0xF0 0 g .none r .none .none, tbl ++ n ++ w)
  | .fadd g t rm s x2 z d a b => some (packRT 0x30 0 g d a b .none t rm s (m10 x2 z), 0)
  | .fsub g t rm s x2 z d a b => some (packRT 0x31 0 g d a b .none t rm s (m10 x2 z), 0)
  | .fmul g t rm s x2 z d a b => some (packRT 0x32 0 g d a b .none t rm s (m10 x2 z), 0)
  | .ffma g t rm s x2 z d a b c => some (packRT 0x33 0 g d a b c t rm s (m10 x2 z), 0)
  | .fmin g t x2 z d a b => some (packRT 0x34 0 g d a b .none t .rne false (m10 x2 z), 0)
  | .fmax g t x2 z d a b => some (packRT 0x35 0 g d a b .none t .rne false (m10 x2 z), 0)
  | .fcmp g t cond comb z d a b c => some (packRT 0x36 cond.code g (.q d) a b c t .rne false (mComb comb z), 0)
  | .fclass g t d a => some (packRT 0x37 0 g d a .none .none t .rne false 0, 0)
  | .frcp g t rm s z d a => some (packRT 0x38 0 g d a .none .none t rm s (m10 false z), 0)
  | .frsq g t s z d a => some (packRT 0x39 0 g d a .none .none t .rne s (m10 false z), 0)
  | .fsqrt g t rm s z d a => some (packRT 0x3A 0 g d a .none .none t rm s (m10 false z), 0)
  | .fexp2 g t s z d a => some (packRT 0x3B 0 g d a .none .none t .rne s (m10 false z), 0)
  | .flog2 g t s z d a => some (packRT 0x3C 0 g d a .none .none t .rne s (m10 false z), 0)
  | .fsin g t s z d a => some (packRT 0x3D 0 g d a .none .none t .rne s (m10 false z), 0)
  | .fcos g t s z d a => some (packRT 0x3E 0 g d a .none .none t .rne s (m10 false z), 0)
  | .ftanh g t s z d a => some (packRT 0x3F 0 g d a .none .none t .rne s (m10 false z), 0)
  | .fscale g t rm s z d a b => some (packRT 0x40 0 g d a b .none t rm s (m10 false z), 0)
  | .frnd g t rm z d a => some (packRT 0x41 0 g d a .none .none t rm false (m10 false z), 0)
  | .fdot2 g t rm s z d a b c => some (packRT 0x42 0 g d a b c t rm s (m10 false z), 0)
  | .cvt g td ts rm s z d a b => some (packRT 0x43 0 g d a b .none td rm s (mCvt ts 0 z), 0)
  | .pack g td ts rm s z n d a b c => some (packRT 0x44 0 g d a b c td rm s (mCvt ts n z), 0)
  | .unpack g td ts rm s z n d a b => some (packRT 0x45 0 g d a b .none td rm s (mCvt ts n z), 0)
  | .vote g m d q => some (packRR 0x50 m.code g d (.q q) .none .none, 0)
  | .ballot g d q => some (packRR 0x51 0 g d (.q q) .none .none, 0)
  | .shfl g m t d a b => some (packRT 0x52 m.code g d a b .none t .rne false 0, 0)
  | .scan g op t rm s excl z d a => some (packRT 0x53 op.code g d a .none .none t rm s (m10 excl z), 0)
  | .reduce g op t rm s z d a => some (packRT 0x54 op.code g d a .none .none t rm s (m10 false z), 0)
  | .matchI g t d a c => some (packRT 0x55 0 g d a .none c t .rne false 0, 0)
  | .isect g t q d a b c => some (packRT 0x56 0 g d a b c t .rne false (m31 q), 0)
  | .regroup d a b n => some (packRR 0x57 0 Guard.always (.q d) a b .none (n ++ (0 : BitVec 1)), 0)
  | .qnt g t rm fine outl z d a c =>
      some (packRT 0x58 0 g d a .none c t rm false
        ((0 : BitVec 5) ++ BitVec.ofBool outl ++ BitVec.ofBool fine ++ BitVec.ofBool z), 0)
  | .take g w32 d a c => some (packRR 0x59 (if w32 then 1 else 0) g d a .none c, 0)
  | .netcnt g d a => some (packRR 0x5A 0 g d a .none .none, 0)
  | .ld g z h home d m => some (packMem 0x60 0 g d m z h (if home then 1 else 0), 0)
  | .st g z h d m => some (packMem 0x61 0 g d m z h 0, 0)
  | .lds g z d m => some (packMem 0x62 0 g d m z .none 0, 0)
  | .sts g z d m => some (packMem 0x63 0 g d m z .none 0, 0)
  | .ldp g z d m => some (packMem 0x64 0 g d m z .none 0, 0)
  | .stp g z d m => some (packMem 0x65 0 g d m z .none 0, 0)
  | .ldl g z h d m => some (packMem 0x66 0 g d m z h 0, 0)
  | .stl g z h d m => some (packMem 0x67 0 g d m z h 0, 0)
  | .atom g op z spc d m => some (packMem 0x68 op.code g d m z .none spc.code, 0)
  | .cas g z spc d m => some (packMem 0x69 0 g d m z .none spc.code, 0)
  | .red g op z spc d m => some (packMem 0x6A op.code g d m z .none spc.code, 0)
  | .fence g sc => some (packRR 0x6B sc.code g .none .none .none .none, 0)
  | .phasePub g => some (packRR 0x6C 0 g .none .none .none .none, 0)
  | .phaseRef g => some (packRR 0x6C 1 g .none .none .none .none, 0)
  | .phaseFull g => some (packRR 0x6C 2 g .none .none .none .none, 0)
  | .waitc g cond z d m => some (packMem 0x6D cond.code g d m z .none 0, 0)
  | .pref g l2 h m => some (packMem 0x6E 0 g .none m .i8 h (if l2 then 1 else 0), 0)
  | .sfence g a b => some (packRR 0x6F 0 g .none a b .none, 0)
  | .bar => some (packRR 0x80 0 Guard.always .none .none .none .none, 0)
  | .barc => some (packRR 0x81 0 Guard.always .none .none .none .none, 0)
  | .awinit g d m => some (packMem 0x82 0 g d m .i8 .none 0, 0)
  | .arrive g d m => some (packMem 0x83 0 g d m .i8 .none 0, 0)
  | .await g d m => some (packMem 0x84 0 g d m .i8 .none 0, 0)
  | .mdesc g l2 fmt h stride a b =>
      some (packRR 0xC0 (if l2 then 1 else 0) g .none a b .none (fmt.code ++ h ++ (0 : BitVec 1)),
        (0 : BitVec 32) ++ stride)
  | .mzero g t => some (packRR 0xC1 0 g .none .none .none .none (m31 t), 0)
  | .mwrite g int t a b c =>
      some (packRT 0xC2 0 g .none a b c (if int then .i32 else .f32) .rne false (m31 t), 0)
  | .mloop g sh t ha hb k ia ib =>
      some (packRR 0xC3 sh.code g .none .none .none .none (m31 t), ha ++ hb ++ k ++ ia ++ ib)
  | .mwait g all t =>
      some (packRR 0xC4 0 g .none .none .none .none ((0 : BitVec 3) ++ BitVec.ofBool all ++ t ++ (0 : BitVec 1)), 0)
  | .mread g i64 t d a b =>
      some (packRT 0xC5 0 g d a b .none (if i64 then .i64 else .f32) .rne false (m31 t), 0)
  | .mfence g => some (packRR 0xC6 0 g .none .none .none .none, 0)
  | .mstat g d => some (packRR 0xC7 0 g d .none .none .none, 0)
  | .mstatLog g d a => some (packRR 0xC7 1 g d a .none .none, 0)
  | .mstatExp g t d => some (packRR 0xC7 2 g d .none .none .none (m31 t), 0)
  | .mstatClr g => some (packRR 0xC7 3 g .none .none .none .none, 0)
  | .cgather g r d a b c => some (packRR 0xD0 0 g d a b c, r.code)
  | .cscatter g r d a b c => some (packRR 0xD1 0 g d a b c, r.code)
  | .cscatadd g t r d a b c => some (packRT 0xD2 0 g d a b c t .rne false 0, r.code)
  | .ccopy g dir mc w d a c => some (packRR 0xD3 dir.code g d a .none c (m1 mc), w.code)
  | .cfill g glob w d a c => some (packRR 0xD4 (if glob then 1 else 0) g d a .none c, w.code)
  | .cstat g d => some (packRR 0xD5 0 g d .none .none .none, 0)
  | .cstatClr g d => some (packRR 0xD5 1 g d .none .none .none, 0)
  | .xgrp g slot a => some (packRR 0xE0 0 g .none a .none .none (m41 slot), 0)
  | .xgrpEnd g slot => some (packRR 0xE0 1 g .none .none .none .none (m41 slot), 0)
  | .xgather g slot ioff cb a => some (packRR 0xE1 0 g .none a .none .none (m41 slot), ioff ++ cb)
  | .xrscat g t slot ioff cb a => some (packRT 0xE2 0 g .none a .none .none t .rne false (m41 slot), ioff ++ cb)
  | .xa2a g slot ioff cb a => some (packRR 0xE3 0 g .none a .none .none (m41 slot), ioff ++ cb)
  | .xbar g slot => some (packRR 0xE4 0 g .none .none .none .none (m41 slot), 0)
  | .xwait g slot => some (packRR 0xE5 0 g .none .none .none .none (m41 slot), 0)
  | .rsplit g one d a b c => some (packRR 0xA0 0 g d a b c (m1 one), 0)
  | .rmerge g d a b => some (packRR 0xA1 0 g d a b .none, 0)
  | .rinval g all a b c => some (packRR 0xA2 0 g .none a b c (m1 all), 0)
  | .rprobe g d a b q => some (packRR 0xA3 0 g d a b (.q q), 0)
  | .rprobeS2 g d a b q => some (packRR 0xA3 0 g d a b (.q q) (m1 true), 0)
  | .rcompact g d a b c => some (packRR 0xA4 0 g d a b c, 0)
  | .netsave g d a b => some (packRR 0xA5 0 g d a b .none, 0)
  | .netload g d a b => some (packRR 0xA6 0 g d a b .none, 0)
  | .netdrain g a => some (packRR 0xA7 0 g .none a .none .none, 0)
  | .netreset g a => some (packRR 0xA8 0 g .none a .none .none, 0)
  | .hinfo g pc d => some (packRR 0xA9 (if pc then 1 else 0) g d .none .none .none, 0)
  | .hget g d r => some (packRR 0xAA 0 g d r .none .none, 0)
  | .hput g r a => some (packRR 0xAB 0 g r a .none .none, 0)
  | .hresume g => some (packRR 0xAC 0 g .none .none .none .none, 0)
  | .hkill g => some (packRR 0xAC 1 g .none .none .none .none, 0)
  | .habort g => some (packRR 0xAC 2 g .none .none .none .none, 0)
  | .launch g d a b => some (packRR 0xAD 0 g d a b .none, 0)
  | .cntcfg g d a b c => some (packRR 0xAE 0 g d a b c, 0)
  | .cntrd g d a => some (packRR 0xAE 1 g d a .none .none, 0)
  | .sealset g d a b => some (packRR 0xAF 0 g d a b .none, 0)
  | .unassignedMajor w => some (w, 0)
  | _ => none

/-- The words as the code image holds them: one, or two for a long instruction (R51). -/
def encode (i : Instr) : Option (List DWord) :=
  i.words.map fun (w0, w1) => if lengthOf w0 = 2 then [w0, w1] else [w0]

/-! ### Decoding -/

/-- The fields of a format R word once its register, type and rounding codes are read. -/
structure RFields where
  g : Guard
  d : Reg
  a : Reg
  b : Reg
  c : Reg
  t : Ty
  rm : Rm
  s : Bool
  m : BitVec 8
deriving DecidableEq, Repr

/-- Reads the fields of a format R word (R57). -/
def rFields (w : DWord) : Except DecodeError RFields := do
  let d ← Reg.ofCode (dOf w)
  let a ← Reg.ofCode (aOf w)
  let b ← Reg.ofCode (bOf w)
  let c ← Reg.ofCode (cOf w)
  let t ← Ty.ofCode (tOf w)
  let rm ← Rm.ofCode (rmOf w)
  return ⟨Guard.ofCode (gOf w), d, a, b, c, t, rm, sOf w, mOf w⟩

/-- The predicate a register operand names (R60). -/
def Reg.pred : Reg → Except DecodeError (BitVec 3)
  | .q n => .ok n
  | _ => .error .operand

/-- The special register an operand names (R62). -/
def Reg.special : Reg → Except DecodeError SReg
  | .sp r => .ok r
  | _ => .error .operand

/-- Majors 0x01 to 0x0B (R79, R88). -/
def decodeControl (w : DWord) : Except DecodeError Instr := do
  let g := Guard.ofCode (gOf w)
  let a ← Reg.ofCode (aOf w)
  match (opcOf w).toNat with
  | 0x01 => return .nop g
  | 0x02 => return .go g (kOf w)
  | 0x03 => return .gox g (← Reg.ofCode (dOf w))
  | 0x05 => return .callx g (← Reg.ofCode (dOf w)) (kOf w)
  | 0x06 => return .ret g
  | 0x07 => return .done g
  | 0x08 => return .trap g (kOf w)
  | 0x09 => return .brk g (kOf w)
  | 0x0A => return .wantc g (← Reg.ofCode (dOf w)) (kOf w)
  | 0x11 => return .movi g (← MoviForm.ofCode (fnOf w)) (← Reg.ofCode (dOf w)) (kOf w)
  | 0x12 => return .movh g (← Reg.ofCode (dOf w)) a (kOf w)
  | _ =>
    match (fnOf w).toNat with
    | 0 => if bits w 0 4 == 0 then return .prefiIc g a (bits w 4 28) else return .prefiL2 g a (bits w 4 28)
    | 1 => return .pini g a (bits w 4 28)
    | 2 => return .unpini g a (bits w 4 28)
    | _ => .error .fn

/-- Majors 0x0C, 0x10 and 0x13 to 0x2D (R89, R93-R103). -/
def decodeInteger (w : DWord) : Except DecodeError Instr := do
  let f ← rFields w
  match (opcOf w).toNat with
  | 0x0C => return .movs f.g f.d (← f.a.special)
  | 0x10 => return .mov f.g f.t f.d f.a
  | 0x13 => return .iadd f.g f.t f.s f.d f.a f.b
  | 0x14 => return .iadd3 f.g f.t f.s f.d f.a f.b f.c
  | 0x15 => return .isub f.g f.t f.s f.d f.a f.b
  | 0x16 => return .addc f.g f.d f.a f.b (← f.c.pred)
  | 0x17 => return .subb f.g f.d f.a f.b (← f.c.pred)
  | 0x18 => return .imul f.g f.t f.s f.d f.a f.b
  | 0x19 => return .imulh f.g f.t f.d f.a f.b
  | 0x1A => return .imad f.g f.t f.s f.d f.a f.b f.c
  | 0x1B => return .imin f.g f.t f.d f.a f.b
  | 0x1C => return .imax f.g f.t f.d f.a f.b
  | 0x1D => return .iabs f.g f.t f.s f.d f.a
  | 0x1E => return .ineg f.g f.t f.s f.d f.a
  | 0x1F => return .and f.g f.t f.d f.a f.b
  | 0x20 => return .or f.g f.t f.d f.a f.b
  | 0x21 => return .xor f.g f.t f.d f.a f.b
  | 0x22 => return .andn f.g f.t f.d f.a f.b
  | 0x23 => return .shl f.g f.t f.d f.a f.b
  | 0x24 => return .shr f.g f.t f.d f.a f.b
  | 0x25 => return .sar f.g f.t f.d f.a f.b
  | 0x26 => return .rot f.g f.t f.d f.a f.b
  | 0x27 => return .bfx f.g f.t f.d f.a f.b
  | 0x28 => return .bfi f.g f.t f.d f.a f.b f.c
  | 0x29 =>
    match (fnOf w).toNat with
    | 0 => return .popc f.g f.t f.d f.a
    | 1 => return .clz f.g f.t f.d f.a
    | 2 => return .ctz f.g f.t f.d f.a
    | 3 => return .brev f.g f.t f.d f.a
    | _ => .error .fn
  | 0x2A =>
    return .icmp f.g f.t (← Cond.ofCode (fnOf w)) (Comb.ofCode (bits w 1 2)) (← f.d.pred) f.a f.b f.c
  | 0x2B => return .isel f.g f.t f.d f.a f.b (← f.c.pred)
  | 0x2C => return .lea f.g f.t (bits w 1 3) f.d f.a f.b
  | _ => return .idot4 f.g f.t f.s (mBit f.m 1) f.d f.a f.b f.c

/-- Majors 0x30 to 0x45 (R128, R131, R139-R143). -/
def decodeFloat (w : DWord) : Except DecodeError Instr := do
  let f ← rFields w
  let z := mBit f.m 0
  let x := mBit f.m 1
  match (opcOf w).toNat with
  | 0x30 => return .fadd f.g f.t f.rm f.s x z f.d f.a f.b
  | 0x31 => return .fsub f.g f.t f.rm f.s x z f.d f.a f.b
  | 0x32 => return .fmul f.g f.t f.rm f.s x z f.d f.a f.b
  | 0x33 => return .ffma f.g f.t f.rm f.s x z f.d f.a f.b f.c
  | 0x34 => return .fmin f.g f.t x z f.d f.a f.b
  | 0x35 => return .fmax f.g f.t x z f.d f.a f.b
  | 0x36 =>
    return .fcmp f.g f.t (← FCond.ofCode (fnOf w)) (Comb.ofCode (bits w 1 2)) z (← f.d.pred) f.a f.b f.c
  | 0x37 => return .fclass f.g f.t f.d f.a
  | 0x38 => return .frcp f.g f.t f.rm f.s z f.d f.a
  | 0x39 => return .frsq f.g f.t f.s z f.d f.a
  | 0x3A => return .fsqrt f.g f.t f.rm f.s z f.d f.a
  | 0x3B => return .fexp2 f.g f.t f.s z f.d f.a
  | 0x3C => return .flog2 f.g f.t f.s z f.d f.a
  | 0x3D => return .fsin f.g f.t f.s z f.d f.a
  | 0x3E => return .fcos f.g f.t f.s z f.d f.a
  | 0x3F => return .ftanh f.g f.t f.s z f.d f.a
  | 0x40 => return .fscale f.g f.t f.rm f.s z f.d f.a f.b
  | 0x41 => return .frnd f.g f.t f.rm z f.d f.a
  | 0x42 => return .fdot2 f.g f.t f.rm f.s z f.d f.a f.b f.c
  | 0x43 => return .cvt f.g f.t (← Ty.ofCode (bits w 4 4)) f.rm f.s z f.d f.a f.b
  | 0x44 => return .pack f.g f.t (← Ty.ofCode (bits w 4 4)) f.rm f.s z (bits w 1 3) f.d f.a f.b f.c
  | _ => return .unpack f.g f.t (← Ty.ofCode (bits w 4 4)) f.rm f.s z (bits w 1 3) f.d f.a f.b

/-- Majors 0x50 to 0x5A (R238-R247). -/
def decodeCrew (w : DWord) : Except DecodeError Instr := do
  let f ← rFields w
  match (opcOf w).toNat with
  | 0x50 => return .vote f.g (← VoteMode.ofCode (fnOf w)) f.d (← f.a.pred)
  | 0x51 => return .ballot f.g f.d (← f.a.pred)
  | 0x52 => return .shfl f.g (← ShflMode.ofCode (fnOf w)) f.t f.d f.a f.b
  | 0x53 => return .scan f.g (← ScanOp.ofCode (fnOf w)) f.t f.rm f.s (mBit f.m 1) (mBit f.m 0) f.d f.a
  | 0x54 => return .reduce f.g (← ScanOp.ofCode (fnOf w)) f.t f.rm f.s (mBit f.m 0) f.d f.a
  | 0x55 => return .matchI f.g f.t f.d f.a f.c
  | 0x56 => return .isect f.g f.t (bits w 1 3) f.d f.a f.b f.c
  | 0x57 => return .regroup (← f.d.pred) f.a f.b (bits w 1 7)
  | 0x58 => return .qnt f.g f.t f.rm (mBit f.m 1) (mBit f.m 2) (mBit f.m 0) f.d f.a f.c
  | 0x59 => return .take f.g (fnOf w == 1) f.d f.a f.c
  | _ => return .netcnt f.g f.d f.a

/-- Majors 0x60 to 0x6A, 0x6D, 0x6E and 0x82 to 0x84 (R191-R203, R207). -/
def decodeMemory (w : DWord) : Except DecodeError Instr := do
  let g := Guard.ofCode (gOf w)
  let d ← Reg.ofCode (dOf w)
  let b ← Reg.ofCode (aOf w)
  let x ← Reg.ofCode (bOf w)
  let z ← Acc.ofCode (zOf w)
  let m : Mem := ⟨b, x, fOf w⟩
  let h := Hint.ofCode (hOf w)
  match (opcOf w).toNat with
  | 0x60 => return .ld g z h (pOf w == 1) d m
  | 0x61 => return .st g z h d m
  | 0x62 => return .lds g z d m
  | 0x63 => return .sts g z d m
  | 0x64 => return .ldp g z d m
  | 0x65 => return .stp g z d m
  | 0x66 => return .ldl g z h d m
  | 0x67 => return .stl g z h d m
  | 0x68 => return .atom g (← AtomOp.ofCode (fnOf w)) z (← ASpace.ofCode (pOf w)) d m
  | 0x69 => return .cas g z (← ASpace.ofCode (pOf w)) d m
  | 0x6A => return .red g (← AtomOp.ofCode (fnOf w)) z (← ASpace.ofCode (pOf w)) d m
  | 0x6D => return .waitc g (← Cond.ofCode (fnOf w)) z d m
  | 0x6E => return .pref g (pOf w == 1) h m
  | 0x82 => return .awinit g d m
  | 0x83 => return .arrive g d m
  | _ => return .await g d m

/-- Majors 0x6B, 0x6C, 0x6F, 0x80 and 0x81 (R199-R201, R204). -/
def decodeSync (w : DWord) : Except DecodeError Instr := do
  let f ← rFields w
  match (opcOf w).toNat with
  | 0x6B => return .fence f.g (← Scope.ofCode (fnOf w))
  | 0x6C =>
    match (fnOf w).toNat with
    | 0 => return .phasePub f.g
    | 1 => return .phaseRef f.g
    | 2 => return .phaseFull f.g
    | _ => .error .fn
  | 0x6F => return .sfence f.g f.a f.b
  | 0x80 => return .bar
  | _ => return .barc

/-- Majors 0xC0 to 0xC7 (R290-R298). -/
def decodeMatrix (w v : DWord) : Except DecodeError Instr := do
  let f ← rFields w
  match (opcOf w).toNat with
  | 0xC0 => return .mdesc f.g (fnOf w == 1) (← MFmt.ofCode (bits w 5 3)) (bits w 1 4) (bits v 0 32) f.a f.b
  | 0xC1 => return .mzero f.g (bits w 1 3)
  | 0xC2 => return .mwrite f.g (f.t == .i32) (bits w 1 3) f.a f.b f.c
  | 0xC3 =>
    return .mloop f.g (← Shape.ofCode (fnOf w)) (bits w 1 3) (bits v 60 4) (bits v 56 4) (bits v 40 16)
      (bits v 20 20) (bits v 0 20)
  | 0xC4 => return .mwait f.g (mBit f.m 4) (bits w 1 3)
  | 0xC5 => return .mread f.g (f.t == .i64) (bits w 1 3) f.d f.a f.b
  | 0xC6 => return .mfence f.g
  | _ =>
    match (fnOf w).toNat with
    | 0 => return .mstat f.g f.d
    | 1 => return .mstatLog f.g f.d f.a
    | 2 => return .mstatExp f.g (bits w 1 3) f.d
    | 3 => return .mstatClr f.g
    | _ => .error .fn

/-- Majors 0xD0 to 0xD5 and 0xF0 (R83, R290, R299-R303). -/
def decodeCopy (w v : DWord) : Except DecodeError Instr := do
  let f ← rFields w
  match (opcOf w).toNat with
  | 0xD0 => return .cgather f.g (RowWord.ofCode v) f.d f.a f.b f.c
  | 0xD1 => return .cscatter f.g (RowWord.ofCode v) f.d f.a f.b f.c
  | 0xD2 => return .cscatadd f.g f.t (RowWord.ofCode v) f.d f.a f.b f.c
  | 0xD3 => return .ccopy f.g (← CopyDir.ofCode (fnOf w)) (mBit f.m 1) (CopyWord.ofCode v) f.d f.a f.c
  | 0xD4 => return .cfill f.g (fnOf w == 1) (CopyWord.ofCode v) f.d f.a f.c
  | 0xD5 =>
    match (fnOf w).toNat with
    | 0 => return .cstat f.g f.d
    | 1 => return .cstatClr f.g f.d
    | _ => .error .fn
  | _ => return .got f.g f.a (bits v 32 32) (bits v 16 16) (bits v 0 16)

/-- Majors 0xE0 to 0xE5 (R290, R304-R307). -/
def decodeCollective (w v : DWord) : Except DecodeError Instr := do
  let f ← rFields w
  let slot := bits w 1 4
  match (opcOf w).toNat with
  | 0xE0 =>
    match (fnOf w).toNat with
    | 0 => return .xgrp f.g slot f.a
    | 1 => return .xgrpEnd f.g slot
    | _ => .error .fn
  | 0xE1 => return .xgather f.g slot (bits v 32 32) (bits v 0 32) f.a
  | 0xE2 => return .xrscat f.g f.t slot (bits v 32 32) (bits v 0 32) f.a
  | 0xE3 => return .xa2a f.g slot (bits v 32 32) (bits v 0 32) f.a
  | 0xE4 => return .xbar f.g slot
  | _ => return .xwait f.g slot

/-- Majors 0xA0 to 0xAF (R373). -/
def decodeSystem (w : DWord) : Except DecodeError Instr := do
  let f ← rFields w
  match (opcOf w).toNat with
  | 0xA0 => return .rsplit f.g (mBit f.m 1) f.d f.a f.b f.c
  | 0xA1 => return .rmerge f.g f.d f.a f.b
  | 0xA2 => return .rinval f.g (mBit f.m 1) f.a f.b f.c
  | 0xA3 =>
    if mBit f.m 1 then return .rprobeS2 f.g f.d f.a f.b (← f.c.pred)
    else return .rprobe f.g f.d f.a f.b (← f.c.pred)
  | 0xA4 => return .rcompact f.g f.d f.a f.b f.c
  | 0xA5 => return .netsave f.g f.d f.a f.b
  | 0xA6 => return .netload f.g f.d f.a f.b
  | 0xA7 => return .netdrain f.g f.a
  | 0xA8 => return .netreset f.g f.a
  | 0xA9 => return .hinfo f.g (fnOf w == 1) f.d
  | 0xAA => return .hget f.g f.d f.a
  | 0xAB => return .hput f.g f.d f.a
  | 0xAC =>
    match (fnOf w).toNat with
    | 0 => return .hresume f.g
    | 1 => return .hkill f.g
    | 2 => return .habort f.g
    | _ => .error .fn
  | 0xAD => return .launch f.g f.d f.a f.b
  | 0xAE =>
    match (fnOf w).toNat with
    | 0 => return .cntcfg f.g f.d f.a f.b f.c
    | 1 => return .cntrd f.g f.d f.a
    | _ => .error .fn
  | _ => return .sealset f.g f.d f.a f.b

/-- Reads the fields of a word whose major is assigned, by its family (R65, R67). -/
def decodeFields (w v : DWord) : Except DecodeError Instr :=
  let o := (opcOf w).toNat
  if o = 0x04 then .ok (.call (Guard.ofCode (gOf w)) (wOf w) (kOf w))
  else if o < 0x0C ∨ o = 0x11 ∨ o = 0x12 then decodeControl w
  else if o < 0x30 then decodeInteger w
  else if o < 0x50 then decodeFloat w
  else if o < 0x60 then decodeCrew w
  else if o = 0x6B ∨ o = 0x6C ∨ o = 0x6F ∨ o = 0x80 ∨ o = 0x81 then decodeSync w
  else if o < 0xA0 then decodeMemory w
  else if o < 0xC0 then decodeSystem w
  else if o < 0xD0 then decodeMatrix w v
  else if o < 0xE0 ∨ o = 0xF0 then decodeCopy w v
  else decodeCollective w v

/-- Decodes an instruction from its words, the second being zero for a short one (R54-R68). -/
def decodeWords (w v : DWord) : Except DecodeError Instr :=
  if majorAssigned (opcOf w) then
    match decodeFields w v with
    | .error e => .error e
    | .ok i =>
      if !i.wf then .error .operand
      else if i.words = some (w, v) then .ok i
      else .error .unused
  else .ok (.unassignedMajor w)

/-- A little-endian 64-bit word from eight bytes (R4, R50). -/
def dwordOf (b : List Byte) : DWord :=
  BitVec.ofNat 64 (b.foldr (fun x acc => x.toNat + 256 * acc) 0)

/-- The eight bytes of a word, lowest address first (R4). -/
def bytesOf (w : DWord) : List Byte := (List.range 8).map fun i => bits w (8 * i) 8

/-- Decodes the instruction at the front of a list of bytes, with the bytes that follow it (R50, R51). -/
def decodeBytes (b : List Byte) : Except DecodeError (Instr × List Byte) :=
  if b.length < 8 then .error .short
  else
    let w := dwordOf (b.take 8)
    if lengthOf w = 2 then
      if b.length < 16 then .error .short
      else (decodeWords w (dwordOf ((b.drop 8).take 8))).map (·, b.drop 16)
    else (decodeWords w 0).map (·, b.drop 8)

/-- The two words of an instruction given as the opcode table numbers its bits: the first word lowest. -/
def tableWords (nbits w : Nat) : DWord × DWord :=
  let n := w % 2 ^ nbits
  (BitVec.ofNat 64 n, BitVec.ofNat 64 (n >>> 64))

/-- The instruction this decoder reads from bits numbered as the opcode table numbers them. -/
def decodeTableWord (nbits w : Nat) : Option Instr :=
  let (a, b) := tableWords nbits w
  match decodeBytes (bytesOf a ++ bytesOf b) with
  | .ok (i, _) => some i
  | .error _ => none

end Sys2Proof
end

