-- ==== Sys2Proof/Config.lean ====
section
/-! DEFINITION. What an implementation fixes, and the free values: quantities the spec leaves open. A free value is
an opaque constant, so nothing can be proved of what it is; it is applied to the operands it depends on, or to the
counter `State.draws` for a fresh value each time (DESIGN CHOICE, log 3). -/

namespace Sys2Proof.Config

/-- A fresh number from nowhere: an unsaved register after a resumption, a cache victim (DESIGN CHOICE, log 3, DESIGN CHOICE, log 15). -/
opaque freeNat : Nat → Nat

/-- A register outside VSAVE or SSAVE after a resumption holds any value (21_traps_preemption R345; DESIGN CHOICE, log 3). -/
opaque freeWord : Nat → Word

/-- Whether the upper of the two neighbours of the exact result is returned by FRSQ, FEXP2, FLOG2, FSIN, FCOS and
FTANH: one choice for each function, type, flush bit and input (08_float_convert R137; DESIGN CHOICE, log 4). -/
opaque upperNeighbour : (fn : Nat) → Ty → (ftz : Bool) → (x : Word) → Bool

/-- A byte read through another key than the one that wrote it: what the XTS engine makes of the stored byte
(20_ranges R326; DESIGN CHOICE, log 10). Arguments: the writer's key material, the reader's, the byte's address, the 64 bytes. -/
opaque crossKey : (wrote read : Nat) → (addr : Nat) → (quarter : List Byte) → Byte

/-- The physical address of the address-space directory, fixed by management firmware (20_ranges R314; DESIGN CHOICE, log 12). -/
opaque directoryBase : Nat

/-- The firmware image hash (25_bringup R405; DESIGN CHOICE, log 26), 48 bytes. -/
opaque firmwareHash : BitVec 384

/-- The device's signature over a report (25_bringup R405; DESIGN CHOICE, log 26), 96 bytes. -/
opaque signature : (body : List Byte) → BitVec 768

/-- Cores of a cluster, clusters of a sector, sectors of the device (02_device R12). -/
def coresPerCluster : Nat := 4

/-- Clusters of the device (02_device R12). -/
def clusters : Nat := 96

/-- Cores of the device (02_device R12). -/
def cores : Nat := 384

/-- Lanes of a crew (01_tutorial R5). -/
def lanes : Nat := 128

/-- Budget of a handler crew (21_traps_preemption R333). -/
def handlerBudget : Nat := 32

/-- Entries of a block's store buffer (21_traps_preemption R349). -/
def storeBufferCap : Nat := 8192

/-- The sector of a core: 16 clusters of 4 cores (10_memory R161). -/
def sectorOf (core : Nat) : Nat := core / 64

/-- The die of a core: three sectors to a die (02_device R12). -/
def dieOf (core : Nat) : Nat := core / 192

end Sys2Proof.Config
end

