-- ==== Sys2Proof/Machine/State.lean ====
section
/-! DEFINITION. Everything the spec gives the machine, as plain data (INVENTORY.md, '## State'). Structures of the
machine that come and go (blocks, launches, commands, cache lines) are lists of records; what there is one of per
core, network, partition or function is a list indexed by its number. -/

namespace Sys2Proof.Machine

/-! ### Faults and refusals -/

/-- Why a step ends the machine. -/
inductive Fault where
  /-- raised by `step` when the device is dead, a power-up stage having failed or the part having tripped
  (25_bringup R400, R403), and nothing is scheduled; safe: no claim about a next state follows from it -/
  | halted
deriving DecidableEq, Repr

/-- Why an instruction has no meaning here. -/
inductive Refusal where
  /-- raised by an arm of `exec` for an instruction the model does not define yet; safe -/
  | notModelled (mnemonic : String)
deriving DecidableEq, Repr

/-! ### Traps -/

/-- Causes of traps, reports and requests (21_traps_preemption R330). -/
inductive Cause where
  | illegal | malformed | wanted | linkUnderflow | linkOverflow | trapInstr | breakpoint | privilege
  | rangeMiss | permission | stage2 | misaligned | scratchBound | peerAbsent | netNotGranted
  | collTimeout | collError
  | matrixError | copyError | collReport | storeLost
  | residency | denialDrain | netRestore
deriving DecidableEq, Repr

/-- What a lane is parked for (R41, R42, R234). -/
inductive Park where
  /-- a residency granule: address space, range base, granule, and the address the access asked for (20_ranges R320, R321) -/
  | residency (asid base granule va : Nat)
  /-- the granule at a compaction's watermark: address space, granule number (R327) -/
  | watermark (asid granule : Nat)
  /-- a closed network, and the place of the TAKE in issue order (R234) -/
  | network (n ins : Nat)
  /-- a WAITC: home address, virtual address, bytes, condition, type, right-hand side, offset of the WAITC (R177) -/
  | waitc (home va : Nat) (cond : Cond) (z : Acc) (rhs : DWord) (off : Word)
  /-- an AWAIT: scratchpad offset and the generation named (R209) -/
  | await (a : Nat) (gen : BitVec 16)
  /-- an instance of BAR (R205) -/
  | bar (inst : Nat)
  /-- an instance of BARC (R147) -/
  | barc (inst : Nat)
  /-- an XWAIT: its place in issue order, the operations waited for (R307), group slot, `clk` when it first parked, span and
  offset of the XWAIT (R284) -/
  | xwait (ins : Nat) (ops : List Nat) (slot since : Nat) (lab off : Word)
  /-- an MWAIT: its place in issue order, its form and tile, and the commands waited for (R181, R295) -/
  | mwait (ins : Nat) (all : Bool) (t : Nat) (cmds : List Nat)
deriving DecidableEq, Repr

/-! ### Lanes and crews -/

/-- A lane of a crew (04_sweep R28, 21_traps_preemption R340); its slot in the list of lanes is its `lid`. -/
structure Lane where
  /-- v0 to v(budget-1) (R11, R18) -/
  v : List Word
  /-- q0 to q7; bit 0 is never read, q0 is true (R61) -/
  q : BitVec 8
  wl : Word
  ro : Word
  /-- return labels held in hardware, newest first, at most 8 (R40) -/
  link : List Word
  /-- entries spilled to the link area (R40) -/
  spilled : Nat
  /-- rewind point, its resume offset, its kind and the copy of `rng` (R340, R120) -/
  rwl : Word
  rro : Word
  kind : Bool
  rngc : Word
  rng : Word
  oid : Word
  done : Bool
  parked : Bool
  trapped : Bool
  /-- active in the visit in progress (R29) -/
  act : Bool
  /-- a handler has resumed it since the sweep in progress began: it is served from the next one on (R35) -/
  resumed : Bool
  /-- what it is parked for -/
  park : Option Park
  /-- coherence floors: home time of the newest position read, by home address (11_ordering R165, R168) -/
  floors : List (Nat × Nat)
  /-- the XWAIT it has parked at and not completed: its operations, and `clk` when it first parked (17_engines R284) -/
  waited : Option (List Nat × Nat)
deriving DecidableEq, Repr

/-- A lane of a crew that holds nothing: every register zero, done (R11, R28). -/
def Lane.blank (budget : Nat) : Lane :=
  { v := List.replicate budget 0, q := 0, wl := 0, ro := 0, link := [], spilled := 0, rwl := 0, rro := 0, kind := false,
    rngc := 0, rng := 0, oid := 0, done := true, parked := false, trapped := false, act := false, resumed := false,
    park := none, floors := [], waited := none }

/-- What the sequencer does once it has loaded a line (04_sweep R33, R52). -/
inductive Cont where
  /-- test the LABEL bit of the result of a census with a lower bound -/
  | test (lo : Option Word) (c : Word)
  /-- go on with a visit at an offset -/
  | run (lab pc : Word)
deriving DecidableEq, Repr

/-- Where a crew's sequencer stands (R33, R44, R336). -/
inductive Seq where
  /-- about to take a census with this lower bound; `none` is -1 -/
  | census (lo : Option Word)
  /-- waiting for a fetch line -/
  | load (line : Nat) (k : Cont)
  /-- visiting span `lab`, at the instruction boundary before `pc` -/
  | visit (lab pc : Word)
  | asleep
  | shell
  | retired
deriving DecidableEq, Repr

/-- A fetch line in a fetch slot: its index and its sixteen words, the header first (R30, R39). -/
structure Line where
  idx : Nat
  words : List DWord
deriving DecidableEq, Repr

/-- A crew waiting in REGROUP (14_crews R223): the instruction's offset, its key, its operands, since when. -/
structure Regroup where
  off : Word
  key : Word
  q : BitVec 3
  vf : Nat
  n : Nat
  since : Nat
  /-- the first cycle at which its lanes let it pair: it is tried from there on -/
  tried : Nat
deriving DecidableEq, Repr

/-- One single-copy access of an operation, as translated when it issued (R168, R169, R190). -/
structure Piece where
  va : Nat
  /-- home address: the physical address, host-tier addresses apart from device-private ones (DESIGN CHOICE, log 11) -/
  home : Nat
  size : Nat
  key : Nat
  sealId : Nat
  tier : Nat
  /-- first and last address of the range entry that translated it (20_ranges R323) -/
  lo : Nat
  hi : Nat
deriving DecidableEq, Repr

/-- Where an atomic acts. -/
inductive Place where
  | global (p : Piece)
  /-- a scratchpad: the core that holds it, and the offset (R172) -/
  | scratch (core a : Nat)
deriving DecidableEq, Repr

/-- An operation in a crew's issue queue (11_ordering R165). -/
inductive OpKind where
  | load (z : Acc) (home : Bool) (h : Hint) (ps : List Piece) (d : Reg)
  /-- a decoded load: its address, format, code and scale word (R192) -/
  | decode (z : Acc) (home : Bool) (h : Hint) (va fmt : Nat) (code scale : Piece) (hi : Bool) (d : Reg)
  | store (h : Hint) (ps : List (Piece × DWord))
  | spLoad (z : Acc) (core a : Nat) (d : Reg)
  | spStore (core a size : Nat) (data : BitVec 128)
  | atom (op : AtomOp) (z : Acc) (at_ : Place) (v : DWord) (d : Reg)
  | cas (z : Acc) (at_ : Place) (cmp new : DWord) (d : Reg)
  | red (op : AtomOp) (z : Acc) (at_ : Place) (v : DWord)
  | waitc (cond : Cond) (z : Acc) (p : Piece) (rhs : DWord)
  | awinit (a : Nat) (target : BitVec 24)
  | arrive (a : Nat) (amount : BitVec 24)
  | await (a : Nat) (gen : BitVec 16)
  | fence (sc : Scope)
  /-- PHASE: once it has begun to wait for acknowledgements, how many entries the store buffer had taken by then (R171) -/
  | phase (pub ref : Bool) (mark : Option Nat)
  | bar
  | barc
  /-- SFENCE: first byte and length, `none` for the whole (R201) -/
  | sfence (a : Nat) (len : Option Nat)
  /-- a token of TAKE on its way (R249): network, the token's id, 32-bit form, destination, overflow predicate -/
  | token (net id : Nat) (w32 : Bool) (d : Reg) (c : Reg)
  /-- NETCNT (R250) -/
  | netcnt (net : Nat) (d : Reg)
  /-- an instruction whose effect takes place when it performs, with the operand values it read when it issued: engine
  and system instructions (R178, R371) -/
  | instr (i : Instr) (xs : List DWord)
deriving DecidableEq, Repr

/-- An operation with what R167 orders it by. -/
structure Op where
  /-- which instruction of the crew it belongs to, in issue order -/
  ins : Nat
  /-- its lane -/
  lane : Nat
  /-- code offset of the instruction and label of the span it issued in -/
  pc : Word
  lab : Word
  what : OpKind
deriving DecidableEq, Repr

/-- A crew (R15-R19, R28, R33). -/
structure Crew where
  cid : Nat
  /-- quadrant and slot within it (R19) -/
  quad : Nat
  slot : Nat
  /-- 0 copy, 1 matrix, 2 finish (R17) -/
  role : Nat
  budget : Nat
  swc : Word
  /-- s0 to s63 (R11) -/
  s : List Word
  lanes : List Lane
  seq : Seq
  /-- the span it visited last; none before its first visit and once it has slept (R38) -/
  last : Option Word
  /-- the current line and the prefetched next line (R39) -/
  line : Option Line
  next : Option Line
  queue : List Op
  ins : Nat
  regroup : Option Regroup
  /-- the order in which it became resident (R219) -/
  age : Nat
  /-- since when it has been ready without issuing (R222) -/
  since : Nat
  promoted : Bool
  /-- locality score (R221) -/
  score : Nat
  /-- instructions issued since its block was aborted (R338) -/
  skid : Nat
  /-- the core cycle from which on the results of what it has issued are ready (06_control_integer R104) -/
  busy : Nat
  /-- the home time at which it was first ready to make the accesses of its next move: its walks may have begun by then (20_ranges
  R318; DESIGN CHOICE, log 34) -/
  opened : Option Nat
  /-- where the host's acknowledgements stood when its FENCE.sys or system instruction first waited for them (11_ordering R174) -/
  acks : Option Nat
deriving DecidableEq, Repr

/-- A crew without lanes. -/
def Crew.blank : Crew :=
  { cid := 0, quad := 0, slot := 0, role := 0, budget := 0, swc := 0, s := List.replicate 64 0, lanes := [],
    seq := .retired, last := none, line := none, next := none, queue := [], ins := 0, regroup := none, age := 0, since := 0,
    promoted := false, score := 0, skid := 0, busy := 0, opened := none, acks := none }

/-! ### Engines -/

/-- What a tile holds (17_engines R260). -/
inductive TileKind where
  | unset | float | int
deriving DecidableEq, Repr

/-- An accumulator tile (R257, R260, R266): 4,096 mantissas row by row, the tile exponent, its kind and saturation. -/
structure Tile where
  m : List Int
  e : Option Int
  kind : TileKind
  sat : Bool
deriving DecidableEq, Repr

/-- What an operand handle is bound to (R262, R291). -/
inductive Binding where
  | sp (fmt : MFmt) (a scl stride : Nat)
  | l2 (fmt : MFmt) (va stride : Nat)
deriving DecidableEq, Repr

/-- An operand handle (R262, R269). -/
structure Handle where
  bind : Option Binding
  gen : Nat
deriving DecidableEq, Repr

/-- A matrix command's work (R264, R291-R294). -/
inductive MKind where
  | mdesc (h : Nat)
  | mzero (t : Nat)
  /-- element by element: row, column, value bits -/
  | mwrite (int : Bool) (t : Nat) (els : List (Nat × Nat × Word))
  | mloop (sh : Shape) (t k : Nat) (ha hb : Nat) (a b : Handle) (ia ib : Int)
deriving DecidableEq, Repr

/-- A matrix command from its issue to the MWAIT that covers it (11_ordering R181): the crew that issued it and its place in issue
order, the tiles it writes, how many values the block's tiles had taken when it issued, and home time and the writes of the scratchpad
on record then. -/
structure MOpen where
  crew : Nat
  ins : Nat
  tiles : List Nat
  turn : Nat
  home : Nat
  sp : Nat
deriving DecidableEq, Repr

/-- A matrix command accepted and not completed. -/
structure MCmd where
  id : Nat
  /-- the posting crew's cid, lane tag and instruction offset (R272) -/
  crew : Nat
  lane : Nat
  oid : Word
  pc : Word
  kind : MKind
  begun : Bool
  /-- its kind, fixed when it begins: integer, or float (R263) -/
  int : Bool
  /-- it has raised its one report (R272) -/
  reported : Bool
  /-- tile steps done: K-steps done times the tiles of the group, and tiles done of the step in progress -/
  step : Nat
  /-- home time, and writes of the scratchpad on record, when it issued: its operands are no older (R181) -/
  home : Nat
  sp : Nat
  /-- what the K-step in progress has already recorded: denied chunks and uncorrectable elements (R271) -/
  noted : List Nat
deriving DecidableEq, Repr

/-- An entry of the operand-fault and ECC log (R271, R298). -/
structure MLog where
  elem : Nat
  row : Nat
  hnd : Nat
  step : Nat
deriving DecidableEq, Repr

/-- A copy command's work (17_engines R274-R277). -/
inductive CKind where
  /-- rows read from global at base + index or base + i * stride and landed in scratchpad -/
  | gather (base stride : Nat) (idx : Option Nat) (dst dstStride : Nat) (mc : Bool)
  | scatter (base stride : Nat) (idx : Option Nat) (src srcStride : Nat)
  | scatadd (t : Ty) (base stride : Nat) (idx : Nat) (src : Nat)
  | spsp (src srcStride dst dstStride : Nat)
  | fill (pat : Word) (glob : Bool) (dst dstStride : Nat)
deriving DecidableEq, Repr

/-- A copy command posted and not completed. -/
structure CCmd where
  id : Nat
  crew : Nat
  lane : Nat
  oid : Word
  pc : Word
  kind : CKind
  rows : Nat
  rb : Nat
  /-- arrival word (scratchpad offset) -/
  aw : Nat
  /-- the index vector, read when the command was accepted (16 R254) -/
  idxs : List Word
  /-- pieces performed: row, and number within the row, its scale words last -/
  done : List (Nat × Nat)
  /-- rows with a piece that was denied or faulted (R278) -/
  bad : List Nat
  /-- scale bytes landed, by row (R274) -/
  scaled : List (Nat × Nat)
  /-- rows that the markers added so far have counted (R279) -/
  marked : Nat
  /-- the blocks whose arrival words the marker being added has not reached (R277) -/
  owed : List Nat
  /-- the command has raised its one report (R272) -/
  reported : Bool
  /-- home time when it was accepted: the walks of its pieces are no older (20_ranges R318) -/
  home : Nat
deriving DecidableEq, Repr

/-- A collective member's record entry (18 R304). -/
structure Member where
  inbox : Nat
  blk : Nat
  part : Nat
  dev : Nat
deriving DecidableEq, Repr

/-- A group bound to a slot of a block (17_engines R281, R305). -/
structure Group where
  va : Nat
  tag : DWord
  self : Nat
  tmo : Nat
  members : List Member
  /-- operations issued on it -/
  count : Nat
deriving DecidableEq, Repr

/-- A collective operation of one member (17_engines R282, R286). -/
structure COp where
  id : Nat
  /-- the member's block -/
  blk : Nat
  slot : Nat
  group : Group
  /-- which operation of the group this is -/
  seq : Nat
  /-- 0 gather, 1 reduce-scatter, 2 all-to-all, 3 barrier -/
  op : Nat
  t : Ty
  src : Nat
  c : Nat
  off : Nat
  crew : Nat
  lane : Nat
  oid : Word
  pc : Word
  since : Nat
  /-- what has been delivered to it: member and piece, or, for a reduction, element and 0 -/
  got : List (Nat × Nat)
  /-- pieces of its own chunks sent to members of other devices: member and piece (17_engines R282) -/
  sent : List (Nat × Nat)
  /-- home runs written in its inbox (11_ordering R182) -/
  landed : List (Nat × Nat)
  reported : Bool
  done : Bool
  /-- the core that runs it as a kernel, once it has fallen back, with the kernel's quadrant and slot (17_engines R285) -/
  kernel : Option (Nat × Nat × Nat)
  asid : Nat
  part : Nat
  vf : Nat
  clr : Nat
  launch : Word
  core : Nat
  /-- quadrant and slot of the issuing crew, for its report (R272) -/
  quad : Nat
  cslot : Nat
  /-- home time when it was accepted: the walks of its pieces are no older (20_ranges R318) -/
  home : Nat
deriving DecidableEq, Repr

/-! ### Blocks and launches -/

/-- A store-buffer entry (11_ordering R169, 21_traps_preemption R349). -/
structure Entry where
  p : Piece
  data : DWord
  /-- the oid of the storing lane, for a denial record -/
  oid : Word
  /-- crew and lane of the store and its code offset, for its report (21_traps_preemption R330) -/
  crew : Nat
  lane : Nat
  off : Word
  /-- how many entries its store buffer had taken before it (11_ordering R171) -/
  no : Nat
  /-- the hint of the store (12_memory_instructions R188) -/
  hint : Hint
deriving DecidableEq, Repr

/-- The origin of a handler lane (21_traps_preemption R334): block, crew, lane. -/
structure Origin where
  blk : Nat
  crew : Nat
  lane : Nat
deriving DecidableEq, Repr

/-- A gathered lane, or a lane of a handler crew (R332, R382). -/
structure HLane where
  cause : Cause
  tag : DWord
  origin : Option Origin
  fault : DWord
  off : Word
  /-- the partition whose handler runs it -/
  part : Nat
  /-- core cycle at which it was gathered -/
  time : Nat
  /-- it has passed its verdict -/
  decided : Bool
deriving DecidableEq, Repr

/-- A block (09 R146, 10 R155-R156, 11 R165, 12 R205, 17, 21). A handler crew is a block of its own with `hnd`
not empty, no scratchpad and no tiles (R333). -/
structure Block where
  uid : Nat
  launch : Word
  bid : Nat
  core : Nat
  part : Nat
  vf : Nat
  /-- the KIND of its list: 1 user, 2 function, 3 partition; 4 for a handler crew (R369) -/
  level : Nat
  /-- address space of its accesses -/
  asid : Nat
  /-- VA of the first code line, and how many code lines there are (R30, R416) -/
  code : Nat
  nline : Nat
  /-- home time at which its launch was taken: code and tables are no older (R49, R83) -/
  codeTime : Nat
  priv : Nat
  /-- clearance-map slot (R328) -/
  clr : Nat
  /-- cluster-grouped (R146), with its position k -/
  grouped : Bool
  pos : Nat
  crews : List Crew
  scratchSize : Nat
  /-- the SRAM units it holds, its offset 0 at the start of the first (10 R155) -/
  units : List Nat
  scratch : List Host.Cell
  /-- bytes that scratchpad writes replaced while matrix commands were issued or pending, newest write first (11 R181) -/
  spLog : List (List Host.Cell)
  tiles : List Tile
  handles : List Handle
  mcmds : List MCmd
  /-- matrix commands accepted so far; collectives and copies draw their numbers here too -/
  nextCmd : Nat
  /-- matrix commands issued that no MWAIT has covered yet (11 R181) -/
  pending : List MOpen
  /-- how many values its tiles have taken -/
  turns : Nat
  /-- values that tiles held while such commands were open: tile, value, and `turns` when it was replaced (11 R181) -/
  past : List (Nat × Tile × Nat)
  ecc : Bool
  opf : Bool
  ref : Bool
  mlog : List MLog
  mlost : Nat
  ccmds : List CCmd
  cerr : Bool
  cecc : Bool
  /-- denial records its copy commands have appended since the last CSTAT.clr (R303) -/
  cden : Nat
  groups : List (Option Group)
  storeBuf : List Entry
  /-- entries that the store buffer has taken so far -/
  entered : Nat
  unacked : Nat
  /-- refresh point: the home time of the last refresh, and later times for bytes drained since (R165, R166) -/
  refresh : Nat
  refreshAt : List (Nat × Nat)
  /-- refresh stamps: core and sector (10_memory R162) -/
  stampC : BitVec 16
  stampS : BitVec 16
  /-- open instances, and the lanes (cid, lid) that have arrived (R147, R205) -/
  barInst : Nat
  barArr : List (Nat × Nat)
  barcInst : Nat
  barcArr : List (Nat × Nat)
  kills : Nat
  /-- the tag of the lane that aborted it, and that lane's origin (R338) -/
  abort : Option (DWord × Origin)
  /-- crews that were live at the abort: cid, label of the span visited at the stop, skid (R339) -/
  errs : List (Nat × Word × Nat)
  /-- pre-emption has reached it (R343) -/
  stopping : Bool
  hnd : List HLane
deriving DecidableEq, Repr

/-- A launch from its taking to its completion (22_tenants R359-R362). -/
structure Launch where
  id : Word
  part : Nat
  vf : Nat
  list : Nat
  level : Nat
  proc : Nat
  prio : Nat
  record : BitVec 512
  hdr : BitVec 1024
  args : List Word
  nextBid : Nat
  completed : Nat
  nerr : Nat
  /-- saved blocks, in restore order; their engine state is the section of R349 whose layout is the device's own -/
  saved : List Block
  /-- when taken, in takes of the device, and the home time then (R49, R83) -/
  order : Nat
  time : Nat
deriving DecidableEq, Repr

/-! ### Device structures -/

/-- An entry of a range lookaside (20_ranges R318); the least recently used entry stands last. -/
structure Look where
  core : Nat
  /-- the quadrant, or `none` for the core's own -/
  quad : Option Nat
  asid : Nat
  vf : Nat
  d1 : BitVec 256
  d2 : BitVec 256
  /-- MODE 1: the residency-map word and the number of its first granule -/
  map : Option (DWord × Nat)
deriving DecidableEq, Repr

/-- What a cached quarter holds: the quarter of its line, the slot it was filled through, the key material the slot held then, the home
time and how many runs of key material there were; and what it decrypted to, when not all of it stood under that material (20_ranges
R326, 25_bringup R406). -/
structure Filled where
  q : Nat
  slot : Nat
  key : Nat
  time : Nat
  runs : Nat
  vals : List Byte
deriving DecidableEq, Repr

/-- A line of an L1 (10_memory R155, R159, R162); the least recently used stands last. Its dirty bytes are the store-buffer
entries of its owner. -/
structure L1Line where
  core : Nat
  line : Nat
  /-- the SRAM unit it stands in (R155) -/
  way : Nat
  /-- the quarters filled, each with its fill stamp (R162) -/
  quarters : List (Nat × BitVec 16)
  /-- of these, what each holds: its plaintext stays what it was (20_ranges R326, 25_bringup R406) -/
  mats : List Filled
  /-- the hint of the access that last used it (12_memory_instructions R188) -/
  hint : Hint
  /-- quadrant and slot of the crew that filled it (R221) -/
  quad : Nat
  slot : Nat
deriving DecidableEq, Repr

/-- A line of the L2, or a print of one (10_memory R159-R162, 20_ranges R326, R328). -/
structure L2Line where
  /-- `none` at home, else the sector that holds the print -/
  print : Option Nat
  line : Nat
  /-- the quarters filled, each with its fill stamp (R162) -/
  quarters : List (Nat × BitVec 16)
  /-- of these, and of what was written where it stood under other keys, what each holds: its plaintext stays what it was (20_ranges
  R326, 25_bringup R406) -/
  mats : List Filled
  /-- the bytes written and not yet in memory (R159) -/
  mask : BitVec 256
  way : Nat
  owner : Nat
  sealId : Nat
  key : Nat
  /-- home time at which it was allocated (04_sweep R49) -/
  since : Nat
  hint : Hint
  /-- pinned by a matrix handle: block, handle and the last K-step it was read for (17_engines R270) -/
  pins : List (Nat × Nat × Nat)
deriving DecidableEq, Repr

/-- A line of an instruction cache: two fetch lines, with the key of its fill and the home time they were read as of (04_sweep
R39, R49); the most recently filled stands first. -/
structure ILine where
  core : Nat
  line : Nat
  key : Nat
  time : Nat
  data : List Byte
deriving DecidableEq, Repr

/-- What gave addresses another backing. -/
inductive RemapKind where
  /-- an RINVAL of theirs (R321, R323) -/
  | rinval
  /-- what alone makes the backing they have: a move of the fuller, or the RINVAL that ends a residency wait (R321, R327) -/
  | fresh
  /-- an edit of their table, which takes effect as walks read it (R322) -/
  | edit
deriving DecidableEq, Repr

/-- A run of addresses that may have got another backing: address space, first and last address, home time before and after, and what
did it (11_ordering R168, 20_ranges R321, R322, R327; DEDUCED, log 36). -/
structure Remap where
  asid : Nat
  lo : Nat
  hi : Nat
  since : Nat
  time : Nat
  kind : RemapKind
deriving DecidableEq, Repr

/-- A run of home bytes that stands under a key material, and the home time from which on it did (20_ranges R326). With `vals` a
controller took a whole quarter over to that material, and these are the bytes it found; else they are as they were written. `no` runs
came before it. -/
structure KeyRun where
  no : Nat
  lo : Nat
  n : Nat
  time : Nat
  key : Nat
  vals : List Byte
deriving DecidableEq, Repr

/-- A residency request outstanding: core, address space, range base, granule, the address asked for, and whose accesses wait on it:
blocks', or, as `none`, a front end's (20_ranges R320). -/
structure Asked where
  core : Nat
  asid : Nat
  base : Nat
  granule : Nat
  va : Nat
  waiters : List (Option Nat)
deriving DecidableEq, Repr

/-- A completion word that waits for its granule (22_tenants R362): partition, function, record, word. -/
structure Owed where
  part : Nat
  vf : Nat
  record : BitVec 512
  word : DWord
deriving DecidableEq, Repr

/-- An entry of a victim tag array (14_crews R221). -/
structure Victim where
  core : Nat
  line : Nat
  quad : Nat
  slot : Nat
deriving DecidableEq, Repr

/-- A value an operand cache holds (17_engines R269): block, handle, generation, operand address, bytes. -/
structure OpCache where
  core : Nat
  blk : Nat
  handle : Nat
  gen : Nat
  glob : Bool
  addr : Nat
  data : List Byte
deriving DecidableEq, Repr

/-- A token in a number network (14_crews R228-R230). -/
structure Token where
  id : Nat
  blk : Nat
  crew : Nat
  lane : Nat
  /-- the wire it stands on: 0 to 15 the inputs, 16 + 2k and 17 + 2k the outputs of balancer k (R228) -/
  wire : Nat
deriving DecidableEq, Repr

/-- A number network (R229, R234). -/
structure Net where
  bal : BitVec 80
  cnt : List (BitVec 40)
  closed : Bool
  /-- a reset is in progress -/
  resetting : Bool
  /-- its function was lost, or its record failed as it was loaded: it stays closed until it is loaded or reset (21_traps_preemption
  R351, 22_tenants R364) -/
  lost : Bool
  tokens : List Token
deriving DecidableEq, Repr

/-- A request to the fuller, and its move in progress (20_ranges R327). -/
structure Compact where
  die : Nat
  asid : Nat
  vf : Nat
  part : Nat
  base : Nat
  nia : Nat
  started : Bool
deriving DecidableEq, Repr

/-- A partition (22_tenants R355, R356; 24 R394). -/
structure Part where
  record : BitVec 1024
  /-- denial log indexes (20_ranges R329) -/
  p : DWord
  c : DWord
  drainAsked : Bool
  /-- denial records that wait for their log's granule: function and bytes, oldest first (20_ranges R329) -/
  owed : List (Nat × List Byte)
  /-- clearance maps, slot by slot, as the seals whose bits are set (R328) -/
  maps : List (List Nat)
  draining : Bool
  awaitsHost : Bool
  refusedWrite : Bool
  /-- the function that holds it, its SCHED entry, when its slice began -/
  holder : Option Nat
  entry : Nat
  sliceStart : Nat
  /-- since when the conditions of an early end have held (R365) -/
  idleSince : Option Nat
  /-- a switch in progress: the incoming SCHED entry -/
  switching : Option Nat
deriving DecidableEq, Repr

/-- A virtual function (22_tenants R357, R360, R367). -/
structure Func where
  record : BitVec 2560
  /-- running counters and overflow bits while the function holds its partition -/
  cnt : List (BitVec 48)
  ovf : BitVec 8
  lost : Bool
  /-- lists out of service, lists whose head is watched -/
  out : List Nat
  watched : List Nat
  /-- the last list of each PRIO that took a launch, process by process and for KIND 3 lists, eight PRIOs each; the last
  process served, and the blocks placed in its turn, 255 when no turn is open (R363) -/
  lastList : List Nat
  lastProc : Nat
  placed : Nat
  /-- bytes of CNT and OVF that the hypervisor wrote while the function held its partition (R357) -/
  wrote : List Nat
  /-- the launch into whose save area the networks were written (R347) -/
  netsIn : Option Word
  /-- records taken from lists, their tails moved on, whose arguments or image header wait for a granule: list and record (R360) -/
  taken : List (Nat × BitVec 512)
deriving DecidableEq, Repr

/-- A posted operation on its way to home (11_ordering R165, R197). -/
structure Posted where
  blk : Nat
  crew : Nat
  op : Op
  oid : Word
deriving DecidableEq, Repr

/-- What made an access to the host tier (11_ordering R174): a drain, a RED of a crew, or an engine. -/
inductive HostCause where
  | drain
  | red (crew : Nat)
  | engine
deriving DecidableEq, Repr

/-- A host access whose acknowledgement is outstanding (24 R395): the block it is counted against, what made it (11_ordering R174), its
number, and whether its bytes have been written back, so that the host can acknowledge it. -/
structure HostReq where
  blk : Nat
  home : Nat
  cause : HostCause
  no : Nat
  sent : Bool
deriving DecidableEq, Repr

/-- The turn the device takes next: cycles that pass before it, and the move (DESIGN CHOICE, log 1). -/
inductive Move where
  /-- a crew issues its next instruction (R166, R219) -/
  | issue (b c : Nat)
  | event (i : Instr)
deriving DecidableEq, Repr

/-- One entry of the agenda: core cycles, counts of `clk`, and the move; with how many cycles later than the least the results of what
issues or performs in it are ready (R104), and how long ago its walks read: for a probe with `r` probes after it, entry `r` says how
many home writes before the next it is made, and how many before its own end each of its words is read (R318) (DESIGN CHOICE, log 1,
DESIGN CHOICE, log 34). -/
structure Turn where
  cycles : Nat
  refs : Nat
  move : Move
  late : Nat := 0
  lags : List (Nat × List Nat) := []
deriving DecidableEq, Repr

/-- A fabric or link port's receive state (24 R391, R397). -/
structure Port where
  seq : BitVec 12
  ack : BitVec 12
  cred : BitVec 12
  next : BitVec 12
  /-- flits sent and not acknowledged -/
  replay : List (BitVec 12 × BitVec 2048)
  retry : Bool
  /-- payloads received -/
  inbox : List (BitVec 2048)
deriving DecidableEq, Repr

/-- The machine. -/
structure State where
  -- power, boot and management (25_bringup)
  power : Bool
  stage : Nat
  err : BitVec 8
  ready : Bool
  tripped : Bool
  plim : Nat
  lowered : Bool
  spaced : Bool
  /-- sensor readings, which management reads (R407; DESIGN CHOICE, log 25) -/
  sensors : List Nat
  /-- flits that each fabric port has delivered and discarded: what management reads of the fabric (24_host_fabric R397;
  DESIGN CHOICE, log 25) -/
  fabricCounts : List (Nat × Nat)
  /-- adaptive core-clock calibrations made (R402) -/
  adjusts : Nat
  retraining : List Nat
  keys : List (Nat × Nat)
  /-- the material of slot 0 under which stage 5 wrote its zeros (25_bringup R399) -/
  zeroKey : Nat
  dirBase : Nat
  launchCtr : Word
  takes : Nat
  -- time (R8)
  cyc : Nat
  clk : DWord
  -- memory (11_ordering R165)
  mem : List Host.Cell
  log : List (List Host.Cell)
  /-- key material under which bytes were written, the newest run first; unlisted bytes have `zeroKey` (20_ranges R326) -/
  qkeys : List KeyRun
  posted : List Posted
  hostReqs : List HostReq
  /-- host accesses numbered so far (24 R395) -/
  hostNo : Nat
  l2 : List L2Line
  l1 : List L1Line
  icache : List ILine
  remaps : List Remap
  victims : List Victim
  looks : List Look
  opCache : List OpCache
  /-- stamp counters of the cores and sectors (10_memory R162) -/
  coreStamps : List (Nat × BitVec 16)
  sectorStamps : List (Nat × BitVec 16)
  /-- instruction-cache pins: core, launch, line of its code, and where that line stands (R48) -/
  pins : List (Nat × Word × Nat × Nat)
  /-- core cycle of the last halving of a core's locality scores (14_crews R221) -/
  decays : List (Nat × Nat)
  -- work
  blocks : List Block
  nextUid : Nat
  nextAge : Nat
  launches : List Launch
  colls : List COp
  nextColl : Nat
  nets : List Net
  nextToken : Nat
  gathered : List (Nat × HLane)
  residency : List Asked
  words : List Owed
  compacts : List Compact
  parts : List Part
  funcs : List Func
  -- host, link, fabric (24)
  apEn : List DWord
  apKey : List DWord
  apPab : List DWord
  devId : BitVec 16
  routes : List (Nat × Nat)
  link : Port
  fabric : List Port
  hostMsgs : List (BitVec 128)
  hostReads : List (List Byte)
  reports : List (List Byte)
  -- the model's own fields
  /-- the moves chosen to come next (DESIGN CHOICE, log 1) -/
  agenda : List Turn
  /-- the crew whose instruction is executing: block and index (DESIGN CHOICE, log 1) -/
  cur : Option (Nat × Nat)
  /-- free values drawn (DESIGN CHOICE, log 3) -/
  draws : Nat
  /-- of the turn under way, how much later results are ready, how long ago walks read, and the home time that no walk is older than
  (DESIGN CHOICE, log 1, DESIGN CHOICE, log 34) -/
  late : Nat
  lags : List (Nat × List Nat)
  walkFrom : Nat
deriving DecidableEq, Repr

/-- A port before anything was received (DESIGN CHOICE, log 25). -/
def Port.reset : Port := ⟨0, 0, 0, 0, [], false, []⟩

/-- A number network whose bits and counters are zero (R229; DESIGN CHOICE, log 2). -/
def Net.reset : Net := ⟨0, List.replicate 16 0, false, false, false, []⟩

/-- A partition whose record and maps are zero (R399). -/
def Part.reset : Part :=
  { record := 0, p := 0, c := 0, drainAsked := false, owed := [], maps := List.replicate 16 [], draining := false,
    awaitsHost := false, refusedWrite := false, holder := none, entry := 0, sliceStart := 0, idleSince := none,
    switching := none }

/-- A function whose record is zero (R399). -/
def Func.reset : Func :=
  { record := 0, cnt := List.replicate 8 0, ovf := 0, lost := false, out := [], watched := [],
    lastList := List.replicate 136 7, lastProc := 15, placed := 255, wrote := [], netsIn := none, taken := [] }

/-- The device before POWER_GOOD: nothing is retained (25_bringup R399; the values it does not state are
DESIGN CHOICE, log 2). -/
def State.reset : State :=
  { power := false, stage := 0, err := 0, ready := false, tripped := false, plim := 1900, lowered := false,
    spaced := false, sensors := [], fabricCounts := List.replicate 12 (0, 0), adjusts := 0, retraining := [], keys := [],
    zeroKey := 0, dirBase := 0, launchCtr := 0, takes := 0,
    cyc := 0, clk := 0, mem := [], log := [], qkeys := [], posted := [], hostReqs := [], hostNo := 0, l2 := [], l1 := [],
    icache := [], remaps := [], victims := [], looks := [], opCache := [], coreStamps := [], sectorStamps := [], pins := [], decays := [],
    blocks := [], nextUid := 0, nextAge := 0, launches := [], colls := [], nextColl := 0,
    nets := List.replicate 256 Net.reset, nextToken := 0, gathered := [], residency := [], words := [], compacts := [],
    parts := List.replicate 16 Part.reset, funcs := List.replicate 64 Func.reset,
    apEn := List.replicate 16 0, apKey := List.replicate 16 0, apPab := List.replicate 16 0, devId := 0,
    routes := [], link := Port.reset, fabric := List.replicate 12 Port.reset, hostMsgs := [], hostReads := [],
    reports := [], agenda := [], cur := none, draws := 0, late := 0, lags := [], walkFrom := 0 }

end Sys2Proof.Machine
end

