-- ==== Sys2Proof/Machine/Memory.lean ====
section
/-! DEFINITION. Bytes: the canonical list of cells, home memory with its history (11_ordering R165, R168), the keys
of quarters (20_ranges R326), and little-endian words (00_scope R4). -/

namespace Sys2Proof.Machine

/-! ### Canonical memories -/

/-- What a byte that nothing has written reads as: zero, which power-up writes (25_bringup R399 stage 5) and which a
scratchpad starts with (10_memory R156); of the host's own memory the spec says nothing (DESIGN CHOICE, log 24). -/
def unlisted : Byte := 0

/-- The canonical form: addresses strictly rising, and no entry equal to what an unlisted address reads as. -/
def memWf : List Host.Cell → Bool
  | [] => true
  | [(_, v)] => v != unlisted
  | (a, v) :: (b, w) :: r => decide (a < b) && v != unlisted && memWf ((b, w) :: r)

/-- The byte at an address. -/
def memRead : List Host.Cell → Nat → Byte
  | [], _ => unlisted
  | (b, v) :: r, a => if a = b then v else if a < b then unlisted else memRead r a

/-- Writes one byte, keeping the canonical form. -/
def memWrite : List Host.Cell → Nat → Byte → List Host.Cell
  | [], a, x => if x == unlisted then [] else [(a, x)]
  | (b, v) :: r, a, x =>
    if a < b then (if x == unlisted then (b, v) :: r else (a, x) :: (b, v) :: r)
    else if a = b then (if x == unlisted then r else (a, x) :: r)
    else (b, v) :: memWrite r a x

/-- Writes cells one after another. -/
def memWrites (m : List Host.Cell) (cs : List Host.Cell) : List Host.Cell :=
  cs.foldl (fun m c => memWrite m c.1 c.2) m

/-- The bytes from an address. -/
def memBytes (m : List Host.Cell) (a n : Nat) : List Byte := (List.range n).map fun i => memRead m (a + i)

/-- The cells that bytes from an address make. -/
def cellsOf (a : Nat) (bs : List Byte) : List Host.Cell := bs.mapIdx fun i b => (a + i, b)

/-! ### Little-endian words (R4) -/

/-- The number that bytes make, the first the least significant. -/
def leNat (bs : List Byte) : Nat := bs.foldr (fun b acc => b.toNat + 256 * acc) 0

/-- The `n` bytes of a number, least significant first. -/
def leBytes (n x : Nat) : List Byte := (List.range n).map fun i => BitVec.ofNat 8 (x / 256 ^ i)

/-! ### Home memory and its history (R165) -/

/-- Home time: how many home writes there have been. -/
def State.now (s : State) : Nat := s.log.length

/-- The newest value an address had among these writes, newest first. -/
def lastIn : List (List Host.Cell) → Nat → Option Byte
  | [], _ => none
  | w :: ws, a =>
    match w.reverse.find? (·.1 == a) with
    | some c => some c.2
    | none => lastIn ws a

/-- The value of a home byte at a time (R165); the initial value is the unlisted one. -/
def State.byteAt (s : State) (t a : Nat) : Byte :=
  if s.now ≤ t then memRead s.mem a else (lastIn (s.log.drop (s.now - t)) a).getD unlisted

/-- The position of a time in a byte's history: how many writes of the byte there were (R165). -/
def State.position (s : State) (t a : Nat) : Nat :=
  (s.log.drop (s.now - t)).countP fun w => w.any (·.1 == a)

/-- Addresses from here on are host-tier home addresses: `hostBase + pa` (24 R395; DESIGN CHOICE, log 11). -/
def hostBase : Nat := 2 ^ 52

/-- The key material a key slot holds (20_ranges R326). -/
def State.keyOf (s : State) (slot : Nat) : Option Nat := s.keys.lookup slot

/-- What stands for the material of a host-tier byte, which leaves the device as plaintext, and of a slot that holds no key; no
key's material is either (25_bringup R399, R406; DESIGN CHOICE, log 10). -/
def plainKey : Nat := 2

/-- Whether a run of key material holds a byte. -/
def KeyRun.holds (r : KeyRun) (a : Nat) : Bool := decide (r.lo ≤ a) && decide (a < r.lo + r.n)

/-- The run a byte stands in at a home time; a copy that was filled when there were so many runs does not show what a controller took
over since then (R326). -/
def State.runAt (s : State) (filled : Option Nat) (t a : Nat) : Option KeyRun :=
  s.qkeys.find? fun r => r.holds a && decide (s.now ≤ t ∨ r.time ≤ t)
    && (r.vals.isEmpty || filled.all fun n => decide (r.no < n))

/-- The material of a run; at first it is that of power-up stage 5 (R399). -/
def State.runKey (s : State) (r : Option KeyRun) : Nat := (r.map (·.key)).getD s.zeroKey

/-- Whether a run was made when there were that many runs already. -/
def madeSince (n : Nat) (r : Option KeyRun) : Bool := r.any fun r => decide (n ≤ r.no)

/-- A byte as it reads under the material of its run: what a controller found when it took the byte over, or what was written. -/
def State.plainAt (s : State) (r : Option KeyRun) (t a : Nat) : Byte := (r.bind fun r => r.vals[a - r.lo]?).getD (s.byteAt t a)

/-- The material under which a byte stands at a home time (R326). -/
def State.ownKey (s : State) (t a : Nat) : Nat := if hostBase ≤ a then plainKey else s.runKey (s.runAt none t a)

/-- The material an access through a key slot uses; host-tier bytes have none (R326). -/
def State.material (s : State) (slot a : Nat) : Nat :=
  if hostBase ≤ a then plainKey else (s.keyOf slot).getD plainKey

/-- Whether a line of the L2 holds a home byte: its quarter was filled, or the byte was written (10_memory R159). -/
def L2Line.has (l : L2Line) (a : Nat) : Bool :=
  l.line == a / 256 && (l.quarters.any (·.1 == a / 64 % 4) || l.mask.getLsbD (a % 256))

/-- What a line holds of the quarter of an address. -/
def L2Line.filled (l : L2Line) (a : Nat) : Option Filled := l.mats.find? (·.q == a / 64 % 4)

/-- Whether a byte of a line was written in it and is not yet in memory (10_memory R159). -/
def L2Line.wrote (l : L2Line) (a : Nat) : Bool := l.mask.getLsbD (a % 256)

/-- The home line of an address, when a key slot filled it (R326). -/
def State.slotLine (s : State) (slot a : Nat) : Option L2Line :=
  (s.l2.find? fun l => l.print == none && l.line == a / 256).filter (·.key == slot)

/-- The 64 bytes of a quarter at a time, each under its own material. -/
def State.quarterAt (s : State) (t a : Nat) : List Byte :=
  (List.range 64).map fun i => s.plainAt (s.runAt none t (a / 64 * 64 + i)) t (a / 64 * 64 + i)

/-- A byte of a run as a controller decrypts it under a material: as it is when that is its own (R326). -/
def State.decrypt (s : State) (r : Option KeyRun) (m t a : Nat) : Byte :=
  if s.runKey r = m then s.plainAt r t a else Config.crossKey (s.runKey r) m a (s.quarterAt t a)

/-- A home byte at a time as read through a key slot: from a line that it was `wrote`n in, or that holds its quarter, as the plaintext
that stands there; and else as the controller decrypts it under the slot's material. What a cached quarter does not show any longer, it
decrypted under the material of its fill (R326, 25_bringup R406). -/
def State.readVia (s : State) (wrote : Bool) (held : Option Filled) (slot t a : Nat) : Byte :=
  if hostBase ≤ a then s.byteAt t a
  else
    let r := s.runAt (held.map (·.runs)) t a
    let newest := r == s.runAt (held.map (·.runs)) s.now a
    if wrote && newest then s.plainAt r t a
    else match held with
      | none => s.decrypt r (s.material slot a) t a
      | some e =>
        if madeSince e.runs r then s.plainAt r t a
        else if newest then
          match e.vals[a % 64]? with
          | some x => if s.position e.time a < s.position t a then s.plainAt r t a else x
          | none => s.plainAt r t a
        else s.decrypt r e.key t a

/-- A home byte at a time as read through a key slot, past every copy but the line that the slot has of it (R326). -/
def State.readAt (s : State) (slot t a : Nat) : Byte :=
  let l := s.slotLine slot a
  s.readVia (l.any (·.wrote a)) (l.bind (·.filled a)) slot t a

/-- The newest home bytes from an address, through a key slot. -/
def State.readHome (s : State) (slot a n : Nat) : List Byte :=
  (List.range n).map fun i => s.readAt slot s.now (a + i)

/-- The newest number of `n` bytes at home, through a key slot. -/
def State.numHome (s : State) (slot a n : Nat) : Nat := leNat (s.readHome slot a n)

/-- Whether every byte of a quarter stands under the material of a slot (R326). -/
def State.uniform (s : State) (slot q : Nat) : Bool :=
  (List.range 64).all fun i => s.ownKey s.now (64 * q + i) == s.material slot (64 * q)

/-- Whether a byte that is written through a slot reads as what was written with no new run for it: its own run is of the slot's
material, as written, and the slot's line holds it as it stands. -/
def State.standsPlain (s : State) (slot a : Nat) : Bool :=
  let r := s.runAt none s.now a
  decide (hostBase ≤ a) || (s.runKey r == s.material slot a && r.all (·.vals.isEmpty)
    && ((s.slotLine slot a).bind (·.filled a)).all (·.vals.isEmpty))

/-- The quarters that cells touch and that the controller takes over at once, as it decrypts them: some byte stands under another
material than the slot's, and the slot has no line that holds the quarter (R326; DESIGN CHOICE, log 10). -/
def State.takenOver (s : State) (slot : Nat) (cs : List Host.Cell) : List Nat :=
  (cs.map fun c => c.1 / 64).dedup.filter fun q =>
    !s.uniform slot q && ((s.slotLine slot (64 * q)).bind (·.filled (64 * q))).isNone

/-- The run of a quarter that is taken over to a slot's material. -/
def State.takeover (s : State) (slot q : Nat) : KeyRun :=
  ⟨s.qkeys.length, 64 * q, 64, s.now + 1, s.material slot (64 * q), (List.range 64).map fun i => s.readAt slot s.now (64 * q + i)⟩

/-- A quarter with a byte written in it. -/
def Filled.put (e : Filled) (line : Nat) (c : Host.Cell) : Filled :=
  if 4 * line + e.q = c.1 / 64 then { e with vals := e.vals.set (c.1 % 64) c.2 } else e

/-- A line with bytes written in it, where it holds what a quarter decrypted to. -/
def L2Line.put (l : L2Line) (cs : List Host.Cell) : L2Line :=
  { l with mats := l.mats.map fun e => cs.foldl (·.put l.line) e }

/-- Appends cells to home history as one move (R166, R179), through a key slot. A quarter is one XTS data unit: what stands in it under
other material is taken over as the slot reads it, at once, or, where the slot's line holds the quarter, with the line (R326; DESIGN
CHOICE, log 10). -/
def State.writeHome (s : State) (slot : Nat) (cs : List Host.Cell) : State :=
  let taken := s.takenOver slot cs
  { s with
    mem := memWrites s.mem cs
    log := cs :: s.log
    l2 := s.l2.map fun l => if l.print == none && l.key == slot then l.put cs else l
    qkeys := (cs.filter fun c => !s.standsPlain slot c.1 || taken.contains (c.1 / 64)).map
        (fun c => ⟨s.qkeys.length, c.1, 1, s.now + 1, s.material slot c.1, []⟩)
      ++ taken.map (s.takeover slot) ++ s.qkeys }

/-- Appends a number of `n` bytes to home history. -/
def State.putHome (s : State) (slot a n x : Nat) : State := s.writeHome slot (cellsOf a (leBytes n x))

end Sys2Proof.Machine
end

