-- ==== Sys2Proof/Machine/Ops.lean ====
section
/-! DEFINITION. The shared operations over blocks, crews and lanes: finding and changing them, parking, barriers,
taking an exception (a trap, 05_encoding R70 and R77, 21_traps_preemption R330-R337) and returning from one (the
verdicts of R335). -/

namespace Sys2Proof

/-- The commands of the matrix unit (R264). -/
def Instr.matrixCmd : Instr → Bool
  | .mdesc .. | .mzero .. | .mwrite .. | .mloop .. => true
  | _ => false

/-- Commands of the copy engine (R274). -/
def Instr.copyCmd : Instr → Bool
  | .cgather .. | .cscatter .. | .cscatadd .. | .ccopy .. | .cfill .. => true
  | _ => false

end Sys2Proof

namespace Sys2Proof.Machine

/-! ### Finding and changing -/

/-- A resident block or handler crew by its number. -/
def State.block? (s : State) (u : Nat) : Option Block := s.blocks.find? (·.uid == u)

/-- Changes one block. -/
def State.modBlock (s : State) (u : Nat) (f : Block → Block) : State :=
  { s with blocks := s.blocks.map fun b => if b.uid == u then f b else b }

/-- Changes one crew of a block. -/
def Block.modCrew (b : Block) (c : Nat) (f : Crew → Crew) : Block := { b with crews := b.crews.modify c f }

/-- Changes one crew. -/
def State.modCrew (s : State) (u c : Nat) (f : Crew → Crew) : State := s.modBlock u (·.modCrew c f)

/-- Changes one lane of a crew. -/
def Crew.modLane (c : Crew) (l : Nat) (f : Lane → Lane) : Crew := { c with lanes := c.lanes.modify l f }

/-- Changes every lane of a crew; `f` takes the lane's slot. -/
def Crew.mapLanes (c : Crew) (f : Nat → Lane → Lane) : Crew := { c with lanes := c.lanes.mapIdx f }

/-- Changes one lane. -/
def State.modLane (s : State) (u c l : Nat) (f : Lane → Lane) : State := s.modCrew u c (·.modLane l f)

/-- Changes every crew of every block. -/
def State.mapBlocks (s : State) (f : Block → Block) : State := { s with blocks := s.blocks.map f }

/-- A crew of a block. -/
def State.crew? (s : State) (u c : Nat) : Option (Block × Crew) :=
  match s.block? u with
  | some b => match b.crews[c]? with
    | some k => some (b, k)
    | none => none
  | none => none

/-- A launch by its id. -/
def State.launch? (s : State) (id : Word) : Option Launch := s.launches.find? (·.id == id)

/-- Changes one launch. -/
def State.modLaunch (s : State) (id : Word) (f : Launch → Launch) : State :=
  { s with launches := s.launches.map fun l => if l.id == id then f l else l }

/-- A partition's state. -/
def State.part (s : State) (p : Nat) : Part := s.parts[p]?.getD Part.reset

/-- A function's state. -/
def State.func (s : State) (v : Nat) : Func := s.funcs[v]?.getD Func.reset

/-- Changes a partition. -/
def State.modPart (s : State) (p : Nat) (f : Part → Part) : State := { s with parts := s.parts.modify p f }

/-- Changes a function. -/
def State.modFunc (s : State) (v : Nat) (f : Func → Func) : State := { s with funcs := s.funcs.modify v f }

/-! ### Lanes -/

/-- A lane is eligible when its done, parked and trapped flags are clear (R29). -/
def Lane.eligible (l : Lane) : Bool := !l.done && !l.parked && !l.trapped

/-- A lane a barrier waits for: neither done nor trapped (R147, R205). -/
def Lane.counted (l : Lane) : Bool := !l.done && !l.trapped

/-- The value of predicate `n`; q0 is true (R61). -/
def Lane.pred (l : Lane) (n : BitVec 3) : Bool := n == 0 || l.q.getLsbD n.toNat

/-- Writes predicate `n`; a write to q0 is discarded (R61). -/
def Lane.setPred (l : Lane) (n : BitVec 3) (x : Bool) : Lane :=
  if n == 0 then l
  else { l with q := if x then l.q ||| ((1 : BitVec 8) <<< n.toNat) else l.q &&& ~~~ ((1 : BitVec 8) <<< n.toNat) }

/-- A lane's guard (R55). -/
def Guard.holds (g : Guard) (l : Lane) : Bool := xor (l.pred g.p) g.neg

/-- Active, with a true guard. -/
def Lane.takes (l : Lane) (g : Guard) : Bool := l.act && Guard.holds g l

/-- The lanes of a crew with their slots. -/
def Crew.slots (c : Crew) : List (Nat × Lane) := c.lanes.mapIdx fun i l => (i, l)

/-- The guard-true active lanes of a crew, in ascending `lid`. -/
def Crew.takers (c : Crew) (g : Guard) : List (Nat × Lane) := c.slots.filter fun p => p.2.takes g

/-- A crew that is neither a shell nor retired (R147, R336). -/
def Crew.live (c : Crew) : Bool :=
  match c.seq with
  | .shell | .retired => false
  | _ => true

/-- Whether some crew of a block is live: then its scratchpad is in the peer window (R150). -/
def Block.live (b : Block) : Bool := b.crews.any (·.live)

/-! ### The issuing crew -/

/-- What an issuing instruction sees: its block, crew and place. -/
structure Ctx where
  b : Block
  ci : Nat
  c : Crew
  lab : Word
  pc : Word
deriving DecidableEq, Repr

/-- The crew that is issuing, when it is in a visit. -/
def State.issuing (s : State) : Option Ctx :=
  match s.cur with
  | none => none
  | some (u, ci) =>
    match s.crew? u ci with
    | none => none
    | some (b, c) =>
      match c.seq with
      | .visit lab pc => some ⟨b, ci, c, lab, pc⟩
      | _ => none

/-- Changes the issuing crew. -/
def State.modCur (s : State) (k : Ctx) (f : Crew → Crew) : State := s.modCrew k.b.uid k.ci f

/-! ### Code offsets (R30) -/

/-- Whether an offset is a header offset. -/
def isHeader (o : Nat) : Bool := o % 16 == 0

/-- The slot offset after `n` slots from a slot offset: headers are stepped over (R30). -/
def slotAfter (o n : Nat) : Nat :=
  let i := o / 16 * 15 + (o % 16 - 1) + n
  i / 15 * 16 + i % 15 + 1

/-- The virtual address of a code offset (R26, R30). -/
def Block.codeVa (b : Block) (o : Word) : DWord := BitVec.ofNat 64 (b.code + 8 * o.toNat)

/-! ### Barriers (09 R147, 12 R205) -/

/-- The blocks of a block's group (R146). -/
def State.groupOf (s : State) (b : Block) : List Block :=
  if b.grouped then s.blocks.filter fun x => x.launch == b.launch && x.bid / 4 == b.bid / 4 && x.hnd.isEmpty
  else [b]

/-- A crew has arrived when each of its lanes that is neither done nor trapped is among the arrivals, or when it is
retired or a shell (R45, R147, R205, R336). -/
def Crew.arrived (c : Crew) (arr : List (Nat × Nat)) : Bool :=
  !c.live || c.slots.all fun p => !p.2.counted || arr.contains (c.cid, p.1)

/-- Whether the block's open BAR instance is complete (R205). -/
def Block.barDone (b : Block) : Bool := b.barArr != [] && b.crews.all fun c => c.arrived b.barArr

/-- Whether the group's open BARC instance is complete: every block has arrived or retired (R147). A block that is no
longer resident has retired; a group of a launch still being placed starts together (R146). -/
def State.barcDone (s : State) (b : Block) : Bool :=
  let g := s.groupOf b
  g.any (fun x => x.barcArr != []) && g.all fun x => x.crews.all fun c => c.arrived x.barcArr

/-- Lets every lane that `p` picks go: its parked flag clears (R41). -/
def Crew.unparkWhere (c : Crew) (p : Park → Bool) : Crew :=
  let ls := c.lanes.map fun l =>
    match l.park with
    | some w => if l.parked && p w then { l with parked := false, park := none } else l
    | none => l
  { c with
    lanes := ls
    seq := if c.seq == .asleep && ls.any (·.eligible) then .census none else c.seq }

/-- Completes the block's BAR instance when every crew has arrived or retired (R205). -/
def Block.settleBar (b : Block) : Block :=
  if b.barDone then
    { b with
      barArr := [], barInst := b.barInst + 1
      crews := b.crews.map (·.unparkWhere fun w => w == .bar b.barInst) }
  else b

/-- Completes a group's BARC instance when every block has arrived or retired (R147). -/
def State.settleBarc (s : State) (u : Nat) : State :=
  match s.block? u with
  | none => s
  | some b =>
    if s.barcDone b then
      let ids := (s.groupOf b).map (·.uid)
      s.mapBlocks fun x =>
        if ids.contains x.uid then
          { x with
            barcArr := [], barcInst := x.barcInst + 1
            crews := x.crews.map (·.unparkWhere fun w => w == .barc x.barcInst) }
        else x
    else s

/-- Looks at the barrier instances again after lanes of a block became done, trapped or retired. -/
def State.settle (s : State) (u : Nat) : State := (s.modBlock u Block.settleBar).settleBarc u

/-! ### Taking an exception (R70, R77, R330-R334) -/

/-- The cause codes (R330). -/
def Cause.code : Cause → BitVec 8
  | .illegal => 0x01 | .malformed => 0x02 | .wanted => 0x03 | .linkUnderflow => 0x04 | .linkOverflow => 0x05
  | .trapInstr => 0x06 | .breakpoint => 0x07 | .privilege => 0x08 | .rangeMiss => 0x10 | .permission => 0x11
  | .stage2 => 0x12 | .misaligned => 0x13 | .scratchBound => 0x14 | .peerAbsent => 0x15 | .netNotGranted => 0x16
  | .collTimeout => 0x18 | .collError => 0x19 | .matrixError => 0x20 | .copyError => 0x21 | .collReport => 0x22
  | .storeLost => 0x23 | .residency => 0x30 | .denialDrain => 0x31 | .netRestore => 0x32

/-- Whether the cause traps its origin; reports and requests leave it unchanged (R330). -/
def Cause.isTrap (c : Cause) : Bool := c.code.toNat < 0x20

/-- An origin tag (R334). -/
def originTag (launch : Word) (cause : Cause) (core quad slot lane : Nat) : DWord :=
  launch ++ cause.code ++ (0 : BitVec 3) ++ BitVec.ofNat 9 core ++ BitVec.ofNat 2 quad ++ BitVec.ofNat 3 slot
    ++ BitVec.ofNat 7 lane

/-- The tag of a lane of a crew. -/
def Ctx.tag (k : Ctx) (cause : Cause) (lane : Nat) : DWord :=
  originTag k.b.launch cause k.b.core k.c.quad k.c.slot lane

/-- Hands a lane, a report or a request to the gathering of a core (R332). -/
def State.gather (s : State) (core : Nat) (h : HLane) : State :=
  { s with gathered := s.gathered ++ [(core, { h with time := s.cyc })] }

/-- What a handler lane decides for its origin (R335); `none` is a lane that ended without a verdict. -/
inductive Verdict where
  | resume | kill | abort | none
deriving DecidableEq, Repr

/-- The lane becomes done; it counts in KILLS when `n` is 1 (R335, R339). -/
def State.killLane (s : State) (o : Origin) (n : Nat) : State :=
  s.modBlock o.blk fun b =>
    { b.modCrew o.crew (·.modLane o.lane fun l => { l with done := true, trapped := false, act := false }) with
      kills := b.kills + n }

/-- Whether every other crew of a block has retired (17_engines R264). -/
def Block.lastCrew (b : Block) (ci : Nat) : Bool := b.crews.zipIdx.all fun x => x.2 == ci || x.1.seq == .retired

/-- A matrix command that waits in a queue for its acceptance. -/
def OpKind.isMatrix : OpKind → Bool
  | .instr i _ => i.matrixCmd
  | _ => false

/-- A matrix or copy command that waits in a queue for its acceptance. -/
def OpKind.isCommand : OpKind → Bool
  | .instr i _ => i.matrixCmd || i.copyCmd
  | _ => false

/-- Whether a block has matrix or copy commands outstanding, issued or accepted (17_engines R264). -/
def Block.commanded (b : Block) : Bool :=
  !b.mcmds.isEmpty || !b.ccmds.isEmpty || b.crews.any fun c => c.queue.any fun o => o.what.isCommand

/-- Whether a crew may not retire yet: it is its block's last, and the block has matrix or copy commands outstanding
(17_engines R264). -/
def Block.holdsLast (b : Block) (ci : Nat) : Bool := b.lastCrew ci && b.commanded

/-- Where a crew with nothing to issue comes to stand (R25, R44, R336): it begins a new sweep, sleeps, becomes a shell, or
retires; `held` crews wait with that. -/
def Crew.rest (c : Crew) (held : Bool) : Seq :=
  if c.lanes.any (·.eligible) then .census none
  else if c.lanes.any (·.parked) then .asleep
  else if c.lanes.any (·.trapped) then .shell
  else if held then c.seq
  else .retired

/-- A crew comes to stand where it does with nothing to issue; one that sleeps has no span that it visited last (R38, R44). -/
def Crew.toRest (c : Crew) (held : Bool) : Crew :=
  { c with seq := c.rest held, last := if c.rest held == .asleep then none else c.last }

/-- A shell or a sleeping crew after lanes of it were resumed, ended or trapped (R44, R336). -/
def Crew.settleShell (held : Bool) (c : Crew) : Crew :=
  match c.seq with
  | .shell | .asleep => c.toRest held
  | _ => c

/-- Looks again at where a crew that is not sweeping stands (R44, R264, R336). -/
def State.settleCrew (s : State) (u ci : Nat) : State :=
  match s.block? u with
  | some b => (s.modCrew u ci (Crew.settleShell (b.holdsLast ci))).settle u
  | none => s

/-- Looks again at every crew of a block that is not sweeping (R264, R336). -/
def State.settleCrews (s : State) (u : Nat) : State :=
  match s.block? u with
  | some b => (List.range b.crews.length).foldl (fun s ci => s.settleCrew u ci) s
  | none => s

/-- RETURN FROM AN EXCEPTION: a verdict acts on its origin (R335, R336, R338). Only the first one counts, which the
caller sees to. -/
def State.verdict (s : State) (h : HLane) (v : Verdict) : State :=
  match h.origin with
  | none => s
  | some o =>
    let aborted := match s.block? o.blk with
      | some b => b.abort.isSome
      | none => false
    let s1 :=
      if h.cause.isTrap then
        match v with
        | .resume =>
          if aborted then s.killLane o 1
          else s.modLane o.blk o.crew o.lane fun l => { l with trapped := false, resumed := true }
        | .kill | .none => s.killLane o 1
        | .abort => s.killLane o 0
      else s
    let s2 :=
      if v == .abort then s1.modBlock o.blk fun b =>
        if b.abort.isSome then b
        else { b with
          abort := some (h.tag, o)
          errs := (b.crews.filter (·.live)).map fun c => (c.cid, 0, 0)
          crews := b.crews.map fun c => { c with skid := 0 } }
      else s1
    s2.settleCrew o.blk o.crew

/-- A handler lane passes its verdict once (R335). -/
def State.passVerdict (s : State) (u lane : Nat) (v : Verdict) : State :=
  match s.block? u with
  | none => s
  | some b =>
    match b.hnd[lane]? with
    | none => s
    | some h =>
      if h.decided then s
      else (s.modBlock u fun b => { b with hnd := b.hnd.modify lane fun h => { h with decided := true } }).verdict h v

/-- TAKING AN EXCEPTION: `trap` of R77. The lane leaves the active set with the `wl` and `ro` given, keeps every
register, and is handed to its core's gathering with the fault address and code offset that HINFO will report. A lane
of a handler crew is not gathered: it becomes done, and its verdict is `none` (R337). -/
def State.trapLane (s : State) (k : Ctx) (lane : Nat) (cause : Cause) (fault : DWord) (off wl ro : Word) : State :=
  if k.b.hnd != [] then
    (s.modLane k.b.uid k.ci lane fun l => { l with done := true, act := false, wl := wl, ro := ro }).passVerdict
      k.b.uid lane .none
  else
    ((s.modLane k.b.uid k.ci lane fun l => { l with trapped := true, act := false, wl := wl, ro := ro }).gather
      k.b.core
      { cause := cause, tag := k.tag cause lane, origin := some ⟨k.b.uid, k.ci, lane⟩, fault := fault, off := off,
        part := k.b.part, time := 0, decided := false }).settle k.b.uid

/-- The `ro` of a lane trapped or parked for re-issue: pc, or 0 at the first instruction of the span (R42, R70). -/
def Ctx.again (k : Ctx) : Word := if k.pc == k.lab then 0 else k.pc

/-- Traps a lane so that a resumed lane issues the instruction again (R70). -/
def State.trapAgain (s : State) (k : Ctx) (lane : Nat) (cause : Cause) (fault : DWord) : State :=
  match k.c.lanes[lane]? with
  | some l => s.trapLane k lane cause fault k.pc l.wl k.again
  | none => s

/-- Traps every active lane of the issuing crew, whatever its guard (R69). -/
def State.trapActive (s : State) (k : Ctx) (cause : Cause) : State :=
  (k.c.slots.filter (·.2.act)).foldl (fun s p => s.trapAgain k p.1 cause (k.b.codeVa k.pc)) s

/-- Posts a report or request for a lane of a block (R272, R330). -/
def State.report (s : State) (b : Block) (crew lane : Nat) (cause : Cause) (fault : DWord) (off : Word) : State :=
  match b.crews[crew]? with
  | some c =>
    s.gather b.core
      { cause := cause, tag := originTag b.launch cause b.core c.quad c.slot lane,
        origin := some ⟨b.uid, crew, lane⟩, fault := fault, off := off, part := b.part, time := 0,
        decided := false }
  | none => s

/-- Posts a report or request of a partition, to its first core (R329, R360, R364). -/
def State.reportPart (s : State) (p : Nat) (core : Nat) (launch : Word) (cause : Cause) (fault : DWord) : State :=
  s.gather core
    { cause := cause, tag := originTag launch cause core 0 0 0, origin := none, fault := fault, off := 0, part := p,
      time := 0, decided := false }

/-- `park` of R77 and R42: the lane keeps every register and will issue the instruction again. -/
def State.parkAgain (s : State) (k : Ctx) (lane : Nat) (w : Park) : State :=
  s.modLane k.b.uid k.ci lane fun l => { l with parked := true, act := false, ro := k.again, park := some w }

end Sys2Proof.Machine
end

