-- ==== Sys2Proof/Machine/Ranges.lean ====
section
/-! DEFINITION. Records and their fields, counters (22 R367, 19 R310), interrupt messages (24 R396), ranges, stages,
colours, lookasides and residency (20_ranges R314-R327, 05_encoding R75), seals and the denial log (R76, R328, R329). -/

namespace Sys2Proof.Machine

/-! ### Fields of records -/

/-- The field of `n` bits that starts at bit `lo`, as a number. -/
def fieldAt {w : Nat} (r : BitVec w) (lo n : Nat) : Nat := (r.extractLsb' lo n).toNat

/-- The field of `n` bits that starts at byte `b` of a little-endian record. -/
def byteField {w : Nat} (r : BitVec w) (b n : Nat) : Nat := fieldAt r (8 * b) n

/-- A record with bytes replaced from an offset; bytes beyond its end are ignored. -/
def setBytes {w : Nat} (r : BitVec w) (off : Nat) (bs : List Byte) : BitVec w :=
  let n := 8 * bs.length
  let mask : BitVec w := BitVec.ofNat w (2 ^ n - 1) <<< (8 * off)
  (r &&& ~~~ mask) ||| (BitVec.ofNat w (leNat bs) <<< (8 * off))

/-- A record with zero in every bit that no field of it has: reserved bits read as zero (00_scope R5). Fields are a first bit and a
width. -/
def keepFields {w : Nat} (r : BitVec w) (fs : List (Nat × Nat)) : BitVec w :=
  r &&& fs.foldl (fun m f => m ||| (BitVec.ofNat w (2 ^ f.2 - 1) <<< f.1)) 0

/-- The bytes of a record. -/
def recordBytes {w : Nat} (r : BitVec w) : List Byte := (List.range (w / 8)).map fun i => bits r (8 * i) 8

/-- Whether a 64-bit address field has bits [63:56] zero, and the address (R359). -/
def vaField {w : Nat} (r : BitVec w) (b : Nat) : Nat := byteField r b 56

/-! ### Partition and function records (22 R356-R358) -/

def Part.hasid (p : Part) : Nat := byteField p.record 34 14
def Part.cbase (p : Part) : Nat := byteField p.record 6 7
def Part.clim (p : Part) : Nat := byteField p.record 7 7
def Part.himg (p : Part) : Nat := byteField p.record 56 56
def Part.harea (p : Part) : Nat := byteField p.record 48 56
def Part.hlbl (p : Part) : Nat := byteField p.record 36 32
def Part.dlogVa (p : Part) : Nat := byteField p.record 40 56
def Part.dlogK (p : Part) : Nat := fieldAt p.record (8 * 40 + 56) 5

/-- A MODES bit: the mode is host-assisted (R356). -/
def Part.hostMode (p : Part) (i : Nat) : Bool := (byteField p.record 32 16).testBit i

/-- The fields of the partition record (R356). -/
def partFields : List (Nat × Nat) :=
  [(48, 7), (56, 7), (64, 32), (96, 32), (256, 6), (272, 14), (288, 32), (320, 61), (384, 56), (448, 56), (512, 512)]
    ++ (List.range 8).flatMap fun j => [(8 * (16 + 2 * j), 14), (8 * (16 + 2 * j) + 15, 1)]

/-- The fields of the function record (R357, R358, R386). -/
def funcFields : List (Nat × Nat) :=
  [(128, 32), (160, 4), (167, 1), (168, 8), (176, 16), (192, 52), (768, 384), (1152, 128), (1280, 256)]
    ++ (List.range 8).flatMap (fun i => [(8 * (32 + 8 * i), 8), (8 * (36 + 8 * i), 32)])
    ++ (List.range 8).flatMap fun j =>
      let b := 8 * (192 + 16 * j)
      [(b + 16, 14), (b + 32, 2), (b + 40, 4), (b + 48, 3), (b + 56, 5), (b + 64, 56)]

/-- The first core of a partition (R334). -/
def Part.firstCore (p : Part) : Nat := 4 * p.cbase

/-- The cores of a partition (R355). -/
def Part.cores (p : Part) : List Nat := (List.range Config.cores).filter fun c => p.cbase ≤ c / 4 && c / 4 ≤ p.clim

/-- Slice entry j of SCHED: function, length, valid (R356). -/
def Part.sched (p : Part) (j : Nat) : Nat × Nat × Bool :=
  (fieldAt p.record (8 * (16 + 2 * j)) 6, fieldAt p.record (8 * (16 + 2 * j) + 6) 8,
    p.record.getLsbD (8 * (16 + 2 * j) + 15))

def Func.valid (f : Func) : Bool := f.record.getLsbD (8 * 20 + 7)
def Func.partNo (f : Func) : Nat := byteField f.record 20 4
def Func.ivec (f : Func) : Nat := byteField f.record 16 32
def Func.s2Base (f : Func) : Nat := byteField f.record 24 40 * 4096
def Func.s2Count (f : Func) : Nat := fieldAt f.record (8 * 24 + 40) 12
def Func.ways (f : Func) : BitVec 16 := f.record.extractLsb' (8 * 22) 16
def Func.weight (f : Func) (p : Nat) : Nat := byteField f.record (144 + p) 8
def Func.net (f : Func) (n : Nat) : Bool := f.record.getLsbD (8 * 160 + n)

/-- Counter configuration i (R386): event and filter. -/
def Func.ccfg (f : Func) (i : Nat) : Nat × Nat := (byteField f.record (32 + 8 * i) 8, byteField f.record (36 + 8 * i) 32)

/-- List descriptor j (R358), 128 bits. -/
def Func.listRec (f : Func) (j : Nat) : BitVec 128 := f.record.extractLsb' (8 * (192 + 16 * j)) 128

/-! ### Interrupt messages (24 R396) -/

/-- Sends an interrupt message; VEC is the function's IVEC for KIND 1 and 0xFF00 + KIND otherwise. -/
def State.interrupt (s : State) (part vf kind : Nat) (data : DWord) : State :=
  let vec := if kind = 1 then (s.func vf).ivec % 65536 else 0xFF00 + kind
  let msg : BitVec 128 := data ++ (0 : BitVec 16) ++ BitVec.ofNat 8 part ++ BitVec.ofNat 8 vf ++ BitVec.ofNat 16 kind
    ++ BitVec.ofNat 16 vec
  { s with hostMsgs := s.hostMsgs ++ [msg] }

/-! ### Counters (22 R367) -/

/-- Adds one to counter i; a wrap sets its OVF bit and sends one message (R367). -/
def State.bump (s : State) (vf i : Nat) : State :=
  let f := s.func vf
  let n := (f.cnt[i]?.getD 0) + 1
  let s1 := s.modFunc vf fun f => { f with cnt := f.cnt.set i n }
  if n == 0 then
    if f.ovf.getLsbD i then s1
    else (s1.modFunc vf fun f => { f with ovf := f.ovf ||| ((1 : BitVec 8) <<< i) }).interrupt f.partNo vf 1
      (BitVec.ofNat 64 i)
  else s1

/-- Whether a function holds its partition: its counters count only then (R367). -/
def State.holds (s : State) (vf : Nat) : Bool := (s.part (s.func vf).partNo).holder == some vf

/-- Counts one event of a function, in every counter whose configuration it meets (R310, R386). -/
def State.count (s : State) (vf event : Nat) (ok : Nat → Bool) : State :=
  if s.holds vf then
    (List.range 8).foldl (fun s i =>
      let (e, f) := (s.func vf).ccfg i
      if e == event && ok f then s.bump vf i else s) s
  else s

/-! ### Descriptors (R315-R317) -/

def d1Base (d : BitVec 256) : Nat := fieldAt d 212 44
def d1Limit (d : BitVec 256) : Nat := fieldAt d 168 44
def d1Iab (d : BitVec 256) : Nat := fieldAt d 128 40
def d1Spb (d : BitVec 256) : Nat := fieldAt d 88 40
def d1Seal (d : BitVec 256) : Nat := fieldAt d 72 16
def d1Mode (d : BitVec 256) : Nat := fieldAt d 70 2
def d1Fmt (d : BitVec 256) : Nat := fieldAt d 67 3
def d1X (d : BitVec 256) : Bool := d.getLsbD 66
def d1W (d : BitVec 256) : Bool := d.getLsbD 65
def d1R (d : BitVec 256) : Bool := d.getLsbD 64
def d1Rmap (d : BitVec 256) : Nat := fieldAt d 24 40
def d1Rg (d : BitVec 256) : Nat := fieldAt d 0 4
def d1Wm (d : BitVec 256) : Nat := fieldAt d 40 24
def d1Nia (d : BitVec 256) : Nat := fieldAt d 0 40

/-- A malformed stage-1 descriptor (R316). -/
def d1Bad (d : BitVec 256) : Bool :=
  d1Limit d < d1Base d || d1Mode d == 3 || 4 < d1Fmt d || (d1Fmt d == 0 && d1Spb d != 0)
  || (d1Mode d == 0 && fieldAt d 0 64 != 0)
  || (d1Mode d == 1 && (fieldAt d 4 20 != 0 || 8 < d1Rg d))
  || (d1Mode d == 2 && d1Limit d - d1Base d < d1Wm d)

def d2Base (d : BitVec 256) : Nat := fieldAt d 216 40
def d2Limit (d : BitVec 256) : Nat := fieldAt d 176 40
def d2Pab (d : BitVec 256) : Nat := fieldAt d 136 40
def d2Key (d : BitVec 256) : Nat := fieldAt d 125 11
def d2Tier (d : BitVec 256) : Nat := fieldAt d 123 2
def d2Pin (d : BitVec 256) : Bool := d.getLsbD 122
def d2Sw (d : BitVec 256) : Bool := d.getLsbD 121
def d2Srd (d : BitVec 256) : Bool := d.getLsbD 120
def d2Cmask (d : BitVec 256) : Nat := fieldAt d 109 11
def d2Cval (d : BitVec 256) : Nat := fieldAt d 98 11

/-- A malformed stage-2 descriptor (R317). -/
def d2Bad (d : BitVec 256) : Bool :=
  d2Limit d < d2Base d || d2Tier d == 3 || fieldAt d 0 98 != 0 || (d2Cval d &&& d2Cmask d) != d2Cval d
  || (d2Pab d % 2048 &&& d2Cmask d) != d2Cval d

/-- Removes the bits of a colour mask at 12 to 22 from an address, closing up the rest (R325). -/
def compress (x cmask : Nat) : Nat :=
  (List.range 11).reverse.foldl (fun x i =>
    if cmask.testBit i then x / 2 ^ (13 + i) * 2 ^ (12 + i) + x % 2 ^ (12 + i) else x) x

/-- Spreads the bits of a value around the colour bits (R325). -/
def deposit (v cmask : Nat) : Nat :=
  (List.range 11).foldl (fun v i =>
    if cmask.testBit i then v / 2 ^ (12 + i) * 2 ^ (13 + i) + v % 2 ^ (12 + i) else v) v

/-- The physical address of an intermediate address under a stage-2 descriptor (R325). -/
def colourPa (d : BitVec 256) (ia : Nat) : Nat :=
  deposit (compress (d2Pab d * 4096) (d2Cmask d) + (ia - d2Base d * 4096)) (d2Cmask d) + d2Cval d * 4096

/-! ### Accesses (R75) -/

/-- Kinds of access (R75). -/
inductive AccKind where
  | read | write | atomic | red | exec
deriving DecidableEq, Repr

/-- What `translate` gives (R75). -/
structure Xlat where
  home : Nat
  key : Nat
  sealId : Nat
  tier : Nat
  d1 : BitVec 256
  d2 : BitVec 256
deriving DecidableEq, Repr

/-- How a translation ends (R75). -/
inductive XRes where
  | ok (x : Xlat)
  | fault (c : Cause)
  | park (w : Park)
deriving DecidableEq, Repr

/-- Whether stage 1 permits an access (R75). -/
def d1Permits (d : BitVec 256) : AccKind → Bool
  | .read => d1R d
  | .write | .red => d1W d
  | .atomic => d1R d && d1W d
  | .exec => d1X d

/-- Whether stage 2 permits an access (R75). -/
def d2Permits (d : BitVec 256) : AccKind → Bool
  | .read | .exec => d2Srd d
  | .write | .red => d2Sw d
  | .atomic => d2Srd d && d2Sw d

/-- The binary search of R318 over descriptors whose bases `base` gives; `get` reads one, with so many probes left after it. -/
def searchLoop (get : Nat → Nat → BitVec 256) (base : BitVec 256 → Nat) (x : Nat) :
    Nat → Int → Int → Option (Nat × BitVec 256) → Option (Nat × BitVec 256)
  | 0, _, _, d => d
  | fuel + 1, lo, hi, d =>
    if lo ≤ hi then
      let mid := (lo + hi) / 2
      let p := get fuel mid.toNat
      if base p ≤ x then searchLoop get base x fuel (mid + 1) hi (some (mid.toNat, p))
      else searchLoop get base x fuel lo (mid - 1) d
    else d

/-- The search, in at most 12 probes (R318). -/
def search (get : Nat → Nat → BitVec 256) (base : BitVec 256 → Nat) (n x : Nat) : Option (Nat × BitVec 256) :=
  searchLoop get base x 12 0 (n - 1) none

/-- The latest home time at which a run of addresses that `ok` picks got another backing. -/
def State.lastRemap (s : State) (ok : Remap → Bool) : Nat := s.remaps.foldl (fun t r => if ok r then max t r.time else t) 0

/-- How many home writes ago a walk reads word `w` of the probe that `r` more follow (R318; DESIGN CHOICE, log 34). -/
def State.ago (s : State) (r w : Nat) : Nat :=
  let gap := fun i => ((s.lags[i]?).map (·.1)).getD 0
  ((List.range r).map gap).sum + min (gap r) (((s.lags[r]?).bind (·.2[w]?)).getD 0)

/-- The home time before which the walks of an access read nothing: when it may first have begun, and when what it walks was last to be
taken as it then stood (R318, R321, R323, R327; DESIGN CHOICE, log 34). -/
def State.walkFloor (s : State) (asid : Option Nat) : Nat :=
  max s.walkFrom (s.lastRemap fun x => x.kind != .edit && asid.all (· == x.asid))

/-- The home time as of which a walk reads word `w` of the probe that `r` more follow. A walk of a table reads all of it before an edit
or after it (R318, R322; DESIGN CHOICE, log 34). -/
def State.walkTime (s : State) (asid : Option Nat) (r w : Nat) : Nat :=
  let from_ := s.walkFloor asid
  let newest := max from_ (s.now - (List.range 4).foldl (fun n w => min n (s.ago 0 w)) (s.ago 0 0))
  let edited := s.lastRemap fun x => x.kind == .edit && asid == some x.asid && decide (x.since < newest)
  max (max from_ edited) (s.now - s.ago r w)

/-- A descriptor as the probe of a walk that `r` more follow reads it: four single-copy reads of 8 bytes at home (R318). -/
def State.readDesc (s : State) (asid : Option Nat) (slot pa r : Nat) : BitVec 256 :=
  BitVec.ofNat 256 (leNat ((List.range 32).map fun i => s.readAt slot (s.walkTime asid r (i / 8)) (pa + i)))

/-- A descriptor of a function's stage-2 table, read at home at its physical address (R314, R318; DESIGN CHOICE, log 10). -/
def State.s2Desc (s : State) (vf r i : Nat) : BitVec 256 := s.readDesc none 0 ((s.func vf).s2Base + 32 * i) r

/-- The stage-2 descriptor that holds an intermediate address, by a search that `r` more probes follow (R318). -/
def State.s2Search (s : State) (r vf ia : Nat) : Option (BitVec 256) :=
  match search (fun n => s.s2Desc vf (r + n)) d2Base (s.func vf).s2Count (ia / 4096) with
  | some (_, d) => if d2Bad d || d2Limit d < ia / 4096 then none else some d
  | none => none

/-- The stage-2 descriptor that holds the intermediate address of an access (R318). -/
def State.s2Find (s : State) (vf ia : Nat) : Option (BitVec 256) := s.s2Search 0 vf ia

/-- Whether a stage-2 descriptor serves an access to an address; the home address if so (R318, R325). Its key id must hold a key in
every tier. -/
def State.s2Use (s : State) (d : BitVec 256) (ia : Nat) (kind : AccKind) : Option Nat :=
  if d2Permits d kind && (s.keyOf (d2Key d)).isSome then
    let pa := colourPa d ia
    if 2 ^ 52 ≤ pa then none else some (if d2Tier d == 2 then hostBase + pa else pa)
  else none

/-- Stage 2 of one access, by a search that `r` more probes follow (R318). -/
def State.stage2At (s : State) (r vf ia : Nat) (kind : AccKind) : Option (BitVec 256 × Nat) :=
  if 2 ^ 52 ≤ ia then none
  else match s.s2Search r vf ia with
    | some d => (s.s2Use d ia kind).map fun pa => (d, pa)
    | none => none

/-- Stage 2 of one access (R318). -/
def State.stage2 (s : State) (vf ia : Nat) (kind : AccKind) : Option (BitVec 256 × Nat) := s.stage2At 0 vf ia kind

/-- A directory entry, which a walk reads first, in one read (R314, R318). -/
def State.dirEntry (s : State) (asid : Nat) : BitVec 128 :=
  BitVec.ofNat 128 (leNat ((List.range 16).map fun i => s.readAt 0 (s.walkTime (some asid) 36 0) (s.dirBase + 16 * asid + i)))

def dirTia (e : BitVec 128) : Nat := fieldAt e 88 40
def dirN (e : BitVec 128) : Nat := fieldAt e 76 12
def dirVf (e : BitVec 128) : Nat := fieldAt e 70 6
/-- V; the reserved bits below it are ignored (R314, 00_scope R5). -/
def dirValid (e : BitVec 128) : Bool := e.getLsbD 69

/-- The home address of descriptor i of an address space's table, with its key, for an access of a kind (R314, R318). -/
def State.tableAt (s : State) (e : BitVec 128) (i : Nat) (kind : AccKind) : Option (Nat × Nat) :=
  match s.stage2At 24 (dirVf e) (dirTia e * 4096 + 32 * i) kind with
  | some (d, pa) => some (pa, d2Key d)
  | none => none

/-- Descriptor i of an address space's table, as a probe of a search reads it that `r` more of it follow (R314, R318); `none` when its
read meets a stage-2 fault. -/
def State.d1At (s : State) (asid : Nat) (e : BitVec 128) (r i : Nat) : Option (BitVec 256) :=
  (s.tableAt e i .read).map fun t => s.readDesc (some asid) t.2 t.1 (12 + r)

/-- The search of R318 over a table whose reads may fault. -/
def walkLoop (get : Nat → Nat → Option (BitVec 256)) (x : Nat) :
    Nat → Int → Int → Option (Nat × BitVec 256) → Option (Option (Nat × BitVec 256))
  | 0, _, _, d => some d
  | fuel + 1, lo, hi, d =>
    if lo ≤ hi then
      let mid := (lo + hi) / 2
      match get fuel mid.toNat with
      | none => none
      | some p =>
        if d1Base p ≤ x then walkLoop get x fuel (mid + 1) hi (some (mid.toNat, p)) else walkLoop get x fuel lo (mid - 1) d
    else some d

/-- The descriptor with the greatest base at or below an address (R318); `none` for a stage-2 fault. -/
def State.probe (s : State) (asid : Nat) (e : BitVec 128) (va : Nat) : Option (Option (Nat × BitVec 256)) :=
  walkLoop (s.d1At asid e) (va / 4096) 12 0 (dirN e - 1) none

/-- A walk: the descriptor that holds an address, its place in the table and its owner function (R318). -/
def State.walk (s : State) (asid va : Nat) : Except Cause (Nat × BitVec 256 × Nat) :=
  let e := s.dirEntry asid
  if !dirValid e then .error .rangeMiss
  else if (s.tableAt e 0 .read).isNone then .error .stage2
  else match s.probe asid e va with
    | none => .error .stage2
    | some none => .error .rangeMiss
    | some (some (i, d)) => if d1Bad d || d1Limit d < va / 4096 then .error .rangeMiss else .ok (i, d, dirVf e)

/-- The residency granule of an address in a MODE 1 range (R320). -/
def residencyGranule (d : BitVec 256) (va : Nat) : Nat := (va - d1Base d * 4096) / 2 ^ (16 + d1Rg d)

/-- The 64-bit word of the residency map that covers a granule, read at home (R318, R320). -/
def State.mapWord (s : State) (vf : Nat) (d : BitVec 256) (g : Nat) : Option (DWord × Nat) :=
  match s.stage2 vf (d1Rmap d * 4096 + g / 64 * 8) .read with
  | some (d2, pa) => some (BitVec.ofNat 64 (s.numHome (d2Key d2) pa 8), g / 64 * 64)
  | none => none

/-- The intermediate address of an address in a range: the new backing below the watermark (R75, R327). -/
def d1Ia (d : BitVec 256) (va : Nat) : Nat :=
  let off := va - d1Base d * 4096
  if d1Mode d == 2 && off / 4096 < d1Wm d then d1Nia d * 4096 + off else d1Iab d * 4096 + off

/-- The last address that shares a translation with `va` in its range: the range's end or the watermark (R75). -/
def d1Run (d : BitVec 256) (va : Nat) : Nat :=
  let wm := (d1Base d + d1Wm d) * 4096
  if d1Mode d == 2 && va < wm then wm - 1
  else if d1Mode d == 2 && va < wm + 4096 then wm + 4095
  else d1Limit d * 4096 + 4095

/-- Whether the page at an address stands at the watermark of its range, which is closed (R327). -/
def d1Closed (d : BitVec 256) (page : Nat) : Bool := d1Mode d == 2 && page == d1Base d + d1Wm d

/-- Checks an access against a translation, as R75 orders them. A map word whose own read meets a stage-2 fault gives that fault
(DEDUCED, log 39). -/
def State.checkX (s : State) (asid : Nat) (e : Look) (va : Nat) (kind : AccKind) : XRes :=
  if !d1Permits e.d1 kind then .fault .permission
  else if d1Mode e.d1 == 1 && e.map.isNone then .fault .stage2
  else if d1Mode e.d1 == 1 && (match e.map with
      | some (w, g0) => !w.getLsbD (residencyGranule e.d1 va - g0)
      | none => false) then
    .park (.residency asid (d1Base e.d1) (residencyGranule e.d1 va) va)
  else if d1Closed e.d1 (va / 4096) then .park (.watermark asid (va / 4096))
  else
    let ia := d1Ia e.d1 va
    match (if d2Base e.d2 * 4096 ≤ ia && ia / 4096 ≤ d2Limit e.d2 then s.s2Use e.d2 ia kind else none) with
    | some home => .ok ⟨home, d2Key e.d2, d1Seal e.d1, d2Tier e.d2, e.d1, e.d2⟩
    | none => .fault .stage2

/-- Whether a lookaside entry serves an access of `n` bytes (R318). -/
def Look.serves (e : Look) (asid va n : Nat) : Bool :=
  e.asid == asid && d1Base e.d1 * 4096 ≤ va && va + n - 1 ≤ d1Limit e.d1 * 4096 + 4095
  && (let ia := d1Ia e.d1 va
      d2Base e.d2 * 4096 ≤ ia && ia + n - 1 ≤ d2Limit e.d2 * 4096 + 4095)
  && (d1Mode e.d1 != 1 || match e.map with
      | some (_, g0) => residencyGranule e.d1 va / 64 * 64 == g0
      | none => false)

/-- The entry a fresh walk would give. -/
def State.walkEntry (s : State) (core : Nat) (quad : Option Nat) (asid va : Nat) : Except Cause Look :=
  match s.walk asid va with
  | .error c => .error c
  | .ok (_, d, vf) =>
    let map := if d1Mode d == 1 then s.mapWord vf d (residencyGranule d va) else none
    let d2 := (s.s2Find vf (d1Ia d va)).getD 0
    .ok ⟨core, quad, asid, vf, d, d2, map⟩

/-- Puts an entry first in a lookaside, and drops the least recently used beyond its capacity (R318). -/
def lookTouch (ls : List Look) (e : Look) (cap : Nat) : List Look :=
  let mine := ls.filter fun x => x.core == e.core && x.quad == e.quad && x != e
  let rest := ls.filter fun x => !(x.core == e.core && x.quad == e.quad)
  (e :: mine).take cap ++ rest

/-- Capacity of a lookaside: 8 in a quadrant, 64 in a core (R318). -/
def lookCap : Option Nat → Nat
  | some _ => 8
  | none => 64

/-- The lookaside entry an access uses, the quadrant's first, then the core's, then a walk; and the lookasides
after it (R318). -/
def State.lookup (s : State) (core : Nat) (quad : Option Nat) (asid va n : Nat) : Except Cause (Look × State) :=
  match s.looks.find? fun e => e.core == core && e.quad == quad && e.serves asid va n with
  | some e => .ok (e, { s with looks := lookTouch s.looks e (lookCap quad) })
  | none =>
    match s.looks.find? fun e => e.core == core && e.quad == none && e.serves asid va n with
    | some e =>
      .ok (e, { s with looks := lookTouch (lookTouch s.looks e 64) { e with quad := quad } (lookCap quad) })
    | none =>
      match s.walkEntry core none asid va with
      | .error c => .error c
      | .ok e =>
        if e.d2 == 0 then .ok (e, s)
        else .ok (e, { s with looks := lookTouch (lookTouch s.looks e 64) { e with quad := quad } (lookCap quad) })

/-- `translate` (R75) of an access that crosses no boundary. -/
def State.translate (s : State) (core : Nat) (quad : Option Nat) (asid va n : Nat) (kind : AccKind) : State × XRes :=
  match s.lookup core quad asid va n with
  | .error c => (s, .fault c)
  | .ok (e, s) => (s, s.checkX asid e va kind)

/-- Splits a run of bytes at range and stage-2 boundaries and translates every piece, lowest address first, until
one faults or parks (R75). The pieces are (address, size, translation); the third component is the address at which
the run stopped. -/
def State.translateRun (core : Nat) (quad : Option Nat) (asid : Nat) (kind : AccKind) :
    Nat → State → Nat → Nat → State × List (Nat × Nat × Xlat) × Option (Nat × XRes)
  | 0, s, _, _ => (s, [], none)
  | fuel + 1, s, va, n =>
    if n = 0 then (s, [], none)
    else
      match s.lookup core quad asid va 1 with
      | .error c => (s, [], some (va, .fault c))
      | .ok (e, s) =>
        match s.checkX asid e va kind with
        | .ok x =>
          let ia := d1Ia e.d1 va
          let m := min n (min (d1Run e.d1 va + 1 - va) (d2Limit e.d2 * 4096 + 4096 - ia))
          let m := max 1 (min m (4096 - va % 4096))
          let (s, ps, r) := State.translateRun core quad asid kind fuel s (va + m) (n - m)
          (s, (va, m, x) :: ps, r)
        | r => (s, [], some (va, r))

/-! ### Backings (R321, R327) -/

/-- Whether a remap is of the run that an address stands in. -/
def Remap.holds (r : Remap) (asid va : Nat) : Bool := r.asid == asid && decide (r.lo ≤ va) && decide (va ≤ r.hi)

/-- The machine with home memory as it was at a time. -/
def State.asOf (s : State) (t : Nat) : State :=
  let undone := (s.log.take (s.now - t)).flatMap fun w => w.map (·.1)
  { s with
    mem := memWrites s.mem (undone.map fun a => (a, s.byteAt t a)), log := s.log.drop (s.now - t)
    qkeys := s.qkeys.filter fun r => decide (r.time ≤ t)
    l2 := [], lags := [] }

/-- When the map bits of an address last took effect before a time: at an RINVAL of it (R321). -/
def State.mapTime (s : State) (asid va t : Nat) : Nat :=
  match s.remaps.find? fun r => r.kind == .rinval && r.holds asid va && decide (r.time ≤ t) with
  | some r => r.time
  | none => t

/-- The home address that backed an address for an access at a time, if it might be made then (R75, R321). -/
def State.backing (s : State) (asid va : Nat) (kind : AccKind) (t : Nat) : Option Nat :=
  let then_ := s.asOf t
  match then_.walkEntry 0 none asid va with
  | .error _ => none
  | .ok e =>
    let map := e.map.bind fun _ => (s.asOf (s.mapTime asid va t)).mapWord e.vf e.d1 (residencyGranule e.d1 va)
    match then_.checkX asid { e with map := map } va kind with
    | .ok x => some x.home
    | _ => none

/-- Of times, latest first, the earliest from which on an address had a backing throughout: what alone makes the one it has did so
there, and at every other time it stood there already. -/
def State.heldFrom (s : State) (asid va home : Nat) (kind : AccKind) : List (Nat × RemapKind) → Nat → Nat
  | [], t => t
  | (x, k) :: r, t =>
    if k == .fresh then x
    else if s.backing asid va kind x == some home then State.heldFrom s asid va home kind r x
    else t

/-- The home time before which an access to an address may not read its bytes, when the ordering rules let it read from a time on:
its backing has changed since then where an RINVAL or the fuller says so, and an access through the old one read elsewhere (R321,
R327; DEDUCED, log 36). -/
def State.backedFrom (s : State) (asid va home : Nat) (kind : AccKind) (from_ : Nat) : Nat :=
  match s.remaps.filter fun r => r.kind != .edit && r.holds asid va && decide (from_ < r.time) with
  | [] => from_
  | rs => s.heldFrom asid va home kind (rs.map (fun r => (r.time, r.kind)) ++ [(from_, .rinval)]) s.now

/-- Notes that the backing of a run of addresses may be another as of now (R321, R327). -/
def State.remap (s : State) (kind : RemapKind) (asid lo hi : Nat) : State :=
  { s with remaps := ⟨asid, lo, hi, s.now, s.now, kind⟩ :: s.remaps }

/-- Notes an edit of an address space's table, made since a time (R322, R327). -/
def State.edited (s : State) (asid since : Nat) : State :=
  { s with remaps := ⟨asid, 0, 2 ^ 56 - 1, since, s.now, .edit⟩ :: s.remaps }

/-! ### Residency requests (R320) -/

/-- A system instruction that waits in a queue: it may wait for a granule of its own (R320, 23_system_instructions R385). -/
def OpKind.isInstr : OpKind → Bool
  | .instr .. => true
  | _ => false

/-- Whether an access still waits on a request: a front end's does, a lane's while it is parked for the granule, an engine's, a fetch's
or an operand's while its block has one under way, and a restore's while its block is saved (R320, R324). -/
def State.awaited (s : State) (a : Asked) : Bool := a.waiters.any fun w =>
  match w with
  | none => true
  | some u => match s.block? u with
    | none => s.launches.any fun l => l.saved.any (·.uid == u)
    | some b => !b.mcmds.isEmpty || !b.ccmds.isEmpty || (s.colls.any fun c => c.blk == u && !c.done) || b.crews.any fun c =>
        (match c.seq with
        | .load .. => true
        | _ => false) || c.queue.any (·.what.isInstr) || c.lanes.any fun l => match l.park with
          | some (.residency asid base g _) => l.parked && asid == a.asid && base == a.base && g == a.granule
          | _ => false

/-- Whether a request for a granule stands, and some access still waits on it (R320). -/
def State.asked (s : State) (core asid base g : Nat) : Bool :=
  s.residency.any fun a => a.core == core && a.asid == asid && a.base == base && a.granule == g && s.awaited a

/-- Notes one more whose access waits on a request. -/
def Asked.join (a : Asked) (core asid base g : Nat) (w : Option Nat) : Asked :=
  if a.core == core && a.asid == asid && a.base == base && a.granule == g then { a with waiters := (w :: a.waiters).dedup } else a

/-- A new request stands in place of an old one that nothing waits on. -/
def State.newRequest (s : State) (core asid base g va : Nat) (w : Option Nat) : State :=
  let old := s.residency.filter fun a => !(a.core == core && a.asid == asid && a.base == base && a.granule == g)
  { s with residency := ⟨core, asid, base, g, va, [w]⟩ :: old }

/-- Posts one residency request for a core, range and granule while an access waits on it (R320). A lane asks before it parks. -/
def State.askResidency (s : State) (b : Block) (crew lane : Nat) (va : Nat) (off : Word) (w : Park) : State :=
  match w with
  | .residency asid base g _ =>
    if s.asked b.core asid base g then
      { s with residency := s.residency.map fun a => a.join b.core asid base g (some b.uid) }
    else
      let s := s.newRequest b.core asid base g va (some b.uid)
      if (s.part b.part).hostMode 0 then s.interrupt b.part b.vf 2 (BitVec.ofNat 64 va)
      else s.report b crew lane .residency (BitVec.ofNat 64 va) off
  | _ => s

/-- Posts the residency request of an access of a partition's front end or log (R320). -/
def State.askResidencyFront (s : State) (part vf va : Nat) (w : Park) : State :=
  match w with
  | .residency asid base g _ =>
    let core := (s.part part).firstCore
    if s.asked core asid base g then { s with residency := s.residency.map fun a => a.join core asid base g none }
    else
      let s := s.newRequest core asid base g va none
      if (s.part part).hostMode 0 then s.interrupt part vf 2 (BitVec.ofNat 64 va)
      else s.reportPart part core 0 .residency (BitVec.ofNat 64 va)
  | _ => s

/-! ### Seals and the denial log (R76, R328, R329) -/

/-- Whether a seal is cleared in a map slot of a partition (R76). -/
def State.cleared (s : State) (part slot sl : Nat) : Bool :=
  sl == 0 || (((s.part part).maps[slot]?).getD []).contains sl

/-- The readers a denial record names (R329). -/
inductive Reader where
  | lane (core : Nat)
  | copy (core : Nat)
  | matrix (core : Nat)
  | coll (sector : Nat)
  | front (part : Nat)
  | context (core : Nat)
deriving DecidableEq, Repr

/-- UNIT (R329). -/
def Reader.unit : Reader → Nat
  | .lane c => c
  | .copy c => 0x4000 + c
  | .matrix c => 0x8000 + c
  | .coll s => 0xC000 + s
  | .front p => 0x2000 + p
  | .context c => 0x6000 + c

/-- One record has been appended: the indexes and the function's counter advance, and a drain is asked for where that is due (R329). -/
def State.recordAppended (s : State) (part vf : Nat) : State :=
  let s := s.modPart part fun p => { p with p := p.p + 1, owed := p.owed.tail }
  let s := s.count vf 5 fun _ => true
  let p := s.part part
  if !p.drainAsked && 2 ^ (p.dlogK - 1) ≤ (p.p - p.c).toNat then
    let s := s.modPart part fun p => { p with drainAsked := true }
    if p.hostMode 5 then s.interrupt part vf 4 p.p
    else s.reportPart part p.firstCore 0 .denialDrain p.p
  else s

/-- Appends the denial records that wait, oldest first, until the log's granule waits (R320, R327, R329). The device writes them at home
itself, past the L2 (DESIGN CHOICE, log 15). -/
def State.payDenials (part : Nat) : Nat → State → State
  | 0, s => s
  | fuel + 1, s =>
    let p := s.part part
    match p.owed with
    | [] => s
    | (vf, body) :: _ =>
      let va := p.dlogVa + 32 * (p.p.toNat % 2 ^ p.dlogK)
      match s.translate p.firstCore none p.hasid va 32 .write with
      | (s, .ok x) => State.payDenials part fuel ((s.writeHome x.key (cellsOf x.home body)).recordAppended part vf)
      | (s, .fault _) => State.payDenials part fuel (s.recordAppended part vf)
      | (s, .park w) => s.askResidencyFront part vf va w

/-- Appends what denial records wait in every partition (R321, R327, R329). -/
def State.payAllDenials (s : State) : State :=
  (List.range s.parts.length).foldl (fun s p => State.payDenials p (s.part p).owed.length s) s

/-- Appends one denial record, after those that wait (R329). -/
def State.denial (s : State) (part vf : Nat) (va : Nat) (oid launch : Word) (r : Reader) (write tag : Bool)
    (sl : Nat) : State :=
  let body := leBytes 2 sl ++ leBytes 2 0 ++ leBytes 2 ((if write then 1 else 0) + (if tag then 2 else 0))
    ++ leBytes 2 r.unit ++ leBytes 4 launch.toNat ++ leBytes 4 oid.toNat ++ leBytes 8 (va % 2 ^ 56)
    ++ leBytes 8 s.clk.toNat
  let s := s.modPart part fun p => { p with owed := p.owed ++ [(vf, body)] }
  State.payDenials part (s.part part).owed.length s

end Sys2Proof.Machine
end

