-- ==== Sys2Proof/Machine/Operands.lean ====
section
/-! DEFINITION. Register operands (05_encoding R60-R62, R71; 06_control_integer R90), special registers (R89), the
checks at issue (R69) and the forms in which an instruction acts: once per guard-true active lane, or once for the
crew (R56, R92). -/

namespace Sys2Proof.Machine

/-! ### Reading and writing registers (R71) -/

/-- Register `i` of a list of registers; a register beyond the list is never named by an instruction that is legal
(R18), and reads as zero. -/
def regAt (l : List Word) (i : Nat) : Word := l[i]?.getD 0

/-- `rd` (R71): the 32-bit value an operand names. -/
def Crew.rd (c : Crew) (l : Lane) : Reg → Word
  | .v n => regAt l.v n.toNat
  | .s n => regAt c.s n.toNat
  | .q n => if l.pred n then 1 else 0
  | .sp _ | .none => 0

/-- `rd64` (R71): the pair whose even register an operand names. -/
def Crew.rd64 (c : Crew) (l : Lane) : Reg → DWord
  | .v n => regAt l.v (n.toNat + 1) ++ regAt l.v n.toNat
  | .s n => regAt c.s (n.toNat + 1) ++ regAt c.s n.toNat
  | _ => 0

/-- Writes a 32-bit value to a lane's register; scalar destinations are written by `Crew.wrS` (R71). -/
def Lane.wr (l : Lane) (r : Reg) (x : Word) : Lane :=
  match r with
  | .v n => { l with v := l.v.set n.toNat x }
  | .q n => l.setPred n (x.getLsbD 0)
  | _ => l

/-- Writes a pair of a lane (R71). -/
def Lane.wr64 (l : Lane) (r : Reg) (x : DWord) : Lane :=
  match r with
  | .v n => { l with v := (l.v.set n.toNat (bits x 0 32)).set (n.toNat + 1) (bits x 32 32) }
  | _ => l

/-- Writes a scalar register, once for the crew (R56). -/
def Crew.wrS (c : Crew) (r : Reg) (x : Word) : Crew :=
  match r with
  | .s n => { c with s := c.s.set n.toNat x }
  | _ => c

/-- Writes a scalar pair (R56). -/
def Crew.wrS64 (c : Crew) (r : Reg) (x : DWord) : Crew :=
  match r with
  | .s n => { c with s := (c.s.set n.toNat (bits x 0 32)).set (n.toNat + 1) (bits x 32 32) }
  | _ => c

end Sys2Proof.Machine

namespace Sys2Proof

open Sys2Proof.Machine

/-- The register `k` after one (R187, R240). -/
def Reg.plus : Reg → Nat → Reg
  | .v n, k => .v (n + BitVec.ofNat 7 k)
  | .s n, k => .s (n + BitVec.ofNat 6 k)
  | r, _ => r

end Sys2Proof

namespace Sys2Proof.Machine

/-- How many registers a value of a type takes. -/
def wide (w64 : Bool) : Nat := if w64 then 2 else 1

/-- `iv` (R90): the integer an operand holds, by its type. -/
def Crew.iv (c : Crew) (l : Lane) (t : Ty) (r : Reg) : Int :=
  match t with
  | .i8 => (bits (c.rd l r) 0 8).toInt
  | .n8 => (bits (c.rd l r) 0 8).toNat
  | .i16 => (bits (c.rd l r) 0 16).toInt
  | .n16 => (bits (c.rd l r) 0 16).toNat
  | .i32 => (c.rd l r).toInt
  | .i64 => (c.rd64 l r).toInt
  | .n64 => (c.rd64 l r).toNat
  | _ => (c.rd l r).toNat

/-- `wrap` (R73): an integer modulo the width of a type, placed in its range. -/
def wrapTo (t : Ty) (n : Int) : Int :=
  if t.isSigned then (BitVec.ofInt t.width n).toInt else (BitVec.ofInt t.width n).toNat

/-- The least value of an integer type (R73). -/
def tyMin (t : Ty) : Int := if t.isSigned then -(2 ^ (t.width - 1)) else 0

/-- The greatest value of an integer type (R73). -/
def tyMax (t : Ty) : Int := if t.isSigned then 2 ^ (t.width - 1) - 1 else 2 ^ t.width - 1

/-- `sat` (R73): an integer clamped to a type's range. -/
def satTo (t : Ty) (n : Int) : Int := max (tyMin t) (min n (tyMax t))

/-- `fit` (R91). -/
def fitTo (t : Ty) (sat : Bool) (n : Int) : Int := if sat then satTo t n else wrapTo t n

/-- The bits `put` writes for a result of a type (R90): narrower results are extended to 32 bits. -/
def putBits (t : Ty) (n : Int) : DWord := BitVec.ofInt 64 (wrapTo t n)

/-! ### The registers an instruction names, for the budget (R18, R61) -/

end Sys2Proof.Machine

namespace Sys2Proof

open Sys2Proof.Machine

/-- Whether `k` registers from an operand lie below a budget (R18, R189). -/
def Reg.inBudget (budget : Nat) (r : Reg) (k : Nat := 1) : Bool :=
  match r with
  | .v n => decide (n.toNat + k ≤ budget)
  | _ => true

/-- How many registers a memory access's data operand takes (R187). -/
def Acc.regs : Acc → Nat
  | .i64 | .n64 => 2
  | .b128 => 4
  | _ => 1

/-- The general registers an instruction names, each with how many it takes from there (R61, R189). -/
def Instr.regs : Instr → List (Reg × Nat)
  | .gox _ r | .callx _ r _ | .wantc _ r _ | .prefiIc _ r _ | .prefiL2 _ r _ | .pini _ r _ | .unpini _ r _
  | .got _ r _ _ _ | .hget _ r _ => [(r, 1)]
  | .movs _ d r => [(d, wide r.is64)]
  | .mov _ t d a => [(d, wide t.is64), (a, wide t.is64)]
  | .movi _ f d _ => [(d, wide (f != .word))]
  | .movh _ d a _ => [(d, 2), (a, 1)]
  | .iadd _ t _ d a b | .isub _ t _ d a b | .imul _ t _ d a b => [(d, wide t.is64), (a, wide t.is64), (b, wide t.is64)]
  | .imulh _ t d a b | .imin _ t d a b | .imax _ t d a b | .and _ t d a b | .or _ t d a b | .xor _ t d a b
  | .andn _ t d a b | .isel _ t d a b _ => [(d, wide t.is64), (a, wide t.is64), (b, wide t.is64)]
  | .iadd3 _ t _ d a b c | .imad _ t _ d a b c =>
      [(d, wide t.is64), (a, wide t.is64), (b, wide t.is64), (c, wide t.is64)]
  | .addc _ d a b _ | .subb _ d a b _ => [(d, 1), (a, 1), (b, 1)]
  | .iabs _ t _ d a | .ineg _ t _ d a | .brev _ t d a => [(d, wide t.is64), (a, wide t.is64)]
  | .shl _ t d a b | .shr _ t d a b | .sar _ t d a b | .rot _ t d a b | .bfx _ t d a b =>
      [(d, wide t.is64), (a, wide t.is64), (b, 1)]
  | .bfi _ t d a b c => [(d, wide t.is64), (a, wide t.is64), (b, wide t.is64), (c, 1)]
  | .popc _ t d a | .clz _ t d a | .ctz _ t d a => [(d, 1), (a, wide t.is64)]
  | .icmp _ t _ _ _ a b _ => [(a, wide t.is64), (b, wide t.is64)]
  | .lea _ _ _ d a b => [(d, 2), (a, 2), (b, 1)]
  | .idot4 _ _ _ _ d a b c | .ffma _ _ _ _ _ _ d a b c | .fdot2 _ _ _ _ _ d a b c
  | .pack _ _ _ _ _ _ _ d a b c => [(d, 1), (a, 1), (b, 1), (c, 1)]
  | .fadd _ _ _ _ _ _ d a b | .fsub _ _ _ _ _ _ d a b | .fmul _ _ _ _ _ _ d a b | .fmin _ _ _ _ d a b
  | .fmax _ _ _ _ d a b | .fscale _ _ _ _ _ d a b | .unpack _ _ _ _ _ _ _ d a b => [(d, 1), (a, 1), (b, 1)]
  | .fcmp _ _ _ _ _ _ a b _ => [(a, 1), (b, 1)]
  | .fclass _ _ d a | .frcp _ _ _ _ _ d a | .frsq _ _ _ _ d a | .fsqrt _ _ _ _ _ d a | .fexp2 _ _ _ _ d a
  | .flog2 _ _ _ _ d a | .fsin _ _ _ _ d a | .fcos _ _ _ _ d a | .ftanh _ _ _ _ d a | .frnd _ _ _ _ d a =>
      [(d, 1), (a, 1)]
  | .cvt _ td ts _ _ _ d a b => [(d, wide td.is64), (a, wide ts.is64), (b, 1)]
  | .shfl _ _ t d a b => [(d, wide t.is64), (a, wide t.is64), (b, 1)]
  | .scan _ _ t _ _ _ _ d a | .reduce _ _ t _ _ _ d a => [(d, wide t.is64), (a, wide t.is64)]
  | .matchI _ t d a _ => [(d, 1), (a, wide t.is64)]
  | .isect _ t _ d a b _ => [(d, 2), (a, wide t.is64), (b, wide t.is64)]
  | .regroup _ a b n => [(a, 1), (b, n.toNat + 1)]
  | .qnt _ _ _ _ _ _ d a _ => [(d, 1), (a, 1)]
  | .take _ w32 d a _ => [(d, wide (!w32)), (a, 1)]
  | .netcnt _ d _ => [(d, 2)]
  | .ld _ z _ _ d m | .st _ z _ d m => [(d, z.regs), (m.b, 2), (m.x, 1)]
  | .lds _ z d m | .sts _ z d m | .ldp _ z d m | .stp _ z d m | .ldl _ z _ d m | .stl _ z _ d m =>
      [(d, z.regs), (m.b, 1), (m.x, 1)]
  | .atom _ _ z spc d m | .red _ _ z spc d m => [(d, z.regs), (m.b, wide (spc == .global)), (m.x, 1)]
  | .cas _ z spc d m => [(d, 2 * z.regs), (m.b, wide (spc == .global)), (m.x, 1)]
  | .waitc _ _ z d m => [(d, z.regs), (m.b, 2), (m.x, 1)]
  | .pref _ _ _ m => [(m.b, 2), (m.x, 1)]
  | .sfence _ a b => [(a, 1), (b, 1)]
  | .awinit _ d m | .arrive _ d m | .await _ d m => [(d, 1), (m.b, 1), (m.x, 1)]
  | .mwrite _ _ _ a b c => [(a, 1), (b, 1), (c, 1)]
  | .mread _ i64 _ d a b => [(d, wide i64), (a, 1), (b, 1)]
  | .cgather _ _ d a b c | .cscatter _ _ d a b c | .cscatadd _ _ _ d a b c => [(d, 1), (a, 2), (b, 1), (c, 1)]
  | .ccopy _ dir _ _ d a c => [(d, wide (dir == .s2g)), (a, wide (dir == .g2s)), (c, 1)]
  | .cfill _ glob _ d a c => [(d, wide glob), (a, 1), (c, 1)]
  | .hinfo _ pc d => [(d, wide (!pc))]
  | .hput _ _ a => [(a, 1)]
  | _ => []

/-- The tiles an instruction names: the first, and how many (R252, R290). -/
def Instr.tiles : Instr → Option (Nat × Nat)
  | .mzero _ t | .mwrite _ _ t _ _ _ | .mread _ _ t _ _ _ | .mstatExp _ t _ => some (t.toNat, 1)
  | .mwait _ all t => if all then none else some (t.toNat, 1)
  | .mloop _ sh t _ _ _ _ _ => some (t.toNat, sh.dims.1 * sh.dims.2)
  | _ => none

/-- `legal` (R69): the encoding's limits, the crew's budget and the block's tiles. -/
def Instr.legal (i : Instr) (b : Block) (c : Crew) : Bool :=
  i.wf && (i.regs.all fun p => p.1.inBudget c.budget p.2)
  && (match i.tiles with
      | some (t, n) => decide (t + n ≤ b.tiles.length)
      | none => true)
  && (match i with
      | .unassignedMajor _ => false
      | _ => true)

/-- The least level that may issue an instruction (23 R369): 1 user, 2 function, 3 partition, 4 handler. -/
def Instr.needs : Instr → Nat
  | .rsplit .. | .rmerge .. | .rinval .. | .rprobe .. | .rprobeS2 .. | .rcompact .. | .netsave .. | .netload ..
  | .netdrain .. | .netreset .. | .cntcfg .. => 2
  | .sealset .. => 3
  | .hinfo .. | .hget .. | .hput .. | .hresume .. | .hkill .. | .habort .. => 4
  | _ => 1

/-- `permitted` (R69, 23 R369). -/
def Instr.permitted (i : Instr) (b : Block) : Bool := decide (i.needs ≤ b.level)

end Sys2Proof

namespace Sys2Proof.Machine

/-! ### Issuing (R69, R33) -/

/-- Goes on to the next instruction: the crew stands at the boundary after this one (R33). -/
def Crew.advance (c : Crew) (k : Ctx) (len : Nat) : Crew :=
  match c.seq with
  | .visit lab _ => { c with seq := .visit lab (BitVec.ofNat 32 (slotAfter k.pc.toNat len)) }
  | _ => c

end Sys2Proof.Machine

namespace Sys2Proof

open Sys2Proof.Machine

/-- What an instruction takes: cycles of the issue slot for each eighth, and the cycles from there until what depends on it may issue,
where these do not depend on memory or an engine (06_control_integer R104, 08_float_convert R144, 12_memory_instructions R211,
15_crew_instructions R251, 18_engine_instructions R309, 23_system_instructions R390). -/
def Instr.cost (i : Instr) : Nat × Nat :=
  let wide := i.regs.any fun r => r.2 == 2
  match i with
  | .lea .. | .movs .. => (1, 4)
  | .imul .. | .imulh .. | .imad .. => if wide then (4, 12) else (1, 4)
  | .frcp .. | .frsq .. | .fsqrt .. | .fexp2 .. | .flog2 .. | .fsin .. | .fcos .. | .ftanh .. => (4, 16)
  | .ld _ .b128 .. | .ldl _ .b128 .. | .st _ .b128 .. | .stl _ .b128 .. => (2, 0)
  | .ld .. | .ldl .. | .lds .. | .ldp .. | .st .. | .stl .. | .sts .. | .stp .. | .atom .. | .cas .. | .red .. | .waitc .. | .pref ..
  | .regroup .. | .take .. | .netcnt .. | .cgather .. | .cscatter .. | .cscatadd .. | .ccopy .. | .cfill .. => (1, 0)
  | .vote .. | .ballot .. | .matchI .. => (1, 8)
  | .shfl .. => if wide then (2, 10) else (1, 8)
  | .scan _ _ t .. | .reduce _ _ t .. => if t.isFloat then (1, 24) else if wide then (2, 16) else (1, 12)
  | .isect _ t .. => (1, if t.is64 then 32 else 24)
  | .qnt .. => (1, 32)
  | .mread .. | .mstat .. | .mstatLog .. | .mstatExp .. | .cstat .. | .cstatClr .. | .hinfo .. | .hget .. | .cntrd .. => (1, 24)
  | _ => if wide then (2, 6) else (1, 4)

/-- The slots an instruction takes (R51). -/
def Instr.len (i : Instr) : Nat :=
  match i.words with
  | some (w, _) => lengthOf w
  | none => 1

end Sys2Proof

namespace Sys2Proof.Machine

/-- The eighths of a crew in which an instruction issues (02_device R15). -/
def Crew.eighths (c : Crew) : Nat := (List.range 8).countP fun e => c.slots.any fun p => p.2.act && p.1 / 16 == e

/-- An instruction begins to issue, whether or not it then traps: the crew's promotion ends, its count of ready cycles begins anew, and
its results are ready after what its form takes, or later (R104, R222; DESIGN CHOICE, log 1). -/
def State.noteIssue (s : State) (k : Ctx) (i : Instr) : State :=
  s.modCur k fun c =>
    { c with promoted := false, since := s.cyc, busy := max c.busy (s.cyc + k.c.eighths * i.cost.1 + i.cost.2 + s.late) }

/-- An instruction that passed the checks of R69 is the crew's next in issue order (R166, R338). -/
def State.begun (s : State) (k : Ctx) (i : Instr) : State :=
  (s.noteIssue k i).modCur k fun c =>
    { c with ins := c.ins + 1, skid := if k.b.abort.isSome then c.skid + 1 else c.skid }

/-- Counts an issued instruction (23 R386), of a launch's crew; one that trapped every lane that executes it counts nothing
(DEDUCED, log 35). -/
def State.countIssue (s : State) (k : Ctx) (i : Instr) : State :=
  let ls := k.c.takers i.guard
  let trapped := !ls.isEmpty && ls.all fun p => match s.crew? k.b.uid k.ci with
    | some (_, c) => c.lanes[p.1]?.any (·.trapped)
    | none => false
  s.count k.b.vf 1 fun _ => k.b.hnd.isEmpty && !trapped

/-- Issues an instruction of the current crew (R69): the three checks, then the entry's effect, then the crew goes
on. With no crew in a visit there is nothing to issue, and nothing changes (DESIGN CHOICE, log 1). -/
def issue (i : Instr) (effect : Ctx → State → State) (s : State) : Host.Outcome State Fault Refusal :=
  match s.issuing with
  | none => .next s
  | some k =>
    if !i.legal k.b k.c then .next (((s.noteIssue k i).trapActive k .illegal).modCur k (·.advance k i.len))
    else if !i.permitted k.b then .next (((s.noteIssue k i).trapActive k .privilege).modCur k (·.advance k i.len))
    else .next (((effect k (s.begun k i)).modCur k (·.advance k i.len)).countIssue k i)

/-- Acts in each guard-true active lane by itself (R55). -/
def Crew.eachLane (c : Crew) (g : Guard) (f : Nat → Lane → Lane) : Crew :=
  c.mapLanes fun i l => if l.takes g then f i l else l

/-- A computed value with the random state after it (R74). -/
abbrev Val := Word → DWord × Word

/-- A value that draws nothing. -/
def pureVal (x : DWord) : Val := fun r => (x, r)

/-- Writes a computed value to a lane's register or pair. -/
def Lane.put (l : Lane) (w64 : Bool) (d : Reg) (v : Val) : Lane :=
  let (x, r) := v l.rng
  let l := { l with rng := r }
  if w64 then l.wr64 d x else l.wr d (bits x 0 32)

/-- Writes a computed value to a scalar register or pair, once for the crew: the lowest guard-true active lane
supplies it, and draws for it (R56, R124). -/
def Crew.putS (c : Crew) (g : Guard) (w64 : Bool) (d : Reg) (val : Lane → Val) : Crew :=
  match c.takers g with
  | [] => c
  | (i, l) :: _ =>
    let (x, r) := val l l.rng
    let c := c.modLane i fun l => { l with rng := r }
    if w64 then c.wrS64 d x else c.wrS d (bits x 0 32)

/-- A register instruction: the value `val` of the crew and lane goes to `d`, in each guard-true active lane or once
for the crew (R56, R92). -/
def Crew.alu (c : Crew) (g : Guard) (w64 : Bool) (d : Reg) (val : Crew → Lane → Val) : Crew :=
  if d.isS then c.putS g w64 d (val c)
  else c.eachLane g fun _ l => l.put w64 d (val c l)

/-- Issues a register instruction (R56, R92). -/
def issueAlu (i : Instr) (w64 : Bool) (d : Reg) (val : Crew → Lane → Val) (s : State) :
    Host.Outcome State Fault Refusal :=
  issue i (fun k s => s.modCur k (·.alu i.guard w64 d val)) s

/-- Issues an integer instruction whose result has type `t` (R90, R91). -/
def issueInt (i : Instr) (t : Ty) (d : Reg) (val : Crew → Lane → Int) (s : State) : Host.Outcome State Fault Refusal :=
  issueAlu i t.is64 d (fun c l => pureVal (putBits t (val c l))) s

/-! ### Special registers (R62, R89) -/

/-- What MOVS reads in a lane of a crew (R89); CLK and CBASE are pairs, the others are zero-extended. R89 lets the CLK of different
cores differ by up to 8 counts from a single counter; here every core reads the one counter (DESIGN CHOICE; assumption log 47). -/
def State.special (s : State) (k : Ctx) (lane : Nat) (l : Lane) : SReg → DWord
  | .wl => l.wl.setWidth 64
  | .ro => l.ro.setWidth 64
  | .lid => BitVec.ofNat 64 lane
  | .oid => l.oid.setWidth 64
  | .cid => BitVec.ofNat 64 k.c.cid
  | .bid => BitVec.ofNat 64 k.b.bid
  | .swc => k.c.swc.setWidth 64
  | .clk => s.clk
  | .clid => BitVec.ofNat 64 (k.b.core / 4)
  | .core => BitVec.ofNat 64 k.b.core
  | .part => BitVec.ofNat 64 k.b.part
  | .lnch => k.b.launch.setWidth 64
  | .rng => l.rng.setWidth 64
  | .cbase => BitVec.ofNat 64 k.b.code

end Sys2Proof.Machine
end

