-- ==== Sys2Proof/Machine/Flags.lean ====
section
/-! DEFINITION. Conditions, the combine of compare instructions, and the carry predicate (06_control_integer R95,
R100; 12 R203). The machine has no other flags. -/

namespace Sys2Proof.Machine

end Sys2Proof.Machine

namespace Sys2Proof

open Sys2Proof.Machine

/-- The integer conditions (R100). -/
def Cond.eval (c : Cond) (a b : Int) : Bool :=
  match c with
  | .eq => a == b
  | .ne => a != b
  | .lt => decide (a < b)
  | .le => decide (a ≤ b)
  | .gt => decide (b < a)
  | .ge => decide (b ≤ a)

/-- Combines a comparison with predicate C (R100). -/
def Comb.eval (m : Comb) (x q : Bool) : Bool :=
  match m with
  | .none => x
  | .and => x && q
  | .or => x || q
  | .xor => x != q

end Sys2Proof

namespace Sys2Proof.Machine

/-- Writes a comparison to predicate `d` in each guard-true active lane, combined with C (R92, R100). -/
def Crew.compare (c : Crew) (g : Guard) (m : Comb) (d : BitVec 3) (q : Reg) (val : Lane → Bool) : Crew :=
  c.eachLane g fun _ l => l.setPred d (Comb.eval m (val l) (c.rd l q == 1))

/-- The sum and carry out of ADDC (R95). -/
def addCarry (a b : Word) (cin : Bool) : Word × Bool :=
  let n := a.toNat + b.toNat + cin.toNat
  (BitVec.ofNat 32 n, decide (2 ^ 32 ≤ n))

/-- The difference and borrow out of SUBB (R95). -/
def subBorrow (a b : Word) (bin : Bool) : Word × Bool :=
  let n : Int := (a.toNat : Int) - b.toNat - (bin.toNat : Int)
  (BitVec.ofInt 32 n, decide (n < 0))

end Sys2Proof.Machine
end

