-- ==== Sys2Proof/Machine/Code.lean ====
section
/-! DEFINITION. Code lines and what the sequencer reads of them (04_sweep R30-R33, R41; 05_encoding R50-R53). -/

namespace Sys2Proof.Machine

/-! ### Headers (R30, R50, R51) -/

/-- The header word of a line. -/
def Line.header (l : Line) : DWord := l.words[0]?.getD 0

/-- An instruction begins at slot j. -/
def Line.start (l : Line) (j : Nat) : Bool := l.header.getLsbD j

/-- Slot j begins a span. -/
def Line.label (l : Line) (j : Nat) : Bool := l.header.getLsbD (15 + j)

/-- Slot j is a marked rewind point. -/
def Line.rewind (l : Line) (j : Nat) : Bool := l.header.getLsbD (30 + j)

/-- The word of slot j. -/
def Line.slot (l : Line) (j : Nat) : DWord := l.words[j + 1]?.getD 0

/-- Item 3 of R51, walking from slot j. -/
def Line.walkOk (l : Line) : Nat → Nat → Bool
  | 0, _ => true
  | fuel + 1, j =>
    if 15 ≤ j then true
    else if !l.start j then false
    else if lengthOf (l.slot j) = 2 then decide (j ≤ 13) && !l.start (j + 1) && l.walkOk fuel (j + 2)
    else l.walkOk fuel (j + 1)

/-- A header is consistent with its line (R51). -/
def Line.wellFormed (l : Line) : Bool :=
  bits l.header 60 4 == 1 && bits l.header 45 15 == 0 && l.walkOk 15 0
  && (List.range 15).all fun j => (!l.label j || l.start j) && (!l.rewind j || l.label j)

/-- The sixteen words of 128 bytes. -/
def lineWords (bs : List Byte) : List DWord := (List.range 16).map fun i => dwordOf ((bs.drop (8 * i)).take 8)

/-- What is known of a code line now. -/
inductive Peek where
  | line (l : Line)
  /-- its fetch would fault -/
  | fault
  /-- its granule is not resident, or stands at the fuller's watermark: it waits (R361) -/
  | wait (w : Park)
deriving DecidableEq, Repr

/-- A line as it stands at home, found by a fresh walk: what the sequencer reads of a line that is not in the crew's
fetch slot (DESIGN CHOICE, log 6). -/
def State.homeLine (s : State) (b : Block) (n : Nat) : Peek :=
  match s.walkEntry b.core none b.asid (b.code + 128 * n) with
  | .error _ => .fault
  | .ok e =>
    match s.checkX b.asid e (b.code + 128 * n) .exec with
    | .ok x => .line ⟨n, lineWords (s.readHome x.key x.home 128)⟩
    | .park w => .wait w
    | .fault _ => .fault

/-- A line as the crew sees it: in its fetch slot, prefetched, or at home. -/
def State.peekLine (s : State) (b : Block) (c : Crew) (n : Nat) : Peek :=
  match c.line with
  | some l => if l.idx = n then .line l else
      match c.next with
      | some m => if m.idx = n then .line m else s.homeLine b n
      | none => s.homeLine b n
  | none => s.homeLine b n

/-- `label_bit` (R33, R53): an offset beyond the code or at a header is no label. -/
def State.isLabel (s : State) (b : Block) (c : Crew) (o : Nat) : Bool :=
  if isHeader o || b.nline ≤ o / 16 then false
  else match s.peekLine b c (o / 16) with
    | .line l => l.label (o % 16 - 1)
    | _ => false

/-- Why the line of an offset within the code cannot be read just now, if it can be later (R361). -/
def State.lineWaits (s : State) (b : Block) (c : Crew) (o : Nat) : Option Park :=
  if b.nline ≤ o / 16 then none
  else match s.peekLine b c (o / 16) with
    | .wait w => some w
    | _ => none

/-- The first label from slot j on of a line. -/
def Line.firstLabel (l : Line) (j : Nat) : Option Nat := (List.range 15).find? fun i => decide (j ≤ i) && l.label i

/-- What a search for the next label in layout finds. -/
inductive Scan where
  | label (o : Nat)
  | none
  /-- a line on the way waits (R361) -/
  | wait (line : Nat) (w : Park)
deriving DecidableEq, Repr

/-- Searches lines from `n` on, this one from slot `j` on, for a label at or before offset `hi`. -/
def State.scanLines (s : State) (b : Block) (c : Crew) (hi : Nat) : Nat → Nat → Nat → Scan
  | 0, _, _ => .none
  | fuel + 1, n, j =>
    if b.nline ≤ n || decide (hi < 16 * n) then .none
    else match s.peekLine b c n with
      | .wait w => .wait n w
      | .fault => s.scanLines b c hi fuel (n + 1) 0
      | .line l =>
        match l.firstLabel j with
        | some i => if 16 * n + i + 1 ≤ hi then .label (16 * n + i + 1) else .none
        | none => s.scanLines b c hi fuel (n + 1) 0

/-- The first label after offset `x` and at or before `hi`: `next_label(x)` when that is no later (R33). -/
def State.nextLabel (s : State) (b : Block) (c : Crew) (x hi : Nat) : Scan :=
  s.scanLines b c hi (hi / 16 + 1 - x / 16) (x / 16) (x % 16)

/-- Whether offset `o` is a START slot within the span of `lab` (R33). -/
def State.inSpan (s : State) (b : Block) (c : Crew) (lab o : Nat) : Bool :=
  !isHeader o && decide (lab ≤ o) && decide (o / 16 < b.nline) && s.nextLabel b c lab o == .none
  && match s.peekLine b c (o / 16) with
     | .line l => l.start (o % 16 - 1)
     | _ => false

/-- Whether it cannot be told just now whether an offset stands in a span: the line that it waits for (R361). -/
def State.spanWaits (s : State) (b : Block) (c : Crew) (lab o : Nat) : Option (Nat × Park) :=
  if isHeader o || decide (o < lab) then none
  else match s.nextLabel b c lab o with
    | .wait n w => some (n, w)
    | .label _ => none
    | .none => (s.lineWaits b c o).map fun w => (o / 16, w)

/-! ### Leaving and waiting (R34, R41, R70, R340) -/

/-- The offset of the instruction after the issuing one. -/
def Ctx.nextOff (k : Ctx) (len : Nat) : Nat := slotAfter k.pc.toNat len

/-- The offset just past the code, which stands for the next label where the code has none: a header offset, which faults when a
census chooses it (R53; DESIGN CHOICE, log 6). -/
def Block.pastCode (b : Block) : Word := BitVec.ofNat 32 (16 * b.nline)

/-- The `wl` and `ro` of a lane that parks at a waiting instruction, or that TRAP, BRK or an implicit rewind point
leaves to continue after the instruction (R41, R70, R340): after the last instruction of a span that is the next label. -/
def State.after (s : State) (k : Ctx) (len : Nat) (wl : Word) : Word × Word :=
  let o := k.nextOff len
  if k.b.nline ≤ o / 16 then (k.b.pastCode, 0)
  else if s.isLabel k.b k.c o then (BitVec.ofNat 32 o, 0)
  else (wl, BitVec.ofNat 32 o)

/-- Why it cannot be told just now whether the instruction at an offset is the last of its span (R41, R361). -/
def State.afterWaits (s : State) (b : Block) (c : Crew) (pc : Word) (len : Nat) : Option Park :=
  s.lineWaits b c (slotAfter pc.toNat len)

/-- An implicit rewind point after the instruction: RWL and RRO as R41 would set `wl` and `ro`, kind 0 (R340), and the
copy of `rng` (R120). -/
def Lane.implicitPoint (l : Lane) (p : Word × Word) : Lane :=
  { l with rwl := p.1, rro := p.2, kind := false, rngc := l.rng }

/-- Every active lane that executes an instruction, its guard being true, passes the implicit point after it (R29, R55, R210, R340,
R341). -/
def State.passImplicit (s : State) (k : Ctx) (g : Guard) (len : Nat) : State :=
  s.modCur k fun c => c.mapLanes fun _ l => if l.takes g then l.implicitPoint (s.after k len l.wl) else l

/-- A lane leaves its span (R34). -/
def Lane.leave (l : Lane) (wl : Word) : Lane := { l with wl := wl, ro := 0, act := false }

end Sys2Proof.Machine
end

