-- ==== Sys2Proof/Machine/Numbers.lean ====
section
/-! DEFINITION. Float numbers: the value sets and codes of 07_number_formats R105-R114, rounding (05_encoding R72, R73;
07 R118), the stochastic generator (R119), and exact arithmetic on decoded values. -/

namespace Sys2Proof.Machine

/-! ### Float types (R106-R108) -/

/-- A float type: fraction bits, bias, the code of infinity if it has one, the code of the largest finite value, the
canonical NaN, and the sign bit. -/
structure FTy where
  p : Nat
  bias : Int
  inf : Option Nat
  max : Nat
  nan : Nat
  sign : Nat
deriving DecidableEq, Repr

/-- The layout of a float type (R106-R108); other types never reach it. -/
def fty : Ty → FTy
  | .f16 => ⟨10, 15, some 0x7C00, 0x7BFF, 0x7E00, 0x8000⟩
  | .bf16 => ⟨7, 127, some 0x7F80, 0x7F7F, 0x7FC0, 0x8000⟩
  | .e5m2 => ⟨2, 15, some 0x7C, 0x7B, 0x7E, 0x80⟩
  | .e4m3 => ⟨3, 7, none, 0x7E, 0x7F, 0x80⟩
  | .e2m1 => ⟨1, 1, none, 7, 0, 8⟩
  | _ => ⟨23, 127, some 0x7F800000, 0x7F7FFFFF, 0x7FC00000, 0x80000000⟩

/-- A decoded value: `fin neg m e` is (-1)^neg * m * 2^e, a zero keeping its sign (R71). -/
inductive FVal where
  | nan
  | inf (neg : Bool)
  | fin (neg : Bool) (m : Nat) (e : Int)
deriving DecidableEq, Repr

/-- `dec` (R71, R107, R108): the value of a code; a flushed subnormal is a zero of its sign. -/
def dec (t : Ty) (flush : Bool) (x : Nat) : FVal :=
  let f := fty t
  let c := x % (2 * f.sign)
  let neg := decide (f.sign ≤ c)
  let mag := c % f.sign
  match f.inf with
  | some i =>
    if i < mag then .nan else if mag = i then .inf neg
    else finite f neg mag
  | none => if t == .e4m3 && mag == 0x7F then .nan else finite f neg mag
where
  /-- a finite code (R107) -/
  finite (f : FTy) (neg : Bool) (mag : Nat) : FVal :=
    let e := mag / 2 ^ f.p
    let fr := mag % 2 ^ f.p
    if e = 0 then (if flush then .fin neg 0 0 else .fin neg fr (1 - f.bias - f.p))
    else .fin neg (2 ^ f.p + fr) (e - f.bias - f.p)

/-- The scale of a power of two applied to a natural number: floor of m * 2^e, and whether something was cut off. -/
def shiftDown (m : Nat) (e : Int) : Nat :=
  if 0 ≤ e then m * 2 ^ e.toNat else m / 2 ^ (-e).toNat

/-! ### The generator (R74, R119) -/

/-- One step of `rng` (R119). -/
def rngStep (s : Word) : Word :=
  if s.getLsbD 0 then (s >>> 1) ^^^ 0x80200003 else s >>> 1

/-- `n` steps. -/
def rngSteps : Nat → Word → Word
  | 0, s => s
  | n + 1, s => rngSteps n (rngStep s)

/-- `rand(16)` (R74). -/
def rand16 (s : Word) : Nat × Word := ((bits s 0 16).toNat, rngSteps 16 s)

/-- The `rng` a lane starts with, from the seed and its `oid` (R119). -/
def rngSeed (seed : DWord) (oid : Word) : Word :=
  let r := bits seed 0 32 ^^^ bits seed 32 32 ^^^ (oid * 0x9E3779B1)
  if r == 0 then 1 else r

/-! ### Rounding (R72, R118) -/

/-- A nonnegative real between two neighbouring integers: `lo`, the rest as `num`/`den` below 1, and whether an
infinitesimal is to be added to the rest. -/
structure Frac where
  lo : Nat
  num : Nat
  den : Nat
  sticky : Bool
deriving DecidableEq, Repr

/-- m * 2^e in units of 2^q. -/
def fracOf (m : Nat) (e q : Int) (sticky : Bool) : Frac :=
  if q ≤ e then ⟨m * 2 ^ (e - q).toNat, 0, 1, sticky⟩
  else
    let d := 2 ^ (q - e).toNat
    ⟨m / d, m % d, d, sticky⟩

/-- Whether the rest is zero. -/
def Frac.exact (x : Frac) : Bool := x.num == 0 && !x.sticky

/-- Which neighbour a mode picks: true for the upper one (R72). `r` is the draw of `rst`. -/
def Frac.up (x : Frac) (rm : Rm) (neg : Bool) (r : Nat) : Bool :=
  if x.exact then false
  else
    match rm with
    | .rne =>
      if x.den < 2 * x.num || (2 * x.num == x.den && x.sticky) then true
      else if 2 * x.num == x.den then x.lo % 2 == 1 else false
    | .rna => decide (x.den ≤ 2 * x.num)
    | .rtz => false
    | .rdn => neg
    | .rup => !neg
    | .rst => decide (x.den * 65536 ≤ x.num * 65536 + r * x.den)

/-- A number a rounding may draw. -/
abbrev Draw (α : Type) := Word → α × Word

/-- Draws for `rst` when `need` holds (R72). -/
def drawIf (need : Bool) (rm : Rm) (s : Word) : Nat × Word :=
  if rm == .rst && need then rand16 s else (0, s)

/-- The code of a signed magnitude code; a zero keeps its sign. -/
def signed (f : FTy) (neg : Bool) (mag : Nat) : Nat := if neg then f.sign + mag else mag

/-- What an infinite result becomes (R72): with S or in a type without infinities the largest finite value, but NaN in
e4m3 without S. -/
def overflowCode (t : Ty) (neg sat : Bool) : Nat :=
  let f := fty t
  match f.inf with
  | some i => if sat then signed f neg f.max else signed f neg i
  | none => if t == .e4m3 && !sat then f.nan else signed f neg f.max

/-- `round` of a nonzero magnitude m * 2^e (R72). -/
def roundMag (t : Ty) (rm : Rm) (sat ftz neg : Bool) (m : Nat) (e : Int) (sticky : Bool) : Draw Nat := fun s =>
  let f := fty t
  let qmin := 1 - f.bias - f.p
  let q := max ((Nat.log2 m : Int) + e - f.p) qmin
  let x := fracOf m e q sticky
  let code := ((q - qmin).toNat * 2 ^ f.p) + x.lo
  if code < f.max || (code == f.max && x.exact) then
    let (r, s) := drawIf (!x.exact) rm s
    let c := if x.up rm neg r then code + 1 else code
    (if ftz && c < 2 ^ f.p then signed f neg 0 else signed f neg c, s)
  else
    let (r, s) := drawIf true rm s
    let qM : Int := (f.max / 2 ^ f.p : Nat) - 1 + qmin
    let y := fracOf m e qM sticky
    let mi := f.max % 2 ^ f.p + 2 ^ f.p
    let beyond := match rm with
      | .rne | .rna => true
      | .rtz => false
      | .rup => !neg
      | .rdn => neg
      | .rst => decide (mi + 1 ≤ y.lo) || y.up .rst neg r
    (if beyond then overflowCode t neg sat else signed f neg f.max, s)

/-- `round` (R72, R118); the sign of a zero is the one given. -/
def roundTo (t : Ty) (rm : Rm) (sat ftz : Bool) (x : FVal) : Draw Nat := fun s =>
  let f := fty t
  match x with
  | .nan => (f.nan, s)
  | .inf neg =>
    match f.inf with
    | some i => (signed f neg i, s)
    | none =>
      let (_, s) := drawIf true rm s
      let beyond := match rm with
        | .rne | .rna | .rst => true
        | .rtz => false
        | .rup => !neg
        | .rdn => neg
      (if beyond then overflowCode t neg sat else signed f neg f.max, s)
  | .fin neg m e => if m = 0 then (signed f neg 0, s) else roundMag t rm sat ftz neg m e false s

/-- `rint` (R73) of a finite value. -/
def rintOf (rm : Rm) (neg : Bool) (m : Nat) (e : Int) : Draw Int := fun s =>
  let x := fracOf m e 0 false
  let (r, s) := drawIf (!x.exact) rm s
  let n : Int := if x.up rm neg r then x.lo + 1 else x.lo
  (if neg then -n else n, s)

/-! ### Exact arithmetic -/

/-- The signed mantissa of a finite value. -/
def sgn (neg : Bool) (m : Nat) : Int := if neg then -m else m

/-- A finite value from a signed mantissa; the sign of a zero is given. -/
def finOf (m : Int) (e : Int) (zneg : Bool) : FVal := if m = 0 then .fin zneg 0 0 else .fin (decide (m < 0)) m.natAbs e

/-- The exact sum of signed dyadic terms, as a mantissa and an exponent. -/
def sumDy (xs : List (Int × Int)) : Int × Int :=
  let e := xs.foldl (fun a x => if x.1 = 0 then a else min a x.2) (10 ^ 6)
  (xs.foldl (fun a x => if x.1 = 0 then a else a + x.1 * 2 ^ (x.2 - e).toNat) 0, e)

/-- Negation. -/
def FVal.neg : FVal → FVal
  | .nan => .nan
  | .inf n => .inf (!n)
  | .fin n m e => .fin (!n) m e

/-- The sign of a value; NaN counts as positive. -/
def FVal.sign : FVal → Bool
  | .nan => false
  | .inf n => n
  | .fin n _ _ => n

/-- Whether a value is a zero. -/
def FVal.isZero : FVal → Bool
  | .fin _ 0 _ => true
  | _ => false

/-- Order of two values that are not NaN; zeros are equal. -/
def FVal.lt : FVal → FVal → Bool
  | .nan, _ | _, .nan => false
  | .inf a, .inf b => a && !b
  | .inf a, .fin .. => a
  | .fin .., .inf b => !b
  | .fin a m e, .fin b n f => let (d, _) := sumDy [(sgn a m, e), (-(sgn b n), f)]; decide (d < 0)

/-- Equality of two values that are not NaN; -0 equals +0 (R131). -/
def FVal.eqv (a b : FVal) : Bool :=
  match a, b with
  | .nan, _ | _, .nan => false
  | _, _ => !a.lt b && !b.lt a

/-! ### Block values (R113, R114) -/

/-- The scale of a block: (256 + SF) * 2^(SE - 135). -/
def scaleOf (sw : Word) : Nat × Int := (256 + (bits sw 16 8).toNat, ((bits sw 24 8).toNat : Int) - 135)

/-- A value times a block's scale. -/
def FVal.scaled (x : FVal) (sw : Word) : FVal :=
  match x with
  | .fin n m e => let (k, f) := scaleOf sw; .fin n (m * k) (e + f)
  | x => x

/-- `value(k)` (R114) from an element's code and its block's scale word. -/
def blockValue (t : Ty) (code : Nat) (sw : Word) : FVal :=
  if bits sw 24 8 == 0xFF then .nan
  else
    match t with
    | .e2m1 => if code % 16 = 8 then (dec .e4m3 false (bits sw 8 8).toNat).scaled sw else (dec .e2m1 false code).scaled sw
    | .i8 =>
      let n := (BitVec.ofNat 8 code).toInt
      (finOf n 0 false).scaled sw
    | t => (dec t false code).scaled sw

/-- The element type of a range format (R115). -/
def fmtTy : Nat → Ty
  | 1 => .e2m1
  | 2 => .e4m3
  | 3 => .e5m2
  | _ => .i8

end Sys2Proof.Machine
end

