-- ==== Sys2Proof/Machine/Float.lean ====
section
/-! DEFINITION. The values of the float instructions (08_float_convert R126-R143): sums and products, minimum and
maximum, classes, the correctly rounded and the faithfully rounded functions, conversions. -/

namespace Sys2Proof.Machine

/-! ### Sums and products (R126, R129, R135) -/

/-- One term of a sum: its sign, and its value; a zero keeps its sign (R126). -/
abbrev Term := FVal

/-- The product of two values as one term (R126, R129); 0 times infinity is NaN. -/
def FVal.mul (x y : FVal) : FVal :=
  match x, y with
  | .nan, _ | _, .nan => .nan
  | .inf a, .inf b => .inf (xor a b)
  | .inf a, .fin b m _ => if m = 0 then .nan else .inf (xor a b)
  | .fin a m _, .inf b => if m = 0 then .nan else .inf (xor a b)
  | .fin a m e, .fin b n f => .fin (xor a b) (m * n) (e + f)

/-- The exact sum of terms with the zero sign of R126 under a rounding mode. -/
def sumTerms (rm : Rm) (ts : List Term) : FVal :=
  if ts.any (· == .nan) then .nan
  else
    let infs := ts.filter fun t => match t with
      | .inf _ => true
      | _ => false
    match infs with
    | i :: rest => if rest.all (· == i) then i else .nan
    | [] =>
      let allNeg := ts.all fun t => t.isZero && t.sign
      let allPos := ts.all fun t => t.isZero && !t.sign
      let (m, e) := sumDy (ts.map fun t => match t with
        | .fin n m e => (sgn n m, e)
        | _ => (0, 0))
      finOf m e (if allNeg then true else if allPos then false else rm == .rdn)

/-! ### Minimum and maximum (R130) -/

/-- Order of R130: -0 below +0. -/
def fless (x y : FVal) : Bool := x.lt y || (x.isZero && y.isZero && x.sign && !y.sign)

/-- A code with its subnormals flushed. -/
def flushCode (t : Ty) (ftz : Bool) (x : Nat) : Nat :=
  let f := fty t
  let c := x % (2 * f.sign)
  if ftz && c % f.sign < 2 ^ f.p then c / f.sign * f.sign else c

/-- FMIN and FMAX of two codes (R130). -/
def fminmax (t : Ty) (ftz isMax : Bool) (a b : Nat) : Nat :=
  let x := dec t ftz a
  let y := dec t ftz b
  let a := flushCode t ftz a
  let b := flushCode t ftz b
  match x, y with
  | .nan, .nan => (fty t).nan
  | .nan, _ => b
  | _, .nan => a
  | _, _ => if isMax then (if fless x y then b else a) else (if fless y x then b else a)

/-- The float conditions (R131). -/
def fcond (c : FCond) (x y : FVal) : Bool :=
  let un := x == .nan || y == .nan
  match c with
  | .eq => !un && x.eqv y
  | .ne => un || !x.eqv y
  | .lt => !un && x.lt y
  | .le => !un && !y.lt x
  | .gt => !un && y.lt x
  | .ge => !un && !x.lt y
  | .un => un
  | .ord => !un

/-- The class bit of a code (R132). -/
def fclassBits (t : Ty) (x : Nat) : Nat :=
  let f := fty t
  let c := x % (2 * f.sign)
  let neg := decide (f.sign ≤ c)
  let mag := c % f.sign
  match dec t false x with
  | .nan => 256
  | .inf n => if n then 1 else 128
  | .fin .. =>
    if mag = 0 then (if neg then 8 else 16)
    else if mag < 2 ^ f.p then (if neg then 4 else 32)
    else (if neg then 2 else 64)

/-! ### Reciprocal and square root (R136, R138) -/

/-- The integer square root, bit by bit from bit `k`. -/
def isqrtLoop (n : Nat) : Nat → Nat → Nat
  | 0, r => r
  | k + 1, r => let r' := r + 2 ^ k; isqrtLoop n k (if r' * r' ≤ n then r' else r)

/-- The integer square root. -/
def isqrt (n : Nat) : Nat := isqrtLoop n (Nat.log2 n / 2 + 1) 0

/-- The code of a special result. -/
def infCode (t : Ty) (neg : Bool) : Nat := signed (fty t) neg ((fty t).inf.getD 0)

/-- The code of 1. -/
def oneCode (t : Ty) : Nat := (fty t).bias.toNat * 2 ^ (fty t).p

/-- FRCP (R136, R138). -/
def frcpCode (t : Ty) (rm : Rm) (sat ftz : Bool) (x : FVal) : Draw Nat := fun s =>
  match x with
  | .nan => ((fty t).nan, s)
  | .inf n => (signed (fty t) n 0, s)
  | .fin n m e =>
    if m = 0 then (infCode t n, s)
    else
      let g := 64 + Nat.log2 m
      roundMag t rm sat ftz n (2 ^ g / m) (-e - g) (2 ^ g % m != 0) s

/-- A magnitude m * 2^e with an even exponent and at least 128 more bits, so that the root has 65 or more: `rst` compares 16 bits
below the last place (R72). -/
def evenExp (m : Nat) (e : Int) : Nat × Int :=
  let k : Nat := if e % 2 = 0 then 128 else 129
  (m * 2 ^ k, e - k)

/-- FSQRT (R136, R138). -/
def fsqrtCode (t : Ty) (rm : Rm) (sat ftz : Bool) (x : FVal) : Draw Nat := fun s =>
  match x with
  | .nan => ((fty t).nan, s)
  | .inf n => (if n then (fty t).nan else infCode t false, s)
  | .fin n m e =>
    if m = 0 then (signed (fty t) n 0, s)
    else if n then ((fty t).nan, s)
    else
      let (m, e) := evenExp m e
      let r := isqrt m
      roundMag t rm sat ftz false r (e / 2) (r * r != m) s

/-! ### The faithfully rounded functions (R137): which neighbour is returned is a free value (DESIGN CHOICE, log 4) -/

/-- One of the two neighbours of a nonzero real in a type: `up` picks the one of greater magnitude; beyond the largest
finite value the result is infinite, or that value under S (R137). An exact value is returned as it is. -/
def neighbour (t : Ty) (sat ftz neg : Bool) (m : Nat) (e : Int) (sticky up : Bool) : Nat :=
  let f := fty t
  let qmin := 1 - f.bias - f.p
  let q := max ((Nat.log2 m : Int) + e - f.p) qmin
  let x := fracOf m e q sticky
  let code := ((q - qmin).toNat * 2 ^ f.p) + x.lo
  if code < f.max || (code == f.max && x.exact) then
    let c := if up && !x.exact then code + 1 else code
    if ftz && c < 2 ^ f.p then signed f neg 0 else signed f neg c
  else overflowCode t neg sat

/-- Fraction bits of the fixed-point evaluations. -/
def fxBits : Nat := 512

/-- One in fixed point. -/
def fxOne : Nat := 2 ^ fxBits

/-- The sum of z^(2k+1)/(2k+1) for z in fixed point, `w` holding the next odd power. -/
def atanhLoop (z2 : Nat) (alt : Bool) : Nat → Nat → Nat → Int → Int
  | 0, _, _, acc => acc
  | n + 1, k, w, acc =>
    let t : Int := w / (2 * k + 1)
    atanhLoop z2 alt n (k + 1) (w * z2 / fxOne) (if alt && k % 2 == 1 then acc - t else acc + t)

/-- atanh(z) in fixed point, 0 ≤ z ≤ 1/3. -/
def fxAtanh (z : Nat) : Nat := (atanhLoop (z * z / fxOne) false 170 0 z 0).toNat

/-- atan(1/n) in fixed point. -/
def fxAtan (n : Nat) : Nat := (atanhLoop (fxOne / (n * n)) true 120 0 (fxOne / n) 0).toNat

/-- ln 2 in fixed point. -/
def fxLn2 : Nat := 2 * fxAtanh (fxOne / 3)

/-- Pi in fixed point (Machin's formula). -/
def fxPi : Nat := 16 * fxAtan 5 - 4 * fxAtan 239

/-- The exponential series, `w` holding the next term. -/
def expLoop (y : Nat) : Nat → Nat → Nat → Nat → Nat
  | 0, _, _, acc => acc
  | n + 1, k, w, acc => expLoop y n (k + 1) (w * y / fxOne / (k + 1)) (acc + w)

/-- e^y in fixed point, 0 ≤ y < 1. -/
def fxExp (y : Nat) : Nat := expLoop y 110 0 fxOne 0

/-- The alternating sine series, `w` holding the next term. -/
def sinLoop (y2 : Nat) : Nat → Nat → Nat → Int → Int
  | 0, _, _, acc => acc
  | n + 1, k, w, acc =>
    sinLoop y2 n (k + 1) (w * y2 / fxOne / ((2 * k + 2) * (2 * k + 3))) (if k % 2 = 0 then acc + w else acc - w)

/-- sin(pi * t) in fixed point for t in fixed point, 0 ≤ t ≤ 1/2. -/
def fxSinPi (t : Nat) : Nat :=
  let y := fxPi * t / fxOne
  (sinLoop (y * y / fxOne) 90 0 y 0).toNat

/-- m * 2^e in fixed point, rounded down. -/
def fxOf (m : Nat) (e : Int) : Nat := shiftDown m (e + fxBits)

/-- 1/sqrt x of a positive value, rounded down (R137). -/
def rsqOf (m : Nat) (e : Int) : Nat × Int × Bool :=
  let k : Int := e % 2
  let m := m * 2 ^ k.toNat
  let g := 64 + Nat.log2 m
  let r := isqrt (2 ^ (2 * g) / m)
  (r, -((e - k) / 2) - g, r * r * m != 2 ^ (2 * g))

/-- 2^x rounded down, x in [-400, 400] (R137). -/
def exp2Of (neg : Bool) (m : Nat) (e : Int) : Nat × Int × Bool :=
  let x : Int := if neg then -(fxOf m e : Int) else fxOf m e
  let n := x / fxOne
  let f := (x % fxOne).toNat
  if f = 0 then (1, n, false) else (fxExp (f * fxLn2 / fxOne), n - fxBits, true)

/-- log2 of a positive value, as a signed number rounded toward zero (R137). That of 1 is +0: the spec gives the exact zero no sign
(DESIGN CHOICE, log 4). -/
def log2Of (m : Nat) (e : Int) : Bool × Nat × Int × Bool :=
  let l := Nat.log2 m
  let n := e + l
  if m = 2 ^ l then (decide (n < 0), n.natAbs, 0, false)
  else
    let y := fxOf m (-l)
    let z := (y - fxOne) * fxOne / (y + fxOne)
    let fr := 2 * fxAtanh z * fxOne / fxLn2
    if 0 ≤ n then (false, n.toNat * fxOne + fr, -fxBits, true)
    else (true, (-n).toNat * fxOne - fr - 1, -fxBits, true)

/-- sin(pi x) of a magnitude that is neither an integer nor half of an odd one: sign and value (R137). -/
def sinPiOf (neg : Bool) (m : Nat) (e : Int) : Bool × Nat × Int × Bool :=
  let r := fxOf m e % (2 * fxOne)
  let flip := decide (fxOne ≤ r)
  let r := r % fxOne
  let t := if 2 * r ≤ fxOne then r else fxOne - r
  (xor neg flip, fxSinPi t, -fxBits, true)

/-- tanh of a positive value, rounded down (R137). -/
def tanhOf (m : Nat) (e : Int) : Nat × Int × Bool :=
  let x := fxOf m e
  if 64 * fxOne ≤ x then (fxOne - 1, -fxBits, true)
  else
    let y := 2 * x
    let k := y / fxLn2
    let q := fxOne * fxOne / fxExp (y - k * fxLn2) / 2 ^ k
    ((fxOne - q) * fxOne / (fxOne + q), -fxBits, true)

/-- Which of the six functions. -/
inductive Fn where
  | rsq | exp2 | log2 | sin | cos | tanh
deriving DecidableEq, Repr

/-- The number a function has for the free value (DESIGN CHOICE, log 4). -/
def Fn.num : Fn → Nat
  | .rsq => 0 | .exp2 => 1 | .log2 => 2 | .sin => 3 | .cos => 4 | .tanh => 5

/-- Whether m * 2^e is an integer. -/
def isInteger (m : Nat) (e : Int) : Bool := decide (0 ≤ e) || m % 2 ^ (-e).toNat == 0

/-- FRSQ, FEXP2, FLOG2, FSIN, FCOS and FTANH of a code (R137, R138). -/
def fnCode (fn : Fn) (t : Ty) (sat ftz : Bool) (code : Nat) : Nat :=
  let f := fty t
  let up := Config.upperNeighbour fn.num t ftz (BitVec.ofNat 32 (code % (2 * f.sign)))
  let pick := fun (neg : Bool) (m : Nat) (e : Int) (st : Bool) =>
    if m = 0 then signed f neg 0 else neighbour t sat ftz neg m e st up
  match dec t ftz code with
  | .nan => f.nan
  | .inf n =>
    match fn with
    | .rsq => if n then f.nan else 0
    | .exp2 => if n then 0 else infCode t false
    | .log2 => if n then f.nan else infCode t false
    | .sin | .cos => f.nan
    | .tanh => signed f n (oneCode t)
  | .fin n m e =>
    if m = 0 then
      match fn with
      | .rsq => infCode t n
      | .exp2 | .cos => oneCode t
      | .log2 => infCode t true
      | .sin | .tanh => signed f n 0
    else
      match fn with
      | .rsq => if n then f.nan else let (a, b, st) := rsqOf m e; pick false a b st
      | .exp2 =>
        if 400 * fxOne ≤ fxOf m e then (if n then pick false 1 (-400) true else overflowCode t false sat)
        else let (a, b, st) := exp2Of n m e; pick false a b st
      | .log2 => if n then f.nan else let (g, a, b, st) := log2Of m e; pick g a b st
      | .sin =>
        if isInteger m e then signed f n 0
        else if isInteger m (e + 1) then
          signed f (xor n (fxOf m e / fxOne % 2 == 1)) (oneCode t)
        else let (g, a, b, st) := sinPiOf n m e; pick g a b st
      | .cos =>
        if isInteger m e then signed f (shiftDown m e % 2 == 1) (oneCode t)
        else if isInteger m (e + 1) then 0
        else
          let (g, a, b, st) := sinPiOf false (fxOf m e + fxOne / 2) (-fxBits)
          pick g a b st
      | .tanh => let (a, b, st) := tanhOf m e; pick n a b st

/-! ### Conversions (R139, R140) -/

/-- A value of a type in an operand's bits: integers by R90. -/
def tyInt (t : Ty) (x : DWord) : Int :=
  if t.isSigned then (x.setWidth t.width).toInt else (x.setWidth t.width).toNat

/-- The clamp of a converted integer (R139): NaN gives 0, an infinity the bound of its sign. -/
def fToInt (td : Ty) (rm : Rm) (x : FVal) : Draw Int := fun s =>
  match x with
  | .nan => (0, s)
  | .inf n => (if n then tyMin td else tyMax td, s)
  | .fin n m e => let (i, s) := rintOf rm n m e s; (satTo td i, s)

/-- One conversion (R139): the bits written. -/
def convert (td ts : Ty) (rm : Rm) (sat ftz : Bool) (x : DWord) : Val := fun s =>
  if ts.isFloat then
    let v := dec ts ftz x.toNat
    if td.isFloat then let (c, s) := roundTo td rm sat ftz v s; (BitVec.ofNat 64 c, s)
    else let (i, s) := fToInt td rm v s; (putBits td i, s)
  else
    let n := tyInt ts x
    if td.isFloat then let (c, s) := roundTo td rm sat ftz (finOf n 0 false) s; (BitVec.ofNat 64 c, s)
    else (putBits td (fitTo td sat n), s)

/-- A block decode (R140): element code and scale word to a float type; M[0] flushes only the result. -/
def blockDecode (td ts : Ty) (rm : Rm) (ftz : Bool) (code : Nat) (sw : Word) : Val := fun s =>
  let (c, s) := roundTo td rm false ftz (blockValue ts code sw) s
  (BitVec.ofNat 64 c, s)

end Sys2Proof.Machine
end

