-- ==== Sys2Proof/Machine/Access.lean ====
section
/-! DEFINITION. Single accesses of the phase machine (11_ordering R165-R169, R172, R175): the store buffer, the caches
an access passes (10_memory R159-R162, 20 R326, R328), what a plain load may return, drains, atomics, scratchpad
accesses, and the checks of 12 R190. -/

namespace Sys2Proof.Machine

/-! ### Splitting (R168) -/

/-- The largest of 8, 4, 2, 1 that divides both an address and a size: a misaligned or 16-byte access is this many
single-copy accesses of it (R168). -/
def unitOf (va n : Nat) : Nat :=
  if va % 8 = 0 ∧ n % 8 = 0 then 8 else if va % 4 = 0 ∧ n % 4 = 0 then 4
  else if va % 2 = 0 ∧ n % 2 = 0 then 2 else 1

/-- The single-copy accesses of an access: address, and offset within it. -/
def unitsOf (va n : Nat) : List (Nat × Nat) :=
  (List.range (n / unitOf va n)).map fun i => (va + i * unitOf va n, i * unitOf va n)

/-- Whether two byte runs overlap. -/
def overlap (a n b m : Nat) : Bool := decide (a < b + m) && decide (b < a + n)

/-! ### The store buffer (R165, R169) -/

/-- The newest store-buffer value of a home byte (R165). -/
def bufferByte (es : List Entry) (a : Nat) : Option Byte :=
  match es.reverse.find? fun e => decide (e.p.home ≤ a) && decide (a < e.p.home + e.p.size) with
  | some e => some (BitVec.ofNat 8 (e.data.toNat / 256 ^ (a - e.p.home)))
  | none => none

/-- The cells an entry writes. -/
def Entry.cells (e : Entry) : List Host.Cell := cellsOf e.p.home (leBytes e.p.size e.data.toNat)

/-- Whether entry `k` is the oldest for its bytes (R166). -/
def oldestEntry (es : List Entry) (k : Nat) : Bool :=
  match es[k]? with
  | some e => (es.take k).all fun x => !overlap x.p.home x.p.size e.p.home e.p.size
  | none => false

/-! ### Homes (R160) -/

/-- The home slice of an address (R160). -/
def sliceOf (pa : Nat) : Nat :=
  let c := pa / 4096 % 128
  if c < 96 then c else (c - 96) + 32 * (pa / 2 ^ 23 % 2 ^ 29 % 3)

/-- The L2 set of an address (R160). -/
def setOf (pa : Nat) : Nat := 32 * (pa / 2 ^ 19 % 16) + pa / 2 ^ 23 % 32

/-- The slice that holds a line or its print (R162). -/
def L2Line.slice (l : L2Line) : Nat :=
  match l.print with
  | none => sliceOf (l.line * 256)
  | some sec => 16 * sec + sliceOf (l.line * 256) % 16

/-! ### Stamps (R162) -/

/-- A core's stamp counter. -/
def State.coreStamp (s : State) (c : Nat) : BitVec 16 := (s.coreStamps.lookup c).getD 0

/-- A sector's stamp counter. -/
def State.sectorStamp (s : State) (c : Nat) : BitVec 16 := (s.sectorStamps.lookup c).getD 0

/-- Whether a fill stamp is no older than a refresh stamp (R162). -/
def fresh (fill refresh : BitVec 16) : Bool := (fill - refresh).toNat < 2 ^ 15

/-- The print without the quarters that are 2^14 advances old (R162). -/
def L2Line.aged (l : L2Line) (t : BitVec 16) : L2Line :=
  { l with quarters := l.quarters.filter fun q => (t - q.2).toNat < 2 ^ 14 }

/-- Advances a core's and its sector's counters by one, drops what of the sector's prints has become 2^14 advances old, and
records both as the block's refresh stamps (R162). -/
def State.advanceStamps (s : State) (u core : Nat) : State :=
  let sec := Config.sectorOf core
  let c := s.coreStamp core + 1
  let t := s.sectorStamp sec + 1
  let kept := s.l2.filterMap fun l =>
    if l.print == some sec then (if (l.aged t).quarters.isEmpty then none else some (l.aged t)) else some l
  let s := { s with
    coreStamps := (core, c) :: s.coreStamps.filter (·.1 != core)
    sectorStamps := (sec, t) :: s.sectorStamps.filter (·.1 != sec)
    l2 := kept }
  s.modBlock u fun b => { b with stampC := c, stampS := t }

/-! ### Free numbers (DESIGN CHOICE, log 3) -/

/-- A fresh free number (DESIGN CHOICE, log 3). -/
def State.draw (s : State) : Nat × State := (Config.freeNat s.draws, { s with draws := s.draws + 1 })

/-- `n` bytes that nothing decides (DESIGN CHOICE, log 3). -/
def State.freeBytes (s : State) (n : Nat) : State × List Byte :=
  ({ s with draws := s.draws + n }, (List.range n).map fun i => BitVec.ofNat 8 (Config.freeNat (s.draws + i)))

/-! ### Lines of the L2 (R152, R159, R326, R328, R366) -/

/-- The line a fill takes the place of, of lines that stand least recently used first: one to be evicted early, or else one
that is not to be retained ahead of the others (12 R188). -/
def evictee {α : Type} (hint : α → Hint) (ls : List α) : Option α :=
  ((ls.find? (hint · == .first)).or (ls.find? (hint · != .keep))).or ls.head?

/-- The home line of an address. -/
def State.lineOf (s : State) (pr : Option Nat) (a : Nat) : Option L2Line :=
  s.l2.find? fun l => l.print == pr && l.line == a / 256

/-- What a quarter holds as it is filled through a slot: the plaintext of what was written there, and the rest as the controller decrypts
it (R326). -/
def State.fillOf (s : State) (slot a : Nat) : Filled :=
  let at_ := fun i => a / 64 * 64 + i
  ⟨a / 64 % 4, slot, s.material slot a, s.now, s.qkeys.length,
    if s.uniform slot (a / 64) then []
    else (List.range 64).map fun i => s.readVia ((s.slotLine slot a).any (·.wrote (at_ i))) none slot s.now (at_ i)⟩

/-- What a line holds of a quarter that is filled in it: of one that stood there under the slot's material, what stood there; a print,
what the home line holds (R162, R326). -/
def State.filledAt (s : State) (pr : Option Nat) (slot a : Nat) (ms : List Filled) : List Filled :=
  let own := (ms.find? (·.q == a / 64 % 4)).filter (·.key == s.material slot a)
  let home := if pr.isNone then none else (s.slotLine slot a).bind (·.filled a)
  ((own.or home).getD (s.fillOf slot a)) :: ms.filter (·.q != a / 64 % 4)

/-- What a line holds after bytes of it are written: of a quarter that is not all under the slot's material, what it decrypts to
(R326). -/
def State.writtenAt (s : State) (slot line : Nat) (mask : BitVec 256) (ms : List Filled) : List Filled :=
  (List.range 4).foldl (fun ms q =>
    let a := 256 * line + 64 * q
    if mask.extractLsb' (64 * q) 64 == 0 || ms.any (·.q == q) || s.uniform slot (a / 64) then ms else s.fillOf slot a :: ms) ms

/-- A quarter of a line as its write-back leaves it in memory: the controller merges the bytes that were written into what it decrypts
under the key that the slot holds now (R159, R326, 25 R406; DESIGN CHOICE, log 10). -/
def State.mergedRun (s : State) (l : L2Line) (q : Nat) : KeyRun :=
  let b := 256 * l.line + 64 * q
  let m := s.material l.key b
  ⟨s.qkeys.length, b, 64, s.now, m, (List.range 64).map fun i =>
    s.readVia (l.wrote (b + i)) ((l.filled b).filter (·.key == m)) l.key s.now (b + i)⟩

/-- The written bytes of a line, and no others, go to memory, under the key its slot holds now (R159, R326, 25 R406); the host can now
acknowledge those of its own memory (24 R395). -/
def State.writeBack (s : State) (l : L2Line) : State :=
  let qs := (List.range 4).filter fun q => l.mask.extractLsb' (64 * q) 64 != 0 && !s.uniform l.key (4 * l.line + q)
  { s with
    qkeys := qs.map (s.mergedRun l) ++ s.qkeys
    hostReqs := if l.print == none then s.hostReqs.map fun r => if r.home / 256 == l.line then { r with sent := true } else r
      else s.hostReqs }

/-- A line leaves the L2. -/
def State.dropL2 (s : State) (l : L2Line) : State :=
  let s := s.writeBack l
  { s with l2 := s.l2.filter (· != l) }

/-- Allocates a line in the L2, in the least recently used way of the function's mask; a set whose usable ways are all
pinned, and an empty mask, allocate nothing (R366, R270). -/
def State.l2Fill (s : State) (e : L2Line) : State :=
  let same := fun (l : L2Line) => l.slice == e.slice && setOf (l.line * 256) == setOf (e.line * 256)
  let ways := (s.func e.owner).ways
  let usable := (List.range 16).filter fun w => ways.getLsbD w
  match usable.find? fun w => !s.l2.any fun l => same l && l.way == w with
  | some w => { s with l2 := { e with way := w } :: s.l2 }
  | none =>
    match evictee (·.hint) (s.l2.reverse.filter fun l => same l && usable.contains l.way && l.pins == []) with
    | some v =>
      let s := s.dropL2 v
      { s with l2 := { e with way := v.way } :: s.l2 }
    | none => s

/-- An access to one quarter of a home line or a print: it is filled where it is absent, or, with a mask, bytes of it are
written. What fills or writes leaves its seal on the line. A line under another key goes to memory first, and is filled again
(R159, R326, R328). Of several accesses, the latest one's hint is the line's (12 R188; DESIGN CHOICE, log 15). -/
def State.l2Access (s : State) (pr : Option Nat) (vf key sl a : Nat) (mask : BitVec 256) (h : Hint) (stamp : BitVec 16) : State :=
  let q := a / 64 % 4
  let mats := fun (s : State) (fills : Bool) ms =>
    if mask == 0 then (if fills then s.filledAt pr key a ms else ms) else s.writtenAt key (a / 256) mask ms
  let make := fun (s : State) => s.l2Fill
    ⟨pr, a / 256, if mask == 0 then [(q, stamp)] else [], mats s true [], mask, 0, vf, sl, key,
      if mask == 0 then s.now else s.now + 1, h, []⟩
  match s.lineOf pr a with
  | none => make s
  | some l =>
    if l.key != key then make (s.dropL2 l)
    else
      let had := l.quarters.any (·.1 == q)
      let new : L2Line := { l with
        quarters := if mask == 0 && !had then (q, stamp) :: l.quarters else l.quarters
        mats := mats s (!had) l.mats
        mask := l.mask ||| mask
        sealId := if mask == 0 && had then l.sealId else sl
        hint := h }
      { s with l2 := new :: s.l2.filter (· != l) }

/-- The lines that a run of bytes touches: for each the first byte and how many there are. -/
def linesOf (a n : Nat) : List (Nat × Nat) :=
  (List.range ((a + n - 1) / 256 + 1 - a / 256)).map fun i =>
    let lo := max a (256 * (a / 256 + i))
    (lo, min (a + n) (256 * (a / 256 + i) + 256) - lo)

/-- A write of a run passes the L2, which allocates its lines (R152, R159). -/
def State.l2Write (s : State) (vf : Nat) (p : Piece) (h : Hint) : State :=
  (linesOf p.home p.size).foldl (fun s x =>
    s.l2Access none vf p.key p.sealId x.1 (BitVec.ofNat 256 (2 ^ x.2 - 1) <<< (x.1 % 256)) h 0) s

/-- The quarters that a run of bytes touches, by their first byte. -/
def quartersOf (a n : Nat) : List Nat := (List.range ((a + n - 1) / 64 + 1 - a / 64)).map fun i => 64 * (a / 64 + i)

/-- Whether the home line of an address holds these bytes of it under a key slot: a read of them is a hit (R159, R326). -/
def State.l2Hit (s : State) (key a : Nat) (need : List Nat) : Option L2Line :=
  (s.lineOf none a).filter fun l => l.key == key && need.all l.has

/-- A read of bytes of one quarter of a home line: a hit only touches the line, and a miss fills the quarter (R159). -/
def State.l2Get (s : State) (vf key sl a : Nat) (need : List Nat) (h : Hint) (stamp : BitVec 16) : State :=
  match s.l2Hit key a need with
  | some l => { s with l2 := { l with hint := h } :: s.l2.filter (· != l) }
  | none => s.l2Access none vf key sl a 0 h stamp

/-- The bytes of a run in the quarter of an address. -/
def runIn (lo n a : Nat) : List Nat := ((List.range n).map (lo + ·)).filter fun x => x / 64 == a / 64

/-- A read of a run at home passes the L2, which is filled by quarter (R152, R159). -/
def State.l2Read (s : State) (vf core : Nat) (p : Piece) : State :=
  (quartersOf p.home p.size).foldl (fun s a =>
    s.l2Get vf p.key p.sealId a (runIn p.home p.size a) .none (s.sectorStamp (Config.sectorOf core))) s

/-- Dirty bytes of lines of the L2 go to memory; the lines stay (R159, 21 R353, 24 R395, 25 R403). -/
def State.cleanL2 (s : State) (mine : L2Line → Bool) : State :=
  let s := (s.l2.filter mine).foldl State.writeBack s
  { s with l2 := s.l2.map fun l => if mine l then { l with mask := 0 } else l }

/-- Writes bytes at home for a function, through the L2 (R152, R179). -/
def State.writeThrough (s : State) (vf : Nat) (p : Piece) (bs : List Byte) : State :=
  (s.l2Write vf p .none).writeHome p.key (cellsOf p.home bs)

/-! ### Drains (R166, R170, R171, R175) -/

/-- Writes of a run of host memory for a block are to be acknowledged by the host, which it can do once they are not held in the L2 any
more (24 R395). -/
def State.owesHost (s : State) (u home n : Nat) (c : HostCause) : State :=
  if home < hostBase then s
  else (linesOf home n).foldl (fun (s : State) x =>
    let dirty := (s.lineOf none x.1).any fun l => (List.range x.2).any fun i => l.wrote (x.1 + i)
    { s with hostReqs := s.hostReqs ++ [⟨u, x.1, c, s.hostNo, !dirty⟩], hostNo := s.hostNo + 1 }) s

/-- Drains one entry: its values go home, through the L2 with the hint of its store, and the block's refresh point for its bytes
moves there (R166, 12 R188). The L2 slice is the home of a host-tier entry; the host's own acknowledgement of it stays outstanding
(24 R395). -/
def State.drainAt (s : State) (u k : Nat) : State :=
  match s.block? u with
  | none => s
  | some b =>
    match b.storeBuf[k]? with
    | none => s
    | some e =>
      let s := (s.l2Write b.vf e.p e.hint).writeHome e.p.key e.cells
      let s := s.modBlock u fun b =>
        { b with
          storeBuf := b.storeBuf.eraseIdx k
          refreshAt := (e.cells.map fun c => (c.1, s.now)) ++ b.refreshAt.filter fun r => !e.cells.any (·.1 == r.1) }
      s.owesHost u e.p.home e.p.size .drain

/-- The runs that a forced drain of a run takes in from entries, oldest first: its own, and those of entries that overlap a run taken
in from younger ones, since an entry drains only as the oldest for its bytes (R166, R169). -/
def forcedRuns (a n : Nat) (es : List Entry) : List (Nat × Nat) :=
  es.foldr (fun e rs => if rs.any fun r => overlap e.p.home e.p.size r.1 r.2 then (e.p.home, e.p.size) :: rs else rs) [(a, n)]

/-- The oldest entry that a forced drain of a run drains. -/
def forcedIdx (a n : Nat) (es : List Entry) : Option Nat :=
  (List.range es.length).find? fun k => match es[k]? with
    | some e => (forcedRuns a n (es.drop (k + 1))).any fun r => overlap e.p.home e.p.size r.1 r.2
    | none => false

/-- Drains entries, each the oldest for its bytes, until none holds any of the bytes (R166, R175). -/
def State.drainOver (u a n : Nat) : Nat → State → State
  | 0, s => s
  | fuel + 1, s =>
    match s.block? u with
    | none => s
    | some b =>
      match forcedIdx a n b.storeBuf with
      | some k => State.drainOver u a n fuel (s.drainAt u k)
      | none => s

/-- Drains every entry that holds any of the bytes, and the older ones in their way (R166, R175). -/
def State.drainRun (s : State) (u a n : Nat) : State :=
  match s.block? u with
  | some b => State.drainOver u a n b.storeBuf.length s
  | none => s

/-- Drains the first `n` entries of a store buffer, oldest first (R170, R171). -/
def State.drainFirst (u : Nat) : Nat → State → State
  | 0, s => s
  | n + 1, s => State.drainFirst u n (s.drainAt u 0)

/-! ### Lines of an L1 (R155, R159, R162, 14 R221) -/

/-- The SRAM units of a core that its blocks hold as scratchpad (R155). -/
def State.heldUnits (s : State) (core : Nat) : List Nat := (s.blocks.filter (·.core == core)).flatMap (·.units)

/-- The units that form a core's L1: each is one way (R155). -/
def State.l1Ways (s : State) (core : Nat) : List Nat := (List.range 12).filter fun w => !(s.heldUnits core).contains w

/-- The dirty bytes of a line go home: the entries that the blocks of its core hold for it, but for those of a storing block
(R159). -/
def State.cleanLine (s : State) (core line : Nat) (but : Option Nat) : State :=
  (s.blocks.filter fun b => b.core == core && some b.uid != but).foldl (fun (s : State) b => s.drainRun b.uid (256 * line) 256) s

/-- A line leaves an L1: its dirty bytes are written home first (R155, R159). -/
def State.dropL1 (s : State) (l : L1Line) : State :=
  let s := s.cleanLine l.core l.line none
  { s with l1 := s.l1.filter (· != l) }

/-- Allocates a line in a core's L1. A full set evicts a line, which the victim tag array records, dropping the oldest of 256: one to
be evicted early, if there is one, and else of the machine's own choice (R155, R159, 12 R188, 14 R221; DESIGN CHOICE, log 15). -/
def State.l1Alloc (s : State) (e : L1Line) : State :=
  let set := s.l1.filter fun l => l.core == e.core && l.line % 128 == e.line % 128
  match (s.l1Ways e.core).find? fun w => !set.any (·.way == w) with
  | some w => { s with l1 := { e with way := w } :: s.l1 }
  | none =>
    let early := set.filter (·.hint == .first)
    let set := if early.isEmpty then set else early
    let (n, s) := s.draw
    match set[n % set.length]? with
    | none => s
    | some v =>
      let s := s.dropL1 v
      let mine := (s.victims.filter (·.core == e.core)).take 255
      { s with
        l1 := { e with way := v.way } :: s.l1
        victims := ⟨e.core, v.line, v.quad, v.slot⟩ :: mine ++ s.victims.filter (·.core != e.core) }

/-- Fills a quarter into a core's L1, with what it holds (R159, R162, R326). -/
def State.l1Fill (s : State) (core a quad slot : Nat) (stamp : BitVec 16) (e : Filled) (h : Hint) : State :=
  let q := a / 64 % 4
  match s.l1.find? fun l => l.core == core && l.line == a / 256 with
  | some l =>
    let new := { l with
      quarters := (q, stamp) :: l.quarters.filter (·.1 != q), mats := e :: l.mats.filter (·.q != q), hint := h }
    { s with l1 := new :: s.l1.filter (· != l) }
  | none => s.l1Alloc ⟨core, a / 256, 0, [(q, stamp)], [e], h, quad, slot⟩

/-- What a quarter holds where a slot reads it: what the slot's home line holds, or what it is filled with (R326). -/
def State.homeView (s : State) (slot a : Nat) : Filled := ((s.slotLine slot a).bind (·.filled a)).getD (s.fillOf slot a)

/-- A store's line stands in its core's L1, allocated without a fetch (R159). -/
def State.l1Store (s : State) (core line quad slot : Nat) (h : Hint) : State :=
  match s.l1.find? fun l => l.core == core && l.line == line with
  | some l => { s with l1 := { l with hint := h } :: s.l1.filter (· != l) }
  | none => s.l1Alloc ⟨core, line, 0, [], [], h, quad, slot⟩

/-- Adds one entry to a store buffer: another block's dirty bytes of its line go home first, the line stands in the L1 but for
a hint against it, and a full buffer first drains its oldest entry (R159, R169, R349, 12 R188). -/
def State.addEntry (s : State) (u : Nat) (e : Entry) (h : Hint) : State :=
  match s.block? u with
  | none => s
  | some b =>
    let (quad, slot) := ((b.crews[e.crew]?).map fun c => (c.quad, c.slot)).getD (0, 0)
    let s := s.cleanLine b.core (e.p.home / 256) (some u)
    let s := if h == .nl1 then s else s.l1Store b.core (e.p.home / 256) quad slot h
    let s := if Config.storeBufferCap ≤ b.storeBuf.length then s.drainAt u 0 else s
    s.modBlock u fun b => { b with storeBuf := b.storeBuf ++ [{ e with no := b.entered, hint := h }], entered := b.entered + 1 }

/-! ### Cache lines an access passes (R159, R162, 14 R221, 19 R310) -/

/-- The core cycle of a core's last halving of its scores. -/
def State.decayed (s : State) (core : Nat) : Nat := (s.decays.lookup core).getD 0

/-- How many halvings of a core's scores are due: one every 1,024 cycles (14 R221). -/
def State.halvings (s : State) (core : Nat) : Nat := (s.cyc - s.decayed core) / 1024

/-- A crew's locality score as it stands, with the halvings that are due (14 R221). -/
def State.scoreOf (s : State) (core : Nat) (c : Crew) : Nat := c.score / 2 ^ s.halvings core

/-- The scores of a core are halved, rounded down, as often as is due (14 R221). -/
def State.halve (s : State) (core : Nat) : State :=
  if s.halvings core = 0 then s
  else
    { s.mapBlocks fun b =>
        if b.core == core then { b with crews := b.crews.map fun c => { c with score := s.scoreOf core c } } else b with
      decays := (core, s.decayed core + 1024 * s.halvings core) :: s.decays.filter (·.1 != core) }

/-- A locality score rises when a load misses the L1 and matches an entry of its crew's slot in the victim tag array, which then
leaves the array (14 R221; DESIGN CHOICE, log 15). -/
def State.victimHit (s : State) (b : Block) (ci a : Nat) : State :=
  match (b.crews[ci]?).bind fun c => s.victims.find? fun v =>
      v.core == b.core && v.line == a / 256 && v.quad == c.quad && v.slot == c.slot with
  | some v =>
    { (s.halve b.core).modCrew b.uid ci fun c => { c with score := min 4095 (c.score + 64) } with
      victims := s.victims.filter (· != v) }
  | none => s

/-- Counts an L2 hit or miss (19 R310, 23 R386). -/
def State.countL2 (s : State) (counted : Bool) (vf event owner : Nat) : State :=
  if counted then s.count vf event (· == owner) else s

/-- Looks bytes of a quarter up in the L2: in a print the block may use, or else at home, where a miss fills the quarter (R159, R162,
R326). The line that held any of them, with the seal tag it had; one that denies the read is left as it is (R328; DESIGN CHOICE,
log 15). A quarter counts as held where every byte that is read of it was filled or written, at home under any key, and a print only
under the read's own (19 R310; DESIGN CHOICE, log 15). -/
def State.l2Lookup (s : State) (b : Block) (p : Piece) (need : List Nat) (home counted : Bool) (h : Hint) :
    State × Option L2Line :=
  let a := p.home
  let q := a / 64 % 4
  let sec := Config.sectorOf b.core
  let print := if home || sliceOf a / 16 == sec then none
    else (s.lineOf (some sec) a).filter fun l => l.key == p.key && l.quarters.any fun x => x.1 == q && fresh x.2 b.stampS
  match print with
  | some l => ({ s.countL2 counted b.vf 6 l.owner with l2 := l :: s.l2.filter (· != l) }, some l)
  | none =>
    let line := s.lineOf none a
    let s := match line.filter fun l => need.all l.has with
      | some l => s.countL2 counted b.vf 6 l.owner
      | none => s.countL2 counted b.vf 7 b.vf
    let met := line.filter fun l => l.key == p.key && need.any l.has
    (if met.all fun l => s.cleared b.part b.clr l.sealId then s.l2Get b.vf p.key p.sealId a need h (s.sectorStamp sec) else s, met)

/-- One lane's read of one quarter passes the caches: L1, then the L2; `home` reads go home at once, `.nl1` reads skip the L1. It
fills what it missed, and a read whose home lies in another sector may leave a print, by the slice's own choice (R159, R162, R188,
R310; DESIGN CHOICE, log 15). The second component is the line's seal tag when that denies the read, which then fills nothing
(R328), and the third what the L1 or the print that serves it holds (R326). `need` are the bytes of the quarter that the read is of. -/
def State.passCaches (s : State) (b : Block) (ci : Nat) (p : Piece) (need : List Nat) (home counted : Bool) (h : Hint) :
    State × Option Nat × Option Filled :=
  let a := p.home
  let q := a / 64 % 4
  let (quad, slot) := ((b.crews[ci]?).map fun c => (c.quad, c.slot)).getD (0, 0)
  let sec := Config.sectorOf b.core
  let near := !home && h != .nl1
  match (if near then s.l1.find? fun l => l.core == b.core && l.line == a / 256
      && l.quarters.any fun x => x.1 == q && fresh x.2 b.stampC else none) with
  | some l =>
    ({ s with l1 := { l with hint := h } :: s.l1.filter (· != l) }, none, l.mats.find? fun e => e.q == q && e.slot == p.key)
  | none =>
    let s := if near then s.victimHit b ci a else s
    let stampC := s.coreStamp b.core
    let stampS := s.sectorStamp sec
    let (s, served) := s.l2Lookup b p need home counted h
    match (served.map (·.sealId)).filter fun t => !s.cleared b.part b.clr t with
    | some t => (s, some t, none)
    | none =>
      let s :=
        if home || sliceOf a / 16 == sec || (served.bind (·.print)).isSome then s
        else
          let (n, s) := s.draw
          if n % 2 = 1 then
            let tag := ((s.lineOf none a).map (·.sealId)).getD p.sealId
            let old := s.lineOf (some sec) a
            let thin := fun (l : L2Line) => if some l == old then { l with quarters := l.quarters.filter (·.1 != q) } else l
            let s : State := { s with l2 := s.l2.map thin }
            s.l2Access (some sec) b.vf p.key tag a 0 h stampS
          else s
      let view := (served.filter (·.print.isSome)).bind (·.filled a)
      (if near then s.l1Fill b.core a quad slot stampC (view.getD (s.homeView p.key a)) h else s, none, view)

/-- The seal tag of a home line that holds any byte of an access, when it denies the access (R328). -/
def State.tagDenies (s : State) (part clr : Nat) (p : Piece) : Option Nat :=
  (linesOf p.home p.size).findSome? fun x =>
    match (s.lineOf none x.1).filter fun l => l.key == p.key && !s.cleared part clr l.sealId with
    | some l => if (List.range x.2).any fun i => l.has (x.1 + i) then some l.sealId else none
    | none => none

/-- Whether an access of a partition's clearance slot is denied, by its own seal or by the tag of the line it finds at
home: the seal, and whether it is the tag's (R76, R328, R329). -/
def State.denies (s : State) (part clr : Nat) (p : Piece) : Option (Nat × Bool) :=
  if !s.cleared part clr p.sealId then some (p.sealId, false)
  else (s.tagDenies part clr p).map fun t => (t, true)

/-! ### Plain loads (R168) -/

/-- The home time before which a read of a byte by a block's lane may not look: its refresh point and its coherence
floor (R165). -/
def Block.floorOf (b : Block) (l : Lane) (a : Nat) : Nat :=
  max (max b.refresh ((b.refreshAt.lookup a).getD 0)) ((l.floors.lookup a).getD 0)

/-- Whether a byte may be read as of a time: the position is at or after the block's refresh point and the lane's
floor (R168). -/
def State.mayRead (s : State) (b : Block) (l : Lane) (t a : Nat) : Bool :=
  decide (s.position (b.floorOf l a) a ≤ s.position t a)

/-- The home time a single-copy read takes its bytes at: the one picked, when every byte the store buffer does not
hold may be read as of it, and the newest otherwise (R168). No byte is read as of a time before its address had its backing
(R321, R323, R327). -/
def State.readTime (s : State) (b : Block) (l : Lane) (p : Piece) (pick : Nat) : Nat :=
  if s.now ≤ pick then s.now
  else if (List.range p.size).all (fun i =>
      (bufferByte b.storeBuf (p.home + i)).isSome || s.mayRead b l pick (p.home + i))
    && s.backedFrom b.asid p.va p.home .read pick == pick
  then pick else s.now

/-- A home byte at a time as a read gets it: from the copy that serves it, or from home (R326). -/
def State.readView (s : State) (view : Option Filled) (slot t a : Nat) : Byte :=
  match view with
  | some e => s.readVia false (some e) slot t a
  | none => s.readAt slot t a

/-- The bytes of a single-copy plain read at a home time: the block's own stores first, and what a copy that serves it holds (R168,
R326). -/
def State.plainBytes (s : State) (b : Block) (p : Piece) (view : Option Filled) (t : Nat) : List Byte :=
  (List.range p.size).map fun i =>
    match bufferByte b.storeBuf (p.home + i) with
    | some x => x
    | none => s.readView view p.key t (p.home + i)

/-- A lane's coherence floors after it has read or written bytes as of a time (R168, R198). -/
def Lane.raise (l : Lane) (t a n : Nat) : Lane :=
  { l with floors := ((List.range n).map fun i => (a + i, max t ((l.floors.lookup (a + i)).getD 0)))
      ++ l.floors.filter fun f => !(decide (a ≤ f.1) && decide (f.1 < a + n)) }

/-! ### Scratchpad (R172) -/

/-- The block whose scratchpad an access of a block reaches on a core: its own, or that of its group (R149, R150). -/
def State.scratchOn (s : State) (b : Block) (core : Nat) : Option Block :=
  if core == b.core then s.block? b.uid
  else (s.groupOf b).find? fun x => x.core == core && x.live

/-- The bytes of a scratchpad. -/
def Block.scratchBytes (b : Block) (a n : Nat) : List Byte := memBytes b.scratch a n

/-- Writes bytes of a scratchpad (R172). -/
def Block.scratchWrite (b : Block) (a : Nat) (bs : List Byte) : Block :=
  { b with scratch := memWrites b.scratch (cellsOf a bs) }

/-! ### Atomics (R175, R195) -/

/-- The integer an atomic's operand bits hold. -/
def accInt (z : Acc) (x : DWord) : Int :=
  match z with
  | .i32 => (bits x 0 32).toInt
  | .i64 => x.toInt
  | .n64 => x.toNat
  | _ => (bits x 0 32).toNat

/-- The new value an atomic writes (R195). -/
def atomNew (op : AtomOp) (z : Acc) (old v : DWord) : DWord :=
  let f := fun (isMax : Bool) => BitVec.ofNat 64 (fminmax .f32 false isMax (bits old 0 32).toNat (bits v 0 32).toNat)
  match op with
  | .add => old + v
  | .min => if accInt z v < accInt z old then v else old
  | .max => if accInt z old < accInt z v then v else old
  | .and => old &&& v
  | .or => old ||| v
  | .xor => old ^^^ v
  | .exch => v
  | .fadd =>
    BitVec.ofNat 64 (roundTo .f32 .rne false false
      (sumTerms .rne [dec .f32 false (bits old 0 32).toNat, dec .f32 false (bits v 0 32).toNat]) 0).1
  | .fmin => f false
  | .fmax => f true

/-! ### The checks of R190 -/

/-- How the checks of one lane's access end. -/
inductive Check where
  /-- its pieces, in ascending address -/
  | pass (ps : List Piece)
  | trap (c : Cause) (fault : Nat)
  | park (w : Park) (va : Nat)
deriving DecidableEq, Repr

/-- A piece from a translation. -/
def pieceOf (va size : Nat) (x : Xlat) : Piece :=
  ⟨va, x.home, size, x.key, x.sealId, x.tier, d1Base x.d1 * 4096, d1Limit x.d1 * 4096 + 4095⟩

/-- Translates the single-copy accesses of a global access, lowest first (R190). -/
def State.checkUnits (k : Ctx) (asid : Nat) (kind : AccKind) (size : Nat) :
    List (Nat × Nat) → State → List Piece → State × Check
  | [], s, ps => (s, .pass ps.reverse)
  | (va, _) :: us, s, ps =>
    match s.translate k.b.core (some k.c.quad) asid va size kind with
    | (s, .ok x) => State.checkUnits k asid kind size us s (pieceOf va size x :: ps)
    | (s, .fault c) => (s, .trap c va)
    | (s, .park w) => (s, .park w va)

/-- The checks of a global access of `n` bytes (R190). -/
def State.checkGlobal (s : State) (k : Ctx) (va n : Nat) (kind : AccKind) : State × Check :=
  if 2 ^ 56 ≤ va + n - 1 then (s, .trap .rangeMiss va)
  else State.checkUnits k k.b.asid kind (unitOf va n) (unitsOf va n) s []

/-- The virtual address of byte `o` of a lane's private area (10 R153). -/
def Block.privVa (b : Block) (l : Lane) (o : Nat) : Nat := b.priv + 4096 * l.oid.toNat + o

/-- Applies a failed check to a lane: it traps or parks, to issue the instruction again (R42, R70, R190). -/
def State.failCheck (s : State) (k : Ctx) (lane : Nat) : Check → State
  | .pass _ => s
  | .trap c f => s.trapAgain k lane c (BitVec.ofNat 64 f)
  | .park w va => (s.askResidency k.b k.ci lane va k.pc w).parkAgain k lane w

/-! ### Operations of a lane: denials, reads and stores as they perform (R76, R168, R169) -/

/-- The current block of a context. -/
def State.blockOf (s : State) (k : Ctx) : Block := (s.block? k.b.uid).getD k.b

/-- The current lane of a context. -/
def State.laneOf (s : State) (k : Ctx) (lane : Nat) : Option Lane := (s.crew? k.b.uid k.ci).bind fun p => p.2.lanes[lane]?

/-- The `oid` of a lane of a context. -/
def State.oidOf (s : State) (k : Ctx) (lane : Nat) : Word := ((s.laneOf k lane).map (·.oid)).getD 0

/-- A denial record for a lane's access (R76, R329). -/
def State.denyLane (s : State) (k : Ctx) (lane va : Nat) (write : Bool) (sl : Nat × Bool) : State :=
  s.denial k.b.part k.b.vf va (s.oidOf k lane) k.b.launch (.lane k.b.core) write sl.2 sl.1

/-- Whether the store buffer holds every byte of a piece. -/
def Block.buffered (b : Block) (p : Piece) : Bool :=
  (List.range p.size).all fun i => (bufferByte b.storeBuf (p.home + i)).isSome

/-- A quarter of a read that has passed the caches: the seal of a denial, or 0, and what the copy that serves it holds. -/
abbrev Passed := Nat × Nat × Option Filled

/-- Looks the quarters of a read's pieces up in the caches, each once (R310). -/
def State.passQuarters (s : State) (k : Ctx) (home counted : Bool) (h : Hint) (ps : List Piece) : State × List Passed :=
  let b := s.blockOf k
  let look := ps.filter fun p => s.cleared b.part b.clr p.sealId && !b.buffered p
  let bytes := (look.flatMap fun p => (List.range p.size).map (p.home + ·)).filter fun a => (bufferByte b.storeBuf a).isNone
  look.foldl (fun r p =>
    if r.2.any (·.1 == p.home / 64) then r
    else
      let (s, t, e) := r.1.passCaches b k.ci p (bytes.filter (· / 64 == p.home / 64)) home counted h
      (s, (p.home / 64, t.getD 0, e) :: r.2)) (s, [])

/-- One single-copy read of a load: its bytes, the lane's coherence floors after it, and the seal that denies it
(R76, R168, R192). -/
def State.readPiece (s : State) (k : Ctx) (lane : Nat) (home : Bool) (tags : List Passed) (p : Piece) (pick : Nat) :
    State × List Byte × Option (Nat × Bool) :=
  let b := s.blockOf k
  let (tag, view) := (tags.lookup (p.home / 64)).getD (0, none)
  if !s.cleared b.part b.clr p.sealId then (s, List.replicate p.size 0, some (p.sealId, false))
  else if tag ≠ 0 then (s, List.replicate p.size 0, some (tag, true))
  else
    match s.laneOf k lane with
    | none => (s, List.replicate p.size 0, none)
    | some l =>
      let t := if home then s.now else s.readTime b l p pick
      let bs := s.plainBytes b p view t
      let s := s.modLane k.b.uid k.ci lane fun l =>
        (List.range p.size).foldl (fun l i =>
          if (bufferByte b.storeBuf (p.home + i)).isSome then l else l.raise t (p.home + i) 1) l
      (s, bs, none)

/-- The single-copy reads of a load, one after another, each as of its pick (R168). -/
def State.readAll (k : Ctx) (lane : Nat) (home : Bool) (tags : List Passed) :
    List Piece → List Nat → State → State × List Byte × Option (Nat × Nat × Bool)
  | [], _, s => (s, [], none)
  | p :: ps, ts, s =>
    let (s, bs, r) := s.readPiece k lane home tags p (ts.headD s.now)
    let (s, more, r') := State.readAll k lane home tags ps ts.tail s
    (s, bs ++ more, (r.map fun x => (p.va, x)).or r')

/-- A lane's store takes effect: an entry for each piece, in ascending address; a denied one is dropped and logged (R76, R169). -/
def State.storePieces (s : State) (k : Ctx) (lane : Nat) (h : Hint) (ps : List (Piece × DWord)) : State :=
  let bad := ps.filterMap fun p => (s.denies k.b.part k.b.clr p.1).map fun d => (p.1.va, d)
  let s := ps.foldl (fun s p =>
    if (s.denies k.b.part k.b.clr p.1).isSome then s
    else s.addEntry k.b.uid ⟨p.1, p.2, s.oidOf k lane, k.ci, lane, k.pc, 0, h⟩ h) s
  match bad with
  | (va, sl) :: _ => s.denyLane k lane va true sl
  | [] => s

end Sys2Proof.Machine
end

