-- ==== Sys2Proof/Machine/Control.lean ====
section
/-! DEFINITION. The control instructions (06_control_integer R78-R89, 04_sweep R40, R48): one meaning for each. -/

namespace Sys2Proof.Machine

/-! ### Shared forms -/

/-- Every guard-true active lane leaves with the `wl` that `f` gives it (R34, R78). -/
def Crew.leaveTo (c : Crew) (g : Guard) (f : Lane → Word) : Crew := c.eachLane g fun _ l => l.leave (f l)

/-- Acts lane by lane, in ascending `lid`, on the whole state. -/
def State.forLanes (s : State) (ls : List (Nat × Lane)) (f : State → Nat → Lane → State) : State :=
  ls.foldl (fun s p => f s p.1 p.2) s

/-! ### The link stack (R40) -/

/-- Entries a lane's link stack holds. -/
def Lane.depth (l : Lane) : Nat := l.link.length + l.spilled

/-- The parts of a value that the pieces of a store write (R193). -/
def piecesOf (base x : Nat) (ps : List Piece) : List (Piece × DWord) :=
  ps.map fun p => (p, BitVec.ofNat 64 (x / 256 ^ (p.va - base) % 256 ^ p.size))

/-- A push of a return label and a transfer (R40, R81): an overflow or a fault of the spill leaves stack and `wl`
unchanged. -/
def State.call (s : State) (k : Ctx) (lane : Nat) (l : Lane) (target ret : Word) : State :=
  if l.depth = 264 then s.trapAgain k lane .linkOverflow (BitVec.ofNat 64 (k.b.privVa l 0))
  else if l.link.length < 8 then
    s.modLane k.b.uid k.ci lane fun l => { l with link := ret :: l.link }.leave target
  else
    let va := k.b.privVa l (4 * l.spilled)
    match s.checkGlobal k va 4 .write with
    | (s, .pass ps) =>
      (s.storePieces k lane .none (piecesOf va ((l.link.getLast?).getD 0).toNat ps)).modLane k.b.uid k.ci lane fun l =>
        { l with link := ret :: l.link.dropLast, spilled := l.spilled + 1 }.leave target
    | (s, r) => s.failCheck k lane r

/-- The earliest home time from which on a single-copy read may be made as of any time (R165, R168, R321). -/
def State.openFrom (s : State) (b : Block) (l : Lane) (p : Piece) : Nat :=
  s.backedFrom b.asid p.va p.home .read ((List.range p.size).foldl (fun t i =>
    if (bufferByte b.storeBuf (p.home + i)).isSome then t else max t (b.floorOf l (p.home + i))) 0)

/-- The home times the pieces of a refill are read as of: where the spec leaves the position open it is a free value (R168; DESIGN
CHOICE, log 3). -/
def State.refillPicks (b : Block) (l : Lane) : List Piece → State → State × List Nat
  | [], s => (s, [])
  | p :: ps, s =>
    let from_ := s.openFrom b l p
    let (n, s) := if s.now ≤ from_ then (s.now, s)
      else let (n, s) := s.draw; (from_ + n % (s.now + 1 - from_), s)
    let (s, ns) := State.refillPicks b l ps s
    (s, n :: ns)

/-- The private read of a refill: through the caches, and with the denial record and the coherence floors of any lane-private load
(R40, R76, 10 R153, R168). -/
def State.refill (s : State) (k : Ctx) (lane : Nat) (l : Lane) (ps : List Piece) : State × Word :=
  let (s, tags) := s.passQuarters k false false .none ps
  let (s, picks) := State.refillPicks (s.blockOf k) l ps s
  let (s, bs, r) := State.readAll k lane false tags ps picks s
  (match r with
    | some (va, sl) => s.denyLane k lane va false sl
    | none => s, BitVec.ofNat 32 (leNat bs))

/-- A pop into `wl` (R40, R82): a refill that faults leaves stack and `wl` unchanged. -/
def State.ret (s : State) (k : Ctx) (lane : Nat) (l : Lane) : State :=
  match l.link with
  | [] => s.trapAgain k lane .linkUnderflow 0
  | top :: rest =>
    if l.spilled = 0 then s.modLane k.b.uid k.ci lane fun l => { l with link := rest }.leave top
    else
      match s.checkGlobal k (k.b.privVa l (4 * (l.spilled - 1))) 4 .read with
      | (s, .pass ps) =>
        let (s, x) := s.refill k lane l ps
        s.modLane k.b.uid k.ci lane fun l => { l with link := rest ++ [x], spilled := l.spilled - 1 }.leave top
      | (s, r) => s.failCheck k lane r

/-! ### The instructions -/

/-- NOP (R80): no effect. -/
def execNop (g : Guard) (s : State) : Host.Outcome State Fault Refusal := issue (.nop g) (fun _ s => s) s

/-- GO (R80). -/
def execGo (g : Guard) (l : Word) (s : State) : Host.Outcome State Fault Refusal :=
  issue (.go g l) (fun k s => s.modCur k (·.leaveTo g fun _ => l)) s

/-- GOX (R80). -/
def execGox (g : Guard) (r : Reg) (s : State) : Host.Outcome State Fault Refusal :=
  issue (.gox g r) (fun k s => s.modCur k fun c => c.leaveTo g fun l => c.rd l r) s

/-- CALL (R81): pushes pc + W and wants L. -/
def execCall (g : Guard) (w : BitVec 16) (l : Word) (s : State) : Host.Outcome State Fault Refusal :=
  issue (.call g w l) (fun k s => s.forLanes (k.c.takers g) fun s i x =>
    s.call k i x l (k.pc + w.signExtend 32)) s

/-- CALLX (R81): pushes L and wants the value of r. -/
def execCallx (g : Guard) (r : Reg) (l : Word) (s : State) : Host.Outcome State Fault Refusal :=
  issue (.callx g r l) (fun k s => s.forLanes (k.c.takers g) fun s i x => s.call k i x (k.c.rd x r) l) s

/-- RET (R82). -/
def execRet (g : Guard) (s : State) : Host.Outcome State Fault Refusal :=
  issue (.ret g) (fun k s => s.forLanes (k.c.takers g) fun s i x => s.ret k i x) s

/-- DONE (R85): the lane finishes; a handler lane that ends without a verdict ends its origin as HKILL would (R335). -/
def execDone (g : Guard) (s : State) : Host.Outcome State Fault Refusal :=
  issue (.done g) (fun k s =>
    let s := s.modCur k (·.eachLane g fun _ l => { l with done := true, act := false })
    (s.forLanes (k.c.takers g) fun s i _ => s.passVerdict k.b.uid i .none).settle k.b.uid) s

/-- TRAP and BRK (R86): the fault address is k, and a resumed lane goes on after the instruction (R70). -/
def trapWith (i : Instr) (cause : Cause) (x : Word) (s : State) : Host.Outcome State Fault Refusal :=
  issue i (fun k s => s.forLanes (k.c.takers i.guard) fun s j l =>
    let p := s.after k i.len l.wl
    s.trapLane k j cause (x.setWidth 64) k.pc p.1 p.2) s

/-- TRAP (R86). -/
def execTrap (g : Guard) (x : Word) (s : State) : Host.Outcome State Fault Refusal :=
  trapWith (.trap g x) .trapInstr x s

/-- BRK (R86). -/
def execBrk (g : Guard) (x : Word) (s : State) : Host.Outcome State Fault Refusal :=
  trapWith (.brk g x) .breakpoint x s

/-- WANTC (R87): lanes neither done nor trapped whose `wl` is K. -/
def execWantc (g : Guard) (d : Reg) (x : Word) (s : State) : Host.Outcome State Fault Refusal :=
  issueAlu (.wantc g d x) false d (fun c _ =>
    pureVal (BitVec.ofNat 64 (c.lanes.countP fun l => l.counted && l.wl == x))) s

/-- The code lines a PREFI, PINI or UNPINI names: those from `line` on, as many as A says, within the code (R88). -/
def Ctx.namedLines (k : Ctx) (n : Reg) (line : BitVec 28) : List Nat :=
  let cnt := if n.isNone then 1 else (k.c.rd (k.c.lanes.headD (Lane.blank 0)) n).toNat
  (List.range (min cnt (k.b.nline - line.toNat))).map (· + line.toNat)

/-- Acts once for the crew, if some active lane's guard is true (R56). -/
def once (g : Guard) (f : Ctx → State → State) (k : Ctx) (s : State) : State :=
  if (k.c.takers g).isEmpty then s else f k s

/-- The translation of a code line, when its fetch would not fault (R88). -/
def State.lineX (s : State) (b : Block) (n : Nat) : Option Xlat :=
  match s.walkEntry b.core none b.asid (b.code + 128 * n) with
  | .error _ => none
  | .ok e =>
    match s.checkX b.asid e (b.code + 128 * n) .exec with
    | .ok x => some x
    | _ => none

/-! ### The instruction cache (R39, R48, R49) -/

/-- The home time before which no byte of a code image or table may be read: the launch was taken then, or the address got its
backing since (R49, R83, R321, R327; DEDUCED, log 36). -/
def State.codeFrom (s : State) (b : Block) (va home : Nat) : Nat := s.backedFrom b.asid va home .exec b.codeTime

/-- A line of a core's instruction cache that serves a code address (R39, R49). -/
def State.inIcache (s : State) (core key line since : Nat) : Option ILine :=
  s.icache.find? fun l => l.core == core && l.line == line && l.key == key && decide (since ≤ l.time)

/-- The home time a fill of the instruction cache reads a line as of: while the L2 holds the line that is open, and else it is the
newest (R49). -/
def State.fillTime (s : State) (x : Xlat) (since pick : Nat) : Nat :=
  match (s.lineOf none x.home).filter (·.key == x.key) with
  | some l => if max since l.since ≤ pick ∧ pick ≤ s.now then pick else s.now
  | none => s.now

/-- Puts a line into an instruction cache of 256 lines; a full one evicts one that no pin holds, of the machine's own choice (R39,
R48; DESIGN CHOICE, log 15). -/
def State.icachePut (s : State) (e : ILine) : State :=
  let keep := s.icache.filter fun l => !(l.core == e.core && l.line == e.line)
  let mine := keep.filter (·.core == e.core)
  if mine.length < 256 then { s with icache := e :: keep }
  else
    let loose := mine.filter fun l => !s.pins.any fun p => p.1 == e.core && p.2.2.2 / 2 == l.line
    let (n, s) := s.draw
    match loose[n % loose.length]? with
    | some v => { s with icache := e :: keep.filter (· != v) }
    | none => s

/-- The 256-byte line of a code address as a crew's core reads it: from the instruction cache, or from the L2, which fills it (R39,
R49). `since` is the time before which no byte of it may be read. -/
def State.codeLine (s : State) (b : Block) (va : Nat) (x : Xlat) (since pick : Nat) : State × List Byte :=
  match s.inIcache b.core x.key (x.home / 256) since with
  | some l => (s, l.data)
  | none =>
    let base := x.home / 256 * 256
    let t := s.fillTime x since pick
    let data := (List.range 256).map fun i => s.readAt x.key t (base + i)
    let s := s.l2Read b.vf b.core { pieceOf va 256 x with home := base }
    (s.icachePut ⟨b.core, x.home / 256, x.key, t, data⟩, data)

/-- Brings the line that holds line n of a block's code into its core's instruction cache, unless its fetch would fault or be
denied (R48, R88). Of a denial there is no record (R76; DESIGN CHOICE, log 15). -/
def State.requestLine (s : State) (b : Block) (n : Nat) : State :=
  match s.lineX b n with
  | some x =>
    if (s.denies b.part b.clr (pieceOf 0 128 x)).isSome then s
    else
      let since := s.codeFrom b (b.code + 128 * n) x.home
      let (t, s) := s.draw
      (s.codeLine b (b.code + 128 * n) x since t).1
  | none => s

/-- PREFI.ic (R48, R88): the lines come into the core's instruction cache. -/
def execPrefiIc (g : Guard) (n : Reg) (line : BitVec 28) (s : State) : Host.Outcome State Fault Refusal :=
  issue (.prefiIc g n line) (once g fun k s => (k.namedLines n line).foldl (fun s i => s.requestLine k.b i) s) s

/-- PREFI.l2 (R48, R88): the lines come into the L2. One that a seal denies is dropped with no record (R76; DESIGN CHOICE, log 15). -/
def execPrefiL2 (g : Guard) (n : Reg) (line : BitVec 28) (s : State) : Host.Outcome State Fault Refusal :=
  issue (.prefiL2 g n line) (once g fun k s =>
    (k.namedLines n line).foldl (fun s i =>
      match s.lineX k.b i with
      | some x => if (s.denies k.b.part k.b.clr (pieceOf 0 128 x)).isSome then s
        else s.l2Read k.b.vf k.b.core (pieceOf 0 128 x)
      | none => s) s) s

/-- The fetch lines pinned on a core, by where they stand: each counts once however many launches pin it (R48). -/
def State.pinned (s : State) (core : Nat) : List Nat := ((s.pins.filter (·.1 == core)).map (·.2.2.2)).dedup

/-- Pins a line of a block's code for its launch, and fills it if it is absent, within the limit of 128 on a core (R48, R88). One
whose fill a seal denies is pinned without it, and no denial is recorded (DESIGN CHOICE, log 15). -/
def State.pinLine (s : State) (b : Block) (n : Nat) : State :=
  match s.lineX b n with
  | none => s
  | some x =>
    let at_ := x.home / 128
    let here := s.pinned b.core
    if s.pins.any fun p => p.1 == b.core && p.2.1 == b.launch && p.2.2.1 == n then s
    else if here.contains at_ || decide (here.length < 128) then
      let s := s.requestLine b n
      { s with pins := (b.core, b.launch, n, at_) :: s.pins }
    else s

/-- PINI (R48, R88): pins the lines, up to 128 on a core. -/
def execPini (g : Guard) (n : Reg) (line : BitVec 28) (s : State) : Host.Outcome State Fault Refusal :=
  issue (.pini g n line) (once g fun k s => (k.namedLines n line).foldl (fun s i => s.pinLine k.b i) s) s

/-- UNPINI (R48, R88): releases this launch's pins on the lines. -/
def execUnpini (g : Guard) (n : Reg) (line : BitVec 28) (s : State) : Host.Outcome State Fault Refusal :=
  issue (.unpini g n line) (once g fun k s =>
    let ls := k.namedLines n line
    { s with pins := s.pins.filter fun p => !(p.1 == k.b.core && p.2.1 == k.b.launch && ls.contains p.2.2.1) }) s

/-- MOVS (R89). -/
def execMovs (g : Guard) (d : Reg) (r : SReg) (s : State) : Host.Outcome State Fault Refusal :=
  issue (.movs g d r) (fun k s => s.modCur k fun c =>
    if d.isS then c.putS g r.is64 d fun l => pureVal (s.special k 0 l r)
    else c.eachLane g fun i l => l.put r.is64 d (pureVal (s.special k i l r))) s

/-- GOT (R83): a bounded table jump; the table is read as it was when the launch was taken, or, where its address has got a new
backing since, as it was then (R320, R327). -/
def execGot (g : Guard) (r : Reg) (tbl : Word) (n w : BitVec 16) (s : State) : Host.Outcome State Fault Refusal :=
  issue (.got g r tbl n w) (fun k s => s.forLanes (k.c.takers g) fun s i l =>
    let x := (k.c.rd l r).toNat
    if x < n.toNat then
      let va := k.b.code + 4 * tbl.toNat + 4 * x
      match s.translate k.b.core (some k.c.quad) k.b.asid va 4 .exec with
      | (s, .ok p) =>
        let open_ := s.cleared k.b.part k.b.clr p.sealId
        let (s, tag, view) := if open_ then s.passCaches k.b k.ci (pieceOf va 4 p) ((List.range 4).map (p.home + ·)) false false .none
          else (s, none, none)
        if open_ && tag.isNone then
          let t := leNat ((List.range 4).map fun j => s.readView view p.key (s.codeFrom k.b va p.home) (p.home + j))
          s.modLane k.b.uid k.ci i (·.leave (BitVec.ofNat 32 t))
        else
          (s.denial k.b.part k.b.vf va l.oid k.b.launch (.lane k.b.core) false tag.isSome (tag.getD p.sealId)).modLane k.b.uid k.ci i
            (·.leave 0)
      | (s, .fault c) => s.trapAgain k i c (BitVec.ofNat 64 va)
      | (s, .park p) => (s.askResidency k.b k.ci i va k.pc p).parkAgain k i p
    else s.modLane k.b.uid k.ci i (·.leave (k.pc + w.signExtend 32))) s

end Sys2Proof.Machine
end

