-- ==== Sys2Proof/Machine/Queue.lean ====
section
/-! DEFINITION. The issue queue of a crew (11_ordering R165-R167, R172, R174): putting operations into it, which of
them may perform, which instructions wait for it, and the scratchpad moves that wake AWAIT (R184). -/

namespace Sys2Proof.Machine

/-! ### Putting operations into the queue (R166) -/

/-- Adds an operation of a lane to the issuing crew's queue. -/
def State.push (s : State) (k : Ctx) (lane : Nat) (w : OpKind) : State :=
  s.modCur k fun c => { c with queue := c.queue ++ [⟨c.ins, lane, k.pc, k.lab, w⟩] }

/-- Adds one operation for the crew, if some active lane's guard is true: it stands in the lowest such lane. -/
def State.pushOnce (s : State) (k : Ctx) (g : Guard) (w : OpKind) : State :=
  match k.c.takers g with
  | [] => s
  | p :: _ => s.push k p.1 w

/-- The context in which an operation of a crew issued. -/
def State.opCtx (s : State) (u ci : Nat) (o : Op) : Option Ctx :=
  match s.crew? u ci with
  | some (b, c) => some ⟨b, ci, c, o.lab, o.pc⟩
  | none => none

end Sys2Proof.Machine

namespace Sys2Proof

open Sys2Proof.Machine

/-- The registers an instruction writes when it performs rather than when it issues: the engine and system
instructions (R309, R371). -/
def Instr.late : Instr → List (Reg × Nat)
  | .mread _ i64 _ d _ _ => [(d, wide i64)]
  | .mstat _ d | .mstatLog _ d _ | .mstatExp _ _ d | .cstat _ d | .cstatClr _ d | .launch _ d _ _ => [(d, 2)]
  | .rsplit _ _ d _ _ _ | .rmerge _ d _ _ | .rcompact _ d _ _ _ | .netsave _ d _ _ | .netload _ d _ _
  | .cntcfg _ d _ _ _ | .sealset _ d _ _ => [(d, 1)]
  | .rprobe _ d _ _ q | .rprobeS2 _ d _ _ q => [(d, 8), (.q q, 1)]
  | _ => []

/-- The registers and predicates an instruction names, for the scoreboard (R104). -/
def Instr.named (i : Instr) : List (Reg × Nat) :=
  (.q i.guard.p, 1) :: i.regs ++ (match i with
    | .addc _ _ _ _ q | .subb _ _ _ _ q | .isel _ _ _ _ _ q | .ballot _ _ q
    | .rprobe _ _ _ _ q | .rprobeS2 _ _ _ _ q => [(.q q, 1)]
    | .icmp _ _ _ _ q _ _ c | .fcmp _ _ _ _ _ q _ _ c => [(.q q, 1), (c, 1)]
    | .matchI _ _ _ _ c | .take _ _ _ _ c => [(c, 1)]
    | .isect _ _ q _ _ _ c => [(.q q, 1), (c, 2)]
    | .qnt _ _ _ _ _ _ _ _ c => [(c, 2)]
    | .regroup q _ _ _ => [(.q q, 1)]
    | .vote _ _ d q => [(d, 1), (.q q, 1)]
    | _ => []) ++ (match i with
    | .vote _ _ d _ | .ballot _ d _ => [(d, 4)]
    | .matchI _ _ d _ _ => [(d, 4)]
    | .rprobe _ d a b _ | .rprobeS2 _ d a b _ => [(d, 8), (a, 1), (b, 2)]
    | .rmerge _ d a b | .netsave _ d a b | .netload _ d a b | .launch _ d a b
    | .sealset _ d a b => [(d, 2), (a, 2), (b, 2)]
    | .rsplit _ _ d a b c | .rcompact _ d a b c | .cntcfg _ d a b c => [(d, 2), (a, 2), (b, 2), (c, 2)]
    | .rinval _ _ a b c => [(a, 2), (b, 2), (c, 2)]
    | .mdesc _ _ _ _ _ a b => [(a, 2), (b, 2)]
    | .mstat _ d | .mstatExp _ _ d | .cstat _ d | .cstatClr _ d => [(d, 2)]
    | .mstatLog _ d a | .cntrd _ d a | .netcnt _ d a => [(d, 2), (a, 1)]
    | .netdrain _ a | .netreset _ a => [(a, 1)]
    | .xgrp _ _ a | .xgather _ _ _ _ a | .xrscat _ _ _ _ _ a | .xa2a _ _ _ _ a => [(a, 2)]
    | .hget _ d _ => [(d, 2)]
    | .hput _ _ a => [(a, 2)]
    | _ => [])

/-- Whether an instruction holds its crew until it has performed: the waits of R295 and R307, copy commands, which post
lane by lane (R289), collective instructions, whose faults trap when they perform (R305, R306), and the system
instructions (R371). -/
def Instr.holds : Instr → Bool
  | .mwait .. | .xwait .. | .cgather .. | .cscatter .. | .cscatadd .. | .ccopy .. | .cfill .. | .xgrp .. | .xgrpEnd ..
  | .xgather .. | .xrscat .. | .xa2a .. | .xbar .. | .rsplit .. | .rmerge .. | .rinval .. | .rprobe .. | .rprobeS2 ..
  | .rcompact .. | .netsave .. | .netload .. | .netdrain .. | .netreset .. | .launch .. | .cntcfg .. | .sealset .. => true
  | _ => false

/-- Whether an instruction orders by R371: it performs only after every earlier operation of its crew, at `.sys`. -/
def Instr.system : Instr → Bool
  | .rsplit .. | .rmerge .. | .rinval .. | .rprobe .. | .rprobeS2 .. | .rcompact .. | .netsave .. | .netload ..
  | .netdrain .. | .netreset .. | .launch .. | .cntcfg .. | .sealset .. => true
  | _ => false

/-- What reads the matrix unit and waits for nothing in it but earlier MWAITs (R181, R298). -/
def Instr.readsUnit : Instr → Bool
  | .mread .. | .mstat .. | .mstatLog .. | .mstatExp .. | .mstatClr .. => true
  | _ => false

/-- Whether lanes leave the instruction, as it issues, for the place after it: TRAP, BRK, and what leaves an implicit rewind point
(R70, R86, R210, R225, R308, R341, R389). -/
def Instr.leavesAfter : Instr → Bool
  | .trap .. | .brk .. | .regroup .. | .take .. | .atom .. | .cas .. | .red .. | .phasePub .. | .phaseRef .. | .phaseFull ..
  | .waitc .. | .bar | .barc | .awinit .. | .arrive .. | .await .. | .mdesc .. | .mzero .. | .mwrite .. | .mloop .. | .mstatClr ..
  | .mwait .. | .cgather .. | .cscatter .. | .cscatadd .. | .ccopy .. | .cfill .. | .cstatClr .. | .xgrp .. | .xgrpEnd ..
  | .xgather .. | .xrscat .. | .xa2a .. | .xbar .. | .xwait .. | .hinfo .. | .hget .. | .hput .. | .hresume .. | .hkill ..
  | .habort .. | .cntrd .. => true
  | i => i.system

/-- The same, when it performs. -/
def Instr.performsAfter : Instr → Bool
  | .mwait .. | .xwait .. | .xgrp .. | .xgrpEnd .. | .xgather .. | .xrscat .. | .xa2a .. | .xbar .. => true
  | i => i.system

/-- Whether two register runs meet. -/
def regsMeet (a b : Reg × Nat) : Bool :=
  match a.1, b.1 with
  | .v x, .v y => overlap x.toNat a.2 y.toNat b.2
  | .s x, .s y => overlap x.toNat a.2 y.toNat b.2
  | .q x, .q y => x == y && x != 0
  | _, _ => false

end Sys2Proof

namespace Sys2Proof.Machine

/-! ### What operations touch -/

/-- The registers an operation has still to write. -/
def OpKind.writes : OpKind → List (Reg × Nat)
  | .load z _ _ _ d | .spLoad z _ _ d | .atom _ z _ _ d | .cas z _ _ _ d => [(d, z.regs)]
  | .decode _ _ _ _ _ _ _ _ d => [(d, 1)]
  | .token _ _ w32 d c => [(d, wide (!w32)), (c, 1)]
  | .netcnt _ d => [(d, 2)]
  | .instr i _ => i.late
  | _ => []

/-- The bytes of an atomic's place. -/
def Place.bytes (p : Place) (z : Acc) : Option Nat × Nat × Nat :=
  match p with
  | .global p => (none, p.home, p.size)
  | .scratch core a => (some core, a, z.size)

/-- The bytes an operation accesses: the core whose scratchpad it is, or `none` for global memory; address; size.
`core` is the block's own. -/
def OpKind.bytes (core : Nat) : OpKind → List (Option Nat × Nat × Nat)
  | .load _ _ _ ps _ => ps.map fun p => (none, p.home, p.size)
  | .decode _ _ _ _ _ code scale _ _ => [(none, code.home, code.size), (none, scale.home, scale.size)]
  | .store _ ps => ps.map fun p => (none, p.1.home, p.1.size)
  | .spLoad z c a _ => [(some c, a, z.size)]
  | .spStore c a n _ => [(some c, a, n)]
  | .atom _ z p _ _ | .red _ z p _ | .cas z p _ _ _ => [p.bytes z]
  | .waitc _ _ p _ => [(none, p.home, p.size)]
  | .awinit a _ | .arrive a _ | .await a _ => [(some core, a, 8)]
  | _ => []

/-- Whether two operations' bytes overlap in one space. -/
def OpKind.meets (core : Nat) (x y : OpKind) : Bool :=
  (x.bytes core).any fun p => (y.bytes core).any fun q => p.1 == q.1 && overlap p.2.1 p.2.2 q.2.1 q.2.2

/-- The scratchpads an operation accesses, by core (R172). -/
def OpKind.cores (core : Nat) (x : OpKind) : List Nat := (x.bytes core).filterMap (·.1)

/-- An access to the scratchpad of another core of the group. -/
def OpKind.peer (core : Nat) (x : OpKind) : Bool := (x.cores core).any (· != core)

/-- Waiting instructions, fences, phases and what else holds the crew until it has performed (R41, R171, R174). -/
def OpKind.holds : OpKind → Bool
  | .waitc .. | .await .. | .bar | .barc | .fence _ | .phase .. | .sfence .. => true
  | .instr i _ => i.holds
  | _ => false

/-- The instructions whose lanes perform eighth by eighth, each evaluating its condition once (R41). -/
def OpKind.byEighth : OpKind → Bool
  | .waitc .. | .await .. | .bar | .barc => true
  | .instr (.mwait ..) _ | .instr (.xwait ..) _ => true
  | _ => false

/-- An atomic that returns a value (R174). -/
def OpKind.returns : OpKind → Bool
  | .atom .. | .cas .. => true
  | _ => false

/-- How many slots after an operation's instruction its lanes go to when it performs, if they do (R41). -/
def OpKind.afterLen : OpKind → Option Nat
  | .waitc .. | .await .. | .bar | .barc => some 1
  | .instr i _ => if i.performsAfter then some i.len else none
  | _ => none

/-- A plain store (R169). -/
def OpKind.isStore : OpKind → Bool
  | .store .. => true
  | _ => false

/-! ### May it perform (R167, R171, R172, R174, R178, R183, R201)? -/

/-- Whether the operations before a fence, as far as they have not performed, let a fence of a scope perform; for one of `.sys` they do
so but for what the host has still to acknowledge (R174, R395). -/
def State.fenceOk (s : State) (b : Block) (ci : Nat) (before : List Op) (sc : Scope) : Bool :=
  let mine := s.posted.any fun p => p.blk == b.uid && p.crew == ci
  match sc with
  | .crew | .block => before.all fun o => o.what.peer b.core && !o.what.returns
  | .clust | .part | .sys => before.isEmpty && !mine

/-- Whether the host has still to acknowledge writes, numbered below a mark, that a crew's FENCE.sys counts: what its block drained, and
its own REDs (R174, R395). -/
def State.unacknowledged (s : State) (u ci mark : Nat) : Bool :=
  s.hostReqs.any fun r => r.blk == u && decide (r.no < mark) && (match r.cause with
    | .drain => true
    | .red x => x == ci
    | .engine => false)

/-- What performs only once the host has acknowledged what came before it (R174, R371, R395). -/
def OpKind.atSys : OpKind → Bool
  | .fence .sys => true
  | .instr i _ => i.system
  | _ => false

/-- The commands a core's copy engine holds (R275). -/
def State.copySlots (s : State) (core : Nat) : Nat :=
  (s.blocks.filter (·.core == core)).foldl (fun n b => n + b.ccmds.length) 0

/-- Whether a lane of a crew is parked at an MWAIT that issued before an instruction: what issued after an MWAIT performs after it has
completed (R181). -/
def Crew.behindMwait (c : Crew) (ins : Nat) : Bool := c.lanes.any fun l => match l.park with
  | some (.mwait n ..) => l.parked && decide (n < ins)
  | _ => false

/-- An MFENCE that has not performed. -/
def OpKind.isMfence : OpKind → Bool
  | .instr (.mfence _) _ => true
  | _ => false

/-- Whether an engine or system instruction may perform, as far as its kind asks more than its place in the queue
(R178, R181, R264, R275, R298, R371). -/
def State.instrOk (s : State) (b : Block) (ci : Nat) (before : List Op) (i : Instr) : Bool :=
  let mine := s.posted.any fun p => p.blk == b.uid && p.crew == ci
  (i.readsUnit || before.all fun p => match p.what with
    | .instr j _ => j.readsUnit
    | _ => true)
  && if i.system then s.fenceOk b ci before .sys
     else match i with
      | .mfence _ => before.isEmpty && !mine && b.mcmds.all fun m => m.crew != ci || (match m.kind with
          | .mloop .. => false
          | _ => true)
      | .mread .. | .mwait .. | .xwait .. | .mstat .. | .mstatLog .. | .mstatExp .. | .mstatClr .. | .cstat .. | .cstatClr .. =>
        true
      | i => (before.all fun p => !(p.what.cores b.core).contains b.core)
        && (!i.matrixCmd || decide (b.mcmds.length < 8)) && (!i.copyCmd || decide (s.copySlots b.core < 16))

/-- Whether operation `n` of a crew's queue may perform (R167; a BARC by R148 and R174). While a lane is parked at an AWAIT, what other
lanes of its crew issue performs (R184; DESIGN CHOICE, log 43). -/
def State.mayPerform (s : State) (b : Block) (ci : Nat) (c : Crew) (n : Nat) : Bool :=
  match c.queue[n]? with
  | none => false
  | some o =>
    let before := (c.queue.take n).filter fun p => !(o.what.byEighth && p.ins == o.ins && p.lane / 16 == o.lane / 16)
    let mine := s.posted.filter fun p => p.blk == b.uid && p.crew == ci
    -- items 1 and 2
    (before.all fun p => !(p.lane == o.lane || p.ins == o.ins) || !p.what.meets b.core o.what)
    && (mine.all fun p => p.op.lane != o.lane || !p.op.what.meets b.core o.what)
    -- R193: the stores of one instruction in ascending lid
    && (!o.what.isStore || before.all fun p => p.ins != o.ins)
    -- R172: in issue order on one scratchpad
    && (before.all fun p => (p.what.cores b.core).all fun x => !(o.what.cores b.core).contains x)
    -- R181: after an MFENCE, and after an MWAIT
    && (before.all fun p => !p.what.isMfence || (o.what.bytes b.core).isEmpty)
    && !c.behindMwait o.ins
    -- R361: where its lanes go on is known
    && (o.what.afterLen.all fun n => (s.afterWaits b c o.pc n).isNone)
    && match o.what with
      | .fence sc => s.fenceOk b ci before sc
      | .bar | .arrive .. => s.fenceOk b ci (before.filter fun p => p.ins != o.ins) .block
      | .barc => s.fenceOk b ci (before.filter fun p => p.ins != o.ins) .clust
      | .phase _ _ mark => before.isEmpty && mine.isEmpty && (mark.isNone || b.unacked == 0)
      | .sfence .. => before.all fun p => (p.what.cores b.core).isEmpty
      -- R289: the commands of one instruction are accepted in ascending lid
      | .instr i _ => s.instrOk b ci (before.filter fun p => p.ins != o.ins) i
        && (!i.copyCmd || before.all fun p => p.ins != o.ins)
      | .token .. => false
      | _ => true

/-- The bytes at home of the link word that a call spills or a return refills in a lane, when it does and its address can be
translated now (R40). -/
def State.linkBytes (s : State) (b : Block) (l : Lane) (i : Instr) : Option (Nat × Nat) :=
  let k := match i with
    | .call .. | .callx .. => if l.link.length < 8 then none else some l.spilled
    | .ret _ => if l.spilled = 0 then none else some (l.spilled - 1)
    | _ => none
  match k with
  | none => none
  | some k =>
    let va := b.privVa l (4 * k)
    match s.walkEntry b.core none b.asid va with
    | .error _ => none
    | .ok e => match s.checkX b.asid e va .write with
      | .ok x => some (x.home, 4)
      | _ => none

/-- Whether an operation is a load or a store in a lane's private area. -/
def OpKind.inPrivate (b : Block) (l : Lane) : OpKind → Bool
  | .load _ _ _ ps _ => ps.any fun p => overlap p.va p.size (b.privVa l 0) 4096
  | .store _ ps => ps.any fun p => overlap p.1.va p.1.size (b.privVa l 0) 4096
  | _ => false

/-- Whether a call or a return waits for nothing: a spill or a refill performs after the earlier operations of its own lane that
touch the link word, posted ones among them, and a spill after all of its earlier lane-private accesses (R40, R78, R81, R167). -/
def State.linkFree (s : State) (b : Block) (ci : Nat) (c : Crew) (i : Instr) : Bool :=
  (c.takers i.guard).all fun p => match s.linkBytes b p.2 i with
    | none => true
    | some (a, n) =>
      let spill := match i with
        | .ret _ => false
        | _ => true
      let free := fun (o : Op) => o.lane != p.1 || ((o.what.bytes b.core).all fun x => x.1.isSome || !overlap x.2.1 x.2.2 a n)
        && !(spill && o.what.inPrivate b p.2)
      c.queue.all free && s.posted.all fun q => q.blk != b.uid || q.crew != ci || free q.op

/-- Whether an instruction may issue in a crew: nothing holds it, no register it names is still to be written (R104),
a REGROUP finds every earlier instruction's registers written (R224), and a matrix command finds the unit with room for it (R264,
R289). -/
def Block.mayIssue (b : Block) (c : Crew) (i : Instr) : Bool :=
  c.regroup.isNone && (c.queue.all fun o => !o.what.holds)
  && (c.queue.all fun o => o.what.writes.all fun w => i.named.all fun r => !regsMeet w r)
  && (match i with
      | .regroup .. => c.queue.all fun o => o.what.writes.isEmpty
      | i => !i.matrixCmd || decide (b.mcmds.length + b.crews.foldl (fun n x => n + x.queue.countP fun o => o.what.isMatrix) 0 < 8))

/-- Whether nothing in a crew's queue stands in the way of a save: an MFENCE holds no register back (R297, R343). -/
def Crew.queueStops (c : Crew) : Bool := c.queue.all fun o => o.what.isMfence

/-- Whether a pre-emption has stopped a block's matrix unit: it does so once the crews have stopped, with nothing left in their queues
that may wait for it (R273, R343). -/
def Block.unitStops (b : Block) : Bool := b.stopping && b.crews.all (·.queueStops)

/-- Takes operation `n` out of a crew's queue. -/
def State.unqueue (s : State) (u ci n : Nat) : State :=
  s.modCrew u ci fun c => { c with queue := c.queue.eraseIdx n }

/-! ### Scratchpad moves and arrival words (R172, R183, R184, 12 R207-R209) -/

/-- The generation of an arrival word. -/
def Block.genAt (b : Block) (a : Nat) : BitVec 16 := BitVec.ofNat 16 (leNat (b.scratchBytes (a + 6) 2))

/-- Wakes every lane of a block that waits for a generation other than the one its word now has (R184, R207). -/
def Block.wakeAwait (b : Block) : Block :=
  { b with crews := b.crews.map (·.unparkWhere fun w =>
      match w with
      | .await a gen => b.genAt a != gen
      | _ => false) }

/-- Whether a matrix command of a block has issued and not completed. -/
def Block.unitBusy (b : Block) : Bool := !b.mcmds.isEmpty || b.crews.any fun c => c.queue.any fun o => o.what.isMatrix

/-- While matrix commands are issued or pending, what a write of scratchpad bytes replaces stays on record (R181). -/
def Block.noteSp (b : Block) (a n : Nat) : Block :=
  if !b.unitBusy then b else { b with spLog := cellsOf a (b.scratchBytes a n) :: b.spLog }

/-- One move that writes bytes of a block's scratchpad. -/
def State.scratchStore (s : State) (u a : Nat) (bs : List Byte) : State :=
  s.modBlock u fun b => ((b.noteSp a bs.length).scratchWrite a bs).wakeAwait

/-- An arrival word after an addition (R208). -/
def arrivalAdd (w : DWord) (n : Nat) : DWord :=
  let count := (bits w 0 24).toNat + n
  let target := bits w 24 24
  if target.toNat ≤ count then (bits w 48 16 + 1) ++ target ++ (0 : BitVec 24)
  else bits w 48 16 ++ target ++ BitVec.ofNat 24 count

/-- The 64-bit word at a scratchpad offset. -/
def Block.scratchWord (b : Block) (a : Nat) : DWord := BitVec.ofNat 64 (leNat (b.scratchBytes a 8))

/-- Adds to an arrival word of a block, as one move (R183, R208). -/
def State.arriveAt (s : State) (u a n : Nat) : State :=
  match s.block? u with
  | some b => s.scratchStore u a (leBytes 8 (arrivalAdd (b.scratchWord a) n).toNat)
  | none => s

/-! ### Writing results when operations perform (R187) -/

/-- The registers a load's bytes make: sign-extended or zero-extended to 32 bits, a pair, or four (R187). -/
def loadWords (z : Acc) (bs : List Byte) : List Word :=
  let x := leNat bs
  match z with
  | .i8 => [(BitVec.ofNat 8 x).signExtend 32]
  | .i16 => [(BitVec.ofNat 16 x).signExtend 32]
  | .i64 | .n64 => [BitVec.ofNat 32 x, BitVec.ofNat 32 (x / 2 ^ 32)]
  | .b128 => [BitVec.ofNat 32 x, BitVec.ofNat 32 (x / 2 ^ 32), BitVec.ofNat 32 (x / 2 ^ 64), BitVec.ofNat 32 (x / 2 ^ 96)]
  | _ => [BitVec.ofNat 32 x]

/-- Writes consecutive registers from `d`, in the lane or, for a scalar destination, once for the crew (R56, R189). -/
def Crew.putWords (c : Crew) (lane : Nat) (d : Reg) (ws : List Word) : Crew :=
  if d.isS then ws.zipIdx.foldl (fun c p => c.wrS (d.plus p.2) p.1) c
  else c.modLane lane fun l => ws.zipIdx.foldl (fun l p => l.wr (d.plus p.2) p.1) l

/-- The registers from `d` on, joined, lowest first: the data of a store (R187). -/
def Crew.dataOf (c : Crew) (l : Lane) (d : Reg) (n : Nat) : BitVec 128 :=
  (List.range n).foldl (fun x i => x ||| ((c.rd l (d.plus i)).setWidth 128 <<< (32 * i))) 0

end Sys2Proof.Machine
end

