-- ==== Sys2Proof/Machine/MemOps.lean ====
section
/-! DEFINITION. The memory instructions, fences, phases, waits, barriers and arrival words at issue
(12_memory_instructions R186-R210): addresses, checks, and the operations each adds to the issue queue. -/

namespace Sys2Proof.Machine

/-! ### Addresses (R186) -/

/-- The bytes of `base + w * idx + w * sext16(F)` that B's width keeps. -/
def Crew.addrIn (c : Crew) (l : Lane) (bitsB : Nat) (base : Nat) (m : Mem) (w : Nat) : Nat :=
  (BitVec.ofInt bitsB (base + w * (c.rd l m.x).toInt + w * m.f.toInt)).toNat

/-- A global address (R186). -/
def Crew.addrG (c : Crew) (l : Lane) (m : Mem) (w : Nat) : Nat := c.addrIn l 64 (c.rd64 l m.b).toNat m w

/-- A scratchpad, peer or lane-private address (R186). -/
def Crew.addrS (c : Crew) (l : Lane) (m : Mem) (w : Nat) : Nat := c.addrIn l 32 (c.rd l m.b).toNat m w

/-- The lanes that make an access: every guard-true active lane, or the lowest alone when the destination of a load or
atomic is a scalar register (R189). -/
def Crew.doers (c : Crew) (g : Guard) (d : Reg) : List (Nat × Lane) := if d.isS then (c.takers g).take 1 else c.takers g

/-! ### Checks (R190) -/

/-- The check of a scratchpad access: the core and the offset. -/
def Ctx.checkSp (k : Ctx) (a w : Nat) : Except Cause (Nat × Nat) :=
  if k.b.scratchSize < a + w then .error .scratchBound else .ok (k.b.core, a)

/-- The check of a peer-window access: the core and the offset (R149, R150, R190). -/
def State.checkPeer (s : State) (k : Ctx) (a w : Nat) : Except Cause (Nat × Nat) :=
  if a / 2 ^ 21 ≠ 0 then .error .scratchBound
  else
    let core := k.b.core / 4 * 4 + a / 2 ^ 19 % 4
    match s.scratchOn k.b core with
    | none => .error .peerAbsent
    | some x => if x.scratchSize < a % 2 ^ 19 + w then .error .scratchBound else .ok (core, a % 2 ^ 19)

/-- The check of a lane-private access: its virtual address, and whether it is out of the private area (R190). -/
def Block.checkPriv (b : Block) (l : Lane) (o w : Nat) : Nat × Bool := (b.privVa l o, decide (4096 < o + w))

/-- Whether the access is a decoded load: the descriptor of the range that holds its first byte (R192). -/
def State.decodes (s : State) (k : Ctx) (va : Nat) (z : Acc) : Option (BitVec 256) :=
  match z with
  | .f16 | .bf16 | .f32 =>
    if 2 ^ 56 ≤ va then none
    else match s.lookup k.b.core (some k.c.quad) k.b.asid va 1 with
      | .ok (e, _) => if d1Fmt e.d1 = 0 then none else some e.d1
      | .error _ => none
  | _ => none

/-- Where element k of a formatted range has its code (R115): the offset of its byte in the data plane, and whether it
is the upper half of it. -/
def codeOffset (fmt elem : Nat) : Nat × Bool := if fmt = 1 then (elem / 2, elem % 2 == 1) else (elem, false)

/-- What stands for the address of bytes that no range's addresses name: a scale plane's, which the residency map does not cover and
the fuller does not move (R321, R327). -/
def noVa : Nat := 2 ^ 56

/-- A read of bytes at an intermediate address under the stage-2 descriptor that holds it: the planes of a decoded
load (R115, R192). -/
def State.planePiece (s : State) (vf va ia size : Nat) (d1 : BitVec 256) : Option Piece :=
  match s.stage2 vf ia .read with
  | some (d, pa) => some (pieceOf va size ⟨pa, d2Key d, d1Seal d1, d2Tier d, d1, d⟩)
  | none => none

/-- A global or private load of a lane (R190-R193): a decoded one is checked as an access of its first byte. -/
def State.loadLane (s : State) (k : Ctx) (lane va : Nat) (z : Acc) (home : Bool) (h : Hint) (d : Reg) : State :=
  match s.decodes k va z with
  | some d1 =>
    match s.translate k.b.core (some k.c.quad) k.b.asid va 1 .read with
    | (s, .ok x) =>
      let elem := (va - d1Base d1 * 4096) / z.size
      let (o, hi) := codeOffset (d1Fmt d1) elem
      let vf := dirVf (s.dirEntry k.b.asid)
      let at_ := d1Base x.d1 * 4096 + o
      match s.planePiece vf at_ (d1Ia x.d1 at_) 1 x.d1, s.planePiece vf noVa (d1Spb x.d1 * 4096 + elem / 64 * 4) 4 x.d1 with
      | some c, some w => s.push k lane (.decode z home h va (d1Fmt d1) c w hi d)
      | _, _ => s.trapAgain k lane .stage2 (BitVec.ofNat 64 va)
    | (s, .fault c) => s.trapAgain k lane c (BitVec.ofNat 64 va)
    | (s, .park w) => (s.askResidency k.b k.ci lane va k.pc w).parkAgain k lane w
  | none =>
    match s.checkGlobal k va z.size .read with
    | (s, .pass ps) => s.push k lane (.load z home h ps d)
    | (s, r) => s.failCheck k lane r

/-- A global or private store of a lane: its data is read at issue (R191, R193). -/
def State.storeLane (s : State) (k : Ctx) (lane : Nat) (l : Lane) (va : Nat) (z : Acc) (h : Hint) (d : Reg) : State :=
  match s.checkGlobal k va z.size .write with
  | (s, .pass ps) =>
    let x := (k.c.dataOf l d z.regs).toNat % 256 ^ z.size
    s.push k lane (.store h (piecesOf va x ps))
  | (s, r) => s.failCheck k lane r

/-- Applies the outcome of a scratchpad or peer check. -/
def State.orTrap (s : State) (k : Ctx) (lane a : Nat) (r : Except Cause (Nat × Nat)) (f : Nat → Nat → OpKind) : State :=
  match r with
  | .ok (core, o) => s.push k lane (f core o)
  | .error c => s.trapAgain k lane c (BitVec.ofNat 64 a)

/-- Issues an instruction whose lanes act one by one. -/
def issueLanes (i : Instr) (ls : Crew → List (Nat × Lane)) (f : Ctx → State → Nat → Lane → State) (s : State) :
    Host.Outcome State Fault Refusal :=
  issue i (fun k s => s.forLanes (ls k.c) (f k)) s

/-- The same, and every lane that executes it and is still active passes the implicit rewind point after it (R210, R341). -/
def issueOnce (i : Instr) (ls : Crew → List (Nat × Lane)) (f : Ctx → State → Nat → Lane → State) (s : State) :
    Host.Outcome State Fault Refusal :=
  issue i (fun k s => (s.forLanes (ls k.c) (f k)).passImplicit k i.guard i.len) s

/-! ### Loads and stores (R191-R194) -/

/-- LD (R191, R192). -/
def execLd (g : Guard) (z : Acc) (h : Hint) (home : Bool) (d : Reg) (m : Mem) (s : State) :
    Host.Outcome State Fault Refusal :=
  issueLanes (.ld g z h home d m) (·.doers g d) (fun k s i l =>
    s.loadLane k i (k.c.addrG l m z.size) z home h d) s

/-- ST (R191, R193). -/
def execSt (g : Guard) (z : Acc) (h : Hint) (d : Reg) (m : Mem) (s : State) : Host.Outcome State Fault Refusal :=
  issueLanes (.st g z h d m) (·.takers g) (fun k s i l => s.storeLane k i l (k.c.addrG l m z.size) z h d) s

/-- LDS (R191, R194): the aligned bytes that hold the address. -/
def execLds (g : Guard) (z : Acc) (d : Reg) (m : Mem) (s : State) : Host.Outcome State Fault Refusal :=
  issueLanes (.lds g z d m) (·.doers g d) (fun k s i l =>
    let a := k.c.addrS l m z.size
    s.orTrap k i a (k.checkSp a z.size) fun core o => .spLoad z core (o / z.size * z.size) d) s

/-- STS (R191, R194). -/
def execSts (g : Guard) (z : Acc) (d : Reg) (m : Mem) (s : State) : Host.Outcome State Fault Refusal :=
  issueLanes (.sts g z d m) (·.takers g) (fun k s i l =>
    let a := k.c.addrS l m z.size
    s.orTrap k i a (k.checkSp a z.size) fun core o =>
      .spStore core (o / z.size * z.size) z.size (k.c.dataOf l d z.regs)) s

/-- LDP (R149, R150, R191). -/
def execLdp (g : Guard) (z : Acc) (d : Reg) (m : Mem) (s : State) : Host.Outcome State Fault Refusal :=
  issueLanes (.ldp g z d m) (·.doers g d) (fun k s i l =>
    let a := k.c.addrS l m z.size
    s.orTrap k i a (s.checkPeer k a z.size) fun core o => .spLoad z core (o / z.size * z.size) d) s

/-- STP (R149, R150, R191). -/
def execStp (g : Guard) (z : Acc) (d : Reg) (m : Mem) (s : State) : Host.Outcome State Fault Refusal :=
  issueLanes (.stp g z d m) (·.takers g) (fun k s i l =>
    let a := k.c.addrS l m z.size
    s.orTrap k i a (s.checkPeer k a z.size) fun core o =>
      .spStore core (o / z.size * z.size) z.size (k.c.dataOf l d z.regs)) s

/-- LDL (R153, R191, R193). -/
def execLdl (g : Guard) (z : Acc) (h : Hint) (d : Reg) (m : Mem) (s : State) : Host.Outcome State Fault Refusal :=
  issueLanes (.ldl g z h d m) (·.doers g d) (fun k s i l =>
    let (va, bad) := k.b.checkPriv l (k.c.addrS l m z.size) z.size
    if bad then s.trapAgain k i .rangeMiss (BitVec.ofNat 64 va) else s.loadLane k i va z false h d) s

/-- STL (R153, R191, R193). -/
def execStl (g : Guard) (z : Acc) (h : Hint) (d : Reg) (m : Mem) (s : State) : Host.Outcome State Fault Refusal :=
  issueLanes (.stl g z h d m) (·.takers g) (fun k s i l =>
    let (va, bad) := k.b.checkPriv l (k.c.addrS l m z.size) z.size
    if bad then s.trapAgain k i .rangeMiss (BitVec.ofNat 64 va) else s.storeLane k i l va z h d) s

/-! ### Atomics (R195-R198) -/

/-- The value a register operand gives an atomic or a comparison: one register, or a pair. -/
def Crew.operand (c : Crew) (l : Lane) (z : Acc) (d : Reg) : DWord :=
  if z.regs = 1 then (c.rd l d).setWidth 64 else c.rd64 l d

/-- Forms the address of an atomic, checks it (R190) and queues what `f` makes of its place. -/
def State.atomLane (s : State) (k : Ctx) (lane : Nat) (l : Lane) (z : Acc) (spc : ASpace) (kind : AccKind) (m : Mem)
    (f : Place → OpKind) : State :=
  match spc with
  | .global =>
    let va := k.c.addrG l m z.size
    if va % z.size ≠ 0 then s.trapAgain k lane .misaligned (BitVec.ofNat 64 va)
    else match s.checkGlobal k va z.size kind with
      | (s, .pass (p :: _)) => s.push k lane (f (.global p))
      | (s, r) => s.failCheck k lane r
  | _ =>
    let a := k.c.addrS l m z.size
    if a % z.size ≠ 0 then s.trapAgain k lane .misaligned (BitVec.ofNat 64 a)
    else s.orTrap k lane a (if spc == .sp then k.checkSp a z.size else s.checkPeer k a z.size) fun core o =>
      f (.scratch core o)

/-- ATOM (R195). -/
def execAtom (g : Guard) (op : AtomOp) (z : Acc) (spc : ASpace) (d : Reg) (m : Mem) (s : State) :
    Host.Outcome State Fault Refusal :=
  issueOnce (.atom g op z spc d m) (·.doers g d) (fun k s i l =>
    s.atomLane k i l z spc .atomic m fun p => .atom op z p (k.c.operand l z d) d) s

/-- CAS (R196): the compared value, then the new value, in consecutive registers. -/
def execCas (g : Guard) (z : Acc) (spc : ASpace) (d : Reg) (m : Mem) (s : State) : Host.Outcome State Fault Refusal :=
  issueOnce (.cas g z spc d m) (·.doers g d) (fun k s i l =>
    s.atomLane k i l z spc .atomic m fun p =>
      .cas z p (k.c.operand l z d) (k.c.operand l z (d.plus z.regs)) d) s

/-- RED (R197). -/
def execRed (g : Guard) (op : AtomOp) (z : Acc) (spc : ASpace) (d : Reg) (m : Mem) (s : State) :
    Host.Outcome State Fault Refusal :=
  issueOnce (.red g op z spc d m) (·.takers g) (fun k s i l =>
    s.atomLane k i l z spc .red m fun p => .red op z p (k.c.operand l z d)) s

/-! ### Fences, phases and prefetch (R199-R202) -/

/-- FENCE (R174, R199). -/
def execFence (g : Guard) (sc : Scope) (s : State) : Host.Outcome State Fault Refusal :=
  issue (.fence g sc) (fun k s => s.pushOnce k g (.fence sc)) s

/-- Issues a PHASE (R171, R200): nothing happens unless some active lane's guard is true. -/
def issuePhase (i : Instr) (pub ref : Bool) (s : State) : Host.Outcome State Fault Refusal :=
  issue i (fun k s => if (k.c.takers i.guard).isEmpty then s
    else (s.pushOnce k i.guard (.phase pub ref none)).passImplicit k i.guard i.len) s

/-- PHASE.pub (R171, R200). -/
def execPhasePub (g : Guard) (s : State) : Host.Outcome State Fault Refusal := issuePhase (.phasePub g) true false s

/-- PHASE.ref (R171, R200). -/
def execPhaseRef (g : Guard) (s : State) : Host.Outcome State Fault Refusal := issuePhase (.phaseRef g) false true s

/-- PHASE.full (R171, R200). -/
def execPhaseFull (g : Guard) (s : State) : Host.Outcome State Fault Refusal := issuePhase (.phaseFull g) true true s

/-- PREF (R202): requests the line into the L1 or the L2, or, with a hint against the L1, into the L2 alone (R188); what would fault or
be denied is dropped, and so is one that finds the line under another key, since it would change what a read returns. Its fill leaves
its seal on the line, as any access's does (R328; DESIGN CHOICE, log 15). -/
def execPref (g : Guard) (l2 : Bool) (h : Hint) (m : Mem) (s : State) : Host.Outcome State Fault Refusal :=
  issueLanes (.pref g l2 h m) (·.takers g) (fun k s _ l =>
    let va := k.c.addrG l m 1
    if 2 ^ 56 ≤ va then s
    else match s.translate k.b.core (some k.c.quad) k.b.asid va 1 .read with
      | (s, .ok x) =>
        if (s.denies k.b.part k.b.clr (pieceOf va 1 x)).isSome || (s.lineOf none x.home).any (·.key != x.key) then s
        else
          let s := s.l2Access none k.b.vf x.key x.sealId x.home 0 h (s.sectorStamp (Config.sectorOf k.b.core))
          if l2 || h == .nl1 then s
          else s.l1Fill k.b.core x.home k.c.quad k.c.slot (s.coreStamp k.b.core) (s.homeView x.key x.home) h
      | (s, _) => s) s

/-- SFENCE (R201). -/
def execSfence (g : Guard) (a b : Reg) (s : State) : Host.Outcome State Fault Refusal :=
  issue (.sfence g a b) (fun k s =>
    match k.c.takers g with
    | [] => s
    | (i, l) :: _ => s.push k i (.sfence (k.c.rd l a).toNat (if b.isNone then none else some (k.c.rd l b).toNat))) s

/-! ### Waiting on a word (R203) -/

/-- WAITC (R177, R203). -/
def execWaitc (g : Guard) (cond : Cond) (z : Acc) (d : Reg) (m : Mem) (s : State) :
    Host.Outcome State Fault Refusal :=
  issueOnce (.waitc g cond z d m) (·.takers g) (fun k s i l =>
    let va := k.c.addrG l m z.size
    if va % z.size ≠ 0 then s.trapAgain k i .misaligned (BitVec.ofNat 64 va)
    else match s.checkGlobal k va z.size .read with
      | (s, .pass (p :: _)) => s.push k i (.waitc cond z p (k.c.operand l z d))
      | (s, r) => s.failCheck k i r) s

/-! ### Barriers (R204, R205, 09 R147) -/

/-- The always-true guard, which alone BAR and BARC may have (R204). -/
def always : Guard := ⟨false, 0⟩

/-- BAR (R205). -/
def execBar (s : State) : Host.Outcome State Fault Refusal :=
  issueOnce .bar (·.takers always) (fun k s i _ => s.push k i .bar) s

/-- BARC (R147). -/
def execBarc (s : State) : Host.Outcome State Fault Refusal :=
  issueOnce .barc (·.takers always) (fun k s i _ => s.push k i .barc) s

/-! ### Arrival words (R207-R209) -/

/-- Checks the address of an arrival word and queues what `f` makes of it. -/
def State.arrivalLane (s : State) (k : Ctx) (lane : Nat) (l : Lane) (m : Mem) (f : Nat → OpKind) : State :=
  let a := k.c.addrS l m 8
  if a % 8 ≠ 0 then s.trapAgain k lane .misaligned (BitVec.ofNat 64 a)
  else s.orTrap k lane a (k.checkSp a 8) fun _ o => f o

/-- AWINIT (R207). -/
def execAwinit (g : Guard) (d : Reg) (m : Mem) (s : State) : Host.Outcome State Fault Refusal :=
  issueOnce (.awinit g d m) (·.takers g) (fun k s i l =>
    s.arrivalLane k i l m fun a => .awinit a (bits (k.c.rd l d) 0 24)) s

/-- ARRIVE (R207, R208). -/
def execArrive (g : Guard) (d : Reg) (m : Mem) (s : State) : Host.Outcome State Fault Refusal :=
  issueOnce (.arrive g d m) (·.takers g) (fun k s i l =>
    s.arrivalLane k i l m fun a => .arrive a (bits (k.c.rd l d) 0 24)) s

/-- AWAIT (R209). -/
def execAwait (g : Guard) (d : Reg) (m : Mem) (s : State) : Host.Outcome State Fault Refusal :=
  issueLanes (.await g d m) (·.takers g) (fun k s i l =>
    s.arrivalLane k i l m fun a => .await a (bits (k.c.rd l d) 0 16)) s

end Sys2Proof.Machine
end

