-- ==== Sys2Proof/Machine/MemPerform.lean ====
section
/-! DEFINITION. How the queued memory operations perform (11_ordering R168-R177, R183, R184; 12_memory_instructions
R192-R209). -/

namespace Sys2Proof.Machine

/-! ### Loads (R168, R192; 07_number_formats R116 for decoded ones) -/

/-- A plain load performs (R168). -/
def State.performLoad (s : State) (k : Ctx) (o : Op) (z : Acc) (home : Bool) (h : Hint) (ps : List Piece) (d : Reg)
    (picks : List Nat) : State :=
  let (s, tags) := s.passQuarters k home true h ps
  let (s, bs, r) := State.readAll k o.lane home tags ps picks s
  let s := s.modCur k (·.putWords o.lane d (loadWords z bs))
  match r with
  | some (va, sl) => s.denyLane k o.lane va false sl
  | none => s

/-- A decoded load performs: a code and a scale word, each as of its own moment (R117, R192). -/
def State.performDecode (s : State) (k : Ctx) (o : Op) (z : Acc) (home : Bool) (h : Hint) (va fmt : Nat) (code scale : Piece)
    (hi : Bool) (d : Reg) (picks : List Nat) : State :=
  let (s, tags) := s.passQuarters k home true h [code, scale]
  let (s, c, r) := s.readPiece k o.lane home tags code (picks.headD s.now)
  let (s, w, r') := s.readPiece k o.lane home tags scale (picks.tail.headD s.now)
  let bad := r.or r'
  let x := if bad.isSome then 0 else leNat c
  let x := if fmt = 1 then (if hi then x / 16 else x % 16) else x
  let sw := if bad.isSome then 0 else BitVec.ofNat 32 (leNat w)
  let t := match z with
    | .f16 => Ty.f16
    | .bf16 => Ty.bf16
    | _ => Ty.f32
  let v := (roundTo t .rne false false (blockValue (fmtTy fmt) x sw) 0).1
  let s := s.modCur k (·.putWords o.lane d [BitVec.ofNat 32 v])
  match bad with
  | some sl => s.denyLane k o.lane va false sl
  | none => s

/-! ### Stores (R169, R193) -/

/-- A store performs (R169). -/
def State.performStore (s : State) (k : Ctx) (o : Op) (h : Hint) (ps : List (Piece × DWord)) : State :=
  s.storePieces k o.lane h ps

/-! ### Scratchpad (R172) -/

/-- The block whose scratchpad a queued access reaches: while a peer is resident it keeps its scratchpad, whatever has become of its
crews since the access was issued (R148, 21_traps_preemption R336). -/
def State.targetOf (s : State) (k : Ctx) (core : Nat) : Option Block :=
  if core == k.b.core then s.block? k.b.uid
  else (s.groupOf k.b).find? (·.core == core)

/-- A scratchpad or peer load performs. Where the peer has left since the issue, the spec states no value: the load reads free
bytes (R150; DESIGN CHOICE, log 27). -/
def State.performSpLoad (s : State) (k : Ctx) (o : Op) (z : Acc) (core a : Nat) (d : Reg) : State :=
  match s.targetOf k core with
  | some x => s.modCur k (·.putWords o.lane d (loadWords z (x.scratchBytes a z.size)))
  | none =>
    let (s, bs) := s.freeBytes z.size
    s.modCur k (·.putWords o.lane d (loadWords z bs))

/-- A scratchpad or peer store performs. -/
def State.performSpStore (s : State) (k : Ctx) (core a n : Nat) (x : BitVec 128) : State :=
  match s.targetOf k core with
  | some t => s.scratchStore t.uid a (leBytes n (x.toNat % 256 ^ n))
  | none => s

/-! ### Atomics (R175, R195-R198) -/

/-- An atomic move at a place: what it read, and what `f` writes back, if anything. A denied one reads 0 and writes
nothing, and its record says whether it was a write: a RED is one (R75, R198, R329; for ATOM and CAS, which are denied as reads,
DEDUCED, log 40). Where the peer has left since the issue, the spec states no value: it reads free bytes and writes nothing
(R150; DESIGN CHOICE, log 27). -/
def State.atomicAt (s : State) (k : Ctx) (lane : Nat) (z : Acc) (p : Place) (write : Bool) (f : DWord → Option DWord) :
    State × DWord :=
  match p with
  | .global p =>
    let s := s.drainRun k.b.uid p.home p.size
    match s.denies k.b.part k.b.clr p with
    | some sl => (s.denyLane k lane p.va write sl, 0)
    | none =>
      let s := s.l2Read k.b.vf k.b.core p
      let old := BitVec.ofNat 64 (s.numHome p.key p.home p.size)
      let s := match f old with
        | some x => s.writeThrough k.b.vf p (leBytes p.size (x.toNat % 256 ^ p.size))
        | none => s
      (s.modLane k.b.uid k.ci lane (·.raise s.now p.home p.size), old)
  | .scratch core a =>
    match s.targetOf k core with
    | some t =>
      let old := BitVec.ofNat 64 (leNat (t.scratchBytes a z.size))
      let s := match f old with
        | some x => s.scratchStore t.uid a (leBytes z.size (x.toNat % 256 ^ z.size))
        | none => s
      (s, old)
    | none =>
      let (s, bs) := s.freeBytes z.size
      (s, BitVec.ofNat 64 (leNat bs))

/-- ATOM performs and returns the old value (R195). -/
def State.performAtom (s : State) (k : Ctx) (o : Op) (op : AtomOp) (z : Acc) (p : Place) (v : DWord) (d : Reg) : State :=
  let (s, old) := s.atomicAt k o.lane z p false fun x => some (atomNew op z x v)
  s.modCur k (·.putWords o.lane d (loadWords z (leBytes z.size old.toNat)))

/-- CAS performs (R196). -/
def State.performCas (s : State) (k : Ctx) (o : Op) (z : Acc) (p : Place) (cmp new : DWord) (d : Reg) : State :=
  let (s, old) := s.atomicAt k o.lane z p false fun x => if x = cmp then some new else none
  s.modCur k (·.putWords o.lane d (loadWords z (leBytes z.size old.toNat)))

/-- A RED of global memory goes into the slice request queue, and is not acknowledged until it performs (R165, R174);
one of a scratchpad performs on it (R172). -/
def State.performRed (s : State) (k : Ctx) (o : Op) (op : AtomOp) (z : Acc) (p : Place) (v : DWord) : State :=
  match p with
  | .global _ =>
    { s.modBlock k.b.uid fun b => { b with unacked := b.unacked + 1 } with
      posted := s.posted ++ [⟨k.b.uid, k.ci, o, s.oidOf k o.lane⟩] }
  | .scratch .. => (s.atomicAt k o.lane z p true fun x => some (atomNew op z x v)).1

/-- The saved block with a number. -/
def State.savedBlock (s : State) (u : Nat) : Option Block := (s.launches.flatMap (·.saved)).find? (·.uid == u)

/-- Whether a posted operation may perform: no earlier posted one of its lane overlaps it (R167), and no entry of a saved block,
which cannot drain before it, holds any of its bytes (R175, R185). -/
def State.mayPost (s : State) (n : Nat) : Bool :=
  match s.posted[n]? with
  | none => false
  | some p =>
    ((s.posted.take n).all fun q =>
      !(q.blk == p.blk && q.crew == p.crew && (q.op.lane == p.op.lane || q.op.ins == p.op.ins))
      || !q.op.what.meets 0 p.op.what)
    && match s.savedBlock p.blk with
       | none => true
       | some b => b.storeBuf.all fun e => (p.op.what.bytes 0).all fun x => !overlap x.2.1 x.2.2 e.p.home e.p.size

/-- A posted RED performs at home for a block, which may be one that has been saved since (R175, R185, R197): its denial is checked
and logged as any lane's. -/
def State.performRedOf (s : State) (b : Block) (q : Posted) (op : AtomOp) (z : Acc) (p : Piece) (v : DWord) : State :=
  let k : Ctx := ⟨b, q.crew, Crew.blank, q.op.lab, q.op.pc⟩
  let s := s.drainRun b.uid p.home p.size
  match s.denies b.part b.clr p with
  | some sl => s.denial b.part b.vf p.va q.oid b.launch (.lane b.core) true sl.2 sl.1
  | none =>
    let s := s.l2Read b.vf b.core p
    let old := BitVec.ofNat 64 (s.numHome p.key p.home p.size)
    let s := s.writeThrough b.vf p (leBytes p.size ((atomNew op z old v).toNat % 256 ^ p.size))
    let s := s.modLane k.b.uid k.ci q.op.lane (·.raise s.now p.home p.size)
    s.owesHost q.blk p.home p.size (.red q.crew)

/-- A posted RED performs; its acknowledgement is credited to its block, or to the saved count (R185). -/
def State.performPosted (s : State) (n : Nat) : State :=
  match s.posted[n]? with
  | none => s
  | some q =>
    let s := { s with posted := s.posted.eraseIdx n }
    match q.op.what with
    | .red op z (.global p) v =>
      let ack := fun (b : Block) => if b.uid == q.blk then { b with unacked := b.unacked - 1 } else b
      match s.block? q.blk with
      | some b => (s.performRedOf b q op z p v).modBlock q.blk ack
      | none =>
        let s := match s.savedBlock q.blk with
          | some b => s.performRedOf b q op z p v
          | none => s
        { s with launches := s.launches.map fun l => { l with saved := l.saved.map ack } }
    | _ => s

/-! ### Phases (R171) -/

/-- The Refresh move: every byte's refresh point becomes the newest position, and the stamps advance (R162, R166). -/
def State.refresh (s : State) (u core : Nat) : State :=
  (s.modBlock u fun b => { b with refresh := s.now, refreshAt := [] }).advanceStamps u core

/-- PHASE performs: the entries that were in the store buffer when its predecessors had performed drain, then the view is
refreshed. While acknowledgements are outstanding a PHASE.pub stands at the head of the queue with its place in the buffer
marked (R171). -/
def State.performPhase (s : State) (k : Ctx) (o : Op) (pub ref : Bool) (mark : Option Nat) : State :=
  let b := s.blockOf k
  if pub && b.unacked != 0 then
    s.modCur k fun c => { c with queue := { o with what := .phase pub ref (some b.entered) } :: c.queue }
  else
    let upTo := mark.getD b.entered
    let s := if pub then State.drainFirst k.b.uid (b.storeBuf.countP fun e => decide (e.no < upTo)) s else s
    if ref then s.refresh k.b.uid k.b.core else s

/-! ### Waiting (R41, R177, R205, R209) -/

/-- A lane parks at a waiting instruction, to go on after it (R41). -/
def State.parkAfter (s : State) (k : Ctx) (lane len : Nat) (w : Park) : State :=
  s.modLane k.b.uid k.ci lane fun l =>
    let p := s.after k len l.wl
    { l with parked := true, act := false, park := some w, wl := p.1, ro := p.2 }

/-- Reads a WAITC's word at home: whether it compares true (R177, R203). A denied read compares 0. -/
def State.waitcTrue (s : State) (part clr : Nat) (p : Piece) (cond : Cond) (z : Acc) (rhs : DWord) : Bool :=
  let x := if (s.denies part clr p).isSome then 0 else BitVec.ofNat 64 (s.numHome p.key p.home p.size)
  Cond.eval cond (accInt z x) (accInt z rhs)

/-- A WAITC of a lane performs or parks: its lanes of one eighth do so together (R41); the denial is logged here only (R203). -/
def State.performWaitc (s : State) (k : Ctx) (o : Op) (cond : Cond) (z : Acc) (p : Piece) (rhs : DWord) : State :=
  let s := (s.drainRun k.b.uid p.home p.size).l2Read k.b.vf k.b.core p
  let s' := match s.denies k.b.part k.b.clr p with
    | some sl => s.denyLane k o.lane p.va false sl
    | none => s
  if s.waitcTrue k.b.part k.b.clr p cond z rhs then
    s'.modLane k.b.uid k.ci o.lane (·.raise s.now p.home p.size)
  else s'.parkAfter k o.lane 1 (.waitc p.home p.va cond z rhs k.pc)

/-- The operations of one eighth of an instruction that performs with operation `o` (R41). -/
def eighthOf (q : List Op) (o : Op) : List Op := q.filter fun p => p.ins == o.ins && p.lane / 16 == o.lane / 16

/-- Takes the operations of an eighth out of the queue. -/
def State.unqueueEighth (s : State) (u ci : Nat) (o : Op) : State :=
  s.modCrew u ci fun c => { c with queue := c.queue.filter fun p => !(p.ins == o.ins && p.lane / 16 == o.lane / 16) }

/-- The lanes of an eighth arrive at BAR; if that completes the instance they go on, and else they park (R205). -/
def State.performBar (s : State) (k : Ctx) (os : List Op) : State :=
  let b := s.blockOf k
  let inst := b.barInst
  let s := s.modBlock k.b.uid fun b => { b with barArr := b.barArr ++ os.map fun o => (k.c.cid, o.lane) }
  if (s.blockOf k).barDone then s.settle k.b.uid
  else os.foldl (fun s o => s.parkAfter k o.lane 1 (.bar inst)) s

/-- The same for BARC (R147). -/
def State.performBarc (s : State) (k : Ctx) (os : List Op) : State :=
  let inst := (s.blockOf k).barcInst
  let s := s.modBlock k.b.uid fun b => { b with barcArr := b.barcArr ++ os.map fun o => (k.c.cid, o.lane) }
  if s.barcDone (s.blockOf k) then s.settle k.b.uid
  else os.foldl (fun s o => s.parkAfter k o.lane 1 (.barc inst)) s

/-- A lane's AWAIT reads its word's generation, and parks where it is the one named; the lanes of an eighth do so in one evaluation
(R41, R209). -/
def State.performAwait (s : State) (k : Ctx) (o : Op) (a : Nat) (gen : BitVec 16) : State :=
  if (s.blockOf k).genAt a != gen then s else s.parkAfter k o.lane 1 (.await a gen)

/-- The host-tier bytes that the L2 holds are written back (24 R395). -/
def State.cleanHostTier (s : State) : State := s.cleanL2 fun l => l.print == none && decide (hostBase ≤ 256 * l.line)

/-- What performs at `.sys` first writes back the host-tier bytes that earlier drains have placed in the L2, and then waits until the host
has acknowledged what stood outstanding at that point; `none` when it waits for nothing (R174, R371, 24 R395; DEDUCED, log 44). -/
def State.sysWait (s : State) (u ci : Nat) (c : Crew) (w : OpKind) : Option State :=
  let mark := c.acks.getD s.hostNo
  if w.atSys && s.unacknowledged u ci mark then some (s.cleanHostTier.modCrew u ci fun c => { c with acks := some mark }) else none

/-- FENCE performs: one of `.sys` writes back the host-tier bytes that earlier drains have placed in the L2 (R174, 24 R395). -/
def State.performFence (s : State) (sc : Scope) : State :=
  match sc with
  | .sys => s.cleanHostTier
  | _ => s

/-! ### SFENCE (R201) -/

/-- The scratchpad bytes a handle is bound to. What a descriptor of a format covers is given with MDESC (R291); the
region runs from its first byte to the end of the scratchpad that later operands may name (DEDUCED, log 28). -/
def Handle.inScratch (h : Handle) : Option Nat :=
  match h.bind with
  | some (.sp _ a scl _) => some (min a scl)
  | _ => none

/-- SFENCE performs: it advances the generations of the overlapping scratchpad handles. -/
def State.performSfence (s : State) (k : Ctx) (a : Nat) (len : Option Nat) : State :=
  s.modBlock k.b.uid fun b =>
    { b with handles := b.handles.map fun h =>
        match h.inScratch with
        | some lo =>
          let n := len.getD (b.scratchSize - a)
          if 0 < n && lo < a + n && decide (a < b.scratchSize) then { h with gen := h.gen + 1 } else h
        | none => h }

end Sys2Proof.Machine
end

