-- ==== Sys2Proof/Machine/Crewwide.lean ====
section
/-! DEFINITION. The crew-wide instructions (15_crew_instructions R236-R250, every source read before
any write by R237; 14_crews R223-R235; 07_number_formats R121,
R122), the number networks, and the pairing of REGROUP. -/

namespace Sys2Proof.Machine

/-! ### Votes, ballots, shuffles, matches (R239-R242) -/

/-- The result of a vote over the participants' predicates (R239). -/
def VoteMode.eval (m : VoteMode) (xs : List Bool) : Bool :=
  match m with
  | .all => xs.all id
  | .any => xs.any id
  | .uni => xs.all id || xs.all not

/-- VOTE (R239). -/
def execVote (g : Guard) (m : VoteMode) (d : Reg) (q : BitVec 3) (s : State) : Host.Outcome State Fault Refusal :=
  issueAlu (.vote g m d q) false d (fun c _ =>
    pureVal (if VoteMode.eval m ((c.takers g).map fun p => p.2.pred q) then 1 else 0)) s

/-- The ballot mask: bit k is set when slot k takes part and its predicate is true (R240). -/
def Crew.ballot (c : Crew) (g : Guard) (q : BitVec 3) : BitVec 128 :=
  (c.takers g).foldl (fun m p => if p.2.pred q then m ||| ((1 : BitVec 128) <<< p.1) else m) 0

/-- BALLOT (R240). -/
def execBallot (g : Guard) (d : Reg) (q : BitVec 3) (s : State) : Host.Outcome State Fault Refusal :=
  issue (.ballot g d q) (once g fun k s => s.modCur k fun c =>
    let m := c.ballot g q
    (List.range 4).foldl (fun c i => c.wrS (d.plus i) (bits m (32 * i) 32)) c) s

/-- The source slot of a shuffle (R241). -/
def ShflMode.slot (m : ShflMode) (lid b : Nat) : Int :=
  match m with
  | .idx => b
  | .up => (lid : Int) - b
  | .down => lid + b
  | .xor => (lid ^^^ b : Nat)

/-- The bits an operand holds: a register, or a pair. -/
def Crew.rdT (c : Crew) (l : Lane) (w64 : Bool) (r : Reg) : DWord := if w64 then c.rd64 l r else (c.rd l r).setWidth 64

/-- SHFL (R241). -/
def execShfl (g : Guard) (m : ShflMode) (t : Ty) (d a b : Reg) (s : State) : Host.Outcome State Fault Refusal :=
  issue (.shfl g m t d a b) (fun k s => s.modCur k fun c =>
    c.eachLane g fun i l =>
      let src := ShflMode.slot m i (c.rd l b).toNat
      let from_ := match (if 0 ≤ src then (c.takers g).find? fun p => (p.1 : Int) == src else none) with
        | some p => p.2
        | none => l
      l.put t.is64 d (pureVal (c.rdT from_ t.is64 a))) s

/-- MATCH (R242). -/
def execMatch (g : Guard) (t : Ty) (d a q : Reg) (s : State) : Host.Outcome State Fault Refusal :=
  issue (.matchI g t d a q) (fun k s => s.modCur k fun c =>
    c.eachLane g fun i l =>
      let low := match (c.takers g).find? fun p => c.rdT p.2 t.is64 a == c.rdT l t.is64 a with
        | some p => p.1
        | none => i
      (l.wr d (BitVec.ofNat 32 low)).wr q (if low = i then 1 else 0)) s

/-! ### Scans and reductions (R121, R122, R243, R244) -/

/-- One node of the float tree: addition rounded once, or a minimum or maximum by R130 (R244). -/
def scanNode (op : ScanOp) (t : Ty) (rm : Rm) (sat ftz : Bool) (x y : Nat) : Nat :=
  match op with
  | .min => fminmax t ftz false x y
  | .max => fminmax t ftz true x y
  | _ => (roundTo t rm sat ftz (sumTerms rm [dec t ftz x, dec t ftz y]) 0).1

/-- The value of a node from its halves (R121). -/
def treeJoin (f : Nat → Nat → Nat) : Option Nat → Option Nat → Option Nat
  | some x, some y => some (f x y)
  | some x, none => some x
  | none, y => y

/-- One level of the tree: the nodes of twice the width. -/
def treeLevel (f : Nat → Nat → Nat) : List (Option Nat) → List (Option Nat)
  | x :: y :: r => treeJoin f x y :: treeLevel f r
  | r => r

/-- The levels of the tree, widest nodes last: widths 1, 2, 4, ..., 128. -/
def treeLevels (f : Nat → Nat → Nat) (leaves : List (Option Nat)) : List (List (Option Nat)) :=
  (List.range 7).foldl (fun ls _ => ls ++ [treeLevel f (ls.getLastD [])]) [leaves]

/-- The prefix over the first `n` slots, from the nodes of the binary decomposition (R122). -/
def treePrefix (f : Nat → Nat → Nat) (levels : List (List (Option Nat))) (n : Nat) : Option Nat :=
  ((List.range 8).reverse.foldl (fun (p : Option Nat × Nat) k =>
    if p.2 + 2 ^ k ≤ n then (treeJoin f p.1 (((levels[k]?.getD [])[p.2 / 2 ^ k]?).getD none), p.2 + 2 ^ k) else p)
    (none, 0)).1

/-- The identity of an operation (R243). -/
def scanIdentity (op : ScanOp) (t : Ty) : DWord :=
  match op with
  | .add | .or | .xor => 0
  | .and => BitVec.allOnes 64
  | .min => if t.isFloat then BitVec.ofNat 64 (infCode t false) else putBits t (tyMax t)
  | .max => if t.isFloat then BitVec.ofNat 64 (infCode t true) else putBits t (tyMin t)

/-- The exact result over a list of integer operands, fitted once (R244). -/
def scanInt (op : ScanOp) (t : Ty) (sat : Bool) (xs : List Int) : DWord :=
  match xs with
  | [] => scanIdentity op t
  | x :: r =>
    match op with
    | .add => putBits t (fitTo t sat (r.foldl (· + ·) x))
    | .min => putBits t (r.foldl min x)
    | .max => putBits t (r.foldl max x)
    | .and => BitVec.ofNat 64 (r.foldl (fun a b => a &&& b.toNat) x.toNat)
    | .or => BitVec.ofNat 64 (r.foldl (fun a b => a ||| b.toNat) x.toNat)
    | .xor => BitVec.ofNat 64 (r.foldl (fun a b => a ^^^ b.toNat) x.toNat)

/-- A participant's code in the float tree: flushed under M[0], and a NaN the canonical one (R109, R244). -/
def leafCode (t : Ty) (ftz : Bool) (x : Nat) : Nat :=
  match dec t ftz x with
  | .nan => (fty t).nan
  | _ => flushCode t ftz x

/-- The leaves of the float tree: the participants' codes by slot (R121, R244). -/
def Crew.leaves (c : Crew) (g : Guard) (t : Ty) (ftz : Bool) (a : Reg) : List (Option Nat) :=
  c.lanes.map fun l => if l.takes g then some (leafCode t ftz (c.rd l a).toNat) else none

/-- The result over the first `n` slots of a crew (R244). -/
def Crew.scanned (c : Crew) (g : Guard) (op : ScanOp) (t : Ty) (rm : Rm) (sat ftz : Bool) (a : Reg) (n : Nat) : DWord :=
  if t.isFloat then
    let f := scanNode op t rm sat ftz
    match treePrefix f (treeLevels f (c.leaves g t ftz a)) n with
    | some x => BitVec.ofNat 64 x
    | none => scanIdentity op t
  else scanInt op t sat (((c.takers g).filter fun p => decide (p.1 < n)).map fun p => c.iv p.2 t a)

/-- SCAN (R244). -/
def execScan (g : Guard) (op : ScanOp) (t : Ty) (rm : Rm) (sat excl ftz : Bool) (d a : Reg) (s : State) :
    Host.Outcome State Fault Refusal :=
  issue (.scan g op t rm sat excl ftz d a) (fun k s => s.modCur k fun c =>
    c.eachLane g fun i l =>
      l.put t.is64 d (pureVal (c.scanned g op t rm sat ftz a (if excl then i else i + 1)))) s

/-- REDUCE (R244). -/
def execReduce (g : Guard) (op : ScanOp) (t : Ty) (rm : Rm) (sat ftz : Bool) (d a : Reg) (s : State) :
    Host.Outcome State Fault Refusal :=
  issueAlu (.reduce g op t rm sat ftz d a) t.is64 d (fun c _ => pureVal (c.scanned g op t rm sat ftz a 128)) s

/-! ### Intersect (R227, R245) -/

/-- How many elements of a list stand before its first element that is not greater than the one before it. -/
def risingLen : List Int → Nat
  | x :: y :: r => if x < y then risingLen (y :: r) + 1 else 1
  | r => r.length

/-- The position of an element among the first `n` of a list, or -1. -/
def positionIn (xs : List Int) (n : Nat) (x : Int) : Int :=
  match (xs.take n).findIdx? (· == x) with
  | some j => j
  | none => -1

/-- The outputs of ISECT over two lists: pa, pb, ca, cb and the order predicate (R227). -/
def isectOf (as bs : List Int) : List Int × List Int × Nat × Nat × Bool :=
  let na := risingLen as
  let nb := risingLen bs
  let m := min ((as.take na).getLastD 0) ((bs.take nb).getLastD 0)
  (as.mapIdx fun i x => if i < na then positionIn bs nb x else -1,
   bs.mapIdx fun i x => if i < nb then positionIn as na x else -1,
   (as.take na).countP fun x => decide (x ≤ m), (bs.take nb).countP fun x => decide (x ≤ m),
   decide (na < as.length) || decide (nb < bs.length))

/-- ISECT (R227, R245). -/
def execIsect (g : Guard) (t : Ty) (q : BitVec 3) (d a b sc : Reg) (s : State) : Host.Outcome State Fault Refusal :=
  issue (.isect g t q d a b sc) (once g fun k s => s.modCur k fun c =>
    let ps := c.takers g
    let (pa, pb, ca, cb, ord) := isectOf (ps.map fun p => c.iv p.2 t a) (ps.map fun p => c.iv p.2 t b)
    let c := ps.zipIdx.foldl (fun c x => c.modLane x.1.1 fun l =>
      ((l.wr d (BitVec.ofInt 32 (pa[x.2]?.getD (-1)))).wr (d.plus 1) (BitVec.ofInt 32 (pb[x.2]?.getD (-1)))).setPred q ord) c
    (c.wrS sc (BitVec.ofNat 32 ca)).wrS (sc.plus 1) (BitVec.ofNat 32 cb)) s

/-! ### Quantisation (R247, R248) -/

/-- A finite f32 value as a signed number of units of 2^-149; `none` for a NaN or an infinity. -/
def unitsOf32 (ftz : Bool) (x : Word) : Option (Bool × Nat) :=
  match dec .f32 ftz x.toNat with
  | .fin neg m e => some (neg, shiftDown m (e + 149))
  | _ => none

/-- The largest magnitude Q of an element type (R247). -/
def quantMax : Ty → Nat
  | .e2m1 => 6
  | .e4m3 => 448
  | .e5m2 => 57344
  | _ => 127

/-- SE and SF for t = n / d units of 2^-149 (R248). -/
def quantScale (fine : Bool) (n d : Nat) : Nat × Nat :=
  if n = 0 then (127, 0)
  else
    let f := Nat.log2 (n * 2 ^ 16 / d)
    let exact := n * 2 ^ 16 == d * 2 ^ f
    -- floor(log2 t) = f - 16 - 149
    let (se, sf) : Int × Nat :=
      if fine then
        let sf := (256 * n * 2 ^ 16 + d * 2 ^ f - 1) / (d * 2 ^ f) - 256
        if sf = 256 then ((f : Int) - 37, 0) else ((f : Int) - 38, sf)
      else (if exact then (f : Int) - 38 else (f : Int) - 37, 0)
    if se < 0 then (0, 0) else if 254 < se then (254, if fine then 255 else 0) else (se.toNat, sf)

/-- x / s as a truncated dyadic with a sticky bit: mantissa, exponent, whether something was cut off. -/
def quantDiv (n se sf : Nat) : Nat × Int × Bool :=
  (n * 2 ^ 88 / (256 + sf), (127 : Int) - se - 149 - 80, n * 2 ^ 88 % (256 + sf) != 0)

/-- `rint` of a magnitude with a sticky bit (R73). -/
def rintSticky (rm : Rm) (neg : Bool) (m : Nat) (e : Int) (sticky : Bool) : Draw Int := fun s =>
  let x := fracOf m e 0 sticky
  let (r, s) := drawIf (!x.exact) rm s
  let n : Int := if x.up rm neg r then x.lo + 1 else x.lo
  (if neg then -n else n, s)

/-- The code of one element (R248): M[0] = 1 flushes a subnormal result of the rounding, as it does the input (R72, R118). An exact
zero keeps the sign of the input (DESIGN CHOICE, log 5). -/
def quantCode (t : Ty) (rm : Rm) (ftz : Bool) (x : Bool × Nat) (se sf : Nat) : Draw Nat := fun s =>
  let (m, e, st) := quantDiv x.2 se sf
  match t with
  | .i8 =>
    let (n, s) := rintSticky rm x.1 m e st s
    ((BitVec.ofInt 8 (max (-127) (min n 127))).toNat, s)
  | _ =>
    let (c, s) := if x.2 = 0 then (signed (fty t) x.1 0, s) else roundMag t rm true ftz x.1 m e st s
    (if t == .e2m1 && c == 8 then 0 else c, s)

/-- The codes and the scale word of one block: the participants with their slots and values (R248). The codes come with
the random state after them. -/
def quantBlock (t : Ty) (rm : Rm) (fine outl ftz : Bool) (ps : List (Nat × Word × Word)) :
    List (Nat × Nat × Word) × Word :=
  let xs := ps.map fun p => (p.1, unitsOf32 ftz p.2.1, p.2.2)
  if xs.any fun x => x.2.1.isNone then (xs.map fun x => (x.1, 0, x.2.2), 0xFF000000)
  else
    let vs := xs.map fun x => (x.1, x.2.1.getD (false, 0), x.2.2)
    let big := vs.foldl (fun m v => max m v.2.1.2) 0
    let j := if outl then (vs.find? fun v => v.2.1.2 == big).map (·.1) else none
    let r := (vs.filter fun v => some v.1 != j).foldl (fun m v => max m v.2.1.2) 0
    let q := quantMax t
    let (n, d) := if outl && r * 448 < big * q then (big, 448) else (r, q)
    let (se, sf) := quantScale fine n d
    let sx := match vs.find? fun v => some v.1 == j with
      | some v =>
        if v.2.1.2 = 0 then 0
        else
          let (m, e, st) := quantDiv v.2.1.2 se sf
          (roundMag .e4m3 .rne true ftz v.2.1.1 m e st 0).1
      | none => 0
    (vs.map fun v =>
        if some v.1 == j then (v.1, if v.2.1.2 = 0 then 0 else 8, v.2.2)
        else
          let (c, s) := quantCode t rm ftz v.2.1 se sf v.2.2
          (v.1, c, s),
      BitVec.ofNat 32 (se * 2 ^ 24 + sf * 2 ^ 16 + sx * 2 ^ 8))

/-- QNT (R247, R248; DEDUCED, log 5): lanes 0 to 63 are block 0, lanes 64 to 127 block 1. -/
def execQnt (g : Guard) (t : Ty) (rm : Rm) (fine outl ftz : Bool) (d a sc : Reg) (s : State) :
    Host.Outcome State Fault Refusal :=
  issue (.qnt g t rm fine outl ftz d a sc) (fun k s => s.modCur k fun c0 =>
    (List.range 2).foldl (fun c h =>
      match (c0.takers g).filter fun p => p.1 / 64 == h with
      | [] => c
      | ps =>
        let (codes, sw) := quantBlock t rm fine outl ftz (ps.map fun p => (p.1, c0.rd p.2 a, p.2.rng))
        let c := codes.foldl (fun c x => c.modLane x.1 fun l => { l.wr d (BitVec.ofNat 32 x.2.1) with rng := x.2.2 }) c
        c.wrS (sc.plus h) sw) c0) s

/-! ### Number networks (R228-R235) -/

/-- The balancers built so far (their two input wires) and the output wires in order. -/
abbrev Wiring := List (Nat × Nat) × List Nat

/-- The balancers in the order of `out` in `merge`: one for each pair, after those built before. -/
def balRow : List Nat → List Nat → List (Nat × Nat) → Wiring
  | x :: xs, y :: ys, bs =>
    let (bs', out) := balRow xs ys (bs ++ [(x, y)])
    (bs', (16 + 2 * bs.length) :: (17 + 2 * bs.length) :: out)
  | _, _, bs => (bs, [])

/-- Positions 0, 2, 4, ... of a list. -/
def evens {α : Type} : List α → List α
  | x :: _ :: r => x :: evens r
  | r => r

/-- Positions 1, 3, 5, ... of a list. -/
def odds {α : Type} : List α → List α
  | _ :: y :: r => y :: odds r
  | _ => []

/-- `merge` (R228), by fuel. -/
def mergeNet : Nat → List Nat → List (Nat × Nat) → Wiring
  | 0, w, bs => (bs, w)
  | fuel + 1, w, bs =>
    if w.length = 2 then balRow (w.take 1) (w.drop 1) bs
    else
      let h := w.length / 2
      let x := w.take h
      let y := w.drop h
      let (bs, z) := mergeNet fuel (evens x ++ odds y) bs
      let (bs, z2) := mergeNet fuel (odds x ++ evens y) bs
      balRow z z2 bs

/-- `net` (R228), by fuel. -/
def buildNet : Nat → List Nat → List (Nat × Nat) → Wiring
  | 0, w, bs => (bs, w)
  | fuel + 1, w, bs =>
    if w.length = 2 then balRow (w.take 1) (w.drop 1) bs
    else
      let h := w.length / 2
      let (bs, x) := buildNet fuel (w.take h) bs
      let (bs, y) := buildNet fuel (w.drop h) bs
      mergeNet 4 (x ++ y) bs

/-- The width-16 network: its 80 balancers and its 16 output wires (R228). -/
def netWiring : Wiring := buildNet 4 (List.range 16) []

/-- A network by number. -/
def State.net (s : State) (n : Nat) : Net := s.nets[n]?.getD Net.reset

/-- Changes a network. -/
def State.modNet (s : State) (n : Nat) (f : Net → Net) : State := { s with nets := s.nets.modify n f }

/-- One token passes one balancer (R229). -/
def Net.hop (n : Net) (id : Nat) : Net :=
  match n.tokens.find? (·.id == id) with
  | none => n
  | some t =>
    match netWiring.1.findIdx? fun b => b.1 == t.wire || b.2 == t.wire with
    | none => n
    | some k =>
      { n with
        bal := n.bal ^^^ ((1 : BitVec 80) <<< k)
        tokens := n.tokens.map fun x =>
          if x.id == id then { x with wire := if n.bal.getLsbD k then 17 + 2 * k else 16 + 2 * k } else x }

/-- The total of a network (R215, R229). -/
def Net.total (n : Net) : Nat := n.cnt.foldl (fun a c => a + c.toNat) 0

/-- Whether a network is granted to the function of a block's launch (R233); a handler crew has no launch. -/
def State.granted (s : State) (b : Block) (n : Nat) : Bool := decide (n < 256) && b.hnd.isEmpty && (s.func b.vf).net n

/-- TAKE (R249): one token for each participant; lane slot 16e + p enters on wire p. -/
def execTake (g : Guard) (w32 : Bool) (d a q : Reg) (s : State) : Host.Outcome State Fault Refusal :=
  issueOnce (.take g w32 d a q) (·.takers g) (fun k s i l =>
    let n := (k.c.rd l a).toNat
    if !s.granted k.b n then s.trapAgain k i .netNotGranted (BitVec.ofNat 64 n)
    else if (s.net n).closed then s.parkAgain k i (.network n (k.c.ins + 1))
    else
      let id := s.nextToken
      let s : State := { s with nextToken := id + 1 }
      (s.modNet n fun x =>
        { x with tokens := x.tokens ++ [⟨id, k.b.uid, k.ci, i, i % 16⟩] }).push k i (.token n id w32 d q)) s

/-- NETCNT (R250): performs as an operation of the queue. -/
def execNetcnt (g : Guard) (d a : Reg) (s : State) : Host.Outcome State Fault Refusal :=
  issue (.netcnt g d a) (fun k s =>
    match k.c.takers g with
    | [] => s
    | (i, l) :: r =>
      let n := (k.c.rd l a).toNat
      if !s.granted k.b n then
        s.forLanes ((i, l) :: r) fun s j _ => s.trapAgain k j .netNotGranted (BitVec.ofNat 64 n)
      else if d.isS then s.push k i (.netcnt n d)
      else s.forLanes ((i, l) :: r) fun s j _ => s.push k j (.netcnt n d)) s

/-- NETCNT performs: it reads the total at one instant, for every participant of it that has not yet (R250). -/
def State.performNetcnt (s : State) (k : Ctx) (o : Op) (n : Nat) (d : Reg) : State :=
  let x := (s.net n).total
  let all := (((s.crew? k.b.uid k.ci).map fun p => p.2.queue).getD []).filter fun p => p.ins == o.ins
  (o :: all).foldl (fun s p => s.modCur k (·.putWords p.lane d [BitVec.ofNat 32 x, BitVec.ofNat 32 (x / 2 ^ 32)]))
    (s.modCur k fun c => { c with queue := c.queue.filter fun p => p.ins != o.ins })

/-- A network's drain or reset has no token left in flight (R234). -/
def Net.quiet (n : Net) : Bool := n.tokens.isEmpty

/-- Opens a network, and its parked lanes unpark (R234). -/
def State.openNet (s : State) (n : Nat) : State :=
  (s.modNet n fun x => { x with closed := false, resetting := false, lost := false }).mapBlocks fun b =>
    { b with crews := b.crews.map (·.unparkWhere fun w => match w with
        | .network m _ => m == n
        | _ => false) }

/-- A reset that has lost its last token zeroes the network and opens it, one that was lost with its function too (R234, R380,
21_traps_preemption R351). -/
def State.netQuiet (s : State) (n : Nat) : State :=
  if (s.net n).resetting && (s.net n).quiet then
    (s.modNet n fun x => { x with bal := 0, cnt := List.replicate 16 0 }).openNet n
  else s

/-- A lane whose token lost its number to a reset parks at its TAKE, to run it again; where it stands at an earlier TAKE already, it runs
this one again after that (R234; DEDUCED, log 45). -/
def Lane.parkAtTake (l : Lane) (n : Nat) (o : Op) : Lane :=
  let waits := match l.park with
    | some (.network _ i) => l.parked && decide (i < o.ins)
    | _ => false
  if waits then l
  else
    { l with
      parked := true, act := false, wl := o.lab, ro := if o.pc == o.lab then 0 else o.pc, park := some (.network n o.ins) }

/-- TOKEN_NUMBER_RETURN: the tokens of `hops` pass one balancer each, in turn; then token `tok` goes on to its output
wire, takes its number, and the number is written to its lane (R229, R249). While the network resets, the number is
discarded and the lane parks to run its TAKE again (R234). -/
def execTokenNumberReturn (n : Nat) (hops : List Nat) (tok : Nat) (s : State) : Host.Outcome State Fault Refusal :=
  match (s.net n).tokens.find? (·.id == tok) with
  | none => .next s
  | some t =>
    let s := s.modNet n fun x => (hops ++ List.replicate 10 tok).foldl Net.hop x
    match ((s.net n).tokens.find? (·.id == tok)).bind fun t => netWiring.2.findIdx? (· == t.wire) with
    | none => .next s
    | some i =>
      let c := ((s.net n).cnt[i]?.getD 0)
      let num := i + 16 * c.toNat
      let s := s.modNet n fun x =>
        { x with cnt := x.cnt.set i (c + 1), tokens := x.tokens.filter (·.id != tok) }
      match s.crew? t.blk t.crew with
      | none => .next (s.netQuiet n)
      | some (b, cr) =>
        match cr.queue.find? fun o => match o.what with
            | .token m id _ _ _ => m == n && id == tok
            | _ => false with
        | some o =>
          let lane := o.lane
          let s := s.modCrew t.blk t.crew fun c => { c with queue := c.queue.filter (· != o) }
          if (s.net n).resetting then
            .next ((s.modLane t.blk t.crew lane fun l => l.parkAtTake n o).netQuiet n)
          else
            let s := s.modLane t.blk t.crew lane fun l =>
              match o.what with
              | .token _ _ true d q => (l.wr d (BitVec.ofNat 32 num)).wr q (if 2 ^ 32 ≤ num then 1 else 0)
              | .token _ _ false d _ => l.wr64 d (BitVec.ofNat 64 num)
              | _ => l
            .next ((s.count b.vf 4 fun f => f == 0 || decide (num < f)).netQuiet n)
        | none => .next (s.netQuiet n)

/-- NETWORK_DRAINED: a closed network is quiet; a reset then zeroes and opens it (R234). -/
def execNetworkDrained (n : Nat) (s : State) : Host.Outcome State Fault Refusal :=
  .next (if (s.net n).closed then s.netQuiet n else s)

/-! ### Regrouping (R46, R213, R223-R226) -/

/-- REGROUP (R246): the crew waits with the instruction's offset and its key. -/
def execRegroup (q : BitVec 3) (a b : Reg) (n : BitVec 7) (s : State) : Host.Outcome State Fault Refusal :=
  issue (.regroup q a b n) (fun k s =>
    let key := match k.c.lanes with
      | l :: _ => k.c.rd l a
      | [] => 0
    let vf := match b with
      | .v x => x.toNat
      | _ => 0
    (s.modCur k fun c => { c with regroup := some ⟨k.pc, key, q, vf, n.toNat + 1, s.cyc, s.cyc⟩ }).passImplicit k always 1) s

/-- A crew ends its wait: q is written in every live lane (R213). -/
def Crew.endRegroup (c : Crew) (x : Bool) : Crew :=
  match c.regroup with
  | some w => { (c.mapLanes fun _ l => if l.done then l else l.setPred w.q x) with regroup := none }
  | none => c

/-- Whether two waiting crews may pair, the first the receiver: the conditions of R213 hold, and came to hold within 1,024 cycles of
both arrivals (R213, R223). -/
def Crew.mayPair (r d : Crew) : Bool :=
  match r.regroup, d.regroup with
  | some x, some y =>
    decide (r.cid < d.cid) && x.off == y.off && x.key == y.key
    && (r.lanes ++ d.lanes).all (fun l => !l.parked && !l.trapped)
    && decide (max x.tried y.tried ≤ min x.since y.since + 1024)
    && decide (d.lanes.countP (fun l => !l.done) ≤ r.lanes.countP (·.done))
  | _, _ => false

/-- When the conditions of a pair came to hold, and its crews (R223). -/
def Crew.pairKey (r d : Crew) : Nat × Nat × Nat :=
  let tried := fun (c : Crew) => match c.regroup with
    | some w => w.tried
    | none => 0
  (max (tried r) (tried d), r.cid, d.cid)

/-- Whether a pair comes before another: the one that could be made in an earlier cycle, then the lower receiver, then the lower
partner (R223). -/
def pairBefore (x y : Nat × Nat × Nat) : Bool :=
  decide (x.1 < y.1) || (x.1 == y.1 && (decide (x.2.1 < y.2.1) || (x.2.1 == y.2.1 && decide (x.2.2 < y.2.2))))

/-- Whether a pair is the one that is made next in its block (R223). -/
def Block.pairsNext (b : Block) (r d : Crew) : Bool :=
  r.mayPair d && b.crews.all fun x => b.crews.all fun y => !x.mayPair y || !pairBefore (x.pairKey y) (r.pairKey d)

/-- One moved lane takes a free slot (R213): the carried registers and state of the mover, the rest of the slot's own
registers. The receiver's census counts it as any lane of its own (04_sweep R46). -/
def Lane.moveInto (slot m : Lane) (vf n : Nat) : Lane :=
  { m with v := slot.v.mapIdx fun i x => if vf ≤ i && i < vf + n then regAt m.v i else x, resumed := false }

/-- Where the donor's live lanes go: slot of the donor, slot of the receiver (R213). -/
def Crew.moves (r d : Crew) : List (Nat × Nat) :=
  ((d.slots.filter fun x => !x.2.done).map (·.1)).zip ((r.slots.filter (·.2.done)).map (·.1))

/-- An operation of a moved lane stands behind the receiver's own; the spec does not name what a donor has queued (R167, R213; DESIGN
CHOICE, log 37). -/
def Op.follow (o : Op) (ms : List (Nat × Nat)) (n : Nat) : Option Op :=
  (ms.lookup o.lane).map fun l => { o with lane := l, ins := n + o.ins }

/-- The receiver after the move (R213): what the moved lanes have queued comes with them (DESIGN CHOICE, log 37). -/
def Crew.receive (r d : Crew) : Crew :=
  match r.regroup with
  | none => r
  | some w =>
    let ms := r.moves d
    let took := ms.foldl (fun (r : Crew) p => r.modLane p.2 fun l => l.moveInto (d.lanes[p.1]?.getD l) w.vf w.n) r
    { took with queue := r.queue ++ d.queue.filterMap (fun o => o.follow ms r.ins), ins := r.ins + d.ins }

/-- The cycles that a waiting crew spends as the receiver of a pair: 8 for each register moved (R224). -/
def Crew.moveCycles (r : Crew) : Nat := 8 * (r.regroup.map (·.n)).getD 0

/-- The donor after the move: it retires, and keeps what its done lanes have queued (R213, R224; DESIGN CHOICE, log 37). -/
def Crew.give (r d : Crew) : Crew :=
  { (d.mapLanes fun _ l => { l with done := true, act := false }) with
    seq := .retired, regroup := none, queue := d.queue.filter fun o => ((r.moves d).lookup o.lane).isNone }

/-- The posted operations after the move (R167, R213; DESIGN CHOICE, log 37). -/
def Posted.follow (p : Posted) (u c c2 : Nat) (r d : Crew) : Posted :=
  if p.blk == u && p.crew == c2 then
    match p.op.follow (r.moves d) r.ins with
    | some o => { p with crew := c, op := o }
    | none => p
  else p

/-- The issued matrix commands after the move: those still queued go with their operations (R181, R213; DESIGN CHOICE, log 37). -/
def MOpen.follow (m : MOpen) (c c2 : Nat) (r d : Crew) : MOpen :=
  if m.crew == c2 && d.queue.any fun o => o.ins == m.ins && (o.follow (r.moves d) r.ins).isSome then
    { m with crew := c, ins := r.ins + m.ins }
  else m

/-- REGROUP_PAIR: the pair that is next by R223 is made; the donor's live lanes move and the donor retires (R224). None is begun
in a block that a pre-emption or an abort has reached (R225). -/
def execRegroupPair (u c c2 : Nat) (s : State) : Host.Outcome State Fault Refusal :=
  match s.block? u with
  | none => .next s
  | some b =>
    match b.crews[c]?, b.crews[c2]? with
    | some r, some d =>
      if b.pairsNext r d && !b.stopping && b.abort.isNone then
        let s := s.modBlock u fun b =>
          ({ b with pending := b.pending.map fun m => m.follow c c2 r d } : Block).modCrew c
            (fun r => { (r.receive d).endRegroup true with busy := max r.busy (s.cyc + r.moveCycles + s.late) })
            |>.modCrew c2 fun d => r.give d
        let s : State := { s with posted := s.posted.map fun (p : Posted) => p.follow u c c2 r d }
        .next (s.settle u)
      else .next s
    | _, _ => .next s

/-- REGROUP_TIMEOUT: a crew that has found no partner in 1,024 cycles goes on alone (R213). -/
def execRegroupTimeout (u c : Nat) (s : State) : Host.Outcome State Fault Refusal :=
  match s.crew? u c with
  | some (b, x) =>
    match x.regroup with
    | some w =>
      let paired := b.crews.any fun y => x.mayPair y || y.mayPair x
      .next (if w.since + 1024 ≤ s.cyc && !paired then s.modCrew u c (·.endRegroup false) else s)
    | none => .next s
  | none => .next s

end Sys2Proof.Machine
end

