-- ==== Sys2Proof/Machine/Matrix.lean ====
section
/-! DEFINITION. The matrix unit (17_engines R257-R273, 18_engine_instructions R288-R298): its instructions, how they
perform, and the two events that run its commands. -/

namespace Sys2Proof.Machine

/-! ### Issue (R288) -/

end Sys2Proof.Machine

namespace Sys2Proof

/-- The tiles of a group from tile `t` on (R264). -/
def Shape.tiles (sh : Shape) (t : Nat) : List Nat := (List.range (sh.dims.1 * sh.dims.2)).map (· + t)

/-- The tiles that the commands of an instruction write (R295). -/
def Instr.written : Instr → List Nat
  | .mzero _ t | .mwrite _ _ t _ _ _ => [t.toNat]
  | .mloop _ sh t _ _ _ _ _ => sh.tiles t.toNat
  | _ => []

end Sys2Proof

namespace Sys2Proof.Machine

/-- A matrix command that writes tiles is open from its issue to the MWAIT that covers it (R181). -/
def State.noteOpen (s : State) (k : Ctx) (i : Instr) : State :=
  if i.written.isEmpty then s
  else s.modBlock k.b.uid fun b =>
    let ins := ((b.crews[k.ci]?).map Crew.ins).getD 0
    { b with pending := ⟨k.ci, ins, i.written, b.turns, s.now, b.spLog.length⟩ :: b.pending }

/-- Issues an engine instruction that acts once for the crew: its operands are read now, and it performs from the
queue (R178, R288). -/
def issueEngine (i : Instr) (implicit : Bool) (vals : Crew → Lane → List DWord) (s : State) :
    Host.Outcome State Fault Refusal :=
  issue i (fun k s =>
    match k.c.takers i.guard with
    | [] => s
    | (j, l) :: _ =>
      let s := (s.noteOpen k i).push k j (.instr i (vals k.c l))
      if implicit then s.passImplicit k i.guard i.len else s) s

/-- MDESC (R291). -/
def execMdesc (g : Guard) (l2 : Bool) (fmt : MFmt) (h : BitVec 4) (stride : Word) (a b : Reg) (s : State) :
    Host.Outcome State Fault Refusal :=
  issueEngine (.mdesc g l2 fmt h stride a b) true (fun c l =>
    if l2 then [c.rd64 l a] else [(c.rd l a).setWidth 64, (c.rd l b).setWidth 64]) s

/-- MZERO (R292). -/
def execMzero (g : Guard) (t : BitVec 3) (s : State) : Host.Outcome State Fault Refusal :=
  issueEngine (.mzero g t) true (fun _ _ => []) s

/-- MWRITE (R293): one command with every guard-true lane's element; the registers are read now. -/
def execMwrite (g : Guard) (int : Bool) (t : BitVec 3) (a b c : Reg) (s : State) : Host.Outcome State Fault Refusal :=
  issueEngine (.mwrite g int t a b c) true (fun cr _ =>
    (cr.takers g).flatMap fun p => [(cr.rd p.2 b).setWidth 64, (cr.rd p.2 c).setWidth 64, (cr.rd p.2 a).setWidth 64]) s

/-- MLOOP (R294). -/
def execMloop (g : Guard) (sh : Shape) (t : BitVec 3) (ha hb : BitVec 4) (k : BitVec 16) (ia ib : BitVec 20)
    (s : State) : Host.Outcome State Fault Refusal :=
  issueEngine (.mloop g sh t ha hb k ia ib) true (fun _ _ => []) s

/-- MWAIT (R295), in each guard-true active lane. -/
def execMwait (g : Guard) (all : Bool) (t : BitVec 3) (s : State) : Host.Outcome State Fault Refusal :=
  issueLanes (.mwait g all t) (·.takers g) (fun k s i _ => s.push k i (.instr (.mwait g all t) [])) s

/-- MREAD (R296), in each guard-true active lane. -/
def execMread (g : Guard) (i64 : Bool) (t : BitVec 3) (d a b : Reg) (s : State) : Host.Outcome State Fault Refusal :=
  issueLanes (.mread g i64 t d a b) (·.takers g) (fun k s i l =>
    s.push k i (.instr (.mread g i64 t d a b) [(k.c.rd l a).setWidth 64, (k.c.rd l b).setWidth 64])) s

/-- MFENCE (R181, R297). -/
def execMfence (g : Guard) (s : State) : Host.Outcome State Fault Refusal := issueEngine (.mfence g) false (fun _ _ => []) s

/-- MSTAT (R298). -/
def execMstat (g : Guard) (d : Reg) (s : State) : Host.Outcome State Fault Refusal :=
  issueEngine (.mstat g d) false (fun _ _ => []) s

/-- MSTAT.log (R298). -/
def execMstatLog (g : Guard) (d a : Reg) (s : State) : Host.Outcome State Fault Refusal :=
  issueEngine (.mstatLog g d a) false (fun c l => [(c.rd l a).setWidth 64]) s

/-- MSTAT.exp (R298). -/
def execMstatExp (g : Guard) (t : BitVec 3) (d : Reg) (s : State) : Host.Outcome State Fault Refusal :=
  issueEngine (.mstatExp g t d) false (fun _ _ => []) s

/-- MSTAT.clr (R298). -/
def execMstatClr (g : Guard) (s : State) : Host.Outcome State Fault Refusal :=
  issueEngine (.mstatClr g) true (fun _ _ => []) s

/-! ### Tiles (R258-R260, R265-R268) -/

/-- The mantissa code of a NaN element (R260). -/
def nanM : Int := -(2 ^ 47)

/-- The greatest mantissa magnitude (R260). -/
def maxM : Int := 2 ^ 47 - 1

/-- A cleared tile (R260). -/
def Tile.zero : Tile := ⟨List.replicate 4096 0, none, .unset, false⟩

/-- Rounds a signed dyadic number to the nearest integer, ties to even. -/
def rneDy (m e : Int) : Int := (rintOf .rne (decide (m < 0)) m.natAbs e 0).1

/-- The integer that a finite value times 2^-ex rounds to. -/
def FVal.onGrid (x : FVal) (ex : Int) : Int :=
  match x with
  | .fin neg m e => rneDy (sgn neg m) (e - ex)
  | _ => 0

/-- Whether a value is finite. -/
def FVal.isFin : FVal → Bool
  | .fin .. => true
  | _ => false

/-- The exponent that puts the largest magnitude of these values into [2^40, 2^41) (R258); `none` when all are zero. -/
def firstExp (xs : List FVal) : Option Int :=
  xs.foldl (fun a x => match x with
    | .fin _ m e => if m = 0 then a else
        let n := (Nat.log2 m : Int) + e - 40
        some (match a with
          | some y => max y n
          | none => n)
    | _ => a) none

/-- The smallest shift of at most `fuel` steps under which every pair fits (R265): old mantissa and contribution. -/
def fitShift (ex : Int) (ps : List (Int × FVal)) : Nat → Nat → Nat
  | 0, d => d
  | fuel + 1, d =>
    if ps.all fun p => decide ((rneDy p.1 (-d) + p.2.onGrid (ex + d)).natAbs ≤ maxM.toNat) then d
    else fitShift ex ps fuel (d + 1)

/-- `update` of a float step (R265, R266): the contributions, element by element. -/
def Tile.step (t : Tile) (xs : List FVal) : Tile :=
  let ps := (t.m.zip xs).map fun p => if p.1 = nanM || !p.2.isFin then (nanM, p.2) else p
  let live := ps.filter fun p => p.1 ≠ nanM
  match t.e with
  | none =>
    match firstExp (live.map (·.2)) with
    | none => { t with m := ps.map (·.1) }
    | some ex => { t with m := ps.map (fun p => if p.1 = nanM then nanM else p.2.onGrid ex), e := some ex }
  | some ex =>
    let d := fitShift ex live 70000 0
    if 32767 < ex + d then { t with m := t.m.map fun _ => nanM }
    else
      { t with
        m := ps.map fun p => if p.1 = nanM then nanM else rneDy p.1 (-d) + p.2.onGrid (ex + d)
        e := some (ex + d) }

/-- An integer step (R267). -/
def Tile.stepInt (t : Tile) (xs : List Int) : Tile :=
  let ps := t.m.zip xs
  { t with
    m := ps.map fun p => if p.1 = nanM then nanM else max (-maxM) (min (p.1 + p.2) maxM)
    e := some 0
    sat := t.sat || ps.any fun p => decide (p.1 ≠ nanM) && decide (maxM < (p.1 + p.2).natAbs) }

/-- MWRITE's elements go into a tile (R268): position, value bits; the last write of an element remains. -/
def Tile.write (t : Tile) (int : Bool) (els : List (Nat × Word)) : Tile :=
  if int then
    { t with m := els.foldl (fun m p => m.set p.1 p.2.toInt) t.m, e := some 0, kind := .int }
  else
    let vs := els.map fun p => (p.1, dec .f32 false p.2.toNat)
    let put := fun (m : List Int) (ex : Int) =>
      vs.foldl (fun m p => m.set p.1 (if p.2.isFin then p.2.onGrid ex else nanM)) m
    match t.e with
    | none =>
      match firstExp (vs.map (·.2)) with
      | none => { t with m := put t.m 0, kind := .float }
      | some ex => { t with m := put t.m ex, e := some ex, kind := .float }
    | some ex =>
      let d := fitShift ex (vs.filterMap fun p => if p.2.isFin then some (0, p.2) else none) 70000 0
      { t with
        m := put (t.m.map fun m => if m = nanM then nanM else rneDy m (-d)) (ex + d)
        e := some (ex + d), kind := .float }

/-- What MREAD.f32 reads of an element (R259). -/
def Tile.readF32 (t : Tile) (n : Nat) : Word :=
  let m := t.m[n]?.getD 0
  if m = nanM then 0x7FC00000
  else match t.e with
    | none => 0
    | some ex => BitVec.ofNat 32 (roundTo .f32 .rne false false (finOf m ex false) 0).1

/-- What MREAD.i64 reads of an element (R296). -/
def Tile.readI64 (t : Tile) (n : Nat) : DWord :=
  let m := t.m[n]?.getD 0
  if m = nanM then 0xFFFF800000000000
  else if t.e.isNone then 0 else BitVec.ofInt 64 m

/-! ### Handles and operand rows (R262, R263, R269, R271) -/

end Sys2Proof.Machine

namespace Sys2Proof

open Sys2Proof.Machine

/-- The element type a bound format names, if it names one. -/
def MFmt.ty : MFmt → Option Ty
  | .none => Option.none
  | .e2m1 => some .e2m1
  | .e4m3 => some .e4m3
  | .e5m2 => some .e5m2
  | .i8 => some .i8
  | .bf16 => some .bf16
  | .f16 => some .f16

end Sys2Proof

namespace Sys2Proof.Machine

/-- The bytes of 64 elements of a type. -/
def chunkBytes (t : Ty) : Nat := 8 * t.width

/-- The kind of step a pair of formats makes (R263): float when false, integer when true. -/
def pairKind (a b : Ty) : Option Bool :=
  let small := fun (t : Ty) => t == .e2m1 || t == .e4m3 || t == .e5m2
  let half := fun (t : Ty) => t == .bf16 || t == .f16
  if small a && small b then some false
  else if half a && half b then some false
  else if a == .i8 && b == .i8 then some true
  else none

/-- Whether a chunk of a type takes a scale word: that of a block format does (R114, R265); integer steps and 16-bit types take none. -/
def Ty.scaled (t : Ty) : Bool := t == .e2m1 || t == .e4m3 || t == .e5m2

/-- The 64 codes of a chunk. -/
def chunkCodes (t : Ty) (bs : List Byte) : List Nat :=
  (List.range 64).map fun i =>
    if t.width = 4 then (bs[i / 2]?.getD 0).toNat / 16 ^ (i % 2) % 16
    else leNat ((bs.drop (i * (t.width / 8))).take (t.width / 8))

/-- The values of a chunk (R114, R265); integer steps and 16-bit types take no scale. -/
def chunkVals (t : Ty) (bs : List Byte) (sw : Word) : List FVal :=
  (chunkCodes t bs).map fun c =>
    match t with
    | .i8 => finOf (BitVec.ofNat 8 c).toInt 0 false
    | .bf16 | .f16 => dec t false c
    | t => blockValue t c sw

/-- How a read of one chunk ends (R262, R271). -/
inductive Chunk where
  /-- its format and bytes, the scale word's bytes last, and what these were earlier in the command's time (R181) -/
  | ok (t : Ty) (bs : List Byte) (old : List (List Byte)) (addr : Nat) (glob : Bool)
  | denied (sl : Nat × Bool) (va : Nat)
  | bad (addr : Nat)
  | wait (w : Park) (va : Nat)
deriving DecidableEq, Repr

/-- A scratchpad before the newest writes on record, one version for each write undone, the latest first (R181). -/
def spVersions (m : List Host.Cell) : List (List Host.Cell) → List (List Host.Cell)
  | [] => []
  | w :: ws => memWrites m w :: spVersions (memWrites m w) ws

/-- The bytes of a chunk in these scratchpads: data, and the scale word if the chunk takes one. -/
def spBytes (a n sc : Nat) (scaled : Bool) (m : List Host.Cell) : List Byte :=
  memBytes m a n ++ (if scaled then memBytes m sc 4 else List.replicate 4 0)

/-- A row chunk read from scratchpad (R262), in a command that found `sp` writes on record. One whose scale word lies outside faults
whole, as one whose data does, and a report of it names the chunk's first byte, or 0 where that would stand below the scratchpad
(R271, R272; DESIGN CHOICE, log 17). -/
def Block.spChunk (b : Block) (sp : Nat) (fmt : MFmt) (a scl stride : Nat) (inc : Int) (sno row : Nat) (int : Bool) : Chunk :=
  match fmt.ty with
  | none => .bad 0
  | some t =>
    let n := chunkBytes t
    let off := inc * sno
    let at_ : Int := a + row * stride + off
    let sc : Int := scl + 4 * (row * ((stride / n : Nat) : Int) + off / n)
    if stride % n ≠ 0 || inc % n ≠ 0 || (t == .i8) != int then .bad at_.toNat
    else if at_ < 0 || b.scratchSize < at_ + n || (Ty.scaled t && (sc < 0 || b.scratchSize < sc + 4)) then .bad at_.toNat
    else
      let read := spBytes at_.toNat n sc.toNat (Ty.scaled t)
      .ok t (read b.scratch) ((spVersions b.scratch (b.spLog.take (b.spLog.length - sp))).map read) at_.toNat false

/-- The bytes of these pieces at a home time. -/
def State.piecesAt (s : State) (ps : List Piece) (t : Nat) : List Byte :=
  ps.flatMap fun p => (List.range p.size).map fun i => s.readAt p.key t (p.home + i)

/-- The home times since `t0` after which a byte of these pieces was written, the latest first, but none before an address got its
backing (R181, R327). -/
def State.writtenSince (s : State) (asid : Nat) (ps : List Piece) (t0 : Nat) : List Nat :=
  let t0 := ps.foldl (fun t p => s.backedFrom asid p.va p.home .read t) t0
  ((s.log.take (s.now - t0)).zipIdx.filter fun w => w.1.any fun c =>
    ps.any fun p => decide (p.home ≤ c.1) && decide (c.1 < p.home + p.size)).map fun w => s.now - 1 - w.2

/-- Where a row chunk stands in L2: its address, its format, and its pieces, the scale word last (R262). What a report says of one that
faults, in whichever byte, is the address of its first byte (R271, R272; DESIGN CHOICE, log 17). -/
def State.l2Pieces (s : State) (b : Block) (fmt : MFmt) (va stride : Nat) (off : Int) (row : Nat) (int : Bool) :
    State × Except Chunk (Nat × Ty × List Piece) :=
  let x := (BitVec.ofInt 64 (va + row * stride + off)).toNat
  let bad : Except Chunk (Nat × Ty × List Piece) := .error (.bad x)
  if 2 ^ 56 ≤ x then (s, bad)
  else
    match s.translate b.core none b.asid x 1 .read with
    | (s, .fault _) => (s, bad)
    | (s, .park w) => (s, .error (.wait w x))
    | (s, .ok first) =>
      let d := first.d1
      let ty := if d1Fmt d = 0 then (if fmt == .bf16 || fmt == .f16 then fmt.ty else none) else some (fmtTy (d1Fmt d))
      match ty with
      | none => (s, bad)
      | some t =>
        let n := chunkBytes t
        let o := x - d1Base d * 4096
        if (d1Fmt d ≠ 0 && o % n ≠ 0) || d1Limit d * 4096 + 4095 < x + n - 1 || (t == .i8) != int then (s, bad)
        else
          let (s, ps, r) := State.translateRun b.core none b.asid .read 8 s x n
          match r with
          | some (_, .park w) => (s, .error (.wait w x))
          | some _ => (s, bad)
          | none =>
            let scale := if d1Fmt d = 0 || !Ty.scaled t then some none
              else (s.planePiece (dirVf (s.dirEntry b.asid)) noVa (d1Spb d * 4096 + o / n * 4) 4 d).map some
            match scale with
            | none => (s, bad)
            | some sp => (s, .ok (x, t, (ps.map fun p => pieceOf p.1 p.2.1 p.2.2) ++ sp.toList))

/-- A row chunk read straight from L2 (R179, R262), in a command issued at home time `t0`. -/
def State.l2Chunk (s : State) (b : Block) (t0 : Nat) (fmt : MFmt) (va stride : Nat) (off : Int) (row : Nat) (int : Bool) :
    State × Chunk :=
  match s.l2Pieces b fmt va stride off row int with
  | (s, .error c) => (s, c)
  | (s, .ok (x, t, pieces)) =>
    match pieces.filterMap fun p => s.denies b.part b.clr p with
    | sl :: _ => (s, .denied sl x)
    | [] =>
      let s := pieces.foldl (fun s p => s.l2Read b.vf b.core p) s
      (s, .ok t (s.piecesAt pieces s.now) ((s.writtenSince b.asid pieces t0).map (s.piecesAt pieces)) x true)

/-- The K-chunk of a row at a step, through a captured handle (R262). -/
def State.handleChunk (s : State) (b : Block) (m : MCmd) (h : Handle) (inc : Int) (sno row : Nat) (int : Bool) : State × Chunk :=
  match h.bind with
  | none => (s, .bad 0)
  | some (.sp fmt a scl stride) => (s, b.spChunk m.sp fmt a scl stride inc sno row int)
  | some (.l2 fmt va stride) => s.l2Chunk b m.home fmt va stride (inc * sno) row int

/-- Puts operand bytes into a core's cache, 64 KiB of them (R269). -/
def State.cacheOperand (s : State) (e : OpCache) : State :=
  let mine := s.opCache.filter fun x => x.core == e.core && !(x.blk == e.blk && x.handle == e.handle && x.gen == e.gen && x.addr == e.addr)
  let rest := s.opCache.filter fun x => x.core != e.core
  let kept := ((e :: mine).foldl (fun (r : List OpCache × Nat) x =>
    if r.2 + x.data.length ≤ 65536 then (r.1 ++ [x], r.2 + x.data.length) else r) ([], 0)).1
  { s with opCache := kept ++ rest }

/-- The values of a chunk's elements: where its bytes were written since the command issued, each element is the old or the
new one, chosen one by one by free numbers (R181; DESIGN CHOICE, log 3). -/
def State.chosenVals (s : State) (t : Ty) (bs : List Byte) (old : List (List Byte)) : State × List FVal :=
  let n := chunkBytes t
  let vals := fun (code scale : List Byte) => chunkVals t (code.take n) (BitVec.ofNat 32 (leNat ((scale.drop n).take 4)))
  if old.isEmpty then (s, vals bs bs)
  else
    let all := bs :: old
    let pick := fun (k : Nat) => all[Config.freeNat (s.draws + k) % all.length]?.getD bs
    ({ s with draws := s.draws + 128 },
      (List.range 64).map fun i => ((vals (pick (2 * i)) (pick (2 * i + 1)))[i]?).getD (.fin false 0 0))

/-- Changes a command of a block. -/
def Block.modCmd (b : Block) (id : Nat) (f : MCmd → MCmd) : Block :=
  { b with mcmds := b.mcmds.map fun m => if m.id == id then f m else m }

/-- A chunk that could not be read: the operand-fault flag is set, and the command raises its one report (R271, R272). -/
def State.operandFault (s : State) (u id addr : Nat) : State :=
  match s.block? u with
  | none => s
  | some b =>
    let s := s.modBlock u fun b => { b.modCmd id fun m => { m with reported := true } with opf := true }
    match b.mcmds.find? fun m => m.id == id && !m.reported with
    | some m => s.report b m.crew m.lane .matrixError (BitVec.ofNat 64 addr) m.pc
    | none => s

/-- Notes uncorrectable elements and scale words, those the K-step has not noted yet, in the flag and the log; the entry of a scale
word has ELEM 0 (R271; DESIGN CHOICE, log 18). -/
def Block.noteEcc (b : Block) (m : MCmd) (row hnd stepNo : Nat) (hits : List Nat) : Block :=
  let new := (hits.filter fun x => !m.noted.contains x).map fun x => (⟨if 65536 ≤ x then 0 else x % 64, row, hnd, stepNo⟩ : MLog)
  if hits.isEmpty then b
  else
    { b.modCmd m.id fun m => { m with noted := hits ++ m.noted } with
      ecc := true
      mlog := (b.mlog ++ new).take 16
      mlost := b.mlost + (b.mlog.length + new.length - min 16 (b.mlog.length + new.length)) }

/-- What stands in `MCmd.noted` for a denied chunk of a K-step. -/
def deniedMark (side row : Nat) : Nat := 131072 + 512 * side + row

/-- One operand row of a step (R269, R271): its 64 values, or what it waits for. `side` is 0 for A and 1 for B; rows named in
`cached` (512 side + row) come from the operand cache if it holds them under the same tag; elements named in `ecc`
(32768 side + 64 row + element) and scale words (65536 + 32768 side + 64 row) are uncorrectable. What a K-step meets again, for
another tile of its group or after a wait, is recorded once. -/
def State.operandRow (s : State) (u id side hnd : Nat) (h : Handle) (inc : Int) (row : Nat) (int : Bool)
    (cached ecc : List Nat) (stepNo : Nat) : State × Except (Park × Nat) (List FVal) :=
  match s.block? u with
  | none => (s, .ok [])
  | some b =>
    match b.mcmds.find? (·.id == id) with
    | none => (s, .ok [])
    | some m =>
      let zero := List.replicate 64 (FVal.fin false 0 0)
      let (s, ch) := s.handleChunk b m h inc stepNo row int
      match ch with
      | .wait w va => (s, .error (w, va))
      | .denied sl va =>
        let mark := deniedMark side row
        if m.noted.contains mark then (s, .ok zero)
        else
          let s := s.modBlock u (·.modCmd id fun m => { m with noted := mark :: m.noted })
          (s.denial b.part b.vf va m.oid b.launch (.matrix b.core) false sl.2 sl.1, .ok zero)
      | .bad addr => (s.operandFault u id addr, .ok zero)
      | .ok t bs old addr glob =>
        let held := s.opCache.find? fun e =>
          e.core == b.core && e.blk == u && e.handle == hnd && e.gen == h.gen && e.glob == glob && e.addr == addr
            && e.data.length == bs.length
        let (s, vals) := match (if cached.contains (side * 512 + row) then held else none) with
          | some e => s.chosenVals t e.data []
          | none => (s.cacheOperand ⟨b.core, u, hnd, h.gen, glob, addr, bs⟩).chosenVals t bs old
        let base := side * 32768 + row * 64
        let hits := ecc.filter fun x => base ≤ x && x < base + 64
        let scaleBad := Ty.scaled t && ecc.contains (65536 + base)
        let vals := vals.mapIdx fun i v => if scaleBad || hits.contains (base + i) then FVal.fin false 0 0 else v
        (s.modBlock u fun b => b.noteEcc m row hnd stepNo (hits ++ if scaleBad then [65536 + base] else []), .ok vals)

/-- The rows of one side of a tile's step, one after another (R261). -/
def State.operandRows (u id side hnd : Nat) (h : Handle) (inc : Int) (int : Bool) (cached ecc : List Nat) (stepNo : Nat) :
    List Nat → State → State × Except (Park × Nat) (List (List FVal))
  | [], s => (s, .ok [])
  | r :: rs, s =>
    match s.operandRow u id side hnd h inc r int cached ecc stepNo with
    | (s, .error e) => (s, .error e)
    | (s, .ok vs) =>
      match State.operandRows u id side hnd h inc int cached ecc stepNo rs s with
      | (s, .error e) => (s, .error e)
      | (s, .ok vss) => (s, .ok (vs :: vss))

/-! ### Acceptance and completion (R264, R289) -/

/-- Accepts a command of the block (R264): what its operands read as goes back to its issue (R181). -/
def State.acceptM (s : State) (k : Ctx) (o : Op) (kind : MKind) : State :=
  let oid := s.oidOf k o.lane
  s.modBlock k.b.uid fun b =>
    let from_ := ((b.pending.find? fun m => m.crew == k.ci && m.ins == o.ins).map fun m => (m.home, m.sp)).getD (s.now, b.spLog.length)
    { b with mcmds := b.mcmds ++ [⟨b.nextCmd, k.ci, o.lane, oid, o.pc, kind, false, false, false, 0, from_.1, from_.2, []⟩], nextCmd := b.nextCmd + 1 }

/-- A tile takes a new value; the old one is on record (R181). -/
def Block.setTile (b : Block) (t : Nat) (x : Tile) : Block :=
  { b with tiles := b.tiles.set t x, turns := b.turns + 1, past := (t, (b.tiles[t]?).getD Tile.zero, b.turns) :: b.past }

/-- Whether an open command lets a tile be read as what it was until its `n`-th turn: the command writes the tile, and had issued by
then (R181). -/
def MOpen.lets (m : MOpen) (t n : Nat) : Bool := m.tiles.contains t && decide (m.turn ≤ n)

/-- What a block keeps on record: values of tiles since the open commands that write them issued, and writes of the scratchpad while
matrix commands are issued or pending (R181). -/
def Block.forget (b : Block) : Block :=
  { b with
    past := b.past.filter fun x => b.pending.any fun m => m.lets x.1 x.2.2
    spLog := if b.unitBusy then b.spLog else [] }

/-- An MWAIT of a crew covers the commands that the crew issued before it and that it waits for (R181, R295). -/
def MOpen.coveredBy (m : MOpen) (ci ins : Nat) (all : Bool) (t : Nat) : Bool :=
  m.crew == ci && decide (m.ins < ins) && (all || m.tiles.contains t)

/-- An MWAIT completes: the commands it covers are no longer open (R181). -/
def Block.cover (b : Block) (ci ins : Nat) (all : Bool) (t : Nat) : Block :=
  ({ b with pending := b.pending.filter fun m => !m.coveredBy ci ins all t } : Block).forget

/-- The MWAITs at which lanes of a block are parked and which these commands no longer keep waiting: crew, place, form and tile. -/
def Block.mwaitsDone (b : Block) (left : List MCmd) : List (Nat × Nat × Bool × Nat) :=
  b.crews.zipIdx.flatMap fun c => c.1.lanes.filterMap fun l => match l.park with
    | some (.mwait ins all t cs) =>
      if l.parked && cs.all fun x => !left.any (·.id == x) then some (c.2, ins, all, t) else none
    | _ => none

/-- A command completes: its pins go, the MWAITs that no longer wait for anything wake, and a crew that the block's last command kept
from retiring looks at that again (R181, R264, R270, R295). -/
def State.mDone (s : State) (u id : Nat) : State :=
  let s := s.modBlock u fun b =>
    let left := b.mcmds.filter (·.id != id)
    let done := b.mwaitsDone left
    ({ b with
        mcmds := left
        pending := b.pending.filter fun m => !done.any fun w => m.coveredBy w.1 w.2.1 w.2.2.1 w.2.2.2
        crews := b.crews.map (·.unparkWhere fun w =>
          match w with
          | .mwait _ _ _ cs => cs.all fun c => !left.any (·.id == c)
          | _ => false) } : Block).forget
  ({ s with l2 := s.l2.map fun l => { l with pins := l.pins.filter (·.1 != u) } } : State).settleCrews u

/-- The tiles a command writes (R295). -/
def MKind.tiles : MKind → List Nat
  | .mzero t | .mwrite _ t _ => [t]
  | .mloop sh t .. => sh.tiles t
  | _ => []

/-- The commands an MWAIT of a crew waits for (R295). -/
def Block.mwaitFor (b : Block) (ci : Nat) (all : Bool) (t : Nat) : List Nat :=
  (b.mcmds.filter fun m => m.crew == ci && (all || m.kind.tiles.contains t)).map (·.id)

/-- The elements of MWRITE from the values it read: row, column, value, lane by lane. -/
def elementsOf : List DWord → List (Nat × Nat × Word)
  | r :: c :: v :: rest => ((bits r 0 6).toNat, (bits c 0 6).toNat, bits v 0 32) :: elementsOf rest
  | _ => []

/-- MDESC performs: it binds the handle and advances its generation as it is accepted (R256, R291; DESIGN CHOICE, log 17). -/
def State.performMdesc (s : State) (k : Ctx) (o : Op) (l2 : Bool) (fmt : MFmt) (h : BitVec 4) (stride : Word)
    (xs : List DWord) : State :=
  let a := (xs.headD 0).toNat
  let bind : Binding := if l2 then .l2 fmt a stride.toNat else .sp fmt a (xs.tail.headD 0).toNat stride.toNat
  (s.modBlock k.b.uid fun b =>
    { b with handles := b.handles.modify h.toNat fun x => ⟨some bind, x.gen + 1⟩ }).acceptM k o (.mdesc h.toNat)

/-- MLOOP performs: its handles' bindings are captured as it is accepted (R262). -/
def State.performMloop (s : State) (k : Ctx) (o : Op) (sh : Shape) (t : BitVec 3) (ha hb : BitVec 4) (n : BitVec 16)
    (ia ib : BitVec 20) : State :=
  let hs := (s.blockOf k).handles
  s.acceptM k o (.mloop sh t.toNat n.toNat ha.toNat hb.toNat (hs[ha.toNat]?.getD ⟨none, 0⟩) (hs[hb.toNat]?.getD ⟨none, 0⟩)
    ia.toInt ib.toInt)

/-- MFENCE performs: every handle's generation advances (R181, R297; DESIGN CHOICE, log 17). -/
def State.performMfence (s : State) (k : Ctx) : State :=
  s.modBlock k.b.uid fun b => { b with handles := b.handles.map fun h => { h with gen := h.gen + 1 } }

/-- MWAIT performs in the lanes of an eighth: they go on, or park until the commands have completed (R41, R181, R295). -/
def State.performMwait (s : State) (k : Ctx) (o : Op) (os : List Op) (all : Bool) (t : BitVec 3) : State :=
  match (s.blockOf k).mwaitFor k.ci all t.toNat with
  | [] => s.modBlock k.b.uid (·.cover k.ci o.ins all t.toNat)
  | cs => os.foldl (fun s o => s.parkAfter k o.lane 2 (.mwait o.ins all t.toNat cs)) s

/-- The values a tile may be read as: the present one, and those it held since a command that writes it issued, until an MWAIT covers
that command (R181, R296). -/
def Block.tileSeen (b : Block) (t : Nat) : List Tile :=
  (b.tiles[t]?).getD Tile.zero :: (b.past.filter fun x => x.1 == t && b.pending.any fun m => m.lets t x.2.2).map (·.2.1)

/-- MREAD performs: the pick says which of these values the element is read of (R181, R296). -/
def State.performMread (s : State) (k : Ctx) (o : Op) (i64 : Bool) (t : BitVec 3) (d : Reg) (xs : List DWord)
    (picks : List Nat) : State :=
  let seen := (s.blockOf k).tileSeen t.toNat
  let tile := (seen[picks.headD 0]?).getD (seen.headD Tile.zero)
  let n := 64 * (bits (xs.headD 0) 0 6).toNat + (bits (xs.tail.headD 0) 0 6).toNat
  let ws := if i64 then [bits (tile.readI64 n) 0 32, bits (tile.readI64 n) 32 32] else [tile.readF32 n]
  s.modCur k (·.putWords o.lane d ws)

/-- The status word of MSTAT (R298). -/
def Block.mstatWord (b : Block) : Word :=
  let sat := b.tiles.zipIdx.foldl (fun n t => if t.1.sat then n + 2 ^ (8 + t.2) else n) 0
  BitVec.ofNat 32 (b.mcmds.length * 2 ^ 24 + b.mlog.length * 2 ^ 16 + sat + b.ref.toNat * 4 + b.opf.toNat * 2 + b.ecc.toNat)

/-- The tile word of MSTAT.exp (R298). -/
def Tile.word (t : Tile) : Word :=
  let kind := match t.kind with
    | .unset => 0
    | .float => 1
    | .int => 2
  let ex := match t.e with
    | some e => 2 ^ 16 + (BitVec.ofInt 16 e).toNat
    | none => 0
  BitVec.ofNat 32 (t.sat.toNat * 2 ^ 19 + kind * 2 ^ 17 + ex)

/-- A log entry of MSTAT.log; its ROW field keeps the low seven bits of a row of B (R298; DEDUCED, log 18). -/
def MLog.words (e : MLog) : List Word :=
  [BitVec.ofNat 32 (2 ^ 31 + e.elem * 2 ^ 11 + e.row % 128 * 16 + e.hnd), BitVec.ofNat 32 e.step]

/-- MSTAT performs (R298). -/
def State.performMstat (s : State) (k : Ctx) (o : Op) (d : Reg) : State :=
  let b := s.blockOf k
  s.modCur k (·.putWords o.lane d [b.mstatWord, BitVec.ofNat 32 (min b.mlost (2 ^ 32 - 1))])

/-- MSTAT.log performs (R298). -/
def State.performMstatLog (s : State) (k : Ctx) (o : Op) (d : Reg) (xs : List DWord) : State :=
  let ws := match ((s.blockOf k).mlog[(xs.headD 0).toNat]?) with
    | some e => e.words
    | none => [0, 0]
  s.modCur k (·.putWords o.lane d ws)

/-- MSTAT.exp performs (R298). -/
def State.performMstatExp (s : State) (k : Ctx) (o : Op) (t : BitVec 3) (d : Reg) : State :=
  s.modCur k (·.putWords o.lane d [(((s.blockOf k).tiles[t.toNat]?).getD Tile.zero).word, 0])

/-- MSTAT.clr performs (R298). -/
def State.performMstatClr (s : State) (k : Ctx) : State :=
  s.modBlock k.b.uid fun b => { b with ecc := false, opf := false, ref := false, mlog := [], mlost := 0 }

/-! ### The unit's steps (R263-R268) -/

/-- Refuses the head command: no tile changes, and one report is raised (R263, R272). -/
def State.mRefuse (s : State) (b : Block) (m : MCmd) (addr : Nat) : State :=
  ((s.modBlock b.uid fun b => { b with ref := true }).report b m.crew m.lane .matrixError (BitVec.ofNat 64 addr) m.pc).mDone
    b.uid m.id

/-- The format of a handle as a command begins (R263): `none` when the handle is unbound. -/
def State.beginFormat (s : State) (b : Block) (h : Handle) : State × Option (Except (Nat ⊕ (Park × Nat)) Ty) :=
  match h.bind with
  | none => (s, none)
  | some (.sp fmt ..) => (s, fmt.ty.map .ok)
  | some (.l2 fmt va _) =>
    if 2 ^ 56 ≤ va then (s, some (.error (.inl va)))
    else match s.translate b.core none b.asid va 1 .read with
      | (s, .fault _) => (s, some (.error (.inl va)))
      | (s, .park w) => (s, some (.error (.inr (w, va))))
      | (s, .ok x) =>
        if d1Fmt x.d1 ≠ 0 then (s, some (.ok (fmtTy (d1Fmt x.d1))))
        else match (if fmt == .bf16 || fmt == .f16 then fmt.ty else none) with
          | some t => (s, some (.ok t))
          | none => (s, some (.error (.inl va)))

/-- Whether a tile's kind lets a command of a kind write it (R263). -/
def Tile.takes (t : Tile) (int : Bool) : Bool := t.kind == .unset || t.kind == (if int then .int else .float)

/-- Whether a line is pinned for a block of a core (R270). -/
def State.pinnedOn (s : State) (core : Nat) (l : L2Line) : Bool :=
  l.pins.any fun p => s.blocks.any fun x => x.uid == p.1 && x.core == core

/-- The tile fetch unit reads the row chunks of a step of a handle in L2 ahead, at an offset, and pins the lines that hold them until
that step has completed, data and scale words, at most 512 on a core; what could not be read now is left to the step (R270). -/
def State.fetchRows (s : State) (b : Block) (hnd step : Nat) (h : Handle) (int : Bool) (off : Int) (rows : Nat) : State :=
  match h.bind with
  | some (.l2 fmt va stride) =>
    let ps := (List.range rows).flatMap fun r => match (s.l2Pieces b fmt va stride off r int).2 with
      | .ok (_, _, ps) => if ps.all fun p => (s.denies b.part b.clr p).isNone then ps else []
      | .error _ => []
    let s := ps.foldl (fun s p => s.l2Read b.vf b.core p) s
    let held := (s.l2.filter (s.pinnedOn b.core)).map (·.line)
    let lines := (ps.flatMap fun p => (linesOf p.home p.size).map fun x => x.1 / 256).dedup
    let pinned := lines.filter held.contains ++ (lines.filter fun x => !held.contains x).take (512 - held.length)
    { s with l2 := s.l2.map fun l =>
        if l.print == none && pinned.contains l.line then { l with pins := ((b.uid, hnd, step) :: l.pins).dedup } else l }
  | _ => s

/-- The operands of the next two steps of an MLOOP, from step `n` on, are read ahead, those of the nearer step first (R270). -/
def State.fetchAhead (s : State) (b : Block) (kind : MKind) (int : Bool) (n : Nat) : State :=
  match kind with
  | .mloop sh _ steps ha hb a h ia ib =>
    ([n, n + 1].filter (decide <| · < steps)).foldl (fun (s : State) x =>
      (s.fetchRows b ha x a int (ia * (x : Int)) (64 * sh.dims.1)).fetchRows b hb x h int (ib * (x : Int)) (64 * sh.dims.2)) s
  | _ => s

/-- An MLOOP begins: its formats, kind and tiles are checked (R263). -/
def State.beginMloop (s : State) (b : Block) (m : MCmd) (sh : Shape) (t : Nat) (ha hb : Handle) : State :=
  let (s, fa) := s.beginFormat b ha
  let (s, fb) := s.beginFormat b hb
  match fa, fb with
  | some (.error (.inr (w, va))), _ | _, some (.error (.inr (w, va))) => s.askResidency b m.crew m.lane va m.pc w
  | some (.error (.inl va)), _ | _, some (.error (.inl va)) => s.mRefuse b m va
  | some (.ok x), some (.ok y) =>
    match pairKind x y with
    | none => s.mRefuse b m 0
    | some int =>
      let n := sh.dims.1 * sh.dims.2
      if ((b.tiles.drop t).take n).all (·.takes int) then
        (s.modBlock b.uid fun b =>
          { b with mcmds := b.mcmds.map fun c => if c.id == m.id then { c with begun := true, int := int } else c }).fetchAhead b
            m.kind int 0
      else s.mRefuse b m 0
  | _, _ => s.mRefuse b m 0

/-- MATRIX_CMD_EXECUTE: the block's next command in acceptance order begins, or, when it has no steps, is carried out
(R264, R291-R294). A unit that a pre-emption has stopped begins none (R273). -/
def execMatrixCmdExecute (u : Nat) (s : State) : Host.Outcome State Fault Refusal :=
  match s.block? u with
  | none => .next s
  | some b =>
    match b.mcmds with
    | [] => .next s
    | m :: _ =>
      if m.begun || b.unitStops then .next s
      else match m.kind with
        | .mdesc _ => .next (s.mDone u m.id)
        | .mzero t => .next ((s.modBlock u fun b => b.setTile t Tile.zero).mDone u m.id)
        | .mwrite int t els =>
          let tile := (b.tiles[t]?).getD Tile.zero
          if tile.takes int then
            .next ((s.modBlock u fun b => b.setTile t (tile.write int (els.map fun e => (64 * e.1 + e.2.1, e.2.2)))).mDone u m.id)
          else .next (s.mRefuse b m 0)
        | .mloop sh t _ _ _ ha hb _ _ => .next (s.beginMloop b m sh t ha hb)

/-- Whether the unit stands within a K-step of a block's running command (R263, R273). -/
def Block.midStep (b : Block) : Bool :=
  match b.mcmds with
  | m :: _ => (match m.kind with
      | .mloop sh .. => m.step % (sh.dims.1 * sh.dims.2) != 0
      | _ => false)
  | [] => false

/-- Element (i, j) of a step: the exact sum of the 64 products (R257, R265). -/
def stepElement (a b : List FVal) : FVal := sumTerms .rne ((a.zip b).map fun p => p.1.mul p.2)

/-- MATRIX_KSTEP: one K-step over one tile of the group of the block's running MLOOP (R263, R265, R267). A row that
waits for a granule leaves the step undone (R271), and a unit that a pre-emption has stopped begins no K-step (R273). -/
def execMatrixKstep (u : Nat) (cached ecc : List Nat) (s : State) : Host.Outcome State Fault Refusal :=
  match s.block? u with
  | none => .next s
  | some b =>
    match b.mcmds with
    | ⟨id, crew, lane, _, pc, .mloop sh t n ha hb a h ia ib, true, int, _, step, _, _, _⟩ :: _ =>
      let gw := sh.dims.2
      let tiles := sh.dims.1 * gw
      let sno := step / tiles
      let i := step % tiles
      let (s1, ra) := State.operandRows u id 0 ha a ia int cached ecc sno ((List.range 64).map (· + 64 * (i / gw))) s
      let (s1, rb) := State.operandRows u id 1 hb h ib int cached ecc sno ((List.range 64).map (· + 64 * (i % gw))) s1
      if b.unitStops && i = 0 then .next s
      else match ra, rb with
      | .error (w, va), _ | _, .error (w, va) => .next (s1.askResidency b crew lane va pc w)
      | .ok ra, .ok rb =>
        let old := (b.tiles[t + i]?).getD Tile.zero
        let sums := ra.flatMap fun x => rb.map fun y => stepElement x y
        let new := if int then old.stepInt (sums.map fun x => x.onGrid 0) else old.step sums
        let new := { new with kind := if int then .int else .float }
        let s := s1.modBlock u fun b =>
          (b.setTile (t + i) new).modCmd id fun c =>
            { c with step := step + 1, noted := if i + 1 = tiles then [] else c.noted }
        let s := s.count b.vf 3 fun _ => true
        if step + 1 = n * tiles then .next (s.mDone u id)
        else if (step + 1) % tiles = 0 then
          let s : State := { s with l2 := s.l2.map fun l => { l with pins := l.pins.filter fun p => p.1 != u || decide (sno < p.2.2) } }
          .next (s.fetchAhead b (.mloop sh t n ha hb a h ia ib) int (sno + 1))
        else .next s
    | _ => .next s

end Sys2Proof.Machine
end

