-- ==== Sys2Proof/Machine/Sequence.lean ====
section
/-! DEFINITION. The sequencer of a crew (04_sweep R33-R44, 05_encoding R50-R53, 22_tenants R361): the census, fetch
lines, visits and their boundaries, sleep, shells and retirement, and lanes that unpark. -/

namespace Sys2Proof.Machine

/-! ### Lanes the census counts (R33, R35) -/

/-- Eligible, and not resumed since this sweep began (R35). -/
def Lane.wants (l : Lane) : Bool := l.eligible && !l.resumed

/-- The smallest wanted label above a bound (R33). -/
def Crew.smallest (c : Crew) (lo : Option Word) : Option Word :=
  (c.lanes.filter fun l => l.wants && (match lo with
    | some x => decide (x.toNat < l.wl.toNat)
    | none => true)).foldl (fun a l => match a with
    | some x => some (if l.wl.toNat < x.toNat then l.wl else x)
    | none => some l.wl) none

/-- Whether the crew is held at an issue boundary: a queued operation holds it, it waits in REGROUP, or a pre-emption or
abort has stopped it (R171, R219, R338, R343). -/
def Block.heldAt (b : Block) (c : Crew) : Bool :=
  c.queue.any (fun o => o.what.holds) || c.regroup.isSome || b.stopping || (b.abort.isSome && 16 ≤ c.skid)

/-! ### Faults of the sequencer (R25, R52, R53, R361) -/

/-- A context for traps that no instruction raises. -/
def seqCtx (b : Block) (ci : Nat) (c : Crew) : Ctx := ⟨b, ci, c, 0, 0⟩

/-- Traps the lanes that `p` picks; each keeps its `wl` and `ro`. -/
def State.seqTrap (s : State) (u ci : Nat) (p : Lane → Bool) (cause : Cause) (fault : Lane → DWord) (off : Lane → Word) :
    State :=
  match s.crew? u ci with
  | none => s
  | some (b, c) =>
    (c.slots.filter fun x => p x.2).foldl (fun s x =>
      s.trapLane (seqCtx b ci c) x.1 cause (fault x.2) (off x.2) x.2.wl x.2.ro) s

/-- A wanted-label fault of the lanes that `p` picks (R25, R26). -/
def State.wantedFault (s : State) (u ci : Nat) (p : Lane → Bool) : State :=
  match s.block? u with
  | none => s
  | some b => s.seqTrap u ci p .wanted (fun l => b.codeVa l.wl) (fun l => l.wl)

/-- The lanes that a fault of line n traps (R52): eligible ones whose `wl` or nonzero `ro` lies in it, and active ones
when a visit reaches it. -/
def Lane.inLine (l : Lane) (n : Nat) : Bool :=
  l.act || (l.eligible && (l.wl.toNat / 16 == n || (l.ro != 0 && l.ro.toNat / 16 == n)))

/-- A fault of a code line: malformed, or the cause of its fetch's fault; the fetch slot drops the line (R52, R361). -/
def State.lineFault (s : State) (u ci n : Nat) (cause : Cause) : State :=
  match s.block? u with
  | none => s
  | some b =>
    (s.seqTrap u ci (·.inLine n) cause (fun _ => b.codeVa (BitVec.ofNat 32 (16 * n))) (fun _ => BitVec.ofNat 32 (16 * n))).modCrew
      u ci fun c =>
        { c with line := none, next := c.next.filter (·.idx != n), lanes := c.lanes.map fun l => { l with act := false } }

/-! ### Sweeps (R33, R36, R44) -/

/-- The top of the procedure of R33: a new sweep, sleep, a shell, or retirement. The last crew of a block retires only
after the block's matrix and copy commands (R264). -/
def State.loopTop (s : State) (u ci : Nat) : State :=
  match s.crew? u ci with
  | none => s
  | some (b, _) =>
    (s.modCrew u ci fun c =>
      ({ c with seq := .census none, lanes := c.lanes.map fun l => { l with resumed := false, act := false } } : Crew).toRest
        (b.holdsLast ci)).settle u

/-- A sweep ends: `swc` advances, a counter event (R36, R386). -/
def State.sweepEnd (s : State) (u ci : Nat) : State :=
  match s.block? u with
  | none => s
  | some b =>
    ((s.modCrew u ci fun c => { c with swc := c.swc + 1 }).count b.vf 2 fun _ => b.hnd.isEmpty).loopTop u ci

/-- Lanes that want a span from its first instruction become active, and at a marked point they pass it (R33, R312, R340, R120). -/
def State.beginVisit (s : State) (u ci : Nat) (lab : Word) : State :=
  match s.crew? u ci with
  | none => s
  | some (b, c) =>
    let s := s.wantedFault u ci fun l => l.wants && l.wl == lab && l.ro != 0 && !s.inSpan b c lab.toNat l.ro.toNat
    let marked := match c.line with
      | some l => l.idx == lab.toNat / 16 && l.rewind (lab.toNat % 16 - 1)
      | none => false
    s.modCrew u ci fun c =>
      { c with
        seq := .visit lab lab
        last := some lab
        lanes := c.lanes.map fun l =>
          if l.wants && l.wl == lab && l.ro == 0 then
            if marked then { l with act := true, rwl := lab, rro := 0, kind := true, rngc := l.rng } else { l with act := true }
          else { l with act := false } }

/-- The code line that must be had before it can be told which lanes of a span have a bad `ro` (R33, R361). -/
def State.roWaits (s : State) (b : Block) (c : Crew) (lab : Word) : Option (Nat × Park) :=
  c.lanes.findSome? fun l =>
    if l.wants && l.wl == lab && l.ro != 0 then s.spanWaits b c lab.toNat l.ro.toNat else none

/-- The `oid` and slot of a lane that a load of line n serves. -/
def Crew.fetchLane (c : Crew) (n : Nat) : Nat × Word :=
  match c.slots.find? fun x => x.2.inLine n with
  | some x => (x.1, x.2.oid)
  | none => (0, 0)

/-- A crew's code line waits: a residency request stands for it (R320, R361). -/
def State.askLine (s : State) (b : Block) (ci : Nat) (c : Crew) (w : Nat × Park) : State :=
  s.askResidency b ci (c.fetchLane w.1).1 (b.code + 128 * w.1) (BitVec.ofNat 32 (16 * w.1)) w.2

/-- The census with bound `lo` has chosen a span: the visit begins, or, where a line that tells its extent waits, the sequencer stays
where it tests the span's label (R33, R361). -/
def State.startVisit (s : State) (u ci : Nat) (lo : Option Word) (lab : Word) : State :=
  match s.crew? u ci with
  | none => s
  | some (b, c) =>
    match s.roWaits b c lab with
    | some w => (s.askLine b ci c w).modCrew u ci fun c => { c with seq := .load (lab.toNat / 16) (.test lo lab) }
    | none => s.beginVisit u ci lab

/-- Whether the move to a span costs 6 cycles: it is not the next in layout after the one visited last, as far as the lines between
can be read (R38; DESIGN CHOICE, log 6). -/
def State.farMove (s : State) (b : Block) (c : Crew) (x : Word) : Bool :=
  match c.last with
  | some lab => s.nextLabel b c lab.toNat x.toNat != .label x.toNat
  | none => true

/-- `census(lo)` and what follows from it (R25, R33, R53): the visit of a span, a line to load, or the sweep's end. A move of 6
cycles discards the fetch slot's line and the prefetch (R39). -/
def State.takeCensus (u ci : Nat) : Nat → Option Word → State → State
  | 0, _, s => s
  | fuel + 1, lo, s =>
    match s.crew? u ci with
    | none => s
    | some (b, c) =>
      match c.smallest lo with
      | none => s.sweepEnd u ci
      | some x =>
        if isHeader x.toNat || b.nline ≤ x.toNat / 16 then
          State.takeCensus u ci fuel lo (s.wantedFault u ci fun l => l.wants && l.wl == x)
        else if s.farMove b c x then
          s.modCrew u ci fun c =>
            { c with
              line := none, next := none, seq := .load (x.toNat / 16) (.test lo x)
              busy := max c.busy (s.cyc + 6 + s.late) }
        else
          match c.line with
          | some l =>
            if l.idx = x.toNat / 16 then
              if l.label (x.toNat % 16 - 1) then s.startVisit u ci lo x
              else State.takeCensus u ci fuel lo (s.wantedFault u ci fun l => l.wants && l.wl == x)
            else s.modCrew u ci fun c => { c with seq := .load (x.toNat / 16) (.test lo x) }
          | none => s.modCrew u ci fun c => { c with seq := .load (x.toNat / 16) (.test lo x) }

/-- More censuses than any crew can need in one go: each traps a lane. -/
def censusFuel : Nat := 130

/-! ### The boundary before an instruction (R33, R41) -/

/-- What stands at an instruction boundary of a visit. -/
inductive Bound where
  /-- the instruction at `pc` issues next, over the active lanes and those that join there -/
  | issue (pc : Word)
  /-- the line of `pc` is to be loaded first -/
  | load (pc : Word)
  /-- the visit is over -/
  | over
deriving DecidableEq, Repr

/-- An eligible lane that waits to join the visit at an offset (R33, R43). -/
def Lane.joins (l : Lane) (lab pc : Word) : Bool := l.wants && !l.act && l.wl == lab && l.ro == pc && l.ro != 0

/-- The boundary before `pc` when some lane is active or joins there. -/
def State.boundaryAt (b : Block) (c : Crew) (lab pc : Word) : Bound :=
  if b.nline ≤ pc.toNat / 16 then .over
  else match c.line with
    | some l =>
      if l.idx ≠ pc.toNat / 16 then .load pc
      else if pc != lab && l.label (pc.toNat % 16 - 1) then .over
      else .issue pc
    | none => .load pc

/-- The boundary of a visit (R33). -/
def State.boundary (b : Block) (c : Crew) (lab pc : Word) : Bound :=
  if c.lanes.any fun l => l.act || l.joins lab pc then State.boundaryAt b c lab pc
  else
    match (c.lanes.filter fun l => l.wants && l.wl == lab && decide (pc.toNat < l.ro.toNat)).foldl
        (fun (a : Option Word) l => match a with
          | some x => some (if l.ro.toNat < x.toNat then l.ro else x)
          | none => some l.ro) none with
    | some p => State.boundaryAt b c lab p
    | none => .over

/-- Late joiners of an instruction become active (R33). -/
def Crew.joinAt (c : Crew) (lab pc : Word) : Crew :=
  { c with
    seq := .visit lab pc
    lanes := c.lanes.map fun l => if l.joins lab pc then { l with ro := 0, act := true } else l }

/-- The end of a visit at `pc`: the lanes still active fall through to the next label, which that is, where it is not past the code
(R33, R53). -/
def State.endVisit (s : State) (u ci : Nat) (pc : Word) : State :=
  match s.crew? u ci with
  | none => s
  | some (b, _) =>
    let nl := if b.nline ≤ pc.toNat / 16 then b.pastCode else pc
    s.modCrew u ci fun c =>
      { c with lanes := c.lanes.map fun l => if l.act then { l with wl := nl, ro := 0, act := false } else l }

/-- SPAN_CENSUS: at the end of a visit, or where a census is due, the sequencer chooses the smallest eligible wanted
label ahead, or ends the sweep (R33). -/
def execSpanCensus (u ci : Nat) (s : State) : Host.Outcome State Fault Refusal :=
  match s.crew? u ci with
  | none => .next s
  | some (b, c) =>
    if b.heldAt c then .next s
    else match c.seq with
      | .census none =>
        if c.lanes.any (·.eligible) then
          .next (State.takeCensus u ci censusFuel none
            (s.modCrew u ci fun c => { c with lanes := c.lanes.map fun l => { l with resumed := false } }))
        else .next (s.loopTop u ci)
      | .census lo => .next (State.takeCensus u ci censusFuel lo s)
      | .visit lab pc =>
        if State.boundary b c lab pc = .over then
          .next (State.takeCensus u ci censusFuel (some lab) (s.endVisit u ci pc))
        else .next s
      | .asleep | .shell => .next (s.settleCrew u ci)
      | _ => .next s

/-! ### Fetch lines (R39, R49, R52, R328, R361) -/

/-- How a line's fetch ends. -/
inductive Fetch where
  | line (l : Line)
  | fault (c : Cause)
  | wait (w : Park)
deriving DecidableEq, Repr

/-- The bytes of pieces of code, through the core's instruction cache (R39). -/
def State.codeBytes (s : State) (b : Block) (ps : List Piece) (pick : Nat) : State × List Byte :=
  ps.foldl (fun r p => (linesOf p.home p.size).foldl (fun r x =>
    let (s, line) := r.1.codeLine b p.va ⟨x.1, p.key, p.sealId, p.tier, 0, 0⟩ (r.1.codeFrom b p.va x.1) pick
    (s, r.2 ++ (line.drop (x.1 % 256)).take x.2)) r) (s, [])

/-- Fetches a code line (R39, R49). A denied line is zeros (R328). -/
def State.fetch (s : State) (b : Block) (ci : Nat) (c : Crew) (n pick : Nat) : State × Fetch :=
  let va := b.code + 128 * n
  match State.translateRun b.core (some c.quad) b.asid .exec 4 s va 128 with
  | (s, _, some (_, .fault e)) => (s, .fault e)
  | (s, _, some (a, .park w)) => (s.askResidency b ci (c.fetchLane n).1 a (BitVec.ofNat 32 (16 * n)) w, .wait w)
  | (s, ps, _) =>
    let ps := ps.map fun p => pieceOf p.1 p.2.1 p.2.2
    match ps.filterMap fun p => s.denies b.part b.clr p with
    | sl :: _ =>
      (s.denial b.part b.vf va (c.fetchLane n).2 b.launch (.lane b.core) false sl.2 sl.1, .line ⟨n, List.replicate 16 0⟩)
    | [] =>
      let (s, bs) := s.codeBytes b ps pick
      (s, .line ⟨n, lineWords bs⟩)

/-- The next line is prefetched, unless its fetch would fault or wait; it is checked only when it is loaded (R39, R52). -/
def State.prefetch (s : State) (u ci n time : Nat) : State :=
  match s.crew? u ci with
  | none => s
  | some (b, c) =>
    if b.nline ≤ n then s.modCrew u ci fun c => { c with next := none }
    else match s.lineX b n with
      | none => s.modCrew u ci fun c => { c with next := none }
      | some x =>
        if (s.denies b.part b.clr (pieceOf 0 128 x)).isSome then s.modCrew u ci fun c => { c with next := none }
        else match s.fetch b ci c n time with
          | (s, .line l) => s.modCrew u ci fun c => { c with next := some l }
          | (s, _) => s

/-- The census that follows a fault of the line being loaded (R52). -/
def State.afterLineFault (s : State) (u ci : Nat) (k : Cont) : State :=
  State.takeCensus u ci censusFuel (match k with
    | .test lo _ => lo
    | .run lab _ => some lab) s

/-- A line stands in the fetch slot, checked: the sequencer goes on (R33). -/
def State.lineReady (s : State) (u ci : Nat) (l : Line) (k : Cont) : State :=
  match k with
  | .test lo x =>
    if l.label (x.toNat % 16 - 1) then s.startVisit u ci lo x
    else State.takeCensus u ci censusFuel lo (s.wantedFault u ci fun y => y.wants && y.wl == x)
  | .run lab pc => s.modCrew u ci fun c => { c with seq := .visit lab pc }

/-- A line is loaded into the fetch slot and checked, and the next one is prefetched (R39, R52). -/
def State.lineLoaded (s : State) (u ci : Nat) (l : Line) (k : Cont) (time : Nat) : State :=
  if l.wellFormed then ((s.modCrew u ci fun c => { c with line := some l }).prefetch u ci (l.idx + 1) time).lineReady u ci l k
  else (s.lineFault u ci l.idx .malformed).afterLineFault u ci k

/-- A word of a line by code offset. -/
def Line.wordAt (l : Line) (o : Nat) : DWord := l.words[o % 16]?.getD 0

/-- The instruction at a code offset of a line. A word that decodes to no instruction issues as what it is: one that is not
legal (R68, R69; DEDUCED, log 29). -/
def Line.instrAt (l : Line) (o : Nat) : Instr :=
  let w := l.wordAt o
  match decodeWords w (if lengthOf w = 2 then l.wordAt (o + 1) else 0) with
  | .ok i => i
  | .error _ => .unassignedMajor w

/-- The code line a crew waits for to learn where lanes go on after an instruction: an operation of its queue, or what it issues
next (R41, R361). -/
def State.afterLine (s : State) (b : Block) (c : Crew) : Option (Nat × Park) :=
  let at_ := fun (pc : Word) (len : Nat) => (s.afterWaits b c pc len).map fun w => (slotAfter pc.toNat len / 16, w)
  match c.queue.findSome? fun o => o.what.afterLen.bind (at_ o.pc) with
  | some w => some w
  | none => match c.seq, c.line with
    | .visit lab pc, some l => match State.boundary b c lab pc with
      | .issue p => if (l.instrAt p.toNat).leavesAfter then at_ p (l.instrAt p.toNat).len else none
      | _ => none
    | _, _ => none

/-- FETCH_LINE_LOAD: loads the line a census or a visit needs into the fetch slot and checks it; the prefetched line
serves when it is the one needed (R39, R52). Where only the place after an instruction is to be known, its line is asked for (R361). -/
def execFetchLineLoad (u ci time : Nat) (s : State) : Host.Outcome State Fault Refusal :=
  match s.crew? u ci with
  | none => .next s
  | some (b, c) =>
    let want : Option (Nat × Cont) := match c.seq with
      | .load n k => some (n, k)
      | .visit lab pc => match State.boundary b c lab pc with
        | .load p => some (p.toNat / 16, .run lab p)
        | _ => none
      | _ => none
    match want with
    | none => .next (match s.afterLine b c with
        | some w => s.askLine b ci c w
        | none => s)
    | some (n, k) =>
      if b.heldAt c then .next s
      else match c.line.filter (·.idx == n), c.next.filter (·.idx == n) with
        | some l, _ => .next (s.lineReady u ci l k)
        | none, some l => .next (s.lineLoaded u ci l k time)
        | none, none =>
          match s.fetch b ci c n time with
          | (s, .line l) => .next (s.lineLoaded u ci l k time)
          | (s, .fault e) => .next ((s.lineFault u ci n e).afterLineFault u ci k)
          | (s, .wait _) => .next (s.modCrew u ci fun c => { c with seq := .load n k })

/-! ### Unparking (R42-R44, R177) -/

/-- The piece a parked WAITC reads: its home address, with the key and seal that its address has now (R177, R327). -/
def State.waitcPiece (s : State) (b : Block) (va n : Nat) : Option Piece :=
  match s.walkEntry b.core none b.asid va with
  | .error _ => none
  | .ok e => match s.checkX b.asid e va .read with
    | .ok x => some (pieceOf va n x)
    | _ => none

/-- Whether a parked WAITC's word compares true now (R177, R203). -/
def State.waitcNow (s : State) (b : Block) (w : Park) : Bool :=
  match w with
  | .waitc _ va cond z rhs _ => match s.waitcPiece b va z.size with
    | some p => s.waitcTrue b.part b.clr p cond z rhs
    | none => false
  | _ => false

/-- Whether what a lane is parked for has come about. A residency wait ends only when an RINVAL covers it (R321). -/
def State.parkOver (s : State) (b : Block) (ci : Nat) (w : Park) : Bool :=
  match w with
  | .residency .. => false
  | .watermark asid g => match s.walkEntry b.core none asid (g * 4096) with
    | .error _ => true
    | .ok e => !d1Closed e.d1 g
  | .network n _ => !(s.net n).closed
  | .waitc .. => s.waitcNow b w
  | .await a gen => b.genAt a != gen
  | .bar i => decide (i < b.barInst)
  | .barc i => decide (i < b.barcInst)
  | .xwait _ ops .. => ops.all fun i => !s.colls.any fun o => o.id == i && !o.done
  | .mwait _ _ _ cs => cs.all fun c => !b.mcmds.any fun m => m.id == c && m.crew == ci

/-- A lane unparks at a boundary of its crew, and a sleeping crew wakes (R43, R44). -/
def State.unpark (s : State) (u ci l : Nat) : State :=
  s.modCrew u ci fun c =>
    let c := c.modLane l fun x => { x with parked := false, park := none }
    if c.seq == .asleep && c.lanes.any (·.eligible) then { c with seq := .census none } else c

/-- A parked lane of a crew, with what it is parked for. -/
def State.parkedAt (s : State) (u ci l : Nat) : Option (Block × Lane × Park) :=
  match s.crew? u ci with
  | none => none
  | some (b, c) => match c.lanes[l]? with
    | some x => match x.park with
      | some w => if x.parked then some (b, x, w) else none
      | none => none
    | none => none

/-- A lane's wait is over: a WAITC performs at the read that found it true, and the lane's coherence floor moves there, at the home its
address has now (R177, R198, R327); an MWAIT and an XWAIT have completed (R181, R284). -/
def State.endWait (s : State) (b : Block) (ci l : Nat) (w : Park) : State :=
  match w with
  | .waitc _ va _ z _ _ =>
    match s.waitcPiece b va z.size with
    | some p => ((s.l2Read b.vf b.core p).modLane b.uid ci l (·.raise s.now p.home z.size)).unpark b.uid ci l
    | none => s.unpark b.uid ci l
  | .mwait ins all t _ => (s.modBlock b.uid (·.cover ci ins all t)).unpark b.uid ci l
  | .xwait .. => (s.modLane b.uid ci l fun x => { x with waited := none }).unpark b.uid ci l
  | _ => s.unpark b.uid ci l

/-- LANE_UNPARK: a parked lane whose condition holds becomes eligible (R43); for a WAITC this is a monitor's read. -/
def execLaneUnpark (u ci l : Nat) (s : State) : Host.Outcome State Fault Refusal :=
  match s.parkedAt u ci l with
  | some (b, _, w) => .next (if s.parkOver b ci w then s.endWait b ci l w else s)
  | none => .next s

/-- WAITC_POLL: a parked WAITC's word is read at home again, and the lane goes on where it compares true (R177). -/
def execWaitcPoll (u ci l : Nat) (s : State) : Host.Outcome State Fault Refusal :=
  match s.parkedAt u ci l with
  | some (b, _, w) => .next (if s.waitcNow b w then s.endWait b ci l w else s)
  | none => .next s

/-- DRAIN: the entry leaves the store buffer for home, if it is the oldest one for its bytes (R166). -/
def execDrain (u k : Nat) (s : State) : Host.Outcome State Fault Refusal :=
  match s.block? u with
  | some b => .next (if oldestEntry b.storeBuf k then s.drainAt u k else s)
  | none => .next s

/-! ### Which crew issues (R33, R69, R219-R222) -/

/-- The offset and instruction that a crew issues next, when it is ready but for what R221 holds back (R33, R104, R219). Where lanes
would go on after it is known (R361). -/
def State.readyInstr (s : State) (b : Block) (ci : Nat) (c : Crew) : Option (Word × Word × Instr) :=
  match c.seq, c.line with
  | .visit lab pc, some l =>
    if b.heldAt c then none
    else match State.boundary b c lab pc with
      | .issue p =>
        let i := l.instrAt p.toNat
        if b.mayIssue c i && s.linkFree b ci (c.joinAt lab p) i && (!i.leavesAfter || (s.afterWaits b c p i.len).isNone) then some (lab, p, i) else none
      | _ => none
  | _, _ => none

end Sys2Proof.Machine

namespace Sys2Proof

/-- Global and lane-private accesses, which R221 may hold back. -/
def Instr.throttled : Instr → Bool
  | .ld .. | .ldl .. | .st .. | .stl .. | .waitc .. | .pref .. => true
  | .atom _ _ _ spc _ _ | .red _ _ _ spc _ _ | .cas _ _ spc _ _ => spc == .global
  | _ => false

end Sys2Proof

namespace Sys2Proof.Machine

/-- The crews of a core that have not retired, with their blocks and places. -/
def State.coreCrews (s : State) (core : Nat) : List (Block × Nat × Crew) :=
  (s.blocks.filter (·.core == core)).flatMap fun b =>
    (b.crews.zipIdx.filter fun x => x.1.seq != .retired).map fun x => (b, x.2, x.1)

/-- Whether a crew is promoted, or has been ready for as long as that takes (R222). -/
def State.foremost (s : State) (c : Crew) : Bool := c.promoted || decide (c.since + 1024 ≤ s.cyc)

/-- The limit N of a core (R221). -/
def State.limit (s : State) (core : Nat) : Nat :=
  32 - min 28 (((s.coreCrews core).foldl (fun n x => n + s.scoreOf core x.2.2) 0) / 256)

/-- Whether R221 holds a crew back from an instruction: it stands outside the first N by score, the older first among equals. -/
def State.heldBack (s : State) (core : Nat) (c : Crew) (i : Instr) : Bool :=
  i.throttled && !s.foremost c && decide (s.limit core ≤ (s.coreCrews core).countP fun x =>
    let its := s.scoreOf core x.2.2
    decide (s.scoreOf core c < its) || (its == s.scoreOf core c && decide (x.2.2.age < c.age)))

/-- Where a crew stands among those of its quadrant: promoted ones come first, then the handler crew, then the others (R219, R222,
R333). -/
def State.rank (s : State) (b : Block) (c : Crew) : Nat :=
  if s.foremost c then 0 else if b.hnd != [] then 1 else 2

/-- Whether a crew is certainly ready by now: R221 does not hold it back, and the results of what it has issued are ready (R104, R219;
DESIGN CHOICE, log 1). -/
def State.surelyReady (s : State) (b : Block) (ci : Nat) (c : Crew) : Bool :=
  decide (c.busy ≤ s.cyc) && (s.readyInstr b ci c).any fun x => !s.heldBack b.core c x.2.2

/-- Whether the quadrant's slot may go to a crew: no crew that is certainly ready comes before it by rank, or, at one rank, by age
(R219, R222, R333). -/
def State.mayChoose (s : State) (b : Block) (c : Crew) : Bool :=
  (s.coreCrews b.core).all fun x =>
    let mine := s.rank b c
    let its := s.rank x.1 x.2.2
    x.2.2.quad != c.quad || !(decide (its < mine) || (its == mine && decide (x.2.2.age < c.age)))
      || !s.surelyReady x.1 x.2.1 x.2.2

/-- CREW_PROMOTE: a crew that has been ready, or held only by R221, for 1,024 cycles without issuing (R222). -/
def execCrewPromote (u ci : Nat) (s : State) : Host.Outcome State Fault Refusal :=
  match s.crew? u ci with
  | none => .next s
  | some (b, c) =>
    .next (if (s.readyInstr b ci c).isSome && decide (c.since + 1024 ≤ s.cyc) then
        s.modCrew u ci fun c => { c with promoted := true }
      else s)

/-- LOCALITY_SCORE_DECAY: every 1,024 cycles every score of a core is halved, rounded down (R221). -/
def execLocalityScoreDecay (core : Nat) (s : State) : Host.Outcome State Fault Refusal := .next (s.halve core)

end Sys2Proof.Machine
end

