-- ==== Sys2Proof/Machine/Copy.lean ====
section
/-! DEFINITION. The copy engine (16 R254-R255, 17_engines R274-R280, 18_engine_instructions R299-R303): its
instructions, how they post their commands, and the events that run them. -/

namespace Sys2Proof.Machine

/-! ### Commands as an instruction posts them (R299-R301) -/

/-- The scratchpad offset of an operand and OFF; sums wrap only modulo 2^64 (R274). -/
def spOffset (x : DWord) (off : BitVec 12) : Nat := (bits x 0 32).toNat + off.toNat

/-- Destination stride of CCOPY and CFILL: 0 means the row's bytes (R300). -/
def copyStride (w : CopyWord) : Nat := if w.ds = 0 then w.rb.toNat + 1 else w.ds.toNat

/-- The command an instruction posts from the values of D, A and B (R299-R301): its kind, rows and row bytes. -/
def copyOf (i : Instr) (d a b : DWord) : CKind × Nat × Nat :=
  let ix := (bits b 0 32).toNat / 4 * 4
  match i with
  | .cgather _ r .. =>
    (.gather a.toNat r.str.toNat (some ix) (spOffset d r.off) (r.rb.toNat + 1) false, r.nr.toNat, r.rb.toNat + 1)
  | .cscatter _ r .. =>
    (.scatter a.toNat r.str.toNat (some ix) (spOffset d r.off) (r.rb.toNat + 1), r.nr.toNat, r.rb.toNat + 1)
  | .cscatadd _ t r .. => (.scatadd t a.toNat r.str.toNat ix (spOffset d r.off), r.nr.toNat, r.rb.toNat + 1)
  | .ccopy _ .g2s mc w .. =>
    (.gather a.toNat w.ss.toNat none (spOffset d w.off) (copyStride w) mc, w.nr.toNat + 1, w.rb.toNat + 1)
  | .ccopy _ .s2g _ w .. =>
    (.scatter d.toNat (copyStride w) none (spOffset a w.off) w.ss.toNat, w.nr.toNat + 1, w.rb.toNat + 1)
  | .ccopy _ .s2s _ w .. =>
    (.spsp (bits a 0 32).toNat w.ss.toNat (spOffset d w.off) (copyStride w), w.nr.toNat + 1, w.rb.toNat + 1)
  | .cfill _ glob w .. =>
    (.fill (bits a 0 32) glob (if glob then d.toNat else spOffset d w.off) (copyStride w), w.nr.toNat + 1, w.rb.toNat + 1)
  | _ => (.fill 0 true 0 0, 0, 0)

/-- The bytes from the first to the last of `n` rows. -/
def rowExtent (first stride n b : Nat) : Nat × Nat := (first, (n - 1) * stride + b)

/-- The scratchpad extents a command names, the arrival word first (R302). -/
def CKind.extents (c : CKind) (n b aw : Nat) : List (Nat × Nat) :=
  (aw, 8) :: match c with
    | .gather _ _ idx dst ds _ => (idx.map fun i => (i, 4 * n)).toList ++ [rowExtent dst ds n b]
    | .scatter _ _ idx src ss => (idx.map fun i => (i, 4 * n)).toList ++ [rowExtent src ss n b]
    | .scatadd _ _ _ idx src => [(idx, 4 * n), rowExtent src b n b]
    | .spsp src ss dst ds => [rowExtent src ss n b, rowExtent dst ds n b]
    | .fill _ glob dst ds => if glob then [] else [rowExtent dst ds n b]

/-- The checks of R302: the trap a lane takes instead of posting. HINFO's address is the first byte of the first extent, in this order,
that does not fit (21_traps_preemption R330; DESIGN CHOICE, log 46). -/
def CKind.check (c : CKind) (n b aw size : Nat) : Option (Cause × Nat) :=
  if aw % 8 ≠ 0 then some (.misaligned, aw)
  else ((c.extents n b aw).find? fun e => decide (size < e.1 + e.2)).map fun e => (.scratchBound, e.1)

/-- The value an operand of a copy instruction gives: a pair, or one register. -/
def Crew.copyArg (c : Crew) (l : Lane) (pair : Bool) (r : Reg) : DWord :=
  if pair then c.rd64 l r else (c.rd l r).setWidth 64

/-- Issues a copy instruction: each guard-true active lane checks its command and then posts it (R275, R289, R302). -/
def issueCopy (i : Instr) (pd pa : Bool) (d a b c : Reg) (s : State) : Host.Outcome State Fault Refusal :=
  issueOnce i (·.takers i.guard) (fun k s j l =>
    let xs := [k.c.copyArg l pd d, k.c.copyArg l pa a, k.c.copyArg l false b, k.c.copyArg l false c]
    let (kind, n, rb) := copyOf i (k.c.copyArg l pd d) (k.c.copyArg l pa a) (k.c.copyArg l false b)
    match kind.check n rb (k.c.rd l c).toNat k.b.scratchSize with
    | some (cause, x) => s.trapAgain k j cause (BitVec.ofNat 64 x)
    | none => s.push k j (.instr i xs)) s

/-- CGATHER (16 R254, R299). -/
def execCgather (g : Guard) (r : RowWord) (d a b c : Reg) (s : State) : Host.Outcome State Fault Refusal :=
  issueCopy (.cgather g r d a b c) false true d a b c s

/-- CSCATTER (R274, R299). -/
def execCscatter (g : Guard) (r : RowWord) (d a b c : Reg) (s : State) : Host.Outcome State Fault Refusal :=
  issueCopy (.cscatter g r d a b c) false true d a b c s

/-- CSCATADD (R274, R299). -/
def execCscatadd (g : Guard) (t : Ty) (r : RowWord) (d a b c : Reg) (s : State) : Host.Outcome State Fault Refusal :=
  issueCopy (.cscatadd g t r d a b c) false true d a b c s

/-- CCOPY (R277, R300). -/
def execCcopy (g : Guard) (dir : CopyDir) (mc : Bool) (w : CopyWord) (d a c : Reg) (s : State) :
    Host.Outcome State Fault Refusal :=
  issueCopy (.ccopy g dir mc w d a c) (dir == .s2g) (dir == .g2s) d a .none c s

/-- CFILL (R301). -/
def execCfill (g : Guard) (glob : Bool) (w : CopyWord) (d a c : Reg) (s : State) :
    Host.Outcome State Fault Refusal :=
  issueCopy (.cfill g glob w d a c) glob false d a .none c s

/-- CSTAT (R303). -/
def execCstat (g : Guard) (d : Reg) (s : State) : Host.Outcome State Fault Refusal :=
  issueEngine (.cstat g d) false (fun _ _ => []) s

/-- CSTAT.clr (R303). -/
def execCstatClr (g : Guard) (d : Reg) (s : State) : Host.Outcome State Fault Refusal :=
  issueEngine (.cstatClr g d) true (fun _ _ => []) s

/-! ### Posting (R178, R254, R289, R303) -/

/-- The index entries of a command (R254). -/
def Block.indexes (b : Block) (c : CKind) (n : Nat) : List Word :=
  let read := fun ix => (List.range n).map fun i => BitVec.ofNat 32 (leNat (b.scratchBytes (ix + 4 * i) 4))
  match c with
  | .gather _ _ (some ix) .. | .scatter _ _ (some ix) .. | .scatadd _ _ _ ix _ => read ix
  | _ => []

/-- A copy instruction performs in a lane: its command takes a slot, and its index vector is read (R178, R254). -/
def State.performCopy (s : State) (k : Ctx) (o : Op) (i : Instr) (xs : List DWord) : State :=
  let (kind, n, rb) := copyOf i (xs.headD 0) (xs.tail.headD 0) ((xs.drop 2).headD 0)
  let oid := s.oidOf k o.lane
  s.modBlock k.b.uid fun b =>
    { b with
      ccmds := b.ccmds ++ [⟨b.nextCmd, k.ci, o.lane, oid, o.pc, kind, n, rb, (bits ((xs.drop 3).headD 0) 0 32).toNat,
        b.indexes kind n, [], [], [], 0, [], false, s.now⟩]
      nextCmd := b.nextCmd + 1 }

/-- The status words of CSTAT (R303). -/
def Block.cstatWords (b : Block) : List Word :=
  [BitVec.ofNat 32 (b.cecc.toNat * 2 ^ 9 + b.cerr.toNat * 2 ^ 8 + b.ccmds.length), BitVec.ofNat 32 (min b.cden (2 ^ 32 - 1))]

/-- CSTAT performs; with `clr` it then clears the flags and the count (R303). -/
def State.performCstat (s : State) (k : Ctx) (o : Op) (d : Reg) (clr : Bool) : State :=
  let s := s.modCur k (·.putWords o.lane d (s.blockOf k).cstatWords)
  if clr then s.modBlock k.b.uid fun b => { b with cecc := false, cerr := false, cden := 0 } else s

/-! ### Rows and pieces (R274, R276) -/

/-- The global address of row `i`: modulo 2^64 (R274). -/
def CCmd.rowGlobal (c : CCmd) (i : Nat) : Option Nat :=
  let x := ((c.idxs[i]?).getD 0).toNat
  match c.kind with
  | .gather base t idx .. | .scatter base t idx .. => some ((base + (if idx.isSome then x else i) * t) % 2 ^ 64)
  | .scatadd _ base t _ _ => some ((base + x * t) % 2 ^ 64)
  | .fill _ true dst ds => some ((dst + i * ds) % 2 ^ 64)
  | _ => none

/-- The scratchpad offset of row `i` on the side of global memory's other end, or of its destination (R274). -/
def CCmd.rowScratch (c : CCmd) (i : Nat) : Option Nat :=
  match c.kind with
  | .gather _ _ _ dst ds _ => some (dst + i * ds)
  | .scatter _ _ _ src ss => some (src + i * ss)
  | .scatadd _ _ _ _ src => some (src + i * c.rb)
  | .spsp _ _ dst ds => some (dst + i * ds)
  | .fill _ false dst ds => some (dst + i * ds)
  | .fill .. => none

/-- The second scratchpad run of row `i`: the source of a copy within the scratchpad. -/
def CCmd.rowSource (c : CCmd) (i : Nat) : Option Nat :=
  match c.kind with
  | .spsp src ss .. => some (src + i * ss)
  | _ => none

/-- The address whose quarters cut row `i` into pieces: the global one if there is one (R276). -/
def CCmd.rowCut (c : CCmd) (i : Nat) : Nat := ((c.rowGlobal i).or (c.rowScratch i)).getD 0

/-- How many data pieces row `i` has. -/
def CCmd.pieceCount (c : CCmd) (i : Nat) : Nat := (c.rowCut i % 64 + c.rb + 63) / 64

/-- Piece `p` of row `i`: its first byte within the row, and its length. -/
def CCmd.piece (c : CCmd) (i p : Nat) : Nat × Nat :=
  let a := c.rowCut i % 64
  let lo := 64 * p - a
  (lo, min c.rb (64 * (p + 1) - a) - lo)

/-- The runs of bytes a piece touches: global or not, address, length. -/
def CCmd.runs (c : CCmd) (i p : Nat) : List (Bool × Nat × Nat) :=
  let (lo, n) := c.piece i p
  ((c.rowGlobal i).map fun a => (true, a + lo, n)).toList ++ ((c.rowScratch i).map fun a => (false, a + lo, n)).toList
    ++ ((c.rowSource i).map fun a => (false, a + lo, n)).toList

/-- Whether a piece may perform: it has not, and no piece of an earlier row that overlaps it is still to perform
(R276). -/
def CCmd.mayPiece (c : CCmd) (i p : Nat) : Bool :=
  !c.done.contains (i, p)
  && (List.range i).all fun j => (List.range (c.pieceCount j)).all fun q => c.done.contains (j, q)
      || (c.runs j q).all fun x => (c.runs i p).all fun y => x.1 != y.1 || !overlap x.2.1 x.2.2 y.2.1 y.2.2

/-- Whether the pieces of a kind are read from global memory (R274). -/
def CKind.reads : CKind → Bool
  | .gather .. => true
  | _ => false

/-! ### What a piece meets (R278) -/

/-- Changes one copy command of a block. -/
def State.modCmd (s : State) (u id : Nat) (f : CCmd → CCmd) : State :=
  s.modBlock u fun b => { b with ccmds := b.ccmds.map fun c => if c.id == id then f c else c }

/-- A piece that faults sets CERR and raises the command's one report (R272, R278). -/
def State.copyFault (s : State) (b : Block) (c : CCmd) (addr : Nat) : State :=
  let first := ((s.block? b.uid).getD b).ccmds.any fun x => x.id == c.id && !x.reported
  let s := (s.modBlock b.uid fun b => { b with cerr := true }).modCmd b.uid c.id fun c => { c with reported := true }
  if first then s.report b c.crew c.lane .copyError (BitVec.ofNat 64 addr) c.pc else s

/-- A denied piece leaves one record (R255, R278). -/
def State.copyDenied (s : State) (b : Block) (c : CCmd) (va : Nat) (write : Bool) (sl : Nat × Bool) : State :=
  (s.denial b.part b.vf va c.oid b.launch (.copy b.core) write sl.2 sl.1).modBlock b.uid fun b =>
    { b with cden := b.cden + 1 }

/-- How the check of a global run of a piece ends. -/
inductive PieceRes where
  | ok (p : Piece)
  | denied (sl : Nat × Bool)
  | fault
  | wait (w : Park)
deriving DecidableEq, Repr

/-- Translates and checks a global run that lies in one quarter (R75, R76, R276). -/
def State.checkPiece (s : State) (b : Block) (va n : Nat) (kind : AccKind) : State × PieceRes :=
  if 2 ^ 56 ≤ va then (s, .fault)
  else match s.translate b.core none b.asid va n kind with
    | (s, .fault _) => (s, .fault)
    | (s, .park w) => (s, .wait w)
    | (s, .ok x) =>
      let p := pieceOf va n x
      match s.denies b.part b.clr p with
      | some sl => (s, .denied sl)
      | none => (s, .ok p)

/-- An engine read of a piece takes the newest bytes at home, through the L2 (R152, R179). -/
def State.engineRead (s : State) (vf core : Nat) (p : Piece) : State × List Byte :=
  let s := s.l2Read vf core p
  (s, s.readHome p.key p.home p.size)

/-- An engine write for a function and a block goes home at once (R179); one of host memory stays outstanding until the host acknowledges
it (24 R395). -/
def State.engineWrite (s : State) (vf u : Nat) (p : Piece) (bs : List Byte) : State :=
  (s.writeThrough vf p bs).owesHost u p.home p.size .engine

/-- The blocks whose scratchpads a command lands in: for multicast those of the block's group that are resident (R277). -/
def State.landings (s : State) (b : Block) (c : CCmd) : List Nat :=
  match c.kind with
  | .gather _ _ _ _ _ true => b.uid :: ((s.groupOf b).filter fun x => x.uid != b.uid).map (·.uid)
  | _ => [b.uid]

/-- Lands bytes at an offset of every receiving scratchpad. -/
def State.land (s : State) (b : Block) (c : CCmd) (a : Nat) (bs : List Byte) : State :=
  (s.landings b c).foldl (fun s u => s.scratchStore u a bs) s

/-- Byte `j` of a filled row (R301). -/
def fillByte (pat : Word) (j : Nat) : Byte := BitVec.ofNat 8 (pat.toNat / 256 ^ (j % 4))

/-- The current bytes of a piece's source in scratchpad, or of its pattern (R276, R301). -/
def CCmd.sourceBytes (c : CCmd) (b : Block) (i lo n : Nat) : List Byte :=
  match c.kind with
  | .fill pat .. => (List.range n).map fun j => fillByte pat (lo + j)
  | .spsp src ss .. => b.scratchBytes (src + i * ss + lo) n
  | _ => b.scratchBytes ((c.rowScratch i).getD 0 + lo) n

/-- The access code of a scatter-add's elements (R290). -/
def addAcc (t : Ty) : Acc :=
  match t with
  | .i32 => .i32
  | .i64 => .i64
  | .n64 => .n64
  | .f32 => .f32
  | _ => .n32

/-- One atomic add for each element of a piece; the block's entries for its bytes drain first (R175, R274). -/
def State.addElements (s : State) (b : Block) (p : Piece) (t : Ty) (bs : List Byte) : State :=
  let w := (addAcc t).size
  let op : AtomOp := if t == .f32 then .fadd else .add
  let s := (s.drainRun b.uid p.home p.size).l2Read b.vf b.core p
  ((List.range (bs.length / w)).foldl (fun (s : State) j =>
    let old := BitVec.ofNat 64 (s.numHome p.key (p.home + j * w) w)
    let v := BitVec.ofNat 64 (leNat ((bs.drop (j * w)).take w))
    s.writeThrough b.vf { p with va := p.va + j * w, home := p.home + j * w, size := w }
      (leBytes w ((atomNew op (addAcc t) old v).toNat % 256 ^ w))) s).owesHost b.uid p.home p.size .engine

/-! ### Performing a piece (R276, R278) -/

/-- A data piece of a row that is read from global memory lands in scratchpad (R254, R255, R278). -/
def State.readCopyPiece (s : State) (b : Block) (c : CCmd) (i p : Nat) (ecc : Bool) : State :=
  let (lo, n) := c.piece i p
  let va := (c.rowGlobal i).getD 0 + lo
  let dst := (c.rowScratch i).getD 0 + lo
  let put := fun (s : State) (bs : List Byte) (bad : Bool) =>
    (s.land b c dst bs).modCmd b.uid c.id fun c =>
      { c with done := (i, p) :: c.done, bad := if bad then (i :: c.bad).dedup else c.bad }
  match s.checkPiece b (va % 2 ^ 64) n .read with
  | (s, .wait w) => s.askResidency b c.crew c.lane (va % 2 ^ 64) c.pc w
  | (s, .fault) => put (s.copyFault b c (va % 2 ^ 64)) (List.replicate n 0) true
  | (s, .denied sl) => put (s.copyDenied b c (va % 2 ^ 64) false sl) (List.replicate n 0) true
  | (s, .ok x) =>
    if ecc then put (s.modBlock b.uid fun b => { b with cecc := true }) (List.replicate n 0) false
    else
      let (s, bs) := s.engineRead b.vf b.core x
      put s bs false

/-- A data piece that is written to global memory (R274, R278, R299). -/
def State.writeCopyPiece (s : State) (b : Block) (c : CCmd) (i p : Nat) : State :=
  let (lo, n) := c.piece i p
  let va := ((c.rowGlobal i).getD 0 + lo) % 2 ^ 64
  let bs := c.sourceBytes ((s.block? b.uid).getD b) i lo n
  let fin := fun (s : State) => s.modCmd b.uid c.id fun c => { c with done := (i, p) :: c.done }
  match c.kind with
  | .scatadd t .. =>
    if ((c.rowGlobal i).getD 0) % (addAcc t).size ≠ 0 then fin (s.copyFault b c va)
    else match s.checkPiece b va n .red with
      | (s, .wait w) => s.askResidency b c.crew c.lane va c.pc w
      | (s, .fault) => fin (s.copyFault b c va)
      | (s, .denied sl) => fin (s.copyDenied b c va true sl)
      | (s, .ok x) => fin (s.addElements b x t bs)
  | _ =>
    match s.checkPiece b va n .write with
    | (s, .wait w) => s.askResidency b c.crew c.lane va c.pc w
    | (s, .fault) => fin (s.copyFault b c va)
    | (s, .denied sl) => fin (s.copyDenied b c va true sl)
    | (s, .ok x) => fin (s.engineWrite b.vf b.uid x bs)

/-- The scale words that row `i` lands (R254, R274): the offset within its range of its first byte in blocks, how many
there are, the scale plane's intermediate address, the range's descriptor and its owner. -/
def State.rowScales (s : State) (b : Block) (c : CCmd) (i : Nat) : Option (Nat × Nat × BitVec 256 × Nat) :=
  match c.kind, c.rowGlobal i with
  | .gather .., some va =>
    if 2 ^ 56 ≤ va then none
    else match s.walk b.asid va with
      | .error _ => none
      | .ok (_, d, vf) =>
        let n := if d1Fmt d = 0 then 0 else chunkBytes (fmtTy (d1Fmt d))
        let o := va - d1Base d * 4096
        if n = 0 || c.rb % n ≠ 0 || o % n ≠ 0 || d1Limit d * 4096 + 4095 < va + c.rb - 1 then none
        else some (c.rb / n, d1Spb d * 4096 + o / n * 4, d, vf)
  | _, _ => none

/-- Scale word `j` of row `i` lands from its own read of the scale plane (R254, R278); it is zero when a piece of its row
was denied or faulted. One that would land outside the scratchpad is dropped (R302; DEDUCED, log 7), and one that its own line's
tag alone denies lands as zero and leaves a record of its own (DEDUCED, log 7). -/
def State.scalePiece (s : State) (b : Block) (c : CCmd) (i j : Nat) (ecc : Bool) : State :=
  match s.rowScales b c i with
  | none => s
  | some (m, ia, d1, vf) =>
    if m ≤ j then s
    else
      let va := (c.rowGlobal i).getD 0
      let (s, w) : State × List Byte :=
        if c.bad.contains i then (s, List.replicate 4 0)
        else match s.planePiece vf va (ia + 4 * j) 4 d1 with
          | none => (s.copyFault b c va, List.replicate 4 0)
          | some p =>
            if ecc then (s.modBlock b.uid fun b => { b with cecc := true }, List.replicate 4 0)
            else match s.denies b.part b.clr p with
              | some x => (s.copyDenied b c va false x, List.replicate 4 0)
              | none => s.engineRead b.vf b.core p
      let dst := (match c.kind with
        | .gather _ _ _ dst ds _ => dst + c.rows * ds
        | _ => 0) + 4 * (i * m + j)
      let s := if dst + 4 ≤ b.scratchSize then s.land b c dst w else s.copyFault b c dst
      s.modCmd b.uid c.id fun c =>
        { c with
          done := (i, c.pieceCount i + j) :: c.done
          scaled := (i, ((c.scaled.lookup i).getD 0) + 4) :: c.scaled.filter (·.1 != i) }

/-- COPY_PIECE: one piece of row `i` of the block's command `n`, in any order R276 allows. The pieces after the row's data pieces
are its scale words, which land once its data pieces have (DEDUCED, log 7); `ecc` marks data that is uncorrectable (R278). -/
def execCopyPiece (u n i p : Nat) (ecc : Bool) (s : State) : Host.Outcome State Fault Refusal :=
  match s.block? u with
  | none => .next s
  | some b =>
    match b.ccmds[n]? with
    | none => .next s
    | some c =>
      if c.rows ≤ i || c.done.contains (i, p) then .next s
      else if c.pieceCount i ≤ p then
        .next (if (List.range (c.pieceCount i)).all fun q => c.done.contains (i, q) then
          s.scalePiece b c i (p - c.pieceCount i) ecc else s)
      else if !c.mayPiece i p then .next s
      else if c.kind.reads then .next (s.readCopyPiece b c i p ecc)
      else match c.rowGlobal i with
        | some _ => .next (s.writeCopyPiece b c i p)
        | none =>
          let (lo, k) := c.piece i p
          .next ((s.land b c ((c.rowScratch i).getD 0 + lo) (c.sourceBytes b i lo k)).modCmd u c.id fun c =>
            { c with done := (i, p) :: c.done })

/-! ### Markers (R180, R254, R277, R279) -/

/-- Whether every piece of a row has performed. -/
def State.rowDone (s : State) (b : Block) (c : CCmd) (i : Nat) : Bool :=
  let m := match s.rowScales b c i with
    | some x => x.1
    | none => 0
  (List.range (c.pieceCount i + m)).all fun q => c.done.contains (i, q)

/-- The row at which the next marker stands (R279). -/
def CCmd.nextMark (c : CCmd) : Nat := min c.rows (c.marked + 64)

/-- COPY_MARKER: once every row before the marker has landed, or reached home, an arrival word receives the bytes since the last
marker, data and scale. With several receivers this takes one move for each, in an order that a free number picks; the command
completes at its last marker, and a crew that the block's last command kept from retiring looks at that again (R180, R254, R264, R277;
DESIGN CHOICE, log 3). -/
def execCopyMarker (u n : Nat) (s : State) : Host.Outcome State Fault Refusal :=
  match s.block? u with
  | none => .next s
  | some b =>
    match b.ccmds[n]? with
    | none => .next s
    | some c =>
      let rows := (List.range (c.nextMark - c.marked)).map (· + c.marked)
      if rows.all (s.rowDone b c) then
        let bytes := rows.foldl (fun x i => x + c.rb + (c.scaled.lookup i).getD 0) 0
        let owed := if c.owed.isEmpty then s.landings b c else c.owed
        let (k, s) := if owed.length ≤ 1 then (0, s) else s.draw
        let t := (owed[k % owed.length]?).getD u
        let s := s.arriveAt t c.aw bytes
        .next (if owed != [t] then s.modCmd u c.id fun c => { c with owed := owed.filter (· != t) }
        else if c.nextMark = c.rows then
          (s.modBlock u fun b => { b with ccmds := b.ccmds.filter (·.id != c.id) }).settleCrews u
        else s.modCmd u c.id fun c => { c with marked := c.nextMark, owed := [] })
      else .next s

end Sys2Proof.Machine
end

