-- ==== Sys2Proof/Machine/Collective.lean ====
section
/-! DEFINITION. The collective engines (17_engines R281-R287, 18_engine_instructions R304-R307, 11_ordering R182): group
declarations, operations, waits, and the events that deliver and complete them. -/

namespace Sys2Proof.Machine

/-! ### Issue (R288, R305-R307) -/

/-- XGRP (R305). -/
def execXgrp (g : Guard) (slot : BitVec 4) (a : Reg) (s : State) : Host.Outcome State Fault Refusal :=
  issueEngine (.xgrp g slot a) false (fun c l => [c.rd64 l a]) s

/-- XGRP.end (R305). -/
def execXgrpEnd (g : Guard) (slot : BitVec 4) (s : State) : Host.Outcome State Fault Refusal :=
  issueEngine (.xgrpEnd g slot) false (fun _ _ => []) s

/-- XGATHER (R306). -/
def execXgather (g : Guard) (slot : BitVec 4) (ioff cb : Word) (a : Reg) (s : State) :
    Host.Outcome State Fault Refusal :=
  issueEngine (.xgather g slot ioff cb a) false (fun c l => [c.rd64 l a]) s

/-- XRSCAT (R306). -/
def execXrscat (g : Guard) (t : Ty) (slot : BitVec 4) (ioff cb : Word) (a : Reg) (s : State) :
    Host.Outcome State Fault Refusal :=
  issueEngine (.xrscat g t slot ioff cb a) false (fun c l => [c.rd64 l a]) s

/-- XA2A (R306). -/
def execXa2a (g : Guard) (slot : BitVec 4) (ioff cb : Word) (a : Reg) (s : State) :
    Host.Outcome State Fault Refusal :=
  issueEngine (.xa2a g slot ioff cb a) false (fun c l => [c.rd64 l a]) s

/-- XBAR (R306). -/
def execXbar (g : Guard) (slot : BitVec 4) (s : State) : Host.Outcome State Fault Refusal :=
  issueEngine (.xbar g slot) false (fun _ _ => []) s

/-- XWAIT (R307): a waiting instruction, once for the crew (R288); each guard-true active lane waits. -/
def execXwait (g : Guard) (slot : BitVec 4) (s : State) : Host.Outcome State Fault Refusal :=
  issueLanes (.xwait g slot) (·.takers g) (fun k s i _ => s.push k i (.instr (.xwait g slot) [])) s

/-! ### When an instruction that acts once for the crew fails as it performs (R70, R288, R371) -/

/-- Every guard-true active lane traps, to issue the instruction again. -/
def State.trapTakers (s : State) (k : Ctx) (g : Guard) (cause : Cause) (fault : DWord) : State :=
  (k.c.takers g).foldl (fun s p => s.trapAgain k p.1 cause fault) s

/-- Every guard-true active lane parks, to issue the instruction again (R42). -/
def State.parkTakers (s : State) (k : Ctx) (g : Guard) (va : Nat) (w : Park) : State :=
  match k.c.takers g with
  | [] => s
  | p :: _ =>
    (k.c.takers g).foldl (fun s p => s.parkAgain k p.1 w) (s.askResidency k.b k.ci p.1 va k.pc w)

/-! ### Engine reads of a run of bytes (R75, R76, R179) -/

/-- How an engine's read or check of a run ends. -/
inductive RunRes where
  | ok (ps : List Piece)
  | fault (c : Cause) (va : Nat)
  | denied (sl : Nat × Bool) (va : Nat)
  | wait (w : Park) (va : Nat)
deriving DecidableEq, Repr

/-- Translates and checks a run of an address space, as a block's clearance map lets it (R75, R76). -/
def State.checkRun (s : State) (core asid part clr va n : Nat) (kind : AccKind) : State × RunRes :=
  if 2 ^ 56 < va + n then (s, .fault .rangeMiss va)
  else
    let (s, ps, r) := State.translateRun core none asid kind (n / 4096 + 3) s va n
    let ps := ps.map fun p => pieceOf p.1 p.2.1 p.2.2
    match r with
    | some (x, .fault c) => (s, .fault c x)
    | some (x, .park w) => (s, .wait w x)
    | _ =>
      match ps.findSome? fun p => (s.denies part clr p).map fun d => (d, p.va) with
      | some (d, x) => (s, .denied d x)
      | none => (s, .ok ps)

/-- The newest home bytes of checked pieces, through the L2 (R152, R179). -/
def State.readRun (s : State) (vf core : Nat) (ps : List Piece) : State × List Byte :=
  ps.foldl (fun r p =>
    let (s, bs) := r.1.engineRead vf core p
    (s, r.2 ++ bs)) (s, [])

/-- Writes bytes over checked pieces, for a function and a block (R179). -/
def State.writeRun (s : State) (vf u : Nat) (ps : List Piece) (bs : List Byte) : State :=
  (ps.foldl (fun (r : State × List Byte) p => (r.1.engineWrite vf u p (r.2.take p.size), r.2.drop p.size)) (s, bs)).1

/-! ### Groups (R304, R305) -/

/-- A field of a group record. -/
def recField (bs : List Byte) (o n : Nat) : Nat := leNat ((bs.drop o).take n)

/-- Member entry `j` (R304). -/
def recMember (bs : List Byte) (j : Nat) : Member :=
  let e := bs.drop (32 + 16 * j)
  ⟨recField e 8 8 % 2 ^ 56, recField e 4 4 % 2 ^ 21, recField e 2 1 % 16, recField e 0 2⟩

/-- Whether a member entry's reserved fields are zero (R304). -/
def recMemberOk (bs : List Byte) (j : Nat) : Bool :=
  let e := bs.drop (32 + 16 * j)
  recField e 15 1 == 0 && recField e 4 4 / 2 ^ 21 == 0 && recField e 3 1 == 0 && recField e 2 1 / 16 == 0

/-- The number of members a header gives, when it is in range. -/
def recCount (hd : List Byte) : Option Nat :=
  let n := recField hd 0 2
  if 2 ≤ n ∧ n ≤ 1024 then some n else none

/-- Whether an inbox stands as R283 asks: its range has W, is resident, and lies from there on under stage-2 descriptors that
are pinned (R305, 20 R326). -/
def State.inboxOk (s : State) (asid va : Nat) : Bool :=
  match s.walk asid va with
  | .error _ => false
  | .ok (_, d, vf) =>
    let last := d1Limit d * 4096 + 4095
    let granule := fun g => match s.mapWord vf d g with
      | some (w, g0) => w.getLsbD (g - g0)
      | none => false
    d1W d
    && (d1Mode d != 1 || (List.range (residencyGranule d last + 1 - residencyGranule d va)).all fun i =>
        granule (residencyGranule d va + i))
    && (List.range ((last + 1 - va / 4096 * 4096) / 4096)).all fun i =>
        match s.s2Find vf (d1Ia d (va / 4096 * 4096 + 4096 * i)) with
        | some e => d2Pin e
        | none => false

/-- The bytes from an inbox's base to the end of its range (R304). -/
def State.inboxSize (s : State) (asid va : Nat) : Nat :=
  match s.walk asid va with
  | .ok (_, d, _) => d1Limit d * 4096 + 4096 - va
  | .error _ => 0

/-- The group a record declares for a block, if it declares one (R304, R305; DEDUCED, log 8). -/
def State.groupRec (s : State) (b : Block) (va : Nat) (bs : List Byte) : Option Group :=
  match recCount bs with
  | none => none
  | some n =>
    let self := recField bs 2 2
    let m := recMember bs self
    let tmo := recField bs 4 4
    if self < n && recField bs 16 16 == 0 && decide (tmo ≤ 1000000) && recMemberOk bs self
        && m.dev == s.devId.toNat && m.part == b.part && m.blk == b.bid && s.inboxOk b.asid m.inbox then
      some ⟨va, BitVec.ofNat 64 (recField bs 8 8), self, tmo, (List.range n).map (recMember bs), 0⟩
    else none

/-- A denial record of a sector's collective engine (20 R329). -/
def State.denyColl (s : State) (part vf : Nat) (va : Nat) (oid launch : Word) (core : Nat) (write : Bool) (sl : Nat × Bool) :
    State :=
  s.denial part vf va oid launch (.coll (Config.sectorOf core)) write sl.2 sl.1

/-- XGRP performs (R305): the header is read first, then the record that its N gives the length of. -/
def State.performXgrp (s : State) (k : Ctx) (o : Op) (g : Guard) (slot : BitVec 4) (len : Nat) (xs : List DWord) : State :=
  let va := (xs.headD 0).toNat
  let fail := fun (s : State) => s.trapTakers k g .collError (BitVec.ofNat 64 va)
  let read := fun (s : State) n => s.checkRun k.b.core k.b.asid k.b.part k.b.clr va n .read
  let bad := fun (r : State × RunRes) => match r with
    | (s, .wait w x) => s.parkTakers k g x w
    | (s, .denied sl x) => fail (s.denyColl k.b.part k.b.vf x (s.oidOf k o.lane) k.b.launch k.b.core false sl)
    | (s, _) => fail s
  if (((s.blockOf k).groups[slot.toNat]?).getD none).isSome then fail s
  else match read s 32 with
    | (s, .ok ps) =>
      let (s, hd) := s.readRun k.b.vf k.b.core ps
      match recCount hd with
      | none => fail s
      | some n =>
        match read s (32 + 16 * n) with
        | (s, .ok ps) =>
          let (s, bs) := s.readRun k.b.vf k.b.core ps
          match s.groupRec k.b va bs with
          | some gr =>
            (s.modBlock k.b.uid fun b => { b with groups := b.groups.set slot.toNat (some gr) }).passImplicit k g len
          | none => fail s
        | r => bad r
    | r => bad r

/-- XGRP.end performs: the slot is free at once, and its open operations go on (R305). A slot that is not live stays so (DEDUCED, log 8). -/
def State.performXgrpEnd (s : State) (k : Ctx) (g : Guard) (slot : BitVec 4) (len : Nat) : State :=
  (s.modBlock k.b.uid fun b => { b with groups := b.groups.set slot.toNat none }).passImplicit k g len

/-- An operation of R306 performs: it takes the next number of its group (R281, R305), or traps when the slot is not live; there is no
record then whose address HINFO could report, and it reports 0 (21_traps_preemption R330; DESIGN CHOICE, log 8). -/
def State.performXop (s : State) (k : Ctx) (o : Op) (g : Guard) (slot : BitVec 4) (len op : Nat) (t : Ty)
    (ioff cb : Word) (src : DWord) : State :=
  match ((s.blockOf k).groups[slot.toNat]?).getD none with
  | none => s.trapTakers k g .collError 0
  | some gr =>
    let n := gr.count + 1
    let c : COp := {
      id := s.nextColl, blk := k.b.uid, slot := slot.toNat, group := gr, seq := n, op := op, t := t, src := src.toNat,
      c := cb.toNat, off := ioff.toNat, crew := k.ci, lane := o.lane, oid := s.oidOf k o.lane, pc := o.pc,
      since := s.clk.toNat, got := [], sent := [], landed := [], reported := false, done := false, kernel := none,
      asid := k.b.asid, part := k.b.part, vf := k.b.vf, clr := k.b.clr, launch := k.b.launch, core := k.b.core,
      quad := k.c.quad, cslot := k.c.slot, home := s.now }
    let s : State := { s with colls := s.colls ++ [c], nextColl := s.nextColl + 1 }
    (s.modBlock k.b.uid fun b =>
      { b with groups := b.groups.set slot.toNat (some { gr with count := n }) }).passImplicit k g len

/-- Since when an XWAIT for these operations has been parked in lanes of its crew: an eighth of it is, or these lanes were before a
pre-emption (R284). -/
def Crew.waitedSince (c : Crew) (ins : Nat) (lanes wait : List Nat) : Option Nat :=
  (c.lanes.findSome? fun l => match l.park with
    | some (.xwait n _ _ since _ _) => if l.parked && n == ins then some since else none
    | _ => none).orElse fun _ =>
  lanes.findSome? fun i => match (c.lanes[i]?).bind (·.waited) with
    | some (ops, since) => if ops.any wait.contains then some since else none
    | none => none

/-- XWAIT performs in the lanes of an eighth (R41, R307): they go on when the slot is not live or no operation that the
block issued on it is open, those of a group that has ended among them, and else they park. The time runs from when the XWAIT first
parks (R284). -/
def State.performXwait (s : State) (k : Ctx) (os : List Op) (slot : BitVec 4) : State :=
  let live := (((s.blockOf k).groups[slot.toNat]?).getD none).isSome
  let wait := (s.colls.filter fun c => c.blk == k.b.uid && c.slot == slot.toNat && !c.done).map (·.id)
  if live && !wait.isEmpty then
    let since := (k.c.waitedSince ((os.head?.map (·.ins)).getD 0) (os.map (·.lane)) wait).getD s.clk.toNat
    os.foldl (fun s o => (s.parkAfter k o.lane 2 (.xwait o.ins wait slot.toNat since o.lab o.pc)).modLane k.b.uid k.ci o.lane
      fun l => { l with waited := some (wait, since) }) s
  else os.foldl (fun s o => s.modLane k.b.uid k.ci o.lane fun l => { l with waited := none }) s

/-! ### Operations under way (R282-R286) -/

/-- An operation by its number. -/
def State.coll? (s : State) (id : Nat) : Option COp := s.colls.find? (·.id == id)

/-- Changes an operation. -/
def State.modColl (s : State) (id : Nat) (f : COp → COp) : State :=
  { s with colls := s.colls.map fun c => if c.id == id then f c else c }

/-- The number of members. -/
def COp.n (c : COp) : Nat := c.group.members.length

/-- Whether a member is on another device (R281). -/
def State.remote (s : State) (m : Member) : Bool := m.dev != s.devId.toNat

/-- Whether the route table reaches a device (24 R397). -/
def State.routed (s : State) (dev : Nat) : Bool := s.routes.any (·.1 == dev)

/-- The operation of member `j` that meets an operation (R281, R305). -/
def State.sibling (s : State) (c : COp) (j : Nat) : Option COp :=
  s.colls.find? fun x => x.group.tag == c.group.tag && x.seq == c.seq && x.group.self == j

/-- The operations of this device's members that meet an operation. -/
def State.siblings (s : State) (c : COp) : List COp := (List.range c.n).filterMap (s.sibling c)

/-- Whether every member has issued the operation; what another device issues is known from what it sends (DESIGN CHOICE, log 25). -/
def State.allIssued (s : State) (c : COp) : Bool :=
  c.group.members.zipIdx.all fun m => if s.remote m.1 then s.routed m.1.dev else (s.sibling c m.2).isSome

/-- The bytes an operation delivers to a member (R282). -/
def COp.total (c : COp) : Nat :=
  match c.op with
  | 0 | 2 => c.n * c.c
  | 1 => c.c
  | _ => 0

/-- Where a member's inbox stands. -/
def COp.inbox (c : COp) : Nat := ((c.group.members[c.group.self]?).map (·.inbox)).getD 0

/-- Whether two members' operations differ in kind or size; the type of a reduction and the number of members count (R282; DEDUCED,
log 8). -/
def COp.differs (a b : COp) : Bool := a.op != b.op || a.t != b.t || a.c != b.c || a.n != b.n

/-- Whether a member is mismatched: it differs from another member, or delivery would pass the end of its inbox (R282,
R306). -/
def State.mismatched (s : State) (c : COp) : Bool :=
  ((s.siblings c).any fun x => c.differs x) || (c.op != 3 && decide (s.inboxSize c.asid c.inbox < c.off + c.total))

/-- A member's engine report, one for each operation (R272, R282, R306). -/
def State.collReport (s : State) (c : COp) (addr : Nat) : State :=
  if ((s.coll? c.id).map (·.reported)).getD true then s
  else
    let s := s.modColl c.id fun c => { c with reported := true }
    let origin : Option Origin := (s.block? c.blk).map fun _ => ⟨c.blk, c.crew, c.lane⟩
    s.gather c.core ⟨.collReport, originTag c.launch .collReport c.core c.quad c.cslot c.lane, origin, BitVec.ofNat 64 addr,
      c.pc, c.part, 0, false⟩

/-- Contribution bytes on their way to an inbox, with the `oid` of the lane that posted them and the launch and seal that the write
carries (24 R397). -/
structure Sent where
  bytes : List Byte
  oid : Word
  launch : Word
  sealId : Nat
deriving DecidableEq, Repr

/-- `n` bytes that another device sends, with what they carry: nothing here decides them (DESIGN CHOICE, log 25). -/
def State.remoteBytes (s : State) (n : Nat) : State × Sent :=
  let (s, bs) := s.freeBytes n
  ({ s with draws := s.draws + 3 },
    ⟨bs, Config.freeWord s.draws, Config.freeWord (s.draws + 1), Config.freeNat (s.draws + 2) % 2 ^ 16⟩)

/-- An access of an operation waits for a granule, which its block asks for while it is resident (R320). -/
def State.collWaits (s : State) (c : COp) (va : Nat) (w : Park) : State :=
  match s.block? c.blk with
  | some b => s.askResidency b c.crew c.lane va c.pc w
  | none => s

/-- Reads `n` contribution bytes of an operation at an offset of its source (R283, R306): zeros where the read faults, with
a report, or is denied, with a record. `none` waits for a granule. -/
def State.readContribution (s : State) (c : COp) (o n : Nat) : State × Option Sent :=
  let zeros : Sent := ⟨List.replicate n 0, c.oid, c.launch, 0⟩
  match s.checkRun c.core c.asid c.part c.clr ((c.src + o) % 2 ^ 64) n .read with
  | (s, .ok ps) =>
    let (s, bs) := s.readRun c.vf c.core ps
    (s, some ⟨bs, c.oid, c.launch, (ps.head?.map (·.sealId)).getD 0⟩)
  | (s, .fault _ va) => (s.collReport c va, some zeros)
  | (s, .denied sl va) => (s.denyColl c.part c.vf va c.oid c.launch c.core false sl, some zeros)
  | (s, .wait w va) => (s.collWaits c va w, none)

/-- Writes bytes at an offset of a member's inbox, at home (R179, R283); the lines keep the seal that the write carries (20 R328,
24 R397; DEDUCED, log 8). A write that its seal denies is dropped, and logged under the launch it carries (R306), and one that finds
no translation is dropped. Where members give different IOFFs, the receiving member's own governs (R306; DESIGN CHOICE, log 8). The
Bool says that it did not wait for a granule. -/
def State.writeInbox (s : State) (c : COp) (o : Nat) (x : Sent) : State × Bool :=
  match s.checkRun c.core c.asid c.part c.clr (c.inbox + c.off + o) x.bytes.length .write with
  | (s, .ok ps) =>
    ((s.writeRun c.vf c.blk (ps.map fun p => { p with sealId := x.sealId }) x.bytes).modColl c.id fun c =>
      { c with landed := c.landed ++ ps.map fun p => (p.home, p.size) }, true)
  | (s, .denied sl va) => (s.denyColl c.part c.vf va x.oid x.launch c.core true sl, true)
  | (s, .wait w va) => (s.collWaits c va w, false)
  | (s, .fault ..) => (s, true)

/-- The contribution bytes of member `j` at an offset of its source, whichever device it is on. -/
def State.memberBytes (s : State) (c : COp) (j o n : Nat) : State × Option Sent :=
  match c.group.members[j]? with
  | none => (s, none)
  | some m =>
    if s.remote m then
      if s.routed m.dev then
        let (s, x) := s.remoteBytes n
        (s, some x)
      else (s, none)
    else match s.sibling c j with
      | some x => s.readContribution x o n
      | none => (s, none)

/-- One node of a reduction (R286). -/
def combine (t : Ty) (x y : Nat) : Nat :=
  match t with
  | .f32 | .bf16 => (roundTo t .rne false false (sumTerms .rne [dec t false x, dec t false y]) 0).1
  | _ => (x + y) % 2 ^ t.width

/-- Combines values along the full binary tree that `order` picks: each number takes two of the values left (R286). -/
def treeOf (t : Ty) : Nat → List Nat → List Nat → Nat
  | 0, _, vs => vs.headD 0
  | fuel + 1, order, vs =>
    if vs.length ≤ 1 then vs.headD 0
    else
      let p := order.headD 0
      let i := p % vs.length
      let x := (vs[i]?).getD 0
      let rest := vs.eraseIdx i
      let j := p / vs.length % rest.length
      let y := (rest[j]?).getD 0
      treeOf t fuel order.tail (combine t x y :: rest.eraseIdx j)

/-- The values of one element of a reduction, member by member. -/
def State.elementValues (c : COp) (o w : Nat) : List Nat → State → State × Option (List Nat)
  | [], s => (s, some [])
  | j :: js, s =>
    match s.memberBytes c j o w with
    | (s, none) => (s, none)
    | (s, some x) =>
      match State.elementValues c o w js s with
      | (s, none) => (s, none)
      | (s, some vs) => (s, some (leNat x.bytes :: vs))

/-- One 64-byte piece of member `j`'s chunk comes to an operation's inbox (R282; DEDUCED, log 8). -/
def State.deliverPiece (s : State) (c : COp) (j p : Nat) : State :=
  let n := min 64 (c.c - 64 * p)
  let src := (if c.op = 2 then c.group.self * c.c else 0) + 64 * p
  if c.c ≤ 64 * p || ((s.coll? c.id).map (·.got.contains (j, p))).getD true then s
  else match s.memberBytes c j src n with
    | (s, some x) => match s.writeInbox c (j * c.c + 64 * p) x with
      | (s, true) => s.modColl c.id fun c => { c with got := (j, p) :: c.got }
      | (s, false) => s
    | (s, none) => s

/-- Whether an operation owes a member on another device a chunk of its own (R282). -/
def State.owesChunk (s : State) (c : COp) (j : Nat) : Bool :=
  (c.op == 1 || c.op == 2) && ((c.group.members[j]?).map s.remote).getD false

/-- One 64-byte piece of an operation's own chunk for member `j` of another device is read and sent (R282, 24 R397; DESIGN CHOICE,
log 25). -/
def State.sendPiece (s : State) (c : COp) (j p : Nat) : State :=
  if c.c ≤ 64 * p || !s.owesChunk c j || ((s.coll? c.id).map (·.sent.contains (j, p))).getD true then s
  else match s.readContribution c (j * c.c + 64 * p) (min 64 (c.c - 64 * p)) with
    | (s, some _) => s.modColl c.id fun c => { c with sent := (j, p) :: c.sent }
    | (s, none) => s

/-- How many members or elements are delivered to an operation. -/
def COp.slots (c : COp) : Nat := if c.op = 1 then c.c / (c.t.width / 8) else c.n

/-- COLLECTIVE_DELIVER: for a gather or an all-to-all, the pieces `order` names of a member's chunk; for a reduction, one
element, combined along the tree `order` picks (R282, R286); numbers past these name the members of other devices that the operation
sends its own chunks to. Nothing is delivered until every member has issued the operation, nor of a mismatched one. -/
def execCollectiveDeliver (op m : Nat) (order : List Nat) (s : State) : Host.Outcome State Fault Refusal :=
  match s.coll? op with
  | none => .next s
  | some c =>
    if c.done || !s.allIssued c || (s.siblings c).any s.mismatched then .next s
    else if c.slots ≤ m then .next (order.foldl (fun s p => s.sendPiece c (m - c.slots) p) s)
    else match c.op with
      | 0 | 2 => .next (order.foldl (fun s p => s.deliverPiece c m p) s)
      | 1 =>
        let w := c.t.width / 8
        if c.c ≤ m * w || c.got.contains (m, 0) then .next s
        else match State.elementValues c (c.group.self * c.c + m * w) w (List.range c.n) s with
          | (s, none) => .next s
          | (s, some vs) =>
            let own := (((s.sibling c c.group.self).bind fun x => (s.readContribution x (c.group.self * c.c + m * w) w).2).map
              (·.sealId)).getD 0
            match s.writeInbox c (m * w) ⟨leBytes w (treeOf c.t vs.length order vs), c.oid, c.launch, own⟩ with
            | (s, true) => .next (s.modColl c.id fun c => { c with got := (m, 0) :: c.got })
            | (s, false) => .next s
      | _ => .next s

/-- Whether everything destined for a member has been delivered (R282). -/
def COp.full (c : COp) : Bool :=
  match c.op with
  | 0 | 2 => (List.range c.n).all fun j => (List.range ((c.c + 63) / 64)).all fun p => c.got.contains (j, p)
  | 1 => (List.range (c.c / (c.t.width / 8))).all fun e => c.got.contains (e, 0)
  | _ => true

/-- Whether a member's contribution has all been read: this device's members have their parts, and those of other devices have been
sent theirs (R282). -/
def State.contributionRead (s : State) (c : COp) : Bool :=
  (s.siblings c).all fun x =>
    (match c.op with
      | 0 | 2 => (List.range ((c.c + 63) / 64)).all fun p => x.got.contains (c.group.self, p)
      | _ => x.full)
    && (List.range c.n).all fun j =>
      !s.owesChunk c j || (List.range ((c.c + 63) / 64)).all fun p => c.sent.contains (j, p)

/-- The block's refresh point for the bytes written to its inbox moves past them (11_ordering R182). -/
def State.refreshInbox (s : State) (c : COp) : State :=
  let bytes := c.landed.flatMap fun r => (List.range r.2).map (· + r.1)
  s.modBlock c.blk fun b =>
    { b with refreshAt := (bytes.map fun a => (a, s.now)) ++ b.refreshAt.filter fun r => !bytes.contains r.1 }

/-- Operations that are complete at every member of this device are forgotten. -/
def State.dropColls (s : State) (c : COp) : State :=
  if s.allIssued c && (s.siblings c).all (·.done) then
    let ids := (s.siblings c).map (·.id)
    { s with colls := s.colls.filter fun x => !ids.contains x.id }
  else s

/-- COLLECTIVE_OP_COMPLETE: an operation completes at a member (R282). A mismatch ends it at every member instead, and each
mismatched one raises a report. -/
def execCollectiveOpComplete (op m : Nat) (s : State) : Host.Outcome State Fault Refusal :=
  match s.coll? op with
  | none => .next s
  | some c =>
    if c.done || c.group.self != m || !s.allIssued c then .next s
    else
      let bad := (s.siblings c).filter s.mismatched
      if !bad.isEmpty then
        let s := bad.foldl (fun s x => s.collReport x 0) s
        .next (((s.siblings c).foldl (fun s x => s.modColl x.id fun x => { x with done := true }) s).dropColls c)
      else if c.full && s.contributionRead c then
        .next (((s.modColl c.id fun c => { c with done := true }).refreshInbox c).dropColls c)
      else .next s

/-- Counts of `clk` in a microsecond (R62, R8). -/
def perMicro : Nat := 2250

/-- The partition's default timeout and fallback deadline, in microseconds (22 R356). -/
def Part.ctmo (p : Part) : Nat := byteField p.record 8 32
def Part.fbdl (p : Part) : Nat := byteField p.record 12 32

/-- COLLECTIVE_TIMEOUT: a lane still parked in XWAIT at the group's timeout traps, to issue the XWAIT again (R284). -/
def execCollectiveTimeout (u ci l : Nat) (s : State) : Host.Outcome State Fault Refusal :=
  match s.parkedAt u ci l with
  | some (b, _, .xwait ins ops slot since lab off) =>
    match (((b.groups[slot]?).getD none).orElse fun _ => (ops.findSome? s.coll?).map (·.group)), b.crews[ci]? with
    | some gr, some cr =>
      let tmo := (if gr.tmo = 0 then (s.part b.part).ctmo else gr.tmo) * perMicro
      if since + tmo ≤ s.clk.toNat && !s.parkOver b ci (.xwait ins ops slot since lab off) then
        let s := s.modLane u ci l fun x => { x with parked := false, park := none, waited := none }
        .next ((s.trapLane ⟨b, ci, cr, lab, off⟩ l .collTimeout (BitVec.ofNat 64 slot) off lab
          (if off == lab then 0 else off)).settleCrew u ci)
      else .next s
    | _, _ => .next s
  | _ => .next s

end Sys2Proof.Machine
end

