-- ==== Sys2Proof/Machine/System.lean ====
section
/-! DEFINITION. The system instructions that act once for the crew (23_system_instructions R369-R381, R385-R389): how
each issues, and how it performs from the queue. The Bool of a perform function says whether the instruction has
performed; when it is false, it waits and is tried again. -/

namespace Sys2Proof.Machine

/-! ### Issue (R370, R371, R389) -/

/-- The 32-bit value of a scalar operand. -/
def Crew.arg (c : Crew) (l : Lane) (r : Reg) : DWord := (c.rd l r).setWidth 64

/-- RSPLIT (R374). -/
def execRsplit (g : Guard) (one : Bool) (d a b c : Reg) (s : State) : Host.Outcome State Fault Refusal :=
  issueEngine (.rsplit g one d a b c) false (fun cr l => [cr.arg l a, cr.rd64 l b, cr.rd64 l c]) s

/-- RMERGE (R375). -/
def execRmerge (g : Guard) (d a b : Reg) (s : State) : Host.Outcome State Fault Refusal :=
  issueEngine (.rmerge g d a b) false (fun cr l => [cr.arg l a, cr.rd64 l b]) s

/-- RINVAL (R376). -/
def execRinval (g : Guard) (all : Bool) (a b c : Reg) (s : State) : Host.Outcome State Fault Refusal :=
  issueEngine (.rinval g all a b c) false (fun cr l => [cr.arg l a, cr.rd64 l b, cr.arg l c]) s

/-- RPROBE (R377). -/
def execRprobe (g : Guard) (d a b : Reg) (q : BitVec 3) (s : State) : Host.Outcome State Fault Refusal :=
  issueEngine (.rprobe g d a b q) false (fun cr l => [cr.arg l a, cr.rd64 l b]) s

/-- RPROBE.s2 (R377). -/
def execRprobeS2 (g : Guard) (d a b : Reg) (q : BitVec 3) (s : State) : Host.Outcome State Fault Refusal :=
  issueEngine (.rprobeS2 g d a b q) false (fun cr l => [cr.arg l a, cr.rd64 l b]) s

/-- RCOMPACT (R378). -/
def execRcompact (g : Guard) (d a b c : Reg) (s : State) : Host.Outcome State Fault Refusal :=
  issueEngine (.rcompact g d a b c) false (fun cr l => [cr.arg l a, cr.rd64 l b, cr.rd64 l c]) s

/-- NETSAVE (R381). -/
def execNetsave (g : Guard) (d a b : Reg) (s : State) : Host.Outcome State Fault Refusal :=
  issueEngine (.netsave g d a b) false (fun cr l => [cr.arg l a, cr.rd64 l b]) s

/-- NETLOAD (R381). -/
def execNetload (g : Guard) (d a b : Reg) (s : State) : Host.Outcome State Fault Refusal :=
  issueEngine (.netload g d a b) false (fun cr l => [cr.arg l a, cr.rd64 l b]) s

/-- NETDRAIN (R380). -/
def execNetdrain (g : Guard) (a : Reg) (s : State) : Host.Outcome State Fault Refusal :=
  issueEngine (.netdrain g a) false (fun cr l => [cr.arg l a]) s

/-- NETRESET (R380). -/
def execNetreset (g : Guard) (a : Reg) (s : State) : Host.Outcome State Fault Refusal :=
  issueEngine (.netreset g a) false (fun cr l => [cr.arg l a]) s

/-- LAUNCH (R385). -/
def execLaunch (g : Guard) (d a b : Reg) (s : State) : Host.Outcome State Fault Refusal :=
  issueEngine (.launch g d a b) false (fun cr l => [cr.arg l a, cr.rd64 l b]) s

/-- CNTCFG (R386). -/
def execCntcfg (g : Guard) (d a b c : Reg) (s : State) : Host.Outcome State Fault Refusal :=
  issueEngine (.cntcfg g d a b c) false (fun cr l => [cr.arg l a, cr.arg l b, cr.arg l c]) s

/-- CNTRD (R387): it orders nothing, and reads the count as it issues (DEDUCED, log 29). -/
def execCntrd (g : Guard) (d a : Reg) (s : State) : Host.Outcome State Fault Refusal :=
  issue (.cntrd g d a) (fun k s =>
    (s.modCur k fun c => c.putS g true d fun l =>
      pureVal ((((s.func k.b.vf).cnt[(c.rd l a).toNat]?).getD 0).setWidth 64)).passImplicit k g 1) s

/-- SEALSET (R388). -/
def execSealset (g : Guard) (d a b : Reg) (s : State) : Host.Outcome State Fault Refusal :=
  issueEngine (.sealset g d a b) false (fun cr l => [cr.arg l a, cr.rd64 l b]) s

/-! ### Reach (R369) -/

/-- Whether a function is within an issuer's reach. -/
def State.reaches (s : State) (b : Block) (vf : Nat) : Bool :=
  if b.level ≤ 2 then vf == b.vf else (s.func vf).valid && (s.func vf).partNo == b.part

/-- Whether an address space exists and is within reach. -/
def State.reachesSpace (s : State) (b : Block) (asid : Nat) : Bool :=
  decide (asid < 2 ^ 14) && dirValid (s.dirEntry asid) && s.reaches b (dirVf (s.dirEntry asid))

/-- Whether a network exists and is within reach (R233, R379). -/
def State.reachesNet (s : State) (b : Block) (n : Nat) : Bool :=
  decide (n < 256) && (List.range 64).any fun v => s.reaches b v && (s.func v).net n

/-! ### Memory operands (R371) -/

/-- Checks the run of a memory operand. `none` when its lanes have trapped or parked. -/
def State.sysRun (s : State) (k : Ctx) (g : Guard) (va n : Nat) (kind : AccKind) : State × Option (List Piece) :=
  if 2 ^ 56 < va + n then (s.trapTakers k g .rangeMiss (BitVec.ofNat 64 va), none)
  else
    let (s, ps, r) := State.translateRun k.b.core (some k.c.quad) k.b.asid kind (n / 4096 + 3) s va n
    match r with
    | some (x, .fault c) => (s.trapTakers k g c (BitVec.ofNat 64 x), none)
    | some (x, .park w) => (s.parkTakers k g x w, none)
    | _ => (s, some (ps.map fun p => pieceOf p.1 p.2.1 p.2.2))

/-- Leaves the one record of a denied read or write of these pieces, if one is (R76, R371). -/
def State.sysDeny (s : State) (k : Ctx) (lane : Nat) (write : Bool) (ps : List Piece) : State :=
  match ps.findSome? fun p => (s.denies k.b.part k.b.clr p).map fun d => (p.va, d) with
  | some (va, d) => s.denyLane k lane va write d
  | none => s

/-- Reads checked pieces at home: a denied one reads zeros, and the read leaves one record (R76, R371). -/
def State.sysRead (s : State) (k : Ctx) (lane : Nat) (ps : List Piece) : State × List Byte :=
  let (t, bs) := ps.foldl (fun (r : State × List Byte) p =>
    if (s.denies k.b.part k.b.clr p).isSome then (r.1, r.2 ++ List.replicate p.size 0)
    else
      let (t, bs) := r.1.engineRead k.b.vf k.b.core p
      (t, r.2 ++ bs)) (s.sysDeny k lane false ps, [])
  (t, bs)

/-- Writes bytes over checked pieces, at home; a denied piece is dropped, and the write leaves one record (R76, R371). -/
def State.sysWrite (s : State) (k : Ctx) (lane : Nat) (ps : List Piece) (bs : List Byte) : State :=
  (ps.foldl (fun (r : State × List Byte) p =>
    (if (s.denies k.b.part k.b.clr p).isSome then r.1 else r.1.engineWrite k.b.vf k.b.uid p (r.2.take p.size), r.2.drop p.size))
    (s.sysDeny k lane true ps, bs)).1

/-- A read of a memory operand. -/
def State.sysFetch (s : State) (k : Ctx) (o : Op) (g : Guard) (va n : Nat) : State × Option (List Byte) :=
  match s.sysRun k g va n .read with
  | (s, none) => (s, none)
  | (s, some ps) => let (s, bs) := s.sysRead k o.lane ps; (s, some bs)

/-- The guard of the instruction that queued an operation. -/
def Op.guard (o : Op) : Guard :=
  match o.what with
  | .instr i _ => i.guard
  | _ => always

/-- The instruction has performed: its status is written, and the lanes that execute it pass its implicit point (R372, R389). -/
def State.sysDone (s : State) (k : Ctx) (o : Op) (d : Reg) (ws : List Word) : State × Bool :=
  ((s.passImplicit k o.guard 1).modCur k (·.putWords o.lane d ws), true)

/-! ### Editing tables (R322, R374, R375) -/

/-- The home places of descriptors `i` on of a table, for writing; `none` when one meets a stage-2 fault. -/
def State.tablePlaces (s : State) (e : BitVec 128) (i n : Nat) : Option (List (Nat × Nat)) :=
  (List.range n).mapM fun j => s.tableAt e (i + j) .write

/-- Writes descriptors over places; the device writes them at home itself, past the L2 (DESIGN CHOICE, log 15). -/
def State.putTable (s : State) (ps : List (Nat × Nat)) (ds : List (BitVec 256)) : State :=
  (ps.zip ds).foldl (fun s p => s.putHome p.1.2 p.1.1 32 p.2.toNat) s

/-- Changes the number of descriptors of an address space (R314). -/
def State.setTableSize (s : State) (asid n : Nat) : State :=
  let e := s.dirEntry asid
  s.putHome 0 (s.dirBase + 16 * asid) 16 (e.toNat - dirN e * 2 ^ 76 + n * 2 ^ 76)

/-- Descriptors `i` on of a table; `none` when one cannot be read. -/
def State.tableFrom (s : State) (asid : Nat) (e : BitVec 128) (i n : Nat) : Option (List (BitVec 256)) :=
  (List.range n).mapM fun j => s.d1At asid e 0 (i + j)

/-- The granules of a range. -/
def d1Size (d : BitVec 256) : Nat := d1Limit d + 1 - d1Base d

/-- The blocks of a formatted range (R115). -/
def d1Blocks (d : BitVec 256) : Nat := d1Size d * 4096 / chunkBytes (fmtTy (d1Fmt d))

/-- The checks of RSPLIT on the new descriptors (R316, R322, R374). -/
def splitOk (d : BitVec 256) (ns : List (BitVec 256)) : Bool :=
  (ns.all fun n => !d1Bad n && d1Mode n < 2)
  && match ns with
    | [n] => d1Base n == d1Base d && d1Limit n == d1Limit d
    | [n, m] =>
      d1Base n == d1Base d && d1Limit m == d1Limit d && d1Limit n + 1 == d1Base m
      && (d1Fmt n == 0 || d1Size n * 4096 % (1024 * chunkBytes (fmtTy (d1Fmt n))) == 0)
      && (d1Fmt m == 0 || d1Size n * 4096 % (1024 * chunkBytes (fmtTy (d1Fmt m))) == 0)
      && (d1Fmt n == 0 || d1Fmt m == 0 || d1Spb m == d1Spb n + d1Blocks n / 1024)
    | _ => false

/-- The descriptor that an address has, whatever it holds: its place and it, or the status of a search that finds none or meets a
stage-2 fault (R372, R374). -/
def State.holding (s : State) (asid va : Nat) : Except Word (Nat × BitVec 256) :=
  let e := s.dirEntry asid
  match if (s.tableAt e 0 .read).isNone then none else s.probe asid e (va % 2 ^ 56) with
  | none => .error 5
  | some (some (i, d)) => if d1Limit d < va % 2 ^ 56 / 4096 then .error 2 else .ok (i, d)
  | some none => .error 2

/-- RSPLIT performs (R374). -/
def State.performRsplit (s : State) (k : Ctx) (o : Op) (g : Guard) (one : Bool) (d : Reg) (xs : List DWord) :
    State × Bool :=
  let asid := (xs.headD 0).toNat
  let va := (xs.tail.headD 0).toNat
  let rec_ := ((xs.drop 2).headD 0).toNat
  if !s.reachesSpace k.b asid then s.sysDone k o d [2]
  else match s.holding asid va with
    | .error st => s.sysDone k o d [st]
    | .ok (i, old) =>
      if d1Bad old || d1Mode old == 2 then s.sysDone k o d [3]
      else match s.sysFetch k o g rec_ (if one then 32 else 64) with
        | (s, none) => (s, true)
        | (s, some bs) =>
          let ns := (List.range (if one then 1 else 2)).map fun j => BitVec.ofNat 256 (leNat ((bs.drop (32 * j)).take 32))
          let e := s.dirEntry asid
          let n := dirN e
          if !splitOk old ns then s.sysDone k o d [3]
          else if !one && 4095 ≤ n then s.sysDone k o d [4]
          else
            match s.tableFrom asid e (i + 1) (n - (i + 1)) with
            | none => s.sysDone k o d [5]
            | some rest =>
              let all := if one then ns else ns ++ rest
              match s.tablePlaces e i all.length with
              | none => s.sysDone k o d [5]
              | some ps =>
                let t := s.putTable ps all
                ((if one then t else t.setTableSize asid (n + 1)).edited asid s.now).sysDone k o d [0]

/-- Whether two descriptors may be merged (R322, R375). -/
def mergeOk (d e : BitVec 256) : Bool :=
  d1Limit d + 1 == d1Base e && d1Mode d == 0 && d1Mode e == 0 && d1Seal d == d1Seal e && d1Fmt d == d1Fmt e
  && d1X d == d1X e && d1W d == d1W e && d1R d == d1R e && d1Iab e == d1Iab d + d1Size d
  && (d1Fmt d == 0 || 1024 * d1Spb e == 1024 * d1Spb d + d1Blocks d)

/-- A descriptor with another limit. -/
def setLimit (d : BitVec 256) (l : Nat) : BitVec 256 := BitVec.ofNat 256 (d.toNat - d1Limit d * 2 ^ 168 + l * 2 ^ 168)

/-- RMERGE performs (R375). -/
def State.performRmerge (s : State) (k : Ctx) (o : Op) (d : Reg) (xs : List DWord) : State × Bool :=
  let asid := (xs.headD 0).toNat
  let va := (xs.tail.headD 0).toNat
  if !s.reachesSpace k.b asid then s.sysDone k o d [2]
  else match s.holding asid va with
    | .error st => s.sysDone k o d [st]
    | .ok (i, x) =>
      let t := s.dirEntry asid
      let n := dirN t
      if n ≤ i + 1 then s.sysDone k o d [2]
      else match s.tableFrom asid t (i + 1) (n - (i + 1)) with
        | some (y :: rest) =>
          if d1Bad x || d1Bad y || !mergeOk x y then s.sysDone k o d [3]
          else
            let all := setLimit x (d1Limit y) :: rest
            match s.tablePlaces t i all.length with
            | none => s.sysDone k o d [5]
            | some ps => (((s.putTable ps all).setTableSize asid (n - 1)).edited asid s.now).sysDone k o d [0]
        | _ => s.sysDone k o d [5]

/-! ### RINVAL (R321, R323, R376) -/

/-- Whether a run of addresses meets another. -/
def runsMeet (all : Bool) (lo n a m : Nat) : Bool := all || overlap lo n a m

/-- The pieces that values keep with an operation (R381). -/
def unpackPieces : List DWord → List Piece
  | a :: b :: c :: d :: e :: f :: g :: h :: r =>
    ⟨a.toNat, b.toNat, c.toNat, d.toNat, e.toNat, f.toNat, g.toNat, h.toNat⟩ :: unpackPieces r
  | _ => []

/-- The global pieces an operation holds; a NETSAVE that waits holds its record's. -/
def OpKind.pieces : OpKind → List Piece
  | .load _ _ _ ps _ => ps
  | .decode _ _ _ _ _ c w _ _ => [c, w]
  | .store _ ps => ps.map (·.1)
  | .atom _ _ (.global p) _ _ | .cas _ (.global p) _ _ _ | .red _ _ (.global p) _ | .waitc _ _ p _ => [p]
  | .instr (.netsave ..) xs => unpackPieces (xs.drop 2)
  | _ => []

/-- Whether the range entry that translated a piece meets a run (R323). -/
def Piece.entryMeets (p : Piece) (all : Bool) (lo n : Nat) : Bool := runsMeet all lo n p.lo (p.hi + 1 - p.lo)

/-- Whether some access in flight of a block of a partition has a piece that `uses` picks, or some store-buffer entry holds bytes of a
run; a saved block may have posted operations in flight (R323, R327). -/
def State.inFlight (s : State) (part asid : Nat) (uses : Piece → Bool) (all : Bool) (lo n : Nat) : Bool :=
  let use := fun (w : OpKind) => w.pieces.any uses
  (s.blocks.any fun b => b.part == part && b.asid == asid
    && ((b.crews.any fun c => c.queue.any fun o => use o.what) || b.storeBuf.any fun e => runsMeet all lo n e.p.va e.p.size))
  || s.posted.any fun q => match (s.block? q.blk).or (s.savedBlock q.blk) with
    | some b => b.part == part && b.asid == asid && use q.op.what
    | none => false

/-- The addresses of the range that holds an address, or of its granule when none does. -/
def State.rangeAt (s : State) (asid va : Nat) : Nat × Nat :=
  match s.walk asid va with
  | .ok (_, d, _) => (d1Base d * 4096, d1Size d * 4096)
  | .error _ => (va / 4096 * 4096, 4096)

/-- The residency granule that holds an address, as addresses; its page when its range has none. -/
def State.granuleAt (s : State) (asid va : Nat) : Nat × Nat :=
  match s.walk asid va with
  | .ok (_, d, _) =>
    if d1Mode d == 1 then (d1Base d * 4096 + residencyGranule d va * 2 ^ (16 + d1Rg d), 2 ^ (16 + d1Rg d))
    else (va / 4096 * 4096, 4096)
  | .error _ => (va / 4096 * 4096, 4096)

/-- Drops the lookaside entries of a run, and ends the residency waits of the ranges it meets (R321, R323). From here on an access to
the run uses the backing it finds, and one to a granule that was waited for does so with what it finds there now (R321; DEDUCED,
log 36). -/
def State.invalidate (s : State) (part asid : Nat) (all : Bool) (lo n : Nat) : State :=
  let cores := (s.part part).cores
  let meets := fun va => let r := s.rangeAt asid va; runsMeet all lo n r.1 r.2
  let met := s.residency.filter fun r => cores.contains r.core && r.asid == asid && meets r.va
  let s := met.foldl (fun (s : State) r => let g := s.granuleAt asid r.va; s.remap .fresh asid g.1 (g.1 + g.2 - 1)) s
  let s := if all then s.remap .rinval asid 0 (2 ^ 56 - 1) else s.remap .rinval asid lo (lo + n - 1)
  let s : State := { s with
    looks := s.looks.filter fun e => !(cores.contains e.core && e.asid == asid
      && runsMeet all lo n (d1Base e.d1 * 4096) (d1Size e.d1 * 4096))
    residency := s.residency.filter fun r => !met.contains r }
  s.mapBlocks fun b =>
    if b.part == part then
      { b with crews := b.crews.map (·.unparkWhere fun w => match w with
          | .residency a _ _ va => a == asid && meets va
          | _ => false) }
    else b

/-- RINVAL performs once R323 holds (R376). Denial records that waited for a granule are tried again. -/
def State.performRinval (s : State) (k : Ctx) (g : Guard) (all : Bool) (xs : List DWord) : State × Bool :=
  let asid := (xs.headD 0).toNat
  let lo := (xs.tail.headD 0).toNat % 2 ^ 56 / 4096 * 4096
  let n := ((xs.drop 2).headD 0).toNat * 4096
  if (!all && n = 0) || !s.reachesSpace k.b asid then (s.passImplicit k g 1, true)
  else if s.inFlight k.b.part asid (·.entryMeets all lo n) all lo n then (s, false)
  else ((s.invalidate k.b.part asid all lo n).payAllDenials.passImplicit k g 1, true)

/-! ### RPROBE, RCOMPACT (R377, R378) -/

/-- Writes what a probe found (R377). -/
def State.probeDone (s : State) (k : Ctx) (o : Op) (g : Guard) (d : Reg) (q : BitVec 3) (x : Option (BitVec 256)) :
    State × Bool :=
  let r := x.getD 0
  ((s.passImplicit k g 1).modCur k fun c => (c.putWords o.lane d ((List.range 8).map fun i => bits r (32 * i) 32)).eachLane g
    fun _ l => l.setPred q x.isSome, true)

/-- RPROBE performs (R377). -/
def State.performRprobe (s : State) (k : Ctx) (o : Op) (g : Guard) (d : Reg) (q : BitVec 3) (xs : List DWord) :
    State × Bool :=
  let asid := (xs.headD 0).toNat
  let x := if s.reachesSpace k.b asid then
      match s.walk asid ((xs.tail.headD 0).toNat % 2 ^ 56) with
      | .ok (_, d, _) => some d
      | .error _ => none
    else none
  s.probeDone k o g d q x

/-- RPROBE.s2 performs (R377). -/
def State.performRprobeS2 (s : State) (k : Ctx) (o : Op) (g : Guard) (d : Reg) (q : BitVec 3) (xs : List DWord) :
    State × Bool :=
  let vf := (xs.headD 0).toNat
  let ia := (xs.tail.headD 0).toNat
  s.probeDone k o g d q (if vf < 64 && s.reaches k.b vf && ia < 2 ^ 52 then s.s2Find vf ia else none)

/-- Whether the new backing of a range may be used (R327, R378). -/
def State.backingOk (s : State) (vf : Nat) (d : BitVec 256) (nia : Nat) : Bool :=
  d1Mode d == 0 && decide (d1Size d ≤ 2 ^ 24) && nia % 4096 == 0 && decide (nia + d1Size d * 4096 ≤ 2 ^ 52)
  && !overlap (d1Iab d * 4096) (d1Size d * 4096) nia (d1Size d * 4096)
  && (List.range (d1Size d)).all fun i => match s.s2Find vf (nia + 4096 * i) with
      | some e => d2Srd e && d2Sw e
      | none => false

/-- The die of a partition: front ends 0 to 7 stand on die 0, the others on die 1 (02_device R13). -/
def dieOfPart (p : Nat) : Nat := p / 8

/-- RCOMPACT performs (R378; DESIGN CHOICE, log 9): the request goes to the fuller of the partition's die (R327). -/
def State.performRcompact (s : State) (k : Ctx) (o : Op) (d : Reg) (xs : List DWord) : State × Bool :=
  let asid := (xs.headD 0).toNat
  let va := (xs.tail.headD 0).toNat
  let nia := ((xs.drop 2).headD 0).toNat
  if !s.reachesSpace k.b asid then s.sysDone k o d [2]
  else match s.walk asid (va % 2 ^ 56) with
    | .error c => s.sysDone k o d [if c == .stage2 then 5 else 2]
    | .ok (_, x, vf) =>
      let die := dieOfPart k.b.part
      if !s.backingOk vf x nia then s.sysDone k o d [3]
      else if (s.part k.b.part).hostMode 1 then
        (s.interrupt k.b.part vf 3 (BitVec.ofNat 64 va)).sysDone k o d [1]
      else if 16 ≤ s.compacts.countP (fun c => c.die == die && !c.started) then s.sysDone k o d [4]
      else
        let s : State := { s with compacts := s.compacts ++ [⟨die, asid, vf, k.b.part, d1Base x, nia / 4096, false⟩] }
        s.sysDone k o d [0]

/-! ### Number networks (R234, R235, R379-R381) -/

/-- Closes a network (R234). -/
def State.closeNet (s : State) (n : Nat) : State := s.modNet n fun x => { x with closed := true }

/-- The 96-byte record of a drained network (R235). -/
def Net.recordOf (x : Net) (n : Nat) : List Byte :=
  (x.cnt.flatMap fun c => leBytes 5 c.toNat) ++ leBytes 10 x.bal.toNat ++ leBytes 2 n ++ List.replicate 4 0

/-- A network loaded from a record (R235). -/
def Net.ofRecord (x : Net) (bs : List Byte) : Net :=
  { x with
    bal := BitVec.ofNat 80 (recField bs 80 10)
    cnt := (List.range 16).map fun i => BitVec.ofNat 40 (recField bs (5 * i) 5) }

/-- Whether a record may be loaded into a network (R381). -/
def recordOk (n : Nat) (bs : List Byte) : Bool := recField bs 90 2 == n && recField bs 92 4 == 0

/-- Keeps an operation in the queue with other values, to be tried again. -/
def State.waitWith (s : State) (k : Ctx) (o : Op) (i : Instr) (xs : List DWord) : State × Bool :=
  (s.modCur k fun c => { c with queue := c.queue.map fun p => if p == o then { p with what := .instr i xs } else p }, false)

/-- The values of pieces, to keep them with an operation. -/
def packPieces (ps : List Piece) : List DWord :=
  ps.flatMap fun p => [p.va, p.home, p.size, p.key, p.sealId, p.tier, p.lo, p.hi].map (BitVec.ofNat 64)

/-- Cuts pieces into parts of at most 8 bytes. -/
def eights (ps : List Piece) : List Piece :=
  ps.flatMap fun p => (List.range ((p.size + 7) / 8)).map fun j =>
    { p with va := p.va + 8 * j, home := p.home + 8 * j, size := min 8 (p.size - 8 * j) }

/-- NETSAVE performs (R381): it translates its record, closes the network, waits for the tokens in flight, and writes twelve words.
The network is closed also where a reset has opened it in between. -/
def State.performNetsave (s : State) (k : Ctx) (o : Op) (i : Instr) (g : Guard) (d : Reg) (xs : List DWord) : State × Bool :=
  let n := (xs.headD 0).toNat
  let go := fun (s : State) (ps : List Piece) =>
    let s := s.closeNet n
    if (s.net n).quiet then (s.sysWrite k o.lane (eights ps) ((s.net n).recordOf n)).sysDone k o d [0]
    else s.waitWith k o i (xs.take 2 ++ packPieces ps)
  if !s.reachesNet k.b n then (s.trapTakers k g .netNotGranted (BitVec.ofNat 64 n), true)
  else match xs.drop 2 with
    | [] =>
      match s.sysRun k g (xs.tail.headD 0).toNat 96 .write with
      | (s, none) => (s, true)
      | (s, some ps) => go s ps
    | r => go s (unpackPieces r)

/-- NETLOAD performs (R381): it reads and checks its record, drains the network, and loads and opens it. -/
def State.performNetload (s : State) (k : Ctx) (o : Op) (i : Instr) (g : Guard) (d : Reg) (xs : List DWord) : State × Bool :=
  let n := (xs.headD 0).toNat
  let go := fun (s : State) (ws : List DWord) =>
    let s := s.closeNet n
    if (s.net n).quiet then
      ((s.modNet n fun x => x.ofRecord (ws.flatMap bytesOf)).openNet n).sysDone k o d [0]
    else s.waitWith k o i (xs.take 2 ++ ws)
  if !s.reachesNet k.b n then (s.trapTakers k g .netNotGranted (BitVec.ofNat 64 n), true)
  else match xs.drop 2 with
    | [] =>
      match s.sysFetch k o g (xs.tail.headD 0).toNat 96 with
      | (s, none) => (s, true)
      | (s, some bs) =>
        if recordOk n bs then
          go s ((List.range 12).map fun j => dwordOf ((bs.drop (8 * j)).take 8))
        else s.sysDone k o d [3]
    | r => go s r

/-- NETDRAIN performs (R380). Where a reset or a load of another crew opens the network while it waits, it closes it again and waits on
(DESIGN CHOICE, log 42). -/
def State.performNetdrain (s : State) (k : Ctx) (g : Guard) (xs : List DWord) : State × Bool :=
  let n := (xs.headD 0).toNat
  if !s.reachesNet k.b n then (s.trapTakers k g .netNotGranted (BitVec.ofNat 64 n), true)
  else
    let s := s.closeNet n
    if (s.net n).quiet then (s.passImplicit k g 1, true) else (s, false)

/-- NETRESET performs (R380): it closes the network, and has performed once the network is open again. -/
def State.performNetreset (s : State) (k : Ctx) (o : Op) (i : Instr) (g : Guard) (xs : List DWord) : State × Bool :=
  let n := (xs.headD 0).toNat
  if !s.reachesNet k.b n then (s.trapTakers k g .netNotGranted (BitVec.ofNat 64 n), true)
  else if xs.tail.isEmpty then
    let s := (s.modNet n fun x => { x with closed := true, resetting := true }).netQuiet n
    if (s.net n).resetting then s.waitWith k o i (xs ++ [1]) else (s.passImplicit k g 1, true)
  else if (s.net n).resetting then (s, false)
  else (s.passImplicit k g 1, true)

/-! ### LAUNCH (R358, R385) -/

def listRing (l : BitVec 128) : Nat := byteField l 8 56
def listSize (l : BitVec 128) : Nat := 2 ^ byteField l 7 5
def listPrio (l : BitVec 128) : Nat := byteField l 6 3
def listProc (l : BitVec 128) : Nat := byteField l 5 4
def listKind (l : BitVec 128) : Nat := byteField l 4 2
def listAsid (l : BitVec 128) : Nat := byteField l 2 14

/-- The address of record `i` of a list (R358). -/
def listSlot (l : BitVec 128) (i : Nat) : Nat := listRing l + 64 + 64 * (i % listSize l)

/-- LAUNCH ends with a status, and with H, as far as it has been read: otherwise the second word is a free value (R385;
DESIGN CHOICE, log 9). -/
def State.launchDone (s : State) (k : Ctx) (o : Op) (d : Reg) (st : Word) (h : Option DWord) : State × Bool :=
  match h with
  | some h => s.sysDone k o d [st, bits h 0 32]
  | none => ({ s with draws := s.draws + 1 } : State).sysDone k o d [st, Config.freeWord s.draws]

/-- Applies what a run of a ring met: status 5, with a record for a denied one, or a wait, in which the instruction has done nothing
yet: `s0` is the machine before it (R385). -/
def State.ringFail (s0 s : State) (k : Ctx) (o : Op) (d : Reg) (write : Bool) (h : Option DWord) (r : RunRes) : State × Bool :=
  match r with
  | .wait w va => (s0.askResidency k.b k.ci o.lane va k.pc w, false)
  | .denied sl va => (s.denyLane k o.lane va write sl).launchDone k o d 5 h
  | _ => s.launchDone k o d 5 h

/-- LAUNCH performs, as one move (R385). -/
def State.performLaunch (s : State) (k : Ctx) (o : Op) (g : Guard) (d : Reg) (xs : List DWord) : State × Bool :=
  let s0 := s
  let j := (xs.headD 0).toNat
  let l := if j < 8 then (s.func k.b.vf).listRec j else 0
  let run := fun (s : State) va n kind => s.checkRun k.b.core (listAsid l) k.b.part k.b.clr va n kind
  if listKind l = 0 then s.launchDone k o d 2 none
  else if min k.b.level 3 < listKind l then s.launchDone k o d 3 none
  else match s.sysFetch k o g (xs.tail.headD 0).toNat 64 with
    | (s, none) => (s, true)
    | (s, some bs) =>
      match run s (listRing l) 16 .read with
      | (s, .ok ps) =>
        let (s, ht) := s.readRun k.b.vf k.b.core ps
        let h : DWord := dwordOf (ht.take 8)
        let t : DWord := dwordOf (ht.drop 8)
        if (listSize l : Int) ≤ (h.toNat : Int) - (t.toNat : Int) then s.launchDone k o d 4 h
        else match run s (listSlot l h.toNat) 64 .write with
          | (s, .ok rs) =>
            match run s (listRing l) 8 .write with
            | (s, .ok hs) =>
              let s := s.writeRun k.b.vf k.b.uid rs bs
              (s.writeRun k.b.vf k.b.uid hs (leBytes 8 (h + 1).toNat)).launchDone k o d 0 h
            | (s, r) => s0.ringFail s k o d true h r
          | (s, r) => s0.ringFail s k o d true h r
      | (s, r) => s0.ringFail s k o d false none r

/-! ### Counters and clearance maps (R386, R388) -/

/-- Replaces bytes of a function's record. -/
def Func.setRecord (f : Func) (o : Nat) (bs : List Byte) : Func := { f with record := setBytes f.record o bs }

/-- CNTCFG performs (R386). -/
def State.performCntcfg (s : State) (k : Ctx) (o : Op) (d : Reg) (xs : List DWord) : State × Bool :=
  let n := (xs.headD 0).toNat
  let ev := (xs.tail.headD 0).toNat
  let f := ((xs.drop 2).headD 0).toNat
  if 8 ≤ n then s.sysDone k o d [2]
  else if 9 ≤ ev then s.sysDone k o d [3]
  else
    (s.modFunc k.b.vf fun x =>
      { x.setRecord (32 + 8 * n) (leBytes 4 ev ++ leBytes 4 f) with
        cnt := x.cnt.set n 0, ovf := x.ovf &&& ~~~ ((1 : BitVec 8) <<< n) }).sysDone k o d [0]

/-- The seals whose bits are set in a map (R76). -/
def sealsOf (bs : List Byte) : List Nat :=
  bs.zipIdx.flatMap fun p => (List.range 8).filterMap fun i => if p.1.getLsbD i then some (8 * p.2 + i) else none

/-- SEALSET performs: a whole map takes the place of the old one (R388). -/
def State.performSealset (s : State) (k : Ctx) (o : Op) (g : Guard) (d : Reg) (xs : List DWord) : State × Bool :=
  let n := (xs.headD 0).toNat
  if 16 ≤ n then s.sysDone k o d [2]
  else match s.sysFetch k o g (xs.tail.headD 0).toNat 8192 with
    | (s, none) => (s, true)
    | (s, some bs) => (s.modPart k.b.part fun p => { p with maps := p.maps.set n (sealsOf bs) }).sysDone k o d [0]

end Sys2Proof.Machine
end

