-- ==== Sys2Proof/Machine/Handler.lean ====
section
/-! DEFINITION. Handler crews (21_traps_preemption R332-R339, 23_system_instructions R382-R384): the handler instructions,
the forming of a handler crew, and the stop of an aborted block. -/

namespace Sys2Proof.Machine

/-! ### Origins (R335, R382, R383) -/

/-- What a handler lane stands for, also after its verdict (R382; DESIGN CHOICE, log 20). -/
def Ctx.handled (k : Ctx) (lane : Nat) : Option HLane := k.b.hnd[lane]?

/-- The origin that HGET and HPUT reach: that of a trap lane whose verdict has not taken effect (R335, R383). -/
def State.originOf (s : State) (k : Ctx) (lane : Nat) : Option (Block × Crew × Lane × Origin) :=
  match ((s.block? k.b.uid).getD k.b).hnd[lane]? with
  | none => none
  | some h =>
    if !h.cause.isTrap || h.decided then none
    else match h.origin with
      | none => none
      | some o => match s.crew? o.blk o.crew with
        | none => none
        | some (b, c) => match c.lanes[o.lane]? with
          | some l => some (b, c, l, o)
          | none => none

/-- The value HGET reads of a register (R383). -/
def State.originReg (s : State) (b : Block) (c : Crew) (l : Lane) (o : Origin) : Reg → Word
  | .v n => if n.toNat < c.budget then regAt l.v n.toNat else 0
  | .s n => regAt c.s n.toNat
  | .q n => if l.pred n then 1 else 0
  | .sp r => bits (s.special ⟨b, o.crew, c, 0, 0⟩ o.lane l r) 0 32
  | .none => 0

/-- A lane after HPUT (R383). -/
def Lane.putOrigin (l : Lane) (budget : Nat) (r : Reg) (x : Word) : Lane :=
  match r with
  | .v n => if n.toNat < budget then l.wr r x else l
  | .q _ => l.wr r x
  | .sp .wl => { l with wl := x }
  | .sp .ro => { l with ro := x }
  | .sp .rng => { l with rng := x, rngc := x }
  | _ => l

/-- HPUT writes a register of the origin (R383). -/
def State.putOriginReg (s : State) (o : Origin) (budget : Nat) (r : Reg) (x : Word) : State :=
  s.modCrew o.blk o.crew fun c => (c.wrS r x).modLane o.lane (·.putOrigin budget r x)

/-! ### The handler instructions (R382-R384, R389) -/

/-- HINFO and HINFO.pc (R382): the values of the trap, also once an HPUT has given the origin another `wl` (DESIGN CHOICE, log 20). -/
def execHinfo (g : Guard) (pc : Bool) (d : Reg) (s : State) : Host.Outcome State Fault Refusal :=
  issue (.hinfo g pc d) (fun k s =>
    (s.modCur k fun c => c.eachLane g fun i l =>
      match k.handled i with
      | some h => if pc then l.wr d h.off else l.wr64 d h.fault
      | none => l).passImplicit k g 1) s

/-- HGET (R383). -/
def execHget (g : Guard) (d r : Reg) (s : State) : Host.Outcome State Fault Refusal :=
  issue (.hget g d r) (fun k s =>
    (s.modCur k fun c => c.eachLane g fun i l =>
      l.wr d (match s.originOf k i with
        | some (b, cr, x, o) => s.originReg b cr x o r
        | none => 0)).passImplicit k g 1) s

/-- HPUT (R383): in ascending handler slot. -/
def execHput (g : Guard) (r a : Reg) (s : State) : Host.Outcome State Fault Refusal :=
  issue (.hput g r a) (fun k s =>
    (s.forLanes (k.c.takers g) fun s i l =>
      match s.originOf k i with
      | some (_, c, _, o) => s.putOriginReg o c.budget r (k.c.rd l a)
      | none => s).passImplicit k g 1) s

/-- A verdict in each guard-true active lane (R335, R384). -/
def issueVerdict (i : Instr) (v : Verdict) (s : State) : Host.Outcome State Fault Refusal :=
  issue i (fun k s => (s.forLanes (k.c.takers i.guard) fun s j _ => s.passVerdict k.b.uid j v).passImplicit k i.guard 1) s

/-- HRESUME (R384). -/
def execHresume (g : Guard) (s : State) : Host.Outcome State Fault Refusal := issueVerdict (.hresume g) .resume s

/-- HKILL (R384). -/
def execHkill (g : Guard) (s : State) : Host.Outcome State Fault Refusal := issueVerdict (.hkill g) .kill s

/-- HABORT (R384). -/
def execHabort (g : Guard) (s : State) : Host.Outcome State Fault Refusal := issueVerdict (.habort g) .abort s

/-! ### Starting crews (R11, R28, R119, R340) -/

/-- A lane as it starts: at the entry label, with its rewind point there (R11, R340). -/
def Lane.start (budget : Nat) (entry oid rng : Word) : Lane :=
  { Lane.blank budget with wl := entry, rwl := entry, oid := oid, rng := rng, rngc := rng, done := false }

/-- The registers s0 to s63 of a crew that starts with some argument words (R11). -/
def startScalars (args : List Word) : List Word := (List.range 64).map fun i => args[i]?.getD 0

/-- The words of 64 argument bytes. -/
def argWords (bs : List Byte) : List Word := (List.range 16).map fun i => BitVec.ofNat 32 (recField bs (4 * i) 4)

/-- A block that holds nothing. -/
def Block.blank : Block :=
  { uid := 0, launch := 0, bid := 0, core := 0, part := 0, vf := 0, level := 1, asid := 0, code := 0, nline := 0,
    codeTime := 0, priv := 0, clr := 0, grouped := false, pos := 0, crews := [], scratchSize := 0, units := [], scratch := [],
    spLog := [], pending := [], turns := 0, past := [], tiles := [], handles := List.replicate 16 ⟨none, 0⟩, mcmds := [], nextCmd := 0, ecc := false, opf := false,
    ref := false, mlog := [], mlost := 0, ccmds := [], cerr := false, cecc := false, cden := 0,
    groups := List.replicate 16 none, storeBuf := [], entered := 0, unacked := 0, refresh := 0, refreshAt := [], stampC := 0,
    stampS := 0, barInst := 0, barArr := [], barcInst := 0, barcArr := [], kills := 0, abort := none, errs := [],
    stopping := false, hnd := [] }

/-! ### Forming a handler crew (R332-R334) -/

/-- Whether one gathered lane goes before another: by cycle, then by quadrant, slot and lane (R332). -/
def HLane.before (a b : HLane) : Bool :=
  decide (a.time < b.time) || (a.time == b.time && decide (a.tag.toNat % 4096 < b.tag.toNat % 4096))

/-- Puts a gathered lane in its place. -/
def insertLane (h : HLane) : List HLane → List HLane
  | [] => [h]
  | x :: r => if h.before x then h :: x :: r else x :: insertLane h r

/-- The lanes gathered on a core, in gathering order (R332). -/
def State.gatheredOn (s : State) (core : Nat) : List HLane :=
  ((s.gathered.filter (·.1 == core)).map (·.2)).foldl (fun r h => insertLane h r) []

/-- Whether a core's handler slot is taken. -/
def State.handlerBusy (s : State) (core : Nat) : Bool := s.blocks.any fun b => b.core == core && b.hnd != []

/-- The number of a core's handler slot, which lies outside the eight crew slots of each quadrant (R333). -/
def handlerSlot : Nat := 8

/-- The crew of a handler crew's lanes (R333). -/
def handlerCrew (p : Part) (core age : Nat) (hs : List HLane) : Crew :=
  { Crew.blank with
    role := 2, slot := handlerSlot, budget := Config.handlerBudget, age := age, seq := .census none
    s := startScalars (argWords ((List.range 64).map fun i => bits p.record (8 * (64 + i)) 8))
    lanes := (List.range Config.lanes).map fun i =>
      match hs[i]? with
      | some h =>
        let oid := BitVec.ofNat 32 (128 * (core - p.firstCore) + i)
        let l := Lane.start Config.handlerBudget (BitVec.ofNat 32 p.hlbl) oid (rngSeed h.tag (BitVec.ofNat 32 i))
        { l with v := (l.v.set 0 (bits h.tag 0 32)).set 1 (bits h.tag 32 32) }
      | none => Lane.blank Config.handlerBudget }

/-- The code lines of an image whose header lies at an address, as its header gives them; none when it cannot be read, or what it waits
for (26_syntax R416, 20_ranges R320, R327). -/
def State.imageLines (s : State) (core asid img : Nat) : Except Park Nat :=
  match s.translate core none asid img 128 .read with
  | (_, .ok x) => .ok (s.numHome x.key (x.home + 8) 4)
  | (_, .park w) => .error w
  | _ => .ok 0

/-- A handler crew forms of these lanes on a core (R333; DEDUCED, log 13). Its refresh point is the time it forms, and its refresh
stamps are 0, no counter advancing (DESIGN CHOICE, log 13). Where its image's header waits for a granule, none forms yet (20_ranges
R320, R327). -/
def State.formHandler (s : State) (core : Nat) (hs rest : List HLane) : State :=
  match hs with
  | [] => s
  | h :: _ =>
    let p := s.part h.part
    match s.imageLines core p.hasid p.himg with
    | .error w => s.askResidencyFront h.part (p.holder.getD 64) p.himg w
    | .ok n =>
      let b : Block := { Block.blank with
        uid := s.nextUid, core := core, part := h.part, vf := p.holder.getD 64, level := 4, asid := p.hasid,
        code := p.himg + 128, nline := n, codeTime := s.now, priv := p.harea,
        crews := [handlerCrew p core s.nextAge hs], refresh := s.now, hnd := hs }
      { s with
        blocks := s.blocks ++ [b], nextUid := s.nextUid + 1, nextAge := s.nextAge + 1
        gathered := (s.gathered.filter (·.1 != core)) ++ rest.map fun h => (core, h) }

/-- HANDLER_CREW_FORM_FULL: 128 lanes are gathered (R332). -/
def execHandlerCrewFormFull (core : Nat) (s : State) : Host.Outcome State Fault Refusal :=
  let hs := s.gatheredOn core
  .next (if !s.handlerBusy core && decide (128 ≤ hs.length) then s.formHandler core (hs.take 128) (hs.drop 128) else s)

/-- HANDLER_CREW_FORM_TIMEOUT: 256 cycles have passed since the first lane was gathered (R332). -/
def execHandlerCrewFormTimeout (core : Nat) (s : State) : Host.Outcome State Fault Refusal :=
  match s.gatheredOn core with
  | [] => .next s
  | h :: hs =>
    .next (if !s.handlerBusy core && decide (h.time + 256 ≤ s.cyc) then
      s.formHandler core ((h :: hs).take 128) ((h :: hs).drop 128) else s)

/-! ### Block abort (R225, R338, R339) -/

/-- Whether nothing of a crew's queue stands in the way of its stop: what has issued takes its full effect first (R338). -/
def Crew.mayStop (c : Crew) : Bool :=
  c.queue.all fun o => match o.what with
    | .instr i _ => i.matrixCmd || (match i with
        | .mfence _ => true
        | _ => false)
    | _ => false

/-- A crew of an aborted block stops: a REGROUP wait ends unpaired (R225), and its lanes become done, but for trapped ones
(R338). -/
def Crew.stopAborted (c : Crew) : Crew :=
  let c := c.endRegroup false
  let ls := c.lanes.map fun l =>
    if l.trapped then { l with act := false } else { l with done := true, parked := false, act := false, park := none }
  { c with
    lanes := ls, queue := []
    seq := if c.seq == .retired then .retired else if ls.any (·.trapped) then .shell else .retired }

/-- The label of the span a crew is visiting, or 0 (R339). -/
def Crew.visiting (c : Crew) : Word :=
  match c.seq with
  | .visit lab _ | .load _ (.run lab _) => lab
  | _ => 0

/-- Lets go of every L2 line that a block's commands pinned (R270). -/
def State.unpinL2 (s : State) (u : Nat) : State :=
  { s with l2 := s.l2.map fun l => { l with pins := l.pins.filter (·.1 != u) } }

/-- A copy command that an abort leaves to complete (R338). -/
def CCmd.scatterAdd (c : CCmd) : Bool :=
  match c.kind with
  | .scatadd .. => true
  | _ => false

/-- Whether a block has anything that an abort stops: live crews, or engine commands other than scatter-adds (R338). -/
def Block.runs (b : Block) : Bool := b.live || !b.mcmds.isEmpty || b.ccmds.any fun c => !c.scatterAdd

/-- BLOCK_ABORT_STOP: the crews of an aborted block stop, each after at most 16 more instructions, and its engines stop, all
but scatter-adds (R338). The block's error record keeps what its crews were at then (R339). -/
def execBlockAbortStop (u : Nat) (s : State) : Host.Outcome State Fault Refusal :=
  match s.block? u with
  | none => .next s
  | some b =>
    if b.abort.isNone || !b.runs || b.midStep || !b.crews.all (·.mayStop) then .next s
    else
      let s := s.modBlock u fun b =>
        { b with
          errs := b.errs.map fun e => match b.crews.find? (·.cid == e.1) with
            | some c => (e.1, c.visiting, c.skid)
            | none => e
          crews := b.crews.map (·.stopAborted)
          mcmds := [], pending := [], past := [], spLog := []
          ccmds := b.ccmds.filter (·.scatterAdd) }
      .next ((s.unpinL2 u).settle u)

end Sys2Proof.Machine
end

