-- ==== Sys2Proof/Machine/Context.lean ====
section
/-! DEFINITION. Dealing crews to a core (02_device R19, R20), the save area and the context engine (21_traps_preemption
R343-R350, 20_ranges R324): rewinding, saving and restoring blocks and number networks. -/

namespace Sys2Proof.Machine

/-! ### Dealing crews (R19, R20) -/

/-- A quadrant slot in use: quadrant, slot, budget. -/
abbrev Use := Nat × Nat × Nat

/-- The quadrant slots of a core that collective kernels hold, each with one crew of the least budget (17_engines R285; DESIGN CHOICE,
log 41). -/
def State.kernelUses (s : State) (core : Nat) : List Use :=
  s.colls.filterMap fun c => match c.kernel with
    | some (x, q, i) => if x == core && !c.done then some (q, i, 8) else none
    | none => none

/-- The quadrant slots that the crews of a core hold (R15); a retired crew holds none, and a handler crew's slot lies
outside them (R333; DEDUCED, log 13). -/
def State.uses (s : State) (core : Nat) : List Use :=
  ((s.blocks.filter fun b => b.core == core && b.hnd.isEmpty).flatMap fun b =>
    (b.crews.filter fun c => c.seq != .retired).map fun c => (c.quad, c.slot, c.budget)) ++ s.kernelUses core

/-- The budget in use in a quadrant. -/
def budgetIn (us : List Use) (q : Nat) : Nat := (us.filter (·.1 == q)).foldl (fun n u => n + u.2.2) 0

/-- How many crews a quadrant holds. -/
def countIn (us : List Use) (q : Nat) : Nat := us.countP (·.1 == q)

/-- Whether a quadrant can take a crew of a budget (R19). -/
def quadTakes (us : List Use) (q budget : Nat) : Bool := decide (budgetIn us q + budget ≤ 256) && decide (countIn us q < 8)

/-- Whether quadrant `q` is a better choice than `p` (R19): fewer crews of the role and block, then more free budget. -/
def quadBetter (us : List Use) (mine : List (Nat × Nat)) (role p q : Nat) : Bool :=
  let same := fun x => mine.countP (· == (x, role))
  decide (same q < same p) || (same q == same p && decide (budgetIn us q < budgetIn us p))

/-- The quadrant a crew goes to by R19, and its slot there, the lowest free one (DESIGN CHOICE, log 13). -/
def dealOne (us : List Use) (mine : List (Nat × Nat)) (budget role : Nat) : Option (Nat × Nat) :=
  match ((List.range 4).filter fun q => quadTakes us q budget).foldl (fun (a : Option Nat) q => match a with
      | some p => some (if quadBetter us mine role p q then q else p)
      | none => some q) none with
  | none => none
  | some q => ((List.range 8).find? fun i => !us.any fun u => u.1 == q && u.2.1 == i).map fun i => (q, i)

/-- Deals crews in order: `cid`, budget and role go in, `cid`, quadrant and slot come out. -/
def dealLoop : List (Nat × Nat × Nat) → List Use → List (Nat × Nat) → Option (List (Nat × Nat × Nat))
  | [], _, _ => some []
  | (cid, budget, role) :: r, us, mine =>
    match dealOne us mine budget role with
    | none => none
    | some (q, i) => (dealLoop r ((q, i, budget) :: us) ((q, role) :: mine)).map fun l => (cid, q, i) :: l

/-- Deals the crews of a block over the slots in use: matrix crews, then copy, then finish (R19). -/
def deal (us : List Use) (crews : List (Nat × Nat × Nat)) : Option (List (Nat × Nat × Nat)) :=
  dealLoop ([1, 0, 2].flatMap fun role => crews.filter (·.2.2 == role)) us []

/-- What a block asks of a core: crews as (cid, budget, role), tiles, scratchpad bytes. -/
structure Need where
  crews : List (Nat × Nat × Nat)
  tiles : Nat
  scratch : Nat
deriving DecidableEq, Repr

/-- How a block is dealt on a core, when the core accepts it (R20). -/
def State.accepts (s : State) (core : Nat) (n : Need) : Option (List (Nat × Nat × Nat)) :=
  let mine := s.blocks.filter fun b => b.core == core && b.hnd.isEmpty
  if mine.foldl (fun t b => t + b.tiles.length) n.tiles ≤ 8 ∧ mine.foldl (fun t b => t + b.scratchSize) n.scratch ≤ 360448 then
    deal (s.uses core) n.crews
  else none

/-- Whether an empty core accepts a block (R21). -/
def Need.fits (n : Need) : Bool := decide (n.tiles ≤ 8) && decide (n.scratch ≤ 360448) && (deal [] n.crews).isSome

/-- The units that a scratchpad of `n` bytes takes of a core's L1: the lowest free run of them, or, where no run is long enough, the
lowest free ones (R155; DESIGN CHOICE, log 15). -/
def State.takeUnits (s : State) (core n : Nat) : List Nat :=
  let k := n / 32768
  let free := s.l1Ways core
  match free.find? fun w => (List.range k).all fun i => free.contains (w + i) with
  | some w => (List.range k).map (w + ·)
  | none => free.take k

/-- Units become scratchpad: the dirty bytes of their lines go home, and the lines are dropped (R20, R155, R159). -/
def State.dropWays (s : State) (core : Nat) (us : List Nat) : State :=
  (s.l1.filter fun l => l.core == core && us.contains l.way).foldl State.dropL1 s

/-! ### Launch record and image header (22 R359, 26 R416) -/

def recPriv (r : BitVec 512) : Nat := vaField r 56
def recSave (r : BitVec 512) : Nat := vaField r 48
def recCword (r : BitVec 512) : Nat := vaField r 40
def recSeed (r : BitVec 512) : DWord := r.extractLsb' (8 * 32) 64
def recArgs (r : BitVec 512) : Nat := vaField r 24
def recKimg (r : BitVec 512) : Nat := vaField r 16
def recGrid (r : BitVec 512) : Nat := byteField r 12 21
def recNslot (r : BitVec 512) : Nat := byteField r 10 16
def recLanes (r : BitVec 512) : Nat := byteField r 9 8
def recClr (r : BitVec 512) : Nat := byteField r 8 4
def recAsid (r : BitVec 512) : Nat := byteField r 6 14

def hdrScratch (h : BitVec 1024) : Nat := byteField h 32 32
def hdrNtile (h : BitVec 1024) : Nat := byteField h 37 8
def hdrNcrew (h : BitVec 1024) : Nat := byteField h 36 8
def hdrNrw (h : BitVec 1024) : Nat := byteField h 20 32
def hdrRwoff (h : BitVec 1024) : Nat := byteField h 16 32
def hdrNline (h : BitVec 1024) : Nat := byteField h 8 32
def hdrEntry (h : BitVec 1024) : Nat := byteField h 4 32
def hdrGrouped (h : BitVec 1024) : Bool := h.getLsbD 16

/-- The crews a header declares: `cid`, budget, role. -/
def hdrCrews (h : BitVec 1024) : List (Nat × Nat × Nat) :=
  (List.range (min 16 (hdrNcrew h))).map fun c => (c, byteField h (64 + 2 * c) 8, fieldAt h (8 * (64 + 2 * c) + 8) 2)

/-- What each block of a launch asks of a core. -/
def hdrNeed (h : BitVec 1024) : Need := ⟨hdrCrews h, hdrNtile h, hdrScratch h⟩

/-! ### The save area's layout (R347, R349) -/

/-- Bytes of a crew's record (R349). -/
def crewSize (budget : Nat) : Nat := 64 + 8192 + 128 + 256 + 512 * budget

/-- SZ (R347, R349). -/
def slotSize (crews : List (Nat × Nat × Nat)) (scratch : Nat) : Nat :=
  (256 + crews.foldl (fun n c => n + crewSize c.2.1) 0 + 131072 + scratch + 8 * 24640 + 16384 + 4095) / 4096 * 4096

/-- The slot size of a launch. -/
def Launch.slotSz (l : Launch) : Nat := slotSize (hdrCrews l.hdr) (hdrScratch l.hdr)

/-- Where the block slots begin. -/
def slotsAt : Nat := 37120

/-! ### Runs without a seal check: front ends, context engines (R328, R360) -/

/-- Translates a run of an address space. -/
def State.plainRun (s : State) (core asid va n : Nat) (kind : AccKind) : State × RunRes :=
  if 2 ^ 56 < va + n then (s, .fault .rangeMiss va)
  else
    let (s, ps, r) := State.translateRun core none asid kind (n / 4096 + 3) s va n
    match r with
    | some (x, .fault c) => (s, .fault c x)
    | some (x, .park w) => (s, .wait w x)
    | _ => (s, .ok (ps.map fun p => pieceOf p.1 p.2.1 p.2.2))

/-! ### Rewinding (R344) -/

/-- Whether a parked lane keeps its park: it stands at the instruction whose implicit point is its rewind point. -/
def Lane.keepsPark (l : Lane) : Bool :=
  l.parked && !l.kind && l.wl == l.rwl && l.ro == l.rro && match l.park with
    | some (.waitc ..) | some (.bar _) | some (.barc _) => true
    | _ => false

/-- A lane rewinds (R344). -/
def Lane.rewound (l : Lane) : Lane :=
  if l.done then { l with act := false }
  else if l.keepsPark then { l with wl := l.rwl, ro := l.rro, rng := l.rngc, act := false, resumed := false }
  else { l with parked := false, park := none, wl := l.rwl, ro := l.rro, rng := l.rngc, act := false, resumed := false }

/-- An entry of the rewind table: POINT, RECIPE, VMASK, SMASK (R342). -/
structure RewindEntry where
  point : Word
  recipe : Word
  vmask : BitVec 128
  smask : DWord
deriving DecidableEq, Repr

/-- An entry from its 32 bytes (R342). -/
def rewindEntry (bs : List Byte) : RewindEntry :=
  ⟨BitVec.ofNat 32 (recField bs 0 4), BitVec.ofNat 32 (recField bs 4 4), BitVec.ofNat 128 (recField bs 8 16),
    BitVec.ofNat 64 (recField bs 24 8)⟩

/-- What a search of a rewind table finds. -/
inductive Found where
  | entry (e : RewindEntry)
  | none
  /-- an entry's granule is not resident, or stands at the fuller's watermark (20_ranges R320, R327) -/
  | wait (va : Nat) (w : Park)
deriving DecidableEq, Repr

/-- Looks for a point among `n` entries of a rewind table; an entry that cannot be read is passed over, and one that waits is waited for
(R342, R344). -/
def State.findPoint (s : State) (core asid va : Nat) (point : Word) : Nat → Found
  | 0 => .none
  | n + 1 =>
    match s.plainRun core asid (va + 32 * n) 32 .read with
    | (s', .ok ps) =>
      let e := rewindEntry (s'.readRun 0 core ps).2
      if e.point == point then .entry e else State.findPoint s core asid va point n
    | (_, .wait w x) => .wait x w
    | _ => State.findPoint s core asid va point n

/-- The search for a point of a launch's kernel. -/
def State.pointOf (s : State) (core : Nat) (l : Launch) (point : Word) : Found :=
  s.findPoint core (recAsid l.record) (recKimg l.record + 128 + hdrRwoff l.hdr) point (hdrNrw l.hdr)

/-- The rewind-table entry of a point of a launch's kernel. -/
def State.pointEntry (s : State) (core : Nat) (l : Launch) (point : Word) : Option RewindEntry :=
  match s.pointOf core l point with
  | .entry e => some e
  | _ => none

/-- Why the rewind-table entries of a block's lanes cannot all be read just now (20_ranges R320, R327). -/
def State.pointWait (s : State) (core : Nat) (l : Launch) (b : Block) : Option (Nat × Park) :=
  (b.crews.filter (·.seq != .retired)).findSome? fun c => c.lanes.findSome? fun x =>
    if x.done || !x.kind then none
    else match s.pointOf core l x.rwl with
      | .wait va w => some (va, w)
      | _ => none

/-- VSAVE and SSAVE of a crew (R344). -/
def State.saveMasks (s : State) (core : Nat) (l : Launch) (c : Crew) : BitVec 128 × DWord :=
  (c.lanes.filter fun x => !x.done).foldl (fun m x =>
    match (if x.kind then s.pointEntry core l x.rwl else none) with
    | some e => (m.1 ||| e.vmask, m.2 ||| e.smask)
    | none => (BitVec.ofNat 128 (2 ^ c.budget - 1), BitVec.ofNat 64 (2 ^ 64 - 1))) (0, 0)

/-- A crew as it is saved: stopped, its lanes rewound, its REGROUP wait ended unpaired, `swc` as it is; an MFENCE that waits goes on
after the restore (R47, R225, R297, R343, R344). Its locality score begins anew (14_crews R221; DESIGN CHOICE, log 15). -/
def Crew.rewound (c : Crew) : Crew :=
  let c := c.endRegroup false
  { c with
    lanes := c.lanes.map (·.rewound), seq := if c.seq == .retired then .retired else .census none, last := none,
    line := none, next := none, queue := c.queue.filter (·.what.isMfence), promoted := false, score := 0, skid := 0,
    busy := 0 }

/-- A copy command cut back to its last marker (R279). -/
def CCmd.cut (c : CCmd) : CCmd :=
  { c with
    done := c.done.filter fun p => decide (p.1 < c.marked), bad := c.bad.filter (decide <| · < c.marked)
    scaled := c.scaled.filter fun p => decide (p.1 < c.marked) }

/-- A block as it is saved: of its engines, what R273 and R279 name; an MREAD may still give what its tiles held since the commands that
no MWAIT has covered (R181, R343, R344). -/
def Block.rewound (b : Block) : Block :=
  { b with
    crews := b.crews.map (·.rewound), ccmds := b.ccmds.map (·.cut), stopping := false, refreshAt := [], units := []
    mcmds := b.mcmds.map fun m => { m with sp := 0, noted := [] }
    spLog := [] }

/-- Whether a block that pre-emption has reached can be saved now: some crew has not retired, no lane is trapped, its matrix unit stands
at a step boundary, and no marker is half added (R273, R277, R279, R338, R343). -/
def Block.saveable (b : Block) : Bool :=
  b.stopping && !b.midStep && (b.ccmds.all fun c => c.owed.isEmpty && !c.scatterAdd) && b.abort.isNone
  && (b.crews.any fun c => c.seq != .retired) && b.crews.all fun c => c.queueStops && c.lanes.all fun l => !l.trapped

/-! ### The bytes of a saved block (R348-R350) -/

/-- FLAGS of a lane record (R350). -/
def Lane.flags (l : Lane) : Nat :=
  (if l.done then 1 else 0) + (if l.parked then 2 else 0) + (if l.kind && !l.done then 4 else 0)
  + (match l.park with
     | some (.waitc ..) => if l.parked then 8 else 0
     | _ => 0) + 256 * l.link.length + 4096 * l.spilled

/-- A lane record (R350). -/
def Lane.recordBytes (l : Lane) : List Byte :=
  let woff := match l.park with
    | some (.waitc _ _ _ _ _ off) => if l.parked then off.toNat else 0
    | _ => 0
  leBytes 4 l.wl.toNat ++ leBytes 4 l.ro.toNat ++ leBytes 4 l.rwl.toNat ++ leBytes 4 l.rro.toNat ++ leBytes 4 l.rng.toNat
    ++ leBytes 4 l.rngc.toNat ++ leBytes 4 woff ++ leBytes 4 l.flags
    ++ (List.range 8).flatMap fun k => leBytes 4 (regAt l.link.reverse k).toNat

/-- A crew record, up to its last meaningful byte (R349). -/
def Crew.recordBytes (c : Crew) (vs : BitVec 128) (ss : DWord) : List Byte :=
  leBytes 1 c.cid ++ leBytes 1 c.quad ++ leBytes 1 c.role ++ leBytes 1 c.budget ++ leBytes 4 c.swc.toNat
    ++ leBytes 16 vs.toNat ++ leBytes 8 ss.toNat ++ List.replicate 32 0
    ++ c.lanes.flatMap (·.recordBytes) ++ c.lanes.map (fun l => l.q ||| 1)
    ++ ((List.range 64).flatMap fun j => leBytes 4 (if ss.getLsbD j then (regAt c.s j).toNat else 0))
    ++ ((List.range c.budget).filter fun j => vs.getLsbD j).flatMap fun j =>
        c.lanes.flatMap fun l => leBytes 4 (regAt l.v j).toNat

/-- A mask of the crews for which a test holds, by `cid`. -/
def crewMask (cs : List Crew) (p : Crew → Bool) : Nat := (cs.filter p).foldl (fun n c => n ||| 2 ^ c.cid) 0

/-- The block header: a crew's arrival bits are set once the whole of it has arrived (R205, R349). -/
def Block.headerBytes (b : Block) : List Byte :=
  let bar := crewMask b.crews fun c => b.barArr.any (·.1 == c.cid) && c.arrived b.barArr
  let barc := crewMask b.crews fun c => b.barcArr.any (·.1 == c.cid) && c.arrived b.barcArr
  let arrived := b.barcArr != [] && b.crews.all fun c => c.arrived b.barcArr
  leBytes 4 b.bid ++ leBytes 4 (b.core + 512 * b.pos) ++ leBytes 4 b.scratchSize ++ leBytes 1 b.crews.length
    ++ leBytes 1 b.tiles.length ++ leBytes 2 0 ++ leBytes 2 bar ++ leBytes 2 barc ++ leBytes 4 (if arrived then 1 else 0)
    ++ leBytes 4 b.storeBuf.length ++ leBytes 4 b.unacked ++ List.replicate 224 0

/-- A store-buffer entry (R349). -/
def Entry.recordBytes (e : Entry) : List Byte := leBytes 7 (e.p.va % 2 ^ 56) ++ leBytes 1 e.p.size ++ leBytes 8 e.data.toNat

/-- The bytes of an engine-state section. -/
def engineSize : Nat := 8 * 24640 + 16384

/-- The sections of a saved block, each with its offset in the slot; a retired crew's record is left as it was, and the bytes of the
engine state are free, drawn from `n` on (R349, R352; DESIGN CHOICE, log 14). -/
def State.slotSections (s : State) (l : Launch) (b : Block) (n : Nat) : List (Nat × List Byte) :=
  let crewEnds := b.crews.foldl (fun n c => n + crewSize c.budget) 256
  let crews := (b.crews.foldl (fun (r : Nat × List (Nat × List Byte)) c =>
    let m := s.saveMasks b.core l c
    (r.1 + crewSize c.budget,
      if c.seq == .retired then r.2 else r.2 ++ [(r.1, c.recordBytes m.1 m.2)])) (256, [])).2
  (0, b.headerBytes) :: crews ++ [(crewEnds, b.storeBuf.flatMap (·.recordBytes)),
    (crewEnds + 131072, b.scratchBytes 0 b.scratchSize),
    (crewEnds + 131072 + b.scratchSize, (List.range engineSize).map fun i => BitVec.ofNat 8 (Config.freeNat (n + i)))]

/-- The save area's header (R348). -/
def Launch.areaHeader (l : Launch) (st nblk nnet : Nat) : List Byte :=
  leBytes 4 st ++ leBytes 4 l.id.toNat ++ leBytes 8 0 ++ leBytes 4 (recNslot l.record) ++ leBytes 4 l.slotSz ++ leBytes 4 nblk
    ++ leBytes 4 nnet ++ leBytes 8 l.nerr ++ List.replicate 216 0

/-- How the context engine's writes into save areas end (R351, 20_ranges R327). -/
inductive Saving where
  | done
  | fault (va : Nat)
  | wait (va : Nat) (w : Park)
deriving DecidableEq, Repr

/-- A section of a launch's save area: its offset there and its bytes. -/
abbrev Section := Launch × Nat × List Byte

/-- Translates what the context engine is about to write, until a section faults or waits. -/
def State.sectionRuns (core : Nat) : List Section → State → State × Except Saving (List (Nat × List Piece × List Byte))
  | [], s => (s, .ok [])
  | (l, o, bs) :: r, s =>
    match s.plainRun core (recAsid l.record) (recSave l.record + o) bs.length .write with
    | (s, .fault _ va) | (s, .denied _ va) => (s, .error (.fault va))
    | (s, .wait w va) => (s, .error (.wait va w))
    | (s, .ok ps) => match State.sectionRuns core r s with
      | (s, .ok rs) => (s, .ok ((l.vf, ps, bs) :: rs))
      | (s, .error e) => (s, .error e)

/-- The context engine writes sections of save areas, in order. One that faults or waits leaves them all unwritten, and after a wait
they are tried again (R351, 20_ranges R327). -/
def State.writeSections (core : Nat) (xs : List Section) (s : State) : State × Saving :=
  match State.sectionRuns core xs s with
  | (s, .error e) => (s, e)
  | (s, .ok rs) => (rs.foldl (fun (s : State) (r : Nat × List Piece × List Byte) => s.writeRun r.1 0 r.2.1 r.2.2) s, .done)

/-- Everything the context engine writes into a launch's save area when it saves (R347; DEDUCED, log 14). -/
def State.areaSections (s : State) (l : Launch) (nets : List Nat) : List Section :=
  let slots : List (Nat × List Byte) := l.saved.zipIdx.flatMap fun b =>
    (s.slotSections l b.1 (s.draws + engineSize * b.2)).map fun x => (slotsAt + b.2 * l.slotSz + x.1, x.2)
  let records := nets.map fun n => (256 + 96 * n, (s.net n).recordOf n)
  ((0, l.areaHeader 1 l.saved.length nets.length) :: records ++ slots).map fun x => (l, x)

/-! ### Restoring a block (R324, R345) -/

/-- How a saved entry's retranslation ends (R324). -/
inductive Again where
  | entry (e : Entry)
  | lost
  | denied (sl : Nat × Bool)
  | wait (w : Park)
deriving DecidableEq, Repr

/-- A saved store-buffer entry is translated again (R324); its record holds no hint (R349). -/
def State.entryAgain (s : State) (b : Block) (core : Nat) (e : Entry) : State × Again :=
  match s.translate core none b.asid e.p.va e.p.size .write with
  | (s, .ok x) =>
    let p := pieceOf e.p.va e.p.size x
    match s.denies b.part b.clr p with
    | some sl => (s, .denied sl)
    | none => (s, .entry { e with p := p, hint := .none })
  | (s, .park w) => (s, .wait w)
  | (s, .fault _) => (s, .lost)

/-- The saved entries as they stand after the restore, with the entries lost and the addresses denied; `error` is a wait of an entry. -/
def State.entriesAgain (b : Block) (core : Nat) :
    List Entry → State → State × Except (Park × Entry) (List Entry × List Entry × List (Nat × Nat × Bool))
  | [], s => (s, .ok ([], [], []))
  | e :: es, s =>
    match s.entryAgain b core e with
    | (s, .wait w) => (s, .error (w, e))
    | (s, r) =>
      match State.entriesAgain b core es s with
      | (s, .error w) => (s, .error w)
      | (s, .ok (xs, lost, den)) => match r with
        | .entry x => (s, .ok (x :: xs, lost, den))
        | .denied sl => (s, .ok (xs, lost, (e.p.va, sl) :: den))
        | _ => (s, .ok (xs, e :: lost, den))

/-- A register that was not saved holds any value (R345; DESIGN CHOICE, log 3). -/
def Crew.forget (c : Crew) (vs : BitVec 128) (ss : DWord) (n : Nat) : Crew :=
  { c with
    s := c.s.mapIdx fun j x => if ss.getLsbD j then x else Config.freeWord (n + j)
    lanes := c.lanes.mapIdx fun i l =>
      { l with v := l.v.mapIdx fun j x => if vs.getLsbD j then x else Config.freeWord (n + 64 + 128 * i + j) } }

/-- The free values that `forget` may take. -/
def forgetDraws : Nat := 64 + 128 * 128

/-- A marked lane goes to its recipe (R345). -/
def State.toRecipe (s : State) (core : Nat) (l : Launch) (x : Lane) : Lane :=
  if x.done || !x.kind then x
  else match s.pointEntry core l x.wl with
    | some e => { x with wl := e.recipe, ro := 0 }
    | none => { x with ro := 0 }

/-- A crew as it resumes: dealt anew, its registers outside VSAVE and SSAVE any value, its marked lanes at their recipes,
younger than what is resident, and aged as it was dealt (R19, R219, R345). -/
def State.resumeCrew (s : State) (core : Nat) (l : Launch) (dealt : List (Nat × Nat × Nat)) (c : Crew) : State × Crew :=
  if c.seq == .retired then (s, c)
  else
    let m := s.saveMasks core l c
    let at_ := ((dealt.find? (·.1 == c.cid)).map (·.2)).getD (c.quad, c.slot)
    let c := c.forget m.1 m.2 s.draws
    let c : Crew := { c with
      quad := at_.1, slot := at_.2, age := s.nextAge + dealt.findIdx (·.1 == c.cid), since := s.cyc
      lanes := c.lanes.map fun x => { s.toRecipe core l x with floors := [] } }
    ({ s with draws := s.draws + forgetDraws }, c)

/-- The crews of a block resume one after another. -/
def State.resumeCrews (core : Nat) (l : Launch) (dealt : List (Nat × Nat × Nat)) : List Crew → State → State × List Crew
  | [], s => (s, [])
  | c :: cs, s =>
    let (s, c) := s.resumeCrew core l dealt c
    let (s, cs) := State.resumeCrews core l dealt cs s
    (s, c :: cs)

/-- What a block that resumes asks of a core: its crews that have not retired. -/
def Block.need (b : Block) : Need :=
  ⟨(b.crews.filter fun c => c.seq != .retired).map fun c => (c.cid, c.budget, c.role), b.tiles.length, b.scratchSize⟩

/-- Lanes parked in WAITC read their words again before the first sweep (R345). -/
def State.rereadWaitc (s : State) (u : Nat) : State :=
  match s.block? u with
  | none => s
  | some b => b.crews.zipIdx.foldl (fun t c => c.1.slots.foldl (fun t x =>
      match x.2.park with
      | some w => if x.2.parked && s.waitcNow b w then t.endWait b c.2 x.1 w else t
      | none => t) t) s

/-- Marked lanes whose point has no entry trap before their crew's first sweep (R345, R26). -/
def State.trapPointless (s : State) (u : Nat) (core : Nat) (l : Launch) : State :=
  match s.block? u with
  | none => s
  | some b => b.crews.zipIdx.foldl (fun t c =>
      t.seqTrap u c.2 (fun x => !x.done && x.kind && x.wl == x.rwl && (s.pointEntry core l x.rwl).isNone) .wanted
        (fun x => b.codeVa x.wl) (fun x => x.wl)) s

/-- The residency request of a saved entry that holds a restore up: that of its store (R324, R330, R334). -/
def State.askEntry (s : State) (b : Block) (core : Nat) (w : Park × Entry) : State :=
  s.askResidency { b with core := core } w.2.crew w.2.lane w.2.p.va w.2.off w.1

/-- The lines of a block's store-buffer entries stand in its core's L1 again, what other blocks had written of them at home (R159). -/
def State.restoreLines (s : State) (u : Nat) : State :=
  match s.block? u with
  | none => s
  | some b => b.storeBuf.foldl (fun s e =>
    let (quad, slot) := ((b.crews[e.crew]?).map fun c => (c.quad, c.slot)).getD (0, 0)
    (s.cleanLine b.core (e.p.home / 256) (some u)).l1Store b.core (e.p.home / 256) quad slot e.hint) s

/-- Adds one saved block of a launch to a core, once its units are scratchpad (R20, R324, R345, R162). The report of the entries lost
is that of the first one's store (R330). The Bool is false when the granule of an entry, or of a rewind-table entry, holds the restore
up. -/
def State.readdBlock (s : State) (l : Launch) (b : Block) (core : Nat) (dealt : List (Nat × Nat × Nat)) : State × Bool :=
  match s.pointWait core l b with
  | some (va, w) => (s.askResidencyFront l.part l.vf va w, false)
  | none =>
  match State.entriesAgain b core b.storeBuf s with
  | (s, .error w) => (s.askEntry b core w, false)
  | (s, .ok (es, lost, den)) =>
    let (s, crews) := State.resumeCrews core l dealt b.crews s
    let us := s.takeUnits core b.scratchSize
    let s := s.dropWays core us
    let b : Block := { b with
      core := core, crews := crews, storeBuf := es, refresh := s.now, refreshAt := [], units := us
      mcmds := b.mcmds.map (fun m => { m with home := s.now }), ccmds := b.ccmds.map fun c => { c with home := s.now } }
    let s : State := { s with blocks := s.blocks ++ [b], nextAge := s.nextAge + dealt.length }
    let s := s.modLaunch l.id fun x => { x with saved := x.saved.filter (·.uid != b.uid) }
    let s := (s.restoreLines b.uid).advanceStamps b.uid core
    let s := den.foldl (fun s d => s.denial b.part b.vf d.1 0 b.launch (.context core) true d.2.2 d.2.1) s
    let s := match lost with
      | [] => s
      | e :: _ => s.report b e.crew e.lane .storeLost (BitVec.ofNat 64 e.p.va) e.off
    (s, true)

/-- What follows when a block, or all the blocks of a group, stand on their cores again (R345, R206). -/
def State.resumed (s : State) (l : Launch) (u core : Nat) : State :=
  ((s.trapPointless u core l).rereadWaitc u).settle u

/-- Once the last saved block of a launch stands on a core again, the header of its save area says *restored* (R348; DEDUCED, log 30). -/
def State.noteRestored (s : State) (l : Launch) (core : Nat) : State × Saving :=
  match s.launch? l.id with
  | some x => if x.saved.isEmpty then State.writeSections core [(l, 0, leBytes 4 2)] s else (s, .done)
  | none => (s, .done)

end Sys2Proof.Machine
end

