-- ==== Sys2Proof/Machine/FloatOps.lean ====
section
/-! DEFINITION. The float and conversion instructions (08_float_convert R124-R143): one meaning for each. -/

namespace Sys2Proof.Machine

/-- The low element of an operand's bits (R112, R127). -/
def lowElem (t : Ty) (x : Word) : Nat := x.toNat % 2 ^ t.width

/-- The high element of a packed pair (R127). -/
def highElem (x : Word) : Nat := x.toNat / 65536

/-- Computes one element, or the two halves of a packed pair, the low half first (R127). -/
def elements (x2 : Bool) (f : Bool → Draw Nat) : Val := fun s =>
  let (lo, s) := f false s
  if x2 then let (hi, s) := f true s; (BitVec.ofNat 64 (lo + hi * 65536), s)
  else (BitVec.ofNat 64 lo, s)

/-- An element of an operand: the low one, or the high half. -/
def elem (t : Ty) (hi : Bool) (x : Word) : Nat := if hi then highElem x else lowElem t x

/-- Issues a rounded sum or product of decoded operands (R129). -/
def issueArith (i : Instr) (t : Ty) (rm : Rm) (sat x2 ftz : Bool) (d a b c : Reg)
    (f : FVal → FVal → FVal → FVal) (s : State) : Host.Outcome State Fault Refusal :=
  issueAlu i false d (fun k l =>
    elements x2 fun hi => roundTo t rm sat ftz
      (f (dec t ftz (elem t hi (k.rd l a))) (dec t ftz (elem t hi (k.rd l b))) (dec t ftz (elem t hi (k.rd l c))))) s

/-- FADD (R129). -/
def execFadd (g : Guard) (t : Ty) (rm : Rm) (sat x2 ftz : Bool) (d a b : Reg) (s : State) :
    Host.Outcome State Fault Refusal :=
  issueArith (.fadd g t rm sat x2 ftz d a b) t rm sat x2 ftz d a b .none (fun x y _ => sumTerms rm [x, y]) s

/-- FSUB (R129): x + (-y). -/
def execFsub (g : Guard) (t : Ty) (rm : Rm) (sat x2 ftz : Bool) (d a b : Reg) (s : State) :
    Host.Outcome State Fault Refusal :=
  issueArith (.fsub g t rm sat x2 ftz d a b) t rm sat x2 ftz d a b .none (fun x y _ => sumTerms rm [x, y.neg]) s

/-- FMUL (R129). -/
def execFmul (g : Guard) (t : Ty) (rm : Rm) (sat x2 ftz : Bool) (d a b : Reg) (s : State) :
    Host.Outcome State Fault Refusal :=
  issueArith (.fmul g t rm sat x2 ftz d a b) t rm sat x2 ftz d a b .none (fun x y _ => x.mul y) s

/-- FFMA (R129): one rounding covers the product and the sum. -/
def execFfma (g : Guard) (t : Ty) (rm : Rm) (sat x2 ftz : Bool) (d a b c : Reg) (s : State) :
    Host.Outcome State Fault Refusal :=
  issueArith (.ffma g t rm sat x2 ftz d a b c) t rm sat x2 ftz d a b c (fun x y z => sumTerms rm [x.mul y, z]) s

/-- FMIN (R130). -/
def execFmin (g : Guard) (t : Ty) (x2 ftz : Bool) (d a b : Reg) (s : State) : Host.Outcome State Fault Refusal :=
  issueAlu (.fmin g t x2 ftz d a b) false d (fun k l =>
    elements x2 fun hi r => (fminmax t ftz false (elem t hi (k.rd l a)) (elem t hi (k.rd l b)), r)) s

/-- FMAX (R130). -/
def execFmax (g : Guard) (t : Ty) (x2 ftz : Bool) (d a b : Reg) (s : State) : Host.Outcome State Fault Refusal :=
  issueAlu (.fmax g t x2 ftz d a b) false d (fun k l =>
    elements x2 fun hi r => (fminmax t ftz true (elem t hi (k.rd l a)) (elem t hi (k.rd l b)), r)) s

/-- FCMP (R131). -/
def execFcmp (g : Guard) (t : Ty) (cond : FCond) (comb : Comb) (ftz : Bool) (d : BitVec 3) (a b c : Reg) (s : State) :
    Host.Outcome State Fault Refusal :=
  issue (.fcmp g t cond comb ftz d a b c) (fun k s => s.modCur k fun x =>
    x.compare g comb d c fun l => fcond cond (dec t ftz (x.rd l a).toNat) (dec t ftz (x.rd l b).toNat)) s

/-- FCLASS (R132). -/
def execFclass (g : Guard) (t : Ty) (d a : Reg) (s : State) : Host.Outcome State Fault Refusal :=
  issueAlu (.fclass g t d a) false d (fun c l => pureVal (BitVec.ofNat 64 (fclassBits t (c.rd l a).toNat))) s

/-- Issues a function of one operand that rounds (R136). -/
def issueUnary (i : Instr) (d a : Reg) (f : Nat → Draw Nat) (s : State) : Host.Outcome State Fault Refusal :=
  issueAlu i false d (fun c l r => let (x, r) := f (c.rd l a).toNat r; (BitVec.ofNat 64 x, r)) s

/-- FRCP (R136, R138). -/
def execFrcp (g : Guard) (t : Ty) (rm : Rm) (sat ftz : Bool) (d a : Reg) (s : State) :
    Host.Outcome State Fault Refusal :=
  issueUnary (.frcp g t rm sat ftz d a) d a (fun x => frcpCode t rm sat ftz (dec t ftz x)) s

/-- FRSQ (R137, R138). -/
def execFrsq (g : Guard) (t : Ty) (sat ftz : Bool) (d a : Reg) (s : State) : Host.Outcome State Fault Refusal :=
  issueUnary (.frsq g t sat ftz d a) d a (fun x r => (fnCode .rsq t sat ftz x, r)) s

/-- FSQRT (R136, R138). -/
def execFsqrt (g : Guard) (t : Ty) (rm : Rm) (sat ftz : Bool) (d a : Reg) (s : State) :
    Host.Outcome State Fault Refusal :=
  issueUnary (.fsqrt g t rm sat ftz d a) d a (fun x => fsqrtCode t rm sat ftz (dec t ftz x)) s

/-- FEXP2 (R137, R138). -/
def execFexp2 (g : Guard) (t : Ty) (sat ftz : Bool) (d a : Reg) (s : State) : Host.Outcome State Fault Refusal :=
  issueUnary (.fexp2 g t sat ftz d a) d a (fun x r => (fnCode .exp2 t sat ftz x, r)) s

/-- FLOG2 (R137, R138). -/
def execFlog2 (g : Guard) (t : Ty) (sat ftz : Bool) (d a : Reg) (s : State) : Host.Outcome State Fault Refusal :=
  issueUnary (.flog2 g t sat ftz d a) d a (fun x r => (fnCode .log2 t sat ftz x, r)) s

/-- FSIN (R137, R138). -/
def execFsin (g : Guard) (t : Ty) (sat ftz : Bool) (d a : Reg) (s : State) : Host.Outcome State Fault Refusal :=
  issueUnary (.fsin g t sat ftz d a) d a (fun x r => (fnCode .sin t sat ftz x, r)) s

/-- FCOS (R137, R138). -/
def execFcos (g : Guard) (t : Ty) (sat ftz : Bool) (d a : Reg) (s : State) : Host.Outcome State Fault Refusal :=
  issueUnary (.fcos g t sat ftz d a) d a (fun x r => (fnCode .cos t sat ftz x, r)) s

/-- FTANH (R137, R138). -/
def execFtanh (g : Guard) (t : Ty) (sat ftz : Bool) (d a : Reg) (s : State) : Host.Outcome State Fault Refusal :=
  issueUnary (.ftanh g t sat ftz d a) d a (fun x r => (fnCode .tanh t sat ftz x, r)) s

/-- x * 2^b (R133). -/
def scaleBy (x : FVal) (b : Int) : FVal :=
  match x with
  | .fin n m e => .fin n m (e + b)
  | x => x

/-- Bound on the exponent FSCALE applies: beyond it every nonzero product overflows or underflows all types alike. -/
def scaleCap : Int := 1000

/-- FSCALE (R133). -/
def execFscale (g : Guard) (t : Ty) (rm : Rm) (sat ftz : Bool) (d a b : Reg) (s : State) :
    Host.Outcome State Fault Refusal :=
  issueAlu (.fscale g t rm sat ftz d a b) false d (fun c l r =>
    let k := max (-scaleCap) (min scaleCap (c.rd l b).toInt)
    let (x, r) := roundTo t rm sat ftz (scaleBy (dec t ftz (c.rd l a).toNat) k) r
    (BitVec.ofNat 64 x, r)) s

/-- FRND (R134): the integral value in the same type. -/
def frndCode (t : Ty) (rm : Rm) (ftz : Bool) (x : Nat) : Draw Nat := fun r =>
  match dec t ftz x with
  | .fin n m e =>
    if m = 0 then (signed (fty t) n 0, r)
    else let (i, r) := rintOf rm n m e r; roundTo t .rtz false ftz (finOf i 0 n) r
  | v => roundTo t .rtz false ftz v r

/-- FRND (R134). -/
def execFrnd (g : Guard) (t : Ty) (rm : Rm) (ftz : Bool) (d a : Reg) (s : State) : Host.Outcome State Fault Refusal :=
  issueUnary (.frnd g t rm ftz d a) d a (fun x => frndCode t rm ftz x) s

/-- FDOT2 (R135): two products and an f32 addend, rounded once to f32. -/
def execFdot2 (g : Guard) (t : Ty) (rm : Rm) (sat ftz : Bool) (d a b c : Reg) (s : State) :
    Host.Outcome State Fault Refusal :=
  issueAlu (.fdot2 g t rm sat ftz d a b c) false d (fun k l r =>
    let p := fun hi => (dec t ftz (elem t hi (k.rd l a))).mul (dec t ftz (elem t hi (k.rd l b)))
    let ts := if c.isNone then [p false, p true] else [p false, p true, dec .f32 ftz (k.rd l c).toNat]
    let (x, r) := roundTo .f32 rm sat ftz (sumTerms rm ts) r
    (BitVec.ofNat 64 x, r)) s

/-- CVT (R139, R140): a plain conversion, or with B a block decode. -/
def execCvt (g : Guard) (td ts : Ty) (rm : Rm) (sat ftz : Bool) (d a b : Reg) (s : State) :
    Host.Outcome State Fault Refusal :=
  issueAlu (.cvt g td ts rm sat ftz d a b) td.is64 d (fun c l =>
    if b.isNone then convert td ts rm sat ftz (BitVec.ofNat 64 (if ts.is64 then (c.rd64 l a).toNat else (c.rd l a).toNat))
    else blockDecode td ts rm ftz ((c.rd l a).toNat % 2 ^ ts.width) (c.rd l b)) s

/-- PACK (R142): a and b become elements 2N and 2N + 1 of d, the other bits come from c. -/
def execPack (g : Guard) (td ts : Ty) (rm : Rm) (sat ftz : Bool) (n : BitVec 3) (d a b c : Reg) (s : State) :
    Host.Outcome State Fault Refusal :=
  issueAlu (.pack g td ts rm sat ftz n d a b c) false d (fun k l r =>
    let w := td.width
    let (x, r) := convert td ts rm sat ftz ((k.rd l a).setWidth 64) r
    let (y, r) := convert td ts rm sat ftz ((k.rd l b).setWidth 64) r
    let pos := 2 * n.toNat * w
    let old := (k.rd l c).toNat
    let pair := x.toNat % 2 ^ w + y.toNat % 2 ^ w * 2 ^ w
    (BitVec.ofNat 64 (old - old / 2 ^ pos % 2 ^ (2 * w) * 2 ^ pos + pair * 2 ^ pos), r)) s

/-- UNPACK (R143): converts element N of a, or decodes it with a scale word. -/
def execUnpack (g : Guard) (td ts : Ty) (rm : Rm) (sat ftz : Bool) (n : BitVec 3) (d a b : Reg) (s : State) :
    Host.Outcome State Fault Refusal :=
  issueAlu (.unpack g td ts rm sat ftz n d a b) false d (fun c l =>
    let w := ts.width
    let e := (c.rd l a).toNat / 2 ^ (n.toNat * w) % 2 ^ w
    if b.isNone then convert td ts rm sat ftz (BitVec.ofNat 64 e) else blockDecode td ts rm ftz e (c.rd l b)) s

end Sys2Proof.Machine
end

