-- ==== Sys2Proof/Machine/Place.lean ====
section
/-! DEFINITION. Launches (22_tenants R358-R363, 14_crews R217-R218, 09 R146): taking a record from a list and checking it,
arbitration, placing blocks and groups, and completion of blocks and launches (R170, R339, R362). -/

namespace Sys2Proof.Machine

/-! ### Checks of a launch record (R359, R361) -/

/-- The zero bits of a record and the ranges of its fields (R361, check 1). -/
def recordFieldsOk (r : BitVec 512) : Bool :=
  byteField r 0 48 == 0 && fieldAt r (8 * 6 + 14) 2 == 0 && fieldAt r (8 * 8 + 4) 4 == 0 && fieldAt r (8 * 12 + 21) 11 == 0
  && ([16, 24, 40, 48, 56].all fun o => byteField r (o + 7) 8 == 0)
  && recGrid r != 0 && recLanes r != 0 && decide (recLanes r ≤ 128) && recNslot r != 0 && recCword r % 8 == 0

/-- A kernel image header that R416 accepts. -/
def headerOk (h : BitVec 1024) : Bool :=
  let n := hdrNcrew h
  byteField h 0 16 == 1 && byteField h 2 16 / 2 == 0 && byteField h 38 208 == 0 && byteField h 96 256 == 0
  && decide (1 ≤ n) && decide (n ≤ 16) && decide (hdrNtile h ≤ 8) && hdrNline h != 0
  && hdrScratch h % 32768 == 0 && decide (hdrScratch h ≤ 360448) && byteField h 12 32 == 128 * hdrNline h
  && (List.range 16).all fun c =>
    let e := byteField h (64 + 2 * c) 16
    if c < n then e % 8 == 0 && decide (8 ≤ e % 256) && decide (e % 256 ≤ 128) && decide (e / 256 ≤ 2) else e == 0

/-- Whether a run lies wholly under W ranges whose stage-2 descriptors have PIN (R361, check 4). -/
def State.pinnedRun (s : State) (asid : Nat) : Nat → Nat → Nat → Bool
  | 0, _, n => n == 0
  | fuel + 1, va, n =>
    if n = 0 then true
    else match s.walk asid va with
      | .error _ => false
      | .ok (_, d, vf) =>
        match s.s2Find vf (d1Ia d va) with
        | none => false
        | some e =>
          let m := max 1 (min n (min (d1Run d va + 1 - va) (d2Limit e * 4096 + 4096 - d1Ia d va)))
          d1W d && d2Pin e && State.pinnedRun s asid fuel (va + m) (n - m)

/-- The clusters of a partition. -/
def Part.clusters (p : Part) : List Nat := (List.range Config.clusters).filter fun c => p.cbase ≤ c && c ≤ p.clim

/-- Appends the denial record of a front end's read or write (R329, R360). -/
def State.frontDenial (s : State) (part vf va : Nat) (launch : Word) (write : Bool) (sl : Nat × Bool) : State :=
  s.denial part vf va 0 launch (.front part) write sl.2 sl.1

/-- A *store lost* report of a front end, to the partition's first core (R360, R362). -/
def State.storeLost (s : State) (part : Nat) (launch : Word) (va : Nat) : State :=
  s.reportPart part (s.part part).firstCore launch .storeLost (BitVec.ofNat 64 va)

/-- Writes a completion word, or reports that it is lost (R361, R362). The Bool is false while its granule is awaited. -/
def State.writeWord (s : State) (part vf : Nat) (r : BitVec 512) (launch : Word) (w : DWord) : State × Bool :=
  let va := recCword r
  if va % 8 ≠ 0 then (s.storeLost part launch va, true)
  else match s.checkRun (s.part part).firstCore (recAsid r) part (recClr r) va 8 .write with
    | (s, .ok ps) => (s.writeRun vf 0 ps (leBytes 8 w.toNat), true)
    | (s, .fault _ va) => (s.storeLost part launch va, true)
    | (s, .denied sl va) => ((s.frontDenial part vf va launch true sl).storeLost part launch va, true)
    | (s, .wait w va) => (s.askResidencyFront part vf va w, false)

/-- The completion word of R362. -/
def completionWord (st why nerr : Nat) (launch : Word) : DWord :=
  BitVec.ofNat 4 st ++ BitVec.ofNat 4 why ++ BitVec.ofNat 24 (min nerr (2 ^ 24 - 1)) ++ launch

/-- How a front end's checked read ends. -/
inductive FrontRead where
  | bytes (bs : List Byte)
  | bad
  | wait
deriving DecidableEq, Repr

/-- A front end reads arguments or an image header, under a launch's clearance map (R360). -/
def State.frontRead (s : State) (part vf asid clr va n : Nat) : State × FrontRead :=
  match s.checkRun (s.part part).firstCore asid part clr va n .read with
  | (s, .ok ps) =>
    let (s, bs) := s.readRun vf (s.part part).firstCore ps
    (s, .bytes bs)
  | (s, .fault _ _) => (s, .bad)
  | (s, .denied sl va) => (s.frontDenial part vf va 0 false sl, .bad)
  | (s, .wait w va) => (s.askResidencyFront part vf va w, .wait)

/-- What the checks of R361 give: the arguments and header of an accepted launch, or WHY. -/
inductive Verdict361 where
  | accept (args : List Word) (hdr : BitVec 1024)
  | refuse (why : Nat)
  | wait
deriving DecidableEq, Repr

/-- The checks of R361 that follow the reads: save area, group grid, fit on an empty core (DEDUCED, log 31). -/
def State.checkHeader (s : State) (part : Nat) (r : BitVec 512) (args : List Word) (h : BitVec 1024) : Verdict361 :=
  let size := slotsAt + recNslot r * slotSize (hdrCrews h) (hdrScratch h)
  let fits := (hdrNeed h).fits && !(s.part part).clusters.isEmpty
  if !headerOk h then .refuse 4
  else if decide (2 ^ 56 < recSave r + size) || !s.pinnedRun (recAsid r) (size / 4096 + 3) (recSave r) size then .refuse 5
  else if hdrGrouped h && recGrid r % 4 != 0 then .refuse 2
  else if !fits then .refuse 1
  else .accept args h

/-- The checks of R361 in their order. -/
def State.checkLaunch (s : State) (part vf : Nat) (r : BitVec 512) : State × Verdict361 :=
  let e := s.dirEntry (recAsid r)
  if !recordFieldsOk r then (s, .refuse 4)
  else if !(dirValid e && dirVf e == vf) then (s, .refuse 3)
  else match s.frontRead part vf (recAsid r) (recClr r) (recArgs r) 64 with
    | (s, .bad) => (s, .refuse 4)
    | (s, .wait) => (s, .wait)
    | (s, .bytes as) =>
      match s.frontRead part vf (recAsid r) (recClr r) (recKimg r) 128 with
      | (s, .bad) => (s, .refuse 4)
      | (s, .wait) => (s, .wait)
      | (s, .bytes hs) => (s, s.checkHeader part r (argWords as) (BitVec.ofNat 1024 (leNat hs)))

/-! ### Placing (R146, R217, R218) -/

/-- How many blocks of a launch are resident. -/
def State.residentOf (s : State) (id : Word) : Nat := s.blocks.countP fun b => b.launch == id && b.hnd.isEmpty

/-- How many blocks of a launch are resident on a core. -/
def State.residentOn (s : State) (id : Word) (core : Nat) : Nat :=
  s.blocks.countP fun b => b.launch == id && b.core == core && b.hnd.isEmpty

/-- Whether an operation runs as a kernel on a core (17_engines R285). -/
def COp.kernelOn (c : COp) (core : Nat) : Bool := (c.kernel.any fun k => k.1 == core) && !c.done

/-- The load that placement looks at on a core: resident crews, and resident blocks of a launch, collective kernels among them (R217,
17_engines R285). -/
def State.loadOf (s : State) (id : Word) (core : Nat) : Nat × Nat :=
  ((s.uses core).length, s.residentOn id core + s.colls.countP fun c => c.kernelOn core && c.launch == id)

/-- Whether a load is the lighter one. -/
def lighter (x y : Nat × Nat) : Bool := decide (x.1 < y.1) || (x.1 == y.1 && decide (x.2 < y.2))

/-- The core that receives a block, and how it is dealt there (R217). -/
def State.chooseCore (s : State) (part : Nat) (id : Word) (n : Need) : Option (Nat × List (Nat × Nat × Nat)) :=
  ((s.part part).cores.filterMap fun c => (s.accepts c n).map fun d => (c, d)).foldl (fun a x => match a with
    | some y => some (if lighter (s.loadOf id x.1) (s.loadOf id y.1) then x else y)
    | none => some x) none

/-- Whether the four cores of a cluster each accept their block of a group; how they are dealt. -/
def State.clusterTakes (s : State) (cl : Nat) (ns : List Need) : Option (List (Nat × List (Nat × Nat × Nat))) :=
  let xs := ns.zipIdx.filterMap fun n => (s.accepts (4 * cl + n.2) n.1).map fun d => (4 * cl + n.2, d)
  if xs.length = ns.length then some xs else none

/-- The cluster that receives a group, and how its blocks are dealt (R218). -/
def State.chooseCluster (s : State) (part : Nat) (ns : List Need) : Option (List (Nat × List (Nat × Nat × Nat))) :=
  let load := fun cl => (List.range 4).foldl (fun n i => n + (s.loadOf 0 (4 * cl + i)).1) 0
  (((s.part part).clusters.filterMap fun cl => (s.clusterTakes cl ns).map fun x => (cl, x)).foldl (fun a x => match a with
    | some (y : Nat × _) => some (if load x.1 < load y.1 then x else y)
    | none => some x) none).map (·.2)

/-- A crew as it starts, aged as it was dealt (R11, R19, R28, R119, R219). -/
def Launch.startCrew (l : Launch) (bid : Nat) (dealt : List (Nat × Nat × Nat)) (age now : Nat) (c : Nat × Nat × Nat) : Crew :=
  let at_ := ((dealt.find? (·.1 == c.1)).map (·.2)).getD (0, 0)
  { Crew.blank with
    cid := c.1, quad := at_.1, slot := at_.2, role := c.2.2, budget := c.2.1, age := age + dealt.findIdx (·.1 == c.1), since := now
    seq := .census none, s := startScalars l.args
    lanes := (List.range Config.lanes).map fun i =>
      let oid := BitVec.ofNat 32 (bid * 2048 + c.1 * 128 + i)
      { Lane.start c.2.1 (BitVec.ofNat 32 (hdrEntry l.hdr)) oid (rngSeed (recSeed l.record) oid) with
        done := decide (recLanes l.record ≤ i) } }

/-- A block as it starts (R146, R156, R252, R262, R359). -/
def Launch.startBlock (l : Launch) (uid bid core : Nat) (dealt : List (Nat × Nat × Nat)) (age cyc now : Nat) : Block :=
  { Block.blank with
    uid := uid, launch := l.id, bid := bid, core := core, part := l.part, vf := l.vf, level := l.level
    asid := recAsid l.record, code := recKimg l.record + 128, nline := hdrNline l.hdr, codeTime := l.time
    priv := recPriv l.record, clr := recClr l.record, grouped := hdrGrouped l.hdr
    pos := if hdrGrouped l.hdr then bid % 4 else 0
    crews := (hdrCrews l.hdr).map (l.startCrew bid dealt age cyc), scratchSize := hdrScratch l.hdr
    tiles := List.replicate (hdrNtile l.hdr) Tile.zero, refresh := now }

/-- Places the launch's next block on a core, once its units are scratchpad (R20, R162, R217). -/
def State.placeOn (s : State) (l : Launch) (core : Nat) (dealt : List (Nat × Nat × Nat)) : State :=
  match s.launch? l.id with
  | none => s
  | some l =>
    let us := s.takeUnits core (hdrScratch l.hdr)
    let s := s.dropWays core us
    let b : Block := { l.startBlock s.nextUid l.nextBid core dealt s.nextAge s.cyc s.now with units := us }
    let s : State := { s with
      blocks := s.blocks ++ [b], nextUid := s.nextUid + 1, nextAge := s.nextAge + b.crews.length }
    let s := s.modLaunch l.id fun x => { x with nextBid := x.nextBid + 1 }
    s.advanceStamps b.uid core

/-! ### Arbitration (R313, R363) -/

/-- Whether a partition serves a function: the function's record is valid and names it, and an entry of its SCHED names the function
(R357). -/
def State.serves (s : State) (part vf : Nat) : Bool :=
  (s.func vf).valid && (s.func vf).partNo == part && (List.range 8).any fun j =>
    let e := (s.part part).sched j
    e.2.2 && e.1 == vf

/-- The function for which the front end of a partition may place blocks now. -/
def State.placing (s : State) (part : Nat) : Option Nat :=
  let p := s.part part
  if s.ready && !s.tripped && !p.draining && !p.awaitsHost && p.switching.isNone then p.holder.filter (s.serves part)
  else none

/-- The restore order of a function's launches (R313). PROC does not order KIND 3 launches (DESIGN CHOICE, log 31). -/
def Launch.before (a b : Launch) : Bool :=
  let key := fun (l : Launch) => [if l.level = 3 then 0 else 1, if l.level = 3 then 0 else l.proc, 7 - l.prio, l.list, l.order]
  decide (key a < key b)

/-- Puts a launch in its place in the restore order. -/
def insertLaunch (l : Launch) : List Launch → List Launch
  | [] => [l]
  | x :: r => if l.before x then l :: x :: r else x :: insertLaunch l r

/-- The launches of a function, in restore order (R313). -/
def State.restoreOrder (s : State) (vf : Nat) : List Launch :=
  (s.launches.filter (·.vf == vf)).foldl (fun r l => insertLaunch l r) []

/-- How a list stands: its head and tail at home, or why they cannot be read (R358, R360). -/
inductive Ends where
  | at_ (h t : DWord)
  | fault
  | wait
deriving DecidableEq, Repr

/-- A list's head and tail as they stand at home (R358, R360). -/
def State.listEnds (s : State) (part : Nat) (l : BitVec 128) : Ends :=
  let core := (s.part part).firstCore
  match s.plainRun core (listAsid l) (listRing l) 16 .read with
  | (s, .ok ps) =>
    let bs := (s.readRun 0 core ps).2
    .at_ (BitVec.ofNat 64 (leNat (bs.take 8))) (BitVec.ofNat 64 (leNat (bs.drop 8)))
  | (_, .wait ..) => .wait
  | _ => .fault

/-- Whether a list is in use and in service (R358, R360). -/
def State.listOn (s : State) (vf j : Nat) : Bool := listKind ((s.func vf).listRec j) != 0 && !(s.func vf).out.contains j

/-- Whether a list has a record with T < H (R360). -/
def State.listHas (s : State) (part vf j : Nat) : Bool :=
  s.listOn vf j && match s.listEnds part ((s.func vf).listRec j) with
    | .at_ h t => decide (0 < (h - t).toInt)
    | _ => false

/-- Whether the head of a list cannot be read, which the front end finds when it turns to the list (R360). -/
def State.listFaults (s : State) (part vf j : Nat) : Bool :=
  s.listOn vf j && s.listEnds part ((s.func vf).listRec j) == .fault

/-- Whether the head of a list waits for a granule (R320, R360). -/
def State.listWaits (s : State) (part vf j : Nat) : Bool :=
  s.listOn vf j && s.listEnds part ((s.func vf).listRec j) == .wait

/-- What the front end does next. -/
inductive Choice where
  | restore (id : Word)
  | place (id : Word)
  | take (list : Nat)
deriving DecidableEq, Repr

/-- The launch of a list that is still being placed (R360). -/
def State.placingOf (s : State) (vf j : Nat) : Option Launch :=
  s.launches.find? fun l => l.vf == vf && l.list == j && decide (l.nextBid < recGrid l.record)

/-- The blocks of a launch that are placed together. -/
def Launch.step (l : Launch) : Nat := if hdrGrouped l.hdr then 4 else 1

/-- Whether the launch's next block or group fits now (R20, R146, R347). -/
def State.fitsNow (s : State) (l : Launch) : Bool :=
  decide (s.residentOf l.id + l.step ≤ recNslot l.record)
  && if hdrGrouped l.hdr then (s.chooseCluster l.part (List.replicate 4 (hdrNeed l.hdr))).isSome
     else (s.chooseCore l.part l.id (hdrNeed l.hdr)).isSome

/-- The choice a list offers: to go on with the launch it is placing, or to take a record; none if neither can be. One whose head waits
for a granule holds up no other, and is turned to when it is the one in question, `ask` (R320). -/
def State.offer (s : State) (part vf : Nat) (ask : Option Nat) (j : Nat) : Option Choice :=
  match s.placingOf vf j with
  | some l => if s.fitsNow l then some (.place l.id) else none
  | none =>
    if ((s.func vf).taken.lookup j).isNone && !(s.func vf).watched.contains j
        && (s.listHas part vf j || s.listFaults part vf j || (ask == some j && s.listWaits part vf j)) then some (.take j)
    else none

/-- The numbers 0 to `n` - 1, cyclically, from the one after `k`. -/
def cyclic (n k : Nat) : List Nat := (List.range n).map fun i => (k + 1 + i) % n

/-- Where a function notes the last list of a PRIO that took a launch: process by process, KIND 3 lists by themselves (R363;
DEDUCED, log 31). -/
def turnSlot (l : BitVec 128) (prio : Nat) : Nat := 8 * (if listKind l == 3 then 16 else listProc l) + prio

/-- The last list of a PRIO that took a launch, among the lists served together with list `j`. -/
def Func.lastOf (f : Func) (j prio : Nat) : Nat := ((f.lastList)[turnSlot (f.listRec j) prio]?).getD 7

/-- The lists served together, in the order in which they are tried: by falling PRIO; of one PRIO, one whose launch is being placed
first, then cyclically from the one after the last that took a launch (R363). -/
def State.listOrder (s : State) (vf : Nat) (js : Nat → Bool) : List Nat :=
  let one := ((List.range 8).find? js).getD 0
  (List.range 8).reverse.flatMap fun p =>
    let last := (s.func vf).lastOf one p
    let mine := (cyclic 8 last).filter fun j => js j && listPrio ((s.func vf).listRec j) == p
    mine.filter (fun j => (s.placingOf vf j).isSome) ++ mine.filter fun j => (s.placingOf vf j).isNone

/-- The first choice that lists offer (R363). -/
def State.firstOffer (s : State) (part vf : Nat) (ask : Option Nat) (js : Nat → Bool) : Option Choice :=
  (s.listOrder vf js).findSome? (s.offer part vf ask)

/-- A process's lists. -/
def State.ofProc (s : State) (vf p j : Nat) : Bool :=
  let l := (s.func vf).listRec j
  listKind l != 3 && listKind l != 0 && listProc l == p

/-- The choice of the processes: the one being served while its turn lasts, then the others cyclically (R363). -/
def State.procOffer (s : State) (part vf : Nat) (ask : Option Nat) : Option (Nat × Bool × Choice) :=
  let f := s.func vf
  let go := fun p => if f.weight p = 0 then none else s.firstOffer part vf ask (s.ofProc vf p)
  match (if f.placed < f.weight f.lastProc then go f.lastProc else none) with
  | some c => some (f.lastProc, false, c)
  | none => (cyclic 16 f.lastProc).findSome? fun p => (go p).map fun c => (p, true, c)

/-- What a front end serves before any process: restored blocks, then KIND 3 lists (R313, R363). -/
def State.beforeProcs (s : State) (part vf : Nat) (ask : Option Nat) : Option Choice :=
  match (s.restoreOrder vf).find? fun l => l.saved != [] with
  | some l => some (.restore l.id)
  | none => s.firstOffer part vf ask fun j => listKind ((s.func vf).listRec j) == 3

/-- What the front end of a partition does next, when a list whose head waits for a granule may be in question (R363). -/
def State.arbitrateFor (s : State) (part : Nat) (ask : Option Nat) : Option Choice :=
  match s.placing part with
  | none => none
  | some vf =>
    match s.beforeProcs part vf ask with
    | some c => some c
    | none => (s.procOffer part vf ask).map (·.2.2)

/-- What the front end of a partition does next (R363): restored blocks, then KIND 3 lists, then processes. -/
def State.arbitrate (s : State) (part : Nat) : Option Choice := s.arbitrateFor part none

/-- Notes whose turn it is when `n` blocks are placed for a process, or a record is taken (R363). -/
def State.noteTurn (s : State) (part vf level n : Nat) : State :=
  if level = 3 then s
  else match s.procOffer part vf none with
    | some (p, new, _) => s.modFunc vf fun f => { f with lastProc := p, placed := (if new then 0 else f.placed) + n }
    | none => s

/-- Whether the turn of a function's process is over before its weight is reached: the front end has come to it, and none of its blocks
fits (R363). -/
def State.turnOver (s : State) (vf : Nat) : Bool :=
  let f := s.func vf
  let part := f.partNo
  s.placing part == some vf && decide (f.placed < f.weight f.lastProc) && (s.beforeProcs part vf none).isNone
    && (s.firstOffer part vf none (s.ofProc vf f.lastProc)).isNone

/-! ### Taking a launch (R360, R361) -/

/-- A list goes out of service (R360). -/
def State.outOfService (s : State) (part vf j va : Nat) : State :=
  (s.modFunc vf fun f => { f with out := j :: f.out }).storeLost part 0 va

/-- A refused launch: its word says why; while the word's granule is awaited the front end owes it (R361, R362). -/
def State.refuseLaunch (s : State) (part vf : Nat) (r : BitVec 512) (why : Nat) : State :=
  let w := completionWord 3 why 0 0
  match s.writeWord part vf r 0 w with
  | (s, true) => s
  | (s, false) => { s with words := s.words ++ [⟨part, vf, r, w⟩] }

/-- The front end of a partition tries the words it owes again, oldest first (R362). -/
def State.payWords (s : State) (part : Nat) : State :=
  (s.words.filter (·.part == part)).foldl (fun s w => match s.writeWord part w.vf w.record 0 w.word with
    | (s, true) => { s with words := s.words.erase w }
    | (s, false) => s) s

/-- The id after a value of the launch counter, 0 being skipped (R361). -/
def nextLaunchId (c : Word) : Word := if c + 1 == 0 then 1 else c + 1

/-- An accepted launch comes into being (R360). -/
def State.acceptLaunch (s : State) (part vf j : Nat) (r : BitVec 512) (args : List Word) (h : BitVec 1024) : State :=
  let l := (s.func vf).listRec j
  let id := nextLaunchId s.launchCtr
  let x : Launch := ⟨id, part, vf, j, listKind l, listProc l, listPrio l, r, h, args, 0, 0, 0, [], s.takes, s.now⟩
  { s with launchCtr := id, takes := s.takes + 1, launches := s.launches ++ [x] }

/-- The tail moves past a record: its list is the last of its PRIO that took a launch (R360, R363). -/
def State.advanceTail (s : State) (vf j : Nat) (t : DWord) (ts : List Piece) : State :=
  (s.writeRun vf 0 ts (leBytes 8 (t + 1).toNat)).modFunc vf fun f =>
    { f with lastList := f.lastList.set (turnSlot (f.listRec j) (listPrio (f.listRec j))) j }

/-- A record that has been taken is checked, and refused or accepted (R360, R361). While its arguments or its image header wait for a
granule it stays as it is. -/
def State.checkTaken (s : State) (part vf j : Nat) (r : BitVec 512) : State :=
  let settled := fun (s : State) => s.modFunc vf fun f => { f with taken := f.taken.filter (· != (j, r)) }
  match s.checkLaunch part vf r with
  | (s, .wait) => s
  | (s, .refuse why) => (settled s).refuseLaunch part vf r why
  | (s, .accept args h) => (settled s).acceptLaunch part vf j r args h

/-- The record at a list's tail is taken: it is read, the tail moves past it, and it is checked (R360, R361). A record whose read faults
is refused without a word (DEDUCED, log 16). -/
def State.takeRecord (s : State) (part vf j : Nat) (l : BitVec 128) (t : DWord) (ts : List Piece) : State :=
  match s.plainRun (s.part part).firstCore (listAsid l) (listSlot l t.toNat) 64 .read with
  | (s, .wait w va) => s.askResidencyFront part vf va w
  | (s, .ok ps) =>
    let (s, bs) := s.readRun vf (s.part part).firstCore ps
    let r := BitVec.ofNat 512 (leNat bs)
    let s := (s.noteTurn part vf (listKind l) 0).advanceTail vf j t ts
    (s.modFunc vf fun f => { f with taken := f.taken ++ [(j, r)] }).checkTaken part vf j r
  | (s, _) => ((s.noteTurn part vf (listKind l) 0).advanceTail vf j t ts).storeLost part 0 (listSlot l t.toNat)

/-- The front end turns to a list that has no record under way (R360). A list that is not the one arbitration turns to is only looked at
when it is empty: then its head is watched. -/
def State.turnToList (s : State) (part vf j : Nat) : State :=
  let l := (s.func vf).listRec j
  let core := (s.part part).firstCore
  match s.plainRun core (listAsid l) (listRing l) 16 .read with
  | (_, .fault _ _) | (_, .denied _ _) =>
    if s.arbitrate part == some (.take j) then s.outOfService part vf j (listRing l) else s
  | (t, .wait w va) => if s.arbitrateFor part (some j) == some (.take j) then t.askResidencyFront part vf va w else s
  | (s, .ok ps) =>
    let (s, bs) := s.readRun vf core ps
    let h : DWord := BitVec.ofNat 64 (leNat (bs.take 8))
    let t : DWord := BitVec.ofNat 64 (leNat (bs.drop 8))
    if (h - t).toInt ≤ 0 then s.modFunc vf fun f => { f with watched := (j :: f.watched).dedup }
    else if s.arbitrate part != some (.take j) then s
    else match s.plainRun core (listAsid l) (listRing l + 8) 8 .write with
      | (s, .fault _ _) | (s, .denied _ _) => s.outOfService part vf j (listRing l + 8)
      | (s, .wait w va) => s.askResidencyFront part vf va w
      | (s, .ok ts) => s.takeRecord part vf j l t ts

/-- LAUNCH_LIST_TAKE: the front end turns to a list, or goes on with the record that it has taken from it, and tries the words it owes
(R360, R362). -/
def execLaunchListTake (vf j : Nat) (s : State) : Host.Outcome State Fault Refusal :=
  let part := (s.func vf).partNo
  let s := s.payWords part
  .next (if 8 ≤ j || s.placing part != some vf then s
    else match (s.func vf).taken.lookup j with
      | some r => s.checkTaken part vf j r
      | none => if s.listOn vf j then s.turnToList part vf j else s)

/-- LIST_HEAD_WAKE: the monitor on a watched list's head sees it pass the tail (R360, R177). -/
def execListHeadWake (vf j : Nat) (s : State) : Host.Outcome State Fault Refusal :=
  .next (if (s.func vf).watched.contains j && s.listHas (s.func vf).partNo vf j then
    s.modFunc vf fun f => { f with watched := f.watched.filter (· != j) } else s)

/-! ### Placing blocks and groups (R217, R218, R313) -/

/-- The machine after a restore, whose header write may have had to wait: then the restore is made again later (20_ranges R327). -/
def State.restoredOr (s : State) (l : Launch) (r : State × Saving) : State :=
  match r with
  | (_, .wait va w) => s.askResidencyFront l.part l.vf va w
  | (t, _) => t

/-- BLOCK_PLACE: the next block of a launch goes to its core, a saved one first (R217, R313). -/
def execBlockPlace (id : Word) (s : State) : Host.Outcome State Fault Refusal :=
  match s.launch? id with
  | none => .next s
  | some l =>
    if hdrGrouped l.hdr then .next s
    else if s.arbitrate l.part == some (.restore id) then
      match l.saved with
      | [] => .next s
      | b :: _ => match s.chooseCore l.part id b.need with
        | some (core, d) => match s.readdBlock l b core d with
          | (t, true) => .next (s.restoredOr l ((t.resumed l b.uid core).noteRestored l core))
          | (t, false) => .next t
        | none => .next s
    else if s.arbitrate l.part == some (.place id) then
      match s.chooseCore l.part id (hdrNeed l.hdr) with
      | some (core, d) => .next ((s.noteTurn l.part l.vf l.level 1).placeOn l core d)
      | none => .next s
    else .next s

/-- The four saved blocks of the group that resumes next, by position (R146). -/
def Launch.savedGroup (l : Launch) : List Block :=
  match l.saved with
  | [] => []
  | b :: _ => (List.range 4).filterMap fun k => l.saved.find? fun x => x.bid / 4 == b.bid / 4 && x.pos == k

/-- Whether every entry of a group can be translated now, and its rewind-table entries be read: then its blocks resume together. The
granules that hold the group up are asked for (R146, R320, R324, R327). -/
def State.groupReady (s : State) (l : Launch) (bs : List (Block × Nat)) : State × Bool :=
  bs.foldl (fun r b =>
    let (s, ok) := match r.1.pointWait b.2 l b.1 with
      | some (va, w) => (r.1.askResidencyFront l.part l.vf va w, false)
      | none => r
    match State.entriesAgain b.1 b.2 b.1.storeBuf s with
    | (s, .ok _) => (s, ok)
    | (s, .error w) => (s.askEntry b.1 b.2 w, false)) (s, true)

/-- The cluster a resuming group goes to: blocks that completed before the save ask for nothing (R146, R218). -/
def State.regroupOn (s : State) (part : Nat) (bs : List Block) : Option (List (Block × Nat × List (Nat × Nat × Nat))) :=
  let need := fun k => match bs.find? (·.pos == k) with
    | some b => b.need
    | none => ⟨[], 0, 0⟩
  (s.chooseCluster part ((List.range 4).map need)).map fun xs =>
    bs.filterMap fun b => (xs[b.pos]?).map fun x => (b, x.1, x.2)

/-- GROUP_PLACE: the next group of a launch goes to its cluster, a saved one first (R146, R218). -/
def execGroupPlace (id : Word) (s : State) : Host.Outcome State Fault Refusal :=
  match s.launch? id with
  | none => .next s
  | some l =>
    if !hdrGrouped l.hdr then .next s
    else if s.arbitrate l.part == some (.restore id) then
      match s.regroupOn l.part l.savedGroup with
      | none => .next s
      | some xs =>
        match s.groupReady l (xs.map fun x => (x.1, x.2.1)) with
        | (t, false) => .next t
        | (t, true) =>
          let t := xs.foldl (fun s x => (s.readdBlock l x.1 x.2.1 x.2.2).1) t
          .next (s.restoredOr l
            ((xs.foldl (fun s x => s.resumed l x.1.uid x.2.1) t).noteRestored l ((xs.head?.map (·.2.1)).getD 0)))
    else if s.arbitrate l.part == some (.place id) then
      match s.chooseCluster l.part (List.replicate 4 (hdrNeed l.hdr)) with
      | none => .next s
      | some xs =>
        .next (xs.foldl (fun s x => s.placeOn l x.1 x.2) (s.noteTurn l.part l.vf l.level 4))
    else .next s

/-! ### Collective kernels (17_engines R285) -/

/-- What a collective kernel's block asks of a core: one crew of the least budget (DESIGN CHOICE, log 41). -/
def kernelNeed : Need := ⟨[(0, 8, 2)], 0, 0⟩

/-- Where a partition runs a collective as a kernel, as R217 places a block: core, quadrant and slot; `none` while no core accepts it. -/
def State.kernelCore (s : State) (part : Nat) (id : Word) : Option (Nat × Nat × Nat) :=
  (s.chooseCore part id kernelNeed).bind fun x => x.2.head?.map fun d => (x.1, d.2.1, d.2.2)

/-- COLLECTIVE_FALLBACK: an operation that no engine has begun within the partition's deadline runs as a kernel, on a core of the
partition, once one accepts it; it meets every rule as before (R217, R285; DESIGN CHOICE, log 41). -/
def execCollectiveFallback (op : Nat) (s : State) : Host.Outcome State Fault Refusal :=
  match s.coll? op with
  | none => .next s
  | some c =>
    let begun := c.done || !c.got.isEmpty || !c.sent.isEmpty || c.kernel.isSome
    .next (if !begun && decide (c.since + (s.part c.part).fbdl * perMicro ≤ s.clk.toNat) then
        s.modColl op fun x => { x with kernel := s.kernelCore c.part c.launch }
      else s)

/-! ### Completion (R170, R339, R362) -/

/-- Drains the whole of a block's store buffer (R170). -/
def State.drainAll (s : State) (u : Nat) : State :=
  match s.block? u with
  | some b => State.drainFirst u b.storeBuf.length s
  | none => s

/-- The error record of a block (R339). -/
def Block.errorRecord (b : Block) (clk : DWord) : List Byte :=
  let entry := fun (c : Nat) => match b.errs.find? (·.1 == c) with
    | some (_, lab, skid) => leBytes 4 lab.toNat ++ leBytes 4 (min skid 16 + 32)
    | none => List.replicate 8 0
  let tag := match b.abort with
    | some (t, _) => t
    | none => 0
  leBytes 4 b.bid ++ leBytes 4 (b.core + 65536 * (if b.abort.isSome then 1 else 2)) ++ leBytes 8 tag.toNat
    ++ leBytes 8 clk.toNat ++ leBytes 4 b.kills ++ List.replicate 36 0 ++ (List.range 16).flatMap entry

/-- Whether a block writes an error record (R339). -/
def Block.errs? (b : Block) : Bool := b.abort.isSome || b.kills != 0

/-- Writes a block's error record into its launch's error ring, and counts it there (R339, R347, R348; DESIGN CHOICE, log 24). -/
def State.writeError (s : State) (b : Block) : State × Saving :=
  match s.launch? b.launch with
  | none => (s, .done)
  | some l =>
    let (s, r) := State.writeSections b.core
      [(l, 24832 + 192 * (l.nerr % 64), b.errorRecord s.clk), (l, 32, leBytes 8 (l.nerr + 1))] s
    (s.modLaunch l.id fun x => { x with nerr := x.nerr + 1 }, r)

/-- Takes a block out of the machine, with what its core held for it. -/
def State.removeBlock (s : State) (b : Block) : State :=
  let s : State := { s with
    blocks := s.blocks.filter (·.uid != b.uid), opCache := s.opCache.filter (·.blk != b.uid)
    hostReqs := s.hostReqs.filter (·.blk != b.uid) }
  let s := s.unpinL2 b.uid
  if s.residentOn b.launch b.core = 0 then
    { s with pins := s.pins.filter fun p => !(p.1 == b.core && p.2.1 == b.launch) }
  else s

/-- Whether another block of its group has issued an access to a block's scratchpad that has still to perform: it reads and writes what
stands there (R148, R172). -/
def State.peersReach (s : State) (b : Block) : Bool :=
  (s.groupOf b).any fun x => x.uid != b.uid && x.crews.any fun c => c.queue.any fun o => (o.what.cores x.core).contains b.core

/-- BLOCK_COMPLETE: a block none of whose crews is live or a shell drains, and is completed, once its error record, if it has one, is
written (R170, R336, R362), and once its peers' accesses to its scratchpad have performed (R148). -/
def execBlockComplete (u : Nat) (s : State) : Host.Outcome State Fault Refusal :=
  match s.block? u with
  | none => .next s
  | some b =>
    if !(b.crews.all fun c => c.seq == .retired && c.queue.isEmpty) || !b.mcmds.isEmpty || !b.ccmds.isEmpty
        || s.posted.any (·.blk == u) || s.peersReach b then .next s
    else
      let s := s.drainAll u
      if !b.hnd.isEmpty then .next (s.removeBlock b)
      else if b.unacked != 0 then .next s
      else match (if b.errs? then s.writeError b else (s, .done)) with
        | (_, .wait va w) => .next (s.askResidencyFront b.part b.vf va w)
        | (t, _) => .next ((t.modLaunch b.launch fun l => { l with completed := l.completed + 1 }).removeBlock b)

/-- LAUNCH_COMPLETE: when all its blocks have completed, the completion word is written once, but for a function marked lost
(R362, R351; DEDUCED, log 19). -/
def execLaunchComplete (id : Word) (s : State) : Host.Outcome State Fault Refusal :=
  match s.launch? id with
  | none => .next s
  | some l =>
    if l.completed = recGrid l.record then
      if (s.func l.vf).lost then .next { s with launches := s.launches.filter (·.id != id) }
      else match s.writeWord l.part l.vf l.record id (completionWord (if l.nerr = 0 then 1 else 2) 0 l.nerr id) with
      | (s, true) => .next { s with launches := s.launches.filter (·.id != id) }
      | (s, false) => .next s
    else .next s

end Sys2Proof.Machine
end

