-- ==== Sys2Proof/Machine/Tenants.lean ====
section
/-! DEFINITION. The fuller (20_ranges R327), slices and switches between functions (22_tenants R364, R365; 21 R343-R354),
partition resets (R353, R368), and writes to the records and the denial log's consumer index (R329, R355-R358, 24 R394). -/

namespace Sys2Proof.Machine

/-! ### The fuller (R327) -/

/-- A descriptor in MODE 2 with a new backing and a watermark (R315). -/
def d1Moving (d : BitVec 256) (nia wm : Nat) : BitVec 256 :=
  BitVec.ofNat 256 (d.toNat / 2 ^ 72 * 2 ^ 72 + 2 * 2 ^ 70 + d.toNat / 2 ^ 64 % 64 * 2 ^ 64 + wm * 2 ^ 40 + nia)

/-- A descriptor whose move has ended: MODE 0 over the new backing (R327). -/
def d1Moved (d : BitVec 256) (nia : Nat) : BitVec 256 :=
  BitVec.ofNat 256 (d.toNat / 2 ^ 168 * 2 ^ 168 + nia * 2 ^ 128 + d.toNat / 2 ^ 72 % 2 ^ 56 * 2 ^ 72
    + d.toNat / 2 ^ 64 % 64 * 2 ^ 64)

/-- Replaces a range's descriptor at home and in every lookaside entry of the range, as one step (R327); `none` when its
place in the table cannot be written. The device writes it at home itself, past the L2 (DESIGN CHOICE, log 15), and a walk reads the
whole of the table before that or after it (R322, R327). -/
def State.setRange (s : State) (asid i : Nat) (old new : BitVec 256) : Option State :=
  match s.tableAt (s.dirEntry asid) i .write with
  | none => none
  | some (pa, key) =>
    let s := (s.putHome key pa 32 new.toNat).edited asid s.now
    some { s with looks := s.looks.map fun e =>
      if e.asid == asid && d1Base e.d1 == d1Base old then { e with d1 := new } else e }

/-- Forgets a request to the fuller. -/
def State.dropCompact (s : State) (c : Compact) : State := { s with compacts := s.compacts.erase c }

/-- The range a request names, as it stands. -/
def State.compactRange (s : State) (c : Compact) : Option (Nat × BitVec 256) :=
  match s.walk c.asid (c.base * 4096) with
  | .ok (i, d, _) => if d1Base d = c.base then some (i, d) else none
  | .error _ => none

/-- The machine with its walks reading the newest position: the fuller's own (R327; DESIGN CHOICE, log 34). -/
def State.newest (s : State) : State := { s with lags := [] }

/-- FULLER_START: the oldest request of a die puts its range into MODE 2 (R327). A request whose range no longer stands as
R378 found it is forgotten. -/
def execFullerStart (die : Nat) (s : State) : Host.Outcome State Fault Refusal :=
  let s := s.newest
  if s.compacts.any fun c => c.die == die && c.started then .next s
  else match s.compacts.find? fun c => c.die == die with
    | none => .next s
    | some c =>
      match s.compactRange c with
      | none => .next (s.dropCompact c)
      | some (i, d) =>
        if !s.backingOk c.vf d (c.nia * 4096) then .next (s.dropCompact c)
        else match s.setRange c.asid i d (d1Moving d c.nia 0) with
          | none => .next (s.dropCompact c)
          | some s => .next { s with compacts := s.compacts.map fun x => if x == c then { x with started := true } else x }

/-- Drains every resident store-buffer entry of a partition's blocks that holds bytes of a run of an address space (R327). -/
def State.drainGranule (s : State) (part asid lo n : Nat) : State :=
  s.blocks.foldl (fun s b =>
    if b.part == part && b.asid == asid then
      b.storeBuf.foldl (fun s e =>
        if overlap lo n e.p.va e.p.size then s.drainRun b.uid e.p.home e.p.size else s) s
    else s) s

/-- Copies one granule of a range from its old backing to the new, each under its own key and with no seal check; what is read of
it from then on comes from the copy (R327). `none` when a backing has no stage-2 descriptor that serves it. -/
def State.copyGranule (s : State) (c : Compact) (d : BitVec 256) (g : Nat) : Option State :=
  let va := (d1Base d + g) * 4096
  match s.stage2 c.vf ((d1Iab d + g) * 4096) .read, s.stage2 c.vf ((d1Nia d + g) * 4096) .write with
  | some (x, a), some (y, b) =>
    let s := s.writeThrough c.vf (pieceOf va 4096 ⟨b, d2Key y, d1Seal d, d2Tier y, d, y⟩) (s.readHome (d2Key x) a 4096)
    some (s.remap .fresh c.asid va (va + 4095))
  | _, _ => none

/-- FULLER_GRANULE_MOVE: the entries of the granule at the watermark drain; once no access to it is in flight, it is copied, and
the watermark passes it, or the move ends (R327). -/
def execFullerGranuleMove (die : Nat) (s : State) : Host.Outcome State Fault Refusal :=
  let s := s.newest
  match s.compacts.find? fun c => c.die == die && c.started with
  | none => .next s
  | some c =>
    match s.compactRange c with
    | none => .next (s.dropCompact c)
    | some (i, d) =>
      if d1Mode d != 2 then .next (s.dropCompact c)
      else
        let g := d1Wm d
        let lo := (d1Base d + g) * 4096
        let s := s.drainGranule c.part c.asid lo 4096
        if s.inFlight c.part c.asid (fun p => overlap lo 4096 p.va p.size) false lo 4096 then .next s
        else match s.copyGranule c d g with
          | none => .next s
          | some t =>
            if g + 1 < d1Size d then
              match t.setRange c.asid i d (d1Moving d (d1Nia d) (g + 1)) with
              | some t => .next t.payAllDenials
              | none => .next s
            else match t.setRange c.asid i d (d1Moved d (d1Nia d)) with
              | some t => .next (t.dropCompact c).payAllDenials
              | none => .next s

/-! ### Work of functions (R364, R365) -/

/-- Whether a function has a resident, saved or shell block (R355, R357). -/
def State.busy (s : State) (vf : Nat) : Bool :=
  (s.blocks.any fun b => b.vf == vf && b.hnd.isEmpty) || s.launches.any fun l => l.vf == vf && l.saved != []

/-- Whether a list of a function has a record with T < H, or one that has been taken and waits for its checks (R360, R364). -/
def State.anyRecord (s : State) (part vf : Nat) : Bool :=
  !(s.func vf).taken.isEmpty || (List.range 8).any (s.listHas part vf)

/-- Whether a SCHED entry has work: its function has a resident, saved or shell block, or a record with T < H (R364). -/
def State.entryWorks (s : State) (part j : Nat) : Bool :=
  let e := (s.part part).sched j
  e.2.2 && (s.func e.1).valid && (s.func e.1).partNo == part
  && (s.busy e.1 || s.anyRecord part e.1)

/-- The next entry with work after entry `k` (R364). -/
def State.nextEntry (s : State) (part k : Nat) : Option Nat := (cyclic 8 k).find? (s.entryWorks part)

/-- The networks granted to a function (R233). -/
def Func.nets (f : Func) : List Nat := (List.range 256).filter f.net

/-- Counts of `clk` in a unit of a slice, 10 µs (R356; DEDUCED, log 21). -/
def perSlice : Nat := 10 * perMicro

/-! ### Switching out (R343-R353, R364) -/

/-- A switch begins: nothing more is placed, pre-emption reaches every resident block, and the function's networks close
(R343, R364). -/
def State.beginSwitch (s : State) (part vf j : Nat) : State :=
  let s := s.modPart part fun p => { p with switching := some j, idleSince := none }
  let s := s.mapBlocks fun b => if b.part == part && b.hnd.isEmpty then { b with stopping := true } else b
  (s.func vf).nets.foldl (fun s n => s.closeNet n) s

/-- Whether everything of the outgoing function has come to where it can be saved, and what has completed is signalled (R343,
R352). -/
def State.switchReady (s : State) (part vf : Nat) : Bool :=
  (s.launches.all fun l => l.vf != vf || l.completed != recGrid l.record)
  && (s.blocks.all fun b => b.part != part || !b.hnd.isEmpty || b.saveable) && (s.func vf).nets.all fun n => (s.net n).quiet

/-- The counters and overflow bits go into the function's record, but for the bytes that the hypervisor has written since
(R357, R364, R367). -/
def Func.keepCounters (f : Func) : Func :=
  let bs := (f.cnt.zipIdx.flatMap fun c => (leBytes 6 c.1.toNat).zipIdx.map fun b => (96 + 6 * c.2 + b.2, b.1)) ++ [(21, f.ovf)]
  { bs.foldl (fun f b => if f.wrote.contains b.1 then f else f.setRecord b.1 [b.2]) f with wrote := [] }

/-- The running counters take the record's values (R364). -/
def Func.loadCounters (f : Func) : Func :=
  { f with
    cnt := (List.range 8).map fun i => f.record.extractLsb' (8 * (96 + 6 * i)) 48, ovf := f.record.extractLsb' (8 * 21) 8
    wrote := [] }

/-- A block's accesses wait for no granule any longer (R320). -/
def State.dropWaits (s : State) (u : Nat) : State :=
  { s with residency := s.residency.map fun a => { a with waiters := a.waiters.filter (· != some u) } }

/-- The blocks of a partition's function leave their cores for their launches' save areas (R343, R347; DEDUCED, log 14). -/
def State.saveBlocks (s : State) (part : Nat) : State :=
  (s.blocks.filter fun b => b.part == part && b.hnd.isEmpty).foldl (fun s b =>
    (({ s.removeBlock b with hostReqs := s.hostReqs } : State).dropWaits b.uid).modLaunch b.launch fun l =>
      { l with saved := l.saved ++ [b.rewound] }) s

/-- A function is lost: its contexts and launches are discarded, its networks stay closed until they are reset, the hypervisor is
told (R351, 24 R396; DEDUCED, log 19). -/
def State.loseFunction (s : State) (part vf va : Nat) : State :=
  let s : State := { s with launches := s.launches.filter (fun l => l.vf != vf), words := s.words.filter fun w => w.vf != vf }
  let s := (s.func vf).nets.foldl (fun s n => s.modNet n fun x => { x with closed := true, lost := true }) s
  (s.modFunc vf fun f => { f with lost := true, netsIn := none, taken := [] }).interrupt part vf 6 (BitVec.ofNat 64 va)

/-- The sections of the save areas of the launches with saved blocks, the networks in the first of them that has just lost its cores
(R347). -/
def State.areasOf (nets : List Nat) (first : Option Word) : List Launch → State → State × List Section
  | [], s => (s, [])
  | l :: ls, s =>
    match s.launch? l.id with
    | none => State.areasOf nets first ls s
    | some l =>
      if l.saved == [] then State.areasOf nets first ls s
      else
        let xs := s.areaSections l (if first == some l.id then nets else [])
        let (s, ys) := State.areasOf nets first ls { s with draws := s.draws + engineSize * l.saved.length }
        (s, xs ++ ys)

/-- Messages to the host, one for each network that it is to move (R354). -/
def State.netsAwaitHost (s : State) (part vf : Nat) (nets : List Nat) : State :=
  nets.foldl (fun s n => s.interrupt part vf 7 (BitVec.ofNat 64 n)) s

/-- The outgoing function's networks are left to the host where it moves them, its counters are kept, and its lookaside entries go
(R319, R354, R364). -/
def State.leaveCores (s : State) (part vf : Nat) : State :=
  let p := s.part part
  let s := if p.hostMode 3 then s.netsAwaitHost part vf (s.func vf).nets else s
  let s := s.modFunc vf fun f => f.keepCounters
  { s with looks := s.looks.filter fun e => !(p.cores.contains e.core && e.vf == vf) }

/-- Why a rewind-table entry of a partition's blocks cannot be read just now (20_ranges R320, R327). -/
def State.pointsWait (s : State) (part : Nat) : Option (Nat × Park) :=
  (s.blocks.filter fun b => b.part == part && b.hnd.isEmpty).findSome? fun b =>
    (s.launch? b.launch).bind fun l => s.pointWait b.core l b

/-- The outgoing function is saved whole (R343, R347, R351, R364). The Bool is false when a write has to wait: then nothing is saved,
and the switch tries again (20_ranges R327). So does one for which a rewind-table entry has to wait. -/
def State.switchOut (s : State) (part vf : Nat) : State × Bool :=
  match s.pointsWait part with
  | some (va, w) => (s.askResidencyFront part vf va w, false)
  | none =>
  let hostNets := (s.part part).hostMode 3
  let first := ((s.restoreOrder vf).find? fun l => s.residentOf l.id != 0).map (·.id)
  let where_ := if hostNets then none else first
  let (t, xs) := State.areasOf (if hostNets then [] else (s.func vf).nets) where_ (s.restoreOrder vf) (s.saveBlocks part)
  match State.writeSections (s.part part).firstCore xs t with
  | (_, .wait va w) => (s.askResidencyFront part vf va w, false)
  | (t, .fault va) => ((t.loseFunction part vf va).leaveCores part vf, true)
  | (t, .done) => ((t.modFunc vf fun f => { f with netsIn := where_ }).leaveCores part vf, true)

/-! ### Switching in (R313, R347, R354, R364) -/

/-- A network is loaded from where the last switch out wrote it; a record that fails the checks leaves it closed until system code
loads or resets it (R347, R364). -/
def State.loadNet (s : State) (part : Nat) (l : Launch) (n : Nat) : State :=
  let fail := fun (s : State) => (s.modNet n fun x => { x with lost := true }).reportPart part (s.part part).firstCore 0 .netRestore
    (BitVec.ofNat 64 n)
  match s.plainRun (s.part part).firstCore (recAsid l.record) (recSave l.record + 256 + 96 * n) 96 .read with
  | (s, .ok ps) =>
    let (s, bs) := s.readRun l.vf (s.part part).firstCore ps
    if recordOk n bs then (s.modNet n fun x => x.ofRecord bs).openNet n else fail s
  | (s, _) => fail s

/-- The networks that open as a function's slice begins: not one that was lost with the function, or whose record failed (R351, R364). -/
def State.netsBack (s : State) (vf : Nat) : List Nat := (s.func vf).nets.filter fun n => !(s.net n).lost

/-- Why a record of an incoming function's networks cannot be read just now (R320, R347). -/
def State.netsWait (s : State) (part vf : Nat) : Option (Nat × Park) :=
  match (if (s.part part).hostMode 3 then none else (s.func vf).netsIn.bind s.launch?) with
  | none => none
  | some l => (s.netsBack vf).findSome? fun n =>
    match s.plainRun (s.part part).firstCore (recAsid l.record) (recSave l.record + 256 + 96 * n) 96 .read with
    | (_, .wait w va) => some (va, w)
    | _ => none

/-- The incoming function's networks are loaded, opened as they stand, or left to the host (R347, R354). -/
def State.loadNets (s : State) (part vf : Nat) : State :=
  let f := s.func vf
  let nets := s.netsBack vf
  if (s.part part).hostMode 3 then s.netsAwaitHost part vf nets
  else match f.netsIn.bind s.launch? with
    | some l => (nets.foldl (fun s n => s.loadNet part l n) s).modFunc vf fun f => { f with netsIn := none }
    | none => nets.foldl (fun s n => s.openNet n) s

/-- The slice of SCHED entry `j` begins (R364). While a network record cannot be read the partition has no holder, and the slice is
yet to begin. -/
def State.startSlice (s : State) (part j : Nat) : State :=
  let vf := ((s.part part).sched j).1
  let at_ := fun (h : Option Nat) => s.modPart part fun p =>
    { p with holder := h, entry := j, switching := none, awaitsHost := false, sliceStart := s.clk.toNat, idleSince := none }
  match s.netsWait part vf with
  | some (va, w) => (at_ none).askResidencyFront part vf va w
  | none => ((at_ (some vf)).modFunc vf (·.loadCounters)).loadNets part vf

/-- A switch goes on: the outgoing function is saved when it can be, and the incoming one's slice begins, once the host has
acknowledged where it must (R354, R364). -/
def State.switchOn (s : State) (part vf j : Nat) : State :=
  if !s.switchReady part vf then s
  else match s.switchOut part vf with
    | (s, false) => s
    | (s, true) =>
      if (s.part part).hostMode 2 then (s.modPart part fun p => { p with awaitsHost := true }).interrupt part vf 5 0
      else s.startSlice part j

/-- The holder's slice ends, and the next entry with work begins its own: through a switch, unless it names the holder (R364). -/
def State.nextSlice (s : State) (part vf j : Nat) : State :=
  if ((s.part part).sched j).1 == vf then
    s.modPart part fun p => { p with entry := j, sliceStart := s.clk.toNat, idleSince := none }
  else (s.beginSwitch part vf j).switchOn part vf j

/-- Whether a partition is served at all now. -/
def State.served (s : State) (part : Nat) : Bool :=
  s.ready && !s.tripped && decide (part < 16) && !(s.part part).draining && !(s.part part).awaitsHost

/-- SLICE_EXPIRY: the first slice begins; or a slice has run out, and the next entry with work begins its own, at once or
through a switch; or a switch in progress goes on (R364). -/
def execSliceExpiry (part : Nat) (s : State) : Host.Outcome State Fault Refusal :=
  let p := s.part part
  if !s.served part then .next s
  else match p.holder, p.switching with
    | none, _ => match (if s.entryWorks part p.entry then some p.entry else s.nextEntry part p.entry) with
      | some j => .next (s.startSlice part j)
      | none => .next s
    | some vf, some j => .next (s.switchOn part vf j)
    | some vf, none =>
      if s.clk.toNat < p.sliceStart + (p.sched p.entry).2.1 * perSlice then .next s
      else match s.nextEntry part p.entry with
        | none => .next s
        | some j => .next (s.nextSlice part vf j)

/-- Whether everything a function has is asleep, and other work waits (R365). -/
def State.idle (s : State) (part vf : Nat) : Bool :=
  (s.blocks.all fun b => b.part != part || !b.hnd.isEmpty || (b.mcmds.isEmpty && b.ccmds.isEmpty
      && b.crews.all fun c => (match c.seq with
          | .asleep | .retired => true
          | _ => false) && c.lanes.all fun l => !l.trapped))
  && (s.launches.all fun l => l.vf != vf || (l.saved == [] && l.nextBid == recGrid l.record))
  && !s.anyRecord part vf

/-- Whether the conditions of an early end hold: the holder is idle, and some other entry of SCHED has work (R365). -/
def State.mayEndEarly (s : State) (part : Nat) : Bool :=
  let p := s.part part
  s.served part && p.switching.isNone && match p.holder with
    | some vf => s.idle part vf && (List.range 8).any fun j => j != p.entry && s.entryWorks part j
    | none => false

/-- SLICE_EARLY_END: once the conditions have held together for a microsecond, the slice ends (R365; DEDUCED, log 21). -/
def execSliceEarlyEnd (part : Nat) (s : State) : Host.Outcome State Fault Refusal :=
  let p := s.part part
  .next (match p.holder, p.idleSince, s.nextEntry part p.entry with
    | some vf, some t, some j => if s.mayEndEarly part && decide (t + perMicro ≤ s.clk.toNat) then s.nextSlice part vf j else s
    | _, _, _ => s)

/-- A write to a partition's control window that is not refused clears STATUS[2] (R394). -/
def State.accepted (s : State) (part : Nat) : State := s.modPart part fun p => { p with refusedWrite := false }

/-- HOST_SWITCH_ACK: the host acknowledges a switch that awaits it (R354, R394). -/
def execHostSwitchAck (part : Nat) (s : State) : Host.Outcome State Fault Refusal :=
  let p := s.part part
  .next (if !s.ready then s else match p.switching with
    | some j => (if p.awaitsHost then s.startSlice part j else s).accepted part
    | none => s.accepted part)

/-! ### Partition reset (R353, R368) -/

/-- The dirty bytes of blocks go home: their store buffers drain, block by block (R159, R353, 25_bringup R403). -/
def State.drainBlocks (s : State) (mine : Block → Bool) : State := (s.blocks.filter mine).foldl (fun s b => s.drainAll b.uid) s

/-- The functions of a partition. -/
def State.funcsOf (s : State) (part : Nat) : List Nat :=
  (List.range 64).filter fun v => (s.func v).valid && (s.func v).partNo == part

/-- Everything of a partition's work ends; its dirty bytes are written back, and what has not become dirty is lost (R353). -/
def State.endWork (s : State) (part : Nat) : State :=
  let cores := (s.part part).cores
  let vs := s.funcsOf part
  let s := (s.drainBlocks (·.part == part)).cleanL2 fun l => vs.contains l.owner
  let mine := (s.blocks.filter fun b => b.part == part).map (·.uid)
  { s with
    blocks := s.blocks.filter fun b => b.part != part
    launches := s.launches.filter fun l => l.part != part
    posted := s.posted.filter fun p => !mine.contains p.blk
    hostReqs := s.hostReqs.filter fun r => !mine.contains r.blk
    opCache := s.opCache.filter fun e => !mine.contains e.blk
    l2 := s.l2.map fun l => { l with pins := l.pins.filter fun x => !mine.contains x.1 }
    pins := s.pins.filter fun x => !cores.contains x.1
    colls := s.colls.filter fun c => c.part != part
    gathered := s.gathered.filter fun g => g.2.part != part
    residency := s.residency.filter fun r => !cores.contains r.core
    words := s.words.filter fun w => w.part != part
    looks := s.looks.filter fun e => !cores.contains e.core }

/-- The networks of a partition's functions are drained and zeroed (R353, R234). -/
def State.zeroNets (s : State) (part : Nat) : State :=
  ((s.funcsOf part).flatMap fun v => (s.func v).nets).foldl (fun s n => s.modNet n fun _ => Net.reset) s

/-- PARTITION_RESET: the reset command ends the partition's work (R353, R368, R394; DEDUCED, log 21). -/
def execPartitionReset (part : Nat) (s : State) : Host.Outcome State Fault Refusal :=
  if !s.ready || 16 ≤ part then .next s
  else
    let s := match (s.part part).holder with
      | some v => if (s.part part).awaitsHost then s else s.modFunc v fun f => f.keepCounters
      | none => s
    let s := (s.endWork part).zeroNets part
    let s := (s.funcsOf part).foldl (fun s v => s.modFunc v fun f => { f with netsIn := none, watched := [], taken := [] }) s
    .next (s.modPart part fun p =>
      { p with draining := true, awaitsHost := false, switching := none, holder := none, idleSince := none, refusedWrite := false })

/-- PARTITION_DRAIN_COMPLETE: the drain of a reset ends, and SCHED is served again (R353, R368). -/
def execPartitionDrainComplete (part : Nat) (s : State) : Host.Outcome State Fault Refusal :=
  .next (s.modPart part fun p => { p with draining := false })

/-! ### Writes to a control window (R355-R358, R394) -/

/-- The 8-byte parts of a write, each with its offset. -/
def eightsOf (off : Nat) (data : List Byte) : List (Nat × List Byte) :=
  (List.range ((off + data.length + 7) / 8 - off / 8)).map fun i =>
    let lo := max off (8 * (off / 8 + i))
    (lo, (data.drop (lo - off)).take (8 * (off / 8 + i) + 8 - lo))

/-- A record write takes effect part by part, but for a whole record that one flit carries (R394): a flit's payload is 244 bytes
(R391). -/
def State.writeParts (s : State) (size off : Nat) (data : List Byte) (f : State → Nat → List Byte → State) : State :=
  if off = 0 ∧ data.length = size ∧ size ≤ 244 then f s off data
  else (eightsOf off data).foldl (fun s p => f s p.1 p.2) s

/-- Whether a partition holds a resident, saved or shell block, the blocks of collective kernels among them (R355, 17_engines R285). -/
def State.partBusy (s : State) (part : Nat) : Bool :=
  (s.blocks.any fun b => b.part == part && b.hnd.isEmpty) || (s.launches.any fun l => l.part == part && l.saved != [])
    || s.colls.any fun c => c.part == part && c.kernel.isSome && !c.done

/-- Whether a partition's clusters meet another partition's. -/
def State.overlaps (s : State) (part : Nat) (p : Part) : Bool :=
  (List.range 16).any fun q => q != part && decide (p.cbase ≤ (s.part q).clim) && decide ((s.part q).cbase ≤ p.clim)

/-- One write to a partition's record (R355, R394, 00_scope R5). -/
def State.writePart (part : Nat) (s : State) (off : Nat) (data : List Byte) : State :=
  let old := s.part part
  let new : Part := { old with record := keepFields (setBytes old.record off data) partFields }
  let moves := new.cbase != old.cbase || new.clim != old.clim || (s.overlaps part new && !s.overlaps part old)
  if moves && s.partBusy part then s.modPart part fun p => { p with refusedWrite := true }
  else (s.modPart part fun p => { p with record := new.record }).accepted part

/-- PARTITION_RECORD_WRITE (R355, R394). -/
def execPartitionRecordWrite (part off : Nat) (data : List Byte) (s : State) : Host.Outcome State Fault Refusal :=
  .next (if !s.ready || 16 ≤ part || 128 < off + data.length then s else s.writeParts 128 off data (State.writePart part))

/-- Whether a record as written holds a network that another valid record holds already: one that the write sets, or any when it
leaves the record valid (R233, R357). -/
def State.netsTaken (s : State) (vf : Nat) (new old : Func) : Bool :=
  (List.range 256).any fun n => new.net n && (new.valid || !old.net n)
    && (List.range 64).any fun v => v != vf && (s.func v).valid && (s.func v).net n

/-- The bytes of CNT and OVF among those written (R357). -/
def counterBytes (off n : Nat) : List Nat :=
  ((List.range n).map (off + ·)).filter fun b => b == 21 || (decide (96 ≤ b) && decide (b < 144))

/-- One write to a function's record; an accepted one puts the function's lists back in service (R357, R360, R394, 00_scope R5;
DEDUCED, log 19). -/
def State.writeFunc (part vf : Nat) (s : State) (off : Nat) (data : List Byte) : State :=
  let old := s.func vf
  let new : Func := { old with record := keepFields (setBytes old.record off data) funcFields }
  let fixed := fun (f : Func) => (byteField f.record 24 64, byteField f.record 20 8, byteField f.record 160 256)
  if s.netsTaken vf new old || (s.busy vf && fixed new != fixed old) then
    s.modPart part fun p => { p with refusedWrite := true }
  else
    (s.modFunc vf fun f => { f with
      record := new.record, out := [], watched := [], lost := false
      wrote := if s.holds vf then f.wrote ++ counterBytes off data.length else f.wrote }).accepted part

/-- FUNCTION_RECORD_WRITE (R357, R394). -/
def execFunctionRecordWrite (part vf off : Nat) (data : List Byte) (s : State) : Host.Outcome State Fault Refusal :=
  let old := s.func vf
  .next (if !s.ready || 16 ≤ part || 64 ≤ vf || 320 < off + data.length || (old.valid && old.partNo != part) then s
    else s.writeParts 320 off data (State.writeFunc part vf))

/-- DENIAL_CONSUMER_WRITE: the drainer writes C (R329, R394; DEDUCED, log 22). -/
def execDenialConsumerWrite (part : Nat) (c : DWord) (s : State) : Host.Outcome State Fault Refusal :=
  .next (if s.ready then (s.modPart part fun p =>
    { p with c := c, drainAsked := p.drainAsked && decide (2 ^ (p.dlogK - 1) ≤ (p.p - c).toNat) }).accepted part else s)

end Sys2Proof.Machine
end

