-- ==== Sys2Proof/Machine/Host.lean ====
section
/-! DEFINITION. The host over the Rallia link, and the device fabric (24_host_fabric R391-R397, R400, R401): flits, link
offsets, aperture accesses, recalls and acknowledgements. -/

namespace Sys2Proof.Machine

/-! ### Flits (R391, R397) -/

/-- One bit of the CRC-32 of IEEE 802.3, least significant bit first. -/
def crcBit (c : BitVec 32) : BitVec 32 := if c.getLsbD 0 then (c >>> 1) ^^^ 0xEDB88320 else c >>> 1

/-- One byte of the CRC. -/
def crcByte (c : BitVec 32) (b : Byte) : BitVec 32 :=
  crcBit (crcBit (crcBit (crcBit (crcBit (crcBit (crcBit (crcBit (c ^^^ b.setWidth 32))))))))

/-- The CRC-32 of bytes (R391). -/
def crc32 (bs : List Byte) : BitVec 32 := ~~~ (bs.foldl crcByte 0xFFFFFFFF)

def flitClass (h : DWord) : BitVec 4 := bits h 60 4
def flitSeq (h : DWord) : BitVec 12 := bits h 48 12
def flitAck (h : DWord) : BitVec 12 := bits h 36 12
def flitCred (h : DWord) : BitVec 12 := bits h 24 12

/-- Drops the flits that an acknowledgement covers: those at or before it in the order they were sent (R391). -/
def acked (a : BitVec 12) (fs : List (BitVec 12 × BitVec 2048)) : List (BitVec 12 × BitVec 2048) :=
  match fs.findIdx? (·.1 == a) with
  | some i => fs.drop (i + 1)
  | none => fs

/-- A port takes a flit of `n` bytes: one with a bad CRC or another SEQ than the next is discarded, for replay; the payload of
a reserved class is discarded (R391; DESIGN CHOICE, log 25). -/
def Port.receive (p : Port) (bs : List Byte) : Port :=
  let n := bs.length
  let h : DWord := BitVec.ofNat 64 (leNat (bs.take 8))
  if crc32 (bs.take (n - 4)) != BitVec.ofNat 32 (leNat (bs.drop (n - 4))) || flitSeq h != p.next then { p with retry := true }
  else
    let body : BitVec 2048 := BitVec.ofNat 2048 (leNat ((bs.take (n - 4)).drop 8))
    { p with
      ack := flitSeq h, next := p.next + 1, cred := flitCred h, replay := acked (flitAck h) p.replay, retry := false
      inbox := if flitClass h == 0 || 5 ≤ flitClass h then p.inbox else p.inbox ++ [body] }

/-- Whether the link and the fabric are up: stage 3 has succeeded (25 R399). -/
def State.linkUp (s : State) : Bool := s.power && decide (4 ≤ s.stage)

/-- LINK_FLIT_RECEIVE (R391). -/
def execLinkFlitReceive (flit : BitVec 2048) (s : State) : Host.Outcome State Fault Refusal :=
  .next (if s.linkUp then { s with link := s.link.receive (leBytes 256 flit.toNat) } else s)

/-- Whether a port takes a flit; one that it does not take is discarded, for replay (R391). -/
def Port.takes (p : Port) (bs : List Byte) : Bool := !(p.receive bs).retry

/-- FABRIC_FLIT_RECEIVE: the port takes the flit or discards it, and counts it (R397; DESIGN CHOICE, log 25). -/
def execFabricFlitReceive (port : Nat) (flit : BitVec 512) (s : State) : Host.Outcome State Fault Refusal :=
  let bs := leBytes 64 flit.toNat
  let took := (s.fabric[port]?).any (·.takes bs)
  .next (if s.linkUp then
    { s with
      fabric := s.fabric.modify port fun p => p.receive bs
      fabricCounts := s.fabricCounts.modify port fun n => if took then (n.1 + 1, n.2) else (n.1, n.2 + 1) }
  else s)

/-- FABRIC_ROUTE_WRITE: management sets DEVID, which is never 0xFFFF, or one entry of the route table (R397, R407). -/
def execFabricRouteWrite (w : RouteWrite) (s : State) : Host.Outcome State Fault Refusal :=
  .next (if !s.power then s else match w with
    | .devId d => if d == 0xFFFF then s else { s with devId := d }
    | .route d port =>
      let rest := s.routes.filter (·.1 != d.toNat)
      match port with
      | some p => { s with routes := (d.toNat, p.val) :: rest }
      | none => { s with routes := rest })

/-! ### Apertures (R392, R393) -/

/-- Where the memory apertures begin, and the bytes of one. -/
def apertureBase : Nat := 2 ^ 40
def apertureSize : Nat := 2 ^ 36

/-- The EN bit, the key and the base of aperture `a` (R392). -/
def State.apertureOn (s : State) (a : Nat) : Bool := (s.apEn[a]?).getD 0 != 0
def State.apertureKey (s : State) (a : Nat) : Nat := ((s.apKey[a]?).getD 0).toNat
def State.aperturePa (s : State) (a : Nat) : Nat := ((s.apPab[a]?).getD 0).toNat * apertureSize

/-- The physical address and key that a link offset reaches through an enabled aperture (R392). -/
def State.throughAperture (s : State) (off : Nat) : Option (Nat × Nat) :=
  let a := (off - apertureBase) / apertureSize
  if apertureBase ≤ off && a < 16 && s.apertureOn a then
    some (s.aperturePa a + (off - apertureBase) % apertureSize, s.apertureKey a)
  else none

/-- The cells that a write of bytes makes in one aperture. -/
def State.apertureCells (s : State) (a off : Nat) (data : List Byte) : List Host.Cell :=
  data.zipIdx.filterMap fun b =>
    let o := off + b.2
    if (o - apertureBase) / apertureSize = a then (s.throughAperture o).map fun x => (x.1, b.1) else none

/-- One aperture's part of a host write: home at once, through the L2, with the aperture's key and no seal (R152, R328, R392, R393).
No function's way mask governs it (DESIGN CHOICE, log 15). -/
def State.apertureWrite (s : State) (a off : Nat) (data : List Byte) : State :=
  match s.apertureCells a off data with
  | [] => s
  | c :: cs =>
    s.writeThrough 64 ⟨0, c.1, cs.length + 1, s.apertureKey a, 0, 0, 0, 0⟩ ((c :: cs).map (·.2))

/-- HOST_APERTURE_WRITE: a host write at a link offset of an aperture (R393). -/
def execHostApertureWrite (off : Nat) (data : List Byte) (s : State) : Host.Outcome State Fault Refusal :=
  .next (if s.ready then (List.range 16).foldl (fun s a => s.apertureWrite a off data) s else s)

/-! ### What the host reads (R392-R394, R400, R401) -/

/-- The boot word (R400). -/
def State.bootWord (s : State) : DWord := (0 : BitVec 48) ++ s.err ++ (0 : BitVec 4) ++ BitVec.ofNat 4 s.stage

/-- The word of the status page at an offset (R392, R400). -/
def State.statusWord (s : State) (o : Nat) : DWord :=
  if o = 0 then (if s.ready then 1 else 0)
  else if o = 8 then s.devId.setWidth 64
  else if o = 0x10 then s.bootWord
  else if 0x100 ≤ o ∧ o < 0x180 then
    let a := (o - 0x100) / 8
    BitVec.ofNat 64 ((if s.apertureOn a then 2 ^ 63 else 0) + s.apertureKey a % 2048 * 2 ^ 16 + s.aperturePa a / apertureSize)
  else 0

/-- STATUS of a partition (R394). -/
def State.statusOf (s : State) (part : Nat) : DWord :=
  let p := s.part part
  BitVec.ofNat 64 ((if p.draining then 1 else 0) + (if p.awaitsHost then 2 else 0) + (if p.refusedWrite then 4 else 0)
    + 256 * p.holder.getD 0)

/-- The record of a function as the host reads it: with the counters as they run (R357, R394). -/
def State.recordSeen (s : State) (vf : Nat) : BitVec 2560 :=
  (if s.holds vf then (s.func vf).keepCounters else s.func vf).record

/-- The byte of a control window at an offset (R394). -/
def State.windowByte (s : State) (part o : Nat) : Byte :=
  let word := fun (x : DWord) (k : Nat) => bits x (8 * k) 8
  if o < 128 then bits (s.part part).record (8 * o) 8
  else if 0x88 ≤ o ∧ o < 0x90 then word (s.statusOf part) (o - 0x88)
  else if 0x90 ≤ o ∧ o < 0x98 then word (s.part part).c (o - 0x90)
  else if 0x98 ≤ o ∧ o < 0xA0 then word (s.part part).p (o - 0x98)
  else if 0x1000 ≤ o ∧ o < 0x9000 ∧ o % 512 < 320 then bits (s.recordSeen ((o - 0x1000) / 512)) (8 * (o % 512)) 8
  else 0

/-- The byte at a link offset (R392, R401). -/
def State.linkByte (s : State) (off : Nat) : Byte :=
  if 0x100000 ≤ off ∧ off < 0x101000 then
    (if s.linkUp then bits (s.statusWord ((off - 0x100000) / 8 * 8)) (8 * (off % 8)) 8 else 0)
  else if !s.ready then 0
  else if off < 0x100000 then s.windowByte (off / 0x10000) (off % 0x10000)
  else match s.throughAperture off with
    | some (pa, key) => s.readAt key s.now pa
    | none => 0

/-- HOST_APERTURE_READ: a host read at a link offset; an aperture read takes the newest history (R392, R393). -/
def execHostApertureRead (off n : Nat) (s : State) : Host.Outcome State Fault Refusal :=
  .next { s with hostReads := s.hostReads ++ [(List.range n).map fun i => s.linkByte (off + i)] }

/-- REGISTER_WRITE: a host write of an aperture register, which the status page holds, so READY is not asked for; a write of any other
register without a row is ignored (R392, R393, R401). -/
def execRegisterWrite (off : Nat) (v : DWord) (s : State) : Host.Outcome State Fault Refusal :=
  let a := (off - 0x100100) / 8
  .next (if s.linkUp && decide (0x100100 ≤ off) && off % 8 == 0 && decide (a < 16) then
    { s with
      apEn := s.apEn.set a ((bits v 63 1).setWidth 64), apKey := s.apKey.set a ((bits v 16 11).setWidth 64)
      apPab := s.apPab.set a ((bits v 0 16).setWidth 64) }
  else s)

/-! ### The host tier (R395) -/

/-- HOST_RECALL: the slice writes a host-tier line's dirty bytes back, drops it and its prints, and the host's write then joins the
bytes' history (R395). -/
def execHostRecall (line off : Nat) (data : List Byte) (s : State) : Host.Outcome State Fault Refusal :=
  let a := hostBase + line * 256
  .next (if s.ready then
    let s := (s.l2.filter fun l => l.line * 256 == a).foldl State.dropL2 s
    if data.isEmpty then s else s.writeHome 0 (cellsOf (a + off % 256) (data.take (256 - off % 256)))
  else s)

/-- HOST_TIER_RESPONSE: the host acknowledges a write to its memory, once that has been written back (R395, 11 R174). -/
def execHostTierResponse (k : Nat) (s : State) : Host.Outcome State Fault Refusal :=
  .next (if (s.hostReqs[k]?).any (·.sent) then { s with hostReqs := s.hostReqs.eraseIdx k } else s)

end Sys2Proof.Machine
end

