-- ==== Sys2Proof/Machine/Integer.lean ====
section
/-! DEFINITION. The integer instructions (06_control_integer R90-R103): one meaning for each. -/

namespace Sys2Proof.Machine

/-! ### Values -/

/-- The raw bits of an operand: 32, or 64 for a pair (R96-R99). -/
def Crew.raw (c : Crew) (l : Lane) (w64 : Bool) (r : Reg) : Nat :=
  if w64 then (c.rd64 l r).toNat else (c.rd l r).toNat

/-- Width of an operand of raw bits. -/
def rawWidth (w64 : Bool) : Nat := if w64 then 64 else 32

/-- SHL (R97). -/
def shlBits (w a c : Nat) : Nat := if c < w then a * 2 ^ c % 2 ^ w else 0

/-- SHR (R97). -/
def shrBits (w a c : Nat) : Nat := if c < w then a / 2 ^ c else 0

/-- SAR of a signed value (R97). -/
def sarInt (w : Nat) (a : Int) (c : Nat) : Int :=
  if c < w then a / 2 ^ c else if a < 0 then -1 else 0

/-- ROT to the left (R97). -/
def rotBits (w a c : Nat) : Nat :=
  let k := c % w
  (a * 2 ^ k + a / 2 ^ (w - k)) % 2 ^ w

/-- The field a control word names: position and clipped length, none when it is empty (R98). -/
def fieldCtl (w : Nat) (ctl : Word) : Option (Nat × Nat) :=
  let pos := (bits ctl 0 8).toNat
  let len := min (bits ctl 8 8).toNat (w - pos)
  if w ≤ pos || len == 0 then none else some (pos, len)

/-- BFX (R98). -/
def bfxInt (t : Ty) (w a : Nat) (ctl : Word) : Int :=
  match fieldCtl w ctl with
  | none => 0
  | some (pos, len) =>
    let f := a / 2 ^ pos % 2 ^ len
    if t.isSigned && f.testBit (len - 1) then (f : Int) - 2 ^ len else f

/-- BFI (R98). -/
def bfiBits (w a b : Nat) (ctl : Word) : Nat :=
  match fieldCtl w ctl with
  | none => a
  | some (pos, len) =>
    a - a / 2 ^ pos % 2 ^ len * 2 ^ pos + b % 2 ^ len * 2 ^ pos

/-- POPC (R99). -/
def popcount (w a : Nat) : Nat := (List.range w).countP fun i => a.testBit i

/-- CLZ (R99). -/
def leadingZeros (w a : Nat) : Nat := ((List.range w).find? fun i => a.testBit (w - 1 - i)).getD w

/-- CTZ (R99). -/
def trailingZeros (w a : Nat) : Nat := ((List.range w).find? fun i => a.testBit i).getD w

/-- BREV (R99). -/
def reverseBits (w a : Nat) : Nat :=
  (List.range w).foldl (fun acc i => if a.testBit i then acc + 2 ^ (w - 1 - i) else acc) 0

/-- One byte of a register by signedness (R103). -/
def dotByte (x : Word) (j : Nat) (isS : Bool) : Int :=
  if isS then (bits x (8 * j) 8).toInt else (bits x (8 * j) 8).toNat

/-- IDOT4 (R103): the exact sum, fitted to n32 when both operands are unsigned and to i32 otherwise. -/
def idot4Int (aS bS sat : Bool) (a b c : Word) : Int :=
  let t := if aS || bS then Ty.i32 else Ty.n32
  let n0 : Int := if aS || bS then c.toInt else c.toNat
  fitTo t sat ((List.range 4).foldl (fun n j => n + dotByte a j aS * dotByte b j bS) n0)

/-- Issues a logic instruction on registers or, when D is a predicate, on predicates (R96). -/
def issueLogic (i : Instr) (t : Ty) (d a b : Reg) (f : DWord → DWord → DWord) (s : State) :
    Host.Outcome State Fault Refusal :=
  issueAlu i t.is64 d (fun c l =>
    pureVal (f (BitVec.ofNat 64 (c.raw l t.is64 a)) (BitVec.ofNat 64 (c.raw l t.is64 b)))) s

/-! ### Moves (R93) -/

/-- MOV (R93). -/
def execMov (g : Guard) (t : Ty) (d a : Reg) (s : State) : Host.Outcome State Fault Refusal :=
  issueAlu (.mov g t d a) t.is64 d (fun c l =>
    pureVal (let x := c.raw l t.is64 a
             if d.isQ then (if x = 0 then 0 else 1) else BitVec.ofNat 64 x)) s

/-- MOVI (R93): FN 0 writes K, FN 1 a sign-extended pair, FN 2 a zero-extended pair. -/
def execMovi (g : Guard) (f : MoviForm) (d : Reg) (k : Word) (s : State) : Host.Outcome State Fault Refusal :=
  issueAlu (.movi g f d k) (f != .word) d (fun _ _ =>
    pureVal (match f with
      | .i64 => k.signExtend 64
      | _ => k.setWidth 64)) s

/-- MOVH (R93): the pair (K << 32) | a. -/
def execMovh (g : Guard) (d a : Reg) (k : Word) (s : State) : Host.Outcome State Fault Refusal :=
  issueAlu (.movh g d a k) true d (fun c l => pureVal (k ++ c.rd l a)) s

/-! ### Arithmetic (R94, R95) -/

/-- IADD (R94). -/
def execIadd (g : Guard) (t : Ty) (sat : Bool) (d a b : Reg) (s : State) : Host.Outcome State Fault Refusal :=
  issueInt (.iadd g t sat d a b) t d (fun c l => fitTo t sat (c.iv l t a + c.iv l t b)) s

/-- IADD3 (R94): the exact sum of three, fitted once. -/
def execIadd3 (g : Guard) (t : Ty) (sat : Bool) (d a b c : Reg) (s : State) : Host.Outcome State Fault Refusal :=
  issueInt (.iadd3 g t sat d a b c) t d (fun k l => fitTo t sat (k.iv l t a + k.iv l t b + k.iv l t c)) s

/-- ISUB (R94). -/
def execIsub (g : Guard) (t : Ty) (sat : Bool) (d a b : Reg) (s : State) : Host.Outcome State Fault Refusal :=
  issueInt (.isub g t sat d a b) t d (fun c l => fitTo t sat (c.iv l t a - c.iv l t b)) s

/-- ADDC (R95): carries through predicate `q`. -/
def execAddc (g : Guard) (d a b : Reg) (q : BitVec 3) (s : State) : Host.Outcome State Fault Refusal :=
  issue (.addc g d a b q) (fun k s => s.modCur k fun c => c.eachLane g fun _ l =>
    let (x, o) := addCarry (c.rd l a) (c.rd l b) (l.pred q)
    (l.wr d x).setPred q o) s

/-- SUBB (R95): borrows through predicate `q`. -/
def execSubb (g : Guard) (d a b : Reg) (q : BitVec 3) (s : State) : Host.Outcome State Fault Refusal :=
  issue (.subb g d a b q) (fun k s => s.modCur k fun c => c.eachLane g fun _ l =>
    let (x, o) := subBorrow (c.rd l a) (c.rd l b) (l.pred q)
    (l.wr d x).setPred q o) s

/-- IMUL (R94). -/
def execImul (g : Guard) (t : Ty) (sat : Bool) (d a b : Reg) (s : State) : Host.Outcome State Fault Refusal :=
  issueInt (.imul g t sat d a b) t d (fun c l => fitTo t sat (c.iv l t a * c.iv l t b)) s

/-- IMULH (R94): the upper half of the exact product, rounded toward minus infinity. -/
def execImulh (g : Guard) (t : Ty) (d a b : Reg) (s : State) : Host.Outcome State Fault Refusal :=
  issueInt (.imulh g t d a b) t d (fun c l => wrapTo t (c.iv l t a * c.iv l t b / 2 ^ t.width)) s

/-- IMAD (R94): the exact product and sum, fitted once. -/
def execImad (g : Guard) (t : Ty) (sat : Bool) (d a b c : Reg) (s : State) : Host.Outcome State Fault Refusal :=
  issueInt (.imad g t sat d a b c) t d (fun k l => fitTo t sat (k.iv l t a * k.iv l t b + k.iv l t c)) s

/-- IMIN (R94). -/
def execImin (g : Guard) (t : Ty) (d a b : Reg) (s : State) : Host.Outcome State Fault Refusal :=
  issueInt (.imin g t d a b) t d (fun c l => min (c.iv l t a) (c.iv l t b)) s

/-- IMAX (R94). -/
def execImax (g : Guard) (t : Ty) (d a b : Reg) (s : State) : Host.Outcome State Fault Refusal :=
  issueInt (.imax g t d a b) t d (fun c l => max (c.iv l t a) (c.iv l t b)) s

/-- IABS (R94). -/
def execIabs (g : Guard) (t : Ty) (sat : Bool) (d a : Reg) (s : State) : Host.Outcome State Fault Refusal :=
  issueInt (.iabs g t sat d a) t d (fun c l => fitTo t sat (c.iv l t a).natAbs) s

/-- INEG (R94). -/
def execIneg (g : Guard) (t : Ty) (sat : Bool) (d a : Reg) (s : State) : Host.Outcome State Fault Refusal :=
  issueInt (.ineg g t sat d a) t d (fun c l => fitTo t sat (-(c.iv l t a))) s

/-! ### Logic, shifts, bit fields, counts (R96-R99) -/

/-- AND (R96). -/
def execAnd (g : Guard) (t : Ty) (d a b : Reg) (s : State) : Host.Outcome State Fault Refusal :=
  issueLogic (.and g t d a b) t d a b (fun x y => x &&& y) s

/-- OR (R96). -/
def execOr (g : Guard) (t : Ty) (d a b : Reg) (s : State) : Host.Outcome State Fault Refusal :=
  issueLogic (.or g t d a b) t d a b (fun x y => x ||| y) s

/-- XOR (R96). -/
def execXor (g : Guard) (t : Ty) (d a b : Reg) (s : State) : Host.Outcome State Fault Refusal :=
  issueLogic (.xor g t d a b) t d a b (fun x y => x ^^^ y) s

/-- ANDN (R96): a AND NOT b. -/
def execAndn (g : Guard) (t : Ty) (d a b : Reg) (s : State) : Host.Outcome State Fault Refusal :=
  issueLogic (.andn g t d a b) t d a b (fun x y => x &&& ~~~ y) s

/-- SHL (R97). -/
def execShl (g : Guard) (t : Ty) (d a b : Reg) (s : State) : Host.Outcome State Fault Refusal :=
  issueAlu (.shl g t d a b) t.is64 d (fun c l =>
    pureVal (BitVec.ofNat 64 (shlBits (rawWidth t.is64) (c.raw l t.is64 a) (c.rd l b).toNat))) s

/-- SHR (R97). -/
def execShr (g : Guard) (t : Ty) (d a b : Reg) (s : State) : Host.Outcome State Fault Refusal :=
  issueAlu (.shr g t d a b) t.is64 d (fun c l =>
    pureVal (BitVec.ofNat 64 (shrBits (rawWidth t.is64) (c.raw l t.is64 a) (c.rd l b).toNat))) s

/-- SAR (R97). -/
def execSar (g : Guard) (t : Ty) (d a b : Reg) (s : State) : Host.Outcome State Fault Refusal :=
  issueInt (.sar g t d a b) t d (fun c l => sarInt t.width (c.iv l t a) (c.rd l b).toNat) s

/-- ROT (R97). -/
def execRot (g : Guard) (t : Ty) (d a b : Reg) (s : State) : Host.Outcome State Fault Refusal :=
  issueAlu (.rot g t d a b) t.is64 d (fun c l =>
    pureVal (BitVec.ofNat 64 (rotBits (rawWidth t.is64) (c.raw l t.is64 a) (c.rd l b).toNat))) s

/-- BFX (R98). -/
def execBfx (g : Guard) (t : Ty) (d a b : Reg) (s : State) : Host.Outcome State Fault Refusal :=
  issueInt (.bfx g t d a b) t d (fun c l => bfxInt t (rawWidth t.is64) (c.raw l t.is64 a) (c.rd l b)) s

/-- BFI (R98). -/
def execBfi (g : Guard) (t : Ty) (d a b c : Reg) (s : State) : Host.Outcome State Fault Refusal :=
  issueAlu (.bfi g t d a b c) t.is64 d (fun k l =>
    pureVal (BitVec.ofNat 64
      (bfiBits (rawWidth t.is64) (k.raw l t.is64 a) (k.raw l t.is64 b) (k.rd l c)))) s

/-- POPC (R99). -/
def execPopc (g : Guard) (t : Ty) (d a : Reg) (s : State) : Host.Outcome State Fault Refusal :=
  issueAlu (.popc g t d a) false d (fun c l =>
    pureVal (BitVec.ofNat 64 (popcount (rawWidth t.is64) (c.raw l t.is64 a)))) s

/-- CLZ (R99). -/
def execClz (g : Guard) (t : Ty) (d a : Reg) (s : State) : Host.Outcome State Fault Refusal :=
  issueAlu (.clz g t d a) false d (fun c l =>
    pureVal (BitVec.ofNat 64 (leadingZeros (rawWidth t.is64) (c.raw l t.is64 a)))) s

/-- CTZ (R99). -/
def execCtz (g : Guard) (t : Ty) (d a : Reg) (s : State) : Host.Outcome State Fault Refusal :=
  issueAlu (.ctz g t d a) false d (fun c l =>
    pureVal (BitVec.ofNat 64 (trailingZeros (rawWidth t.is64) (c.raw l t.is64 a)))) s

/-- BREV (R99). -/
def execBrev (g : Guard) (t : Ty) (d a : Reg) (s : State) : Host.Outcome State Fault Refusal :=
  issueAlu (.brev g t d a) t.is64 d (fun c l =>
    pureVal (BitVec.ofNat 64 (reverseBits (rawWidth t.is64) (c.raw l t.is64 a)))) s

/-! ### Compare, select, addresses, dot product (R100-R103) -/

/-- ICMP (R100). -/
def execIcmp (g : Guard) (t : Ty) (cond : Cond) (comb : Comb) (d : BitVec 3) (a b c : Reg) (s : State) :
    Host.Outcome State Fault Refusal :=
  issue (.icmp g t cond comb d a b c) (fun k s => s.modCur k fun x =>
    x.compare g comb d c fun l => cond.eval (x.iv l t a) (x.iv l t b)) s

/-- ISEL (R101). -/
def execIsel (g : Guard) (t : Ty) (d a b : Reg) (q : BitVec 3) (s : State) : Host.Outcome State Fault Refusal :=
  issueAlu (.isel g t d a b q) t.is64 d (fun c l =>
    pureVal (BitVec.ofNat 64 (c.raw l t.is64 (if l.pred q then a else b)))) s

/-- LEA (R102): (a + (b << sh)) mod 2^64, b extended by its type. -/
def execLea (g : Guard) (t : Ty) (sh : BitVec 3) (d a b : Reg) (s : State) : Host.Outcome State Fault Refusal :=
  issueAlu (.lea g t sh d a b) true d (fun c l =>
    pureVal (BitVec.ofInt 64 ((c.rd64 l a).toNat + c.iv l t b * 2 ^ sh.toNat))) s

/-- IDOT4 (R103). -/
def execIdot4 (g : Guard) (t : Ty) (sat mixed : Bool) (d a b c : Reg) (s : State) :
    Host.Outcome State Fault Refusal :=
  issueAlu (.idot4 g t sat mixed d a b c) false d (fun k l =>
    let aS := t == .i8
    pureVal (BitVec.ofInt 64 (idot4Int aS (xor aS mixed) sat (k.rd l a) (k.rd l b) (k.rd l c)))) s

end Sys2Proof.Machine
end

