-- ==== Sys2Proof/Machine/Perform.lean ====
section
/-! DEFINITION. OPERATION_PERFORM: an operation of a crew's issue queue, or a posted one, takes its place in the order of the
phase machine (11_ordering R166, R167); and the word that decodes to nothing (05_encoding R68). -/

namespace Sys2Proof.Machine

/-- An engine instruction performs (17_engines, 18_engine_instructions). -/
def State.performEngine (s : State) (k : Ctx) (o : Op) (i : Instr) (xs : List DWord) (picks : List Nat) : State :=
  match i with
  | .mdesc _ l2 fmt h stride _ _ => s.performMdesc k o l2 fmt h stride xs
  | .mzero _ t => s.acceptM k o (.mzero t.toNat)
  | .mwrite _ int t _ _ _ => s.acceptM k o (.mwrite int t.toNat (elementsOf xs))
  | .mloop _ sh t ha hb n ia ib => s.performMloop k o sh t ha hb n ia ib
  | .mfence _ => s.performMfence k
  | .mread _ i64 t d _ _ => s.performMread k o i64 t d xs picks
  | .mstat _ d => s.performMstat k o d
  | .mstatLog _ d _ => s.performMstatLog k o d xs
  | .mstatExp _ t d => s.performMstatExp k o t d
  | .mstatClr _ => s.performMstatClr k
  | .cstat _ d => s.performCstat k o d false
  | .cstatClr _ d => s.performCstat k o d true
  | .xgrp g slot _ => s.performXgrp k o g slot i.len xs
  | .xgrpEnd g slot => s.performXgrpEnd k g slot i.len
  | .xgather g slot ioff cb _ => s.performXop k o g slot i.len 0 .n8 ioff cb (xs.headD 0)
  | .xrscat g t slot ioff cb _ => s.performXop k o g slot i.len 1 t ioff cb (xs.headD 0)
  | .xa2a g slot ioff cb _ => s.performXop k o g slot i.len 2 .n8 ioff cb (xs.headD 0)
  | .xbar g slot => s.performXop k o g slot i.len 3 .n8 0 0 0
  | i => if i.copyCmd then s.performCopy k o i xs else s

/-- A system instruction performs, unless it has to wait; what it reads, tables among them, it reads at the newest position of home
history (23_system_instructions R371). -/
def State.performSystem (s : State) (k : Ctx) (o : Op) (i : Instr) (xs : List DWord) : State × Bool :=
  let s : State := { s with lags := [] }
  match i with
  | .rsplit g one d _ _ _ => s.performRsplit k o g one d xs
  | .rmerge _ d _ _ => s.performRmerge k o d xs
  | .rinval g all _ _ _ => s.performRinval k g all xs
  | .rprobe g d _ _ q => s.performRprobe k o g d q xs
  | .rprobeS2 g d _ _ q => s.performRprobeS2 k o g d q xs
  | .rcompact _ d _ _ _ => s.performRcompact k o d xs
  | .netsave g d _ _ => s.performNetsave k o i g d xs
  | .netload g d _ _ => s.performNetload k o i g d xs
  | .netdrain g _ => s.performNetdrain k g xs
  | .netreset g _ => s.performNetreset k o i g xs
  | .launch g d _ _ => s.performLaunch k o g d xs
  | .cntcfg _ d _ _ _ => s.performCntcfg k o d xs
  | .sealset g d _ _ => s.performSealset k o g d xs
  | _ => (s, true)

/-- A lone operation, taken out of the queue, performs. -/
def State.performOp (s : State) (k : Ctx) (o : Op) (picks : List Nat) : State :=
  match o.what with
  | .load z home h ps d => s.performLoad k o z home h ps d picks
  | .decode z home h va fmt code scale hi d => s.performDecode k o z home h va fmt code scale hi d picks
  | .store h ps => s.performStore k o h ps
  | .spLoad z core a d => s.performSpLoad k o z core a d
  | .spStore core a n x => s.performSpStore k core a n x
  | .atom op z p v d => s.performAtom k o op z p v d
  | .cas z p cmp new d => s.performCas k o z p cmp new d
  | .red op z p v => s.performRed k o op z p v
  | .waitc cond z p rhs => s.performWaitc k o cond z p rhs
  | .awinit a target => s.scratchStore k.b.uid a (leBytes 8 (target.toNat * 2 ^ 24))
  | .arrive a amount => s.arriveAt k.b.uid a amount.toNat
  | .await a gen => s.performAwait k o a gen
  | .fence sc => s.performFence sc
  | .phase pub ref mark => s.performPhase k o pub ref mark
  | .sfence a len => s.performSfence k a len
  | .netcnt n d => s.performNetcnt k o n d
  | .instr i xs => s.performEngine k o i xs picks
  | .token .. | .bar | .barc => s

/-- The lanes of an eighth, taken out of the queue, perform together. -/
def State.performEighth (s : State) (k : Ctx) (o : Op) (os : List Op) : State :=
  match o.what with
  | .waitc .. => os.foldl (fun s o => match o.what with
      | .waitc cond z p rhs => s.performWaitc k o cond z p rhs
      | _ => s) s
  | .await .. => os.foldl (fun s o => match o.what with
      | .await a gen => s.performAwait k o a gen
      | _ => s) s
  | .bar => s.performBar k os
  | .barc => s.performBarc k os
  | .instr (.mwait _ all t) _ => s.performMwait k o os all t
  | .instr (.xwait _ slot) _ => s.performXwait k os slot
  | _ => s

/-- An operation that R167 lets perform does so, once the host has acknowledged what it waits for. -/
def State.performNext (s : State) (u ci n : Nat) (c : Crew) (o : Op) (k : Ctx) (picks : List Nat) : State :=
  match o.what with
  | .token .. => s
  | w => match s.sysWait u ci c w with
  | some s => s
  | none =>
    if w.byEighth then (s.unqueueEighth u ci o).performEighth k o (eighthOf c.queue o)
    else match w with
      | .instr i xs =>
        if i.system then
          match s.performSystem k o i xs with
          | (s, true) => s.modCrew u ci fun c => { c with queue := c.queue.filter (· != o), acks := none }
          | (s, false) => s
        else (s.unqueue u ci n).performOp k o picks
      | .fence _ => ((s.unqueue u ci n).performOp k o picks).modCrew u ci fun c => { c with acks := none }
      | _ => (s.unqueue u ci n).performOp k o picks

/-- The results of what performs in this turn are ready as much later as the turn says (R104; DESIGN CHOICE, log 1). -/
def State.resultsLate (s : State) (u ci : Nat) : State :=
  if s.late = 0 then s else s.modCrew u ci fun c => { c with busy := max c.busy (s.cyc + s.late) }

/-- Whether operation `n` of a crew's queue may perform now: with it, where its lanes perform eighth by eighth, every other one of
its eighth (R41, R167). -/
def State.mayGo (s : State) (b : Block) (ci : Nat) (c : Crew) (n : Nat) (o : Op) : Bool :=
  if o.what.byEighth then
    (List.range c.queue.length).all fun j => !(match c.queue[j]? with
      | some p => (eighthOf c.queue o).contains p
      | none => false) || s.mayPerform b ci c j
  else s.mayPerform b ci c n

/-- OPERATION_PERFORM: operation `n` of a crew's queue performs, or, when `posted`, operation `n` on its way to home. The
picks are the home times that plain loads read as of, and the step boundary that MREAD reads at (R166-R168). -/
def execOperationPerform (u ci n : Nat) (posted : Bool) (picks : List Nat) (s : State) : Host.Outcome State Fault Refusal :=
  if posted then .next (if s.mayPost n then s.performPosted n else s)
  else match s.crew? u ci with
    | none => .next s
    | some (b, c) => match c.queue[n]? with
      | none => .next s
      | some o => match s.opCtx u ci o with
        | none => .next s
        | some k => .next (if s.mayGo b ci c n o then (s.resultsLate u ci).performNext u ci n c o k picks else s)

/-- UNASSIGNED_MAJOR: a word that decodes to no instruction is not legal: every active lane takes an illegal-instruction trap
(R68, R69). -/
def execUnassignedMajor (w : DWord) (s : State) : Host.Outcome State Fault Refusal :=
  issue (.unassignedMajor w) (fun _ s => s) s

end Sys2Proof.Machine
end

