-- ==== Sys2Proof/Machine/Power.lean ====
section
/-! DEFINITION. Power-up, power limits, retraining, attestation and keys (25_bringup R399-R407). -/

namespace Sys2Proof.Machine

/-! ### Power-up (R399-R401) -/

/-- What stage 5 leaves: slot 0 holds a fresh random key, and every byte of memory is zero under it; a key that management has loaded
stays in its slot (R399, R406; DESIGN CHOICE, log 10). -/
def State.clearMemory (s : State) : State :=
  let (k, s) := s.draw
  { s with
    keys := (0, 3 * k) :: s.keys.filter (·.1 != 0), zeroKey := 3 * k
    mem := [], log := [], qkeys := [], l1 := [], l2 := [], icache := [], remaps := [] }

/-- What stage 6 leaves: directory, records and maps zero, the launch counter set, READY set, `clk` counting from 0 (R399,
R361, 05 R62). -/
def State.setReady (s : State) : State :=
  { s with
    dirBase := Config.directoryBase, parts := List.replicate 16 Part.reset, funcs := List.replicate 64 Func.reset
    launchCtr := 0, ready := true, clk := 0 }

/-- Whether a stage can fail with an ERR code (R399, R400). -/
def failsWith (stage : Nat) (e : Byte) : Bool :=
  (stage == 2 && (e == 1 || e == 2)) || (stage == 3 && e == 3) || (stage == 4 && e == 4) || (stage == 5 && e == 5)

/-- BOOT_STAGE_COMPLETE: the stage in progress succeeds and the next begins, or it fails and nothing runs (R399, R400). -/
def execBootStageComplete (r : BootResult) (s : State) : Host.Outcome State Fault Refusal :=
  .next (if !s.power || s.ready || s.tripped || s.err != 0 then s
  else match r with
    | .failed e => if failsWith s.stage e then { s with err := e } else s
    | .ok =>
      if s.stage = 5 then { s.clearMemory with stage := 6 }
      else if s.stage = 6 then s.setReady
      else { s with stage := s.stage + 1 })

/-- POWER_REMOVED: every piece of device state is lost (R400, and the chapter's first paragraph); the model's own fields go
on. -/
def execPowerRemoved (s : State) : Host.Outcome State Fault Refusal :=
  .next { State.reset with agenda := s.agenda, draws := s.draws, cyc := s.cyc }

/-! ### Loops, limits, trips, retraining (R402-R404) -/

/-- Readings of the thermal, voltage and current sensors (R399 stage 1): nothing of the machine decides them (DESIGN CHOICE, log 25). -/
def readings (n : Nat) : List Nat := (List.range 3).map fun i => Config.freeNat (n + i)

/-- POWER_GOOD: stage 1 begins, and management can read the sensors (R399, R407; DESIGN CHOICE, log 25). -/
def execPowerGood (s : State) : Host.Outcome State Fault Refusal :=
  .next (if s.power then s
    else { s with power := true, stage := 1, err := 0, sensors := readings s.draws, draws := s.draws + 3 })

/-- ADAPTIVE_ADJUST: the loops read the sensors anew, and change timing only (R402; DESIGN CHOICE, log 25). -/
def execAdaptiveAdjust (s : State) : Host.Outcome State Fault Refusal :=
  .next (if s.ready then { s with adjusts := s.adjusts + 1, sensors := readings s.draws, draws := s.draws + 3 } else s)

/-- PLIM_SET: 1,200 W to 1,900 W in steps of 25 W (R403). -/
def execPlimSet (watts : Nat) (s : State) : Host.Outcome State Fault Refusal :=
  .next (if s.power && decide (1200 ≤ watts) && decide (watts ≤ 1900) && watts % 25 == 0 then { s with plim := watts } else s)

/-- POWER_LIMIT_THROTTLE: the core clock is lowered, and only then are K-steps spaced out; or either ends (R403). -/
def execPowerLimitThrottle (lower space : Bool) (s : State) : Host.Outcome State Fault Refusal :=
  .next (if s.ready then { s with lowered := lower, spaced := lower && space } else s)

/-- THERMAL_TRIP: every core stops, all dirty lines are written back, and READY clears until a new power-up (R403). -/
def execThermalTrip (s : State) : Host.Outcome State Fault Refusal :=
  .next (if s.power then { (s.drainBlocks fun _ => true).cleanL2 (fun _ => true) with tripped := true, ready := false } else s)

/-- Whether a partition may make an access: it has blocks, handler crews or launches, collectives, a move of the fuller or words that it
owes, or its front end serves a list (R287, R327, R360, R362; DESIGN CHOICE, log 38). -/
def State.accesses (s : State) (n : Nat) : Bool :=
  s.blocks.any (·.part == n) || s.launches.any (·.part == n) || (s.colls.any fun c => c.part == n && !c.done)
    || s.compacts.any (·.part == n) || s.words.any (·.part == n) || (s.funcsOf n).any fun v => s.serves n v && (List.range 8).any (s.listOn v)

/-- Whether a retraining waits for a request: it would hold accesses of a partition in host-assisted mode for it (R404; DESIGN CHOICE,
log 38). -/
def State.retrainNeedsRequest (s : State) : Bool := (List.range 16).any fun n => (s.part n).hostMode 4 && s.accesses n

/-- MEMORY_RETRAIN: a channel is retrained; a request it waited for is served (R404). -/
def execMemoryRetrain (channel : Nat) (s : State) : Host.Outcome State Fault Refusal :=
  .next (if s.ready && (!s.retrainNeedsRequest || s.retraining.contains channel) then
    { s with retraining := s.retraining.filter (· != channel) } else s)

/-- RETRAIN_REQUEST: the management interface requests a retraining (R404, R407). -/
def execRetrainRequest (channel : Nat) (s : State) : Host.Outcome State Fault Refusal :=
  .next (if s.power then { s with retraining := (channel :: s.retraining).dedup } else s)

/-! ### Identity and keys (R405, R406) -/

/-- The report's bytes 0 to 103 (R405). -/
def State.reportBody (s : State) (nonce : BitVec 384) : List Byte :=
  leBytes 2 s.devId.toNat ++ List.replicate 6 0 ++ leBytes 48 nonce.toNat ++ leBytes 48 Config.firmwareHash.toNat

/-- ATTESTATION_REPORT (R405; DESIGN CHOICE, log 26). -/
def execAttestationReport (nonce : BitVec 384) (s : State) : Host.Outcome State Fault Refusal :=
  .next (if s.power then
    let body := s.reportBody nonce
    { s with reports := s.reports ++ [body ++ leBytes 96 (Config.signature body).toNat] }
  else s)

/-! ### What management reads (R407) -/

/-- What the management interface reads (R407). -/
inductive Managed where
  | bootWord
  | sensor (n : Nat)
  | plim
  | devId
  /-- the port of a device id in the route table -/
  | route (d : BitVec 16)
  /-- flits that a fabric port has delivered, or discarded -/
  | fabric (port : Nat) (discarded : Bool)
deriving DecidableEq, Repr

/-- What management reads of the device; a device id without a route, and a port or sensor that there is none of, read as nothing
(R407; DESIGN CHOICE, log 25). -/
def State.managed (s : State) : Managed → Option DWord
  | .bootWord => some s.bootWord
  | .sensor n => (s.sensors[n]?).map (BitVec.ofNat 64)
  | .plim => some (BitVec.ofNat 64 s.plim)
  | .devId => some (s.devId.setWidth 64)
  | .route d => (s.routes.lookup d.toNat).map (BitVec.ofNat 64)
  | .fabric port discarded => (s.fabricCounts[port]?).map fun n => BitVec.ofNat 64 (if discarded then n.2 else n.1)

/-! ### Keys (R406) -/

/-- KEY_SLOT_LOAD: slots 1 to 2,047; the material is never slot 0's. Lines in the L2 keep their plaintext (R406; DESIGN CHOICE,
log 10). -/
def execKeySlotLoad (slot key : Nat) (s : State) : Host.Outcome State Fault Refusal :=
  .next (if s.power && decide (1 ≤ slot) && decide (slot < 2048) then
    { s with keys := (slot, 3 * key + 1) :: s.keys.filter (·.1 != slot) } else s)

end Sys2Proof.Machine
end

