-- ==== Sys2Proof/Machine/Dispatch.lean ====
section
/-! DEFINITION. One arm for each constructor of `Instr`: an instruction of the table, or one of the device's own steps. -/

namespace Sys2Proof.Machine

/-- What an instruction or an event does. -/
def exec (i : Instr) (s : State) : Host.Outcome State Fault Refusal :=
  match i with
  | .nop g => Sys2Proof.Machine.execNop g s
  | .go g l => Sys2Proof.Machine.execGo g l s
  | .gox g r => Sys2Proof.Machine.execGox g r s
  | .call g w l => Sys2Proof.Machine.execCall g w l s
  | .callx g r l => Sys2Proof.Machine.execCallx g r l s
  | .ret g => Sys2Proof.Machine.execRet g s
  | .done g => Sys2Proof.Machine.execDone g s
  | .trap g k => Sys2Proof.Machine.execTrap g k s
  | .brk g k => Sys2Proof.Machine.execBrk g k s
  | .wantc g d k => Sys2Proof.Machine.execWantc g d k s
  | .prefiIc g n line => Sys2Proof.Machine.execPrefiIc g n line s
  | .prefiL2 g n line => Sys2Proof.Machine.execPrefiL2 g n line s
  | .pini g n line => Sys2Proof.Machine.execPini g n line s
  | .unpini g n line => Sys2Proof.Machine.execUnpini g n line s
  | .movs g d r => Sys2Proof.Machine.execMovs g d r s
  | .mov g t d a => Sys2Proof.Machine.execMov g t d a s
  | .movi g f d k => Sys2Proof.Machine.execMovi g f d k s
  | .movh g d a k => Sys2Proof.Machine.execMovh g d a k s
  | .iadd g t sat d a b => Sys2Proof.Machine.execIadd g t sat d a b s
  | .iadd3 g t sat d a b c => Sys2Proof.Machine.execIadd3 g t sat d a b c s
  | .isub g t sat d a b => Sys2Proof.Machine.execIsub g t sat d a b s
  | .addc g d a b q => Sys2Proof.Machine.execAddc g d a b q s
  | .subb g d a b q => Sys2Proof.Machine.execSubb g d a b q s
  | .imul g t sat d a b => Sys2Proof.Machine.execImul g t sat d a b s
  | .imulh g t d a b => Sys2Proof.Machine.execImulh g t d a b s
  | .imad g t sat d a b c => Sys2Proof.Machine.execImad g t sat d a b c s
  | .imin g t d a b => Sys2Proof.Machine.execImin g t d a b s
  | .imax g t d a b => Sys2Proof.Machine.execImax g t d a b s
  | .iabs g t sat d a => Sys2Proof.Machine.execIabs g t sat d a s
  | .ineg g t sat d a => Sys2Proof.Machine.execIneg g t sat d a s
  | .and g t d a b => Sys2Proof.Machine.execAnd g t d a b s
  | .or g t d a b => Sys2Proof.Machine.execOr g t d a b s
  | .xor g t d a b => Sys2Proof.Machine.execXor g t d a b s
  | .andn g t d a b => Sys2Proof.Machine.execAndn g t d a b s
  | .shl g t d a b => Sys2Proof.Machine.execShl g t d a b s
  | .shr g t d a b => Sys2Proof.Machine.execShr g t d a b s
  | .sar g t d a b => Sys2Proof.Machine.execSar g t d a b s
  | .rot g t d a b => Sys2Proof.Machine.execRot g t d a b s
  | .bfx g t d a b => Sys2Proof.Machine.execBfx g t d a b s
  | .bfi g t d a b c => Sys2Proof.Machine.execBfi g t d a b c s
  | .popc g t d a => Sys2Proof.Machine.execPopc g t d a s
  | .clz g t d a => Sys2Proof.Machine.execClz g t d a s
  | .ctz g t d a => Sys2Proof.Machine.execCtz g t d a s
  | .brev g t d a => Sys2Proof.Machine.execBrev g t d a s
  | .icmp g t cond comb d a b c => Sys2Proof.Machine.execIcmp g t cond comb d a b c s
  | .isel g t d a b q => Sys2Proof.Machine.execIsel g t d a b q s
  | .lea g t sh d a b => Sys2Proof.Machine.execLea g t sh d a b s
  | .idot4 g t sat mixed d a b c => Sys2Proof.Machine.execIdot4 g t sat mixed d a b c s
  | .got g r tbl n w => Sys2Proof.Machine.execGot g r tbl n w s
  | .fadd g t rm sat x2 ftz d a b => Sys2Proof.Machine.execFadd g t rm sat x2 ftz d a b s
  | .fsub g t rm sat x2 ftz d a b => Sys2Proof.Machine.execFsub g t rm sat x2 ftz d a b s
  | .fmul g t rm sat x2 ftz d a b => Sys2Proof.Machine.execFmul g t rm sat x2 ftz d a b s
  | .ffma g t rm sat x2 ftz d a b c => Sys2Proof.Machine.execFfma g t rm sat x2 ftz d a b c s
  | .fmin g t x2 ftz d a b => Sys2Proof.Machine.execFmin g t x2 ftz d a b s
  | .fmax g t x2 ftz d a b => Sys2Proof.Machine.execFmax g t x2 ftz d a b s
  | .fcmp g t cond comb ftz d a b c => Sys2Proof.Machine.execFcmp g t cond comb ftz d a b c s
  | .fclass g t d a => Sys2Proof.Machine.execFclass g t d a s
  | .frcp g t rm sat ftz d a => Sys2Proof.Machine.execFrcp g t rm sat ftz d a s
  | .frsq g t sat ftz d a => Sys2Proof.Machine.execFrsq g t sat ftz d a s
  | .fsqrt g t rm sat ftz d a => Sys2Proof.Machine.execFsqrt g t rm sat ftz d a s
  | .fexp2 g t sat ftz d a => Sys2Proof.Machine.execFexp2 g t sat ftz d a s
  | .flog2 g t sat ftz d a => Sys2Proof.Machine.execFlog2 g t sat ftz d a s
  | .fsin g t sat ftz d a => Sys2Proof.Machine.execFsin g t sat ftz d a s
  | .fcos g t sat ftz d a => Sys2Proof.Machine.execFcos g t sat ftz d a s
  | .ftanh g t sat ftz d a => Sys2Proof.Machine.execFtanh g t sat ftz d a s
  | .fscale g t rm sat ftz d a b => Sys2Proof.Machine.execFscale g t rm sat ftz d a b s
  | .frnd g t rm ftz d a => Sys2Proof.Machine.execFrnd g t rm ftz d a s
  | .fdot2 g t rm sat ftz d a b c => Sys2Proof.Machine.execFdot2 g t rm sat ftz d a b c s
  | .cvt g td ts rm sat ftz d a b => Sys2Proof.Machine.execCvt g td ts rm sat ftz d a b s
  | .pack g td ts rm sat ftz n d a b c => Sys2Proof.Machine.execPack g td ts rm sat ftz n d a b c s
  | .unpack g td ts rm sat ftz n d a b => Sys2Proof.Machine.execUnpack g td ts rm sat ftz n d a b s
  | .vote g m d q => Sys2Proof.Machine.execVote g m d q s
  | .ballot g d q => Sys2Proof.Machine.execBallot g d q s
  | .shfl g m t d a b => Sys2Proof.Machine.execShfl g m t d a b s
  | .scan g op t rm sat excl ftz d a => Sys2Proof.Machine.execScan g op t rm sat excl ftz d a s
  | .reduce g op t rm sat ftz d a => Sys2Proof.Machine.execReduce g op t rm sat ftz d a s
  | .matchI g t d a c => Sys2Proof.Machine.execMatch g t d a c s
  | .isect g t q d a b c => Sys2Proof.Machine.execIsect g t q d a b c s
  | .regroup d a b n => Sys2Proof.Machine.execRegroup d a b n s
  | .qnt g t rm fine outl ftz d a c => Sys2Proof.Machine.execQnt g t rm fine outl ftz d a c s
  | .take g w32 d a c => Sys2Proof.Machine.execTake g w32 d a c s
  | .netcnt g d a => Sys2Proof.Machine.execNetcnt g d a s
  | .ld g z h home d m => Sys2Proof.Machine.execLd g z h home d m s
  | .st g z h d m => Sys2Proof.Machine.execSt g z h d m s
  | .lds g z d m => Sys2Proof.Machine.execLds g z d m s
  | .sts g z d m => Sys2Proof.Machine.execSts g z d m s
  | .ldp g z d m => Sys2Proof.Machine.execLdp g z d m s
  | .stp g z d m => Sys2Proof.Machine.execStp g z d m s
  | .ldl g z h d m => Sys2Proof.Machine.execLdl g z h d m s
  | .stl g z h d m => Sys2Proof.Machine.execStl g z h d m s
  | .atom g op z spc d m => Sys2Proof.Machine.execAtom g op z spc d m s
  | .cas g z spc d m => Sys2Proof.Machine.execCas g z spc d m s
  | .red g op z spc d m => Sys2Proof.Machine.execRed g op z spc d m s
  | .fence g sc => Sys2Proof.Machine.execFence g sc s
  | .phasePub g => Sys2Proof.Machine.execPhasePub g s
  | .phaseRef g => Sys2Proof.Machine.execPhaseRef g s
  | .phaseFull g => Sys2Proof.Machine.execPhaseFull g s
  | .waitc g cond z d m => Sys2Proof.Machine.execWaitc g cond z d m s
  | .pref g l2 h m => Sys2Proof.Machine.execPref g l2 h m s
  | .sfence g a b => Sys2Proof.Machine.execSfence g a b s
  | .bar => Sys2Proof.Machine.execBar s
  | .barc => Sys2Proof.Machine.execBarc s
  | .awinit g d m => Sys2Proof.Machine.execAwinit g d m s
  | .arrive g d m => Sys2Proof.Machine.execArrive g d m s
  | .await g d m => Sys2Proof.Machine.execAwait g d m s
  | .mdesc g l2 fmt h stride a b => Sys2Proof.Machine.execMdesc g l2 fmt h stride a b s
  | .mzero g t => Sys2Proof.Machine.execMzero g t s
  | .mwrite g int t a b c => Sys2Proof.Machine.execMwrite g int t a b c s
  | .mloop g sh t ha hb k ia ib => Sys2Proof.Machine.execMloop g sh t ha hb k ia ib s
  | .mwait g all t => Sys2Proof.Machine.execMwait g all t s
  | .mread g i64 t d a b => Sys2Proof.Machine.execMread g i64 t d a b s
  | .mfence g => Sys2Proof.Machine.execMfence g s
  | .mstat g d => Sys2Proof.Machine.execMstat g d s
  | .mstatLog g d a => Sys2Proof.Machine.execMstatLog g d a s
  | .mstatExp g t d => Sys2Proof.Machine.execMstatExp g t d s
  | .mstatClr g => Sys2Proof.Machine.execMstatClr g s
  | .cgather g r d a b c => Sys2Proof.Machine.execCgather g r d a b c s
  | .cscatter g r d a b c => Sys2Proof.Machine.execCscatter g r d a b c s
  | .cscatadd g t r d a b c => Sys2Proof.Machine.execCscatadd g t r d a b c s
  | .ccopy g dir mc w d a c => Sys2Proof.Machine.execCcopy g dir mc w d a c s
  | .cfill g glob w d a c => Sys2Proof.Machine.execCfill g glob w d a c s
  | .cstat g d => Sys2Proof.Machine.execCstat g d s
  | .cstatClr g d => Sys2Proof.Machine.execCstatClr g d s
  | .xgrp g slot a => Sys2Proof.Machine.execXgrp g slot a s
  | .xgrpEnd g slot => Sys2Proof.Machine.execXgrpEnd g slot s
  | .xgather g slot ioff cb a => Sys2Proof.Machine.execXgather g slot ioff cb a s
  | .xrscat g t slot ioff cb a => Sys2Proof.Machine.execXrscat g t slot ioff cb a s
  | .xa2a g slot ioff cb a => Sys2Proof.Machine.execXa2a g slot ioff cb a s
  | .xbar g slot => Sys2Proof.Machine.execXbar g slot s
  | .xwait g slot => Sys2Proof.Machine.execXwait g slot s
  | .rsplit g one d a b c => Sys2Proof.Machine.execRsplit g one d a b c s
  | .rmerge g d a b => Sys2Proof.Machine.execRmerge g d a b s
  | .rinval g all a b c => Sys2Proof.Machine.execRinval g all a b c s
  | .rprobe g d a b q => Sys2Proof.Machine.execRprobe g d a b q s
  | .rprobeS2 g d a b q => Sys2Proof.Machine.execRprobeS2 g d a b q s
  | .rcompact g d a b c => Sys2Proof.Machine.execRcompact g d a b c s
  | .netsave g d a b => Sys2Proof.Machine.execNetsave g d a b s
  | .netload g d a b => Sys2Proof.Machine.execNetload g d a b s
  | .netdrain g a => Sys2Proof.Machine.execNetdrain g a s
  | .netreset g a => Sys2Proof.Machine.execNetreset g a s
  | .hinfo g pc d => Sys2Proof.Machine.execHinfo g pc d s
  | .hget g d r => Sys2Proof.Machine.execHget g d r s
  | .hput g r a => Sys2Proof.Machine.execHput g r a s
  | .hresume g => Sys2Proof.Machine.execHresume g s
  | .hkill g => Sys2Proof.Machine.execHkill g s
  | .habort g => Sys2Proof.Machine.execHabort g s
  | .launch g d a b => Sys2Proof.Machine.execLaunch g d a b s
  | .cntcfg g d a b c => Sys2Proof.Machine.execCntcfg g d a b c s
  | .cntrd g d a => Sys2Proof.Machine.execCntrd g d a s
  | .sealset g d a b => Sys2Proof.Machine.execSealset g d a b s
  | .spanCensus b c => Sys2Proof.Machine.execSpanCensus b c s
  | .fetchLineLoad b c time => Sys2Proof.Machine.execFetchLineLoad b c time s
  | .laneUnpark b c l => Sys2Proof.Machine.execLaneUnpark b c l s
  | .operationPerform b c k posted picks => Sys2Proof.Machine.execOperationPerform b c k posted picks s
  | .drain b k => Sys2Proof.Machine.execDrain b k s
  | .waitcPoll b c l => Sys2Proof.Machine.execWaitcPoll b c l s
  | .regroupPair b c c2 => Sys2Proof.Machine.execRegroupPair b c c2 s
  | .regroupTimeout b c => Sys2Proof.Machine.execRegroupTimeout b c s
  | .crewPromote b c => Sys2Proof.Machine.execCrewPromote b c s
  | .localityScoreDecay core => Sys2Proof.Machine.execLocalityScoreDecay core s
  | .tokenNumberReturn net hops tok => Sys2Proof.Machine.execTokenNumberReturn net hops tok s
  | .networkDrained net => Sys2Proof.Machine.execNetworkDrained net s
  | .handlerCrewFormFull core => Sys2Proof.Machine.execHandlerCrewFormFull core s
  | .handlerCrewFormTimeout core => Sys2Proof.Machine.execHandlerCrewFormTimeout core s
  | .blockAbortStop b => Sys2Proof.Machine.execBlockAbortStop b s
  | .blockComplete b => Sys2Proof.Machine.execBlockComplete b s
  | .launchComplete launch => Sys2Proof.Machine.execLaunchComplete launch s
  | .launchListTake vf list => Sys2Proof.Machine.execLaunchListTake vf list s
  | .listHeadWake vf list => Sys2Proof.Machine.execListHeadWake vf list s
  | .blockPlace launch => Sys2Proof.Machine.execBlockPlace launch s
  | .groupPlace launch => Sys2Proof.Machine.execGroupPlace launch s
  | .copyPiece b k row piece ecc => Sys2Proof.Machine.execCopyPiece b k row piece ecc s
  | .copyMarker b k => Sys2Proof.Machine.execCopyMarker b k s
  | .matrixCmdExecute b => Sys2Proof.Machine.execMatrixCmdExecute b s
  | .matrixKstep b cached ecc => Sys2Proof.Machine.execMatrixKstep b cached ecc s
  | .collectiveDeliver op member order => Sys2Proof.Machine.execCollectiveDeliver op member order s
  | .collectiveOpComplete op member => Sys2Proof.Machine.execCollectiveOpComplete op member s
  | .collectiveTimeout b c l => Sys2Proof.Machine.execCollectiveTimeout b c l s
  | .collectiveFallback op => Sys2Proof.Machine.execCollectiveFallback op s
  | .fullerStart die => Sys2Proof.Machine.execFullerStart die s
  | .fullerGranuleMove die => Sys2Proof.Machine.execFullerGranuleMove die s
  | .sliceExpiry part => Sys2Proof.Machine.execSliceExpiry part s
  | .sliceEarlyEnd part => Sys2Proof.Machine.execSliceEarlyEnd part s
  | .partitionReset part => Sys2Proof.Machine.execPartitionReset part s
  | .partitionDrainComplete part => Sys2Proof.Machine.execPartitionDrainComplete part s
  | .hostSwitchAck part => Sys2Proof.Machine.execHostSwitchAck part s
  | .partitionRecordWrite part off data => Sys2Proof.Machine.execPartitionRecordWrite part off data s
  | .functionRecordWrite part vf off data => Sys2Proof.Machine.execFunctionRecordWrite part vf off data s
  | .denialConsumerWrite part c => Sys2Proof.Machine.execDenialConsumerWrite part c s
  | .registerWrite off v => Sys2Proof.Machine.execRegisterWrite off v s
  | .hostApertureWrite off data => Sys2Proof.Machine.execHostApertureWrite off data s
  | .hostApertureRead off n => Sys2Proof.Machine.execHostApertureRead off n s
  | .hostRecall line off data => Sys2Proof.Machine.execHostRecall line off data s
  | .hostTierResponse k => Sys2Proof.Machine.execHostTierResponse k s
  | .linkFlitReceive flit => Sys2Proof.Machine.execLinkFlitReceive flit s
  | .fabricFlitReceive port flit => Sys2Proof.Machine.execFabricFlitReceive port flit s
  | .fabricRouteWrite w => Sys2Proof.Machine.execFabricRouteWrite w s
  | .powerGood => Sys2Proof.Machine.execPowerGood s
  | .bootStageComplete r => Sys2Proof.Machine.execBootStageComplete r s
  | .adaptiveAdjust => Sys2Proof.Machine.execAdaptiveAdjust s
  | .plimSet watts => Sys2Proof.Machine.execPlimSet watts s
  | .powerLimitThrottle lower space => Sys2Proof.Machine.execPowerLimitThrottle lower space s
  | .thermalTrip => Sys2Proof.Machine.execThermalTrip s
  | .memoryRetrain channel => Sys2Proof.Machine.execMemoryRetrain channel s
  | .retrainRequest channel => Sys2Proof.Machine.execRetrainRequest channel s
  | .attestationReport nonce => Sys2Proof.Machine.execAttestationReport nonce s
  | .keySlotLoad slot key => Sys2Proof.Machine.execKeySlotLoad slot key s
  | .powerRemoved => Sys2Proof.Machine.execPowerRemoved s
  | .unassignedMajor w => Sys2Proof.Machine.execUnassignedMajor w s

end Sys2Proof.Machine
end

