-- ==== Sys2Proof/Machine/Turn.lean ====
section
/-! DEFINITION. One move of the machine (11_ordering R166; DESIGN CHOICE, log 1): the agenda, the instruction a crew issues next (04 R33,
05 R50, R69), and, when nothing is chosen, any move of the device's own that a free value picks. Also the state in which a
given instruction issues next. -/

namespace Sys2Proof.Machine

/-! ### Issue (R33, R69, R219-R222) -/

/-- The offset and instruction a crew issues next, when its quadrant's slot may go to it now (R219-R222; DESIGN CHOICE, log 1). -/
def State.nextInstr (s : State) (u ci : Nat) : Option (Word × Word × Instr) :=
  match s.crew? u ci with
  | none => none
  | some (b, c) =>
    match s.readyInstr b ci c with
    | some x => if s.mayChoose b c && !s.heldBack b.core c x.2.2 then some x else none
    | none => none

/-- The state in which a crew's instruction executes: it is the issuing crew, at that offset, with the lanes that join
there (R33). -/
def State.issueState (s : State) (u ci : Nat) (lab p : Word) : State :=
  { s.modCrew u ci (·.joinAt lab p) with cur := some (u, ci) }

/-! ### Moves -/

/-- The moves that need no READY: power, management and the status page (25_bringup R399-R407; DESIGN CHOICE, log 23). -/
def readyFree : Instr → Bool
  | .powerGood | .bootStageComplete _ | .plimSet _ | .thermalTrip | .retrainRequest _ | .attestationReport _
  | .keySlotLoad _ _ | .powerRemoved | .linkFlitReceive _ | .fabricFlitReceive _ _ | .fabricRouteWrite _
  | .hostApertureRead _ _ => true
  | .registerWrite off _ => decide (0x100100 ≤ off) && decide (off < 0x100180)
  | _ => false

/-- When the walks of a move may first have begun: those of an instruction or a fetch when its crew was first ready for it, those of an
engine's piece when its command was accepted or, of the matrix unit, issued, and all others as it is made (R318; DESIGN CHOICE,
log 34). -/
def State.walksFrom (s : State) (m : Move) : Nat :=
  let since : Option Nat := match m with
    | .issue u ci | .event (.fetchLineLoad u ci _) => (s.crew? u ci).bind (·.2.opened)
    | .event (.copyPiece u n _ _ _) => ((s.block? u).bind (·.ccmds[n]?)).map CCmd.home
    | .event (.matrixCmdExecute u) | .event (.matrixKstep u _ _) => ((s.block? u).bind (·.mcmds.head?)).map MCmd.home
    | .event (.collectiveDeliver op _ _) => (s.coll? op).map COp.home
    | .event _ => none
  since.getD s.now

/-- The machine as a move begins: with the home time that none of its walks is older than (R318; DESIGN CHOICE, log 34). -/
def State.opening (s : State) (m : Move) : State :=
  let closed := match m with
    | .issue u ci | .event (.fetchLineLoad u ci _) => s.modCrew u ci fun c => { c with opened := none }
    | .event _ => s
  { closed with walkFrom := s.walksFrom m }

/-- Makes a move: until READY is set, and after a trip, nothing but power, management and the status page moves (R400,
R401, R403). -/
def State.make (s : State) (m : Move) : Host.Outcome State Fault Refusal :=
  match m with
  | .issue u ci =>
    if !s.ready then .next s
    else match (s.opening m).nextInstr u ci with
      | some (lab, p, i) => exec i ((s.opening m).issueState u ci lab p)
      | none => .next s
  | .event i => if s.ready || readyFree i then exec i { s.opening m with cur := none } else .next s

/-- Whether a crew is ready to make the accesses of its next move: of an instruction, or of a fetch (R318). -/
def State.mayWalk (s : State) (b : Block) (ci : Nat) (c : Crew) : Bool :=
  (s.readyInstr b ci c).isSome || match c.seq with
    | .load .. => true
    | .visit lab pc => (match State.boundary b c lab pc with
        | .load _ => true
        | _ => false)
    | _ => false

/-- A crew as cycles pass up to `cyc`: one that is not ready, or that waits for results, begins its count of ready cycles anew (R222),
a crew that its lanes keep from pairing is tried from that cycle on (R223), and one that is ready for its next move may begin its walks
(R318). -/
def State.watchCrew (s : State) (b : Block) (cyc ci : Nat) (c : Crew) : Crew :=
  { c with
    since := if (s.readyInstr b ci c).isSome then max c.since (min c.busy cyc) else cyc
    regroup := c.regroup.map fun w => if c.lanes.any (fun l => l.parked || l.trapped) then { w with tried := cyc } else w
    opened := if s.mayWalk b ci c then some (c.opened.getD s.now) else none }

/-- A partition as cycles pass: since when its holder has been idle while another entry has work (R365). -/
def State.watchPart (s : State) (n : Nat) (p : Part) : Part :=
  { p with idleSince := if s.mayEndEarly n then some (p.idleSince.getD s.clk.toNat) else none }

/-- A function as cycles pass: the turn of a process none of whose blocks fits ends (R363). -/
def State.watchFunc (s : State) (vf : Nat) (f : Func) : Func := if s.turnOver vf then { f with placed := 255 } else f

/-- What the device keeps watch of while cycles pass (R222, R223, R363, R365). -/
def State.watch (s : State) (cyc : Nat) : State :=
  { s with
    blocks := s.blocks.map fun b => { b with crews := b.crews.mapIdx fun ci c => s.watchCrew b cyc ci c }
    parts := s.parts.mapIdx s.watchPart
    funcs := s.funcs.mapIdx s.watchFunc }

/-- How many of some cycles may pass before the next move: no crew is kept waiting, ready, for more than 2,048 (R222). -/
def State.mayPass (s : State) (cycles : Nat) : Nat :=
  if !s.ready then cycles
  else s.blocks.foldl (fun n b => b.crews.zipIdx.foldl (fun n c =>
    if (s.readyInstr b c.2 c.1).isSome then min n (max c.1.since c.1.busy + 2048 - s.cyc) else n) n) cycles

/-- Time passes before a move; `clk` counts while READY is set (05 R62, 06 R89). -/
def State.pass (s : State) (cycles refs : Nat) : State :=
  let cycles := s.mayPass cycles
  let s := if cycles = 0 ∧ refs = 0 then s else s.watch (s.cyc + cycles)
  { s with cyc := s.cyc + cycles, clk := if s.ready then s.clk + BitVec.ofNat 64 refs else s.clk }

/-- A dead device: a power-up stage failed, or a sensor tripped it (R400, R403; DESIGN CHOICE, log 23). -/
def State.dead (s : State) : Bool := s.err != 0 || s.tripped

/-! ### The device's own moves (R166; DESIGN CHOICE, log 1) -/

/-- Some free numbers, for the choices a move leaves open. -/
def frees (f : Nat → Nat) : List Nat := (List.range 64).map fun i => f (8 + i)

/-- The moves of one crew. -/
def Crew.turnMoves (b : Block) (ci : Nat) (c : Crew) (f : Nat → Nat) : List Move :=
  let e := Move.event
  [.issue b.uid ci, e (.spanCensus b.uid ci), e (.fetchLineLoad b.uid ci (f 0)), e (.regroupTimeout b.uid ci),
    e (.crewPromote b.uid ci)]
  ++ (List.range b.crews.length).map (fun d => e (.regroupPair b.uid ci d))
  ++ (List.range c.lanes.length).flatMap (fun l =>
      [e (.laneUnpark b.uid ci l), e (.waitcPoll b.uid ci l), e (.collectiveTimeout b.uid ci l)])
  ++ (List.range c.queue.length).map fun k => e (.operationPerform b.uid ci k false (frees f))

/-- The moves of one block: its crews', its drains, and its engines' (R338 and the chapters of 17). -/
def Block.moves (b : Block) (f : Nat → Nat) : List Move :=
  let e := Move.event
  (b.crews.zipIdx.flatMap fun c => c.1.turnMoves b c.2 f)
  ++ (List.range b.storeBuf.length).map (fun k => e (.drain b.uid k))
  ++ (List.range b.ccmds.length).flatMap (fun k =>
      [e (.copyPiece b.uid k (f 1) (f 2) false), e (.copyMarker b.uid k)])
  ++ [e (.matrixCmdExecute b.uid), e (.matrixKstep b.uid (frees f) []), e (.blockAbortStop b.uid), e (.blockComplete b.uid)]

/-- The free values that say how long ago the walks of a free turn read: for each of 37 probes, the directory's among them, one for the
probe and one for each of the four words of a descriptor (R318). -/
def freeLags : Nat := 5 * 37

/-- The moves of the device as a whole. -/
def State.moves (s : State) (f : Nat → Nat) : List Move :=
  let e := Move.event
  s.blocks.flatMap (·.moves f)
  ++ (List.range s.posted.length).map (fun k => e (.operationPerform 0 0 k true []))
  ++ (List.range Config.cores).flatMap (fun c =>
      [e (.localityScoreDecay c), e (.handlerCrewFormFull c), e (.handlerCrewFormTimeout c)])
  ++ s.nets.zipIdx.flatMap (fun n =>
      e (.networkDrained n.2) :: n.1.tokens.map fun t => e (.tokenNumberReturn n.2 (frees f) t.id))
  ++ s.launches.flatMap (fun l => [e (.launchComplete l.id), e (.blockPlace l.id), e (.groupPlace l.id)])
  ++ (List.range 64).flatMap (fun v => (List.range 8).flatMap fun j => [e (.launchListTake v j), e (.listHeadWake v j)])
  ++ s.colls.flatMap (fun c =>
      [e (.collectiveDeliver c.id (f 3) (frees f)), e (.collectiveOpComplete c.id c.group.self), e (.collectiveFallback c.id)])
  ++ (List.range 2).flatMap (fun d => [e (.fullerStart d), e (.fullerGranuleMove d)])
  ++ (List.range 16).flatMap (fun p => [e (.sliceExpiry p), e (.sliceEarlyEnd p), e (.partitionDrainComplete p)])
  ++ [e (.bootStageComplete .ok), e .adaptiveAdjust, e (.memoryRetrain (f 4)), e (.powerLimitThrottle (f 4 % 2 == 1) (f 5 % 2 == 1))]

/-- The turn the device takes when none has been chosen: free values pick the time that passes, one of its own moves, how late its
results are ready, and how long ago its walks read. -/
def State.freeTurn (s : State) : Turn :=
  let f := fun i => Config.freeNat (s.draws + i)
  let ms := s.moves f
  ⟨f 6, f 7, (ms[f 72 % ms.length]?).getD (.event .adaptiveAdjust), f 73,
    (List.range 37).map fun i => (f (74 + 5 * i), (List.range 4).map fun j => f (75 + 5 * i + j))⟩

/-- The free values a free turn takes. -/
def freeTurnDraws : Nat := 74 + freeLags

/-- The machine as a turn begins: with what the turn says of results and of walks; what the device keeps watch of in it, it walks for
then (DESIGN CHOICE, log 1, DESIGN CHOICE, log 34). -/
def State.inTurn (s : State) (t : Turn) : State := { s with late := t.late, lags := t.lags, walkFrom := s.now }

/-- One move: the next of the agenda, or, with none chosen, one that a free value picks; a dead device with nothing scheduled
has halted. -/
def State.turn (s : State) : Host.Outcome State Fault Refusal :=
  match s.agenda with
  | t :: r => State.make ((({ s with agenda := r } : State).inTurn t).pass t.cycles t.refs) t.move
  | [] =>
    if s.dead then .fault .halted
    else
      let t := s.freeTurn
      State.make ((({ s with draws := s.draws + freeTurnDraws } : State).inTurn t).pass t.cycles t.refs) t.move

/-! ### The state in which a given instruction comes next -/

/-- A line whose first slot holds an instruction of one or two words, and begins a span. -/
def fetchLine (a b : DWord) : Line :=
  ⟨0, [(1 : BitVec 4) ++ (0 : BitVec 44) ++ (1 : BitVec 1) ++ BitVec.ofNat 15 (if lengthOf a = 2 then 0x7FFD else 0x7FFF), a, b]⟩

/-- Two lanes of a crew in a visit of the span at offset 1. -/
def fetchLanes : List Lane :=
  (List.range 2).map fun i => { Lane.start 128 1 (BitVec.ofNat 32 i) 1 with act := true }

/-- A crew in the visit of a line's first span, about to issue its first instruction ahead of every other crew (R219, R222). -/
def fetchCrew (l : Line) : Crew :=
  { Crew.blank with promoted := true, role := 2, budget := 128, lanes := fetchLanes, seq := .visit 1 1, line := some l }

/-- A gathered lane with no origin, for a handler crew of this state. -/
def fetchHandled : HLane :=
  { cause := .residency, tag := 0, origin := none, fault := 0, off := 0, part := 0, time := 0, decided := false }

/-- A block with that one crew, of the level its instruction needs (R369). -/
def fetchBlock (uid : Nat) (l : Line) : Block :=
  let n := (l.instrAt 1).needs
  { Block.blank with
    uid := uid, launch := 1, level := n, nline := 1, crews := [fetchCrew l], scratchSize := 32768, units := [0]
    tiles := List.replicate 8 Tile.zero, hnd := if n = 4 then [fetchHandled, fetchHandled] else [] }

/-- READY, slot 0 keyed as stage 5 keys it (25_bringup R399), with a block whose only crew issues this instruction in the very
next move. -/
def State.fetchNext (s : State) (nbits w : Nat) : State :=
  let (a, b) := tableWords nbits w
  let x := fetchBlock s.nextUid (fetchLine a b)
  { s with
    power := true, stage := 6, ready := true, keys := (0, s.zeroKey) :: s.keys.filter fun k => k.1 != 0
    blocks := x :: s.blocks, nextUid := s.nextUid + 1
    agenda := [⟨0, 0, .issue s.nextUid 0, 0, []⟩] }

end Sys2Proof.Machine
end

