-- ==== Sys2Proof/Machine/Step.lean ====
section
/-! DEFINITION. One step of the machine, and the state in which a given instruction is the next one it runs. -/

namespace Sys2Proof.Machine

/-- One step: one move (11_ordering R166; DESIGN CHOICE, log 1). -/
def step (s : State) : Host.Outcome State Fault Refusal := s.turn

/-- The state with that instruction where the next step fetches: in the fetch slot of a crew that issues next (DESIGN CHOICE, log 1). -/
def State.withFetchWord (s : State) (nbits w : Nat) : State := s.fetchNext nbits w

end Sys2Proof.Machine
end

