-- ==== Sys2Proof/Safety.lean ====
section
/-! DEFINITION. The terms in which claims are stated: when an instruction issues, what a register instruction leaves
unchanged, the invariants of the machine. Nothing here is used by the machine. -/

namespace Sys2Proof.Machine

/-! ### Issue -/

/-- The instruction issues now (05_encoding R69): its crew is in a visit, it is legal there and permitted. -/
structure Issues (s : State) (k : Ctx) (i : Instr) : Prop where
  now : s.issuing = some k
  legal : i.legal k.b k.c = true
  permitted : i.permitted k.b = true

/-- The issuing crew once the instruction is counted among those it has issued: its results are ready after what its form takes, or
later (06_control_integer R104, 14_crews R222). -/
def Ctx.begun (k : Ctx) (s : State) (i : Instr) : Crew :=
  { k.c with
    ins := k.c.ins + 1, promoted := false, since := s.cyc
    busy := max k.c.busy (s.cyc + k.c.eighths * i.cost.1 + i.cost.2 + s.late)
    skid := if k.b.abort.isSome then k.c.skid + 1 else k.c.skid }

/-- The issuing crew after an instruction that leaves it these lanes and scalar registers: it stands at the boundary after the
instruction, and has issued one more (04_sweep R33). -/
def Ctx.stepped (k : Ctx) (s : State) (i : Instr) (lanes : List Lane) (sregs : List Word) : Crew :=
  { k.begun s i with
    lanes := lanes, s := sregs, seq := .visit k.lab (BitVec.ofNat 32 (slotAfter k.pc.toNat i.len)) }

/-- Apart from the blocks, nothing differs but counters of functions and the interrupt messages of counters that wrapped
(22_tenants R367). -/
structure SameDevice (s t : State) : Prop where
  same : { t with blocks := s.blocks, funcs := s.funcs, hostMsgs := s.hostMsgs } = s

/-- Every byte of home memory reads as before, at every home time and through every key slot. -/
def SameMemory (s t : State) : Prop := ∀ slot time a, t.readAt slot time a = s.readAt slot time a

/-- Only lines of the L2 differ, and the keys of quarters that lines of it were written back to, and of the requests to the host
which have been sent, as the bytes of a line in its memory leave the L2 (10_memory R159, 24_host_fabric R395). -/
structure OnlyL2 (s t : State) : Prop where
  same : { t with l2 := s.l2, qkeys := s.qkeys, hostReqs := s.hostReqs } = s

/-- An instruction of `k` changed its own crew alone: the crew is the one given, every byte of memory and of every scratchpad
reads as before, and so does everything else. -/
structure CrewBecomes (s t : State) (k : Ctx) (c : Crew) : Prop where
  device : SameDevice s t
  memory : SameMemory s t
  others : ∀ u, u ≠ k.b.uid → t.block? u = s.block? u
  block : t.block? k.b.uid = some { k.b with crews := k.b.crews.set k.ci c }

/-- An instruction leaves its crew these lanes and scalar registers, and changes nothing else. -/
def CrewStep (s t : State) (k : Ctx) (i : Instr) (lanes : List Lane) (sregs : List Word) : Prop :=
  CrewBecomes s t k (k.stepped s i lanes sregs)

/-- The result of a register instruction (R56, R92): for every state and operands that let it issue, it completes; each
guard-true active lane holds the value in its register or pair, or, with a scalar destination, the crew holds the value of
the lowest such lane, which alone draws random bits; nothing else changes. -/
def RegisterResult (i : Instr) (w64 : Bool) (d : Reg) (val : Crew → Lane → Val) : Prop :=
  ∀ s k, Issues s k i → ∃ t, exec i s = .next t ∧
    if d.isS then
      match k.c.takers i.guard with
      | [] => CrewStep s t k i k.c.lanes k.c.s
      | (j, l) :: _ =>
        CrewStep s t k i (k.c.lanes.modify j fun x => { x with rng := (val k.c l l.rng).2 })
          (if w64 then k.c.wrS64 d (val k.c l l.rng).1 else k.c.wrS d (bits (val k.c l l.rng).1 0 32)).s
    else CrewStep s t k i (k.c.lanes.map fun l => if l.takes i.guard then l.put w64 d (val k.c l) else l) k.c.s

/-- The same for an integer result of a type (R90, R91). -/
def IntegerResult (i : Instr) (t : Ty) (d : Reg) (val : Crew → Lane → Int) : Prop :=
  RegisterResult i t.is64 d fun c l => pureVal (putBits t (val c l))

/-- The result of an instruction that acts in each guard-true active lane by itself. -/
def LaneResult (i : Instr) (f : Crew → Nat → Lane → Lane) : Prop :=
  ∀ s k, Issues s k i → ∃ t, exec i s = .next t ∧
    CrewStep s t k i (k.c.lanes.mapIdx fun j l => if l.takes i.guard then f k.c j l else l) k.c.s

/-- A lane but for its rewind point (21_traps_preemption R340). -/
def Lane.noPoint (l : Lane) : Lane := { l with rwl := 0, rro := 0, kind := false, rngc := 0 }

/-- As `CrewStep`, for an instruction after which active lanes may pass an implicit rewind point (R341): the lanes are the ones
given but for their rewind points. -/
def ImplicitStep (s t : State) (k : Ctx) (i : Instr) (lanes : List Lane) : Prop :=
  ∃ ls : List Lane, ls.map Lane.noPoint = lanes.map Lane.noPoint ∧ CrewStep s t k i ls k.c.s

/-- The operations an instruction adds to its crew's issue queue, each with its lane (11_ordering R165). -/
def Ctx.ops (k : Ctx) (ws : List (Nat × OpKind)) : List Op := ws.map fun x => ⟨k.c.ins + 1, x.1, k.pc, k.lab, x.2⟩

/-- The context of an instruction once the matrix commands that it issues are open, those that write tiles (11_ordering R181). -/
def Ctx.opened (k : Ctx) (s : State) (i : Instr) (ws : List (Nat × OpKind)) : Ctx :=
  if i.written.isEmpty || ws.isEmpty then k
  else { k with b := { k.b with
    pending := ⟨k.ci, k.c.ins + 1, i.written, k.b.turns, s.now, k.b.spLog.length⟩ :: k.b.pending } }

/-- The instruction completes by adding these operations to its crew's queue, in this order; of the lanes only rewind points
may change, and nothing else changes, but that the commands of the matrix unit among them are open from now on. -/
def QueueStep (s t : State) (k : Ctx) (i : Instr) (ws : List (Nat × OpKind)) : Prop :=
  ∃ lanes : List Lane, lanes.map Lane.noPoint = k.c.lanes.map Lane.noPoint ∧
    CrewBecomes s t (k.opened s i ws) { k.stepped s i lanes k.c.s with queue := k.c.queue ++ k.ops ws }

/-- The instruction completes, wherever it issues and the condition holds, by adding operations to the queue. -/
def QueueResult (i : Instr) (ok : Ctx → Prop) (ws : Ctx → List (Nat × OpKind)) : Prop :=
  ∀ s k, Issues s k i → ok k → ∃ t, exec i s = .next t ∧ QueueStep s t k i (ws k)

/-- An engine or system instruction that acts once for the crew completes by queuing itself with the operand values that its
lowest guard-true active lane reads; with no such lane it does nothing (R56, R178, R371). -/
def EngineResult (i : Instr) (vals : Crew → Lane → List DWord) : Prop :=
  QueueResult i (fun _ => True) fun k => match k.c.takers i.guard with
    | [] => []
    | (j, l) :: _ => [(j, .instr i (vals k.c l))]

/-- The instruction completes, wherever it issues, with this effect on the state; then the crew stands after it. -/
def Completes (i : Instr) (effect : Ctx → State → State) : Prop :=
  ∀ s k, Issues s k i → exec i s = .next (((effect k (s.begun k i)).modCur k (·.advance k i.len)).countIssue k i)

/-! ### Observations -/

/-- A lane of a crew of a block. -/
def State.laneAt (s : State) (u ci j : Nat) : Option Lane :=
  match s.crew? u ci with
  | some (_, c) => c.lanes[j]?
  | none => none

/-- The issue queue of a crew. -/
def State.queueAt (s : State) (u ci : Nat) : List Op :=
  match s.crew? u ci with
  | some (_, c) => c.queue
  | none => []

/-- Two lanes that differ at most in being parked and in what for. -/
def SameButPark (a b : Lane) : Prop := { a with parked := b.parked, park := b.park } = b

/-- A trapped lane: it has left the active set to continue at `wl` and `ro`, and every register and flag of it is as before
(05_encoding R70). -/
structure TrappedAt (l l' : Lane) (wl ro : Word) : Prop where
  trapped : l'.trapped = true
  act : l'.act = false
  wl : l'.wl = wl
  ro : l'.ro = ro
  regs : l'.v = l.v ∧ l'.q = l.q
  rest : l'.link = l.link ∧ l'.spilled = l.spilled ∧ l'.rng = l.rng ∧ l'.oid = l.oid ∧ l'.done = l.done
    ∧ l'.rwl = l.rwl ∧ l'.rro = l.rro ∧ l'.kind = l.kind ∧ l'.rngc = l.rngc

/-- What a trap of a lane hands to the gathering of its core (21_traps_preemption R332, R334). -/
def Ctx.handed (k : Ctx) (j : Nat) (cause : Cause) (fault : DWord) (off : Word) (time : Nat) : Nat × HLane :=
  (k.b.core, { cause := cause, tag := k.tag cause j, origin := some ⟨k.b.uid, k.ci, j⟩, fault := fault, off := off,
               part := k.b.part, time := time, decided := false })

/-! ### Invariants -/

/-- Every memory of the device is in its canonical form: home memory, the scratchpads of its blocks and of its saved blocks. -/
def State.memoriesOk (s : State) : Bool :=
  memWf s.mem && (s.blocks.all fun b => memWf b.scratch) && s.launches.all fun l => l.saved.all fun b => memWf b.scratch

end Sys2Proof.Machine
end

