-- ==== Sys2Proof/Certificates/Slice0/Obligations.lean ====
section
/-! DEFINITION. The statements for the provers. Each docstring says which rule of spec/ the statement formalises; a statement
about a free value holds for every value of it. -/

open Sys2Proof Sys2Proof.Machine

/-! ### Register instructions (05_encoding R56, R69, R71; 06_control_integer R92-R103) -/

/-- MOV, MOVI, MOVH, ISEL and LEA complete wherever they issue, with the value of R93, R101 and R102 in every guard-true
active lane (or once for the crew), and change nothing else. MOVS and WANTC (R87, R89) complete wherever they issue: MOVS
writes the special register of each guard-true active lane, or, to a scalar register, what the lowest of them reads; with no
such lane it writes nothing. WANTC writes how many lanes, neither done nor trapped, want K. Nothing else changes. That clk reads
one count with no skew between cores is the model's choice (log 47). -/
def Obligations.MovesWriteTheirValue : Prop :=
  ((∀ g t d a, RegisterResult (.mov g t d a) t.is64 d fun c l => pureVal
    (if d.isQ then (if c.raw l t.is64 a = 0 then 0 else 1) else BitVec.ofNat 64 (c.raw l t.is64 a)))
  ∧ (∀ g d k, RegisterResult (.movi g .word d k) false d fun _ _ => pureVal (k.setWidth 64))
  ∧ (∀ g d k, RegisterResult (.movi g .i64 d k) true d fun _ _ => pureVal (k.signExtend 64))
  ∧ (∀ g d k, RegisterResult (.movi g .n64 d k) true d fun _ _ => pureVal (k.setWidth 64))
  ∧ (∀ g d a k, RegisterResult (.movh g d a k) true d fun c l => pureVal (k ++ c.rd l a))
  ∧ (∀ g t d a b q, RegisterResult (.isel g t d a b q) t.is64 d fun c l =>
      pureVal (BitVec.ofNat 64 (c.raw l t.is64 (if l.pred q then a else b))))
  ∧ (∀ g t sh d a b, RegisterResult (.lea g t sh d a b) true d fun c l =>
      pureVal (BitVec.ofInt 64 ((c.rd64 l a).toNat + c.iv l t b * 2 ^ sh.toNat))))
  ∧ ((∀ g d r s k, Issues s k (.movs g d r) → d.isS = false → ∃ t, exec (.movs g d r) s = .next t ∧
    CrewStep s t k (Instr.movs g d r) (k.c.lanes.mapIdx fun j l =>
      if l.takes g then l.put r.is64 d (pureVal (s.special k j l r)) else l) k.c.s)
  ∧ (∀ g d r s k, Issues s k (.movs g d r) → d.isS = true → ∃ t, exec (.movs g d r) s = .next t ∧
      CrewStep s t k (Instr.movs g d r) k.c.lanes (match k.c.takers g with
        | [] => k.c.s
        | (j, l) :: _ => (if r.is64 then k.c.wrS64 d (s.special k j l r) else k.c.wrS d (bits (s.special k j l r) 0 32)).s))
  ∧ (∀ g d x, RegisterResult (.wantc g d x) false d fun c _ =>
      pureVal (BitVec.ofNat 64 (c.lanes.countP fun l => !l.done && !l.trapped && l.wl == x))))

/-- The integer arithmetic of R94 and IDOT4 of R103: the exact result, wrapped or saturated once by `fit` (R91). -/
def Obligations.IntegerArithmetic : Prop :=
  (∀ g t sat d a b, IntegerResult (.iadd g t sat d a b) t d fun c l => fitTo t sat (c.iv l t a + c.iv l t b))
  ∧ (∀ g t sat d a b e, IntegerResult (.iadd3 g t sat d a b e) t d fun c l =>
      fitTo t sat (c.iv l t a + c.iv l t b + c.iv l t e))
  ∧ (∀ g t sat d a b, IntegerResult (.isub g t sat d a b) t d fun c l => fitTo t sat (c.iv l t a - c.iv l t b))
  ∧ (∀ g t sat d a b, IntegerResult (.imul g t sat d a b) t d fun c l => fitTo t sat (c.iv l t a * c.iv l t b))
  ∧ (∀ g t d a b, IntegerResult (.imulh g t d a b) t d fun c l => c.iv l t a * c.iv l t b / 2 ^ t.width)
  ∧ (∀ g t sat d a b e, IntegerResult (.imad g t sat d a b e) t d fun c l =>
      fitTo t sat (c.iv l t a * c.iv l t b + c.iv l t e))
  ∧ (∀ g t d a b, IntegerResult (.imin g t d a b) t d fun c l => min (c.iv l t a) (c.iv l t b))
  ∧ (∀ g t d a b, IntegerResult (.imax g t d a b) t d fun c l => max (c.iv l t a) (c.iv l t b))
  ∧ (∀ g t sat d a, IntegerResult (.iabs g t sat d a) t d fun c l => fitTo t sat |c.iv l t a|)
  ∧ (∀ g t sat d a, IntegerResult (.ineg g t sat d a) t d fun c l => fitTo t sat (-(c.iv l t a)))
  ∧ (∀ g t sat mixed d a b e, RegisterResult (.idot4 g t sat mixed d a b e) false d fun c l => pureVal (BitVec.ofInt 64
      (idot4Int (t == .i8) (xor (t == .i8) mixed) sat (c.rd l a) (c.rd l b) (c.rd l e))))

/-- The logic, shift, bit-field and count instructions of R96 to R99. -/
def Obligations.LogicAndShifts : Prop :=
  (∀ g t d a b, RegisterResult (.and g t d a b) t.is64 d fun c l =>
    pureVal (BitVec.ofNat 64 (c.raw l t.is64 a) &&& BitVec.ofNat 64 (c.raw l t.is64 b)))
  ∧ (∀ g t d a b, RegisterResult (.or g t d a b) t.is64 d fun c l =>
      pureVal (BitVec.ofNat 64 (c.raw l t.is64 a) ||| BitVec.ofNat 64 (c.raw l t.is64 b)))
  ∧ (∀ g t d a b, RegisterResult (.xor g t d a b) t.is64 d fun c l =>
      pureVal (BitVec.ofNat 64 (c.raw l t.is64 a) ^^^ BitVec.ofNat 64 (c.raw l t.is64 b)))
  ∧ (∀ g t d a b, RegisterResult (.andn g t d a b) t.is64 d fun c l =>
      pureVal (BitVec.ofNat 64 (c.raw l t.is64 a) &&& ~~~ BitVec.ofNat 64 (c.raw l t.is64 b)))
  ∧ (∀ g t d a b, RegisterResult (.shl g t d a b) t.is64 d fun c l =>
      pureVal (BitVec.ofNat 64 (shlBits (rawWidth t.is64) (c.raw l t.is64 a) (c.rd l b).toNat)))
  ∧ (∀ g t d a b, RegisterResult (.shr g t d a b) t.is64 d fun c l =>
      pureVal (BitVec.ofNat 64 (shrBits (rawWidth t.is64) (c.raw l t.is64 a) (c.rd l b).toNat)))
  ∧ (∀ g t d a b, IntegerResult (.sar g t d a b) t d fun c l => sarInt t.width (c.iv l t a) (c.rd l b).toNat)
  ∧ (∀ g t d a b, RegisterResult (.rot g t d a b) t.is64 d fun c l =>
      pureVal (BitVec.ofNat 64 (rotBits (rawWidth t.is64) (c.raw l t.is64 a) (c.rd l b).toNat)))
  ∧ (∀ g t d a b, IntegerResult (.bfx g t d a b) t d fun c l =>
      bfxInt t (rawWidth t.is64) (c.raw l t.is64 a) (c.rd l b))
  ∧ (∀ g t d a b e, RegisterResult (.bfi g t d a b e) t.is64 d fun c l =>
      pureVal (BitVec.ofNat 64 (bfiBits (rawWidth t.is64) (c.raw l t.is64 a) (c.raw l t.is64 b) (c.rd l e))))
  ∧ (∀ g t d a, RegisterResult (.popc g t d a) false d fun c l =>
      pureVal (BitVec.ofNat 64 (popcount (rawWidth t.is64) (c.raw l t.is64 a))))
  ∧ (∀ g t d a, RegisterResult (.clz g t d a) false d fun c l =>
      pureVal (BitVec.ofNat 64 (leadingZeros (rawWidth t.is64) (c.raw l t.is64 a))))
  ∧ (∀ g t d a, RegisterResult (.ctz g t d a) false d fun c l =>
      pureVal (BitVec.ofNat 64 (trailingZeros (rawWidth t.is64) (c.raw l t.is64 a))))
  ∧ (∀ g t d a, RegisterResult (.brev g t d a) t.is64 d fun c l =>
      pureVal (BitVec.ofNat 64 (reverseBits (rawWidth t.is64) (c.raw l t.is64 a))))

/-- ADDC and SUBB (R95): in each guard-true active lane the register holds the low 32 bits of the sum or difference with the
incoming carry or borrow, and predicate `q` whether it left the 32-bit range; a write of q0 is discarded (R61). ICMP and FCMP
(R100, R131): predicate `d` of each guard-true active lane holds the comparison, combined with predicate C as M[2:1] says; a
write of q0 is discarded, and nothing else changes. -/
def Obligations.CarriesAndCompares : Prop :=
  ((∀ g d a b q, LaneResult (.addc g d a b q) fun c _ l =>
    let n := (c.rd l a).toNat + (c.rd l b).toNat + (l.pred q).toNat
    (l.wr d (BitVec.ofNat 32 n)).setPred q (decide (2 ^ 32 ≤ n)))
  ∧ (∀ g d a b q, LaneResult (.subb g d a b q) fun c _ l =>
      let n : Int := (c.rd l a).toNat - (c.rd l b).toNat - (l.pred q).toNat
      (l.wr d (BitVec.ofInt 32 n)).setPred q (decide (n < 0))))
  ∧ ((∀ g t cond comb d a b q, LaneResult (.icmp g t cond comb d a b q) fun c _ l =>
    l.setPred d (Comb.eval comb (cond.eval (c.iv l t a) (c.iv l t b)) (c.rd l q == 1)))
  ∧ (∀ g t cond comb ftz d a b q, LaneResult (.fcmp g t cond comb ftz d a b q) fun c _ l =>
      l.setPred d (Comb.eval comb (fcond cond (dec t ftz (c.rd l a).toNat) (dec t ftz (c.rd l b).toNat)) (c.rd l q == 1))))

/-- The float instructions that round an exact sum or product once (R126, R127, R129, R133, R135). -/
def Obligations.FloatArithmetic : Prop :=
  (∀ g t rm sat x2 ftz d a b, RegisterResult (.fadd g t rm sat x2 ftz d a b) false d fun c l => elements x2 fun hi =>
    roundTo t rm sat ftz (sumTerms rm [dec t ftz (elem t hi (c.rd l a)), dec t ftz (elem t hi (c.rd l b))]))
  ∧ (∀ g t rm sat x2 ftz d a b, RegisterResult (.fsub g t rm sat x2 ftz d a b) false d fun c l => elements x2 fun hi =>
      roundTo t rm sat ftz (sumTerms rm [dec t ftz (elem t hi (c.rd l a)), (dec t ftz (elem t hi (c.rd l b))).neg]))
  ∧ (∀ g t rm sat x2 ftz d a b, RegisterResult (.fmul g t rm sat x2 ftz d a b) false d fun c l => elements x2 fun hi =>
      roundTo t rm sat ftz ((dec t ftz (elem t hi (c.rd l a))).mul (dec t ftz (elem t hi (c.rd l b)))))
  ∧ (∀ g t rm sat x2 ftz d a b e, RegisterResult (.ffma g t rm sat x2 ftz d a b e) false d fun c l => elements x2 fun hi =>
      roundTo t rm sat ftz (sumTerms rm
        [(dec t ftz (elem t hi (c.rd l a))).mul (dec t ftz (elem t hi (c.rd l b))), dec t ftz (elem t hi (c.rd l e))]))
  ∧ (∀ g t rm sat ftz d a b, RegisterResult (.fscale g t rm sat ftz d a b) false d fun c l r =>
      let y := roundTo t rm sat ftz
        (scaleBy (dec t ftz (c.rd l a).toNat) (max (-scaleCap) (min scaleCap (c.rd l b).toInt))) r
      (BitVec.ofNat 64 y.1, y.2))
  ∧ (∀ g t rm sat ftz d a b e, RegisterResult (.fdot2 g t rm sat ftz d a b e) false d fun c l r =>
      let p := fun hi => (dec t ftz (elem t hi (c.rd l a))).mul (dec t ftz (elem t hi (c.rd l b)))
      let y := roundTo .f32 rm sat ftz
        (sumTerms rm (if e.isNone then [p false, p true] else [p false, p true, dec .f32 ftz (c.rd l e).toNat])) r
      (BitVec.ofNat 64 y.1, y.2))

/-- FMIN, FMAX, FCLASS, FRND and the functions of one operand (R130, R132, R134, R136, R137). Which neighbour the faithfully
rounded ones return is a free value (log 4): this holds for each. -/
def Obligations.FloatFunctions : Prop :=
  (∀ g t x2 ftz d a b, RegisterResult (.fmin g t x2 ftz d a b) false d fun c l => elements x2 fun hi r =>
    (fminmax t ftz false (elem t hi (c.rd l a)) (elem t hi (c.rd l b)), r))
  ∧ (∀ g t x2 ftz d a b, RegisterResult (.fmax g t x2 ftz d a b) false d fun c l => elements x2 fun hi r =>
      (fminmax t ftz true (elem t hi (c.rd l a)) (elem t hi (c.rd l b)), r))
  ∧ (∀ g t d a, RegisterResult (.fclass g t d a) false d fun c l => pureVal (BitVec.ofNat 64 (fclassBits t (c.rd l a).toNat)))
  ∧ (∀ g t rm ftz d a, RegisterResult (.frnd g t rm ftz d a) false d fun c l r =>
      (BitVec.ofNat 64 (frndCode t rm ftz (c.rd l a).toNat r).1, (frndCode t rm ftz (c.rd l a).toNat r).2))
  ∧ (∀ g t rm sat ftz d a, RegisterResult (.frcp g t rm sat ftz d a) false d fun c l r =>
      let y := frcpCode t rm sat ftz (dec t ftz (c.rd l a).toNat) r
      (BitVec.ofNat 64 y.1, y.2))
  ∧ (∀ g t rm sat ftz d a, RegisterResult (.fsqrt g t rm sat ftz d a) false d fun c l r =>
      let y := fsqrtCode t rm sat ftz (dec t ftz (c.rd l a).toNat) r
      (BitVec.ofNat 64 y.1, y.2))
  ∧ (∀ g t sat ftz d a, RegisterResult (.frsq g t sat ftz d a) false d fun c l =>
      pureVal (BitVec.ofNat 64 (fnCode .rsq t sat ftz (c.rd l a).toNat)))
  ∧ (∀ g t sat ftz d a, RegisterResult (.fexp2 g t sat ftz d a) false d fun c l =>
      pureVal (BitVec.ofNat 64 (fnCode .exp2 t sat ftz (c.rd l a).toNat)))
  ∧ (∀ g t sat ftz d a, RegisterResult (.flog2 g t sat ftz d a) false d fun c l =>
      pureVal (BitVec.ofNat 64 (fnCode .log2 t sat ftz (c.rd l a).toNat)))
  ∧ (∀ g t sat ftz d a, RegisterResult (.fsin g t sat ftz d a) false d fun c l =>
      pureVal (BitVec.ofNat 64 (fnCode .sin t sat ftz (c.rd l a).toNat)))
  ∧ (∀ g t sat ftz d a, RegisterResult (.fcos g t sat ftz d a) false d fun c l =>
      pureVal (BitVec.ofNat 64 (fnCode .cos t sat ftz (c.rd l a).toNat)))
  ∧ (∀ g t sat ftz d a, RegisterResult (.ftanh g t sat ftz d a) false d fun c l =>
      pureVal (BitVec.ofNat 64 (fnCode .tanh t sat ftz (c.rd l a).toNat)))

/-- CVT, PACK and UNPACK (R139 to R143): a conversion, or with a scale word a block decode; PACK keeps the other bits of c. -/
def Obligations.Conversions : Prop :=
  (∀ g td ts rm sat ftz d a b, RegisterResult (.cvt g td ts rm sat ftz d a b) td.is64 d fun c l =>
    if b.isNone then convert td ts rm sat ftz (if ts.is64 then c.rd64 l a else (c.rd l a).setWidth 64)
    else blockDecode td ts rm ftz ((c.rd l a).toNat % 2 ^ ts.width) (c.rd l b))
  ∧ (∀ g td ts rm sat ftz n d a b e, RegisterResult (.pack g td ts rm sat ftz n d a b e) false d fun c l r =>
      let x := convert td ts rm sat ftz ((c.rd l a).setWidth 64) r
      let y := convert td ts rm sat ftz ((c.rd l b).setWidth 64) x.2
      let pos := 2 * n.toNat * td.width
      let old := (c.rd l e).toNat
      (BitVec.ofNat 64 (old - old / 2 ^ pos % 2 ^ (2 * td.width) * 2 ^ pos
        + (x.1.toNat % 2 ^ td.width + y.1.toNat % 2 ^ td.width * 2 ^ td.width) * 2 ^ pos), y.2))
  ∧ (∀ g td ts rm sat ftz n d a b, RegisterResult (.unpack g td ts rm sat ftz n d a b) false d fun c l =>
      let e := (c.rd l a).toNat / 2 ^ (n.toNat * ts.width) % 2 ^ ts.width
      if b.isNone then convert td ts rm sat ftz (BitVec.ofNat 64 e) else blockDecode td ts rm ftz e (c.rd l b))

/-! ### Control (04_sweep R40; 06_control_integer R78-R89) -/

/-- NOP (R80) completes and changes nothing but where the crew stands. GO and GOX (R78, R80): every guard-true active lane
leaves its span, wanting L or the value of r; its `ro` is zero. CALL and CALLX (R40, R81) complete wherever they issue, each
guard-true active lane in ascending slot pushing pc + W, or L, and wanting L, or the value of r. Where each such lane has room
among the labels held in hardware, only these lanes' stacks and places change. A lane with eight labels in hardware writes the
oldest to its link area, by the private store it makes for it, and then holds the new label and one more spilled. RET (R40,
R82) completes wherever it issues, each guard-true active lane in ascending slot popping its newest label and wanting it.
Where each such lane has a label in hardware and none spilled, only these lanes' stacks and places change. A lane with labels
spilled reads the newest of them back into hardware, by a private load, and then has one fewer spilled. A link stack that is
full, or empty, traps the lane of the call or return, which will issue it again (R40, R81, R82). GOT (R83) completes wherever
it issues, each guard-true active lane in ascending slot: an operand at or beyond N leaves for pc + W; below it, the lane
reads its table entry as it stood when the launch was taken, or since its address got a new backing, and leaves for it; a read
that faults traps the lane or parks it, and a denied one gives 0, its own seal's denial before any line is filled. The GOT clause
reads its entry as the table was when the launch was taken, or since its address got a new backing: the latter is the model's
reading (log 36). That a denial under the entry's own seal gives 0 before any line is filled is its choice (log 15). -/
def Obligations.ControlMovesTheLanes : Prop :=
  (∀ s k g, Issues s k (.nop g) → ∃ t, exec (.nop g) s = .next t ∧ CrewStep s t k (Instr.nop g) k.c.lanes k.c.s)
  ∧ ((∀ g x, LaneResult (.go g x) fun _ _ l => { l with wl := x, ro := 0, act := false })
  ∧ (∀ g r, LaneResult (.gox g r) fun c _ l => { l with wl := c.rd l r, ro := 0, act := false }))
  ∧ ((∀ g w x, Completes (.call g w x) fun k s => s.forLanes (k.c.takers g) fun s j l => s.call k j l x (k.pc + w.signExtend 32))
  ∧ (∀ g r x, Completes (.callx g r x) fun k s => s.forLanes (k.c.takers g) fun s j l => s.call k j l (k.c.rd l r) x)
  ∧ (∀ g w x s k, Issues s k (.call g w x) → (∀ p ∈ k.c.takers g, p.2.link.length < 8 ∧ p.2.depth < 264) →
    ∃ t, exec (.call g w x) s = .next t ∧ CrewStep s t k (Instr.call g w x) (k.c.lanes.map fun l =>
      if l.takes g then { l with link := (k.pc + w.signExtend 32) :: l.link, wl := x, ro := 0, act := false } else l) k.c.s)
  ∧ (∀ g r x s k, Issues s k (.callx g r x) → (∀ p ∈ k.c.takers g, p.2.link.length < 8 ∧ p.2.depth < 264) →
    ∃ t, exec (.callx g r x) s = .next t ∧ CrewStep s t k (Instr.callx g r x) (k.c.lanes.map fun l =>
      if l.takes g then { l with link := x :: l.link, wl := k.c.rd l r, ro := 0, act := false } else l) k.c.s)
  ∧ (∀ (s : State) k j (l : Lane) target ret s' ps, l.depth ≠ 264 → 8 ≤ l.link.length →
    s.checkGlobal k (k.b.privVa l (4 * l.spilled)) 4 .write = (s', .pass ps) → s.call k j l target ret =
      (s'.storePieces k j .none (piecesOf (k.b.privVa l (4 * l.spilled)) (l.link.getLast?.getD 0).toNat ps)).modLane k.b.uid k.ci j
        fun m => { m with link := ret :: m.link.dropLast, spilled := m.spilled + 1, wl := target, ro := 0, act := false }))
  ∧ ((∀ g, Completes (.ret g) fun k s => s.forLanes (k.c.takers g) fun s j l => s.ret k j l)
  ∧ (∀ g s k, Issues s k (.ret g) → (∀ p ∈ k.c.takers g, p.2.link ≠ [] ∧ p.2.spilled = 0) →
    ∃ t, exec (.ret g) s = .next t ∧ CrewStep s t k (Instr.ret g) (k.c.lanes.map fun l =>
      if l.takes g then { l with link := l.link.tail, wl := l.link.headD 0, ro := 0, act := false } else l) k.c.s)
  ∧ (∀ (s : State) k j (l : Lane) top rest s' ps, l.link = top :: rest → l.spilled ≠ 0 →
    s.checkGlobal k (k.b.privVa l (4 * (l.spilled - 1))) 4 .read = (s', .pass ps) → s.ret k j l =
      (s'.refill k j l ps).1.modLane k.b.uid k.ci j fun m =>
        { m with link := rest ++ [(s'.refill k j l ps).2], spilled := m.spilled - 1, wl := top, ro := 0, act := false }))
  ∧ ((∀ (s : State) k j (l : Lane) target ret, l.depth = 264 →
    s.call k j l target ret = s.trapAgain k j .linkOverflow (BitVec.ofNat 64 (k.b.privVa l 0)))
  ∧ (∀ (s : State) k j (l : Lane), l.link = [] → s.ret k j l = s.trapAgain k j .linkUnderflow 0))
  ∧ (∀ g r tbl n w, Completes (.got g r tbl n w) fun k s => s.forLanes (k.c.takers g) fun s i l =>
    let x := (k.c.rd l r).toNat
    let va := k.b.code + 4 * tbl.toNat + 4 * x
    if n.toNat ≤ x then s.modLane k.b.uid k.ci i (·.leave (k.pc + w.signExtend 32))
    else match s.translate k.b.core (some k.c.quad) k.b.asid va 4 .exec with
      | (s, .ok p) =>
        let denied := fun (s : State) (tag : Option Nat) =>
          (s.denial k.b.part k.b.vf va l.oid k.b.launch (.lane k.b.core) false tag.isSome (tag.getD p.sealId)).modLane k.b.uid k.ci i
            (·.leave 0)
        if s.cleared k.b.part k.b.clr p.sealId = false then denied s none
        else
          let (s, tag, view) := s.passCaches k.b k.ci (pieceOf va 4 p) ((List.range 4).map (p.home + ·)) false false .none
          if tag.isSome then denied s tag
          else s.modLane k.b.uid k.ci i (·.leave (BitVec.ofNat 32
            (leNat ((List.range 4).map fun j => s.readView view p.key (s.codeFrom k.b va p.home) (p.home + j)))))
      | (s, .fault c) => s.trapAgain k i c (BitVec.ofNat 64 va)
      | (s, .park p) => (s.askResidency k.b k.ci i va k.pc p).parkAgain k i p)

/-- DONE (R85, R335) completes wherever it issues: every guard-true active lane is done and no longer active, a lane of a handler
crew that has passed no verdict ends its origin, and the barriers are looked at again. In a block that is no handler crew no
other lane becomes done, no lane loses a register, and no byte of memory changes. -/
def Obligations.DoneFinishesItsLanes : Prop :=
  (∀ g, Completes (.done g) fun k s =>
    ((s.modCur k fun c => { c with lanes := c.lanes.map fun l => if l.takes g then { l with done := true, act := false } else l }).forLanes
      (k.c.takers g) fun s j _ => s.passVerdict k.b.uid j .none).settle k.b.uid)
  ∧ ∀ g s k, Issues s k (.done g) → k.b.hnd = [] → ∃ t, exec (.done g) s = .next t ∧ SameMemory s t ∧
    ∀ j l, k.c.lanes[j]? = some l → ∃ l', t.laneAt k.b.uid k.ci j = some l' ∧
      SameButPark (if l.takes g then { l with done := true, act := false } else l) l'

/-- TRAP and BRK (R70, R86) complete wherever they issue: every guard-true active lane, in ascending slot, takes the exception with
k as its fault address and the instruction's code offset; a resumed lane goes on after the instruction. In a block that is no
handler crew each of these lanes is trapped there with its registers as they were and is handed to its core's gathering; every
other lane of the crew is as before, but that a barrier may let it go; no byte of memory changes. -/
def Obligations.TrapsTakeTheirException : Prop :=
  (∀ g x, Completes (.trap g x) fun k s => s.forLanes (k.c.takers g) fun s j l =>
    s.trapLane k j .trapInstr (x.setWidth 64) k.pc (s.after k (Instr.trap g x).len l.wl).1 (s.after k (Instr.trap g x).len l.wl).2)
  ∧ (∀ g x, Completes (.brk g x) fun k s => s.forLanes (k.c.takers g) fun s j l =>
    s.trapLane k j .breakpoint (x.setWidth 64) k.pc (s.after k (Instr.brk g x).len l.wl).1 (s.after k (Instr.brk g x).len l.wl).2)
  ∧ ∀ i x cause s k, ((∃ g, i = Instr.trap g x) ∧ cause = .trapInstr) ∨ ((∃ g, i = Instr.brk g x) ∧ cause = .breakpoint) →
    Issues s k i → k.b.hnd = [] → ∃ t, exec i s = .next t ∧ SameMemory s t
      ∧ t.gathered = s.gathered ++ (k.c.takers i.guard).map (fun p => k.handed p.1 cause (x.setWidth 64) k.pc s.cyc)
      ∧ ∀ j l, k.c.lanes[j]? = some l → ∃ l', t.laneAt k.b.uid k.ci j = some l' ∧
          if l.takes i.guard then TrappedAt l l' (s.after k i.len l.wl).1 (s.after k i.len l.wl).2 else SameButPark l l'

/-- Taking an exception (R70, R77, R332, R334, R337). In a block that is no handler crew the lane is trapped and no longer
active, continues at the `wl` and `ro` given, and keeps every register; cause, tag, origin, fault address and code offset are
handed to its core's gathering; every other lane is as before, but that a barrier may let it go; no byte of memory changes. A
lane of a handler crew becomes done and is not gathered: what is gathered stays as it was. -/
def Obligations.ExceptionEntry : Prop :=
  (∀ (s : State) k j l cause fault off wl ro, k.b.hnd = [] → s.laneAt k.b.uid k.ci j = some l →
    (∃ l', (s.trapLane k j cause fault off wl ro).laneAt k.b.uid k.ci j = some l' ∧ TrappedAt l l' wl ro)
    ∧ (s.trapLane k j cause fault off wl ro).gathered = s.gathered ++ [k.handed j cause fault off s.cyc]
    ∧ SameMemory s (s.trapLane k j cause fault off wl ro)
    ∧ ∀ u ci i m, ¬ (u = k.b.uid ∧ ci = k.ci ∧ i = j) → s.laneAt u ci i = some m →
        ∃ m', (s.trapLane k j cause fault off wl ro).laneAt u ci i = some m' ∧ SameButPark m m')
  ∧ (∀ (s : State) k j cause fault off wl ro, k.b.hnd ≠ [] → s.trapLane k j cause fault off wl ro =
      (s.modLane k.b.uid k.ci j fun l => { l with done := true, act := false, wl := wl, ro := ro }).passVerdict k.b.uid j .none)
  ∧ ∀ (s : State) k j cause fault off wl ro, k.b.hnd ≠ [] → (s.trapLane k j cause fault off wl ro).gathered = s.gathered

/-- An instruction that is not legal (R68, R69) has no effect of its own, whatever instruction it is: every active lane,
whatever its guard, takes an illegal-instruction exception at the instruction, and the crew, whose count of ready cycles
begins anew, stands after it. In a block that is no handler crew each of these lanes is trapped, to issue the instruction
again, and no byte of memory changes. An instruction of a higher level than its block's (R69, R369) has no effect of its own,
whatever instruction it is: every active lane takes a privilege exception at the instruction, in the same way. A word with an
unassigned major (R68) is never legal: every active lane takes an illegal-instruction exception. -/
def Obligations.InstructionsThatMayNotRunTrap : Prop :=
  (∀ i s k, i.isEvent = false → s.issuing = some k → i.legal k.b k.c = false →
    ∃ t, exec i s = .next t ∧ t = ((s.noteIssue k i).trapActive k .illegal).modCur k (·.advance k i.len)
      ∧ (k.b.hnd = [] → SameMemory s t
      ∧ (∀ j l, k.c.lanes[j]? = some l → l.act = true →
          ∃ l', t.laneAt k.b.uid k.ci j = some l' ∧ TrappedAt l l' l.wl k.again)
      ∧ t.gathered = s.gathered ++ (k.c.slots.filter (·.2.act)).map fun p =>
          k.handed p.1 .illegal (k.b.codeVa k.pc) k.pc s.cyc))
  ∧ (∀ i s k, i.isEvent = false → s.issuing = some k → i.legal k.b k.c = true → i.permitted k.b = false →
    ∃ t, exec i s = .next t ∧ t = ((s.noteIssue k i).trapActive k .privilege).modCur k (·.advance k i.len)
      ∧ (k.b.hnd = [] → SameMemory s t
      ∧ (∀ j l, k.c.lanes[j]? = some l → l.act = true →
          ∃ l', t.laneAt k.b.uid k.ci j = some l' ∧ TrappedAt l l' l.wl k.again)
      ∧ t.gathered = s.gathered ++ (k.c.slots.filter (·.2.act)).map fun p =>
          k.handed p.1 .privilege (k.b.codeVa k.pc) k.pc s.cyc))
  ∧ (∀ w s k, s.issuing = some k → (Instr.unassignedMajor w).legal k.b k.c = false
    ∧ exec (.unassignedMajor w) s = .next
      (((s.noteIssue k (.unassignedMajor w)).trapActive k .illegal).modCur k (·.advance k (Instr.unassignedMajor w).len)))

/-- PREFI.ic, PREFI.l2, PINI and UNPINI (R48, R88) complete wherever they issue, once for the crew when some active lane's guard is
true, over the lines named: PREFI.ic brings each into the core's instruction cache, PREFI.l2 into the L2, unless its fetch would
fault or be denied; PINI pins each for the launch; UNPINI releases the launch's pins on them. A line whose fetch would fault, and a
new one when 128 are pinned on the core, PINI leaves unpinned; any other it pins, one whose fill its seal denies without the fill.
A line brought in serves the crew's fetches. Which line a full instruction cache gives up is free; that PINI pins a line whose
seal denies its fill without filling it, and that PREFI passes over a denied line, is the model's choice (log 15), and which bytes
the instruction cache holds after an edit or a move of a range its reading (log 36). -/
def Obligations.CodeLinesArePinned : Prop :=
  (∀ g n line, Completes (.prefiIc g n line) (once g fun k s => (k.namedLines n line).foldl (fun s i => s.requestLine k.b i) s))
  ∧ (∀ g n line, Completes (.prefiL2 g n line) (once g fun k s => (k.namedLines n line).foldl (fun s i =>
      match s.lineX k.b i with
      | some x => if (s.denies k.b.part k.b.clr (pieceOf 0 128 x)).isSome then s else s.l2Read k.b.vf k.b.core (pieceOf 0 128 x)
      | none => s) s))
  ∧ (∀ g n line, Completes (.pini g n line) (once g fun k s => (k.namedLines n line).foldl (fun s i => s.pinLine k.b i) s))
  ∧ (∀ g n line, Completes (.unpini g n line) (once g fun k s =>
      { s with pins := s.pins.filter fun p => !(p.1 == k.b.core && p.2.1 == k.b.launch && (k.namedLines n line).contains p.2.2.1) }))
  ∧ (∀ (s : State) b n, s.lineX b n = none → s.pinLine b n = s ∧ s.requestLine b n = s)
  ∧ (∀ (s : State) b n x, s.lineX b n = some x → 128 ≤ (s.pinned b.core).length → x.home / 128 ∉ s.pinned b.core → s.pinLine b n = s)
  ∧ (∀ (s : State) b n x, s.lineX b n = some x → (x.home / 128 ∈ s.pinned b.core ∨ (s.pinned b.core).length < 128) →
      ∃ p ∈ (s.pinLine b n).pins, p.1 = b.core ∧ p.2.1 = b.launch ∧ p.2.2.1 = n)
  ∧ (∀ (s : State) b n x, s.lineX b n = some x → s.denies b.part b.clr (pieceOf 0 128 x) = none →
      (s.icache.filter fun l => l.core == b.core).length < 256 → s.codeFrom b (b.code + 128 * n) x.home ≤ s.now →
      ∃ l ∈ (s.requestLine b n).icache, l.core = b.core ∧ l.line = x.home / 256 ∧ l.key = x.key
        ∧ s.codeFrom b (b.code + 128 * n) x.home ≤ l.time)
  ∧ (∀ (s : State) b n x, s.lineX b n = some x → (s.denies b.part b.clr (pieceOf 0 128 x)).isSome = true → s.requestLine b n = s)

/-! ### Handler instructions and verdicts (21_traps_preemption R335-R338; 23_system_instructions R382-R384) -/

/-- HINFO and HGET (R382, R383) complete wherever they issue. In each guard-true active lane HINFO writes the fault address, or the
code offset, of the lane that the handler lane stands for, and HGET a register of its origin, or zero where it has no origin to
reach; these lanes then pass the implicit rewind point after the instruction, and nothing else changes. A register of the origin reads as
R383's table says: a vector register beyond the crew's budget as 0, a special register as MOVS would read it there. That HINFO
goes on reading after the verdict is the model's choice (log 20). -/
def Obligations.HandlerReads : Prop :=
  (∀ g pc d s k, Issues s k (.hinfo g pc d) → ∃ t, exec (.hinfo g pc d) s = .next t ∧
    CrewStep s t k (Instr.hinfo g pc d) (k.c.lanes.mapIdx fun j l => if l.takes g then
      (match k.b.hnd[j]? with
      | some h => if pc then l.wr d h.off else l.wr64 d h.fault
      | none => l).implicitPoint (s.after k 1 l.wl)
      else l) k.c.s)
  ∧ (∀ g d r s k, Issues s k (.hget g d r) → ∃ t, exec (.hget g d r) s = .next t ∧
      CrewStep s t k (Instr.hget g d r) (k.c.lanes.mapIdx fun j l => if l.takes g then
        (l.wr d (match (s.begun k (.hget g d r)).originOf k j with
          | some (b, cr, x, o) => (s.begun k (.hget g d r)).originReg b cr x o r
          | none => 0)).implicitPoint (s.after k 1 l.wl)
        else l) k.c.s)
  ∧ (∀ (s : State) b c l o,
      (∀ n : BitVec 7, n.toNat < c.budget → s.originReg b c l o (.v n) = regAt l.v n.toNat)
      ∧ (∀ n : BitVec 7, c.budget ≤ n.toNat → s.originReg b c l o (.v n) = 0)
      ∧ (∀ n, s.originReg b c l o (.s n) = regAt c.s n.toNat)
      ∧ (∀ n, s.originReg b c l o (.q n) = if l.pred n then 1 else 0)
      ∧ s.originReg b c l o (.sp .wl) = l.wl ∧ s.originReg b c l o (.sp .ro) = l.ro ∧ s.originReg b c l o (.sp .rng) = l.rng
      ∧ s.originReg b c l o (.sp .lid) = BitVec.ofNat 32 o.lane ∧ s.originReg b c l o (.sp .oid) = l.oid
      ∧ s.originReg b c l o (.sp .cid) = BitVec.ofNat 32 c.cid ∧ s.originReg b c l o (.sp .bid) = BitVec.ofNat 32 b.bid
      ∧ s.originReg b c l o (.sp .swc) = c.swc ∧ s.originReg b c l o (.sp .lnch) = b.launch
      ∧ s.originReg b c l o (.sp .core) = BitVec.ofNat 32 b.core ∧ s.originReg b c l o (.sp .clid) = BitVec.ofNat 32 (b.core / 4)
      ∧ s.originReg b c l o (.sp .part) = BitVec.ofNat 32 b.part)

/-- HPUT, HRESUME, HKILL and HABORT (R383, R384) complete wherever they issue, acting for each guard-true active lane in ascending
slot, HPUT on the register of its origin, the others by their verdict; these lanes then pass the implicit rewind point after the
instruction. HPUT writes what R383's table lets it write, and no other register: a vector register within the crew's budget, a scalar
register of the crew, a predicate other than q0, wl, ro, and rng with its rewind copy. A first verdict of a handler lane is marked as
passed, and is the verdict on its origin; one in a lane that has none does nothing. -/
def Obligations.HandlerActs : Prop :=
  (∀ g r a, Completes (.hput g r a) fun k s => (s.forLanes (k.c.takers g) fun s j l => match s.originOf k j with
      | some (_, c, _, o) => s.putOriginReg o c.budget r (k.c.rd l a)
      | none => s).passImplicit k g 1)
  ∧ (∀ g, Completes (.hresume g) fun k s =>
      (s.forLanes (k.c.takers g) fun s j _ => s.passVerdict k.b.uid j .resume).passImplicit k g 1)
  ∧ (∀ g, Completes (.hkill g) fun k s =>
      (s.forLanes (k.c.takers g) fun s j _ => s.passVerdict k.b.uid j .kill).passImplicit k g 1)
  ∧ (∀ g, Completes (.habort g) fun k s =>
      (s.forLanes (k.c.takers g) fun s j _ => s.passVerdict k.b.uid j .abort).passImplicit k g 1)
  ∧ (∀ (s : State) o b c l budget r x, s.crew? o.blk o.crew = some (b, c) → c.lanes[o.lane]? = some l → ∃ b' c',
      (s.putOriginReg o budget r x).crew? o.blk o.crew = some (b', c') ∧ SameMemory s (s.putOriginReg o budget r x)
      ∧ (∀ u ci j m, ¬ (u = o.blk ∧ ci = o.crew ∧ j = o.lane) → s.laneAt u ci j = some m →
          (s.putOriginReg o budget r x).laneAt u ci j = some m)
      ∧ c'.s = (match r with
        | .s n => c.s.set n.toNat x
        | _ => c.s)
      ∧ c'.lanes[o.lane]? = some (match r with
        | .v n => if n.toNat < budget then { l with v := l.v.set n.toNat x } else l
        | .q n => l.setPred n (x.getLsbD 0)
        | .sp .wl => { l with wl := x }
        | .sp .ro => { l with ro := x }
        | .sp .rng => { l with rng := x, rngc := x }
        | _ => l))
  ∧ (∀ (s : State) u j v b h, s.block? u = some b → b.hnd[j]? = some h → h.decided = false →
      s.passVerdict u j v =
        (s.modBlock u fun b => { b with hnd := b.hnd.modify j fun h => { h with decided := true } }).verdict h v)
  ∧ (∀ (s : State) u j v b, s.block? u = some b → b.hnd[j]? = none → s.passVerdict u j v = s)

/-- Return from an exception (R335, R338): the first verdict of a handler lane acts on its origin. A resumed lane of a block that
is not aborted goes on as it was trapped, no longer trapped; a killed one is done; in an aborted block a resume kills. Only the
origin's lane changes, but for lanes that a barrier lets go, and no byte of memory does. A second verdict, and one about a report
or request that is no abort, change no lane. An abort verdict, of a trap, a report or a request, makes a block that is not aborted aborted
by its origin, with the crews that are live noted for its error record and no instruction counted past it; a trapped lane of it is
done; an aborted block it does not abort again. -/
def Obligations.VerdictsReturn : Prop :=
  (∀ (s : State) h v o b c l, h.origin = some o → h.cause.isTrap = true → v ≠ .abort → s.block? o.blk = some b →
    b.crews[o.crew]? = some c → c.lanes[o.lane]? = some l →
    SameMemory s (s.verdict h v)
    ∧ (∃ l', (s.verdict h v).laneAt o.blk o.crew o.lane = some l' ∧ SameButPark
        (if v = .resume ∧ b.abort = none then { l with trapped := false, resumed := true }
          else { l with done := true, trapped := false, act := false }) l')
    ∧ ∀ u ci i m, ¬ (u = o.blk ∧ ci = o.crew ∧ i = o.lane) → s.laneAt u ci i = some m →
        ∃ m', (s.verdict h v).laneAt u ci i = some m' ∧ SameButPark m m')
  ∧ (∀ (s : State) h v, v ≠ .abort → h.cause.isTrap = false → SameMemory s (s.verdict h v) ∧
      ∀ u ci i m, s.laneAt u ci i = some m → ∃ m', (s.verdict h v).laneAt u ci i = some m' ∧ SameButPark m m')
  ∧ (∀ (s : State) u j v b h, s.block? u = some b → b.hnd[j]? = some h → h.decided = true → s.passVerdict u j v = s)
  ∧ (∀ (s : State) h o b, h.origin = some o → s.block? o.blk = some b → ∃ b', (s.verdict h .abort).block? o.blk = some b'
      ∧ SameMemory s (s.verdict h .abort) ∧ b'.crews.length = b.crews.length
      ∧ (∀ x, b.abort = some x → b'.abort = some x ∧ b'.errs = b.errs)
      ∧ (b.abort = none → b'.abort = some (h.tag, o) ∧ b'.errs = (b.crews.filter (·.live)).map (fun c => (c.cid, 0, 0))
          ∧ ∀ c ∈ b'.crews, c.skid = 0)
      ∧ (h.cause.isTrap = true → ∀ c l, b.crews[o.crew]? = some c → c.lanes[o.lane]? = some l → ∃ l',
          (s.verdict h .abort).laneAt o.blk o.crew o.lane = some l'
          ∧ SameButPark { l with done := true, trapped := false, act := false } l'))

/-! ### Crew-wide instructions (07_number_formats R121, R122; 14_crews; 15_crew_instructions) -/

/-- VOTE, BALLOT, SHFL and MATCH (R239 to R242). Bit j of a ballot is set exactly when slot j takes part with a true
predicate. A shuffle from a slot that takes no part gives the lane its own value. A match gives the lowest participant of the
same value. SCAN and REDUCE (R121, R122, R243, R244): integers exactly over the participants before (and at) each slot, fitted
once; floats by the fixed tree. An integer sum is the exact sum, fitted once; with no participant the result is the identity. -/
def Obligations.VotesScansAndShuffles : Prop :=
  ((∀ g m d q, RegisterResult (.vote g m d q) false d fun c _ => pureVal (if (match m with
      | .all => (c.takers g).all fun p => p.2.pred q
      | .any => (c.takers g).any fun p => p.2.pred q
      | .uni => (c.takers g).all (fun p => p.2.pred q) || (c.takers g).all fun p => !p.2.pred q) then 1 else 0))
  ∧ (∀ g d q s k, Issues s k (.ballot g d q) → ∃ t, exec (.ballot g d q) s = .next t ∧
      CrewStep s t k (Instr.ballot g d q) k.c.lanes (if (k.c.takers g).isEmpty then k.c.s else
        ((((k.c.wrS d (bits (k.c.ballot g q) 0 32)).wrS (d.plus 1) (bits (k.c.ballot g q) 32 32)).wrS (d.plus 2)
          (bits (k.c.ballot g q) 64 32)).wrS (d.plus 3) (bits (k.c.ballot g q) 96 32)).s))
  ∧ (∀ (c : Crew) g q j, j < 128 → ((c.ballot g q).getLsbD j = true ↔ ∃ l, c.lanes[j]? = some l ∧ l.takes g = true ∧ l.pred q = true))
  ∧ (∀ g m t d a b, LaneResult (.shfl g m t d a b) fun c j l =>
      let n := ShflMode.slot m j (c.rd l b).toNat
      l.put t.is64 d (pureVal (match (if 0 ≤ n then c.lanes[n.toNat]? else none) with
        | some x => if x.takes g then c.rdT x t.is64 a else c.rdT l t.is64 a
        | none => c.rdT l t.is64 a)))
  ∧ (∀ g t d a q, LaneResult (.matchI g t d a q) fun c j l =>
      let n := ((c.takers g).find? fun p => c.rdT p.2 t.is64 a == c.rdT l t.is64 a).elim j (·.1)
      (l.wr d (BitVec.ofNat 32 n)).wr q (if n = j then 1 else 0)))
  ∧ ((∀ g op t rm sat excl ftz d a, LaneResult (.scan g op t rm sat excl ftz d a) fun c j l =>
    l.put t.is64 d (pureVal (c.scanned g op t rm sat ftz a (if excl then j else j + 1))))
  ∧ (∀ g op t rm sat ftz d a, RegisterResult (.reduce g op t rm sat ftz d a) t.is64 d fun c _ =>
      pureVal (c.scanned g op t rm sat ftz a 128))
  ∧ (∀ (c : Crew) g t rm sat ftz a n, t.isFloat = false → ((c.takers g).filter fun p => decide (p.1 < n)) ≠ [] →
      c.scanned g .add t rm sat ftz a n =
        putBits t (fitTo t sat (((c.takers g).filter fun p => decide (p.1 < n)).map fun p => c.iv p.2 t a).sum))
  ∧ (∀ (c : Crew) g op t rm sat ftz a n, t.isFloat = false → ((c.takers g).filter fun p => decide (p.1 < n)) = [] →
      c.scanned g op t rm sat ftz a n = scanIdentity op t))

/-- ISECT and QNT complete wherever they issue (R227, R245, R247, R248). In each participant ISECT writes where its A and its B
stand in the other list, and the order predicate; the crew's scalar pair holds how many of each list are done. QNT's codes follow
R72 and R248 where chapter 15's worked example differs (log 5). -/
def Obligations.IntersectAndQuantise : Prop :=
  (∀ g t q d a b sc s k, Issues s k (.isect g t q d a b sc) → ∃ u lanes, exec (.isect g t q d a b sc) s = .next u ∧
      let r := isectOf ((k.c.takers g).map fun p => k.c.iv p.2 t a) ((k.c.takers g).map fun p => k.c.iv p.2 t b)
      CrewStep s u k (Instr.isect g t q d a b sc) lanes (if (k.c.takers g).isEmpty then k.c.s else
        ((k.c.wrS sc (BitVec.ofNat 32 r.2.2.1)).wrS (sc.plus 1) (BitVec.ofNat 32 r.2.2.2.1)).s)
      ∧ lanes.length = k.c.lanes.length
      ∧ (∀ (j : Nat) (l : Lane), k.c.lanes[j]? = some l → l.takes g = false → lanes[j]? = some l)
      ∧ ∀ (n j : Nat) (l : Lane), (k.c.takers g)[n]? = some (j, l) → lanes[j]? = some
          (((l.wr d (BitVec.ofInt 32 (r.1[n]?.getD (-1)))).wr (d.plus 1) (BitVec.ofInt 32 (r.2.1[n]?.getD (-1)))).setPred q
            r.2.2.2.2))
  ∧ (∀ g t rm fine outl ftz d a sc, Completes (.qnt g t rm fine outl ftz d a sc) fun k s => s.modCur k fun c0 =>
      (List.range 2).foldl (fun c h => match (c0.takers g).filter fun p => p.1 / 64 == h with
        | [] => c
        | ps =>
          let (codes, sw) := quantBlock t rm fine outl ftz (ps.map fun p => (p.1, c0.rd p.2 a, p.2.rng))
          (codes.foldl (fun c x => c.modLane x.1 fun l => { l.wr d (BitVec.ofNat 32 x.2.1) with rng := x.2.2 }) c).wrS
            (sc.plus h) sw) c0)

/-- TAKE, NETCNT and REGROUP complete wherever they issue (R213, R233, R234, R246, R249, R250). Where the network is granted and
open, TAKE adds one token for each participant, on the wire its slot says, and queues the arrival of its number; a network that is
not granted traps, and a closed one parks the lane. At which TAKE a lane parked for a network goes on is the model's reading where
two are under way (log 45). -/
def Obligations.NetworksAndRegrouping : Prop :=
  (∀ g w32 d a q, Completes (.take g w32 d a q) fun k s => (s.forLanes (k.c.takers g) fun s i l =>
    let n := (k.c.rd l a).toNat
    if s.granted k.b n = false then s.trapAgain k i .netNotGranted (BitVec.ofNat 64 n)
    else if (s.net n).closed then s.parkAgain k i (.network n (k.c.ins + 1))
    else (({ s with nextToken := s.nextToken + 1 } : State).modNet n fun x =>
      { x with tokens := x.tokens ++ [⟨s.nextToken, k.b.uid, k.ci, i, i % 16⟩] }).push k i (.token n s.nextToken w32 d q)).passImplicit k g
        (Instr.take g w32 d a q).len)
  ∧ (∀ g d a s k, Issues s k (.netcnt g d a) →
      (∀ p, (k.c.takers g).head? = some p → s.granted k.b (k.c.rd p.2 a).toNat = true) →
      ∃ t, exec (.netcnt g d a) s = .next t ∧ QueueStep s t k (Instr.netcnt g d a) (match k.c.takers g with
        | [] => []
        | p :: r => (if d.isS then [p] else p :: r).map fun x => (x.1, .netcnt (k.c.rd p.2 a).toNat d)))
  ∧ (∀ q a b n, Completes (.regroup q a b n) fun k s =>
      (s.modCur k fun c => { c with regroup := some ⟨k.pc, (k.c.lanes.head?.elim 0 fun l => k.c.rd l a), q,
        (match b with
          | .v x => x.toNat
          | _ => 0), n.toNat + 1, s.cyc, s.cyc⟩ }).passImplicit k ⟨false, 0⟩ 1)

/-! ### Memory instructions at issue (12_memory_instructions R186-R210) -/

/-- LDS, STS, AWINIT, ARRIVE and AWAIT (R191, R194, R207, R209) whose every address is in bounds, and aligned where R190 asks
it, complete: each lane that makes the access queues it at the aligned bytes that hold the address, and nothing else changes.
ATOM, CAS and RED of the block's own scratchpad (R190, R195 to R197), aligned and in bounds, complete: each lane queues the
operation with the operand values it read. FENCE, PHASE, SFENCE, BAR and BARC (R171, R174, R199 to R201, R204, R205) complete
by queuing themselves: once for the crew, or, for the barriers, in each active lane. -/
def Obligations.ScratchpadInstructionsAreQueued : Prop :=
  ((∀ g z d m, QueueResult (.lds g z d m) (fun k => ∀ p ∈ k.c.doers g d, k.c.addrS p.2 m z.size + z.size ≤ k.b.scratchSize)
    fun k => (k.c.doers g d).map fun p => (p.1, .spLoad z k.b.core (k.c.addrS p.2 m z.size / z.size * z.size) d))
  ∧ (∀ g z d m, QueueResult (.sts g z d m) (fun k => ∀ p ∈ k.c.takers g, k.c.addrS p.2 m z.size + z.size ≤ k.b.scratchSize)
      fun k => (k.c.takers g).map fun p =>
        (p.1, .spStore k.b.core (k.c.addrS p.2 m z.size / z.size * z.size) z.size (k.c.dataOf p.2 d z.regs)))
  ∧ (∀ g d m, QueueResult (.awinit g d m)
      (fun k => ∀ p ∈ k.c.takers g, k.c.addrS p.2 m 8 % 8 = 0 ∧ k.c.addrS p.2 m 8 + 8 ≤ k.b.scratchSize)
      fun k => (k.c.takers g).map fun p => (p.1, .awinit (k.c.addrS p.2 m 8) (bits (k.c.rd p.2 d) 0 24)))
  ∧ (∀ g d m, QueueResult (.arrive g d m)
      (fun k => ∀ p ∈ k.c.takers g, k.c.addrS p.2 m 8 % 8 = 0 ∧ k.c.addrS p.2 m 8 + 8 ≤ k.b.scratchSize)
      fun k => (k.c.takers g).map fun p => (p.1, .arrive (k.c.addrS p.2 m 8) (bits (k.c.rd p.2 d) 0 24)))
  ∧ (∀ g d m, QueueResult (.await g d m)
      (fun k => ∀ p ∈ k.c.takers g, k.c.addrS p.2 m 8 % 8 = 0 ∧ k.c.addrS p.2 m 8 + 8 ≤ k.b.scratchSize)
      fun k => (k.c.takers g).map fun p => (p.1, .await (k.c.addrS p.2 m 8) (bits (k.c.rd p.2 d) 0 16))))
  ∧ ((∀ g op z d m, QueueResult (.atom g op z .sp d m)
    (fun k => ∀ p ∈ k.c.doers g d, k.c.addrS p.2 m z.size % z.size = 0 ∧ k.c.addrS p.2 m z.size + z.size ≤ k.b.scratchSize)
    fun k => (k.c.doers g d).map fun p =>
      (p.1, .atom op z (.scratch k.b.core (k.c.addrS p.2 m z.size)) (k.c.operand p.2 z d) d))
  ∧ (∀ g z d m, QueueResult (.cas g z .sp d m)
      (fun k => ∀ p ∈ k.c.doers g d, k.c.addrS p.2 m z.size % z.size = 0 ∧ k.c.addrS p.2 m z.size + z.size ≤ k.b.scratchSize)
      fun k => (k.c.doers g d).map fun p => (p.1, .cas z (.scratch k.b.core (k.c.addrS p.2 m z.size))
        (k.c.operand p.2 z d) (k.c.operand p.2 z (d.plus z.regs)) d))
  ∧ (∀ g op z d m, QueueResult (.red g op z .sp d m)
      (fun k => ∀ p ∈ k.c.takers g, k.c.addrS p.2 m z.size % z.size = 0 ∧ k.c.addrS p.2 m z.size + z.size ≤ k.b.scratchSize)
      fun k => (k.c.takers g).map fun p =>
        (p.1, .red op z (.scratch k.b.core (k.c.addrS p.2 m z.size)) (k.c.operand p.2 z d))))
  ∧ ((∀ g sc, QueueResult (.fence g sc) (fun _ => True) fun k => ((k.c.takers g).take 1).map fun p => (p.1, .fence sc))
  ∧ (∀ g, QueueResult (.phasePub g) (fun _ => True) fun k => ((k.c.takers g).take 1).map fun p => (p.1, .phase true false none))
  ∧ (∀ g, QueueResult (.phaseRef g) (fun _ => True) fun k => ((k.c.takers g).take 1).map fun p => (p.1, .phase false true none))
  ∧ (∀ g, QueueResult (.phaseFull g) (fun _ => True) fun k => ((k.c.takers g).take 1).map fun p => (p.1, .phase true true none))
  ∧ (∀ g a b, QueueResult (.sfence g a b) (fun _ => True) fun k => ((k.c.takers g).take 1).map fun p =>
      (p.1, .sfence (k.c.rd p.2 a).toNat (if b.isNone then none else some (k.c.rd p.2 b).toNat)))
  ∧ QueueResult .bar (fun _ => True) (fun k => (k.c.takers ⟨false, 0⟩).map fun p => (p.1, .bar))
  ∧ QueueResult .barc (fun _ => True) (fun k => (k.c.takers ⟨false, 0⟩).map fun p => (p.1, .barc)))

/-- The global, private and peer accesses, WAITC and PREF complete wherever they issue, lane by lane in ascending slot (R149,
R153, R190 to R197, R202, R203): a lane whose check fails traps or parks, and every other queues its access. A load queues a
read of the pieces its check passed, a decoded one its code and its scale word; a store its data, cut along them; an atomic
its operation at the word. A check that passes has translated each single-copy access. PREF passes over a line held under
another key. The checks of R190: a misaligned atomic or arrival word, a scratchpad access beyond the block's scratchpad, and
an access to a group position where no live block stands trap the lane, which will issue the instruction again. That PREF passes
over a line held under another key, and which seal its fill leaves, is the model's choice (log 15). -/
def Obligations.MemoryInstructionsIssue : Prop :=
  ((∀ g z h home d m, Completes (.ld g z h home d m) fun k s => s.forLanes (k.c.doers g d) fun s i l =>
    s.loadLane k i (k.c.addrG l m z.size) z home h d)
  ∧ (∀ g z h d m, Completes (.st g z h d m) fun k s => s.forLanes (k.c.takers g) fun s i l =>
      s.storeLane k i l (k.c.addrG l m z.size) z h d)
  ∧ (∀ g z h d m, Completes (.ldl g z h d m) fun k s => s.forLanes (k.c.doers g d) fun s i l =>
      if 4096 < k.c.addrS l m z.size + z.size
      then s.trapAgain k i .rangeMiss (BitVec.ofNat 64 (k.b.privVa l (k.c.addrS l m z.size)))
      else s.loadLane k i (k.b.privVa l (k.c.addrS l m z.size)) z false h d)
  ∧ (∀ g z h d m, Completes (.stl g z h d m) fun k s => s.forLanes (k.c.takers g) fun s i l =>
      if 4096 < k.c.addrS l m z.size + z.size
      then s.trapAgain k i .rangeMiss (BitVec.ofNat 64 (k.b.privVa l (k.c.addrS l m z.size)))
      else s.storeLane k i l (k.b.privVa l (k.c.addrS l m z.size)) z h d)
  ∧ (∀ g z d m, Completes (.ldp g z d m) fun k s => s.forLanes (k.c.doers g d) fun s i l =>
      match s.checkPeer k (k.c.addrS l m z.size) z.size with
      | .ok (core, o) => s.push k i (.spLoad z core (o / z.size * z.size) d)
      | .error c => s.trapAgain k i c (BitVec.ofNat 64 (k.c.addrS l m z.size)))
  ∧ (∀ g z d m, Completes (.stp g z d m) fun k s => s.forLanes (k.c.takers g) fun s i l =>
      match s.checkPeer k (k.c.addrS l m z.size) z.size with
      | .ok (core, o) => s.push k i (.spStore core (o / z.size * z.size) z.size (k.c.dataOf l d z.regs))
      | .error c => s.trapAgain k i c (BitVec.ofNat 64 (k.c.addrS l m z.size)))
  ∧ (∀ g op z spc d m, Completes (.atom g op z spc d m) fun k s => (s.forLanes (k.c.doers g d) fun s i l =>
      s.atomLane k i l z spc .atomic m fun p => .atom op z p (k.c.operand l z d) d).passImplicit k g (Instr.atom g op z spc d m).len)
  ∧ (∀ g z spc d m, Completes (.cas g z spc d m) fun k s => (s.forLanes (k.c.doers g d) fun s i l =>
      s.atomLane k i l z spc .atomic m fun p => .cas z p (k.c.operand l z d) (k.c.operand l z (d.plus z.regs)) d).passImplicit k g
        (Instr.cas g z spc d m).len)
  ∧ (∀ g op z spc d m, Completes (.red g op z spc d m) fun k s => (s.forLanes (k.c.takers g) fun s i l =>
      s.atomLane k i l z spc .red m fun p => .red op z p (k.c.operand l z d)).passImplicit k g (Instr.red g op z spc d m).len)
  ∧ (∀ g cond z d m, Completes (.waitc g cond z d m) fun k s => (s.forLanes (k.c.takers g) fun s i l =>
      if k.c.addrG l m z.size % z.size ≠ 0 then s.trapAgain k i .misaligned (BitVec.ofNat 64 (k.c.addrG l m z.size))
      else match s.checkGlobal k (k.c.addrG l m z.size) z.size .read with
        | (s, .pass (p :: _)) => s.push k i (.waitc cond z p (k.c.operand l z d))
        | (s, r) => s.failCheck k i r).passImplicit k g (Instr.waitc g cond z d m).len)
  ∧ (∀ g l2 h m, Completes (.pref g l2 h m) fun k s => s.forLanes (k.c.takers g) fun s _ l =>
      if 2 ^ 56 ≤ k.c.addrG l m 1 then s
      else match s.translate k.b.core (some k.c.quad) k.b.asid (k.c.addrG l m 1) 1 .read with
        | (s, .ok x) =>
          if (s.denies k.b.part k.b.clr (pieceOf (k.c.addrG l m 1) 1 x)).isSome || (s.lineOf none x.home).any (·.key != x.key) then s
          else
            let s := s.l2Access none k.b.vf x.key x.sealId x.home 0 h (s.sectorStamp (Config.sectorOf k.b.core))
            if l2 || h == .nl1 then s
            else s.l1Fill k.b.core x.home k.c.quad k.c.slot (s.coreStamp k.b.core) (s.homeView x.key x.home) h
        | (s, _) => s)
  ∧ (∀ (s : State) k i va z home h d, s.decodes k va z = none →
      (∀ t ps, s.checkGlobal k va z.size .read = (t, .pass ps) → s.loadLane k i va z home h d = t.push k i (.load z home h ps d))
      ∧ (∀ t c f, s.checkGlobal k va z.size .read = (t, .trap c f) → s.loadLane k i va z home h d = t.trapAgain k i c (BitVec.ofNat 64 f))
      ∧ ∀ t w a, s.checkGlobal k va z.size .read = (t, .park w a) →
          s.loadLane k i va z home h d = (t.askResidency k.b k.ci i a k.pc w).parkAgain k i w)
  ∧ (∀ (s : State) k i va z home h d d1, s.decodes k va z = some d1 →
      (∀ t x, s.translate k.b.core (some k.c.quad) k.b.asid va 1 .read = (t, .ok x) →
        (let elem := (va - d1Base d1 * 4096) / z.size;
         let o := codeOffset (d1Fmt d1) elem;
         let code := d1Base x.d1 * 4096 + o.1;
         let plane := t.planePiece (dirVf (t.dirEntry k.b.asid));
         s.loadLane k i va z home h d = match plane code (d1Ia x.d1 code) 1 x.d1, plane noVa (d1Spb x.d1 * 4096 + elem / 64 * 4) 4 x.d1 with
           | some c, some w => t.push k i (.decode z home h va (d1Fmt d1) c w o.2 d)
           | _, _ => t.trapAgain k i .stage2 (BitVec.ofNat 64 va)))
      ∧ (∀ t c, s.translate k.b.core (some k.c.quad) k.b.asid va 1 .read = (t, .fault c) →
          s.loadLane k i va z home h d = t.trapAgain k i c (BitVec.ofNat 64 va))
      ∧ ∀ t w, s.translate k.b.core (some k.c.quad) k.b.asid va 1 .read = (t, .park w) →
          s.loadLane k i va z home h d = (t.askResidency k.b k.ci i va k.pc w).parkAgain k i w)
  ∧ (∀ (s : State) k i l va z h d,
      (∀ t ps, s.checkGlobal k va z.size .write = (t, .pass ps) → s.storeLane k i l va z h d = t.push k i (.store h (ps.map fun p =>
        (p, BitVec.ofNat 64 ((k.c.dataOf l d z.regs).toNat % 256 ^ z.size / 256 ^ (p.va - va) % 256 ^ p.size)))))
      ∧ (∀ t c f, s.checkGlobal k va z.size .write = (t, .trap c f) → s.storeLane k i l va z h d = t.trapAgain k i c (BitVec.ofNat 64 f))
      ∧ ∀ t w a, s.checkGlobal k va z.size .write = (t, .park w a) →
          s.storeLane k i l va z h d = (t.askResidency k.b k.ci i a k.pc w).parkAgain k i w)
  ∧ (∀ (s : State) k i l z kind m f, k.c.addrG l m z.size % z.size = 0 →
      (∀ t p ps, s.checkGlobal k (k.c.addrG l m z.size) z.size kind = (t, .pass (p :: ps)) →
        s.atomLane k i l z .global kind m f = t.push k i (f (.global p)))
      ∧ (∀ t c x, s.checkGlobal k (k.c.addrG l m z.size) z.size kind = (t, .trap c x) →
          s.atomLane k i l z .global kind m f = t.trapAgain k i c (BitVec.ofNat 64 x))
      ∧ ∀ t w a, s.checkGlobal k (k.c.addrG l m z.size) z.size kind = (t, .park w a) →
          s.atomLane k i l z .global kind m f = (t.askResidency k.b k.ci i a k.pc w).parkAgain k i w)
  ∧ (∀ (s : State) k i l z spc kind m f, spc ≠ .global → k.c.addrS l m z.size % z.size = 0 →
      s.atomLane k i l z spc kind m f =
        match (if spc == .sp then k.checkSp (k.c.addrS l m z.size) z.size else s.checkPeer k (k.c.addrS l m z.size) z.size) with
        | .ok (core, o) => s.push k i (f (.scratch core o))
        | .error c => s.trapAgain k i c (BitVec.ofNat 64 (k.c.addrS l m z.size)))
  ∧ (∀ (s : State) k va n kind, (2 ^ 56 ≤ va + n - 1 → s.checkGlobal k va n kind = (s, .trap .rangeMiss va))
      ∧ ∀ t ps, s.checkGlobal k va n kind = (t, .pass ps) → ps.map (fun p => (p.va, p.size)) = (unitsOf va n).map (fun x => (x.1, unitOf va n))
          ∧ ∀ p ∈ ps, ∃ (s0 : State) (x : Xlat), (s0.translate k.b.core (some k.c.quad) k.b.asid p.va p.size kind).2 = .ok x ∧ p = pieceOf p.va p.size x)
  ∧ (∀ (s : State) k i w b c, s.crew? k.b.uid k.ci = some (b, c) → ∃ b', (s.push k i w).crew? k.b.uid k.ci =
      some (b', { c with queue := c.queue ++ [⟨c.ins, i, k.pc, k.lab, w⟩] }))
  ∧ (∀ (s : State) k i w l, s.laneAt k.b.uid k.ci i = some l → (s.parkAgain k i w).laneAt k.b.uid k.ci i =
      some { l with parked := true, act := false, ro := k.again, park := some w }))
  ∧ ((∀ (s : State) k j l z kind m f, k.c.addrG l m z.size % z.size ≠ 0 →
    s.atomLane k j l z .global kind m f = s.trapAgain k j .misaligned (BitVec.ofNat 64 (k.c.addrG l m z.size)))
  ∧ (∀ (s : State) k j l z spc kind m f, spc ≠ .global → k.c.addrS l m z.size % z.size ≠ 0 →
      s.atomLane k j l z spc kind m f = s.trapAgain k j .misaligned (BitVec.ofNat 64 (k.c.addrS l m z.size)))
  ∧ (∀ (s : State) k j l m f, k.c.addrS l m 8 % 8 ≠ 0 →
      s.arrivalLane k j l m f = s.trapAgain k j .misaligned (BitVec.ofNat 64 (k.c.addrS l m 8)))
  ∧ (∀ (k : Ctx) a w, k.b.scratchSize < a + w → k.checkSp a w = .error .scratchBound)
  ∧ (∀ (s : State) k a w, a < 2 ^ 21 → s.scratchOn k.b (k.b.core / 4 * 4 + a / 2 ^ 19) = none →
      s.checkPeer k a w = .error .peerAbsent)
  ∧ (∀ (s : State) k a w, 2 ^ 21 ≤ a → s.checkPeer k a w = .error .scratchBound))

/-! ### Operations performing (11_ordering R166-R184) -/

/-- OPERATION_PERFORM (R166, R167): an operation at the place given that may perform does so, out of its crew's queue; one that may
not changes nothing. The lanes of an eighth that wait together perform together; a system instruction stays until it has
performed, and reads what it reads as the newest. A FENCE.sys or a system instruction, as it comes to perform, sends home the host tier's
lines of the L2, and waits while the host has not acknowledged what it owed its crew for at that point, drains of the block or REDs of
the crew (R174, R371, R395). A posted RED that may perform does so, and one that may not changes nothing. That operations of other
lanes perform while a lane is parked at an AWAIT is the model's choice (log 43), and that a system-scope instruction writes back
and waits for what is then unacknowledged its reading (log 44). -/
def Obligations.OperationsPerform : Prop :=
  ∀ (s : State) u ci n picks b c o, s.crew? u ci = some (b, c) → c.queue[n]? = some o →
    (s.mayGo b ci c n o = false → exec (.operationPerform u ci n false picks) s = .next s)
    ∧ (s.mayGo b ci c n o = true → o.what.byEighth = false → (∀ i xs, o.what = .instr i xs → i.system = false) →
        (∀ sc, o.what ≠ .fence sc) → exec (.operationPerform u ci n false picks) s =
          .next (((s.resultsLate u ci).unqueue u ci n).performOp ⟨b, ci, c, o.lab, o.pc⟩ o picks))
    ∧ (s.mayGo b ci c n o = true → (∃ sc, o.what = .fence sc) → (s.resultsLate u ci).sysWait u ci c o.what = none →
        exec (.operationPerform u ci n false picks) s =
          .next ((((s.resultsLate u ci).unqueue u ci n).performOp ⟨b, ci, c, o.lab, o.pc⟩ o picks).modCrew u ci fun c =>
            { c with acks := none }))
    ∧ (s.mayGo b ci c n o = true → o.what.byEighth = true → exec (.operationPerform u ci n false picks) s =
        .next (((s.resultsLate u ci).unqueueEighth u ci o).performEighth ⟨b, ci, c, o.lab, o.pc⟩ o (eighthOf c.queue o)))
    ∧ (s.mayGo b ci c n o = true → ∀ t, (s.resultsLate u ci).sysWait u ci c o.what = some t →
        exec (.operationPerform u ci n false picks) s = .next t)
    ∧ (((∀ sc, o.what = .fence sc → sc ≠ .sys) ∧ ∀ i xs, o.what = .instr i xs → i.system = false) → s.sysWait u ci c o.what = none)
    ∧ ((o.what = .fence .sys ∨ ∃ i xs, o.what = .instr i xs ∧ i.system = true) → s.sysWait u ci c o.what =
        if ∃ r ∈ s.hostReqs, r.blk = u ∧ r.no < c.acks.getD s.hostNo ∧ (r.cause = .drain ∨ r.cause = .red ci)
        then some ((s.cleanL2 fun l => l.print == none && decide (hostBase ≤ 256 * l.line)).modCrew u ci fun x =>
          { x with acks := some (c.acks.getD s.hostNo) })
        else none)
    ∧ (s.mayGo b ci c n o = true → (s.resultsLate u ci).sysWait u ci c o.what = none →
        ∀ i xs, o.what = .instr i xs → i.system = true → exec (.operationPerform u ci n false picks) s = .next
          (let r := (s.resultsLate u ci).performSystem ⟨b, ci, c, o.lab, o.pc⟩ o i xs;
            if r.2 then r.1.modCrew u ci fun c => { c with queue := c.queue.filter (· != o), acks := none } else r.1))
    ∧ (∀ i xs, s.performSystem ⟨b, ci, c, o.lab, o.pc⟩ o i xs
        = ({ s with lags := [] } : State).performSystem ⟨b, ci, c, o.lab, o.pc⟩ o i xs)
    ∧ ∀ m, (s.mayPost m = false → exec (.operationPerform u ci m true picks) s = .next s)
        ∧ (s.mayPost m = true → exec (.operationPerform u ci m true picks) s = .next (s.performPosted m))

/-- Loads and stores as they perform. In the scratchpad (R172, R187, R194) a load writes to its registers what the bytes say; a store writes its bytes, and every other
byte of the scratchpad, every other scratchpad and all of memory stay as they are. A global or private load (R168, R192) writes to its
registers what its single-copy reads read, one after another; each takes the block's own buffered bytes and the others, from the copy that serves it or from home, as of one home
time, the newest for `.home`, and else the newest or one at or after the refresh point and the lane's floor for each of these bytes; a
denied read is zeros, logged. A decoded load (R116, R117) writes the value its code and its scale word give. A store (R169, R193) puts one entry
for each piece at the end of the block's store buffer, with the piece's bytes, lane and hint, and its block reads these bytes of it; what else
was in the buffer stays or has drained; a denied piece is dropped, and logged. -/
def Obligations.LoadsAndStoresPerform : Prop :=
  (∀ (s : State) k o z core a d picks t, o.what = .spLoad z core a d → s.targetOf k core = some t →
    s.performOp k o picks = s.modCur k (·.putWords o.lane d (loadWords z (memBytes t.scratch a z.size))))
  ∧ (∀ (s : State) k o core a n x picks t, o.what = .spStore core a n x → s.targetOf k core = some t →
      s.block? t.uid = some t → memWf t.scratch = true →
      ∃ t', (s.performOp k o picks).block? t.uid = some t' ∧ memWf t'.scratch = true
        ∧ (∀ i, i < n → memRead t'.scratch (a + i) = BitVec.ofNat 8 (x.toNat / 256 ^ i))
        ∧ (∀ y, y < a ∨ a + n ≤ y → memRead t'.scratch y = memRead t.scratch y)
        ∧ (∀ v, v ≠ t.uid → (s.performOp k o picks).block? v = s.block? v)
        ∧ SameMemory s (s.performOp k o picks))
  ∧ (∀ (s : State) k j home tags p pick b l view, s.block? k.b.uid = some b → s.laneOf k j = some l →
      s.cleared b.part b.clr p.sealId = true → (tags.lookup (p.home / 64)).getD (0, none) = (0, view) → ∃ t l',
        (t = s.now ∨ (home = false ∧ t = pick ∧ ∀ i, i < p.size → bufferByte b.storeBuf (p.home + i) = none →
          s.position (b.floorOf l (p.home + i)) (p.home + i) ≤ s.position t (p.home + i)))
        ∧ (s.readPiece k j home tags p pick).2 = ((List.range p.size).map fun i =>
            (bufferByte b.storeBuf (p.home + i)).getD (s.readView view p.key t (p.home + i)), none)
        ∧ (s.readPiece k j home tags p pick).1.laneOf k j = some l' ∧ l'.v = l.v ∧ l'.q = l.q
        ∧ SameMemory s (s.readPiece k j home tags p pick).1)
  ∧ (∀ (s : State) k j home tags p pick b, s.block? k.b.uid = some b →
      (s.cleared b.part b.clr p.sealId = false → s.readPiece k j home tags p pick = (s, List.replicate p.size 0, some (p.sealId, false)))
      ∧ ∀ tag view, s.cleared b.part b.clr p.sealId = true → tags.lookup (p.home / 64) = some (tag, view) → tag ≠ 0 →
          s.readPiece k j home tags p pick = (s, List.replicate p.size 0, some (tag, true)))
  ∧ (∀ (s : State) k o z home h ps d picks, o.what = .load z home h ps d →
      (let r := s.passQuarters k home true h ps;
       let q := State.readAll k o.lane home r.2 ps picks r.1;
       let t := q.1.modCur k (·.putWords o.lane d (loadWords z q.2.1));
       s.performOp k o picks = match q.2.2 with
         | some (va, sl) => t.denyLane k o.lane va false sl
         | none => t))
  ∧ (∀ k j home tags p ps t ts (s : State),
      (let r := s.readPiece k j home tags p t;
       let q := State.readAll k j home tags ps ts r.1;
       State.readAll k j home tags (p :: ps) (t :: ts) s = (q.1, r.2.1 ++ q.2.1, (r.2.2.map fun x => (p.va, x)).or q.2.2)))
  ∧ (∀ (s : State) k o z home h va fmt code scale hi d picks, o.what = .decode z home h va fmt code scale hi d →
      (let r := s.passQuarters k home true h [code, scale];
       let c := r.1.readPiece k o.lane home r.2 code (picks.headD r.1.now);
       let w := c.1.readPiece k o.lane home r.2 scale (picks.tail.headD c.1.now);
       let x := leNat c.2.1;
       let t := match z with
         | .f16 => Ty.f16
         | .bf16 => .bf16
         | _ => .f32;
       c.2.2 = none → w.2.2 = none → s.performOp k o picks = w.1.modCur k (·.putWords o.lane d [BitVec.ofNat 32
         (roundTo t .rne false false (blockValue (fmtTy fmt) (if fmt = 1 then (if hi then x / 16 else x % 16) else x)
           (BitVec.ofNat 32 (leNat w.2.1))) 0).1])))
  ∧ (∀ (s : State) k o h p x picks b, o.what = .store h [(p, x)] → s.block? k.b.uid = some b →
      (s.denies k.b.part k.b.clr p = none → ∃ b' old e, (s.performOp k o picks).block? k.b.uid = some b' ∧ b'.storeBuf = old ++ [e]
        ∧ List.Sublist old b.storeBuf ∧ e.p = p ∧ e.data = x ∧ e.crew = k.ci ∧ e.lane = o.lane ∧ e.off = k.pc ∧ e.hint = h
        ∧ ∀ i, i < p.size → bufferByte b'.storeBuf (p.home + i) = some (BitVec.ofNat 8 (x.toNat / 256 ^ i)))
      ∧ ∀ sl, s.denies k.b.part k.b.clr p = some sl → s.performOp k o picks = s.denyLane k o.lane p.va true sl)
  ∧ (∀ (s : State) k o h ps picks, o.what = .store h ps → s.performOp k o picks =
      (let t := ps.foldl (fun (s : State) p => if (s.denies k.b.part k.b.clr p.1).isSome then s
         else s.addEntry k.b.uid ⟨p.1, p.2, s.oidOf k o.lane, k.ci, o.lane, k.pc, 0, h⟩ h) s;
       match ps.filterMap fun p => (s.denies k.b.part k.b.clr p.1).map fun d => (p.1.va, d) with
       | (va, sl) :: _ => t.denyLane k o.lane va true sl
       | [] => t))

/-- DRAIN (R166, R169, R188): the oldest entry for its bytes goes home as one write, through its line of the L2 with its store's hint, and leaves
the store buffer: its bytes read there as it holds them, and every other byte reads through its key as the L2 then has it. Passing the L2
changes nothing but lines of it and what they send home. An entry that an older one overlaps stays. -/
def Obligations.DrainsGoHome : Prop :=
  (∀ (s : State) u n b e, s.block? u = some b → b.storeBuf[n]? = some e → oldestEntry b.storeBuf n = true → memWf s.mem = true →
    ∃ t b', exec (.drain u n) s = .next t ∧ t.block? u = some b' ∧ b'.storeBuf = b.storeBuf.eraseIdx n ∧ t.now = s.now + 1
      ∧ OnlyL2 s (s.l2Write b.vf e.p e.hint)
      ∧ (∀ i, i < e.p.size → t.readAt e.p.key t.now (e.p.home + i) = BitVec.ofNat 8 (e.data.toNat / 256 ^ i))
      ∧ ∀ a, a < e.p.home ∨ e.p.home + e.p.size ≤ a →
          t.readAt e.p.key t.now a = (s.l2Write b.vf e.p e.hint).readAt e.p.key s.now a)
  ∧ (∀ (s : State) u n b, s.block? u = some b → oldestEntry b.storeBuf n = false → exec (.drain u n) s = .next s)

/-- Home memory (R165, R168): a write's bytes read as written at the newest time, every other byte reads as before through the same
key, the history before it stands, and the memory keeps its canonical form. -/
def Obligations.HomeReadsAfterWrites : Prop :=
  ∀ (s : State) slot a n x, memWf s.mem = true →
    (∀ i, i < n → (s.putHome slot a n x).readAt slot (s.now + 1) (a + i) = BitVec.ofNat 8 (x / 256 ^ i))
    ∧ (∀ y, y < a ∨ a + n ≤ y → (s.putHome slot a n x).readAt slot (s.now + 1) y = s.readAt slot s.now y)
    ∧ (∀ t y, t < s.now → (s.putHome slot a n x).byteAt t y = s.byteAt t y)
    ∧ memWf (s.putHome slot a n x).mem = true

/-- Atomics (R175, R195, R196, R198) of a global word with nothing of it in the store buffer, and not denied: the move reads
the newest home value through its line of the L2 and writes what the operation makes of it, and the lane's coherence floor
rises to the home time it leaves; CAS writes only where the values compare equal. ATOM, CAS and RED of a scratchpad act on its
bytes and on no other. A RED of global memory is posted, and counts as unacknowledged (R165, R174); as it performs (R197) it
writes home what the operation makes of the newest value there, and is acknowledged to its block, or to the saved block it has
become; one that is denied writes nothing, and is logged. The values atomics write (R195), for 32-bit and 64-bit operands. -/
def Obligations.AtomicsAct : Prop :=
  ((∀ (s : State) k j z p w f b, s.block? k.b.uid = some b →
    (∀ e ∈ b.storeBuf, overlap e.p.home e.p.size p.home p.size = false) → s.denies k.b.part k.b.clr p = none →
    (let s1 := s.l2Read k.b.vf k.b.core p;
     let old := BitVec.ofNat 64 (s1.numHome p.key p.home p.size);
     let s2 := (match f old with
       | some x => s1.writeThrough k.b.vf p (leBytes p.size (x.toNat % 256 ^ p.size))
       | none => s1);
     s.atomicAt k j z (.global p) w f = (s2.modLane k.b.uid k.ci j fun l => l.raise s2.now p.home p.size, old)))
  ∧ (∀ (s : State) k o z p cmp new d picks, o.what = .cas z p cmp new d → s.performOp k o picks =
      (let r := s.atomicAt k o.lane z p false fun x => if x = cmp then some new else none;
        r.1.modCur k (·.putWords o.lane d (loadWords z (leBytes z.size r.2.toNat)))))
  ∧ (∀ (s : State) k o op z p v d picks, o.what = .atom op z p v d → s.performOp k o picks =
      (let r := s.atomicAt k o.lane z p false fun x => some (atomNew op z x v);
        r.1.modCur k (·.putWords o.lane d (loadWords z (leBytes z.size r.2.toNat)))))
  ∧ (∀ (s : State) k o op z core a v picks, o.what = .red op z (.scratch core a) v → s.performOp k o picks =
      (s.atomicAt k o.lane z (.scratch core a) true fun x => some (atomNew op z x v)).1)
  ∧ (∀ (s : State) k j z core a w f t, s.targetOf k core = some t → s.block? t.uid = some t → memWf t.scratch = true →
      (let r := s.atomicAt k j z (.scratch core a) w f;
       let old := BitVec.ofNat 64 (leNat (memBytes t.scratch a z.size));
       r.2 = old ∧ (f old = none → r.1 = s)
       ∧ ∀ x, f old = some x → SameMemory s r.1 ∧ (∀ v, v ≠ t.uid → r.1.block? v = s.block? v) ∧ ∃ t', r.1.block? t.uid = some t'
         ∧ memWf t'.scratch = true ∧ (∀ i, i < z.size → memRead t'.scratch (a + i) = BitVec.ofNat 8 (x.toNat / 256 ^ i))
         ∧ ∀ y, y < a ∨ a + z.size ≤ y → memRead t'.scratch y = memRead t.scratch y))
  ∧ (∀ (s : State) k o op z p v picks b, o.what = .red op z (.global p) v → s.block? k.b.uid = some b → ∃ b',
      (s.performOp k o picks).block? k.b.uid = some b' ∧ b'.unacked = b.unacked + 1 ∧ b'.storeBuf = b.storeBuf
      ∧ (s.performOp k o picks).posted = s.posted ++ [⟨k.b.uid, k.ci, o, s.oidOf k o.lane⟩] ∧ SameMemory s (s.performOp k o picks))
  ∧ (∀ (s : State) n q op z p v b, s.posted[n]? = some q → q.op.what = .red op z (.global p) v → s.block? q.blk = some b →
      (∀ e ∈ b.storeBuf, overlap e.p.home e.p.size p.home p.size = false) → memWf s.mem = true →
      (s.denies b.part b.clr p = none →
        (let s0 : State := { s with posted := s.posted.eraseIdx n };
         let s1 := s0.l2Read b.vf b.core p;
         let new := atomNew op z (BitVec.ofNat 64 (s1.numHome p.key p.home p.size)) v;
         let s2 := s1.l2Write b.vf p .none;
         let t := s.performPosted n;
         t.now = s.now + 1 ∧ t.posted = s0.posted ∧ OnlyL2 s0 s2
         ∧ (∀ i, i < p.size → t.readAt p.key t.now (p.home + i) = BitVec.ofNat 8 (new.toNat / 256 ^ i))
         ∧ (∀ a, a < p.home ∨ p.home + p.size ≤ a → t.readAt p.key t.now a = s2.readAt p.key s.now a)
         ∧ ∃ b', t.block? q.blk = some b' ∧ b'.unacked = b.unacked - 1 ∧ b'.storeBuf = b.storeBuf))
      ∧ ∀ sl, s.denies b.part b.clr p = some sl → s.performPosted n =
          (({ s with posted := s.posted.eraseIdx n } : State).denial b.part b.vf p.va q.oid b.launch (.lane b.core) true sl.2 sl.1).modBlock
            q.blk fun b => if b.uid == q.blk then { b with unacked := b.unacked - 1 } else b)
  ∧ (∀ (s : State) n q op z p v b, s.posted[n]? = some q → q.op.what = .red op z (.global p) v → s.block? q.blk = none →
      s.savedBlock q.blk = some b → s.performPosted n =
        (let t := ({ s with posted := s.posted.eraseIdx n } : State).performRedOf b q op z p v;
         { t with launches := t.launches.map fun l => { l with saved := l.saved.map fun b =>
             if b.uid == q.blk then { b with unacked := b.unacked - 1 } else b } })))
  ∧ ((∀ z x v, atomNew .add z x v = x + v) ∧ (∀ z x v, atomNew .exch z x v = v) ∧ (∀ z x v, atomNew .and z x v = x &&& v)
  ∧ (∀ z x v, atomNew .or z x v = x ||| v) ∧ (∀ z x v, atomNew .xor z x v = x ^^^ v)
  ∧ (∀ z x v, accInt z (atomNew .min z x v) = min (accInt z x) (accInt z v))
  ∧ (∀ z x v, accInt z (atomNew .max z x v) = max (accInt z x) (accInt z v)))

/-- PHASE (R165, R166, R171, R200): with nothing of the block unacknowledged, `.pub` and `.full` drain the entries that the store
buffer held when the phase's wait began, oldest first, and `.ref` and `.full` make the newest home time the refresh point of every
byte; while something is unacknowledged a `.pub` or `.full` stands in the queue with its place in the store buffer marked. -/
def Obligations.PhasesPublishAndRefresh : Prop :=
  (∀ (s : State) k o pub ref mark picks b, o.what = .phase pub ref mark → s.block? k.b.uid = some b → (pub = true → b.unacked = 0) →
    ∃ b', (s.performOp k o picks).block? k.b.uid = some b'
      ∧ (pub = true → b'.storeBuf = b.storeBuf.drop (b.storeBuf.countP fun e => decide (e.no < mark.getD b.entered)))
      ∧ (pub = false → b'.storeBuf = b.storeBuf)
      ∧ (ref = true → b'.refresh = (s.performOp k o picks).now ∧ b'.refreshAt = [])
      ∧ (ref = false → b'.refresh = b.refresh))
  ∧ (∀ (s : State) k o ref mark picks b, o.what = .phase true ref mark → s.block? k.b.uid = some b → b.unacked ≠ 0 →
      s.performOp k o picks = s.modCur k fun c => { c with queue := { o with what := .phase true ref (some b.entered) } :: c.queue })

/-- FENCE, SFENCE, BAR, BARC and WAITC as they perform (R41, R147, R174, R177, R199, R201, R203, R205). A FENCE performs only when what
stands before it in its crew's queue is nothing, or, for `.crew` and `.block`, peer accesses; from `.clust` on only when its crew's REDs
have performed; it then has no effect, but that `.sys` writes the host tier's lines of the L2 back. SFENCE advances the generation of each handle bound to scratchpad from the bytes
named on, and no other's. At a BAR or BARC the lanes park, unless they complete the instance: then the next one is open with no
arrivals, and no lane stays parked at the old one. A WAITC reads its word at home, 0 where it is denied: its lane's coherence floor
rises there where the comparison is true, and else the lane parks. Which scratchpad bytes a handle is bound to, and that FENCE.sys
writes back and then waits for the acknowledgements outstanding, are the model's reading (log 28, log 44). -/
def Obligations.OrderingInstructionsPerform : Prop :=
  (∀ (s : State) k o sc picks, o.what = .fence sc → (sc ≠ .sys → s.performOp k o picks = s)
    ∧ (sc = .sys → s.performOp k o picks = s.cleanL2 fun l => l.print == none && decide (hostBase ≤ 256 * l.line)))
  ∧ (∀ (s : State) b ci c n o sc, c.queue[n]? = some o → o.what = .fence sc →
      (s.mayPerform b ci c n = true →
        ((sc = .crew ∨ sc = .block) → ∀ p ∈ c.queue.take n, p.what.peer b.core = true ∧ p.what.returns = false)
        ∧ ((sc = .clust ∨ sc = .part ∨ sc = .sys) → n = 0 ∧ ∀ q ∈ s.posted, q.blk = b.uid → q.crew ≠ ci))
      ∧ (n = 0 → (∀ q ∈ s.posted, q.blk ≠ b.uid) → (∀ l ∈ c.lanes, l.parked = false) →
          s.mayPerform b ci c n = true))
  ∧ (∀ (s : State) k o a len picks b, o.what = .sfence a len → s.block? k.b.uid = some b → ∃ b',
      (s.performOp k o picks).block? k.b.uid = some b' ∧ SameMemory s (s.performOp k o picks) ∧ b'.scratch = b.scratch
      ∧ b'.tiles = b.tiles ∧ b'.crews = b.crews ∧ b'.handles.length = b.handles.length
      ∧ ∀ (i : Nat) h, b.handles[i]? = some h → b'.handles[i]? = some (match h.inScratch with
        | some lo => if 0 < len.getD (b.scratchSize - a) ∧ lo < a + len.getD (b.scratchSize - a) ∧ a < b.scratchSize
            then { h with gen := h.gen + 1 } else h
        | none => h))
  ∧ (∀ (s : State) (k : Ctx) o (os : List Op) (b : Block), o.what = .bar → s.block? k.b.uid = some b →
      (let b0 := { b with barArr := b.barArr ++ os.map fun (o : Op) => (k.c.cid, o.lane) };
       (b0.barDone = false → ∃ b', (s.performEighth k o os).block? k.b.uid = some b' ∧ b'.barArr = b0.barArr ∧ b'.barInst = b.barInst
         ∧ ∀ p ∈ os, ∀ l, s.laneAt k.b.uid k.ci p.lane = some l → ∃ l', (s.performEighth k o os).laneAt k.b.uid k.ci p.lane = some l'
           ∧ l'.parked = true ∧ l'.act = false ∧ l'.park = some (.bar b.barInst) ∧ l'.v = l.v)
       ∧ (b0.barDone = true → s.performEighth k o os = (s.modBlock k.b.uid fun b =>
           { b with barArr := b.barArr ++ os.map fun (o : Op) => (k.c.cid, o.lane) }).settle k.b.uid)))
  ∧ (∀ b : Block, (b.barDone = true ↔ b.barArr ≠ [] ∧ ∀ c ∈ b.crews, c.live = true → ∀ (j : Nat) l, c.lanes[j]? = some l →
        l.done = false → l.trapped = false → (c.cid, j) ∈ b.barArr)
      ∧ (b.barDone = true → b.settleBar.barArr = [] ∧ b.settleBar.barInst = b.barInst + 1
          ∧ ∀ c ∈ b.settleBar.crews, ∀ l ∈ c.lanes, l.parked = true → l.park ≠ some (.bar b.barInst))
      ∧ (b.barDone = false → b.settleBar = b))
  ∧ (∀ (s : State) (k : Ctx) o (os : List Op) (b : Block), o.what = .barc → s.block? k.b.uid = some b →
      (let t := s.modBlock k.b.uid fun b => { b with barcArr := b.barcArr ++ os.map fun (o : Op) => (k.c.cid, o.lane) };
       (t.barcDone (t.blockOf k) = false → ∃ b', (s.performEighth k o os).block? k.b.uid = some b' ∧ b'.barcInst = b.barcInst
         ∧ ∀ p ∈ os, ∀ l, s.laneAt k.b.uid k.ci p.lane = some l → ∃ l', (s.performEighth k o os).laneAt k.b.uid k.ci p.lane = some l'
           ∧ l'.parked = true ∧ l'.act = false ∧ l'.park = some (.barc b.barcInst) ∧ l'.v = l.v)
       ∧ (t.barcDone (t.blockOf k) = true → s.performEighth k o os = t.settle k.b.uid)))
  ∧ (∀ (s : State) u b, s.block? u = some b → s.barcDone b = true → ∀ x ∈ s.blocks, x.uid ∈ (s.groupOf b).map (·.uid) →
      ∃ y ∈ (s.settleBarc u).blocks, y.uid = x.uid ∧ y.barcArr = [] ∧ y.barcInst = x.barcInst + 1
        ∧ ∀ c ∈ y.crews, ∀ l ∈ c.lanes, l.parked = true → l.park ≠ some (.barc x.barcInst))
  ∧ (∀ (s : State) k o cond z p rhs, o.what = .waitc cond z p rhs →
      (let s1 := (s.drainRun k.b.uid p.home p.size).l2Read k.b.vf k.b.core p;
       let no := s1.denies k.b.part k.b.clr p;
       let x : DWord := if no.isSome then 0 else BitVec.ofNat 64 (s1.numHome p.key p.home p.size);
       let s2 := (match no with
         | some sl => s1.denyLane k o.lane p.va false sl
         | none => s1);
       (Cond.eval cond (accInt z x) (accInt z rhs) = true →
         s.performEighth k o [o] = s2.modLane k.b.uid k.ci o.lane fun l => l.raise s1.now p.home p.size)
       ∧ (Cond.eval cond (accInt z x) (accInt z rhs) = false →
         s.performEighth k o [o] = s2.parkAfter k o.lane 1 (.waitc p.home p.va cond z rhs k.pc))))

/-- Arrival words (R208, R209): an ARRIVE, and an engine's marker, replace the word by what the update makes of it: an addition that
reaches the target starts the next generation at count zero, and any other adds; no other byte of the scratchpad changes. AWINIT sets
count and generation zero and the target given. An AWAIT whose word has left the generation named goes on, and one whose word has it
parks the lane; the lanes of an eighth do so in one move. -/
def Obligations.ArrivalWords : Prop :=
  (∀ w n, (bits w 24 24).toNat ≤ (bits w 0 24).toNat + n →
    bits (arrivalAdd w n) 0 24 = 0 ∧ bits (arrivalAdd w n) 24 24 = bits w 24 24 ∧ bits (arrivalAdd w n) 48 16 = bits w 48 16 + 1)
  ∧ (∀ w n, (bits w 0 24).toNat + n < (bits w 24 24).toNat →
      (bits (arrivalAdd w n) 0 24).toNat = (bits w 0 24).toNat + n ∧ bits (arrivalAdd w n) 24 24 = bits w 24 24
      ∧ bits (arrivalAdd w n) 48 16 = bits w 48 16)
  ∧ (∀ (s : State) k o a n picks, o.what = .arrive a n → s.performOp k o picks = s.arriveAt k.b.uid a n.toNat)
  ∧ (∀ (s : State) u a n b, s.block? u = some b → memWf b.scratch = true → ∃ b', (s.arriveAt u a n).block? u = some b'
      ∧ b'.scratchWord a = arrivalAdd (b.scratchWord a) n ∧ memWf b'.scratch = true
      ∧ ∀ y, y < a ∨ a + 8 ≤ y → memRead b'.scratch y = memRead b.scratch y)
  ∧ (∀ (s : State) k o a x picks b, o.what = .awinit a x → s.block? k.b.uid = some b → memWf b.scratch = true → ∃ b',
      (s.performOp k o picks).block? k.b.uid = some b' ∧ bits (b'.scratchWord a) 0 24 = 0 ∧ bits (b'.scratchWord a) 24 24 = x
      ∧ bits (b'.scratchWord a) 48 16 = 0 ∧ memWf b'.scratch = true
      ∧ ∀ y, y < a ∨ a + 8 ≤ y → memRead b'.scratch y = memRead b.scratch y)
  ∧ (∀ (s : State) k o a gen p a' gen' b, o.what = .await a gen → p.what = .await a' gen' → s.block? k.b.uid = some b →
      (b.genAt a' ≠ gen' → s.performEighth k o [p] = s)
      ∧ (b.genAt a' = gen' → s.performEighth k o [p] = s.parkAfter k p.lane 1 (.await a' gen'))
      ∧ ∀ os, s.performEighth k o (p :: os) = (s.performEighth k o [p]).performEighth k o os)

/-! ### Engine and system instructions (17_engines, 18_engine_instructions, 23_system_instructions) -/

/-- The matrix and collective instructions that act once for the crew (R178, R288, R291 to R294, R297, R298, R303, R305, R306)
complete wherever they issue: each queues itself with the operand values read now, MWRITE with those of every guard-true
active lane. MWAIT, MREAD and XWAIT (R295, R296, R307) complete wherever they issue: every guard-true active lane queues one
operation. The copy instructions (R275, R289, R299 to R302): where no lane's command fails a check of R302 they complete,
every guard-true active lane queuing its command with the values it read; an arrival word that is not aligned fails the check,
and so does one outside the scratchpad. -/
def Obligations.EngineInstructionsAreQueued : Prop :=
  ((∀ g l2 fmt h st a b, EngineResult (.mdesc g l2 fmt h st a b) fun c l =>
    if l2 then [c.rd64 l a] else [(c.rd l a).setWidth 64, (c.rd l b).setWidth 64])
  ∧ (∀ g t, EngineResult (.mzero g t) fun _ _ => [])
  ∧ (∀ g int t a b c, EngineResult (.mwrite g int t a b c) fun cr _ => (cr.takers g).flatMap fun p =>
      [(cr.rd p.2 b).setWidth 64, (cr.rd p.2 c).setWidth 64, (cr.rd p.2 a).setWidth 64])
  ∧ (∀ g sh t ha hb n ia ib, EngineResult (.mloop g sh t ha hb n ia ib) fun _ _ => [])
  ∧ (∀ g, EngineResult (.mfence g) fun _ _ => []) ∧ (∀ g d, EngineResult (.mstat g d) fun _ _ => [])
  ∧ (∀ g d a, EngineResult (.mstatLog g d a) fun c l => [(c.rd l a).setWidth 64])
  ∧ (∀ g t d, EngineResult (.mstatExp g t d) fun _ _ => []) ∧ (∀ g, EngineResult (.mstatClr g) fun _ _ => [])
  ∧ (∀ g d, EngineResult (.cstat g d) fun _ _ => []) ∧ (∀ g d, EngineResult (.cstatClr g d) fun _ _ => [])
  ∧ (∀ g sl a, EngineResult (.xgrp g sl a) fun c l => [c.rd64 l a]) ∧ (∀ g sl, EngineResult (.xgrpEnd g sl) fun _ _ => [])
  ∧ (∀ g sl io cb a, EngineResult (.xgather g sl io cb a) fun c l => [c.rd64 l a])
  ∧ (∀ g t sl io cb a, EngineResult (.xrscat g t sl io cb a) fun c l => [c.rd64 l a])
  ∧ (∀ g sl io cb a, EngineResult (.xa2a g sl io cb a) fun c l => [c.rd64 l a])
  ∧ (∀ g sl, EngineResult (.xbar g sl) fun _ _ => []))
  ∧ ((∀ g all t, QueueResult (.mwait g all t) (fun _ => True) fun k =>
    (k.c.takers g).map fun p => (p.1, .instr (.mwait g all t) []))
  ∧ (∀ g w t d a b, QueueResult (.mread g w t d a b) (fun _ => True) fun k => (k.c.takers g).map fun p =>
      (p.1, .instr (.mread g w t d a b) [(k.c.rd p.2 a).setWidth 64, (k.c.rd p.2 b).setWidth 64]))
  ∧ (∀ g sl, QueueResult (.xwait g sl) (fun _ => True) fun k => (k.c.takers g).map fun p => (p.1, .instr (.xwait g sl) [])))
  ∧ ((∀ i (pd pa : Bool) d a b e, ((∃ g r, i = Instr.cgather g r d a b e ∨ i = Instr.cscatter g r d a b e) ∧ pd = false ∧ pa = true)
      ∨ ((∃ g t r, i = Instr.cscatadd g t r d a b e) ∧ pd = false ∧ pa = true)
      ∨ ((∃ g dir mc w, i = Instr.ccopy g dir mc w d a e ∧ pd = (dir == .s2g) ∧ pa = (dir == .g2s)) ∧ b = .none)
      ∨ ((∃ g w, i = Instr.cfill g pd w d a e) ∧ pa = false ∧ b = .none) →
    QueueResult i (fun k => ∀ p ∈ k.c.takers i.guard,
        (let r := copyOf i (k.c.copyArg p.2 pd d) (k.c.copyArg p.2 pa a) (k.c.copyArg p.2 false b);
          r.1.check r.2.1 r.2.2 (k.c.rd p.2 e).toNat k.b.scratchSize) = none)
      fun k => (k.c.takers i.guard).map fun p => (p.1, .instr i
        [k.c.copyArg p.2 pd d, k.c.copyArg p.2 pa a, k.c.copyArg p.2 false b, k.c.copyArg p.2 false e]))
  ∧ (∀ (c : CKind) n b aw size, aw % 8 ≠ 0 → c.check n b aw size = some (.misaligned, aw))
  ∧ (∀ (c : CKind) n b aw size, aw % 8 = 0 → size < aw + 8 → c.check n b aw size = some (.scratchBound, aw)))

/-- The system instructions that act once for the crew (R371) complete wherever they issue by queuing themselves with the operand
values that the lowest guard-true active lane reads now, and change nothing else; they take effect as they perform. CNTRD (R387)
writes the counter its operand names to its pair as it issues, and the lanes that execute it pass the implicit rewind point after
it. That CNTRD reads the count as it issues is the model's reading of a rule that says only that it orders nothing (log 29). -/
def Obligations.SystemInstructionsAreQueued : Prop :=
  (∀ g one d a b e, EngineResult (.rsplit g one d a b e) fun c l => [c.arg l a, c.rd64 l b, c.rd64 l e])
  ∧ (∀ g d a b, EngineResult (.rmerge g d a b) fun c l => [c.arg l a, c.rd64 l b])
  ∧ (∀ g all a b e, EngineResult (.rinval g all a b e) fun c l => [c.arg l a, c.rd64 l b, c.arg l e])
  ∧ (∀ g d a b q, EngineResult (.rprobe g d a b q) fun c l => [c.arg l a, c.rd64 l b])
  ∧ (∀ g d a b q, EngineResult (.rprobeS2 g d a b q) fun c l => [c.arg l a, c.rd64 l b])
  ∧ (∀ g d a b e, EngineResult (.rcompact g d a b e) fun c l => [c.arg l a, c.rd64 l b, c.rd64 l e])
  ∧ (∀ g d a b, EngineResult (.netsave g d a b) fun c l => [c.arg l a, c.rd64 l b])
  ∧ (∀ g d a b, EngineResult (.netload g d a b) fun c l => [c.arg l a, c.rd64 l b])
  ∧ (∀ g a, EngineResult (.netdrain g a) fun c l => [c.arg l a]) ∧ (∀ g a, EngineResult (.netreset g a) fun c l => [c.arg l a])
  ∧ (∀ g d a b, EngineResult (.launch g d a b) fun c l => [c.arg l a, c.rd64 l b])
  ∧ (∀ g d a b e, EngineResult (.cntcfg g d a b e) fun c l => [c.arg l a, c.arg l b, c.arg l e])
  ∧ (∀ g d a b, EngineResult (.sealset g d a b) fun c l => [c.arg l a, c.rd64 l b])
  ∧ (∀ g d a, Completes (.cntrd g d a) fun k s => (s.modCur k fun c => c.putS g true d fun l =>
      pureVal ((((s.func k.b.vf).cnt[(c.rd l a).toNat]?).getD 0).setWidth 64)).passImplicit k g 1)

/-- The range instructions as they perform (R372, R374 to R378). An address space out of reach gives status 2, and a search that ends
otherwise its own status. RSPLIT replaces the descriptor by the ones it read, and shifts the rest of the table up for a second one,
where they may stand for it; RMERGE replaces two descriptors by one, and shifts the rest down; a walk sees the whole of an edit or
none of it. RINVAL waits for the accesses in flight that used an entry which meets its run, and then drops the run from the lookasides and ends the waits in it. RPROBE gives the descriptor found and true, or zeros
and false. RCOMPACT asks the fuller of its partition's die, or the host, to move the range.
Only bits 55 to 0 of an address are searched. All read at the newest position of home history. The order in which RCOMPACT makes
its checks is the model's choice (log 9). -/
def Obligations.RangeInstructionsPerform : Prop :=
  (∀ (s : State), s.lags = [] → ∀ k o g one d a b e xs,
    (s.reachesSpace k.b (xs.headD 0).toNat = false → s.performSystem k o (.rsplit g one d a b e) xs = s.sysDone k o d [2])
    ∧ (s.reachesSpace k.b (xs.headD 0).toNat = true →
      (∀ st, s.holding (xs.headD 0).toNat (xs.tail.headD 0).toNat = .error st →
        s.performSystem k o (.rsplit g one d a b e) xs = s.sysDone k o d [st])
      ∧ ∀ i x, s.holding (xs.headD 0).toNat (xs.tail.headD 0).toNat = .ok (i, x) →
        ((d1Bad x || d1Mode x == 2) = true → s.performSystem k o (.rsplit g one d a b e) xs = s.sysDone k o d [3])
        ∧ ((d1Bad x || d1Mode x == 2) = false →
          ∀ t r, s.sysFetch k o g ((xs.drop 2).headD 0).toNat (if one then 32 else 64) = (t, r) →
          (r = none → s.performSystem k o (.rsplit g one d a b e) xs = (t, true))
          ∧ ∀ bs, r = some bs →
            (let ns := (List.range (if one then 1 else 2)).map fun j => BitVec.ofNat 256 (leNat ((bs.drop (32 * j)).take 32));
             let y := t.dirEntry (xs.headD 0).toNat;
             (splitOk x ns = false → s.performSystem k o (.rsplit g one d a b e) xs = t.sysDone k o d [3])
             ∧ (splitOk x ns = true → one = false → 4095 ≤ dirN y →
                 s.performSystem k o (.rsplit g one d a b e) xs = t.sysDone k o d [4])
             ∧ (splitOk x ns = true → (one = true ∨ dirN y < 4095) → ∀ rest, t.tableFrom (xs.headD 0).toNat y (i + 1) (dirN y - (i + 1)) = some rest →
                 ∀ ps, t.tablePlaces y i (if one then ns else ns ++ rest).length = some ps →
                 s.performSystem k o (.rsplit g one d a b e) xs =
                   (let u := t.putTable ps (if one then ns else ns ++ rest);
                    ((if one then u else u.setTableSize (xs.headD 0).toNat (dirN y + 1)).edited (xs.headD 0).toNat t.now).sysDone k o d [0]))))))
  ∧ (∀ (s : State), s.lags = [] → ∀ k o g d a b xs,
    (s.reachesSpace k.b (xs.headD 0).toNat = false → s.performSystem k o (.rmerge g d a b) xs = s.sysDone k o d [2])
    ∧ (s.reachesSpace k.b (xs.headD 0).toNat = true →
      (∀ st, s.holding (xs.headD 0).toNat (xs.tail.headD 0).toNat = .error st →
        s.performSystem k o (.rmerge g d a b) xs = s.sysDone k o d [st])
      ∧ ∀ i x, s.holding (xs.headD 0).toNat (xs.tail.headD 0).toNat = .ok (i, x) →
        (let t := s.dirEntry (xs.headD 0).toNat;
         (dirN t ≤ i + 1 → s.performSystem k o (.rmerge g d a b) xs = s.sysDone k o d [2])
         ∧ (i + 1 < dirN t → ∀ y rest, s.tableFrom (xs.headD 0).toNat t (i + 1) (dirN t - (i + 1)) = some (y :: rest) →
             ((d1Bad x || d1Bad y || !mergeOk x y) = true → s.performSystem k o (.rmerge g d a b) xs = s.sysDone k o d [3])
             ∧ ((d1Bad x || d1Bad y || !mergeOk x y) = false → ∀ ps, s.tablePlaces t i (rest.length + 1) = some ps →
                 s.performSystem k o (.rmerge g d a b) xs =
                   (((s.putTable ps (setLimit x (d1Limit y) :: rest)).setTableSize (xs.headD 0).toNat (dirN t - 1)).edited
                     (xs.headD 0).toNat s.now).sysDone k o d [0])))))
  ∧ (∀ (s : State), s.lags = [] → ∀ k o g all a b e xs,
    (let asid := (xs.headD 0).toNat;
     let lo := (xs.tail.headD 0).toNat % 2 ^ 56 / 4096 * 4096;
     let n := ((xs.drop 2).headD 0).toNat * 4096;
     (((all = false ∧ n = 0) ∨ s.reachesSpace k.b asid = false) →
       s.performSystem k o (.rinval g all a b e) xs = (s.passImplicit k g 1, true))
     ∧ ((all = true ∨ n ≠ 0) → s.reachesSpace k.b asid = true →
       (s.inFlight k.b.part asid (fun p => runsMeet all lo n p.lo (p.hi + 1 - p.lo)) all lo n = true → s.performSystem k o (.rinval g all a b e) xs = (s, false))
       ∧ (s.inFlight k.b.part asid (fun p => runsMeet all lo n p.lo (p.hi + 1 - p.lo)) all lo n = false →
         s.performSystem k o (.rinval g all a b e) xs = ((s.invalidate k.b.part asid all lo n).payAllDenials.passImplicit k g 1, true)))))
  ∧ (∀ (s : State) part asid all lo n e, e ∈ (s.invalidate part asid all lo n).looks →
      e ∈ s.looks ∧ ¬ (e.core ∈ (s.part part).cores ∧ e.asid = asid
        ∧ runsMeet all lo n (d1Base e.d1 * 4096) (d1Size e.d1 * 4096) = true))
  ∧ (∀ (s : State), s.lags = [] → ∀ k o g d a b q asid va,
      s.performSystem k o (.rprobe g d a b q) [asid, va] = s.probeDone k o g d q
        (if s.reachesSpace k.b asid.toNat = true then
          (match s.walk asid.toNat (va.toNat % 2 ^ 56) with
           | .ok (_, x, _) => some x
           | .error _ => none) else none))
  ∧ (∀ (s : State), s.lags = [] → ∀ k o g d a b q vf ia,
      s.performSystem k o (.rprobeS2 g d a b q) [vf, ia] = s.probeDone k o g d q
        (if vf.toNat < 64 ∧ s.reaches k.b vf.toNat = true ∧ ia.toNat < 2 ^ 52 then s.s2Find vf.toNat ia.toNat else none))
  ∧ (∀ (s : State), s.lags = [] → ∀ k o g d a b e (asid va nia : DWord),
    (s.reachesSpace k.b asid.toNat = false → s.performSystem k o (.rcompact g d a b e) [asid, va, nia] = s.sysDone k o d [2])
    ∧ (s.reachesSpace k.b asid.toNat = true →
      (∀ c, s.walk asid.toNat (va.toNat % 2 ^ 56) = .error c →
        s.performSystem k o (.rcompact g d a b e) [asid, va, nia] = s.sysDone k o d [if c = .stage2 then 5 else 2])
      ∧ ∀ i x vf, s.walk asid.toNat (va.toNat % 2 ^ 56) = .ok (i, x, vf) →
        (let die := k.b.part / 8;
         (s.backingOk vf x nia.toNat = false → s.performSystem k o (.rcompact g d a b e) [asid, va, nia] = s.sysDone k o d [3])
         ∧ (s.backingOk vf x nia.toNat = true → (s.part k.b.part).hostMode 1 = true →
             s.performSystem k o (.rcompact g d a b e) [asid, va, nia] =
               (s.interrupt k.b.part vf 3 (BitVec.ofNat 64 va.toNat)).sysDone k o d [1])
         ∧ (s.backingOk vf x nia.toNat = true → (s.part k.b.part).hostMode 1 = false →
             (16 ≤ s.compacts.countP (fun c => c.die == die && !c.started) →
               s.performSystem k o (.rcompact g d a b e) [asid, va, nia] = s.sysDone k o d [4])
             ∧ (s.compacts.countP (fun c => c.die == die && !c.started) < 16 →
               s.performSystem k o (.rcompact g d a b e) [asid, va, nia] =
                 ({ s with compacts := s.compacts ++ [⟨die, asid.toNat, vf, k.b.part, d1Base x, nia.toNat / 4096, false⟩] } :
                   State).sysDone k o d [0])))))

/-- The network, list, counter and map instructions as they perform (R371, R372, R380, R381, R385, R386, R388). A number or list that
does not exist gives status 2, an event that does not exist 3, and a list of a higher KIND 3. CNTCFG sets event and filter, zeroes
its counter and its overflow bit, and no other counter. A network out of reach traps the lanes. NETDRAIN, NETSAVE and NETLOAD close
their network and wait while tokens are in it; then NETSAVE has written its record, and NETLOAD has loaded one. NETRESET leaves it
zero and open once it is empty. SEALSET gives its map slot the map read. The count CNTRD reads, and what LAUNCH writes beside a
status when H was not read, are the model's choice (log 29, log 9), as is that a network is closed again at every try of a
NETDRAIN, NETSAVE or NETLOAD (log 42). -/
def Obligations.SystemInstructionsPerform : Prop :=
  (∀ (s : State), s.lags = [] → ∀ k o g d a b e xs, 8 ≤ (xs.headD 0).toNat → s.performSystem k o (.cntcfg g d a b e) xs = s.sysDone k o d [2])
  ∧ (∀ (s : State), s.lags = [] → ∀ k o g d a b e (xs : List DWord), (xs.headD 0).toNat < 8 → 9 ≤ (xs.tail.headD 0).toNat →
      s.performSystem k o (.cntcfg g d a b e) xs = s.sysDone k o d [3])
  ∧ (∀ (s : State), s.lags = [] → ∀ k o g d a b e n ev f, n.toNat < 8 → ev.toNat < 9 → k.b.vf < s.funcs.length →
      (s.func k.b.vf).cnt.length = 8 → ∃ t : State, s.performSystem k o (.cntcfg g d a b e) [n, ev, f] = t.sysDone k o d [0]
        ∧ (t.func k.b.vf).record = setBytes (s.func k.b.vf).record (32 + 8 * n.toNat) (leBytes 4 ev.toNat ++ leBytes 4 f.toNat)
        ∧ ((t.func k.b.vf).cnt[n.toNat]?) = some 0 ∧ (t.func k.b.vf).ovf.getLsbD n.toNat = false
        ∧ (∀ j, j ≠ n.toNat → (t.func k.b.vf).cnt[j]? = (s.func k.b.vf).cnt[j]?
            ∧ (t.func k.b.vf).ovf.getLsbD j = (s.func k.b.vf).ovf.getLsbD j)
        ∧ (∀ v, v ≠ k.b.vf → t.func v = s.func v) ∧ SameMemory s t)
  ∧ (∀ (s : State), s.lags = [] → ∀ k o g d a b xs, 16 ≤ (xs.headD 0).toNat → s.performSystem k o (.sealset g d a b) xs = s.sysDone k o d [2])
  ∧ (∀ (s : State), s.lags = [] → ∀ k o g d a b xs t bs, (xs.headD 0).toNat < 16 → s.sysFetch k o g (xs.tail.headD 0).toNat 8192 = (t, some bs) →
      s.performSystem k o (.sealset g d a b) xs =
        (t.modPart k.b.part fun p => { p with maps := p.maps.set (xs.headD 0).toNat (sealsOf bs) }).sysDone k o d [0])
  ∧ (∀ bs n, n ∈ sealsOf bs ↔ n / 8 < bs.length ∧ (bs[n / 8]?.getD 0).getLsbD (n % 8) = true)
  ∧ (∀ (s : State), s.lags = [] → ∀ k o g d a b xs, 8 ≤ (xs.headD 0).toNat →
      s.performSystem k o (.launch g d a b) xs = s.launchDone k o d 2 none)
  ∧ (∀ (s : State), s.lags = [] → ∀ k o g d a b xs, (xs.headD 0).toNat < 8 →
      (let l := (s.func k.b.vf).listRec (xs.headD 0).toNat;
       (listKind l = 0 → s.performSystem k o (.launch g d a b) xs = s.launchDone k o d 2 none)
       ∧ (listKind l ≠ 0 → min k.b.level 3 < listKind l → s.performSystem k o (.launch g d a b) xs = s.launchDone k o d 3 none)
       ∧ (listKind l ≠ 0 → listKind l ≤ min k.b.level 3 → ∀ s1 bs, s.sysFetch k o g (xs.tail.headD 0).toNat 64 = (s1, some bs) →
           ∀ s2 ps, s1.checkRun k.b.core (listAsid l) k.b.part k.b.clr (listRing l) 16 .read = (s2, .ok ps) →
           ∀ s3 ht, s2.readRun k.b.vf k.b.core ps = (s3, ht) →
           (let h : DWord := dwordOf (ht.take 8);
            let t : DWord := dwordOf (ht.drop 8);
            ((listSize l : Int) ≤ (h.toNat : Int) - t.toNat → s.performSystem k o (.launch g d a b) xs = s3.launchDone k o d 4 (some h))
            ∧ ((h.toNat : Int) - t.toNat < (listSize l : Int) →
              ∀ s4 rs, s3.checkRun k.b.core (listAsid l) k.b.part k.b.clr (listSlot l h.toNat) 64 .write = (s4, .ok rs) →
              ∀ s5 hs, s4.checkRun k.b.core (listAsid l) k.b.part k.b.clr (listRing l) 8 .write = (s5, .ok hs) →
              s.performSystem k o (.launch g d a b) xs =
                ((s5.writeRun k.b.vf k.b.uid rs bs).writeRun k.b.vf k.b.uid hs (leBytes 8 (h + 1).toNat)).launchDone k o d 0
                  (some h))))))
  ∧ (∀ (s : State), s.lags = [] → ∀ k o i g d a b xs, (i = Instr.netdrain g a ∨ i = .netreset g a ∨ i = .netsave g d a b ∨ i = .netload g d a b) →
      s.reachesNet k.b (xs.headD 0).toNat = false →
      s.performSystem k o i xs = (s.trapTakers k g .netNotGranted (BitVec.ofNat 64 (xs.headD 0).toNat), true))
  ∧ (∀ (s : State), s.lags = [] → ∀ k o g a xs, s.reachesNet k.b (xs.headD 0).toNat = true →
      s.performSystem k o (.netdrain g a) xs = (let t := s.closeNet (xs.headD 0).toNat;
        if (t.net (xs.headD 0).toNat).quiet then (t.passImplicit k g 1, true) else (t, false)))
  ∧ (∀ (s : State), s.lags = [] → ∀ k o g a n, s.reachesNet k.b n.toNat = true → n.toNat < s.nets.length → (s.net n.toNat).tokens = [] →
      ∃ t, s.performSystem k o (.netreset g a) [n] = (t.passImplicit k g 1, true) ∧ (t.net n.toNat).bal = 0
        ∧ (t.net n.toNat).cnt = List.replicate 16 0 ∧ (t.net n.toNat).closed = false ∧ SameMemory s t
        ∧ ∀ m, m ≠ n.toNat → t.net m = s.net m)
  ∧ (∀ (s : State), s.lags = [] → ∀ k o g d a b n va, s.reachesNet k.b n.toNat = true →
      ∀ t ps, s.sysRun k g va.toNat 96 .write = (t, some ps) → ((t.closeNet n.toNat).net n.toNat).quiet = true →
      s.performSystem k o (.netsave g d a b) [n, va] =
        ((t.closeNet n.toNat).sysWrite k o.lane (eights ps) (((t.closeNet n.toNat).net n.toNat).recordOf n.toNat)).sysDone k o d [0])
  ∧ (∀ (s : State), s.lags = [] → ∀ k o g d a b n va, s.reachesNet k.b n.toNat = true → ∀ t bs, s.sysFetch k o g va.toNat 96 = (t, some bs) →
      (recordOk n.toNat bs = false → s.performSystem k o (.netload g d a b) [n, va] = t.sysDone k o d [3])
      ∧ (recordOk n.toNat bs = true → ((t.closeNet n.toNat).net n.toNat).quiet = true →
        s.performSystem k o (.netload g d a b) [n, va] = ((((t.closeNet n.toNat).modNet n.toNat fun x =>
          x.ofRecord (((List.range 12).map fun j => dwordOf ((bs.drop (8 * j)).take 8)).flatMap bytesOf)).openNet n.toNat).sysDone
            k o d [0])))

/-! ### The engines' own moves (16, 17_engines, 18_engine_instructions) -/

/-- MATRIX_CMD_EXECUTE (R256, R263, R264, R270, R273, R291 to R294): a block's oldest command, when it has not begun,
completes and leaves the unit: MZERO with its tile cleared, MWRITE with its elements in a tile that takes its kind; a tile of the
other kind is left, with REF set. An MLOOP whose handles have formats begins where these pair and its tiles take the pair's kind, its
first operands being read ahead, and is refused where one of these does not hold. A unit that a pre-emption has stopped begins none. -/
def Obligations.MatrixCommandsExecute : Prop :=
  (∀ (s : State) u b, s.block? u = some b → b.unitStops = true → exec (.matrixCmdExecute u) s = .next s)
  ∧ (∀ (s : State) u b m rest t, s.block? u = some b → b.unitStops = false → b.mcmds = m :: rest → m.begun = false → m.kind = .mzero t →
    ∃ s' b', exec (.matrixCmdExecute u) s = .next s' ∧ SameMemory s s' ∧ s'.block? u = some b'
      ∧ b'.tiles = b.tiles.set t Tile.zero ∧ b'.mcmds = b.mcmds.filter (·.id != m.id))
  ∧ (∀ (s : State) u b m rest int t els, s.block? u = some b → b.unitStops = false → b.mcmds = m :: rest → m.begun = false →
      m.kind = .mwrite int t els → ((b.tiles[t]?).getD Tile.zero).takes int = true →
      ∃ s' b', exec (.matrixCmdExecute u) s = .next s' ∧ SameMemory s s' ∧ s'.block? u = some b' ∧ b'.tiles = b.tiles.set t
          (((b.tiles[t]?).getD Tile.zero).write int (els.map fun (e : Nat × Nat × Word) => (64 * e.1 + e.2.1, e.2.2)))
        ∧ b'.mcmds = b.mcmds.filter (·.id != m.id))
  ∧ (∀ (s : State) u b m rest int t els, s.block? u = some b → b.unitStops = false → b.mcmds = m :: rest → m.begun = false →
      m.kind = .mwrite int t els → ((b.tiles[t]?).getD Tile.zero).takes int = false →
      ∃ s' b', exec (.matrixCmdExecute u) s = .next s' ∧ SameMemory s s' ∧ s'.block? u = some b' ∧ b'.tiles = b.tiles
        ∧ b'.ref = true ∧ b'.mcmds = b.mcmds.filter (·.id != m.id))
  ∧ (∀ (s : State) u b m rest h, s.block? u = some b → b.unitStops = false → b.mcmds = m :: rest → m.begun = false → m.kind = .mdesc h →
      ∃ s' b', exec (.matrixCmdExecute u) s = .next s' ∧ SameMemory s s' ∧ s'.block? u = some b' ∧ b'.tiles = b.tiles
        ∧ b'.handles = b.handles ∧ b'.mcmds = b.mcmds.filter (·.id != m.id))
  ∧ (∀ (s : State) u b m rest sh t n a c ha hb x y s1 s2 fa fb, s.block? u = some b → b.unitStops = false → b.mcmds = m :: rest →
      m.begun = false → m.kind = .mloop sh t n a c ha hb x y → s.beginFormat b ha = (s1, some (.ok fa)) →
      s1.beginFormat b hb = (s2, some (.ok fb)) →
      (∀ int, pairKind fa fb = some int → ((b.tiles.drop t).take (sh.dims.1 * sh.dims.2)).all (·.takes int) = true →
        exec (.matrixCmdExecute u) s = .next ((s2.modBlock u fun b =>
          { b with mcmds := b.mcmds.map fun c => if c.id == m.id then { c with begun := true, int := int } else c }).fetchAhead b
            m.kind int 0))
      ∧ (∀ int, pairKind fa fb = some int → ((b.tiles.drop t).take (sh.dims.1 * sh.dims.2)).all (·.takes int) = false →
        exec (.matrixCmdExecute u) s = .next (s2.mRefuse b m 0))
      ∧ (pairKind fa fb = none → exec (.matrixCmdExecute u) s = .next (s2.mRefuse b m 0)))

/-- The matrix instructions that perform from the queue (R181, R256, R259, R262, R264, R289, R291 to R298). A command is accepted behind
the block's others, under a number of its own, and not begun; an MLOOP with its handles' bindings as they are then. MDESC binds its
handle and advances its generation, and no other's; MFENCE advances every handle's. MREAD writes what the element reads as in the tile
as it is, or as it was since a command that writes it issued and until an MWAIT has covered that command. MWAIT lets its lanes go on,
or parks them for the commands it waits for. MSTAT writes the words of the unit's state, and `.clr` clears the flags and the log.
That a generation is a number without bound, and the ROW and ELEM of a log entry in two cases, are the model's choice (log 17, log
18). -/
def Obligations.MatrixInstructionsPerform : Prop :=
  (∀ (s : State) k o picks g t xs, o.what = .instr (.mzero g t) xs → s.performOp k o picks = s.acceptM k o (.mzero t.toNat))
  ∧ (∀ (s : State) k o picks g int t a b c xs, o.what = .instr (.mwrite g int t a b c) xs →
      s.performOp k o picks = s.acceptM k o (.mwrite int t.toNat (elementsOf xs)))
  ∧ (∀ r c v xs, elementsOf (r :: c :: v :: xs) = ((bits r 0 6).toNat, (bits c 0 6).toNat, bits v 0 32) :: elementsOf xs)
  ∧ (∀ (s : State) k o picks g sh t ha hb n ia ib xs b x y, o.what = .instr (.mloop g sh t ha hb n ia ib) xs →
      s.block? k.b.uid = some b → b.handles[ha.toNat]? = some x → b.handles[hb.toNat]? = some y →
      s.performOp k o picks = s.acceptM k o (.mloop sh t.toNat n.toNat ha.toNat hb.toNat x y ia.toInt ib.toInt))
  ∧ (∀ (s : State) k o kind b, s.block? k.b.uid = some b → ∃ m, SameMemory s (s.acceptM k o kind)
      ∧ (s.acceptM k o kind).block? k.b.uid = some { b with mcmds := b.mcmds ++ [m], nextCmd := b.nextCmd + 1 }
      ∧ m.kind = kind ∧ m.id = b.nextCmd ∧ m.crew = k.ci ∧ m.lane = o.lane ∧ m.pc = o.pc ∧ m.begun = false ∧ m.step = 0
      ∧ ∀ v, v ≠ k.b.uid → (s.acceptM k o kind).block? v = s.block? v)
  ∧ (∀ (s : State) k o picks g l2 fmt (h : BitVec 4) stride a b c xs x, o.what = .instr (.mdesc g l2 fmt h stride a b) xs →
      s.block? k.b.uid = some c → c.handles[h.toNat]? = some x → ∃ c' m, SameMemory s (s.performOp k o picks)
      ∧ (s.performOp k o picks).block? k.b.uid = some c' ∧ c'.mcmds = c.mcmds ++ [m] ∧ m.kind = .mdesc h.toNat ∧ c'.tiles = c.tiles
      ∧ c'.handles[h.toNat]? = some ⟨some (if l2 then .l2 fmt (xs.headD 0).toNat stride.toNat
          else .sp fmt (xs.headD 0).toNat (xs.tail.headD 0).toNat stride.toNat), x.gen + 1⟩
      ∧ ∀ j, j ≠ h.toNat → c'.handles[j]? = c.handles[j]?)
  ∧ (∀ (s : State) k o picks g xs b, o.what = .instr (.mfence g) xs → s.block? k.b.uid = some b → ∃ b', SameMemory s (s.performOp k o picks)
      ∧ (s.performOp k o picks).block? k.b.uid = some b' ∧ b'.mcmds = b.mcmds ∧ b'.tiles = b.tiles
      ∧ b'.handles = b.handles.map fun h => { h with gen := h.gen + 1 })
  ∧ (∀ (s : State) b ci c n o g xs, c.queue[n]? = some o → o.what = .instr (.mfence g) xs → s.mayPerform b ci c n = true →
      (∀ p ∈ c.queue.take n, p.ins = o.ins) ∧ (∀ q ∈ s.posted, q.blk = b.uid → q.crew ≠ ci)
      ∧ ∀ m ∈ b.mcmds, m.crew = ci → ∀ sh t n ha hb x y ia ib, m.kind ≠ .mloop sh t n ha hb x y ia ib)
  ∧ (∀ (s : State) k o picks g i64 t d a b xs c, o.what = .instr (.mread g i64 t d a b) xs → s.block? k.b.uid = some c →
      ∃ x ∈ c.tileSeen t.toNat, s.performOp k o picks = s.modCur k (·.putWords o.lane d
        (let n := 64 * (bits (xs.headD 0) 0 6).toNat + (bits (xs.tail.headD 0) 0 6).toNat;
         if i64 then [bits (x.readI64 n) 0 32, bits (x.readI64 n) 32 32] else [x.readF32 n])))
  ∧ (∀ (b : Block) t x y, b.tiles[t]? = some y → (x ∈ b.tileSeen t ↔ x = y ∨ ∃ n, (t, x, n) ∈ b.past ∧ ∃ m ∈ b.pending,
      t ∈ m.tiles ∧ m.turn ≤ n))
  ∧ (∀ (t : Tile) n, t.m[n]? = some nanM → t.readF32 n = 0x7FC00000 ∧ t.readI64 n = 0xFFFF800000000000)
  ∧ (∀ (t : Tile) n m, t.m[n]? = some m → m ≠ nanM → (t.e = none → t.readF32 n = 0 ∧ t.readI64 n = 0)
      ∧ ∀ e, t.e = some e → t.readI64 n = BitVec.ofInt 64 m
          ∧ t.readF32 n = BitVec.ofNat 32 (roundTo .f32 .rne false false (finOf m e false) 0).1)
  ∧ (∀ (s : State) k o (os : List Op) g all t xs b, o.what = .instr (.mwait g all t) xs → s.block? k.b.uid = some b →
      (b.mwaitFor k.ci all t.toNat = [] →
        s.performEighth k o os = s.modBlock k.b.uid fun b => b.cover k.ci o.ins all t.toNat)
      ∧ (b.mwaitFor k.ci all t.toNat ≠ [] → ∀ p ∈ os, ∀ l, s.laneAt k.b.uid k.ci p.lane = some l →
          (∀ q ∈ os, q.lane = p.lane → q.ins = p.ins) → ∃ l', (s.performEighth k o os).laneAt k.b.uid k.ci p.lane = some l'
          ∧ l'.parked = true ∧ l'.act = false ∧ l'.v = l.v
          ∧ l'.park = some (.mwait p.ins all t.toNat (b.mwaitFor k.ci all t.toNat))))
  ∧ (∀ (s : State) k o picks g d xs b, o.what = .instr (.mstat g d) xs → s.block? k.b.uid = some b → s.performOp k o picks =
      s.modCur k (·.putWords o.lane d [b.mstatWord, BitVec.ofNat 32 (min b.mlost (2 ^ 32 - 1))]))
  ∧ (∀ b : Block, b.mcmds.length ≤ 8 → b.mlog.length ≤ 16 → b.tiles.length ≤ 8 →
      (bits b.mstatWord 24 4).toNat = b.mcmds.length ∧ (bits b.mstatWord 16 5).toNat = b.mlog.length
      ∧ b.mstatWord.getLsbD 2 = b.ref ∧ b.mstatWord.getLsbD 1 = b.opf ∧ b.mstatWord.getLsbD 0 = b.ecc
      ∧ ∀ t, t < 8 → b.mstatWord.getLsbD (8 + t) = ((b.tiles[t]?).map (·.sat)).getD false)
  ∧ (∀ (s : State) k o picks g d a xs b, o.what = .instr (.mstatLog g d a) xs → s.block? k.b.uid = some b →
      (∀ e, b.mlog[(xs.headD 0).toNat]? = some e → s.performOp k o picks = s.modCur k (·.putWords o.lane d
        [BitVec.ofNat 32 (2 ^ 31 + e.elem * 2 ^ 11 + e.row % 128 * 16 + e.hnd), BitVec.ofNat 32 e.step]))
      ∧ (b.mlog[(xs.headD 0).toNat]? = none → s.performOp k o picks = s.modCur k (·.putWords o.lane d [0, 0])))
  ∧ (∀ (s : State) k o picks g t d xs b x, o.what = .instr (.mstatExp g t d) xs → s.block? k.b.uid = some b → b.tiles[t.toNat]? = some x →
      s.performOp k o picks = s.modCur k (·.putWords o.lane d [BitVec.ofNat 32 (x.sat.toNat * 2 ^ 19
        + (match x.kind with
           | .unset => 0
           | .float => 1
           | .int => 2) * 2 ^ 17
        + (match x.e with
           | some e => 2 ^ 16 + (BitVec.ofInt 16 e).toNat
           | none => 0)), 0]))
  ∧ (∀ (s : State) k o picks g xs, o.what = .instr (.mstatClr g) xs → s.performOp k o picks = s.modBlock k.b.uid fun b =>
      { b with ecc := false, opf := false, ref := false, mlog := [], mlost := 0 })

/-- MATRIX_KSTEP (R257, R263, R265 to R267): with both operands' rows read, the step's tile of the group takes the exact sum of its 64
products in every element, and no other tile changes; a unit that a pre-emption has stopped takes no step at a K-step boundary. In an integer
step an element takes the sum, held within the mantissa's range; an element that is NaN stays NaN in either. -/
def Obligations.MatrixStepsAccumulate : Prop :=
  (∀ (s : State) u cached ecc b m rest sh t n ha hb fa fb ia ib s1 s2 ra rb, s.block? u = some b → b.mcmds = m :: rest →
    m.begun = true → m.kind = .mloop sh t n ha hb fa fb ia ib →
    (let gw := sh.dims.2;
     let i := m.step % (sh.dims.1 * gw);
     let sno := m.step / (sh.dims.1 * gw);
     (b.unitStops = true → i = 0 → exec (.matrixKstep u cached ecc) s = .next s)
     ∧ ((b.unitStops = false ∨ i ≠ 0) →
     State.operandRows u m.id 0 ha fa ia m.int cached ecc sno ((List.range 64).map (· + 64 * (i / gw))) s = (s1, .ok ra) →
     State.operandRows u m.id 1 hb fb ib m.int cached ecc sno ((List.range 64).map (· + 64 * (i % gw))) s1 = (s2, .ok rb) →
     ∃ s' b', exec (.matrixKstep u cached ecc) s = .next s' ∧ s'.block? u = some b' ∧ b'.tiles = b.tiles.set (t + i)
       (let old := (b.tiles[t + i]?).getD Tile.zero;
        let sums := ra.flatMap fun x => rb.map fun y => stepElement x y;
        { (if m.int then old.stepInt (sums.map (·.onGrid 0)) else old.step sums) with kind := if m.int then .int else .float }))))
  ∧ (∀ (t : Tile) xs (j : Nat) a x, t.m[j]? = some a → xs[j]? = some x → a ≠ nanM →
      (t.stepInt xs).m[j]? = some (max (-maxM) (min (a + x) maxM)))
  ∧ (∀ (t : Tile) xs (j : Nat) x, t.m[j]? = some nanM → xs[j]? = some x → (t.stepInt xs).m[j]? = some nanM)
  ∧ (∀ (t : Tile) xs (j : Nat) x, t.m[j]? = some nanM → xs[j]? = some x → (t.step xs).m[j]? = some nanM)

/-- COPY_PIECE (R254, R255, R276, R278): a data piece that may perform does: one read from global memory lands its bytes, or
zeros where it faults (with the command's report), is denied (with a record) or is uncorrectable (with CECC set); one within
the block lands its source's bytes. A scale word's piece performs once its row's data pieces have. A piece that has performed,
or that a piece of an earlier row stands before, changes nothing. What a copy command's pieces bring where (R254, R274, R276,
R278, R290, R299). A piece that is written to global memory takes the source's bytes at its own offset of the row there, a
scatter-add's by one atomic add for each element, whose row is aligned to it; one that faults sets CERR and is reported once,
one that is denied leaves a record, one that waits for a granule asks for it, and none of these writes. An engine's write at
home reads as written, and every other byte as the L2 then has it. A scale word lands at its place after the rows, from its
word of the range's scale plane, or as zero where its row or its own read has failed or is uncorrectable. COPY_MARKER (R180,
R254, R277, R279): once every row before the next marker is done, an arrival word receives the bytes since the last one, data
and scale: with one receiver in one move, with several in one move for each, in an order that a free number picks (the model's
choice, log 3). At the last receiver of the last marker the command leaves its slot, and the crews of its block that have
stopped sweeping are looked at again; before a row is done, nothing changes. That a row's scale words land after its data is the
model's choice (log 7). -/
def Obligations.CopiesMove : Prop :=
  ((∀ (s : State) u n i p ecc b c, s.block? u = some b → b.ccmds[n]? = some c →
    (c.done.contains (i, p) = true ∨ c.rows ≤ i ∨ (p < c.pieceCount i ∧ c.mayPiece i p = false)) →
    exec (.copyPiece u n i p ecc) s = .next s)
  ∧ (∀ (s : State) u n i p ecc b c, s.block? u = some b → b.ccmds[n]? = some c → i < c.rows → c.pieceCount i ≤ p →
      c.done.contains (i, p) = false → exec (.copyPiece u n i p ecc) s = .next
        (if (List.range (c.pieceCount i)).all (fun q => c.done.contains (i, q)) then s.scalePiece b c i (p - c.pieceCount i) ecc else s))
  ∧ (∀ (s : State) u n i p b c, s.block? u = some b → b.ccmds[n]? = some c → i < c.rows → p < c.pieceCount i → c.mayPiece i p = true →
      (let lo := (c.piece i p).1;
       let len := (c.piece i p).2;
       let va := ((c.rowGlobal i).getD 0 + lo) % 2 ^ 64;
       let dst := (c.rowScratch i).getD 0 + lo;
       let done := fun (s : State) (bs : List Byte) (bad : Bool) => (s.land b c dst bs).modCmd u c.id fun c =>
         { c with done := (i, p) :: c.done, bad := if bad then (i :: c.bad).dedup else c.bad };
       (c.kind.reads = true →
         (∀ s' x, s.checkPiece b va len .read = (s', .ok x) → exec (.copyPiece u n i p false) s = .next
           (done (s'.engineRead b.vf b.core x).1 (s'.engineRead b.vf b.core x).2 false))
         ∧ (∀ s' ecc, s.checkPiece b va len .read = (s', .fault) →
           exec (.copyPiece u n i p ecc) s = .next (done (s'.copyFault b c va) (List.replicate len 0) true))
         ∧ (∀ s' sl ecc, s.checkPiece b va len .read = (s', .denied sl) →
           exec (.copyPiece u n i p ecc) s = .next (done (s'.copyDenied b c va false sl) (List.replicate len 0) true))
         ∧ ∀ s' x, s.checkPiece b va len .read = (s', .ok x) → exec (.copyPiece u n i p true) s = .next
             (done (s'.modBlock u fun b => { b with cecc := true }) (List.replicate len 0) false))
       ∧ (c.kind.reads = false → ∀ a ecc, c.rowGlobal i = some a → exec (.copyPiece u n i p ecc) s = .next (s.writeCopyPiece b c i p))
       ∧ (c.kind.reads = false → ∀ ecc, c.rowGlobal i = none → exec (.copyPiece u n i p ecc) s = .next
           ((s.land b c dst (c.sourceBytes b i lo len)).modCmd u c.id fun c => { c with done := (i, p) :: c.done })))))
  ∧ ((∀ (s : State) b c i p x a, s.block? b.uid = some x → c.rowGlobal i = some a →
    (let lo := (c.piece i p).1;
     let len := (c.piece i p).2;
     let va := (a + lo) % 2 ^ 64;
     let fin := fun (s : State) => s.modCmd b.uid c.id fun c => { c with done := (i, p) :: c.done };
     let put := fun (kind : AccKind) (w : State → Piece → State) =>
       (∀ t q, s.checkPiece b va len kind = (t, .ok q) → s.writeCopyPiece b c i p = fin (w t q))
       ∧ (∀ t, s.checkPiece b va len kind = (t, .fault) → s.writeCopyPiece b c i p = fin (t.copyFault b c va))
       ∧ (∀ t sl, s.checkPiece b va len kind = (t, .denied sl) → s.writeCopyPiece b c i p = fin (t.copyDenied b c va true sl))
       ∧ ∀ t w, s.checkPiece b va len kind = (t, .wait w) → s.writeCopyPiece b c i p = t.askResidency b c.crew c.lane va c.pc w;
     ((∀ ty base st ix src, c.kind ≠ .scatadd ty base st ix src) →
       put .write fun t q => t.engineWrite b.vf b.uid q (c.sourceBytes x i lo len))
     ∧ ∀ ty base st ix src, c.kind = .scatadd ty base st ix src →
       (a % (addAcc ty).size ≠ 0 → s.writeCopyPiece b c i p = fin (s.copyFault b c va))
       ∧ (a % (addAcc ty).size = 0 → put .red fun t q => t.addElements b q ty (c.sourceBytes x i lo len))))
  ∧ (∀ (c : CCmd) b i lo n (j : Nat), j < n → (c.sourceBytes b i lo n)[j]? = some (match c.kind with
      | .fill pat _ _ _ => BitVec.ofNat 8 (pat.toNat / 256 ^ ((lo + j) % 4))
      | .spsp src ss _ _ => memRead b.scratch (src + i * ss + lo + j)
      | _ => memRead b.scratch ((c.rowScratch i).getD 0 + lo + j)))
  ∧ (∀ (s : State) vf u p bs, memWf s.mem = true →
      (∀ j, j < bs.length → (s.engineWrite vf u p bs).readAt p.key (s.now + 1) (p.home + j) = bs[j]?.getD 0)
      ∧ ∀ y, y < p.home ∨ p.home + bs.length ≤ y →
          (s.engineWrite vf u p bs).readAt p.key (s.now + 1) y = (s.l2Write vf p .none).readAt p.key s.now y)
  ∧ (∀ (s : State) b p t bs, s.addElements b p t bs =
      (let w := (addAcc t).size;
       ((List.range (bs.length / w)).foldl (fun (r : State) j => r.writeThrough b.vf { p with va := p.va + j * w, home := p.home + j * w, size := w }
         (leBytes w ((atomNew (if t == .f32 then .fadd else .add) (addAcc t) (BitVec.ofNat 64 (r.numHome p.key (p.home + j * w) w))
           (BitVec.ofNat 64 (leNat ((bs.drop (j * w)).take w)))).toNat % 256 ^ w)))
         ((s.drainRun b.uid p.home p.size).l2Read b.vf b.core p)).owesHost b.uid p.home p.size .engine))
  ∧ (∀ (s : State) b c i j ecc, s.rowScales b c i = none → s.scalePiece b c i j ecc = s)
  ∧ (∀ (s : State) b c i m ia d vf, s.rowScales b c i = some (m, ia, d, vf) →
      (∀ j ecc, m ≤ j → s.scalePiece b c i j ecc = s)
      ∧ ∃ va n o, c.rowGlobal i = some va ∧ s.walk b.asid va = .ok (o, d, vf) ∧ n = chunkBytes (fmtTy (d1Fmt d)) ∧ d1Fmt d ≠ 0
        ∧ m = c.rb / n ∧ ia = d1Spb d * 4096 + (va - d1Base d * 4096) / n * 4)
  ∧ (∀ (s : State) b c i j m ia d vf va base st ix dst ds mc, s.rowScales b c i = some (m, ia, d, vf) → j < m → c.rowGlobal i = some va →
      c.kind = .gather base st ix dst ds mc →
      (let at_ := dst + c.rows * ds + 4 * (i * m + j);
       let zero := List.replicate 4 (0 : Byte);
       let put := fun (s : State) (w : List Byte) =>
         (if at_ + 4 ≤ b.scratchSize then s.land b c at_ w else s.copyFault b c at_).modCmd b.uid c.id fun c =>
           { c with
             done := (i, c.pieceCount i + j) :: c.done
             scaled := (i, ((c.scaled.lookup i).getD 0) + 4) :: c.scaled.filter (·.1 != i) };
       (∀ ecc, i ∈ c.bad → s.scalePiece b c i j ecc = put s zero)
       ∧ (∀ ecc, i ∉ c.bad → s.planePiece vf va (ia + 4 * j) 4 d = none → s.scalePiece b c i j ecc = put (s.copyFault b c va) zero)
       ∧ (∀ q, i ∉ c.bad → s.planePiece vf va (ia + 4 * j) 4 d = some q →
         s.scalePiece b c i j true = put (s.modBlock b.uid fun b => { b with cecc := true }) zero
         ∧ (∀ sl, s.denies b.part b.clr q = some sl → s.scalePiece b c i j false = put (s.copyDenied b c va false sl) zero)
         ∧ (s.denies b.part b.clr q = none →
           s.scalePiece b c i j false = put (s.engineRead b.vf b.core q).1 (s.engineRead b.vf b.core q).2)))))
  ∧ (∀ (s : State) u n b c, s.block? u = some b → b.ccmds[n]? = some c →
    (let rows := (List.range (c.nextMark - c.marked)).map (· + c.marked);
     let bytes := rows.foldl (fun x i => x + c.rb + (c.scaled.lookup i).getD 0) 0;
     let owed := if c.owed.isEmpty then s.landings b c else c.owed;
     (rows.all (s.rowDone b c) = false → exec (.copyMarker u n) s = .next s)
     ∧ (rows.all (s.rowDone b c) = true →
         (∀ r, owed = [r] → c.nextMark ≠ c.rows → exec (.copyMarker u n) s = .next
           ((s.arriveAt r c.aw bytes).modCmd u c.id fun c => { c with marked := c.nextMark, owed := [] }))
         ∧ (∀ r, owed = [r] → c.nextMark = c.rows → exec (.copyMarker u n) s = .next
           (((s.arriveAt r c.aw bytes).modBlock u fun b => { b with ccmds := b.ccmds.filter (·.id != c.id) }).settleCrews u))
         ∧ (2 ≤ owed.length → owed.Nodup → ∃ r, r ∈ owed ∧ exec (.copyMarker u n) s = .next
           ((({ s with draws := s.draws + 1 } : State).arriveAt r c.aw bytes).modCmd u c.id fun c =>
             { c with owed := owed.filter (· != r) })))))

/-- COLLECTIVE_DELIVER, COLLECTIVE_OP_COMPLETE, COLLECTIVE_TIMEOUT and COLLECTIVE_FALLBACK (R282 to R286): nothing is
delivered before every member has issued, nor of a mismatched operation; a chunk arrives in pieces; a reduction's element is
combined along the tree chosen and written to the inbox; an operation completes at a member when all of it is delivered and
its contribution read; a mismatch ends it with reports; a lane still in XWAIT at the timeout traps, and one that need not wait
does not; past the deadline an operation not begun takes a kernel on the core that the partition has room for it on. What a
collective's pieces bring where (R179, R282, R283, R306, R397). Piece p of member j's chunk, from offset 64 p of the chunk
that it has for this member, of at most 64 bytes, goes to the same place of chunk j of this member's inbox, once; it has come
when its write did not wait. A member of this device reads its source by its own translation and seals: zeros where the read
faults, which is reported, or is denied, which is recorded. A write to the inbox goes home; one that is denied is dropped and
recorded, one without a translation is dropped, and one that waits is made again. A piece of an operation's own chunk for a
member of another device is read and marked sent. That a piece is read and delivered in one move, and what other devices send, and
where a kernel runs are the model's choice (log 8, log 25, log 41). -/
def Obligations.CollectivesMove : Prop :=
  ((∀ (s : State) op m order c, s.coll? op = some c → (c.done || !s.allIssued c || (s.siblings c).any s.mismatched) = true →
    exec (.collectiveDeliver op m order) s = .next s)
  ∧ (∀ (s : State) op m order c, s.coll? op = some c → c.done = false → s.allIssued c = true → (s.siblings c).any s.mismatched = false →
      (m < c.slots → (c.op = 0 ∨ c.op = 2) →
        exec (.collectiveDeliver op m order) s = .next (order.foldl (fun s p => s.deliverPiece c m p) s))
      ∧ (c.slots ≤ m →
        exec (.collectiveDeliver op m order) s = .next (order.foldl (fun s p => s.sendPiece c (m - c.slots) p) s))
      ∧ (m < c.slots → c.op = 1 → m * (c.t.width / 8) < c.c → c.got.contains (m, 0) = false → ∀ s' vs t,
          State.elementValues c (c.group.self * c.c + m * (c.t.width / 8)) (c.t.width / 8) (List.range c.n) s = (s', some vs) →
          s'.writeInbox c (m * (c.t.width / 8)) ⟨leBytes (c.t.width / 8) (treeOf c.t vs.length order vs), c.oid, c.launch,
            (((s'.sibling c c.group.self).bind fun x =>
              (s'.readContribution x (c.group.self * c.c + m * (c.t.width / 8)) (c.t.width / 8)).2).map (·.sealId)).getD 0⟩ = (t, true) →
          exec (.collectiveDeliver op m order) s = .next (t.modColl c.id fun c => { c with got := (m, 0) :: c.got })))
  ∧ (∀ (s : State) op c, s.coll? op = some c → c.done = false → s.allIssued c = true →
      ((s.siblings c).filter s.mismatched = [] → c.full = true → s.contributionRead c = true →
        exec (.collectiveOpComplete op c.group.self) s = .next
          (((s.modColl c.id fun c => { c with done := true }).refreshInbox c).dropColls c))
      ∧ ((s.siblings c).filter s.mismatched ≠ [] → exec (.collectiveOpComplete op c.group.self) s = .next
          (let r := ((s.siblings c).filter s.mismatched).foldl (fun s x => s.collReport x 0) s;
            ((r.siblings c).foldl (fun s x => s.modColl x.id fun x => { x with done := true }) r).dropColls c)))
  ∧ (∀ (s : State) u ci l b x ins ops slot since lab off gr cr, s.parkedAt u ci l = some (b, x, .xwait ins ops slot since lab off) →
      b.groups[slot]? = some (some gr) → b.crews[ci]? = some cr →
      (since + (if gr.tmo = 0 then (s.part b.part).ctmo else gr.tmo) * perMicro ≤ s.clk.toNat →
       s.parkOver b ci (.xwait ins ops slot since lab off) = false →
        exec (.collectiveTimeout u ci l) s = .next (((s.modLane u ci l fun x =>
          { x with parked := false, park := none, waited := none }).trapLane ⟨b, ci, cr, lab, off⟩ l .collTimeout (BitVec.ofNat 64 slot)
            off lab (if off == lab then 0 else off)).settleCrew u ci))
      ∧ ((s.clk.toNat < since + (if gr.tmo = 0 then (s.part b.part).ctmo else gr.tmo) * perMicro
          ∨ s.parkOver b ci (.xwait ins ops slot since lab off) = true) → exec (.collectiveTimeout u ci l) s = .next s))
  ∧ (∀ (s : State) op c, s.coll? op = some c → c.got = [] → c.sent = [] → c.done = false → c.kernel = none →
      c.since + (s.part c.part).fbdl * perMicro ≤ s.clk.toNat →
      exec (.collectiveFallback op) s = .next (s.modColl op fun x => { x with kernel := s.kernelCore c.part c.launch })))
  ∧ ((∀ (s : State) c j p, (c.c ≤ 64 * p ∨ ((s.coll? c.id).map (·.got.contains (j, p))).getD true = true) → s.deliverPiece c j p = s)
  ∧ (∀ (s : State) (c x : COp) j p, 64 * p < c.c → s.coll? c.id = some x → x.got.contains (j, p) = false →
      (let src := (if c.op = 2 then c.group.self * c.c else 0) + 64 * p;
       (∀ t, s.memberBytes c j src (min 64 (c.c - 64 * p)) = (t, none) → s.deliverPiece c j p = t)
       ∧ ∀ t y, s.memberBytes c j src (min 64 (c.c - 64 * p)) = (t, some y) →
         (∀ u, t.writeInbox c (j * c.c + 64 * p) y = (u, true) →
           s.deliverPiece c j p = u.modColl c.id fun c => { c with got := (j, p) :: c.got })
         ∧ ∀ u, t.writeInbox c (j * c.c + 64 * p) y = (u, false) → s.deliverPiece c j p = u))
  ∧ (∀ (s : State) c j o n m, c.group.members[j]? = some m →
      (s.remote m = false → ∀ x, s.sibling c j = some x → s.memberBytes c j o n = s.readContribution x o n)
      ∧ (s.remote m = false → s.sibling c j = none → s.memberBytes c j o n = (s, none))
      ∧ (s.remote m = true → s.routed m.dev = false → s.memberBytes c j o n = (s, none))
      ∧ (s.remote m = true → s.routed m.dev = true → ∃ t y, s.memberBytes c j o n = (t, some y) ∧ y.bytes.length = n))
  ∧ (∀ (s : State) c o n t r, s.checkRun c.core c.asid c.part c.clr ((c.src + o) % 2 ^ 64) n .read = (t, r) →
      (∀ ps, r = .ok ps → s.readContribution c o n = ((t.readRun c.vf c.core ps).1,
        some ⟨(t.readRun c.vf c.core ps).2, c.oid, c.launch, (ps.head?.map (·.sealId)).getD 0⟩))
      ∧ (∀ e va, r = .fault e va → s.readContribution c o n = (t.collReport c va, some ⟨List.replicate n 0, c.oid, c.launch, 0⟩))
      ∧ (∀ sl va, r = .denied sl va → s.readContribution c o n =
        (t.denyColl c.part c.vf va c.oid c.launch c.core false sl, some ⟨List.replicate n 0, c.oid, c.launch, 0⟩))
      ∧ ∀ w va, r = .wait w va → s.readContribution c o n = (t.collWaits c va w, none))
  ∧ (∀ (s : State) c o y t r, s.checkRun c.core c.asid c.part c.clr (c.inbox + c.off + o) y.bytes.length .write = (t, r) →
      (∀ ps, r = .ok ps → s.writeInbox c o y = ((t.writeRun c.vf c.blk (ps.map fun p => { p with sealId := y.sealId }) y.bytes).modColl c.id
        fun c => { c with landed := c.landed ++ ps.map fun p => (p.home, p.size) }, true))
      ∧ (∀ e va, r = .fault e va → s.writeInbox c o y = (t, true))
      ∧ (∀ sl va, r = .denied sl va → s.writeInbox c o y = (t.denyColl c.part c.vf va y.oid y.launch c.core true sl, true))
      ∧ ∀ w va, r = .wait w va → s.writeInbox c o y = (t.collWaits c va w, false))
  ∧ (∀ (s : State) vf u p ps bs, s.writeRun vf u [] bs = s
      ∧ s.writeRun vf u (p :: ps) bs = (s.engineWrite vf u p (bs.take p.size)).writeRun vf u ps (bs.drop p.size))
  ∧ (∀ (s : State) vf core p, s.readRun vf core [p] = ((s.l2Read vf core p), (s.l2Read vf core p).readHome p.key p.home p.size))
  ∧ (∀ (s : State) c j p,
      ((c.c ≤ 64 * p ∨ s.owesChunk c j = false ∨ ((s.coll? c.id).map (·.sent.contains (j, p))).getD true = true) → s.sendPiece c j p = s)
      ∧ ∀ x : COp, 64 * p < c.c → s.owesChunk c j = true → s.coll? c.id = some x → x.sent.contains (j, p) = false →
        (∀ t y, s.readContribution c (j * c.c + 64 * p) (min 64 (c.c - 64 * p)) = (t, some y) →
          s.sendPiece c j p = t.modColl c.id fun c => { c with sent := (j, p) :: c.sent })
        ∧ ∀ t, s.readContribution c (j * c.c + 64 * p) (min 64 (c.c - 64 * p)) = (t, none) → s.sendPiece c j p = t))

/-- The collective instructions and CSTAT as they perform (R281, R284, R303 to R307). XGRP fails, and its lanes trap, where its slot is
live, its record cannot be read whole, or declares no group of this block; else the slot has the group, whose operations count from 1.
XGRP.end frees the slot. An operation takes its group's next number and stands open, and traps where the slot is not live. The lanes
of an XWAIT go on where the slot is not live or none of the block's operations on it is open, and else park. CSTAT writes the words of
the block's copy commands, and `.clr` clears the flags and the count. That XGRP.end of a slot that is not live frees it all the
same, and that a TMO out of range declares no group, are the model's reading (log 8). -/
def Obligations.CollectiveInstructionsPerform : Prop :=
  (∀ (s : State) k o picks g slot a xs, o.what = .instr (.xgrp g slot a) xs →
    (let va := (xs.headD 0).toNat;
     let fail := fun (s : State) => s.trapTakers k g .collError (BitVec.ofNat 64 va);
     let read := fun (s : State) n => s.checkRun k.b.core k.b.asid k.b.part k.b.clr va n .read;
     ((((s.blockOf k).groups[slot.toNat]?).getD none).isSome = true → s.performOp k o picks = fail s)
     ∧ ((((s.blockOf k).groups[slot.toNat]?).getD none).isSome = false →
       (∀ s1 c x, read s 32 = (s1, .fault c x) → s.performOp k o picks = fail s1)
       ∧ (∀ s1 sl x, read s 32 = (s1, .denied sl x) →
           s.performOp k o picks = fail (s1.denyColl k.b.part k.b.vf x (s1.oidOf k o.lane) k.b.launch k.b.core false sl))
       ∧ (∀ s1 w x, read s 32 = (s1, .wait w x) → s.performOp k o picks = s1.parkTakers k g x w)
       ∧ ∀ s1 ps, read s 32 = (s1, .ok ps) →
         (let s2 := s1.readRun k.b.vf k.b.core ps;
          (recCount s2.2 = none → s.performOp k o picks = fail s2.1)
          ∧ ∀ n s3 qs, recCount s2.2 = some n → read s2.1 (32 + 16 * n) = (s3, .ok qs) →
            (let s4 := s3.readRun k.b.vf k.b.core qs;
             (s4.1.groupRec k.b va s4.2 = none → s.performOp k o picks = fail s4.1)
             ∧ ∀ gr, s4.1.groupRec k.b va s4.2 = some gr → s.performOp k o picks = (s4.1.modBlock k.b.uid fun b =>
               { b with groups := b.groups.set slot.toNat (some gr) }).passImplicit k g (Instr.xgrp g slot a).len)))))
  ∧ (∀ (s : State) b va bs gr, s.groupRec b va bs = some gr → gr.count = 0 ∧ 2 ≤ gr.members.length ∧ gr.members.length ≤ 1024
      ∧ recField bs 16 16 = 0 ∧ gr.tmo = recField bs 4 4 ∧ gr.tmo ≤ 1000000 ∧ gr.tag = BitVec.ofNat 64 (recField bs 8 8)
      ∧ ∃ m, gr.members[gr.self]? = some m ∧ m.dev = s.devId.toNat ∧ m.part = b.part ∧ m.blk = b.bid
        ∧ s.inboxOk b.asid m.inbox = true)
  ∧ (∀ (s : State) k o picks g slot xs, o.what = .instr (.xgrpEnd g slot) xs → s.performOp k o picks =
      (s.modBlock k.b.uid fun b => { b with groups := b.groups.set slot.toNat none }).passImplicit k g (Instr.xgrpEnd g slot).len)
  ∧ (∀ (s : State) k o picks i g (slot : BitVec 4) op t (ioff cb : Word) xs, o.what = .instr i xs →
      ((∃ a, i = .xgather g slot ioff cb a ∧ op = 0) ∨ (∃ a, i = .xrscat g t slot ioff cb a ∧ op = 1)
        ∨ (∃ a, i = .xa2a g slot ioff cb a ∧ op = 2) ∨ (i = .xbar g slot ∧ op = 3 ∧ xs = [] ∧ ioff = 0 ∧ cb = 0)) →
      ((((s.blockOf k).groups[slot.toNat]?).getD none) = none → s.performOp k o picks = s.trapTakers k g .collError 0)
      ∧ ∀ gr, (((s.blockOf k).groups[slot.toNat]?).getD none) = some gr → ∃ c : COp, s.performOp k o picks =
          (({ s with colls := s.colls ++ [c], nextColl := s.nextColl + 1 } : State).modBlock k.b.uid fun b =>
            { b with groups := b.groups.set slot.toNat (some { gr with count := gr.count + 1 }) }).passImplicit k g i.len
        ∧ c.id = s.nextColl ∧ c.blk = k.b.uid ∧ c.slot = slot.toNat ∧ c.group = gr ∧ c.seq = gr.count + 1 ∧ c.op = op
        ∧ (op = 1 → c.t = t) ∧ c.src = (xs.headD 0).toNat ∧ c.c = cb.toNat ∧ c.off = ioff.toNat ∧ c.since = s.clk.toNat
        ∧ c.got = [] ∧ c.sent = [] ∧ c.done = false ∧ c.kernel = none)
  ∧ (∀ (s : State) k o (os : List Op) g slot xs b, o.what = .instr (.xwait g slot) xs → s.block? k.b.uid = some b →
      ((b.groups[slot.toNat]?).getD none = none ∨ (∀ c ∈ s.colls, c.blk = k.b.uid → c.slot = slot.toNat → c.done = true) →
        s.performEighth k o os = os.foldl (fun s o => s.modLane k.b.uid k.ci o.lane fun l => { l with waited := none }) s)
      ∧ (((b.groups[slot.toNat]?).getD none).isSome = true → ∀ c ∈ s.colls, c.blk = k.b.uid → c.slot = slot.toNat → c.done = false →
          ∃ since ops, c.id ∈ ops ∧ ((∀ l ∈ k.c.lanes, l.park = none ∧ l.waited = none) → since = s.clk.toNat) ∧ ∀ p ∈ os, ∀ l, s.laneAt k.b.uid k.ci p.lane = some l →
            (∀ q ∈ os, q.lane = p.lane → q = p) → ∃ l', (s.performEighth k o os).laneAt k.b.uid k.ci p.lane = some l'
            ∧ l'.parked = true ∧ l'.act = false ∧ l'.v = l.v ∧ l'.park = some (.xwait p.ins ops slot.toNat since p.lab p.pc)))
  ∧ (∀ (s : State) k o picks g d xs b, o.what = .instr (.cstat g d) xs → s.block? k.b.uid = some b →
      s.performOp k o picks = s.modCur k (·.putWords o.lane d b.cstatWords))
  ∧ (∀ (s : State) k o picks g d xs b, o.what = .instr (.cstatClr g d) xs → s.block? k.b.uid = some b → s.performOp k o picks =
      (s.modCur k (·.putWords o.lane d b.cstatWords)).modBlock k.b.uid fun b => { b with cecc := false, cerr := false, cden := 0 })
  ∧ (∀ b : Block, b.ccmds.length ≤ 16 → ∃ w, b.cstatWords = [w, BitVec.ofNat 32 (min b.cden (2 ^ 32 - 1))]
      ∧ (bits w 0 5).toNat = b.ccmds.length ∧ w.getLsbD 8 = b.cerr ∧ w.getLsbD 9 = b.cecc)

/-! ### Number networks and regrouping as they go on (R213, R223, R224, R229, R234) -/

/-- TOKEN_NUMBER_RETURN and NETWORK_DRAINED (R229, R234, R249, R250): the token that comes out on output i takes number i + 16 times the
output's count, which then advances; the token leaves the network and its operation the queue. While the network resets the number is
discarded, and the lane parks to run its TAKE again, unless it is parked at an earlier one. A reset network with no token left
is zero and open. NETCNT as it performs writes the sum of the network's counters, at one instant, to every lane that it writes.
That a lane with two TAKEs under way at a reset runs the earlier one again is the model's reading (log 45). -/
def Obligations.NetworkTokensReturn : Prop :=
  (∀ (s : State) n hops tok t i b c o, n < s.nets.length → (s.net n).tokens.find? (·.id == tok) = some t →
    (let x := (hops ++ List.replicate 10 tok).foldl Net.hop (s.net n);
     let num := i + 16 * (x.cnt[i]?.getD 0).toNat;
     (x.tokens.find? (·.id == tok)).bind (fun t => netWiring.2.findIdx? (· == t.wire)) = some i → x.resetting = false →
     s.crew? t.blk t.crew = some (b, c) → (c.queue.find? fun o => match o.what with
       | .token m id _ _ _ => m == n && id == tok
       | _ => false) = some o →
     ∃ u, exec (.tokenNumberReturn n hops tok) s = .next u ∧ SameMemory s u
       ∧ u.net n = { x with cnt := x.cnt.set i (x.cnt[i]?.getD 0 + 1), tokens := x.tokens.filter (·.id != tok) }
       ∧ u.queueAt t.blk t.crew = c.queue.filter (· != o)
       ∧ ∀ l, c.lanes[o.lane]? = some l → ∀ w32 d q m id, o.what = .token m id w32 d q → u.laneAt t.blk t.crew o.lane = some
           (if w32 then (l.wr d (BitVec.ofNat 32 num)).wr q (if 2 ^ 32 ≤ num then 1 else 0) else l.wr64 d (BitVec.ofNat 64 num))))
  ∧ (∀ (s : State) n hops tok t i b c o, n < s.nets.length → (s.net n).tokens.find? (·.id == tok) = some t →
    (let x := (hops ++ List.replicate 10 tok).foldl Net.hop (s.net n);
     (x.tokens.find? (·.id == tok)).bind (fun t => netWiring.2.findIdx? (· == t.wire)) = some i → x.resetting = true →
     s.crew? t.blk t.crew = some (b, c) → (c.queue.find? fun o => match o.what with
       | .token m id _ _ _ => m == n && id == tok
       | _ => false) = some o →
     ∃ u, exec (.tokenNumberReturn n hops tok) s = .next (u.netQuiet n) ∧ SameMemory s u
       ∧ (u.net n).tokens = x.tokens.filter (·.id != tok) ∧ u.queueAt t.blk t.crew = c.queue.filter (· != o)
       ∧ ∀ l, c.lanes[o.lane]? = some l → u.laneAt t.blk t.crew o.lane = some (l.parkAtTake n o)))
  ∧ (∀ (l : Lane) n o, (∀ m i, l.parked = true → l.park = some (.network m i) → i < o.ins → l.parkAtTake n o = l)
      ∧ ((∀ m i, l.parked = true → l.park = some (.network m i) → o.ins ≤ i) → l.parkAtTake n o =
        { l with parked := true, act := false, wl := o.lab, ro := if o.pc = o.lab then 0 else o.pc, park := some (.network n o.ins) }))
  ∧ (∀ (s : State) n, n < s.nets.length → (s.net n).closed = true → (s.net n).resetting = true → (s.net n).tokens = [] →
      ∃ u, exec (.networkDrained n) s = .next u ∧ SameMemory s u ∧ (u.net n).bal = 0 ∧ (u.net n).cnt = List.replicate 16 0
        ∧ (u.net n).closed = false ∧ (u.net n).resetting = false ∧ ∀ k, k ≠ n → u.net k = s.net k)
  ∧ (∀ (s : State) n, (s.net n).closed = true → (s.net n).resetting = false → exec (.networkDrained n) s = .next s)
  ∧ (∀ (s : State) k o n d picks b c, o.what = .netcnt n d → s.crew? k.b.uid k.ci = some (b, c) →
      (let x := ((s.net n).cnt.map (·.toNat)).sum;
       s.performOp k o picks = (o :: c.queue.filter fun p => p.ins == o.ins).foldl (fun s p =>
         s.modCur k (·.putWords p.lane d [BitVec.ofNat 32 x, BitVec.ofNat 32 (x / 2 ^ 32)]))
         (s.modCur k fun c => { c with queue := c.queue.filter fun p => p.ins != o.ins })))

/-- REGROUP_PAIR and REGROUP_TIMEOUT (R213, R223 to R225): of the waiting crews that may pair, the pair whose conditions came to hold first
is made, of those the one with the lowest receiver and then the lowest donor; the receiver takes the donor's live lanes and goes on
with q true, and the donor retires with every lane done. None is made in a block that stops or is aborted. A crew that has waited 1,024
cycles and may pair with none goes on with q false; one that may pair does not. A lane that moves brings its carried registers and its
own state, and the receiver's census counts it as any of its lanes; the slot keeps its other registers. The receiver issues nothing for 8
cycles for each register moved. What becomes of queued and posted operations of a donor is the model's choice (log 37). -/
def Obligations.RegroupingMoves : Prop :=
  (∀ (s : State) u i j b r d, s.block? u = some b → b.crews[i]? = some r → b.crews[j]? = some d →
    (b.pairsNext r d = true → b.stopping = false → b.abort = none → exec (.regroupPair u i j) s = .next
      (let t := s.modBlock u fun b => ({ b with pending := b.pending.map fun m => m.follow i j r d } : Block).modCrew i
         (fun r => { (r.receive d).endRegroup true with busy := max r.busy (s.cyc + 8 * (r.regroup.map (·.n)).getD 0 + s.late) })
         |>.modCrew j fun d => r.give d;
       ({ t with posted := t.posted.map fun (p : Posted) => p.follow u i j r d } : State).settle u))
    ∧ ((b.pairsNext r d = false ∨ b.stopping = true ∨ b.abort.isSome = true) → exec (.regroupPair u i j) s = .next s))
  ∧ (∀ (b : Block) r d, b.pairsNext r d = true → r.mayPair d = true ∧ ∀ x ∈ b.crews, ∀ y ∈ b.crews, x.mayPair y = true →
      (r.pairKey d).1 ≤ (x.pairKey y).1
      ∧ ((r.pairKey d).1 = (x.pairKey y).1 → r.cid ≤ x.cid ∧ (r.cid = x.cid → d.cid ≤ y.cid)))
  ∧ (∀ r d : Crew, r.mayPair d = true → r.cid < d.cid ∧ (∀ l ∈ r.lanes ++ d.lanes, l.parked = false ∧ l.trapped = false)
      ∧ d.lanes.countP (fun l => !l.done) ≤ r.lanes.countP (·.done)
      ∧ ∃ x y, r.regroup = some x ∧ d.regroup = some y ∧ x.off = y.off ∧ x.key = y.key
        ∧ max x.tried y.tried ≤ min x.since y.since + 1024)
  ∧ (∀ r d : Crew, (r.give d).seq = .retired ∧ (r.give d).regroup = none ∧ ∀ l ∈ (r.give d).lanes, l.done = true)
  ∧ (∀ (s : State) u i b c w, s.crew? u i = some (b, c) → c.regroup = some w →
      (w.since + 1024 ≤ s.cyc → (∀ y ∈ b.crews, c.mayPair y = false ∧ y.mayPair c = false) →
        ∃ t c', exec (.regroupTimeout u i) s = .next t ∧ SameMemory s t ∧ t.crew? u i = some (b.modCrew i (·.endRegroup false), c')
          ∧ c'.regroup = none ∧ c'.lanes = c.lanes.map fun l => if l.done then l else l.setPred w.q false)
      ∧ ((s.cyc < w.since + 1024 ∨ ∃ y ∈ b.crews, c.mayPair y = true ∨ y.mayPair c = true) → exec (.regroupTimeout u i) s = .next s))
  ∧ (∀ (a m : Lane) vf n, (a.moveInto m vf n).wl = m.wl ∧ (a.moveInto m vf n).oid = m.oid ∧ (a.moveInto m vf n).q = m.q
      ∧ (a.moveInto m vf n).link = m.link ∧ (a.moveInto m vf n).rng = m.rng ∧ (a.moveInto m vf n).resumed = false
      ∧ ∀ k, k < a.v.length → regAt (a.moveInto m vf n).v k = if vf ≤ k ∧ k < vf + n then regAt m.v k else regAt a.v k)

/-! ### The sequencer (04_sweep R33-R44, 05_encoding R49-R53) -/

/-- SPAN_CENSUS (R33, R36, R38, R39): the smallest label above the last that a lane wants is chosen. Where it is not the next label in
layout after the one visited last, the line in the fetch slot and the prefetch are discarded and its line is to load, 6 cycles later.
Where it is, and the line in the slot has it, its visit begins, once no line that tells a lane's offset bad waits, with exactly the lanes
that want it from its start active, and no register changes. With no label ahead the sweep ends. At the end of a visit the lanes still
active fall through, to the label it has come to, before the census. What the sequencer takes for the next label past the last one
is the model's choice (log 6). -/
def Obligations.CensusChoosesTheSmallest : Prop :=
  (∀ (c : Crew) lo x, c.smallest lo = some x →
    (∃ l ∈ c.lanes, l.wants = true ∧ l.wl = x) ∧ (∀ y, lo = some y → y.toNat < x.toNat)
      ∧ ∀ l ∈ c.lanes, l.wants = true → (∀ y, lo = some y → y.toNat < l.wl.toNat) → x.toNat ≤ l.wl.toNat)
  ∧ (∀ (s : State) u ci b c y x, s.crew? u ci = some (b, c) → b.heldAt c = false → c.seq = .census (some y) →
      c.smallest (some y) = some x → isHeader x.toNat = false → x.toNat / 16 < b.nline → s.farMove b c x = true →
      exec (.spanCensus u ci) s = .next (s.modCrew u ci fun c =>
        { c with
          line := none, next := none, seq := .load (x.toNat / 16) (.test (some y) x), busy := max c.busy (s.cyc + 6 + s.late) }))
  ∧ (∀ (s : State) u ci b c y x ln, s.crew? u ci = some (b, c) → b.heldAt c = false → c.seq = .census (some y) →
      c.smallest (some y) = some x → isHeader x.toNat = false → x.toNat / 16 < b.nline → s.farMove b c x = false → c.line = some ln →
      ln.idx = x.toNat / 16 → ln.label (x.toNat % 16 - 1) = true →
      s.roWaits b c x = none →
      (∀ l ∈ c.lanes, l.wants = true → l.wl = x → l.ro = 0 ∨ s.inSpan b c x.toNat l.ro.toNat = true) →
      ∃ t b' c', exec (.spanCensus u ci) s = .next t ∧ SameMemory s t ∧ t.crew? u ci = some (b', c') ∧ c'.seq = .visit x x ∧ c'.s = c.s
        ∧ ∀ (j : Nat) l, c.lanes[j]? = some l → ∃ l', c'.lanes[j]? = some l' ∧ l'.act = (l.wants && l.wl == x && l.ro == 0)
            ∧ l'.v = l.v ∧ l'.q = l.q ∧ l'.wl = l.wl ∧ l'.ro = l.ro)
  ∧ (∀ (s : State) u ci b c y, s.crew? u ci = some (b, c) → b.heldAt c = false → c.seq = .census (some y) →
      c.smallest (some y) = none → exec (.spanCensus u ci) s = .next (s.sweepEnd u ci))
  ∧ (∀ (s : State) u ci b c lab pc, s.crew? u ci = some (b, c) → b.heldAt c = false → c.seq = .visit lab pc →
      State.boundary b c lab pc = .over →
      exec (.spanCensus u ci) s = .next (State.takeCensus u ci censusFuel (some lab) (s.endVisit u ci pc)))
  ∧ (∀ (s : State) u ci b c pc, s.crew? u ci = some (b, c) → pc.toNat / 16 < b.nline → s.endVisit u ci pc = s.modCrew u ci fun c =>
      { c with lanes := c.lanes.map fun l => if l.act then { l with wl := pc, ro := 0, act := false } else l })

/-- FETCH_LINE_LOAD (R33, R39, R52, R361): the line in the fetch slot or the line prefetched serves when it is the one needed; otherwise it
is fetched, and a fault of its fetch traps the lanes that need it; where its granule is awaited it is fetched again later. A line that is
well formed goes into the fetch slot; one that is not is malformed, and neither the slot nor the prefetch keeps it. From the fetch slot the
sequencer goes on with the instruction it came to, or with the label it tests: a visit begins where the line has the label, and else the
lanes that want it trap. A line fetched is the 128 bytes of its place in the code as sixteen words, zeros where a seal denies it, each byte
from the core's instruction cache or as home memory was at one time since the launch was taken. Which copy of a line is consulted
for a label is the model's choice (log 6). -/
def Obligations.LinesAreLoaded : Prop :=
  (∀ (s : State) u ci time b c n k l, s.crew? u ci = some (b, c) → b.heldAt c = false → c.seq = .load n k → c.line = some l →
    l.idx = n → exec (.fetchLineLoad u ci time) s = .next (s.lineReady u ci l k))
  ∧ (∀ (s : State) u ci time b c n k l, s.crew? u ci = some (b, c) → b.heldAt c = false → c.seq = .load n k →
    (∀ x, c.line = some x → x.idx ≠ n) → c.next = some l → l.idx = n → exec (.fetchLineLoad u ci time) s = .next (s.lineLoaded u ci l k time))
  ∧ (∀ (s : State) u ci time b c n k s' l, s.crew? u ci = some (b, c) → b.heldAt c = false → c.seq = .load n k →
      (∀ x, c.line = some x → x.idx ≠ n) → (∀ x, c.next = some x → x.idx ≠ n) → s.fetch b ci c n time = (s', .line l) → exec (.fetchLineLoad u ci time) s = .next (s'.lineLoaded u ci l k time))
  ∧ (∀ (s : State) u ci time b c n k s' w, s.crew? u ci = some (b, c) → b.heldAt c = false → c.seq = .load n k →
      (∀ x, c.line = some x → x.idx ≠ n) → (∀ x, c.next = some x → x.idx ≠ n) → s.fetch b ci c n time = (s', .wait w) →
      exec (.fetchLineLoad u ci time) s = .next (s'.modCrew u ci fun c => { c with seq := .load n k }))
  ∧ (∀ (s : State) u ci n e b' c', (s.lineFault u ci n e).crew? u ci = some (b', c') →
      c'.line = none ∧ (∀ x, c'.next = some x → x.idx ≠ n) ∧ ∀ l ∈ c'.lanes, l.act = false)
  ∧ (∀ (s : State) u ci time b c n k s' e, s.crew? u ci = some (b, c) → b.heldAt c = false → c.seq = .load n k →
      (∀ x, c.line = some x → x.idx ≠ n) → (∀ x, c.next = some x → x.idx ≠ n) → s.fetch b ci c n time = (s', .fault e) →
      exec (.fetchLineLoad u ci time) s = .next ((s'.lineFault u ci n e).afterLineFault u ci k))
  ∧ (∀ (s : State) u ci l k time, l.wellFormed = true → s.lineLoaded u ci l k time =
      ((s.modCrew u ci fun c => { c with line := some l }).prefetch u ci (l.idx + 1) time).lineReady u ci l k)
  ∧ (∀ (s : State) u ci l, (∀ lab pc, s.lineReady u ci l (.run lab pc) = s.modCrew u ci fun c => { c with seq := .visit lab pc })
      ∧ ∀ lo x, (l.label (x.toNat % 16 - 1) = true → s.lineReady u ci l (.test lo x) = s.startVisit u ci lo x)
        ∧ (l.label (x.toNat % 16 - 1) = false → s.lineReady u ci l (.test lo x) =
          State.takeCensus u ci censusFuel lo (s.wantedFault u ci fun y => y.wants && y.wl == x)))
  ∧ (∀ (s : State) b ci c n time t ps r, State.translateRun b.core (some c.quad) b.asid .exec 4 s (b.code + 128 * n) 128 = (t, ps, r) →
      (∀ va e, r = some (va, .fault e) → s.fetch b ci c n time = (t, .fault e))
      ∧ (∀ va w, r = some (va, .park w) → s.fetch b ci c n time =
        (t.askResidency b ci (c.fetchLane n).1 va (BitVec.ofNat 32 (16 * n)) w, .wait w))
      ∧ (r = none → ∃ l, (s.fetch b ci c n time).2 = .line l ∧ l.idx = n ∧ l.words =
        if ∃ p ∈ ps, (t.denies b.part b.clr (pieceOf p.1 p.2.1 p.2.2)).isSome = true then List.replicate 16 0
        else (List.range 16).map fun i => dwordOf ((((t.codeBytes b (ps.map fun p => pieceOf p.1 p.2.1 p.2.2) time).2.drop (8 * i)).take 8))))
  ∧ (∀ (s : State) b p time, (linesOf p.home p.size).length = 1 → s.codeBytes b [p] time =
      (let r := s.codeLine b p.va ⟨p.home, p.key, p.sealId, p.tier, 0, 0⟩ (s.codeFrom b p.va p.home) time;
       (r.1, (r.2.drop (p.home % 256)).take p.size)))
  ∧ (∀ (s : State) b va x since time,
      (∀ l, s.inIcache b.core x.key (x.home / 256) since = some l → s.codeLine b va x since time = (s, l.data) ∧ since ≤ l.time)
      ∧ (s.inIcache b.core x.key (x.home / 256) since = none → since ≤ s.now → ∃ t, since ≤ t ∧ t ≤ s.now ∧
        (s.codeLine b va x since time).2 = (List.range 256).map fun i => s.readAt x.key t (x.home / 256 * 256 + i)))
  ∧ (∀ (s : State) u ci l k time, l.wellFormed = false →
      s.lineLoaded u ci l k time = (s.lineFault u ci l.idx .malformed).afterLineFault u ci k)

/-- LANE_UNPARK, WAITC_POLL, CREW_PROMOTE and LOCALITY_SCORE_DECAY (R43, R44, R177, R221, R222): a parked lane becomes eligible once
what it waits for has come about, keeping its registers, and its sleeping crew wakes; before that nothing changes. A crew that has been
ready for 1,024 cycles is promoted, and no cycles pass while one has been for 2,048; each 1,024 cycles a core's scores are halved, and
what a score counts for does not rest on when that is carried out. From when a crew is certainly ready is the model's choice (log
1). -/
def Obligations.LanesUnpark : Prop :=
  (∀ (s : State) u ci j b l w, s.parkedAt u ci j = some (b, l, w) → s.parkOver b ci w = true → ∃ t l', exec (.laneUnpark u ci j) s = .next t
    ∧ (∀ time a, t.byteAt time a = s.byteAt time a)
    ∧ t.laneAt u ci j = some l' ∧ l'.parked = false ∧ l'.v = l.v ∧ l'.q = l.q ∧ l'.wl = l.wl ∧ l'.ro = l.ro
    ∧ ∃ b' c', t.crew? u ci = some (b', c') ∧ (c'.lanes.any (·.eligible) = true → c'.seq ≠ .asleep))
  ∧ (∀ (s : State) u ci j b l w, s.parkedAt u ci j = some (b, l, w) → s.parkOver b ci w = false → exec (.laneUnpark u ci j) s = .next s)
  ∧ (∀ (s : State) u ci j b l home va cond z rhs off p, s.parkedAt u ci j = some (b, l, .waitc home va cond z rhs off) →
      s.waitcPiece b va z.size = some p →
      (s.waitcTrue b.part b.clr p cond z rhs = false → exec (.waitcPoll u ci j) s = .next s)
      ∧ (s.waitcTrue b.part b.clr p cond z rhs = true → exec (.waitcPoll u ci j) s =
          .next (((s.l2Read b.vf b.core p).modLane u ci j (·.raise s.now p.home z.size)).unpark u ci j)))
  ∧ (∀ (s : State) u ci b c, s.crew? u ci = some (b, c) →
      ((s.readyInstr b ci c).isSome = true → c.since + 1024 ≤ s.cyc →
        exec (.crewPromote u ci) s = .next (s.modCrew u ci fun c => { c with promoted := true }))
      ∧ (((s.readyInstr b ci c).isSome = false ∨ s.cyc < c.since + 1024) → exec (.crewPromote u ci) s = .next s))
  ∧ (∀ (s : State) cycles refs u ci b c, s.ready = true → s.crew? u ci = some (b, c) → (s.readyInstr b ci c).isSome = true →
      s.cyc ≤ max c.since c.busy + 2048 → (s.pass cycles refs).cyc ≤ max c.since c.busy + 2048)
  ∧ (∀ (s : State) core, s.decayed core + 1024 ≤ s.cyc → ∃ t, exec (.localityScoreDecay core) s = .next t ∧ SameMemory s t
      ∧ t.blocks = s.blocks.map (fun b => if b.core = core then { b with crews := b.crews.map fun c =>
          { c with score := c.score / 2 ^ ((s.cyc - s.decayed core) / 1024) } } else b)
      ∧ t.decayed core = s.decayed core + 1024 * ((s.cyc - s.decayed core) / 1024)
      ∧ ∀ c, t.scoreOf core { c with score := c.score / 2 ^ ((s.cyc - s.decayed core) / 1024) } = s.scoreOf core c)
  ∧ (∀ (s : State) core, s.cyc < s.decayed core + 1024 → exec (.localityScoreDecay core) s = .next s)

/-! ### Handler crews, blocks and launches (14_crews, 21_traps_preemption, 22_tenants) -/

/-- HANDLER_CREW_FORM_FULL and HANDLER_CREW_FORM_TIMEOUT (R332, R333): the lanes gathered on a core, up to 128, in gathering order, form a
handler crew at level 4 when 128 stand, or 256 cycles after the first, and its handler slot is free; where the granule of its image's
header is awaited none forms yet. Each handler lane starts at the partition's handler label with its origin's tag in v0 and v1.
The function and the code lines a handler crew has are the model's choice (log 13). -/
def Obligations.HandlerCrewsForm : Prop :=
  (∀ (s : State) core, s.handlerBusy core = false → 128 ≤ (s.gatheredOn core).length →
    exec (.handlerCrewFormFull core) s = .next (s.formHandler core ((s.gatheredOn core).take 128) ((s.gatheredOn core).drop 128)))
  ∧ (∀ (s : State) core, s.handlerBusy core = true →
      exec (.handlerCrewFormFull core) s = .next s ∧ exec (.handlerCrewFormTimeout core) s = .next s)
  ∧ (∀ (s : State) core h hs, s.handlerBusy core = false → s.gatheredOn core = h :: hs → h.time + 256 ≤ s.cyc →
      exec (.handlerCrewFormTimeout core) s = .next (s.formHandler core ((h :: hs).take 128) ((h :: hs).drop 128)))
  ∧ (∀ (s : State) core h hs rest n, s.imageLines core (s.part h.part).hasid (s.part h.part).himg = .ok n →
      ∃ b, (s.formHandler core (h :: hs) rest).blocks = s.blocks ++ [b] ∧ b.level = 4 ∧ b.hnd = h :: hs
        ∧ b.core = core ∧ b.code = (s.part h.part).himg + 128 ∧ b.nline = n ∧ b.asid = (s.part h.part).hasid
        ∧ b.crews = [handlerCrew (s.part h.part) core s.nextAge (h :: hs)])
  ∧ (∀ (s : State) core h hs rest w, s.imageLines core (s.part h.part).hasid (s.part h.part).himg = .error w →
      s.formHandler core (h :: hs) rest = s.askResidencyFront h.part ((s.part h.part).holder.getD 64) (s.part h.part).himg w)
  ∧ (∀ p core age hs (i : Nat) h, hs[i]? = some h → i < 128 → ∃ l, (handlerCrew p core age hs).lanes[i]? = some l
      ∧ l.wl = BitVec.ofNat 32 p.hlbl ∧ l.done = false ∧ regAt l.v 0 = bits h.tag 0 32 ∧ regAt l.v 1 = bits h.tag 32 32
      ∧ l.oid = BitVec.ofNat 32 (128 * (core - p.firstCore) + i))
  ∧ (∀ p core age hs (i : Nat), hs[i]? = none → i < 128 → ∃ l, (handlerCrew p core age hs).lanes[i]? = some l ∧ l.done = true)

/-- BLOCK_ABORT_STOP and BLOCK_COMPLETE (R170, R336, R338, R339): a block aborted stops once what has issued allows; its lanes are done but
for trapped ones, and its commands end but for scatter-adds; a block that has stopped does not stop again. A block whose crews have
retired with nothing under way is completed and leaves the machine, once its error record, where it has one, need not wait; but not
while an access that a block of its group has issued has still to reach its scratchpad (R148; the model's choice, log 27). An
error record whose write faults is dropped, by the model's choice (log 24). -/
def Obligations.BlocksEnd : Prop :=
  (∀ (s : State) u b, s.block? u = some b → b.abort = none → exec (.blockAbortStop u) s = .next s)
  ∧ (∀ (s : State) u b, s.block? u = some b → b.runs = false → exec (.blockAbortStop u) s = .next s)
  ∧ (∀ (s : State) u b x, s.block? u = some b → b.abort = some x → b.runs = true → b.midStep = false →
      (b.crews.all fun c => c.mayStop) = true →
      ∃ t b', exec (.blockAbortStop u) s = .next t ∧ SameMemory s t ∧ t.block? u = some b' ∧ b'.mcmds = []
        ∧ (∀ c ∈ b'.ccmds, ∃ t a r i o, c.kind = .scatadd t a r i o) ∧ b'.crews.length = b.crews.length
        ∧ ∀ (ci : Nat) c, b'.crews[ci]? = some c → c.queue = [] ∧ ∀ l ∈ c.lanes, l.act = false ∧ (l.trapped = false → l.done = true))
  ∧ (∀ (s : State) u b, s.block? u = some b → (b.crews.all fun c => c.seq == .retired && c.queue.isEmpty) = true → b.mcmds = [] →
      b.ccmds = [] → (s.posted.any (·.blk == u)) = false → s.peersReach b = false → b.hnd = [] → b.storeBuf = [] → b.unacked = 0 → b.errs? = false →
      ∃ t, exec (.blockComplete u) s = .next t ∧ SameMemory s t ∧ t.block? u = none ∧ (∀ v, v ≠ u → t.block? v = s.block? v)
        ∧ t.launch? b.launch = (s.launch? b.launch).map fun l => { l with completed := l.completed + 1 })
  ∧ (∀ (s : State) u b, s.block? u = some b → (b.crews.all fun c => c.seq == .retired && c.queue.isEmpty) = true → b.mcmds = [] →
      b.ccmds = [] → (s.posted.any (·.blk == u)) = false → s.peersReach b = false → b.hnd = [] → b.unacked = 0 → b.errs? = true →
      (∀ t va w, (s.drainAll u).writeError b = (t, .wait va w) →
        exec (.blockComplete u) s = .next ((s.drainAll u).askResidencyFront b.part b.vf va w))
      ∧ ∀ t, (s.drainAll u).writeError b = (t, .done) → exec (.blockComplete u) s = .next
          ((t.modLaunch b.launch fun l => { l with completed := l.completed + 1 }).removeBlock b))
  ∧ (∀ (s : State) u b, s.block? u = some b → (b.crews.all fun c => c.seq == .retired && c.queue.isEmpty) = false →
      exec (.blockComplete u) s = .next s)
  ∧ (∀ (s : State) u b, s.block? u = some b → s.peersReach b = true → exec (.blockComplete u) s = .next s)
  ∧ (∀ (s : State) b, s.peersReach b = true ↔ ∃ x ∈ s.groupOf b, x.uid ≠ b.uid ∧ ∃ c ∈ x.crews, ∃ o ∈ c.queue, b.core ∈ o.what.cores x.core)

/-- LAUNCH_LIST_TAKE, LIST_HEAD_WAKE and LAUNCH_COMPLETE (R360 to R362): after the words the front end owes, the list arbitration turns to
gives the record at its tail; the tail moves past the record before its arguments and header are checked, and a record whose check
waits is checked again before the list gives another; an empty list's head is watched until it passes the tail; a list arbitration turns
to whose head or tail cannot be read leaves service, and one it does not turn to changes nothing. A launch accepted takes the next number of the counter,
0 being skipped. One refused has its completion word written with STATE 3 and WHY, or owed while the word's granule is awaited. The
completion word of a launch is written once, when all its blocks have completed. Whose lookaside a front end uses, what a record
whose read faults leaves, and that a lost function's launches end without a word are the model's choice (log 16, log 19). -/
def Obligations.LaunchesAreTaken : Prop :=
  (∀ (s s0 : State) vf j l part core, j < 8 → (s.func vf).partNo = part → (s.func vf).listRec j = l → s.payWords part = s0 →
    (s0.part part).firstCore = core → s0.placing part = some vf →
    (∀ r, (s0.func vf).taken.lookup j = some r → exec (.launchListTake vf j) s = .next (s0.checkTaken part vf j r))
    ∧ ((s0.func vf).taken.lookup j = none → s0.listOn vf j = true → (s0.func vf).listRec j = l →
    (∀ s1 ps, s0.plainRun core (listAsid l) (listRing l) 16 .read = (s1, .ok ps) →
       (let s2 := (s1.readRun vf core ps).1;
        let h : DWord := BitVec.ofNat 64 (leNat ((s1.readRun vf core ps).2.take 8));
        let t : DWord := BitVec.ofNat 64 (leNat ((s1.readRun vf core ps).2.drop 8));
        ((h - t).toInt ≤ 0 → exec (.launchListTake vf j) s = .next (s2.modFunc vf fun f => { f with watched := (j :: f.watched).dedup }))
        ∧ (0 < (h - t).toInt → s2.arbitrate part ≠ some (.take j) → exec (.launchListTake vf j) s = .next s2)
        ∧ (0 < (h - t).toInt → s2.arbitrate part = some (.take j) → ∀ s3 ts,
            s2.plainRun core (listAsid l) (listRing l + 8) 8 .write = (s3, .ok ts) →
            exec (.launchListTake vf j) s = .next (s3.takeRecord part vf j l t ts))))
    ∧ (∀ s1 c va, s0.plainRun core (listAsid l) (listRing l) 16 .read = (s1, .fault c va) → exec (.launchListTake vf j) s =
        .next (if s0.arbitrate part = some (.take j) then s0.outOfService part vf j (listRing l) else s0))))
  ∧ (∀ (s : State) part vf j l t ts s1 ps, s.plainRun (s.part part).firstCore (listAsid l) (listSlot l t.toNat) 64 .read = (s1, .ok ps) →
      (let s2 := s1.readRun vf (s1.part part).firstCore ps;
       let r : BitVec 512 := BitVec.ofNat 512 (leNat s2.2);
       s.takeRecord part vf j l t ts = (((s2.1.noteTurn part vf (listKind l) 0).advanceTail vf j t ts).modFunc vf fun f =>
         { f with taken := f.taken ++ [(j, r)] }).checkTaken part vf j r))
  ∧ (∀ (s : State) part vf j r s1, (s.checkLaunch part vf r = (s1, .wait) → s.checkTaken part vf j r = s1)
      ∧ (∀ why, s.checkLaunch part vf r = (s1, .refuse why) → s.checkTaken part vf j r =
          (s1.modFunc vf fun f => { f with taken := f.taken.filter (· != (j, r)) }).refuseLaunch part vf r why)
      ∧ ∀ args h, s.checkLaunch part vf r = (s1, .accept args h) → s.checkTaken part vf j r =
          (s1.modFunc vf fun f => { f with taken := f.taken.filter (· != (j, r)) }).acceptLaunch part vf j r args h)
  ∧ (∀ (s : State) part vf j r args h, ∃ x : Launch, (s.acceptLaunch part vf j r args h).launches = s.launches ++ [x]
      ∧ x.id = (s.acceptLaunch part vf j r args h).launchCtr ∧ x.id = (if s.launchCtr + 1 = 0 then 1 else s.launchCtr + 1) ∧ x.nextBid = 0 ∧ x.completed = 0 ∧ x.record = r ∧ x.hdr = h
      ∧ x.args = args)
  ∧ (∀ (s : State) part vf r why s1,
      (s.writeWord part vf r 0 (completionWord 3 why 0 0) = (s1, true) → s.refuseLaunch part vf r why = s1)
      ∧ (s.writeWord part vf r 0 (completionWord 3 why 0 0) = (s1, false) →
          s.refuseLaunch part vf r why = { s1 with words := s1.words ++ [⟨part, vf, r, completionWord 3 why 0 0⟩] }))
  ∧ (∀ st why nerr (id : Word), st < 16 → why < 16 → (let w := completionWord st why nerr id;
      (bits w 60 4).toNat = st ∧ (bits w 56 4).toNat = why ∧ (bits w 32 24).toNat = min nerr (2 ^ 24 - 1) ∧ bits w 0 32 = id))
  ∧ (∀ (s : State) part vf r id w s1 ps, recCword r % 8 = 0 →
      s.checkRun (s.part part).firstCore (recAsid r) part (recClr r) (recCword r) 8 .write = (s1, .ok ps) →
      s.writeWord part vf r id w = (s1.writeRun vf 0 ps (leBytes 8 w.toNat), true))
  ∧ (∀ (s : State) vf j, (s.func vf).watched.contains j = true → s.listHas (s.func vf).partNo vf j = true → exec (.listHeadWake vf j) s =
      .next (s.modFunc vf fun f => { f with watched := f.watched.filter (· != j) }))
  ∧ (∀ (s : State) id l s1, s.launch? id = some l → l.completed = recGrid l.record → (s.func l.vf).lost = false →
      s.writeWord l.part l.vf l.record id (completionWord (if l.nerr = 0 then 1 else 2) 0 l.nerr id) = (s1, true) →
      exec (.launchComplete id) s = .next { s1 with launches := s1.launches.filter (·.id != id) })
  ∧ (∀ (s : State) id l, s.launch? id = some l → l.completed ≠ recGrid l.record → exec (.launchComplete id) s = .next s)

/-- BLOCK_PLACE and GROUP_PLACE (R11, R146, R217, R218, R363): when arbitration turns to a launch, its next block goes to the core chosen, its
next group to the cluster chosen, with the units its scratchpad takes; a saved block goes to the core chosen first. A lane of a
block starts at the entry label, with its number, and is done beyond the launch's lanes; crews are as old as they were dealt. The
blocks of a group resume together. A saved block is added to its core once no rewind-table entry and no store-buffer entry of it waits (R313, R324, R345):
its store-buffer entries are translated again, its crews dealt anew, with the registers of VSAVE and SSAVE kept and the marked lanes
at their recipes, and its engines' commands go on; a marked lane whose point has no entry traps, and a lane parked in WAITC
whose word compares true goes on. With the last saved block the header of the save area says restored (R348; the model's choice,
log 30). When the header says restored, whose turn each list has, the restore from the model's own copy, what registers that were
not saved hold, which units a scratchpad takes and which slot a crew takes are the model's choice (log 14, log 30, log 31, log 3,
log 15, log 13). -/
def Obligations.BlocksArePlaced : Prop :=
  (∀ (s : State) id l core d, s.launch? id = some l → hdrGrouped l.hdr = false → s.arbitrate l.part = some (.place id) →
    s.chooseCore l.part id (hdrNeed l.hdr) = some (core, d) →
    exec (.blockPlace id) s = .next ((s.noteTurn l.part l.vf l.level 1).placeOn l core d))
  ∧ (∀ (s : State) id l xs, s.launch? id = some l → hdrGrouped l.hdr = true → s.arbitrate l.part = some (.place id) →
      s.chooseCluster l.part (List.replicate 4 (hdrNeed l.hdr)) = some xs →
      exec (.groupPlace id) s = .next (xs.foldl (fun s x => s.placeOn l x.1 x.2) (s.noteTurn l.part l.vf l.level 4)))
  ∧ (∀ (s : State) id l b bs core d s1, s.launch? id = some l → hdrGrouped l.hdr = false → s.arbitrate l.part = some (.restore id) →
      l.saved = b :: bs → s.chooseCore l.part id b.need = some (core, d) → s.readdBlock l b core d = (s1, true) →
      (∀ t, (s1.resumed l b.uid core).noteRestored l core = (t, .done) → exec (.blockPlace id) s = .next t)
      ∧ ∀ t va w, (s1.resumed l b.uid core).noteRestored l core = (t, .wait va w) →
          exec (.blockPlace id) s = .next (s.askResidencyFront l.part l.vf va w))
  ∧ (∀ (s : State) l core d, s.launch? l.id = some l → ∃ b, (s.placeOn l core d).blocks.map (·.uid) = (s.blocks ++ [b]).map (·.uid)
      ∧ b = { l.startBlock s.nextUid l.nextBid core d s.nextAge s.cyc (s.dropWays core (s.takeUnits core (hdrScratch l.hdr))).now with
          units := s.takeUnits core (hdrScratch l.hdr) }
      ∧ (s.placeOn l core d).launch? l.id = some { l with nextBid := l.nextBid + 1 })
  ∧ (∀ (l : Launch) bid dealt age now c (j : Nat), j < 128 → ∃ x, (l.startCrew bid dealt age now c).lanes[j]? = some x
      ∧ x.wl = BitVec.ofNat 32 (hdrEntry l.hdr) ∧ x.ro = 0 ∧ x.oid = BitVec.ofNat 32 (bid * 2048 + c.1 * 128 + j)
      ∧ x.done = decide (recLanes l.record ≤ j))
  ∧ (∀ (l : Launch) bid dealt age now c, (l.startCrew bid dealt age now c).age = age + dealt.findIdx (·.1 == c.1))
  ∧ (∀ (s : State) id l xs, s.launch? id = some l → hdrGrouped l.hdr = true → s.arbitrate l.part = some (.restore id) →
      s.regroupOn l.part l.savedGroup = some xs →
      (∀ t, s.groupReady l (xs.map fun x => (x.1, x.2.1)) = (t, false) → exec (.groupPlace id) s = .next t)
      ∧ ∀ t, s.groupReady l (xs.map fun x => (x.1, x.2.1)) = (t, true) →
          (let t := xs.foldl (fun s x => (s.readdBlock l x.1 x.2.1 x.2.2).1) t;
           let t := xs.foldl (fun s x => s.resumed l x.1.uid x.2.1) t;
           ∀ u, t.noteRestored l ((xs.head?.map (·.2.1)).getD 0) = (u, .done) → exec (.groupPlace id) s = .next u))
  ∧ (∀ (s : State) (l : Launch) b core d,
      (∀ va w, s.pointWait core l b = some (va, w) → s.readdBlock l b core d = (s.askResidencyFront l.part l.vf va w, false))
      ∧ ∀ s1 w, s.pointWait core l b = none → State.entriesAgain b core b.storeBuf s = (s1, .error w) →
          s.readdBlock l b core d = (s1.askEntry b core w, false))
  ∧ (∀ (s : State) (l : Launch) b core d s1 es lost den, (∀ x ∈ s.blocks, x.uid ≠ b.uid) → s.pointWait core l b = none →
      State.entriesAgain b core b.storeBuf s = (s1, .ok (es, lost, den)) → ∃ t b', s.readdBlock l b core d = (t, true)
        ∧ t.blocks.map (·.uid) = s.blocks.map (·.uid) ++ [b.uid] ∧ t.block? b.uid = some b' ∧ b'.core = core ∧ b'.bid = b.bid
        ∧ b'.crews = (State.resumeCrews core l d b.crews s1).2 ∧ (∀ e ∈ b'.storeBuf, e ∈ es) ∧ b'.scratch = b.scratch
        ∧ b'.scratchSize = b.scratchSize ∧ b'.tiles = b.tiles ∧ b'.handles = b.handles ∧ b'.groups = b.groups
        ∧ b'.mcmds.map (·.id) = b.mcmds.map (·.id) ∧ b'.ccmds.map (·.done) = b.ccmds.map (·.done)
        ∧ (t.launch? l.id) = (s.launch? l.id).map fun x => { x with saved := x.saved.filter (·.uid != b.uid) })
  ∧ (∀ (s : State) (b : Block) core e es,
      (∀ s1 x, s.translate core none b.asid e.p.va e.p.size .write = (s1, .ok x) →
        (∀ sl, s1.denies b.part b.clr (pieceOf e.p.va e.p.size x) = some sl → s.entryAgain b core e = (s1, .denied sl))
        ∧ (s1.denies b.part b.clr (pieceOf e.p.va e.p.size x) = none →
            s.entryAgain b core e = (s1, .entry { e with p := pieceOf e.p.va e.p.size x, hint := .none })))
      ∧ (∀ s1 f, s.translate core none b.asid e.p.va e.p.size .write = (s1, .fault f) → s.entryAgain b core e = (s1, .lost))
      ∧ (∀ s1 w, s.translate core none b.asid e.p.va e.p.size .write = (s1, .park w) →
          State.entriesAgain b core (e :: es) s = (s1, .error (w, e))))
  ∧ (∀ (s : State) core (l : Launch) d c, c.seq ≠ .retired →
      (let m := s.saveMasks core l c;
       let c' := (s.resumeCrew core l d c).2;
       c'.age = s.nextAge + d.findIdx (·.1 == c.cid) ∧ (∀ at_, d.find? (·.1 == c.cid) = some at_ → (c'.quad, c'.slot) = at_.2)
       ∧ c'.cid = c.cid ∧ c'.budget = c.budget ∧ c'.swc = c.swc ∧ (∀ j, m.2.getLsbD j = true → regAt c'.s j = regAt c.s j)
       ∧ ∀ (i : Nat) x, c.lanes[i]? = some x → ∃ x', c'.lanes[i]? = some x' ∧ x'.done = x.done ∧ x'.parked = x.parked
          ∧ x'.q = x.q ∧ x'.rng = x.rng ∧ x'.link = x.link ∧ (∀ j, m.1.getLsbD j = true → regAt x'.v j = regAt x.v j)
          ∧ ((x.done = true ∨ x.kind = false) → x'.wl = x.wl ∧ x'.ro = x.ro)
          ∧ ∀ e, x.done = false → x.kind = true → s.pointEntry core l x.wl = some e → x'.wl = e.recipe ∧ x'.ro = 0))
  ∧ (∀ (s : State) (l : Launch) u core b ci c (i : Nat) x, s.crew? u ci = some (b, c) → c.lanes[i]? = some x →
      (b.hnd = [] → x.done = false → x.kind = true → x.wl = x.rwl → s.pointEntry core l x.rwl = none →
        ∃ x', (s.trapPointless u core l).laneAt u ci i = some x' ∧ x'.trapped = true ∧ x'.wl = x.wl)
      ∧ ∀ w, x.parked = true → x.park = some w → s.waitcNow b w = true →
          ∃ x', (s.rereadWaitc u).laneAt u ci i = some x' ∧ x'.parked = false ∧ x'.wl = x.wl)
  ∧ (∀ (s : State) (l : Launch) u core, s.resumed l u core = ((s.trapPointless u core l).rereadWaitc u).settle u)
  ∧ (∀ (s : State) (l : Launch) core x, s.launch? l.id = some x → (x.saved ≠ [] → s.noteRestored l core = (s, .done))
      ∧ (x.saved = [] → s.noteRestored l core = State.writeSections core [(l, 0, leBytes 4 2)] s))

/-! ### Tenants (20_ranges R327, 21 R343-R354, 22_tenants R355-R368) -/

/-- SLICE_EXPIRY, SLICE_EARLY_END and HOST_SWITCH_ACK (R354, R364, R365): a partition served with no holder begins the slice
of an entry with work; a slice that has not run out goes on; one that has gives way to the next entry with work, at once for
the same function and by a switch for another; a holder idle for a microsecond while another entry has work gives way early,
and one that is not goes on; a switch that awaits the host goes on when it acknowledges. A switch between functions (R343,
R344, R347, R349 to R351, R354, R364). It stops the blocks of the partition at their issue boundaries, closes the function's
networks and places no more. Once everything can be saved, the context engine translates all that it writes and writes it: the
header, the networks' records and each block's slot, of its crews rewound; a write that waits is tried again, and one that
faults loses the function. The blocks leave for their launches' save areas, the counters for the record, and the lookaside
entries go. The incoming function's slice begins with its counters and networks loaded, the host asked first where it moves
them. A lane rewinds to its last point and keeps its registers, and its park at an implicit point of WAITC, BAR or BARC. From when
a holder counts as idle, that blocks are restored from the model's own copy with free bytes in the engine section, and how a lost
function's networks stand are the model's choice (log 21, log 14, log 19). -/
def Obligations.SlicesGoRound : Prop :=
  ((∀ (s : State) part, s.served part = true → (s.part part).holder = none → s.entryWorks part (s.part part).entry = true →
    exec (.sliceExpiry part) s = .next (s.startSlice part (s.part part).entry))
  ∧ (∀ (s : State) part vf, s.served part = true → (s.part part).holder = some vf → (s.part part).switching = none →
      s.clk.toNat < (s.part part).sliceStart + ((s.part part).sched (s.part part).entry).2.1 * perSlice →
      exec (.sliceExpiry part) s = .next s)
  ∧ (∀ (s : State) part vf j, s.served part = true → (s.part part).holder = some vf → (s.part part).switching = none →
      (s.part part).sliceStart + ((s.part part).sched (s.part part).entry).2.1 * perSlice ≤ s.clk.toNat →
      s.nextEntry part (s.part part).entry = some j → exec (.sliceExpiry part) s = .next (s.nextSlice part vf j))
  ∧ (∀ (s : State) part vf j, s.served part = true → (s.part part).holder = some vf → (s.part part).switching = some j →
      exec (.sliceExpiry part) s = .next (s.switchOn part vf j))
  ∧ (∀ (s : State) part vf j t, (s.part part).holder = some vf → s.nextEntry part (s.part part).entry = some j →
      (s.part part).idleSince = some t →
      (s.mayEndEarly part = true → t + perMicro ≤ s.clk.toNat → exec (.sliceEarlyEnd part) s = .next (s.nextSlice part vf j))
      ∧ ((s.mayEndEarly part = false ∨ s.clk.toNat < t + perMicro) → exec (.sliceEarlyEnd part) s = .next s))
  ∧ (∀ (s : State) part vf j, s.nextSlice part vf j = if ((s.part part).sched j).1 = vf then
      s.modPart part fun p => { p with entry := j, sliceStart := s.clk.toNat, idleSince := none }
      else (s.beginSwitch part vf j).switchOn part vf j)
  ∧ (∀ (s : State) part j, s.ready = true → (s.part part).switching = some j → (s.part part).awaitsHost = true →
      exec (.hostSwitchAck part) s = .next ((s.startSlice part j).accepted part)))
  ∧ (-- a switch begins
  (∀ (s : State) part vf j, part < s.parts.length → (let t := s.beginSwitch part vf j;
    (t.part part).switching = some j ∧ t.placing part = none ∧ SameMemory s t
    ∧ t.blocks = s.blocks.map (fun b => if b.part = part ∧ b.hnd = [] then { b with stopping := true } else b)
    ∧ ∀ n, n < 256 → n < s.nets.length → t.net n = if (s.func vf).net n = true then { s.net n with closed := true } else s.net n))
  ∧ (∀ (s : State) (b : Block) ci c, b.stopping = true → s.readyInstr b ci c = none)
  -- and goes on
  ∧ (∀ (s : State) part vf, s.switchReady part vf = true ↔ (∀ l ∈ s.launches, l.vf = vf → l.completed ≠ recGrid l.record)
      ∧ (∀ b ∈ s.blocks, b.part = part → b.hnd = [] → b.saveable = true) ∧ ∀ n ∈ (s.func vf).nets, (s.net n).tokens = [])
  ∧ (∀ (s : State) part vf j, s.switchReady part vf = false → s.switchOn part vf j = s)
  ∧ (∀ (s : State) part vf j t, s.switchReady part vf = true → (s.switchOut part vf = (t, false) → s.switchOn part vf j = t)
      ∧ (s.switchOut part vf = (t, true) → ((t.part part).hostMode 2 = false → s.switchOn part vf j = t.startSlice part j)
        ∧ ((t.part part).hostMode 2 = true →
          s.switchOn part vf j = (t.modPart part fun p => { p with awaitsHost := true }).interrupt part vf 5 0)))
  -- what is saved
  ∧ (∀ (s : State) part vf va w, s.pointsWait part = some (va, w) → s.switchOut part vf = (s.askResidencyFront part vf va w, false))
  ∧ (∀ (s : State) part vf t xs, s.pointsWait part = none →
      (let hosts := (s.part part).hostMode 3;
       let area := if hosts = true then none else ((s.restoreOrder vf).find? fun l => s.residentOf l.id != 0).map (·.id);
       State.areasOf (if hosts = true then [] else (s.func vf).nets) area (s.restoreOrder vf) (s.saveBlocks part) = (t, xs) →
       (∀ u, State.writeSections (s.part part).firstCore xs t = (u, .done) →
          s.switchOut part vf = ((u.modFunc vf fun f => { f with netsIn := area }).leaveCores part vf, true))
       ∧ (∀ u va, State.writeSections (s.part part).firstCore xs t = (u, .fault va) →
          s.switchOut part vf = ((u.loseFunction part vf va).leaveCores part vf, true))
       ∧ (∀ u va w, State.writeSections (s.part part).firstCore xs t = (u, .wait va w) →
          s.switchOut part vf = (s.askResidencyFront part vf va w, false))))
  ∧ (∀ (s : State) part, (s.blocks.map (·.uid)).Nodup → (let t := s.saveBlocks part;
      t.blocks = s.blocks.filter (fun b => !(b.part == part && b.hnd.isEmpty))
      ∧ ∀ id l, s.launch? id = some l → ∃ l', t.launch? id = some l' ∧ l'.saved = l.saved
          ++ (s.blocks.filter fun b => (b.part == part && b.hnd.isEmpty) && b.launch == id).map (·.rewound)))
  ∧ (∀ nets first l ls (s : State) x, s.launch? l.id = some x →
      (x.saved = [] → State.areasOf nets first (l :: ls) s = State.areasOf nets first ls s)
      ∧ (x.saved ≠ [] → (State.areasOf nets first (l :: ls) s).2 = s.areaSections x (if first = some x.id then nets else [])
          ++ (State.areasOf nets first ls { s with draws := s.draws + engineSize * x.saved.length }).2))
  ∧ (∀ (s : State) (l : Launch) nets, (l, 0, l.areaHeader 1 l.saved.length nets.length) ∈ s.areaSections l nets
      ∧ (∀ n ∈ nets, (l, 256 + 96 * n, (s.net n).recordOf n) ∈ s.areaSections l nets)
      ∧ ∀ (k : Nat) b, l.saved[k]? = some b → ∀ x ∈ s.slotSections l b (s.draws + engineSize * k),
          (l, slotsAt + k * l.slotSz + x.1, x.2) ∈ s.areaSections l nets)
  ∧ (∀ (s : State) (l : Launch) b n, (let crews := 256 + (b.crews.map fun c => crewSize c.budget).sum;
      (0, b.headerBytes) ∈ s.slotSections l b n ∧ (crews, b.storeBuf.flatMap (·.recordBytes)) ∈ s.slotSections l b n
      ∧ (crews + 131072, b.scratchBytes 0 b.scratchSize) ∈ s.slotSections l b n
      ∧ ∀ (i : Nat) c, b.crews[i]? = some c → c.seq ≠ .retired → (256 + ((b.crews.take i).map fun c => crewSize c.budget).sum,
          c.recordBytes (s.saveMasks b.core l c).1 (s.saveMasks b.core l c).2) ∈ s.slotSections l b n))
  ∧ (∀ (c : Crew) vs ss (j : Nat) x, c.lanes[j]? = some x → ((c.recordBytes vs ss).drop (64 + 64 * j)).take 64 = x.recordBytes
      ∧ x.recordBytes.take 24 = [x.wl, x.ro, x.rwl, x.rro, x.rng, x.rngc].flatMap fun w => leBytes 4 w.toNat)
  ∧ (∀ core xs (s : State) s1, (∀ e, State.sectionRuns core xs s = (s1, .error e) → State.writeSections core xs s = (s1, e))
      ∧ ∀ rs, State.sectionRuns core xs s = (s1, .ok rs) → rs.map (·.2.2) = xs.map (·.2.2)
        ∧ State.writeSections core xs s = (rs.foldl (fun s r => s.writeRun r.1 0 r.2.1 r.2.2) s1, .done))
  ∧ (∀ (s : State) part vf, vf < s.funcs.length → (let t := s.leaveCores part vf;
      (t.func vf).record = (s.func vf).keepCounters.record
      ∧ ∀ e ∈ t.looks, e ∈ s.looks ∧ ((s.part part).cores.contains e.core = false ∨ e.vf ≠ vf)))
  ∧ (∀ f : Func, f.wrote = [] → f.cnt.length = 8 → f.keepCounters.loadCounters.cnt = f.cnt ∧ f.keepCounters.loadCounters.ovf = f.ovf)
  ∧ (∀ (s : State) part vf va, vf < s.funcs.length → (let t := s.loseFunction part vf va;
      t.launches = s.launches.filter (·.vf != vf) ∧ (t.func vf).lost = true
      ∧ t.hostMsgs = (s.interrupt part vf 6 (BitVec.ofNat 64 va)).hostMsgs
      ∧ ∀ n ∈ (s.func vf).nets, n < s.nets.length → (t.net n).closed = true ∧ (t.net n).lost = true))
  -- rewinding
  ∧ (∀ x : Lane, x.rewound.v = x.v ∧ x.rewound.q = x.q ∧ x.rewound.link = x.link ∧ x.rewound.act = false ∧ x.rewound.kind = x.kind
      ∧ (x.done = true → x.rewound.wl = x.wl ∧ x.rewound.ro = x.ro)
      ∧ (x.done = false → x.rewound.wl = x.rwl ∧ x.rewound.ro = x.rro ∧ x.rewound.rng = x.rngc
        ∧ (x.keepsPark = true → x.rewound.parked = true ∧ x.rewound.park = x.park)
        ∧ (x.keepsPark = false → x.rewound.parked = false ∧ x.rewound.park = none))
      ∧ (x.keepsPark = true ↔ x.parked = true ∧ x.kind = false ∧ x.wl = x.rwl ∧ x.ro = x.rro
        ∧ ((∃ h a c z r o, x.park = some (.waitc h a c z r o)) ∨ (∃ n, x.park = some (.bar n)) ∨ ∃ n, x.park = some (.barc n))))
  ∧ (∀ b : Block, b.rewound.storeBuf = b.storeBuf ∧ b.rewound.tiles = b.tiles ∧ b.rewound.scratch = b.scratch ∧ b.rewound.handles = b.handles
      ∧ b.rewound.mcmds.map (·.id) = b.mcmds.map (·.id)
      ∧ b.rewound.ccmds.map (·.done) = b.ccmds.map (fun c => c.done.filter fun p => decide (p.1 < c.marked))
      ∧ ∀ (ci : Nat) c, b.crews[ci]? = some c → c.regroup = none → ∃ c', b.rewound.crews[ci]? = some c'
          ∧ c'.lanes = c.lanes.map (·.rewound) ∧ c'.s = c.s ∧ c'.swc = c.swc ∧ (c.seq ≠ .retired → c'.seq = .census none))
  -- the incoming function
  ∧ (∀ (s : State) part j, (let vf := ((s.part part).sched j).1;
      let at_ := fun h => s.modPart part fun p =>
        { p with holder := h, entry := j, switching := none, awaitsHost := false, sliceStart := s.clk.toNat, idleSince := none };
      (∀ va w, s.netsWait part vf = some (va, w) → s.startSlice part j = (at_ none).askResidencyFront part vf va w)
      ∧ (s.netsWait part vf = none → s.startSlice part j = ((at_ (some vf)).modFunc vf (·.loadCounters)).loadNets part vf)))
  ∧ (∀ (s : State) part vf, ((s.part part).hostMode 3 = true → s.loadNets part vf = s.netsAwaitHost part vf (s.netsBack vf))
      ∧ ((s.part part).hostMode 3 = false → (s.func vf).netsIn.bind s.launch? = none →
          s.loadNets part vf = (s.netsBack vf).foldl (fun s n => s.openNet n) s)
      ∧ ∀ l, (s.part part).hostMode 3 = false → (s.func vf).netsIn.bind s.launch? = some l → s.loadNets part vf =
          ((s.netsBack vf).foldl (fun s n => s.loadNet part l n) s).modFunc vf fun f => { f with netsIn := none })
  ∧ (∀ (s : State) part (l : Launch) n s1 ps, (let core := (s.part part).firstCore;
      s.plainRun core (recAsid l.record) (recSave l.record + 256 + 96 * n) 96 .read = (s1, .ok ps) → ∀ s2 bs,
      s1.readRun l.vf (s1.part part).firstCore ps = (s2, bs) →
      (recordOk n bs = true → s.loadNet part l n = (s2.modNet n fun x => x.ofRecord bs).openNet n)
      ∧ (recordOk n bs = false → s.loadNet part l n = (s2.modNet n fun x => { x with lost := true }).reportPart part
          ((s2.modNet n fun x => { x with lost := true }).part part).firstCore 0 .netRestore (BitVec.ofNat 64 n))))
  ∧ (∀ (x y : Net) n, x.cnt.length = 16 → n < 65536 → recordOk n (x.recordOf n) = true
      ∧ (y.ofRecord (x.recordOf n)).bal = x.bal ∧ (y.ofRecord (x.recordOf n)).cnt = x.cnt))

/-- PARTITION_RESET, PARTITION_DRAIN_COMPLETE and the record writes (R5, R329, R353, R355, R357, R368, R394): a reset ends the partition's
blocks, launches and gathered lanes and no other's, and holds it draining. A record write takes effect in parts of 8 bytes, and a whole
record in one flit at once. One that R355 or R357 forbids changes no record and sets STATUS[2]: a network
that another record holds, or a change of S2, PART or NETS of a function with a resident, saved or shell block. One accepted, also while
there are such blocks, replaces its bytes, but for reserved bits, and clears STATUS[2]; while the function holds its partition the
counters' bytes written are not replaced by the running ones at the switch. C of the denial log is as written. What clears
STATUS[2] and a function's lost mark is the model's choice (log 19). -/
def Obligations.RecordsAndResets : Prop :=
  (∀ (s : State) part, s.ready = true → part < 16 → s.parts.length = 16 → ∃ t, exec (.partitionReset part) s = .next t
    ∧ t.blocks.map (·.uid) = (s.blocks.filter (·.part != part)).map (·.uid) ∧ t.launches = s.launches.filter (·.part != part)
    ∧ t.gathered = s.gathered.filter (·.2.part != part) ∧ (t.part part).draining = true ∧ (t.part part).holder = none
    ∧ ∀ q, q ≠ part → t.part q = s.part q)
  ∧ (∀ (s : State) part, exec (.partitionDrainComplete part) s = .next (s.modPart part fun p => { p with draining := false }))
  ∧ (∀ (s : State) part off data, s.ready = true → part < 16 → off + data.length ≤ 128 →
      exec (.partitionRecordWrite part off data) s = .next (s.writeParts 128 off data (State.writePart part)))
  ∧ (∀ (s : State) part vf off data, s.ready = true → part < 16 → vf < 64 → off + data.length ≤ 320 →
      ((s.func vf).valid = true → (s.func vf).partNo = part) →
      exec (.functionRecordWrite part vf off data) s = .next (s.writeParts 320 off data (State.writeFunc part vf)))
  ∧ (∀ (s : State) size off data f, ((off = 0 ∧ data.length = size ∧ size ≤ 244) → s.writeParts size off data f = f s off data)
      ∧ ((244 < size ∨ off ≠ 0 ∨ data.length ≠ size) → s.writeParts size off data f = (eightsOf off data).foldl (fun s p => f s p.1 p.2) s)
      ∧ (data ≠ [] → off / 8 = (off + data.length - 1) / 8 → s.writeParts size off data f = f s off data))
  ∧ (∀ (s : State) part off data,
      (let old := s.part part;
       let new : Part := { old with record := keepFields (setBytes old.record off data) partFields };
       let moves := new.cbase != old.cbase || new.clim != old.clim || (s.overlaps part new && !s.overlaps part old);
       s.writePart part off data = s.modPart part fun p =>
         if moves && s.partBusy part then { p with refusedWrite := true } else { p with record := new.record, refusedWrite := false }))
  ∧ (∀ (s : State) part vf off data,
      s.netsTaken vf { s.func vf with record := keepFields (setBytes (s.func vf).record off data) funcFields } (s.func vf) = true →
      s.writeFunc part vf off data = s.modPart part fun p => { p with refusedWrite := true })
  ∧ (∀ (s : State) part vf off data, s.busy vf = true →
      (let old := (s.func vf).record;
       let new : BitVec 2560 := keepFields (setBytes old off data) funcFields;
       (byteField new 24 64 ≠ byteField old 24 64 ∨ byteField new 20 8 ≠ byteField old 20 8 ∨ byteField new 160 256 ≠ byteField old 160 256) →
       s.writeFunc part vf off data = s.modPart part fun p => { p with refusedWrite := true }))
  ∧ (∀ (s : State) vf, s.busy vf = true ↔ (∃ b ∈ s.blocks, b.vf = vf ∧ b.hnd = []) ∨ ∃ l ∈ s.launches, l.vf = vf ∧ l.saved ≠ [])
  ∧ (∀ (s : State) part vf off data, part < 16 → vf < 64 → s.funcs.length = 64 → s.parts.length = 16 →
      (s.busy vf = false ∨ (let old := (s.func vf).record;
        let new : BitVec 2560 := keepFields (setBytes old off data) funcFields;
        byteField new 24 64 = byteField old 24 64 ∧ byteField new 20 8 = byteField old 20 8 ∧ byteField new 160 256 = byteField old 160 256)) →
      s.netsTaken vf { s.func vf with record := keepFields (setBytes (s.func vf).record off data) funcFields } (s.func vf) = false →
      (let t := s.writeFunc part vf off data;
       (t.func vf).record = keepFields (setBytes (s.func vf).record off data) funcFields ∧ (t.func vf).out = []
        ∧ (t.func vf).wrote = (if s.holds vf = true then (s.func vf).wrote ++ counterBytes off data.length else (s.func vf).wrote) ∧ (t.part part).refusedWrite = false ∧ (∀ v, v ≠ vf → t.func v = s.func v) ∧ SameMemory s t))
  ∧ (∀ (s : State) part c, s.ready = true → part < s.parts.length → ∃ t, exec (.denialConsumerWrite part c) s = .next t ∧ SameMemory s t
      ∧ (t.part part).c = c ∧ (t.part part).record = (s.part part).record ∧ (t.part part).p = (s.part part).p)

/-- FULLER_START and FULLER_GRANULE_MOVE (R327): the oldest request of a die whose backing serves puts its range into MODE 2 with watermark 0;
a granule waits for the accesses to it in flight, is then copied to its new backing, and the watermark passes it; with the last
granule the range is in MODE 0 over the new backing and the request is done; denial records that waited for the granule are
appended. The fuller's walks read the newest descriptors. That the fuller writes descriptors past the L2 is the model's choice
(log 15, log 34). -/
def Obligations.TheFullerMoves : Prop :=
  (∀ (s : State) die, exec (.fullerStart die) s = exec (.fullerStart die) { s with lags := [] }
    ∧ exec (.fullerGranuleMove die) s = exec (.fullerGranuleMove die) { s with lags := [] })
  ∧ (∀ (s : State) die c i d s1, s.lags = [] → (s.compacts.any fun c => c.die == die && c.started) = false →
    s.compacts.find? (fun c => c.die == die) = some c → s.compactRange c = some (i, d) → s.backingOk c.vf d (c.nia * 4096) = true →
    s.setRange c.asid i d (d1Moving d c.nia 0) = some s1 → exec (.fullerStart die) s = .next
      { s1 with compacts := s1.compacts.map fun x => if x == c then { x with started := true } else x })
  ∧ (∀ (s : State) die c i d, s.lags = [] → s.compacts.find? (fun c => c.die == die && c.started) = some c → s.compactRange c = some (i, d) → d1Mode d = 2 →
      (let lo := (d1Base d + d1Wm d) * 4096;
       let s1 := s.drainGranule c.part c.asid lo 4096;
       let use := fun (p : Piece) => overlap lo 4096 p.va p.size;
       (s1.inFlight c.part c.asid use false lo 4096 = true → exec (.fullerGranuleMove die) s = .next s1)
       ∧ (s1.inFlight c.part c.asid use false lo 4096 = false →
           ∀ t, s1.copyGranule c d (d1Wm d) = some t →
             (d1Wm d + 1 < d1Size d → ∀ u, t.setRange c.asid i d (d1Moving d (d1Nia d) (d1Wm d + 1)) = some u →
               exec (.fullerGranuleMove die) s = .next u.payAllDenials)
             ∧ (d1Size d ≤ d1Wm d + 1 → ∀ u, t.setRange c.asid i d (d1Moved d (d1Nia d)) = some u →
               exec (.fullerGranuleMove die) s = .next (u.dropCompact c).payAllDenials))))
  ∧ (∀ (s : State) part asid (use : Piece → Bool) all lo n, s.inFlight part asid use all lo n = true ↔
      (∃ b ∈ s.blocks, b.part = part ∧ b.asid = asid ∧ ((∃ c ∈ b.crews, ∃ o ∈ c.queue, ∃ p ∈ o.what.pieces, use p = true)
        ∨ ∃ e ∈ b.storeBuf, runsMeet all lo n e.p.va e.p.size = true))
      ∨ ∃ q ∈ s.posted, ∃ b, (s.block? q.blk).or (s.savedBlock q.blk) = some b ∧ b.part = part ∧ b.asid = asid
          ∧ ∃ p ∈ q.op.what.pieces, use p = true)

/-! ### Host and power (24_host_fabric, 25_bringup) -/

/-- REGISTER_WRITE, HOST_APERTURE_WRITE, HOST_APERTURE_READ, HOST_RECALL and HOST_TIER_RESPONSE (R392, R393, R395, R401): an aperture's
register is written once the link is up, and no other; bytes written through an enabled aperture read as written through its key, and
no byte of another quarter of memory changes; a disabled one discards them; a read returns the newest bytes; a recall drops the line and
joins the host's bytes to home, and the dirty bytes of a line that leaves the L2 are sent; a response ends one request that has been sent, and no
other. A read through an aperture leaves no line in the L2 (the model's choice, log 15). Where host-tier bytes are kept is the
model's choice (log 11). -/
def Obligations.HostReachesMemory : Prop :=
  (∀ (s : State) a v, s.linkUp = true → a < 16 → exec (.registerWrite (0x100100 + 8 * a) v) s = .next
    { s with
      apEn := s.apEn.set a ((bits v 63 1).setWidth 64), apKey := s.apKey.set a ((bits v 16 11).setWidth 64)
      apPab := s.apPab.set a ((bits v 0 16).setWidth 64) })
  ∧ (∀ (s : State) off v, (off < 0x100100 ∨ 0x100180 ≤ off) → exec (.registerWrite off v) s = .next s)
  ∧ (∀ (s : State) a o data, s.ready = true → a < 16 → s.apertureOn a = true → o + data.length ≤ apertureSize → data ≠ [] →
      memWf s.mem = true → ∃ t, exec (.hostApertureWrite (apertureBase + a * apertureSize + o) data) s = .next t ∧ memWf t.mem = true
        ∧ (∀ (i : Nat) x, data[i]? = some x → t.readAt (s.apertureKey a) t.now (s.aperturePa a + o + i) = x)
        ∧ ∀ y, y / 64 < (s.aperturePa a + o) / 64 ∨ (s.aperturePa a + o + data.length - 1) / 64 < y / 64 →
            t.byteAt t.now y = s.byteAt s.now y)
  ∧ (∀ (s : State) a o data, s.ready = true → a < 16 → s.apertureOn a = false → o + data.length ≤ apertureSize →
      exec (.hostApertureWrite (apertureBase + a * apertureSize + o) data) s = .next s)
  ∧ (∀ (s : State) off n, exec (.hostApertureRead off n) s = .next
      { s with hostReads := s.hostReads ++ [(List.range n).map fun i => s.linkByte (off + i)] })
  ∧ (∀ (s : State) a o, s.ready = true → a < 16 → s.apertureOn a = true → o < apertureSize →
      s.linkByte (apertureBase + a * apertureSize + o) = s.readAt (s.apertureKey a) s.now (s.aperturePa a + o))
  ∧ (∀ (s : State) line off data, s.ready = true → data ≠ [] → off % 256 + data.length ≤ 256 → memWf s.mem = true →
      ∃ t, exec (.hostRecall line off data) s = .next t ∧ (∀ l ∈ t.l2, l.line * 256 ≠ hostBase + line * 256)
        ∧ ∀ (i : Nat) x, data[i]? = some x → t.readAt 0 t.now (hostBase + line * 256 + off % 256 + i) = x)
  ∧ (∀ (s : State) line off, s.ready = true → exec (.hostRecall line off []) s = .next
      ((s.l2.filter fun l => l.line * 256 == hostBase + line * 256).foldl State.dropL2 s))
  ∧ (∀ (s : State) (l : L2Line), (s.dropL2 l).l2 = s.l2.filter (· != l) ∧ (l.print = none → (s.dropL2 l).hostReqs =
      s.hostReqs.map fun r => if r.home / 256 = l.line then { r with sent := true } else r))
  ∧ (∀ (s : State) k r, s.hostReqs[k]? = some r →
      (r.sent = true → exec (.hostTierResponse k) s = .next { s with hostReqs := s.hostReqs.eraseIdx k })
      ∧ (r.sent = false → exec (.hostTierResponse k) s = .next s))

/-- LINK_FLIT_RECEIVE, FABRIC_FLIT_RECEIVE and FABRIC_ROUTE_WRITE (R391, R397, R399): once the link is up a port takes the flit of the
next SEQ, and discards and asks again for one whose CRC or SEQ is wrong; a fabric port counts both; management sets DEVID, never
0xFFFF, and the routes. What a reserved class does to SEQ, the layout of a fabric flit, what the counters count, and the route
table before any write are the model's choice (log 25); the CRC's bit order, first value and complement are taken from the
standard (log 32). -/
def Obligations.FlitsAndRoutes : Prop :=
  (∀ (s : State) flit, s.linkUp = true → exec (.linkFlitReceive flit) s = .next { s with link := s.link.receive (leBytes 256 flit.toNat) })
  ∧ (∀ (s : State) port (flit : BitVec 512) p, s.linkUp = true → s.fabric[port]? = some p → ∃ n, exec (.fabricFlitReceive port flit) s =
      .next { s with
        fabric := s.fabric.modify port fun p => p.receive (leBytes 64 flit.toNat)
        fabricCounts := s.fabricCounts.modify port fun c => (c.1 + n, c.2 + (1 - n)) }
      ∧ n = (if (p.receive (leBytes 64 flit.toNat)).retry then 0 else 1))
  ∧ (∀ (s : State) flit port f, s.linkUp = false →
      exec (.linkFlitReceive flit) s = .next s ∧ exec (.fabricFlitReceive port f) s = .next s)
  ∧ (∀ (p : Port) bs, flitSeq (BitVec.ofNat 64 (leNat (bs.take 8))) ≠ p.next → p.receive bs = { p with retry := true })
  ∧ (∀ (p : Port) bs, crc32 (bs.take (bs.length - 4)) ≠ BitVec.ofNat 32 (leNat (bs.drop (bs.length - 4))) →
      p.receive bs = { p with retry := true })
  ∧ (∀ (p : Port) bs, crc32 (bs.take (bs.length - 4)) = BitVec.ofNat 32 (leNat (bs.drop (bs.length - 4))) →
      flitSeq (BitVec.ofNat 64 (leNat (bs.take 8))) = p.next → (p.receive bs).next = p.next + 1 ∧ (p.receive bs).ack = p.next
        ∧ (p.receive bs).retry = false)
  ∧ (∀ (s : State) d, s.power = true → d ≠ 0xFFFF → exec (.fabricRouteWrite (.devId d)) s = .next { s with devId := d })
  ∧ (∀ (s : State), exec (.fabricRouteWrite (.devId 0xFFFF)) s = .next s)
  ∧ (∀ (s : State) d port, s.power = true → ∃ t, exec (.fabricRouteWrite (.route d port)) s = .next t
      ∧ t.routes.lookup d.toNat = port.map (·.val) ∧ ∀ x, x ≠ d.toNat → t.routes.lookup x = s.routes.lookup x)

/-- POWER_GOOD and BOOT_STAGE_COMPLETE (R399 to R401, R403): stage by stage; after stage 5 every byte reads zero through slot 0, whose
key is a free value; after stage 6 the records are zero, READY is set and `clk` counts from 0; a stage fails with a code of its own,
which stands in the boot word, and no other. Until READY, and after a trip, no instruction issues and nothing moves but power, management
and the status page. The material of slot 0, the directory's address after stage 6, and which moves need no READY, are the model's
choice (log 10, log 12, log 23), as are P and C of the denial log and the first turns among the reset records (log 2, log 31), and
the sensors' first readings free (log 25). -/
def Obligations.PowerComesUp : Prop :=
  (∀ s : State, s.power = false → ∃ xs : List Nat, exec .powerGood s = .next
    { s with power := true, stage := 1, err := 0, sensors := xs, draws := s.draws + 3 } ∧ xs.length = 3)
  ∧ (∀ s : State, s.power = true → s.ready = false → s.tripped = false → s.err = 0 → s.stage ≠ 5 → s.stage ≠ 6 →
      exec (.bootStageComplete .ok) s = .next { s with stage := s.stage + 1 })
  ∧ (∀ s : State, s.power = true → s.ready = false → s.tripped = false → s.err = 0 → s.stage = 5 →
      ∃ t, exec (.bootStageComplete .ok) s = .next t ∧ t.stage = 6 ∧ t.keyOf 0 = some (3 * Config.freeNat s.draws)
        ∧ (∀ k, k ≠ 0 → t.keyOf k = s.keyOf k) ∧ ∀ time a, t.readAt 0 time a = 0)
  ∧ (∀ s : State, s.power = true → s.ready = false → s.tripped = false → s.err = 0 → s.stage = 6 →
      ∃ t, exec (.bootStageComplete .ok) s = .next t ∧ t.ready = true ∧ t.clk = 0 ∧ t.launchCtr = 0
        ∧ t.dirBase = Config.directoryBase ∧ (∀ p, t.part p = Part.reset) ∧ ∀ v, t.func v = Func.reset)
  ∧ (∀ (s : State) e, s.power = true → s.ready = false → s.tripped = false → s.err = 0 →
      exec (.bootStageComplete (.failed e)) s = .next (if failsWith s.stage e = true then { s with err := e } else s))
  ∧ (∀ stage e, failsWith stage e = true ↔ (stage, e) ∈ [(2, 1), (2, 2), (3, 3), (4, 4), (5, 5)])
  ∧ (∀ (s : State) m, s.ready = false → (∀ i, m = .event i → readyFree i = false) → s.make m = .next s)

/-- The rest of power and management (R400, R402 to R407): PLIM takes 1,200 W to 1,900 W in steps of 25 W; K-steps are spaced only while
the clock is lowered; a trip drains every block, leaves no dirty line in the L2, and clears READY; a retraining asked for is served; a key slot but slot 0 holds the key loaded; a report is
200 bytes, with DEVID and the nonce; power removed loses everything. Management reads boot word, PLIM, DEVID, routes, sensors and the
fabric's counters. The signature and hash of a report, the readings of the sensors, what the fabric counters count, the material a
key slot holds, and which retraining waits for a request are free or the model's choice (log 26, log 25, log 10, log 38), and so
are the values after a loss of power that the spec does not give, and the agenda, draws and cycles that stand (log 2, log 1). -/
def Obligations.PowerIsManaged : Prop :=
  (∀ (s : State) w, s.power = true → 1200 ≤ w → w ≤ 1900 → w % 25 = 0 → exec (.plimSet w) s = .next { s with plim := w })
  ∧ (∀ (s : State) w, (w < 1200 ∨ 1900 < w ∨ w % 25 ≠ 0) → exec (.plimSet w) s = .next s)
  ∧ (∀ (s : State) lower space, s.ready = true → exec (.powerLimitThrottle lower space) s = .next
      { s with lowered := lower, spaced := lower && space })
  ∧ (∀ s : State, s.ready = true → ∃ xs : List Nat, exec .adaptiveAdjust s =
      .next { s with adjusts := s.adjusts + 1, sensors := xs, draws := s.draws + 3 } ∧ xs.length = 3)
  ∧ (∀ s : State, s.managed .bootWord = some s.bootWord ∧ s.managed .plim = some (BitVec.ofNat 64 s.plim)
      ∧ s.managed .devId = some (s.devId.setWidth 64) ∧ (∀ d p, s.routes.lookup d.toNat = some p →
        s.managed (.route d) = some (BitVec.ofNat 64 p)) ∧ (∀ n x, s.sensors[n]? = some x → s.managed (.sensor n) = some (BitVec.ofNat 64 x))
      ∧ ∀ port n, s.fabricCounts[port]? = some n → s.managed (.fabric port false) = some (BitVec.ofNat 64 n.1)
        ∧ s.managed (.fabric port true) = some (BitVec.ofNat 64 n.2))
  ∧ (∀ s : State, s.power = true → exec .thermalTrip s = .next
      { (s.drainBlocks fun _ => true).cleanL2 (fun _ => true) with tripped := true, ready := false })
  ∧ (∀ (s : State) (p : L2Line → Bool) l, l ∈ (s.cleanL2 p).l2 → p { l with mask := 0 } = p l → p l = true → l.mask = 0)
  ∧ (∀ (s : State) u b, s.block? u = some b → ∃ b', (s.drainAll u).block? u = some b' ∧ b'.storeBuf = [])
  ∧ (∀ (s : State) ch, s.power = true → ∃ t, exec (.retrainRequest ch) s = .next t ∧ ∀ x, x ∈ t.retraining ↔ x = ch ∨ x ∈ s.retraining)
  ∧ (∀ (s : State) ch, s.ready = true → (s.retrainNeedsRequest = false ∨ ch ∈ s.retraining) →
      exec (.memoryRetrain ch) s = .next { s with retraining := s.retraining.filter (· != ch) })
  ∧ (∀ (s : State) ch, s.ready = true → s.retrainNeedsRequest = true → ch ∉ s.retraining → exec (.memoryRetrain ch) s = .next s)
  ∧ (∀ (s : State) slot key, s.power = true → 1 ≤ slot → slot < 2048 → ∃ t, exec (.keySlotLoad slot key) s = .next t
      ∧ t.keyOf slot = some (3 * key + 1) ∧ ∀ x, x ≠ slot → t.keyOf x = s.keyOf x)
  ∧ (∀ (s : State) slot key, (slot = 0 ∨ 2048 ≤ slot) → exec (.keySlotLoad slot key) s = .next s)
  ∧ (∀ (s : State) nonce, s.power = true → ∃ t r, exec (.attestationReport nonce) s = .next t ∧ t.reports = s.reports ++ [r]
      ∧ r.length = 200 ∧ leNat (r.take 2) = s.devId.toNat ∧ leNat ((r.drop 8).take 48) = nonce.toNat)
  ∧ (∀ s : State, exec .powerRemoved s = .next { State.reset with agenda := s.agenda, draws := s.draws, cyc := s.cyc })


/-! ### Encoding, fetching and stepping (05_encoding R50-R68, 11_ordering R166, 04_sweep R33) -/

/-- Every well-formed instruction but an event has an encoding, of one word or of two (R50, R51), and it decodes to the instruction
with every operand, whatever bytes follow. What decodes to an instruction of an assigned major is well formed, and the bytes read
are exactly its encoding: each encoding has one meaning (R54, R55, R65, R68). -/
def Obligations.EncodeDecode : Prop :=
  (∀ i, i.wf = true → i.isEvent = false → ∃ ws : List DWord, encode i = some ws ∧ (ws.length = 1 ∨ ws.length = 2)
    ∧ ∀ rest, decodeBytes (ws.flatMap bytesOf ++ rest) = .ok (i, rest))
  ∧ (∀ b i rest, decodeBytes b = .ok (i, rest) → (∀ w, i ≠ .unassignedMajor w) →
      i.wf = true ∧ i.isEvent = false ∧ ∃ ws : List DWord, encode i = some ws ∧ b = ws.flatMap bytesOf ++ rest)

/-- Words written out field by field from the encodings of the spec decode to the instructions they stand for: IADD of a vector and a
scalar register, IADD.sat.i64 under a negated guard, MOVI.i64, GO under a guard, FFMA, LD.b128.nl1, CCOPY with its second word, and
an unassigned major. A word with a register in a field its entry does not use, and one with T = 0xF, are refused. Words are two from major 0xC0
on. -/
def Obligations.DecodeSpecWords : Prop :=
  -- OPC FN G, then format R: D A B C, T RM S M
  (decodeWords ((0x13 : BitVec 8) ++ (0b0000 : BitVec 4) ++ (0b0000 : BitVec 4) ++ (0x01 : BitVec 8) ++ (0x00 : BitVec 8)
      ++ (0x80 : BitVec 8) ++ (0xFF : BitVec 8) ++ (4 : BitVec 4) ++ (0 : BitVec 3) ++ (0 : BitVec 1) ++ (0 : BitVec 8)) 0
    = .ok (.iadd ⟨false, 0⟩ .i32 false (.v 1) (.v 0) (.s 0)))
  ∧ (decodeWords ((0x13 : BitVec 8) ++ (0b0000 : BitVec 4) ++ (0b1011 : BitVec 4) ++ (0x02 : BitVec 8) ++ (0x04 : BitVec 8)
      ++ (0x82 : BitVec 8) ++ (0xFF : BitVec 8) ++ (6 : BitVec 4) ++ (0 : BitVec 3) ++ (1 : BitVec 1) ++ (0 : BitVec 8)) 0
    = .ok (.iadd ⟨true, 3⟩ .i64 true (.v 2) (.v 4) (.s 2)))
  -- format I: D A K
  ∧ (decodeWords ((0x11 : BitVec 8) ++ (0b0001 : BitVec 4) ++ (0b0000 : BitVec 4) ++ (0x84 : BitVec 8) ++ (0xFF : BitVec 8)
      ++ (0x80000001 : BitVec 32)) 0 = .ok (.movi ⟨false, 0⟩ .i64 (.s 4) 0x80000001))
  -- format J: A B L
  ∧ (decodeWords ((0x02 : BitVec 8) ++ (0b0000 : BitVec 4) ++ (0b0001 : BitVec 4) ++ (0xFF : BitVec 8) ++ (0xFF : BitVec 8)
      ++ (4 : BitVec 32)) 0 = .ok (.go ⟨false, 1⟩ 4))
  ∧ (decodeWords ((0x33 : BitVec 8) ++ (0b0000 : BitVec 4) ++ (0b0000 : BitVec 4) ++ (0x03 : BitVec 8) ++ (0x80 : BitVec 8)
      ++ (0x80 : BitVec 8) ++ (0x81 : BitVec 8) ++ (0xA : BitVec 4) ++ (0 : BitVec 3) ++ (0 : BitVec 1) ++ (0 : BitVec 8)) 0
    = .ok (.ffma ⟨false, 0⟩ .f32 .rne false false false (.v 3) (.s 0) (.s 0) (.s 1)))
  -- format M: D B X, Z O F
  ∧ (decodeWords ((0x60 : BitVec 8) ++ (0b0000 : BitVec 4) ++ (0b0000 : BitVec 4) ++ (0x0C : BitVec 8) ++ (0x80 : BitVec 8)
      ++ (0x06 : BitVec 8) ++ (0xB : BitVec 4) ++ (0b10 : BitVec 2) ++ (0 : BitVec 2) ++ (1 : BitVec 16)) 0
    = .ok (.ld ⟨false, 0⟩ .b128 .nl1 false (.v 12) ⟨.s 0, .v 6, 1⟩))
  -- format X, with its second word: OFF RB-1 NR-1 SS DS
  ∧ (decodeWords ((0xD3 : BitVec 8) ++ (0b0000 : BitVec 4) ++ (0b0001 : BitVec 4) ++ (0x86 : BitVec 8) ++ (0x80 : BitVec 8)
      ++ (0xFF : BitVec 8) ++ (0x86 : BitVec 8) ++ (0 : BitVec 16))
      ((0x100 : BitVec 12) ++ (63 : BitVec 12) ++ (3 : BitVec 8) ++ (256 : BitVec 16) ++ (0 : BitVec 16))
    = .ok (.ccopy ⟨false, 1⟩ .g2s false ⟨0x100, 63, 3, 256, 0⟩ (.s 6) (.s 0) (.s 6)))
  ∧ (decodeWords ((0x70 : BitVec 8) ++ (0 : BitVec 56)) 0 = .ok (.unassignedMajor 0x7000000000000000))
  -- C names v0 in a field that IADD does not use; T = 0xF
  ∧ (decodeWords 0x1300010080004000 0 = .error .unused) ∧ (decodeWords 0x1300010080FFF000 0 = .error .code)
  ∧ lengthOf 0xC0FFFFFFFFFFFFFF = 2 ∧ lengthOf 0xBFFFFFFFFFFFFFFF = 1

/-- Every step keeps home memory in its canonical form: addresses rise strictly and no listed byte is zero, which unlisted bytes read
as (R399 stage 5). It holds from every state, whatever moves. -/
def Obligations.StepKeepsMemoryCanonical : Prop :=
  ∀ s t : State, memWf s.mem = true → step s = .next t → memWf t.mem = true

/-- At reset home memory, the scratchpads and the saved scratchpads are canonical. That nothing is listed at reset is the model's
choice until power-up zeroes memory (log 24). -/
def Obligations.ResetMemoriesCanonical : Prop := State.reset.memoriesOk = true ∧ State.reset.mem = []

/-- A step that issues (R33, R50, R69, R104, R219, R221, R222) runs, once its time has passed, the instruction the words of the crew's
line decode to at the offset its visit has reached, with the lanes that join there; words that decode to nothing run as an instruction
that is not legal. A step that is chosen as an event is that event, with no crew issuing, and before READY only where the event needs
none. With nothing chosen a step is a move that free values pick (log 1).
A move says when its walks may first have begun (the model's choice, log 34). That words that decode to nothing issue as not legal
is the model's reading (log 29); which events need no READY, and that a dead device with nothing on its agenda has halted, are its
choice (log 23), as are what a turn says of late results and of walks (log 1, log 34). -/
def Obligations.StepRunsDecoded : Prop :=
  (∀ s s' cycles refs late lags u ci rest b c lab pc p l i, s.agenda = ⟨cycles, refs, .issue u ci, late, lags⟩ :: rest →
    (({ s with agenda := rest, late := late, lags := lags, walkFrom := s.now } : State).pass cycles refs).opening (.issue u ci) = s' →
    s'.ready = true →
    s'.crew? u ci = some (b, c) → c.seq = .visit lab pc → c.line = some l → b.heldAt c = false →
    State.boundary b c lab pc = .issue p → b.mayIssue c i = true → s'.linkFree b ci (c.joinAt lab p) i = true →
    (i.leavesAfter = false ∨ s'.afterWaits b c p i.len = none) →
    s'.mayChoose b c = true → s'.heldBack b.core c i = false →
    (let w := l.wordAt p.toNat;
     let d := decodeWords w (if lengthOf w = 2 then l.wordAt (p.toNat + 1) else 0);
     (d = .ok i ∨ (∃ e, d = .error e) ∧ i = .unassignedMajor w) → step s = exec i (s'.issueState u ci lab p)))
  ∧ (∀ s cycles refs late lags i rest, s.agenda = ⟨cycles, refs, .event i, late, lags⟩ :: rest →
      (let t := ({ s with agenda := rest, late := late, lags := lags, walkFrom := s.now } : State).pass cycles refs;
       ((s.ready = true ∨ readyFree i = true) → step s = exec i { t.opening (.event i) with cur := none })
       ∧ (s.ready = false → readyFree i = false → step s = .next t)))
  ∧ (∀ s, s.agenda = [] → s.dead = false → step s = State.make (({ s with
      draws := s.draws + freeTurnDraws, late := s.freeTurn.late, lags := s.freeTurn.lags, walkFrom := s.now } : State).pass
      s.freeTurn.cycles s.freeTurn.refs) s.freeTurn.move)
  ∧ (∀ s, s.agenda = [] → s.dead = true → step s = .fault .halted)
end

