-- ==== Sys2Proof/Laws/Decode.lean ====
section
/-! SUPPORT. What each field of a packed word reads back as, and that each code of a field names what it was made from: the
small lemmas of the encoding tables (05_encoding R54-R64). -/

namespace Sys2Proof.Laws

/-! ### Fields of packed words -/

/-- A field of an append that lies in its lower part. -/
theorem bits_append_low {n m : Nat} (x : BitVec n) (y : BitVec m) (lo len : Nat) (h : lo + len ≤ m) :
    bits (x ++ y) lo len = bits y lo len := by
  apply BitVec.eq_of_getLsbD_eq
  intro i hi
  simp only [bits, BitVec.getLsbD_extractLsb', BitVec.getLsbD_append]
  simp [hi, show lo + i < m by omega]

/-- A field of an append that lies in its upper part. -/
theorem bits_append_high {n m : Nat} (x : BitVec n) (y : BitVec m) (lo len : Nat) (h : m ≤ lo) :
    bits (x ++ y) lo len = bits x (lo - m) len := by
  apply BitVec.eq_of_getLsbD_eq
  intro i hi
  simp only [bits, BitVec.getLsbD_extractLsb', BitVec.getLsbD_append]
  simp [show ¬ (lo + i < m) by omega, show lo + i - m = lo - m + i by omega]

/-- The whole of a value. -/
theorem bits_all {n : Nat} (x : BitVec n) : bits x 0 n = x := by
  apply BitVec.eq_of_getLsbD_eq
  intro i hi
  simp [bits, hi]

/-- One bit read back as a Bool. -/
@[simp] theorem bits_ofBool (b : Bool) : (bits (BitVec.ofBool b) 0 1 == 1) = b := by cases b <;> rfl

section R
variable (opc : BitVec 8) (fn g : BitVec 4) (d a b c : BitVec 8) (t : BitVec 4) (rm : BitVec 3) (s : Bool) (m : BitVec 8)

@[simp] theorem opcOf_packR : opcOf (packR opc fn g d a b c t rm s m) = opc :=
  ((bits_append_high (n := 16) (m := 48) _ _ 56 8 (by decide)).trans ((bits_append_high (n := 12) (m := 4) _ _ 8 8 (by decide)).trans ((bits_append_high (n := 8) (m := 4) _ _ 4 8 (by decide))))).trans (bits_all _)
@[simp] theorem fnOf_packR : fnOf (packR opc fn g d a b c t rm s m) = fn :=
  ((bits_append_high (n := 16) (m := 48) _ _ 52 4 (by decide)).trans ((bits_append_high (n := 12) (m := 4) _ _ 4 4 (by decide)).trans ((bits_append_low (n := 8) (m := 4) _ _ 0 4 (by decide))))).trans (bits_all _)
@[simp] theorem gOf_packR : gOf (packR opc fn g d a b c t rm s m) = g :=
  ((bits_append_high (n := 16) (m := 48) _ _ 48 4 (by decide)).trans ((bits_append_low (n := 12) (m := 4) _ _ 0 4 (by decide)))).trans (bits_all _)
@[simp] theorem dOf_packR : dOf (packR opc fn g d a b c t rm s m) = d :=
  ((bits_append_low (n := 16) (m := 48) _ _ 40 8 (by decide)).trans ((bits_append_high (n := 32) (m := 16) _ _ 40 8 (by decide)).trans ((bits_append_high (n := 24) (m := 8) _ _ 24 8 (by decide)).trans ((bits_append_high (n := 16) (m := 8) _ _ 16 8 (by decide)).trans ((bits_append_high (n := 8) (m := 8) _ _ 8 8 (by decide))))))).trans (bits_all _)
@[simp] theorem aOf_packR : aOf (packR opc fn g d a b c t rm s m) = a :=
  ((bits_append_low (n := 16) (m := 48) _ _ 32 8 (by decide)).trans ((bits_append_high (n := 32) (m := 16) _ _ 32 8 (by decide)).trans ((bits_append_high (n := 24) (m := 8) _ _ 16 8 (by decide)).trans ((bits_append_high (n := 16) (m := 8) _ _ 8 8 (by decide)).trans ((bits_append_low (n := 8) (m := 8) _ _ 0 8 (by decide))))))).trans (bits_all _)
@[simp] theorem bOf_packR : bOf (packR opc fn g d a b c t rm s m) = b :=
  ((bits_append_low (n := 16) (m := 48) _ _ 24 8 (by decide)).trans ((bits_append_high (n := 32) (m := 16) _ _ 24 8 (by decide)).trans ((bits_append_high (n := 24) (m := 8) _ _ 8 8 (by decide)).trans ((bits_append_low (n := 16) (m := 8) _ _ 0 8 (by decide)))))).trans (bits_all _)
@[simp] theorem cOf_packR : cOf (packR opc fn g d a b c t rm s m) = c :=
  ((bits_append_low (n := 16) (m := 48) _ _ 16 8 (by decide)).trans ((bits_append_high (n := 32) (m := 16) _ _ 16 8 (by decide)).trans ((bits_append_low (n := 24) (m := 8) _ _ 0 8 (by decide))))).trans (bits_all _)
@[simp] theorem tOf_packR : tOf (packR opc fn g d a b c t rm s m) = t :=
  ((bits_append_low (n := 16) (m := 48) _ _ 12 4 (by decide)).trans ((bits_append_low (n := 32) (m := 16) _ _ 12 4 (by decide)).trans ((bits_append_high (n := 8) (m := 8) _ _ 12 4 (by decide)).trans ((bits_append_high (n := 7) (m := 1) _ _ 4 4 (by decide)).trans ((bits_append_high (n := 4) (m := 3) _ _ 3 4 (by decide))))))).trans (bits_all _)
@[simp] theorem rmOf_packR : rmOf (packR opc fn g d a b c t rm s m) = rm :=
  ((bits_append_low (n := 16) (m := 48) _ _ 9 3 (by decide)).trans ((bits_append_low (n := 32) (m := 16) _ _ 9 3 (by decide)).trans ((bits_append_high (n := 8) (m := 8) _ _ 9 3 (by decide)).trans ((bits_append_high (n := 7) (m := 1) _ _ 1 3 (by decide)).trans ((bits_append_low (n := 4) (m := 3) _ _ 0 3 (by decide))))))).trans (bits_all _)
@[simp] theorem sOf_packR : sOf (packR opc fn g d a b c t rm s m) = s := by
  have h : bits (packR opc fn g d a b c t rm s m) 8 1 = BitVec.ofBool s := (((bits_append_low (n := 16) (m := 48) _ _ 8 1 (by decide)).trans ((bits_append_low (n := 32) (m := 16) _ _ 8 1 (by decide)).trans ((bits_append_high (n := 8) (m := 8) _ _ 8 1 (by decide)).trans ((bits_append_low (n := 7) (m := 1) _ _ 0 1 (by decide)))))).trans (bits_all _))
  rw [sOf, h]; cases s <;> rfl
@[simp] theorem mOf_packR : mOf (packR opc fn g d a b c t rm s m) = m :=
  ((bits_append_low (n := 16) (m := 48) _ _ 0 8 (by decide)).trans ((bits_append_low (n := 32) (m := 16) _ _ 0 8 (by decide)).trans ((bits_append_low (n := 8) (m := 8) _ _ 0 8 (by decide))))).trans (bits_all _)

/-- A field inside M (R57). -/
theorem bits_packR (lo len : Nat) (h : lo + len ≤ 8) : bits (packR opc fn g d a b c t rm s m) lo len = bits m lo len := by
  exact (bits_append_low (n := 16) (m := 48) _ _ lo len (by omega)).trans ((bits_append_low (n := 32) (m := 16) _ _ lo len
    (by omega)).trans (bits_append_low (n := 8) (m := 8) _ _ lo len (by omega)))

end R

section I
variable (opc : BitVec 8) (fn g : BitVec 4) (d a : BitVec 8) (w : BitVec 16) (k : BitVec 32)

@[simp] theorem opcOf_packI : opcOf (packI opc fn g d a k) = opc :=
  ((bits_append_high (n := 16) (m := 48) _ _ 56 8 (by decide)).trans ((bits_append_high (n := 12) (m := 4) _ _ 8 8 (by decide)).trans ((bits_append_high (n := 8) (m := 4) _ _ 4 8 (by decide))))).trans (bits_all _)
@[simp] theorem fnOf_packI : fnOf (packI opc fn g d a k) = fn :=
  ((bits_append_high (n := 16) (m := 48) _ _ 52 4 (by decide)).trans ((bits_append_high (n := 12) (m := 4) _ _ 4 4 (by decide)).trans ((bits_append_low (n := 8) (m := 4) _ _ 0 4 (by decide))))).trans (bits_all _)
@[simp] theorem gOf_packI : gOf (packI opc fn g d a k) = g :=
  ((bits_append_high (n := 16) (m := 48) _ _ 48 4 (by decide)).trans ((bits_append_low (n := 12) (m := 4) _ _ 0 4 (by decide)))).trans (bits_all _)
@[simp] theorem dOf_packI : dOf (packI opc fn g d a k) = d :=
  ((bits_append_low (n := 16) (m := 48) _ _ 40 8 (by decide)).trans ((bits_append_high (n := 16) (m := 32) _ _ 40 8 (by decide)).trans ((bits_append_high (n := 8) (m := 8) _ _ 8 8 (by decide))))).trans (bits_all _)
@[simp] theorem aOf_packI : aOf (packI opc fn g d a k) = a :=
  ((bits_append_low (n := 16) (m := 48) _ _ 32 8 (by decide)).trans ((bits_append_high (n := 16) (m := 32) _ _ 32 8 (by decide)).trans ((bits_append_low (n := 8) (m := 8) _ _ 0 8 (by decide))))).trans (bits_all _)
@[simp] theorem kOf_packI : kOf (packI opc fn g d a k) = k :=
  ((bits_append_low (n := 16) (m := 48) _ _ 0 32 (by decide)).trans ((bits_append_low (n := 16) (m := 32) _ _ 0 32 (by decide)))).trans (bits_all _)
@[simp] theorem opcOf_packW : opcOf (packW opc fn g w k) = opc :=
  ((bits_append_high (n := 16) (m := 48) _ _ 56 8 (by decide)).trans ((bits_append_high (n := 12) (m := 4) _ _ 8 8 (by decide)).trans ((bits_append_high (n := 8) (m := 4) _ _ 4 8 (by decide))))).trans (bits_all _)
@[simp] theorem gOf_packW : gOf (packW opc fn g w k) = g :=
  ((bits_append_high (n := 16) (m := 48) _ _ 48 4 (by decide)).trans ((bits_append_low (n := 12) (m := 4) _ _ 0 4 (by decide)))).trans (bits_all _)
@[simp] theorem wOf_packW : wOf (packW opc fn g w k) = w :=
  ((bits_append_low (n := 16) (m := 48) _ _ 32 16 (by decide)).trans ((bits_append_high (n := 16) (m := 32) _ _ 32 16 (by decide)))).trans (bits_all _)
@[simp] theorem kOf_packW : kOf (packW opc fn g w k) = k :=
  ((bits_append_low (n := 16) (m := 48) _ _ 0 32 (by decide)).trans ((bits_append_low (n := 16) (m := 32) _ _ 0 32 (by decide)))).trans (bits_all _)

/-- A field inside K (R57). -/
theorem bits_packI (lo len : Nat) (h : lo + len ≤ 32) : bits (packI opc fn g d a k) lo len = bits k lo len := by
  exact (bits_append_low (n := 16) (m := 48) _ _ lo len (by omega)).trans
    (bits_append_low (n := 16) (m := 32) _ _ lo len (by omega))

end I

section M
variable (opc : BitVec 8) (fn g : BitVec 4) (d b x : BitVec 8) (z : BitVec 4) (h p : BitVec 2) (f : BitVec 16)

@[simp] theorem opcOf_packM : opcOf (packM opc fn g d b x z h p f) = opc :=
  ((bits_append_high (n := 16) (m := 48) _ _ 56 8 (by decide)).trans ((bits_append_high (n := 12) (m := 4) _ _ 8 8 (by decide)).trans ((bits_append_high (n := 8) (m := 4) _ _ 4 8 (by decide))))).trans (bits_all _)
@[simp] theorem fnOf_packM : fnOf (packM opc fn g d b x z h p f) = fn :=
  ((bits_append_high (n := 16) (m := 48) _ _ 52 4 (by decide)).trans ((bits_append_high (n := 12) (m := 4) _ _ 4 4 (by decide)).trans ((bits_append_low (n := 8) (m := 4) _ _ 0 4 (by decide))))).trans (bits_all _)
@[simp] theorem gOf_packM : gOf (packM opc fn g d b x z h p f) = g :=
  ((bits_append_high (n := 16) (m := 48) _ _ 48 4 (by decide)).trans ((bits_append_low (n := 12) (m := 4) _ _ 0 4 (by decide)))).trans (bits_all _)
@[simp] theorem dOf_packM : dOf (packM opc fn g d b x z h p f) = d :=
  ((bits_append_low (n := 16) (m := 48) _ _ 40 8 (by decide)).trans ((bits_append_high (n := 32) (m := 16) _ _ 40 8 (by decide)).trans ((bits_append_high (n := 24) (m := 8) _ _ 24 8 (by decide)).trans ((bits_append_high (n := 16) (m := 8) _ _ 16 8 (by decide)).trans ((bits_append_high (n := 8) (m := 8) _ _ 8 8 (by decide))))))).trans (bits_all _)
@[simp] theorem aOf_packM : aOf (packM opc fn g d b x z h p f) = b :=
  ((bits_append_low (n := 16) (m := 48) _ _ 32 8 (by decide)).trans ((bits_append_high (n := 32) (m := 16) _ _ 32 8 (by decide)).trans ((bits_append_high (n := 24) (m := 8) _ _ 16 8 (by decide)).trans ((bits_append_high (n := 16) (m := 8) _ _ 8 8 (by decide)).trans ((bits_append_low (n := 8) (m := 8) _ _ 0 8 (by decide))))))).trans (bits_all _)
@[simp] theorem bOf_packM : bOf (packM opc fn g d b x z h p f) = x :=
  ((bits_append_low (n := 16) (m := 48) _ _ 24 8 (by decide)).trans ((bits_append_high (n := 32) (m := 16) _ _ 24 8 (by decide)).trans ((bits_append_high (n := 24) (m := 8) _ _ 8 8 (by decide)).trans ((bits_append_low (n := 16) (m := 8) _ _ 0 8 (by decide)))))).trans (bits_all _)
@[simp] theorem zOf_packM : zOf (packM opc fn g d b x z h p f) = z :=
  ((bits_append_low (n := 16) (m := 48) _ _ 20 4 (by decide)).trans ((bits_append_high (n := 32) (m := 16) _ _ 20 4 (by decide)).trans ((bits_append_low (n := 24) (m := 8) _ _ 4 4 (by decide)).trans ((bits_append_high (n := 4) (m := 4) _ _ 4 4 (by decide)))))).trans (bits_all _)
@[simp] theorem hOf_packM : hOf (packM opc fn g d b x z h p f) = h :=
  ((bits_append_low (n := 16) (m := 48) _ _ 18 2 (by decide)).trans ((bits_append_high (n := 32) (m := 16) _ _ 18 2 (by decide)).trans ((bits_append_low (n := 24) (m := 8) _ _ 2 2 (by decide)).trans ((bits_append_low (n := 4) (m := 4) _ _ 2 2 (by decide)).trans ((bits_append_high (n := 2) (m := 2) _ _ 2 2 (by decide))))))).trans (bits_all _)
@[simp] theorem pOf_packM : pOf (packM opc fn g d b x z h p f) = p :=
  ((bits_append_low (n := 16) (m := 48) _ _ 16 2 (by decide)).trans ((bits_append_high (n := 32) (m := 16) _ _ 16 2 (by decide)).trans ((bits_append_low (n := 24) (m := 8) _ _ 0 2 (by decide)).trans ((bits_append_low (n := 4) (m := 4) _ _ 0 2 (by decide)).trans ((bits_append_low (n := 2) (m := 2) _ _ 0 2 (by decide))))))).trans (bits_all _)
@[simp] theorem fOf_packM : fOf (packM opc fn g d b x z h p f) = f :=
  ((bits_append_low (n := 16) (m := 48) _ _ 0 16 (by decide)).trans ((bits_append_low (n := 32) (m := 16) _ _ 0 16 (by decide)))).trans (bits_all _)

end M

/-! ### Codes -/

@[simp] theorem sreg_code (r : SReg) : SReg.ofCode r.code = some r := by cases r <;> rfl

theorem v_code (n : BitVec 7) : Reg.ofCode (Reg.v n).code = .ok (.v n) := by revert n; decide
theorem s_code (n : BitVec 6) : Reg.ofCode (Reg.s n).code = .ok (.s n) := by revert n; decide
theorem q_code (n : BitVec 3) : Reg.ofCode (Reg.q n).code = .ok (.q n) := by revert n; decide

@[simp] theorem reg_code (r : Reg) : Reg.ofCode r.code = .ok r := by
  cases r with
  | v n => exact v_code n
  | s n => exact s_code n
  | q n => exact q_code n
  | sp r => cases r <;> rfl
  | none => rfl

@[simp] theorem guard_code (g : Guard) : Guard.ofCode g.code = g := by
  rcases g with ⟨n, p⟩
  revert p
  cases n <;> decide

@[simp] theorem ty_code (x : Ty) : Ty.ofCode x.code = .ok x := by cases x <;> rfl
@[simp] theorem rm_code (x : Rm) : Rm.ofCode x.code = .ok x := by cases x <;> rfl
@[simp] theorem cond_code (x : Cond) : Cond.ofCode x.code = .ok x := by cases x <;> rfl
@[simp] theorem fcond_code (x : FCond) : FCond.ofCode x.code = .ok x := by cases x <;> rfl
@[simp] theorem comb_code (x : Comb) : Comb.ofCode x.code = x := by cases x <;> rfl
@[simp] theorem movi_code (x : MoviForm) : MoviForm.ofCode x.code = .ok x := by cases x <;> rfl
@[simp] theorem vote_code (x : VoteMode) : VoteMode.ofCode x.code = .ok x := by cases x <;> rfl
@[simp] theorem shfl_code (x : ShflMode) : ShflMode.ofCode x.code = .ok x := by cases x <;> rfl
@[simp] theorem scan_code (x : ScanOp) : ScanOp.ofCode x.code = .ok x := by cases x <;> rfl
@[simp] theorem atom_code (x : AtomOp) : AtomOp.ofCode x.code = .ok x := by cases x <;> rfl
@[simp] theorem acc_code (x : Acc) : Acc.ofCode x.code = .ok x := by cases x <;> rfl
@[simp] theorem hint_code (x : Hint) : Hint.ofCode x.code = x := by cases x <;> rfl
@[simp] theorem aspace_code (x : ASpace) : ASpace.ofCode x.code = .ok x := by cases x <;> rfl
@[simp] theorem scope_code (x : Scope) : Scope.ofCode x.code = .ok x := by cases x <;> rfl
@[simp] theorem mfmt_code (x : MFmt) : MFmt.ofCode x.code = .ok x := by cases x <;> rfl
@[simp] theorem shape_code (x : Shape) : Shape.ofCode x.code = .ok x := by cases x <;> rfl
@[simp] theorem copyDir_code (x : CopyDir) : CopyDir.ofCode x.code = .ok x := by cases x <;> rfl

@[simp] theorem row_code (r : RowWord) : RowWord.ofCode r.code = r := by
  rcases r with ⟨off, rb, nr, str⟩
  have hoff : bits (RowWord.code ⟨off, rb, nr, str⟩) 52 12 = off :=
    ((bits_append_high (n := 40) (m := 24) _ _ 52 12 (by decide)).trans ((bits_append_high (n := 24) (m := 16) _ _ 28 12 (by decide)).trans ((bits_append_high (n := 12) (m := 12) _ _ 12 12 (by decide))))).trans (bits_all _)
  have hrb : bits (RowWord.code ⟨off, rb, nr, str⟩) 40 12 = rb :=
    ((bits_append_high (n := 40) (m := 24) _ _ 40 12 (by decide)).trans ((bits_append_high (n := 24) (m := 16) _ _ 16 12 (by decide)).trans ((bits_append_low (n := 12) (m := 12) _ _ 0 12 (by decide))))).trans (bits_all _)
  have hnr : bits (RowWord.code ⟨off, rb, nr, str⟩) 24 16 = nr :=
    ((bits_append_high (n := 40) (m := 24) _ _ 24 16 (by decide)).trans ((bits_append_low (n := 24) (m := 16) _ _ 0 16 (by decide)))).trans (bits_all _)
  have hstr : bits (RowWord.code ⟨off, rb, nr, str⟩) 0 24 = str :=
    ((bits_append_low (n := 40) (m := 24) _ _ 0 24 (by decide))).trans (bits_all _)
  simp only [RowWord.ofCode, hoff, hrb, hnr, hstr]

@[simp] theorem copy_code (r : CopyWord) : CopyWord.ofCode r.code = r := by
  rcases r with ⟨off, rb, nr, ss, ds⟩
  have hoff : bits (CopyWord.code ⟨off, rb, nr, ss, ds⟩) 52 12 = off :=
    ((bits_append_high (n := 48) (m := 16) _ _ 52 12 (by decide)).trans ((bits_append_high (n := 32) (m := 16) _ _ 36 12 (by decide)).trans ((bits_append_high (n := 24) (m := 8) _ _ 20 12 (by decide)).trans ((bits_append_high (n := 12) (m := 12) _ _ 12 12 (by decide)))))).trans (bits_all _)
  have hrb : bits (CopyWord.code ⟨off, rb, nr, ss, ds⟩) 40 12 = rb :=
    ((bits_append_high (n := 48) (m := 16) _ _ 40 12 (by decide)).trans ((bits_append_high (n := 32) (m := 16) _ _ 24 12 (by decide)).trans ((bits_append_high (n := 24) (m := 8) _ _ 8 12 (by decide)).trans ((bits_append_low (n := 12) (m := 12) _ _ 0 12 (by decide)))))).trans (bits_all _)
  have hnr : bits (CopyWord.code ⟨off, rb, nr, ss, ds⟩) 32 8 = nr :=
    ((bits_append_high (n := 48) (m := 16) _ _ 32 8 (by decide)).trans ((bits_append_high (n := 32) (m := 16) _ _ 16 8 (by decide)).trans ((bits_append_low (n := 24) (m := 8) _ _ 0 8 (by decide))))).trans (bits_all _)
  have hss : bits (CopyWord.code ⟨off, rb, nr, ss, ds⟩) 16 16 = ss :=
    ((bits_append_high (n := 48) (m := 16) _ _ 16 16 (by decide)).trans ((bits_append_low (n := 32) (m := 16) _ _ 0 16 (by decide)))).trans (bits_all _)
  have hds : bits (CopyWord.code ⟨off, rb, nr, ss, ds⟩) 0 16 = ds :=
    ((bits_append_low (n := 48) (m := 16) _ _ 0 16 (by decide))).trans (bits_all _)
  simp only [CopyWord.ofCode, hoff, hrb, hnr, hss, hds]

/-! ### Fields of M -/

@[simp] theorem mBit_m1 (b : Bool) : mBit (m1 b) 1 = b := by cases b <;> rfl
@[simp] theorem mBit_m10_1 (b a : Bool) : mBit (m10 b a) 1 = b := by cases a <;> cases b <;> rfl
@[simp] theorem mBit_m10_0 (b a : Bool) : mBit (m10 b a) 0 = a := by cases a <;> cases b <;> rfl
@[simp] theorem bits_m31 (t : BitVec 3) : bits (m31 t) 1 3 = t := by revert t; decide
@[simp] theorem bits_m41 (t : BitVec 4) : bits (m41 t) 1 4 = t := by revert t; decide
@[simp] theorem bits_mComb (c : Comb) (z : Bool) : Comb.ofCode (bits (mComb c z) 1 2) = c := by
  cases c <;> cases z <;> rfl
@[simp] theorem mBit_mComb (c : Comb) (z : Bool) : mBit (mComb c z) 0 = z := by cases c <;> cases z <;> rfl
@[simp] theorem bits_mCvt_ty (t : Ty) (n : BitVec 3) (z : Bool) : Ty.ofCode (bits (mCvt t n z) 4 4) = .ok t := by
  revert n; cases t <;> cases z <;> decide
@[simp] theorem bits_mCvt_n (t : Ty) (n : BitVec 3) (z : Bool) : bits (mCvt t n z) 1 3 = n := by
  revert n; cases t <;> cases z <;> decide
@[simp] theorem mBit_mCvt (t : Ty) (n : BitVec 3) (z : Bool) : mBit (mCvt t n z) 0 = z := by
  revert n; cases t <;> cases z <;> decide
@[simp] theorem bits_mRegroup (n : BitVec 7) : bits (n ++ 0#1 : BitVec 8) 1 7 = n :=
  (bits_append_high (n := 7) (m := 1) _ _ 1 7 (by decide)).trans (bits_all _)

/-- M of QNT (R247). -/
theorem mBit_qnt (o f z : Bool) (i : Nat) :
    mBit (0#5 ++ BitVec.ofBool o ++ BitVec.ofBool f ++ BitVec.ofBool z) i
      = if i = 0 then z else if i = 1 then f else if i = 2 then o else false := by
  match i with
  | 0 => cases o <;> cases f <;> cases z <;> rfl
  | 1 => cases o <;> cases f <;> cases z <;> rfl
  | 2 => cases o <;> cases f <;> cases z <;> rfl
  | i + 3 =>
    have h : ∀ x : BitVec 8, x.toNat < 8 → mBit x (i + 3) = false := by
      intro x hx
      have : bits x (i + 3) 1 = 0 := by
        apply BitVec.eq_of_toNat_eq
        rw [bits, BitVec.extractLsb'_toNat, Nat.shiftRight_eq_div_pow, Nat.div_eq_of_lt
          (Nat.lt_of_lt_of_le hx (Nat.pow_le_pow_right (n := 2) (by decide) (show 3 ≤ i + 3 by omega)))]
        rfl
      simp [mBit, this]
    simpa using h _ (by cases o <;> cases f <;> cases z <;> decide)

/-- M of MDESC (R291). -/
@[simp] theorem bits_mdesc_fmt (f : MFmt) (h : BitVec 4) :
    MFmt.ofCode (bits (f.code ++ h ++ 0#1 : BitVec 8) 5 3) = .ok f := by revert h; cases f <;> decide
@[simp] theorem bits_mdesc_h (f : MFmt) (h : BitVec 4) : bits (f.code ++ h ++ 0#1 : BitVec 8) 1 4 = h := by
  revert h; cases f <;> decide

/-- M of MWAIT (R295). -/
@[simp] theorem mBit_mwait (a : Bool) (t : BitVec 3) :
    mBit (0#3 ++ BitVec.ofBool a ++ t ++ 0#1) 4 = a := by revert t; cases a <;> decide
@[simp] theorem bits_mwait (a : Bool) (t : BitVec 3) :
    bits (0#3 ++ BitVec.ofBool a ++ t ++ 0#1 : BitVec 8) 1 3 = t := by
  revert t; cases a <;> decide

/-! ### Fields of whole words that one entry uses -/

@[simp] theorem bits_packR_1_2 (opc : BitVec 8) (fn g : BitVec 4) (d a b c : BitVec 8) (t : BitVec 4) (rm : BitVec 3) (s : Bool) (m : BitVec 8) :
    bits (packR opc fn g d a b c t rm s m) 1 2 = bits m 1 2 := bits_packR _ _ _ _ _ _ _ _ _ _ _ _ _ (by decide)
@[simp] theorem bits_packR_1_3 (opc : BitVec 8) (fn g : BitVec 4) (d a b c : BitVec 8) (t : BitVec 4) (rm : BitVec 3) (s : Bool) (m : BitVec 8) :
    bits (packR opc fn g d a b c t rm s m) 1 3 = bits m 1 3 := bits_packR _ _ _ _ _ _ _ _ _ _ _ _ _ (by decide)
@[simp] theorem bits_packR_1_4 (opc : BitVec 8) (fn g : BitVec 4) (d a b c : BitVec 8) (t : BitVec 4) (rm : BitVec 3) (s : Bool) (m : BitVec 8) :
    bits (packR opc fn g d a b c t rm s m) 1 4 = bits m 1 4 := bits_packR _ _ _ _ _ _ _ _ _ _ _ _ _ (by decide)
@[simp] theorem bits_packR_4_4 (opc : BitVec 8) (fn g : BitVec 4) (d a b c : BitVec 8) (t : BitVec 4) (rm : BitVec 3) (s : Bool) (m : BitVec 8) :
    bits (packR opc fn g d a b c t rm s m) 4 4 = bits m 4 4 := bits_packR _ _ _ _ _ _ _ _ _ _ _ _ _ (by decide)
@[simp] theorem bits_packR_5_3 (opc : BitVec 8) (fn g : BitVec 4) (d a b c : BitVec 8) (t : BitVec 4) (rm : BitVec 3) (s : Bool) (m : BitVec 8) :
    bits (packR opc fn g d a b c t rm s m) 5 3 = bits m 5 3 := bits_packR _ _ _ _ _ _ _ _ _ _ _ _ _ (by decide)
@[simp] theorem bits_packR_1_7 (opc : BitVec 8) (fn g : BitVec 4) (d a b c : BitVec 8) (t : BitVec 4) (rm : BitVec 3) (s : Bool) (m : BitVec 8) :
    bits (packR opc fn g d a b c t rm s m) 1 7 = bits m 1 7 := bits_packR _ _ _ _ _ _ _ _ _ _ _ _ _ (by decide)
@[simp] theorem packI_line0 (opc : BitVec 8) (fn g : BitVec 4) (d a : BitVec 8) (l : BitVec 28) :
    bits (packI opc fn g d a (l ++ 0#4)) 4 28 = l :=
  (bits_packI _ _ _ _ _ _ 4 28 (by decide)).trans ((bits_append_high (n := 28) (m := 4) _ _ 4 28 (by decide)).trans (bits_all _))
@[simp] theorem packI_low0 (opc : BitVec 8) (fn g : BitVec 4) (d a : BitVec 8) (l : BitVec 28) :
    bits (packI opc fn g d a (l ++ 0#4)) 0 4 = 0 :=
  (bits_packI _ _ _ _ _ _ 0 4 (by decide)).trans ((bits_append_low (n := 28) (m := 4) _ _ 0 4 (by decide)).trans (bits_all _))
@[simp] theorem packI_line1 (opc : BitVec 8) (fn g : BitVec 4) (d a : BitVec 8) (l : BitVec 28) :
    bits (packI opc fn g d a (l ++ 1#4)) 4 28 = l :=
  (bits_packI _ _ _ _ _ _ 4 28 (by decide)).trans ((bits_append_high (n := 28) (m := 4) _ _ 4 28 (by decide)).trans (bits_all _))
@[simp] theorem packI_low1 (opc : BitVec 8) (fn g : BitVec 4) (d a : BitVec 8) (l : BitVec 28) :
    bits (packI opc fn g d a (l ++ 1#4)) 0 4 = 1 :=
  (bits_packI _ _ _ _ _ _ 0 4 (by decide)).trans ((bits_append_low (n := 28) (m := 4) _ _ 0 4 (by decide)).trans (bits_all _))
@[simp] theorem got_x (x : BitVec 32) (y z : BitVec 16) :
    bits (x ++ y ++ z : DWord) 32 32 = x :=
  ((bits_append_high (n := 48) (m := 16) _ _ 32 32 (by decide)).trans ((bits_append_high (n := 32) (m := 16) _ _ 16 32 (by decide)))).trans (bits_all _)
@[simp] theorem got_y (x : BitVec 32) (y z : BitVec 16) :
    bits (x ++ y ++ z : DWord) 16 16 = y :=
  ((bits_append_high (n := 48) (m := 16) _ _ 16 16 (by decide)).trans ((bits_append_low (n := 32) (m := 16) _ _ 0 16 (by decide)))).trans (bits_all _)
@[simp] theorem got_z (x : BitVec 32) (y z : BitVec 16) :
    bits (x ++ y ++ z : DWord) 0 16 = z :=
  ((bits_append_low (n := 48) (m := 16) _ _ 0 16 (by decide))).trans (bits_all _)
@[simp] theorem pair_x (x y : BitVec 32) :
    bits (x ++ y : DWord) 32 32 = x :=
  ((bits_append_high (n := 32) (m := 32) _ _ 32 32 (by decide))).trans (bits_all _)
@[simp] theorem pair_y (x y : BitVec 32) :
    bits (x ++ y : DWord) 0 32 = y :=
  ((bits_append_low (n := 32) (m := 32) _ _ 0 32 (by decide))).trans (bits_all _)
@[simp] theorem mloop_u (u v : BitVec 4) (x : BitVec 16) (y z : BitVec 20) :
    bits (u ++ v ++ x ++ y ++ z : DWord) 60 4 = u :=
  ((bits_append_high (n := 44) (m := 20) _ _ 60 4 (by decide)).trans ((bits_append_high (n := 24) (m := 20) _ _ 40 4 (by decide)).trans ((bits_append_high (n := 8) (m := 16) _ _ 20 4 (by decide)).trans ((bits_append_high (n := 4) (m := 4) _ _ 4 4 (by decide)))))).trans (bits_all _)
@[simp] theorem mloop_v (u v : BitVec 4) (x : BitVec 16) (y z : BitVec 20) :
    bits (u ++ v ++ x ++ y ++ z : DWord) 56 4 = v :=
  ((bits_append_high (n := 44) (m := 20) _ _ 56 4 (by decide)).trans ((bits_append_high (n := 24) (m := 20) _ _ 36 4 (by decide)).trans ((bits_append_high (n := 8) (m := 16) _ _ 16 4 (by decide)).trans ((bits_append_low (n := 4) (m := 4) _ _ 0 4 (by decide)))))).trans (bits_all _)
@[simp] theorem mloop_x (u v : BitVec 4) (x : BitVec 16) (y z : BitVec 20) :
    bits (u ++ v ++ x ++ y ++ z : DWord) 40 16 = x :=
  ((bits_append_high (n := 44) (m := 20) _ _ 40 16 (by decide)).trans ((bits_append_high (n := 24) (m := 20) _ _ 20 16 (by decide)).trans ((bits_append_low (n := 8) (m := 16) _ _ 0 16 (by decide))))).trans (bits_all _)
@[simp] theorem mloop_y (u v : BitVec 4) (x : BitVec 16) (y z : BitVec 20) :
    bits (u ++ v ++ x ++ y ++ z : DWord) 20 20 = y :=
  ((bits_append_high (n := 44) (m := 20) _ _ 20 20 (by decide)).trans ((bits_append_low (n := 24) (m := 20) _ _ 0 20 (by decide)))).trans (bits_all _)
@[simp] theorem mloop_z (u v : BitVec 4) (x : BitVec 16) (y z : BitVec 20) :
    bits (u ++ v ++ x ++ y ++ z : DWord) 0 20 = z :=
  ((bits_append_low (n := 44) (m := 20) _ _ 0 20 (by decide))).trans (bits_all _)

theorem ok_bind {ε α β : Type} (x : α) (f : α → Except ε β) : (Except.ok x >>= f) = f x := rfl
theorem ok_map {ε α β : Type} (x : α) (f : α → β) : (f <$> (Except.ok x : Except ε α)) = .ok (f x) := rfl
theorem pure_ok {ε α : Type} (x : α) : (pure x : Except ε α) = .ok x := rfl

end Sys2Proof.Laws
end

