-- ==== Sys2Proof/Laws/State.lean ====
section
/-! SUPPORT. What each field of State is after each of the shared updates: true by definition, so that no proof unfolds a
record update. -/

namespace Sys2Proof.Laws

open Sys2Proof.Machine

variable (s : State)

/-! ### modBlock -/

@[simp] theorem modBlock_power (u : Nat) (f : Block → Block) : (s.modBlock u f).power = s.power := rfl
@[simp] theorem modBlock_stage (u : Nat) (f : Block → Block) : (s.modBlock u f).stage = s.stage := rfl
@[simp] theorem modBlock_err (u : Nat) (f : Block → Block) : (s.modBlock u f).err = s.err := rfl
@[simp] theorem modBlock_ready (u : Nat) (f : Block → Block) : (s.modBlock u f).ready = s.ready := rfl
@[simp] theorem modBlock_tripped (u : Nat) (f : Block → Block) : (s.modBlock u f).tripped = s.tripped := rfl
@[simp] theorem modBlock_plim (u : Nat) (f : Block → Block) : (s.modBlock u f).plim = s.plim := rfl
@[simp] theorem modBlock_lowered (u : Nat) (f : Block → Block) : (s.modBlock u f).lowered = s.lowered := rfl
@[simp] theorem modBlock_spaced (u : Nat) (f : Block → Block) : (s.modBlock u f).spaced = s.spaced := rfl
@[simp] theorem modBlock_sensors (u : Nat) (f : Block → Block) : (s.modBlock u f).sensors = s.sensors := rfl
@[simp] theorem modBlock_fabricCounts (u : Nat) (f : Block → Block) : (s.modBlock u f).fabricCounts = s.fabricCounts := rfl
@[simp] theorem modBlock_adjusts (u : Nat) (f : Block → Block) : (s.modBlock u f).adjusts = s.adjusts := rfl
@[simp] theorem modBlock_retraining (u : Nat) (f : Block → Block) : (s.modBlock u f).retraining = s.retraining := rfl
@[simp] theorem modBlock_keys (u : Nat) (f : Block → Block) : (s.modBlock u f).keys = s.keys := rfl
@[simp] theorem modBlock_zeroKey (u : Nat) (f : Block → Block) : (s.modBlock u f).zeroKey = s.zeroKey := rfl
@[simp] theorem modBlock_dirBase (u : Nat) (f : Block → Block) : (s.modBlock u f).dirBase = s.dirBase := rfl
@[simp] theorem modBlock_launchCtr (u : Nat) (f : Block → Block) : (s.modBlock u f).launchCtr = s.launchCtr := rfl
@[simp] theorem modBlock_takes (u : Nat) (f : Block → Block) : (s.modBlock u f).takes = s.takes := rfl
@[simp] theorem modBlock_cyc (u : Nat) (f : Block → Block) : (s.modBlock u f).cyc = s.cyc := rfl
@[simp] theorem modBlock_clk (u : Nat) (f : Block → Block) : (s.modBlock u f).clk = s.clk := rfl
@[simp] theorem modBlock_mem (u : Nat) (f : Block → Block) : (s.modBlock u f).mem = s.mem := rfl
@[simp] theorem modBlock_log (u : Nat) (f : Block → Block) : (s.modBlock u f).log = s.log := rfl
@[simp] theorem modBlock_qkeys (u : Nat) (f : Block → Block) : (s.modBlock u f).qkeys = s.qkeys := rfl
@[simp] theorem modBlock_posted (u : Nat) (f : Block → Block) : (s.modBlock u f).posted = s.posted := rfl
@[simp] theorem modBlock_hostReqs (u : Nat) (f : Block → Block) : (s.modBlock u f).hostReqs = s.hostReqs := rfl
@[simp] theorem modBlock_hostNo (u : Nat) (f : Block → Block) : (s.modBlock u f).hostNo = s.hostNo := rfl
@[simp] theorem modBlock_l2 (u : Nat) (f : Block → Block) : (s.modBlock u f).l2 = s.l2 := rfl
@[simp] theorem modBlock_l1 (u : Nat) (f : Block → Block) : (s.modBlock u f).l1 = s.l1 := rfl
@[simp] theorem modBlock_icache (u : Nat) (f : Block → Block) : (s.modBlock u f).icache = s.icache := rfl
@[simp] theorem modBlock_remaps (u : Nat) (f : Block → Block) : (s.modBlock u f).remaps = s.remaps := rfl
@[simp] theorem modBlock_victims (u : Nat) (f : Block → Block) : (s.modBlock u f).victims = s.victims := rfl
@[simp] theorem modBlock_looks (u : Nat) (f : Block → Block) : (s.modBlock u f).looks = s.looks := rfl
@[simp] theorem modBlock_opCache (u : Nat) (f : Block → Block) : (s.modBlock u f).opCache = s.opCache := rfl
@[simp] theorem modBlock_coreStamps (u : Nat) (f : Block → Block) : (s.modBlock u f).coreStamps = s.coreStamps := rfl
@[simp] theorem modBlock_sectorStamps (u : Nat) (f : Block → Block) : (s.modBlock u f).sectorStamps = s.sectorStamps := rfl
@[simp] theorem modBlock_pins (u : Nat) (f : Block → Block) : (s.modBlock u f).pins = s.pins := rfl
@[simp] theorem modBlock_decays (u : Nat) (f : Block → Block) : (s.modBlock u f).decays = s.decays := rfl
@[simp] theorem modBlock_blocks (u : Nat) (f : Block → Block) : (s.modBlock u f).blocks = s.blocks.map fun b => if b.uid == u then f b else b := rfl
@[simp] theorem modBlock_nextUid (u : Nat) (f : Block → Block) : (s.modBlock u f).nextUid = s.nextUid := rfl
@[simp] theorem modBlock_nextAge (u : Nat) (f : Block → Block) : (s.modBlock u f).nextAge = s.nextAge := rfl
@[simp] theorem modBlock_launches (u : Nat) (f : Block → Block) : (s.modBlock u f).launches = s.launches := rfl
@[simp] theorem modBlock_colls (u : Nat) (f : Block → Block) : (s.modBlock u f).colls = s.colls := rfl
@[simp] theorem modBlock_nextColl (u : Nat) (f : Block → Block) : (s.modBlock u f).nextColl = s.nextColl := rfl
@[simp] theorem modBlock_nets (u : Nat) (f : Block → Block) : (s.modBlock u f).nets = s.nets := rfl
@[simp] theorem modBlock_nextToken (u : Nat) (f : Block → Block) : (s.modBlock u f).nextToken = s.nextToken := rfl
@[simp] theorem modBlock_gathered (u : Nat) (f : Block → Block) : (s.modBlock u f).gathered = s.gathered := rfl
@[simp] theorem modBlock_residency (u : Nat) (f : Block → Block) : (s.modBlock u f).residency = s.residency := rfl
@[simp] theorem modBlock_words (u : Nat) (f : Block → Block) : (s.modBlock u f).words = s.words := rfl
@[simp] theorem modBlock_compacts (u : Nat) (f : Block → Block) : (s.modBlock u f).compacts = s.compacts := rfl
@[simp] theorem modBlock_parts (u : Nat) (f : Block → Block) : (s.modBlock u f).parts = s.parts := rfl
@[simp] theorem modBlock_funcs (u : Nat) (f : Block → Block) : (s.modBlock u f).funcs = s.funcs := rfl
@[simp] theorem modBlock_apEn (u : Nat) (f : Block → Block) : (s.modBlock u f).apEn = s.apEn := rfl
@[simp] theorem modBlock_apKey (u : Nat) (f : Block → Block) : (s.modBlock u f).apKey = s.apKey := rfl
@[simp] theorem modBlock_apPab (u : Nat) (f : Block → Block) : (s.modBlock u f).apPab = s.apPab := rfl
@[simp] theorem modBlock_devId (u : Nat) (f : Block → Block) : (s.modBlock u f).devId = s.devId := rfl
@[simp] theorem modBlock_routes (u : Nat) (f : Block → Block) : (s.modBlock u f).routes = s.routes := rfl
@[simp] theorem modBlock_link (u : Nat) (f : Block → Block) : (s.modBlock u f).link = s.link := rfl
@[simp] theorem modBlock_fabric (u : Nat) (f : Block → Block) : (s.modBlock u f).fabric = s.fabric := rfl
@[simp] theorem modBlock_hostMsgs (u : Nat) (f : Block → Block) : (s.modBlock u f).hostMsgs = s.hostMsgs := rfl
@[simp] theorem modBlock_hostReads (u : Nat) (f : Block → Block) : (s.modBlock u f).hostReads = s.hostReads := rfl
@[simp] theorem modBlock_reports (u : Nat) (f : Block → Block) : (s.modBlock u f).reports = s.reports := rfl
@[simp] theorem modBlock_agenda (u : Nat) (f : Block → Block) : (s.modBlock u f).agenda = s.agenda := rfl
@[simp] theorem modBlock_cur (u : Nat) (f : Block → Block) : (s.modBlock u f).cur = s.cur := rfl
@[simp] theorem modBlock_draws (u : Nat) (f : Block → Block) : (s.modBlock u f).draws = s.draws := rfl
@[simp] theorem modBlock_late (u : Nat) (f : Block → Block) : (s.modBlock u f).late = s.late := rfl
@[simp] theorem modBlock_lags (u : Nat) (f : Block → Block) : (s.modBlock u f).lags = s.lags := rfl
@[simp] theorem modBlock_walkFrom (u : Nat) (f : Block → Block) : (s.modBlock u f).walkFrom = s.walkFrom := rfl

/-! ### modCrew -/

@[simp] theorem modCrew_power (u c : Nat) (f : Crew → Crew) : (s.modCrew u c f).power = s.power := rfl
@[simp] theorem modCrew_stage (u c : Nat) (f : Crew → Crew) : (s.modCrew u c f).stage = s.stage := rfl
@[simp] theorem modCrew_err (u c : Nat) (f : Crew → Crew) : (s.modCrew u c f).err = s.err := rfl
@[simp] theorem modCrew_ready (u c : Nat) (f : Crew → Crew) : (s.modCrew u c f).ready = s.ready := rfl
@[simp] theorem modCrew_tripped (u c : Nat) (f : Crew → Crew) : (s.modCrew u c f).tripped = s.tripped := rfl
@[simp] theorem modCrew_plim (u c : Nat) (f : Crew → Crew) : (s.modCrew u c f).plim = s.plim := rfl
@[simp] theorem modCrew_lowered (u c : Nat) (f : Crew → Crew) : (s.modCrew u c f).lowered = s.lowered := rfl
@[simp] theorem modCrew_spaced (u c : Nat) (f : Crew → Crew) : (s.modCrew u c f).spaced = s.spaced := rfl
@[simp] theorem modCrew_sensors (u c : Nat) (f : Crew → Crew) : (s.modCrew u c f).sensors = s.sensors := rfl
@[simp] theorem modCrew_fabricCounts (u c : Nat) (f : Crew → Crew) : (s.modCrew u c f).fabricCounts = s.fabricCounts := rfl
@[simp] theorem modCrew_adjusts (u c : Nat) (f : Crew → Crew) : (s.modCrew u c f).adjusts = s.adjusts := rfl
@[simp] theorem modCrew_retraining (u c : Nat) (f : Crew → Crew) : (s.modCrew u c f).retraining = s.retraining := rfl
@[simp] theorem modCrew_keys (u c : Nat) (f : Crew → Crew) : (s.modCrew u c f).keys = s.keys := rfl
@[simp] theorem modCrew_zeroKey (u c : Nat) (f : Crew → Crew) : (s.modCrew u c f).zeroKey = s.zeroKey := rfl
@[simp] theorem modCrew_dirBase (u c : Nat) (f : Crew → Crew) : (s.modCrew u c f).dirBase = s.dirBase := rfl
@[simp] theorem modCrew_launchCtr (u c : Nat) (f : Crew → Crew) : (s.modCrew u c f).launchCtr = s.launchCtr := rfl
@[simp] theorem modCrew_takes (u c : Nat) (f : Crew → Crew) : (s.modCrew u c f).takes = s.takes := rfl
@[simp] theorem modCrew_cyc (u c : Nat) (f : Crew → Crew) : (s.modCrew u c f).cyc = s.cyc := rfl
@[simp] theorem modCrew_clk (u c : Nat) (f : Crew → Crew) : (s.modCrew u c f).clk = s.clk := rfl
@[simp] theorem modCrew_mem (u c : Nat) (f : Crew → Crew) : (s.modCrew u c f).mem = s.mem := rfl
@[simp] theorem modCrew_log (u c : Nat) (f : Crew → Crew) : (s.modCrew u c f).log = s.log := rfl
@[simp] theorem modCrew_qkeys (u c : Nat) (f : Crew → Crew) : (s.modCrew u c f).qkeys = s.qkeys := rfl
@[simp] theorem modCrew_posted (u c : Nat) (f : Crew → Crew) : (s.modCrew u c f).posted = s.posted := rfl
@[simp] theorem modCrew_hostReqs (u c : Nat) (f : Crew → Crew) : (s.modCrew u c f).hostReqs = s.hostReqs := rfl
@[simp] theorem modCrew_hostNo (u c : Nat) (f : Crew → Crew) : (s.modCrew u c f).hostNo = s.hostNo := rfl
@[simp] theorem modCrew_l2 (u c : Nat) (f : Crew → Crew) : (s.modCrew u c f).l2 = s.l2 := rfl
@[simp] theorem modCrew_l1 (u c : Nat) (f : Crew → Crew) : (s.modCrew u c f).l1 = s.l1 := rfl
@[simp] theorem modCrew_icache (u c : Nat) (f : Crew → Crew) : (s.modCrew u c f).icache = s.icache := rfl
@[simp] theorem modCrew_remaps (u c : Nat) (f : Crew → Crew) : (s.modCrew u c f).remaps = s.remaps := rfl
@[simp] theorem modCrew_victims (u c : Nat) (f : Crew → Crew) : (s.modCrew u c f).victims = s.victims := rfl
@[simp] theorem modCrew_looks (u c : Nat) (f : Crew → Crew) : (s.modCrew u c f).looks = s.looks := rfl
@[simp] theorem modCrew_opCache (u c : Nat) (f : Crew → Crew) : (s.modCrew u c f).opCache = s.opCache := rfl
@[simp] theorem modCrew_coreStamps (u c : Nat) (f : Crew → Crew) : (s.modCrew u c f).coreStamps = s.coreStamps := rfl
@[simp] theorem modCrew_sectorStamps (u c : Nat) (f : Crew → Crew) : (s.modCrew u c f).sectorStamps = s.sectorStamps := rfl
@[simp] theorem modCrew_pins (u c : Nat) (f : Crew → Crew) : (s.modCrew u c f).pins = s.pins := rfl
@[simp] theorem modCrew_decays (u c : Nat) (f : Crew → Crew) : (s.modCrew u c f).decays = s.decays := rfl
@[simp] theorem modCrew_nextUid (u c : Nat) (f : Crew → Crew) : (s.modCrew u c f).nextUid = s.nextUid := rfl
@[simp] theorem modCrew_nextAge (u c : Nat) (f : Crew → Crew) : (s.modCrew u c f).nextAge = s.nextAge := rfl
@[simp] theorem modCrew_launches (u c : Nat) (f : Crew → Crew) : (s.modCrew u c f).launches = s.launches := rfl
@[simp] theorem modCrew_colls (u c : Nat) (f : Crew → Crew) : (s.modCrew u c f).colls = s.colls := rfl
@[simp] theorem modCrew_nextColl (u c : Nat) (f : Crew → Crew) : (s.modCrew u c f).nextColl = s.nextColl := rfl
@[simp] theorem modCrew_nets (u c : Nat) (f : Crew → Crew) : (s.modCrew u c f).nets = s.nets := rfl
@[simp] theorem modCrew_nextToken (u c : Nat) (f : Crew → Crew) : (s.modCrew u c f).nextToken = s.nextToken := rfl
@[simp] theorem modCrew_gathered (u c : Nat) (f : Crew → Crew) : (s.modCrew u c f).gathered = s.gathered := rfl
@[simp] theorem modCrew_residency (u c : Nat) (f : Crew → Crew) : (s.modCrew u c f).residency = s.residency := rfl
@[simp] theorem modCrew_words (u c : Nat) (f : Crew → Crew) : (s.modCrew u c f).words = s.words := rfl
@[simp] theorem modCrew_compacts (u c : Nat) (f : Crew → Crew) : (s.modCrew u c f).compacts = s.compacts := rfl
@[simp] theorem modCrew_parts (u c : Nat) (f : Crew → Crew) : (s.modCrew u c f).parts = s.parts := rfl
@[simp] theorem modCrew_funcs (u c : Nat) (f : Crew → Crew) : (s.modCrew u c f).funcs = s.funcs := rfl
@[simp] theorem modCrew_apEn (u c : Nat) (f : Crew → Crew) : (s.modCrew u c f).apEn = s.apEn := rfl
@[simp] theorem modCrew_apKey (u c : Nat) (f : Crew → Crew) : (s.modCrew u c f).apKey = s.apKey := rfl
@[simp] theorem modCrew_apPab (u c : Nat) (f : Crew → Crew) : (s.modCrew u c f).apPab = s.apPab := rfl
@[simp] theorem modCrew_devId (u c : Nat) (f : Crew → Crew) : (s.modCrew u c f).devId = s.devId := rfl
@[simp] theorem modCrew_routes (u c : Nat) (f : Crew → Crew) : (s.modCrew u c f).routes = s.routes := rfl
@[simp] theorem modCrew_link (u c : Nat) (f : Crew → Crew) : (s.modCrew u c f).link = s.link := rfl
@[simp] theorem modCrew_fabric (u c : Nat) (f : Crew → Crew) : (s.modCrew u c f).fabric = s.fabric := rfl
@[simp] theorem modCrew_hostMsgs (u c : Nat) (f : Crew → Crew) : (s.modCrew u c f).hostMsgs = s.hostMsgs := rfl
@[simp] theorem modCrew_hostReads (u c : Nat) (f : Crew → Crew) : (s.modCrew u c f).hostReads = s.hostReads := rfl
@[simp] theorem modCrew_reports (u c : Nat) (f : Crew → Crew) : (s.modCrew u c f).reports = s.reports := rfl
@[simp] theorem modCrew_agenda (u c : Nat) (f : Crew → Crew) : (s.modCrew u c f).agenda = s.agenda := rfl
@[simp] theorem modCrew_cur (u c : Nat) (f : Crew → Crew) : (s.modCrew u c f).cur = s.cur := rfl
@[simp] theorem modCrew_draws (u c : Nat) (f : Crew → Crew) : (s.modCrew u c f).draws = s.draws := rfl
@[simp] theorem modCrew_late (u c : Nat) (f : Crew → Crew) : (s.modCrew u c f).late = s.late := rfl
@[simp] theorem modCrew_lags (u c : Nat) (f : Crew → Crew) : (s.modCrew u c f).lags = s.lags := rfl
@[simp] theorem modCrew_walkFrom (u c : Nat) (f : Crew → Crew) : (s.modCrew u c f).walkFrom = s.walkFrom := rfl

/-! ### modLane -/

@[simp] theorem modLane_power (u c l : Nat) (f : Lane → Lane) : (s.modLane u c l f).power = s.power := rfl
@[simp] theorem modLane_stage (u c l : Nat) (f : Lane → Lane) : (s.modLane u c l f).stage = s.stage := rfl
@[simp] theorem modLane_err (u c l : Nat) (f : Lane → Lane) : (s.modLane u c l f).err = s.err := rfl
@[simp] theorem modLane_ready (u c l : Nat) (f : Lane → Lane) : (s.modLane u c l f).ready = s.ready := rfl
@[simp] theorem modLane_tripped (u c l : Nat) (f : Lane → Lane) : (s.modLane u c l f).tripped = s.tripped := rfl
@[simp] theorem modLane_plim (u c l : Nat) (f : Lane → Lane) : (s.modLane u c l f).plim = s.plim := rfl
@[simp] theorem modLane_lowered (u c l : Nat) (f : Lane → Lane) : (s.modLane u c l f).lowered = s.lowered := rfl
@[simp] theorem modLane_spaced (u c l : Nat) (f : Lane → Lane) : (s.modLane u c l f).spaced = s.spaced := rfl
@[simp] theorem modLane_sensors (u c l : Nat) (f : Lane → Lane) : (s.modLane u c l f).sensors = s.sensors := rfl
@[simp] theorem modLane_fabricCounts (u c l : Nat) (f : Lane → Lane) : (s.modLane u c l f).fabricCounts = s.fabricCounts := rfl
@[simp] theorem modLane_adjusts (u c l : Nat) (f : Lane → Lane) : (s.modLane u c l f).adjusts = s.adjusts := rfl
@[simp] theorem modLane_retraining (u c l : Nat) (f : Lane → Lane) : (s.modLane u c l f).retraining = s.retraining := rfl
@[simp] theorem modLane_keys (u c l : Nat) (f : Lane → Lane) : (s.modLane u c l f).keys = s.keys := rfl
@[simp] theorem modLane_zeroKey (u c l : Nat) (f : Lane → Lane) : (s.modLane u c l f).zeroKey = s.zeroKey := rfl
@[simp] theorem modLane_dirBase (u c l : Nat) (f : Lane → Lane) : (s.modLane u c l f).dirBase = s.dirBase := rfl
@[simp] theorem modLane_launchCtr (u c l : Nat) (f : Lane → Lane) : (s.modLane u c l f).launchCtr = s.launchCtr := rfl
@[simp] theorem modLane_takes (u c l : Nat) (f : Lane → Lane) : (s.modLane u c l f).takes = s.takes := rfl
@[simp] theorem modLane_cyc (u c l : Nat) (f : Lane → Lane) : (s.modLane u c l f).cyc = s.cyc := rfl
@[simp] theorem modLane_clk (u c l : Nat) (f : Lane → Lane) : (s.modLane u c l f).clk = s.clk := rfl
@[simp] theorem modLane_mem (u c l : Nat) (f : Lane → Lane) : (s.modLane u c l f).mem = s.mem := rfl
@[simp] theorem modLane_log (u c l : Nat) (f : Lane → Lane) : (s.modLane u c l f).log = s.log := rfl
@[simp] theorem modLane_qkeys (u c l : Nat) (f : Lane → Lane) : (s.modLane u c l f).qkeys = s.qkeys := rfl
@[simp] theorem modLane_posted (u c l : Nat) (f : Lane → Lane) : (s.modLane u c l f).posted = s.posted := rfl
@[simp] theorem modLane_hostReqs (u c l : Nat) (f : Lane → Lane) : (s.modLane u c l f).hostReqs = s.hostReqs := rfl
@[simp] theorem modLane_hostNo (u c l : Nat) (f : Lane → Lane) : (s.modLane u c l f).hostNo = s.hostNo := rfl
@[simp] theorem modLane_l2 (u c l : Nat) (f : Lane → Lane) : (s.modLane u c l f).l2 = s.l2 := rfl
@[simp] theorem modLane_l1 (u c l : Nat) (f : Lane → Lane) : (s.modLane u c l f).l1 = s.l1 := rfl
@[simp] theorem modLane_icache (u c l : Nat) (f : Lane → Lane) : (s.modLane u c l f).icache = s.icache := rfl
@[simp] theorem modLane_remaps (u c l : Nat) (f : Lane → Lane) : (s.modLane u c l f).remaps = s.remaps := rfl
@[simp] theorem modLane_victims (u c l : Nat) (f : Lane → Lane) : (s.modLane u c l f).victims = s.victims := rfl
@[simp] theorem modLane_looks (u c l : Nat) (f : Lane → Lane) : (s.modLane u c l f).looks = s.looks := rfl
@[simp] theorem modLane_opCache (u c l : Nat) (f : Lane → Lane) : (s.modLane u c l f).opCache = s.opCache := rfl
@[simp] theorem modLane_coreStamps (u c l : Nat) (f : Lane → Lane) : (s.modLane u c l f).coreStamps = s.coreStamps := rfl
@[simp] theorem modLane_sectorStamps (u c l : Nat) (f : Lane → Lane) : (s.modLane u c l f).sectorStamps = s.sectorStamps := rfl
@[simp] theorem modLane_pins (u c l : Nat) (f : Lane → Lane) : (s.modLane u c l f).pins = s.pins := rfl
@[simp] theorem modLane_decays (u c l : Nat) (f : Lane → Lane) : (s.modLane u c l f).decays = s.decays := rfl
@[simp] theorem modLane_nextUid (u c l : Nat) (f : Lane → Lane) : (s.modLane u c l f).nextUid = s.nextUid := rfl
@[simp] theorem modLane_nextAge (u c l : Nat) (f : Lane → Lane) : (s.modLane u c l f).nextAge = s.nextAge := rfl
@[simp] theorem modLane_launches (u c l : Nat) (f : Lane → Lane) : (s.modLane u c l f).launches = s.launches := rfl
@[simp] theorem modLane_colls (u c l : Nat) (f : Lane → Lane) : (s.modLane u c l f).colls = s.colls := rfl
@[simp] theorem modLane_nextColl (u c l : Nat) (f : Lane → Lane) : (s.modLane u c l f).nextColl = s.nextColl := rfl
@[simp] theorem modLane_nets (u c l : Nat) (f : Lane → Lane) : (s.modLane u c l f).nets = s.nets := rfl
@[simp] theorem modLane_nextToken (u c l : Nat) (f : Lane → Lane) : (s.modLane u c l f).nextToken = s.nextToken := rfl
@[simp] theorem modLane_gathered (u c l : Nat) (f : Lane → Lane) : (s.modLane u c l f).gathered = s.gathered := rfl
@[simp] theorem modLane_residency (u c l : Nat) (f : Lane → Lane) : (s.modLane u c l f).residency = s.residency := rfl
@[simp] theorem modLane_words (u c l : Nat) (f : Lane → Lane) : (s.modLane u c l f).words = s.words := rfl
@[simp] theorem modLane_compacts (u c l : Nat) (f : Lane → Lane) : (s.modLane u c l f).compacts = s.compacts := rfl
@[simp] theorem modLane_parts (u c l : Nat) (f : Lane → Lane) : (s.modLane u c l f).parts = s.parts := rfl
@[simp] theorem modLane_funcs (u c l : Nat) (f : Lane → Lane) : (s.modLane u c l f).funcs = s.funcs := rfl
@[simp] theorem modLane_apEn (u c l : Nat) (f : Lane → Lane) : (s.modLane u c l f).apEn = s.apEn := rfl
@[simp] theorem modLane_apKey (u c l : Nat) (f : Lane → Lane) : (s.modLane u c l f).apKey = s.apKey := rfl
@[simp] theorem modLane_apPab (u c l : Nat) (f : Lane → Lane) : (s.modLane u c l f).apPab = s.apPab := rfl
@[simp] theorem modLane_devId (u c l : Nat) (f : Lane → Lane) : (s.modLane u c l f).devId = s.devId := rfl
@[simp] theorem modLane_routes (u c l : Nat) (f : Lane → Lane) : (s.modLane u c l f).routes = s.routes := rfl
@[simp] theorem modLane_link (u c l : Nat) (f : Lane → Lane) : (s.modLane u c l f).link = s.link := rfl
@[simp] theorem modLane_fabric (u c l : Nat) (f : Lane → Lane) : (s.modLane u c l f).fabric = s.fabric := rfl
@[simp] theorem modLane_hostMsgs (u c l : Nat) (f : Lane → Lane) : (s.modLane u c l f).hostMsgs = s.hostMsgs := rfl
@[simp] theorem modLane_hostReads (u c l : Nat) (f : Lane → Lane) : (s.modLane u c l f).hostReads = s.hostReads := rfl
@[simp] theorem modLane_reports (u c l : Nat) (f : Lane → Lane) : (s.modLane u c l f).reports = s.reports := rfl
@[simp] theorem modLane_agenda (u c l : Nat) (f : Lane → Lane) : (s.modLane u c l f).agenda = s.agenda := rfl
@[simp] theorem modLane_cur (u c l : Nat) (f : Lane → Lane) : (s.modLane u c l f).cur = s.cur := rfl
@[simp] theorem modLane_draws (u c l : Nat) (f : Lane → Lane) : (s.modLane u c l f).draws = s.draws := rfl
@[simp] theorem modLane_late (u c l : Nat) (f : Lane → Lane) : (s.modLane u c l f).late = s.late := rfl
@[simp] theorem modLane_lags (u c l : Nat) (f : Lane → Lane) : (s.modLane u c l f).lags = s.lags := rfl
@[simp] theorem modLane_walkFrom (u c l : Nat) (f : Lane → Lane) : (s.modLane u c l f).walkFrom = s.walkFrom := rfl

/-! ### modCur -/

@[simp] theorem modCur_power (k : Ctx) (f : Crew → Crew) : (s.modCur k f).power = s.power := rfl
@[simp] theorem modCur_stage (k : Ctx) (f : Crew → Crew) : (s.modCur k f).stage = s.stage := rfl
@[simp] theorem modCur_err (k : Ctx) (f : Crew → Crew) : (s.modCur k f).err = s.err := rfl
@[simp] theorem modCur_ready (k : Ctx) (f : Crew → Crew) : (s.modCur k f).ready = s.ready := rfl
@[simp] theorem modCur_tripped (k : Ctx) (f : Crew → Crew) : (s.modCur k f).tripped = s.tripped := rfl
@[simp] theorem modCur_plim (k : Ctx) (f : Crew → Crew) : (s.modCur k f).plim = s.plim := rfl
@[simp] theorem modCur_lowered (k : Ctx) (f : Crew → Crew) : (s.modCur k f).lowered = s.lowered := rfl
@[simp] theorem modCur_spaced (k : Ctx) (f : Crew → Crew) : (s.modCur k f).spaced = s.spaced := rfl
@[simp] theorem modCur_sensors (k : Ctx) (f : Crew → Crew) : (s.modCur k f).sensors = s.sensors := rfl
@[simp] theorem modCur_fabricCounts (k : Ctx) (f : Crew → Crew) : (s.modCur k f).fabricCounts = s.fabricCounts := rfl
@[simp] theorem modCur_adjusts (k : Ctx) (f : Crew → Crew) : (s.modCur k f).adjusts = s.adjusts := rfl
@[simp] theorem modCur_retraining (k : Ctx) (f : Crew → Crew) : (s.modCur k f).retraining = s.retraining := rfl
@[simp] theorem modCur_keys (k : Ctx) (f : Crew → Crew) : (s.modCur k f).keys = s.keys := rfl
@[simp] theorem modCur_zeroKey (k : Ctx) (f : Crew → Crew) : (s.modCur k f).zeroKey = s.zeroKey := rfl
@[simp] theorem modCur_dirBase (k : Ctx) (f : Crew → Crew) : (s.modCur k f).dirBase = s.dirBase := rfl
@[simp] theorem modCur_launchCtr (k : Ctx) (f : Crew → Crew) : (s.modCur k f).launchCtr = s.launchCtr := rfl
@[simp] theorem modCur_takes (k : Ctx) (f : Crew → Crew) : (s.modCur k f).takes = s.takes := rfl
@[simp] theorem modCur_cyc (k : Ctx) (f : Crew → Crew) : (s.modCur k f).cyc = s.cyc := rfl
@[simp] theorem modCur_clk (k : Ctx) (f : Crew → Crew) : (s.modCur k f).clk = s.clk := rfl
@[simp] theorem modCur_mem (k : Ctx) (f : Crew → Crew) : (s.modCur k f).mem = s.mem := rfl
@[simp] theorem modCur_log (k : Ctx) (f : Crew → Crew) : (s.modCur k f).log = s.log := rfl
@[simp] theorem modCur_qkeys (k : Ctx) (f : Crew → Crew) : (s.modCur k f).qkeys = s.qkeys := rfl
@[simp] theorem modCur_posted (k : Ctx) (f : Crew → Crew) : (s.modCur k f).posted = s.posted := rfl
@[simp] theorem modCur_hostReqs (k : Ctx) (f : Crew → Crew) : (s.modCur k f).hostReqs = s.hostReqs := rfl
@[simp] theorem modCur_hostNo (k : Ctx) (f : Crew → Crew) : (s.modCur k f).hostNo = s.hostNo := rfl
@[simp] theorem modCur_l2 (k : Ctx) (f : Crew → Crew) : (s.modCur k f).l2 = s.l2 := rfl
@[simp] theorem modCur_l1 (k : Ctx) (f : Crew → Crew) : (s.modCur k f).l1 = s.l1 := rfl
@[simp] theorem modCur_icache (k : Ctx) (f : Crew → Crew) : (s.modCur k f).icache = s.icache := rfl
@[simp] theorem modCur_remaps (k : Ctx) (f : Crew → Crew) : (s.modCur k f).remaps = s.remaps := rfl
@[simp] theorem modCur_victims (k : Ctx) (f : Crew → Crew) : (s.modCur k f).victims = s.victims := rfl
@[simp] theorem modCur_looks (k : Ctx) (f : Crew → Crew) : (s.modCur k f).looks = s.looks := rfl
@[simp] theorem modCur_opCache (k : Ctx) (f : Crew → Crew) : (s.modCur k f).opCache = s.opCache := rfl
@[simp] theorem modCur_coreStamps (k : Ctx) (f : Crew → Crew) : (s.modCur k f).coreStamps = s.coreStamps := rfl
@[simp] theorem modCur_sectorStamps (k : Ctx) (f : Crew → Crew) : (s.modCur k f).sectorStamps = s.sectorStamps := rfl
@[simp] theorem modCur_pins (k : Ctx) (f : Crew → Crew) : (s.modCur k f).pins = s.pins := rfl
@[simp] theorem modCur_decays (k : Ctx) (f : Crew → Crew) : (s.modCur k f).decays = s.decays := rfl
@[simp] theorem modCur_nextUid (k : Ctx) (f : Crew → Crew) : (s.modCur k f).nextUid = s.nextUid := rfl
@[simp] theorem modCur_nextAge (k : Ctx) (f : Crew → Crew) : (s.modCur k f).nextAge = s.nextAge := rfl
@[simp] theorem modCur_launches (k : Ctx) (f : Crew → Crew) : (s.modCur k f).launches = s.launches := rfl
@[simp] theorem modCur_colls (k : Ctx) (f : Crew → Crew) : (s.modCur k f).colls = s.colls := rfl
@[simp] theorem modCur_nextColl (k : Ctx) (f : Crew → Crew) : (s.modCur k f).nextColl = s.nextColl := rfl
@[simp] theorem modCur_nets (k : Ctx) (f : Crew → Crew) : (s.modCur k f).nets = s.nets := rfl
@[simp] theorem modCur_nextToken (k : Ctx) (f : Crew → Crew) : (s.modCur k f).nextToken = s.nextToken := rfl
@[simp] theorem modCur_gathered (k : Ctx) (f : Crew → Crew) : (s.modCur k f).gathered = s.gathered := rfl
@[simp] theorem modCur_residency (k : Ctx) (f : Crew → Crew) : (s.modCur k f).residency = s.residency := rfl
@[simp] theorem modCur_words (k : Ctx) (f : Crew → Crew) : (s.modCur k f).words = s.words := rfl
@[simp] theorem modCur_compacts (k : Ctx) (f : Crew → Crew) : (s.modCur k f).compacts = s.compacts := rfl
@[simp] theorem modCur_parts (k : Ctx) (f : Crew → Crew) : (s.modCur k f).parts = s.parts := rfl
@[simp] theorem modCur_funcs (k : Ctx) (f : Crew → Crew) : (s.modCur k f).funcs = s.funcs := rfl
@[simp] theorem modCur_apEn (k : Ctx) (f : Crew → Crew) : (s.modCur k f).apEn = s.apEn := rfl
@[simp] theorem modCur_apKey (k : Ctx) (f : Crew → Crew) : (s.modCur k f).apKey = s.apKey := rfl
@[simp] theorem modCur_apPab (k : Ctx) (f : Crew → Crew) : (s.modCur k f).apPab = s.apPab := rfl
@[simp] theorem modCur_devId (k : Ctx) (f : Crew → Crew) : (s.modCur k f).devId = s.devId := rfl
@[simp] theorem modCur_routes (k : Ctx) (f : Crew → Crew) : (s.modCur k f).routes = s.routes := rfl
@[simp] theorem modCur_link (k : Ctx) (f : Crew → Crew) : (s.modCur k f).link = s.link := rfl
@[simp] theorem modCur_fabric (k : Ctx) (f : Crew → Crew) : (s.modCur k f).fabric = s.fabric := rfl
@[simp] theorem modCur_hostMsgs (k : Ctx) (f : Crew → Crew) : (s.modCur k f).hostMsgs = s.hostMsgs := rfl
@[simp] theorem modCur_hostReads (k : Ctx) (f : Crew → Crew) : (s.modCur k f).hostReads = s.hostReads := rfl
@[simp] theorem modCur_reports (k : Ctx) (f : Crew → Crew) : (s.modCur k f).reports = s.reports := rfl
@[simp] theorem modCur_agenda (k : Ctx) (f : Crew → Crew) : (s.modCur k f).agenda = s.agenda := rfl
@[simp] theorem modCur_cur (k : Ctx) (f : Crew → Crew) : (s.modCur k f).cur = s.cur := rfl
@[simp] theorem modCur_draws (k : Ctx) (f : Crew → Crew) : (s.modCur k f).draws = s.draws := rfl
@[simp] theorem modCur_late (k : Ctx) (f : Crew → Crew) : (s.modCur k f).late = s.late := rfl
@[simp] theorem modCur_lags (k : Ctx) (f : Crew → Crew) : (s.modCur k f).lags = s.lags := rfl
@[simp] theorem modCur_walkFrom (k : Ctx) (f : Crew → Crew) : (s.modCur k f).walkFrom = s.walkFrom := rfl

/-! ### mapBlocks -/

@[simp] theorem mapBlocks_power (f : Block → Block) : (s.mapBlocks f).power = s.power := rfl
@[simp] theorem mapBlocks_stage (f : Block → Block) : (s.mapBlocks f).stage = s.stage := rfl
@[simp] theorem mapBlocks_err (f : Block → Block) : (s.mapBlocks f).err = s.err := rfl
@[simp] theorem mapBlocks_ready (f : Block → Block) : (s.mapBlocks f).ready = s.ready := rfl
@[simp] theorem mapBlocks_tripped (f : Block → Block) : (s.mapBlocks f).tripped = s.tripped := rfl
@[simp] theorem mapBlocks_plim (f : Block → Block) : (s.mapBlocks f).plim = s.plim := rfl
@[simp] theorem mapBlocks_lowered (f : Block → Block) : (s.mapBlocks f).lowered = s.lowered := rfl
@[simp] theorem mapBlocks_spaced (f : Block → Block) : (s.mapBlocks f).spaced = s.spaced := rfl
@[simp] theorem mapBlocks_sensors (f : Block → Block) : (s.mapBlocks f).sensors = s.sensors := rfl
@[simp] theorem mapBlocks_fabricCounts (f : Block → Block) : (s.mapBlocks f).fabricCounts = s.fabricCounts := rfl
@[simp] theorem mapBlocks_adjusts (f : Block → Block) : (s.mapBlocks f).adjusts = s.adjusts := rfl
@[simp] theorem mapBlocks_retraining (f : Block → Block) : (s.mapBlocks f).retraining = s.retraining := rfl
@[simp] theorem mapBlocks_keys (f : Block → Block) : (s.mapBlocks f).keys = s.keys := rfl
@[simp] theorem mapBlocks_zeroKey (f : Block → Block) : (s.mapBlocks f).zeroKey = s.zeroKey := rfl
@[simp] theorem mapBlocks_dirBase (f : Block → Block) : (s.mapBlocks f).dirBase = s.dirBase := rfl
@[simp] theorem mapBlocks_launchCtr (f : Block → Block) : (s.mapBlocks f).launchCtr = s.launchCtr := rfl
@[simp] theorem mapBlocks_takes (f : Block → Block) : (s.mapBlocks f).takes = s.takes := rfl
@[simp] theorem mapBlocks_cyc (f : Block → Block) : (s.mapBlocks f).cyc = s.cyc := rfl
@[simp] theorem mapBlocks_clk (f : Block → Block) : (s.mapBlocks f).clk = s.clk := rfl
@[simp] theorem mapBlocks_mem (f : Block → Block) : (s.mapBlocks f).mem = s.mem := rfl
@[simp] theorem mapBlocks_log (f : Block → Block) : (s.mapBlocks f).log = s.log := rfl
@[simp] theorem mapBlocks_qkeys (f : Block → Block) : (s.mapBlocks f).qkeys = s.qkeys := rfl
@[simp] theorem mapBlocks_posted (f : Block → Block) : (s.mapBlocks f).posted = s.posted := rfl
@[simp] theorem mapBlocks_hostReqs (f : Block → Block) : (s.mapBlocks f).hostReqs = s.hostReqs := rfl
@[simp] theorem mapBlocks_hostNo (f : Block → Block) : (s.mapBlocks f).hostNo = s.hostNo := rfl
@[simp] theorem mapBlocks_l2 (f : Block → Block) : (s.mapBlocks f).l2 = s.l2 := rfl
@[simp] theorem mapBlocks_l1 (f : Block → Block) : (s.mapBlocks f).l1 = s.l1 := rfl
@[simp] theorem mapBlocks_icache (f : Block → Block) : (s.mapBlocks f).icache = s.icache := rfl
@[simp] theorem mapBlocks_remaps (f : Block → Block) : (s.mapBlocks f).remaps = s.remaps := rfl
@[simp] theorem mapBlocks_victims (f : Block → Block) : (s.mapBlocks f).victims = s.victims := rfl
@[simp] theorem mapBlocks_looks (f : Block → Block) : (s.mapBlocks f).looks = s.looks := rfl
@[simp] theorem mapBlocks_opCache (f : Block → Block) : (s.mapBlocks f).opCache = s.opCache := rfl
@[simp] theorem mapBlocks_coreStamps (f : Block → Block) : (s.mapBlocks f).coreStamps = s.coreStamps := rfl
@[simp] theorem mapBlocks_sectorStamps (f : Block → Block) : (s.mapBlocks f).sectorStamps = s.sectorStamps := rfl
@[simp] theorem mapBlocks_pins (f : Block → Block) : (s.mapBlocks f).pins = s.pins := rfl
@[simp] theorem mapBlocks_decays (f : Block → Block) : (s.mapBlocks f).decays = s.decays := rfl
@[simp] theorem mapBlocks_blocks (f : Block → Block) : (s.mapBlocks f).blocks = s.blocks.map f := rfl
@[simp] theorem mapBlocks_nextUid (f : Block → Block) : (s.mapBlocks f).nextUid = s.nextUid := rfl
@[simp] theorem mapBlocks_nextAge (f : Block → Block) : (s.mapBlocks f).nextAge = s.nextAge := rfl
@[simp] theorem mapBlocks_launches (f : Block → Block) : (s.mapBlocks f).launches = s.launches := rfl
@[simp] theorem mapBlocks_colls (f : Block → Block) : (s.mapBlocks f).colls = s.colls := rfl
@[simp] theorem mapBlocks_nextColl (f : Block → Block) : (s.mapBlocks f).nextColl = s.nextColl := rfl
@[simp] theorem mapBlocks_nets (f : Block → Block) : (s.mapBlocks f).nets = s.nets := rfl
@[simp] theorem mapBlocks_nextToken (f : Block → Block) : (s.mapBlocks f).nextToken = s.nextToken := rfl
@[simp] theorem mapBlocks_gathered (f : Block → Block) : (s.mapBlocks f).gathered = s.gathered := rfl
@[simp] theorem mapBlocks_residency (f : Block → Block) : (s.mapBlocks f).residency = s.residency := rfl
@[simp] theorem mapBlocks_words (f : Block → Block) : (s.mapBlocks f).words = s.words := rfl
@[simp] theorem mapBlocks_compacts (f : Block → Block) : (s.mapBlocks f).compacts = s.compacts := rfl
@[simp] theorem mapBlocks_parts (f : Block → Block) : (s.mapBlocks f).parts = s.parts := rfl
@[simp] theorem mapBlocks_funcs (f : Block → Block) : (s.mapBlocks f).funcs = s.funcs := rfl
@[simp] theorem mapBlocks_apEn (f : Block → Block) : (s.mapBlocks f).apEn = s.apEn := rfl
@[simp] theorem mapBlocks_apKey (f : Block → Block) : (s.mapBlocks f).apKey = s.apKey := rfl
@[simp] theorem mapBlocks_apPab (f : Block → Block) : (s.mapBlocks f).apPab = s.apPab := rfl
@[simp] theorem mapBlocks_devId (f : Block → Block) : (s.mapBlocks f).devId = s.devId := rfl
@[simp] theorem mapBlocks_routes (f : Block → Block) : (s.mapBlocks f).routes = s.routes := rfl
@[simp] theorem mapBlocks_link (f : Block → Block) : (s.mapBlocks f).link = s.link := rfl
@[simp] theorem mapBlocks_fabric (f : Block → Block) : (s.mapBlocks f).fabric = s.fabric := rfl
@[simp] theorem mapBlocks_hostMsgs (f : Block → Block) : (s.mapBlocks f).hostMsgs = s.hostMsgs := rfl
@[simp] theorem mapBlocks_hostReads (f : Block → Block) : (s.mapBlocks f).hostReads = s.hostReads := rfl
@[simp] theorem mapBlocks_reports (f : Block → Block) : (s.mapBlocks f).reports = s.reports := rfl
@[simp] theorem mapBlocks_agenda (f : Block → Block) : (s.mapBlocks f).agenda = s.agenda := rfl
@[simp] theorem mapBlocks_cur (f : Block → Block) : (s.mapBlocks f).cur = s.cur := rfl
@[simp] theorem mapBlocks_draws (f : Block → Block) : (s.mapBlocks f).draws = s.draws := rfl
@[simp] theorem mapBlocks_late (f : Block → Block) : (s.mapBlocks f).late = s.late := rfl
@[simp] theorem mapBlocks_lags (f : Block → Block) : (s.mapBlocks f).lags = s.lags := rfl
@[simp] theorem mapBlocks_walkFrom (f : Block → Block) : (s.mapBlocks f).walkFrom = s.walkFrom := rfl

/-! ### modLaunch -/

@[simp] theorem modLaunch_power (i : Word) (f : Launch → Launch) : (s.modLaunch i f).power = s.power := rfl
@[simp] theorem modLaunch_stage (i : Word) (f : Launch → Launch) : (s.modLaunch i f).stage = s.stage := rfl
@[simp] theorem modLaunch_err (i : Word) (f : Launch → Launch) : (s.modLaunch i f).err = s.err := rfl
@[simp] theorem modLaunch_ready (i : Word) (f : Launch → Launch) : (s.modLaunch i f).ready = s.ready := rfl
@[simp] theorem modLaunch_tripped (i : Word) (f : Launch → Launch) : (s.modLaunch i f).tripped = s.tripped := rfl
@[simp] theorem modLaunch_plim (i : Word) (f : Launch → Launch) : (s.modLaunch i f).plim = s.plim := rfl
@[simp] theorem modLaunch_lowered (i : Word) (f : Launch → Launch) : (s.modLaunch i f).lowered = s.lowered := rfl
@[simp] theorem modLaunch_spaced (i : Word) (f : Launch → Launch) : (s.modLaunch i f).spaced = s.spaced := rfl
@[simp] theorem modLaunch_sensors (i : Word) (f : Launch → Launch) : (s.modLaunch i f).sensors = s.sensors := rfl
@[simp] theorem modLaunch_fabricCounts (i : Word) (f : Launch → Launch) : (s.modLaunch i f).fabricCounts = s.fabricCounts := rfl
@[simp] theorem modLaunch_adjusts (i : Word) (f : Launch → Launch) : (s.modLaunch i f).adjusts = s.adjusts := rfl
@[simp] theorem modLaunch_retraining (i : Word) (f : Launch → Launch) : (s.modLaunch i f).retraining = s.retraining := rfl
@[simp] theorem modLaunch_keys (i : Word) (f : Launch → Launch) : (s.modLaunch i f).keys = s.keys := rfl
@[simp] theorem modLaunch_zeroKey (i : Word) (f : Launch → Launch) : (s.modLaunch i f).zeroKey = s.zeroKey := rfl
@[simp] theorem modLaunch_dirBase (i : Word) (f : Launch → Launch) : (s.modLaunch i f).dirBase = s.dirBase := rfl
@[simp] theorem modLaunch_launchCtr (i : Word) (f : Launch → Launch) : (s.modLaunch i f).launchCtr = s.launchCtr := rfl
@[simp] theorem modLaunch_takes (i : Word) (f : Launch → Launch) : (s.modLaunch i f).takes = s.takes := rfl
@[simp] theorem modLaunch_cyc (i : Word) (f : Launch → Launch) : (s.modLaunch i f).cyc = s.cyc := rfl
@[simp] theorem modLaunch_clk (i : Word) (f : Launch → Launch) : (s.modLaunch i f).clk = s.clk := rfl
@[simp] theorem modLaunch_mem (i : Word) (f : Launch → Launch) : (s.modLaunch i f).mem = s.mem := rfl
@[simp] theorem modLaunch_log (i : Word) (f : Launch → Launch) : (s.modLaunch i f).log = s.log := rfl
@[simp] theorem modLaunch_qkeys (i : Word) (f : Launch → Launch) : (s.modLaunch i f).qkeys = s.qkeys := rfl
@[simp] theorem modLaunch_posted (i : Word) (f : Launch → Launch) : (s.modLaunch i f).posted = s.posted := rfl
@[simp] theorem modLaunch_hostReqs (i : Word) (f : Launch → Launch) : (s.modLaunch i f).hostReqs = s.hostReqs := rfl
@[simp] theorem modLaunch_hostNo (i : Word) (f : Launch → Launch) : (s.modLaunch i f).hostNo = s.hostNo := rfl
@[simp] theorem modLaunch_l2 (i : Word) (f : Launch → Launch) : (s.modLaunch i f).l2 = s.l2 := rfl
@[simp] theorem modLaunch_l1 (i : Word) (f : Launch → Launch) : (s.modLaunch i f).l1 = s.l1 := rfl
@[simp] theorem modLaunch_icache (i : Word) (f : Launch → Launch) : (s.modLaunch i f).icache = s.icache := rfl
@[simp] theorem modLaunch_remaps (i : Word) (f : Launch → Launch) : (s.modLaunch i f).remaps = s.remaps := rfl
@[simp] theorem modLaunch_victims (i : Word) (f : Launch → Launch) : (s.modLaunch i f).victims = s.victims := rfl
@[simp] theorem modLaunch_looks (i : Word) (f : Launch → Launch) : (s.modLaunch i f).looks = s.looks := rfl
@[simp] theorem modLaunch_opCache (i : Word) (f : Launch → Launch) : (s.modLaunch i f).opCache = s.opCache := rfl
@[simp] theorem modLaunch_coreStamps (i : Word) (f : Launch → Launch) : (s.modLaunch i f).coreStamps = s.coreStamps := rfl
@[simp] theorem modLaunch_sectorStamps (i : Word) (f : Launch → Launch) : (s.modLaunch i f).sectorStamps = s.sectorStamps := rfl
@[simp] theorem modLaunch_pins (i : Word) (f : Launch → Launch) : (s.modLaunch i f).pins = s.pins := rfl
@[simp] theorem modLaunch_decays (i : Word) (f : Launch → Launch) : (s.modLaunch i f).decays = s.decays := rfl
@[simp] theorem modLaunch_blocks (i : Word) (f : Launch → Launch) : (s.modLaunch i f).blocks = s.blocks := rfl
@[simp] theorem modLaunch_nextUid (i : Word) (f : Launch → Launch) : (s.modLaunch i f).nextUid = s.nextUid := rfl
@[simp] theorem modLaunch_nextAge (i : Word) (f : Launch → Launch) : (s.modLaunch i f).nextAge = s.nextAge := rfl
@[simp] theorem modLaunch_launches (i : Word) (f : Launch → Launch) : (s.modLaunch i f).launches = s.launches.map fun l => if l.id == i then f l else l := rfl
@[simp] theorem modLaunch_colls (i : Word) (f : Launch → Launch) : (s.modLaunch i f).colls = s.colls := rfl
@[simp] theorem modLaunch_nextColl (i : Word) (f : Launch → Launch) : (s.modLaunch i f).nextColl = s.nextColl := rfl
@[simp] theorem modLaunch_nets (i : Word) (f : Launch → Launch) : (s.modLaunch i f).nets = s.nets := rfl
@[simp] theorem modLaunch_nextToken (i : Word) (f : Launch → Launch) : (s.modLaunch i f).nextToken = s.nextToken := rfl
@[simp] theorem modLaunch_gathered (i : Word) (f : Launch → Launch) : (s.modLaunch i f).gathered = s.gathered := rfl
@[simp] theorem modLaunch_residency (i : Word) (f : Launch → Launch) : (s.modLaunch i f).residency = s.residency := rfl
@[simp] theorem modLaunch_words (i : Word) (f : Launch → Launch) : (s.modLaunch i f).words = s.words := rfl
@[simp] theorem modLaunch_compacts (i : Word) (f : Launch → Launch) : (s.modLaunch i f).compacts = s.compacts := rfl
@[simp] theorem modLaunch_parts (i : Word) (f : Launch → Launch) : (s.modLaunch i f).parts = s.parts := rfl
@[simp] theorem modLaunch_funcs (i : Word) (f : Launch → Launch) : (s.modLaunch i f).funcs = s.funcs := rfl
@[simp] theorem modLaunch_apEn (i : Word) (f : Launch → Launch) : (s.modLaunch i f).apEn = s.apEn := rfl
@[simp] theorem modLaunch_apKey (i : Word) (f : Launch → Launch) : (s.modLaunch i f).apKey = s.apKey := rfl
@[simp] theorem modLaunch_apPab (i : Word) (f : Launch → Launch) : (s.modLaunch i f).apPab = s.apPab := rfl
@[simp] theorem modLaunch_devId (i : Word) (f : Launch → Launch) : (s.modLaunch i f).devId = s.devId := rfl
@[simp] theorem modLaunch_routes (i : Word) (f : Launch → Launch) : (s.modLaunch i f).routes = s.routes := rfl
@[simp] theorem modLaunch_link (i : Word) (f : Launch → Launch) : (s.modLaunch i f).link = s.link := rfl
@[simp] theorem modLaunch_fabric (i : Word) (f : Launch → Launch) : (s.modLaunch i f).fabric = s.fabric := rfl
@[simp] theorem modLaunch_hostMsgs (i : Word) (f : Launch → Launch) : (s.modLaunch i f).hostMsgs = s.hostMsgs := rfl
@[simp] theorem modLaunch_hostReads (i : Word) (f : Launch → Launch) : (s.modLaunch i f).hostReads = s.hostReads := rfl
@[simp] theorem modLaunch_reports (i : Word) (f : Launch → Launch) : (s.modLaunch i f).reports = s.reports := rfl
@[simp] theorem modLaunch_agenda (i : Word) (f : Launch → Launch) : (s.modLaunch i f).agenda = s.agenda := rfl
@[simp] theorem modLaunch_cur (i : Word) (f : Launch → Launch) : (s.modLaunch i f).cur = s.cur := rfl
@[simp] theorem modLaunch_draws (i : Word) (f : Launch → Launch) : (s.modLaunch i f).draws = s.draws := rfl
@[simp] theorem modLaunch_late (i : Word) (f : Launch → Launch) : (s.modLaunch i f).late = s.late := rfl
@[simp] theorem modLaunch_lags (i : Word) (f : Launch → Launch) : (s.modLaunch i f).lags = s.lags := rfl
@[simp] theorem modLaunch_walkFrom (i : Word) (f : Launch → Launch) : (s.modLaunch i f).walkFrom = s.walkFrom := rfl

/-! ### modPart -/

@[simp] theorem modPart_power (p : Nat) (f : Part → Part) : (s.modPart p f).power = s.power := rfl
@[simp] theorem modPart_stage (p : Nat) (f : Part → Part) : (s.modPart p f).stage = s.stage := rfl
@[simp] theorem modPart_err (p : Nat) (f : Part → Part) : (s.modPart p f).err = s.err := rfl
@[simp] theorem modPart_ready (p : Nat) (f : Part → Part) : (s.modPart p f).ready = s.ready := rfl
@[simp] theorem modPart_tripped (p : Nat) (f : Part → Part) : (s.modPart p f).tripped = s.tripped := rfl
@[simp] theorem modPart_plim (p : Nat) (f : Part → Part) : (s.modPart p f).plim = s.plim := rfl
@[simp] theorem modPart_lowered (p : Nat) (f : Part → Part) : (s.modPart p f).lowered = s.lowered := rfl
@[simp] theorem modPart_spaced (p : Nat) (f : Part → Part) : (s.modPart p f).spaced = s.spaced := rfl
@[simp] theorem modPart_sensors (p : Nat) (f : Part → Part) : (s.modPart p f).sensors = s.sensors := rfl
@[simp] theorem modPart_fabricCounts (p : Nat) (f : Part → Part) : (s.modPart p f).fabricCounts = s.fabricCounts := rfl
@[simp] theorem modPart_adjusts (p : Nat) (f : Part → Part) : (s.modPart p f).adjusts = s.adjusts := rfl
@[simp] theorem modPart_retraining (p : Nat) (f : Part → Part) : (s.modPart p f).retraining = s.retraining := rfl
@[simp] theorem modPart_keys (p : Nat) (f : Part → Part) : (s.modPart p f).keys = s.keys := rfl
@[simp] theorem modPart_zeroKey (p : Nat) (f : Part → Part) : (s.modPart p f).zeroKey = s.zeroKey := rfl
@[simp] theorem modPart_dirBase (p : Nat) (f : Part → Part) : (s.modPart p f).dirBase = s.dirBase := rfl
@[simp] theorem modPart_launchCtr (p : Nat) (f : Part → Part) : (s.modPart p f).launchCtr = s.launchCtr := rfl
@[simp] theorem modPart_takes (p : Nat) (f : Part → Part) : (s.modPart p f).takes = s.takes := rfl
@[simp] theorem modPart_cyc (p : Nat) (f : Part → Part) : (s.modPart p f).cyc = s.cyc := rfl
@[simp] theorem modPart_clk (p : Nat) (f : Part → Part) : (s.modPart p f).clk = s.clk := rfl
@[simp] theorem modPart_mem (p : Nat) (f : Part → Part) : (s.modPart p f).mem = s.mem := rfl
@[simp] theorem modPart_log (p : Nat) (f : Part → Part) : (s.modPart p f).log = s.log := rfl
@[simp] theorem modPart_qkeys (p : Nat) (f : Part → Part) : (s.modPart p f).qkeys = s.qkeys := rfl
@[simp] theorem modPart_posted (p : Nat) (f : Part → Part) : (s.modPart p f).posted = s.posted := rfl
@[simp] theorem modPart_hostReqs (p : Nat) (f : Part → Part) : (s.modPart p f).hostReqs = s.hostReqs := rfl
@[simp] theorem modPart_hostNo (p : Nat) (f : Part → Part) : (s.modPart p f).hostNo = s.hostNo := rfl
@[simp] theorem modPart_l2 (p : Nat) (f : Part → Part) : (s.modPart p f).l2 = s.l2 := rfl
@[simp] theorem modPart_l1 (p : Nat) (f : Part → Part) : (s.modPart p f).l1 = s.l1 := rfl
@[simp] theorem modPart_icache (p : Nat) (f : Part → Part) : (s.modPart p f).icache = s.icache := rfl
@[simp] theorem modPart_remaps (p : Nat) (f : Part → Part) : (s.modPart p f).remaps = s.remaps := rfl
@[simp] theorem modPart_victims (p : Nat) (f : Part → Part) : (s.modPart p f).victims = s.victims := rfl
@[simp] theorem modPart_looks (p : Nat) (f : Part → Part) : (s.modPart p f).looks = s.looks := rfl
@[simp] theorem modPart_opCache (p : Nat) (f : Part → Part) : (s.modPart p f).opCache = s.opCache := rfl
@[simp] theorem modPart_coreStamps (p : Nat) (f : Part → Part) : (s.modPart p f).coreStamps = s.coreStamps := rfl
@[simp] theorem modPart_sectorStamps (p : Nat) (f : Part → Part) : (s.modPart p f).sectorStamps = s.sectorStamps := rfl
@[simp] theorem modPart_pins (p : Nat) (f : Part → Part) : (s.modPart p f).pins = s.pins := rfl
@[simp] theorem modPart_decays (p : Nat) (f : Part → Part) : (s.modPart p f).decays = s.decays := rfl
@[simp] theorem modPart_blocks (p : Nat) (f : Part → Part) : (s.modPart p f).blocks = s.blocks := rfl
@[simp] theorem modPart_nextUid (p : Nat) (f : Part → Part) : (s.modPart p f).nextUid = s.nextUid := rfl
@[simp] theorem modPart_nextAge (p : Nat) (f : Part → Part) : (s.modPart p f).nextAge = s.nextAge := rfl
@[simp] theorem modPart_launches (p : Nat) (f : Part → Part) : (s.modPart p f).launches = s.launches := rfl
@[simp] theorem modPart_colls (p : Nat) (f : Part → Part) : (s.modPart p f).colls = s.colls := rfl
@[simp] theorem modPart_nextColl (p : Nat) (f : Part → Part) : (s.modPart p f).nextColl = s.nextColl := rfl
@[simp] theorem modPart_nets (p : Nat) (f : Part → Part) : (s.modPart p f).nets = s.nets := rfl
@[simp] theorem modPart_nextToken (p : Nat) (f : Part → Part) : (s.modPart p f).nextToken = s.nextToken := rfl
@[simp] theorem modPart_gathered (p : Nat) (f : Part → Part) : (s.modPart p f).gathered = s.gathered := rfl
@[simp] theorem modPart_residency (p : Nat) (f : Part → Part) : (s.modPart p f).residency = s.residency := rfl
@[simp] theorem modPart_words (p : Nat) (f : Part → Part) : (s.modPart p f).words = s.words := rfl
@[simp] theorem modPart_compacts (p : Nat) (f : Part → Part) : (s.modPart p f).compacts = s.compacts := rfl
@[simp] theorem modPart_parts (p : Nat) (f : Part → Part) : (s.modPart p f).parts = s.parts.modify p f := rfl
@[simp] theorem modPart_funcs (p : Nat) (f : Part → Part) : (s.modPart p f).funcs = s.funcs := rfl
@[simp] theorem modPart_apEn (p : Nat) (f : Part → Part) : (s.modPart p f).apEn = s.apEn := rfl
@[simp] theorem modPart_apKey (p : Nat) (f : Part → Part) : (s.modPart p f).apKey = s.apKey := rfl
@[simp] theorem modPart_apPab (p : Nat) (f : Part → Part) : (s.modPart p f).apPab = s.apPab := rfl
@[simp] theorem modPart_devId (p : Nat) (f : Part → Part) : (s.modPart p f).devId = s.devId := rfl
@[simp] theorem modPart_routes (p : Nat) (f : Part → Part) : (s.modPart p f).routes = s.routes := rfl
@[simp] theorem modPart_link (p : Nat) (f : Part → Part) : (s.modPart p f).link = s.link := rfl
@[simp] theorem modPart_fabric (p : Nat) (f : Part → Part) : (s.modPart p f).fabric = s.fabric := rfl
@[simp] theorem modPart_hostMsgs (p : Nat) (f : Part → Part) : (s.modPart p f).hostMsgs = s.hostMsgs := rfl
@[simp] theorem modPart_hostReads (p : Nat) (f : Part → Part) : (s.modPart p f).hostReads = s.hostReads := rfl
@[simp] theorem modPart_reports (p : Nat) (f : Part → Part) : (s.modPart p f).reports = s.reports := rfl
@[simp] theorem modPart_agenda (p : Nat) (f : Part → Part) : (s.modPart p f).agenda = s.agenda := rfl
@[simp] theorem modPart_cur (p : Nat) (f : Part → Part) : (s.modPart p f).cur = s.cur := rfl
@[simp] theorem modPart_draws (p : Nat) (f : Part → Part) : (s.modPart p f).draws = s.draws := rfl
@[simp] theorem modPart_late (p : Nat) (f : Part → Part) : (s.modPart p f).late = s.late := rfl
@[simp] theorem modPart_lags (p : Nat) (f : Part → Part) : (s.modPart p f).lags = s.lags := rfl
@[simp] theorem modPart_walkFrom (p : Nat) (f : Part → Part) : (s.modPart p f).walkFrom = s.walkFrom := rfl

/-! ### modFunc -/

@[simp] theorem modFunc_power (v : Nat) (f : Func → Func) : (s.modFunc v f).power = s.power := rfl
@[simp] theorem modFunc_stage (v : Nat) (f : Func → Func) : (s.modFunc v f).stage = s.stage := rfl
@[simp] theorem modFunc_err (v : Nat) (f : Func → Func) : (s.modFunc v f).err = s.err := rfl
@[simp] theorem modFunc_ready (v : Nat) (f : Func → Func) : (s.modFunc v f).ready = s.ready := rfl
@[simp] theorem modFunc_tripped (v : Nat) (f : Func → Func) : (s.modFunc v f).tripped = s.tripped := rfl
@[simp] theorem modFunc_plim (v : Nat) (f : Func → Func) : (s.modFunc v f).plim = s.plim := rfl
@[simp] theorem modFunc_lowered (v : Nat) (f : Func → Func) : (s.modFunc v f).lowered = s.lowered := rfl
@[simp] theorem modFunc_spaced (v : Nat) (f : Func → Func) : (s.modFunc v f).spaced = s.spaced := rfl
@[simp] theorem modFunc_sensors (v : Nat) (f : Func → Func) : (s.modFunc v f).sensors = s.sensors := rfl
@[simp] theorem modFunc_fabricCounts (v : Nat) (f : Func → Func) : (s.modFunc v f).fabricCounts = s.fabricCounts := rfl
@[simp] theorem modFunc_adjusts (v : Nat) (f : Func → Func) : (s.modFunc v f).adjusts = s.adjusts := rfl
@[simp] theorem modFunc_retraining (v : Nat) (f : Func → Func) : (s.modFunc v f).retraining = s.retraining := rfl
@[simp] theorem modFunc_keys (v : Nat) (f : Func → Func) : (s.modFunc v f).keys = s.keys := rfl
@[simp] theorem modFunc_zeroKey (v : Nat) (f : Func → Func) : (s.modFunc v f).zeroKey = s.zeroKey := rfl
@[simp] theorem modFunc_dirBase (v : Nat) (f : Func → Func) : (s.modFunc v f).dirBase = s.dirBase := rfl
@[simp] theorem modFunc_launchCtr (v : Nat) (f : Func → Func) : (s.modFunc v f).launchCtr = s.launchCtr := rfl
@[simp] theorem modFunc_takes (v : Nat) (f : Func → Func) : (s.modFunc v f).takes = s.takes := rfl
@[simp] theorem modFunc_cyc (v : Nat) (f : Func → Func) : (s.modFunc v f).cyc = s.cyc := rfl
@[simp] theorem modFunc_clk (v : Nat) (f : Func → Func) : (s.modFunc v f).clk = s.clk := rfl
@[simp] theorem modFunc_mem (v : Nat) (f : Func → Func) : (s.modFunc v f).mem = s.mem := rfl
@[simp] theorem modFunc_log (v : Nat) (f : Func → Func) : (s.modFunc v f).log = s.log := rfl
@[simp] theorem modFunc_qkeys (v : Nat) (f : Func → Func) : (s.modFunc v f).qkeys = s.qkeys := rfl
@[simp] theorem modFunc_posted (v : Nat) (f : Func → Func) : (s.modFunc v f).posted = s.posted := rfl
@[simp] theorem modFunc_hostReqs (v : Nat) (f : Func → Func) : (s.modFunc v f).hostReqs = s.hostReqs := rfl
@[simp] theorem modFunc_hostNo (v : Nat) (f : Func → Func) : (s.modFunc v f).hostNo = s.hostNo := rfl
@[simp] theorem modFunc_l2 (v : Nat) (f : Func → Func) : (s.modFunc v f).l2 = s.l2 := rfl
@[simp] theorem modFunc_l1 (v : Nat) (f : Func → Func) : (s.modFunc v f).l1 = s.l1 := rfl
@[simp] theorem modFunc_icache (v : Nat) (f : Func → Func) : (s.modFunc v f).icache = s.icache := rfl
@[simp] theorem modFunc_remaps (v : Nat) (f : Func → Func) : (s.modFunc v f).remaps = s.remaps := rfl
@[simp] theorem modFunc_victims (v : Nat) (f : Func → Func) : (s.modFunc v f).victims = s.victims := rfl
@[simp] theorem modFunc_looks (v : Nat) (f : Func → Func) : (s.modFunc v f).looks = s.looks := rfl
@[simp] theorem modFunc_opCache (v : Nat) (f : Func → Func) : (s.modFunc v f).opCache = s.opCache := rfl
@[simp] theorem modFunc_coreStamps (v : Nat) (f : Func → Func) : (s.modFunc v f).coreStamps = s.coreStamps := rfl
@[simp] theorem modFunc_sectorStamps (v : Nat) (f : Func → Func) : (s.modFunc v f).sectorStamps = s.sectorStamps := rfl
@[simp] theorem modFunc_pins (v : Nat) (f : Func → Func) : (s.modFunc v f).pins = s.pins := rfl
@[simp] theorem modFunc_decays (v : Nat) (f : Func → Func) : (s.modFunc v f).decays = s.decays := rfl
@[simp] theorem modFunc_blocks (v : Nat) (f : Func → Func) : (s.modFunc v f).blocks = s.blocks := rfl
@[simp] theorem modFunc_nextUid (v : Nat) (f : Func → Func) : (s.modFunc v f).nextUid = s.nextUid := rfl
@[simp] theorem modFunc_nextAge (v : Nat) (f : Func → Func) : (s.modFunc v f).nextAge = s.nextAge := rfl
@[simp] theorem modFunc_launches (v : Nat) (f : Func → Func) : (s.modFunc v f).launches = s.launches := rfl
@[simp] theorem modFunc_colls (v : Nat) (f : Func → Func) : (s.modFunc v f).colls = s.colls := rfl
@[simp] theorem modFunc_nextColl (v : Nat) (f : Func → Func) : (s.modFunc v f).nextColl = s.nextColl := rfl
@[simp] theorem modFunc_nets (v : Nat) (f : Func → Func) : (s.modFunc v f).nets = s.nets := rfl
@[simp] theorem modFunc_nextToken (v : Nat) (f : Func → Func) : (s.modFunc v f).nextToken = s.nextToken := rfl
@[simp] theorem modFunc_gathered (v : Nat) (f : Func → Func) : (s.modFunc v f).gathered = s.gathered := rfl
@[simp] theorem modFunc_residency (v : Nat) (f : Func → Func) : (s.modFunc v f).residency = s.residency := rfl
@[simp] theorem modFunc_words (v : Nat) (f : Func → Func) : (s.modFunc v f).words = s.words := rfl
@[simp] theorem modFunc_compacts (v : Nat) (f : Func → Func) : (s.modFunc v f).compacts = s.compacts := rfl
@[simp] theorem modFunc_parts (v : Nat) (f : Func → Func) : (s.modFunc v f).parts = s.parts := rfl
@[simp] theorem modFunc_funcs (v : Nat) (f : Func → Func) : (s.modFunc v f).funcs = s.funcs.modify v f := rfl
@[simp] theorem modFunc_apEn (v : Nat) (f : Func → Func) : (s.modFunc v f).apEn = s.apEn := rfl
@[simp] theorem modFunc_apKey (v : Nat) (f : Func → Func) : (s.modFunc v f).apKey = s.apKey := rfl
@[simp] theorem modFunc_apPab (v : Nat) (f : Func → Func) : (s.modFunc v f).apPab = s.apPab := rfl
@[simp] theorem modFunc_devId (v : Nat) (f : Func → Func) : (s.modFunc v f).devId = s.devId := rfl
@[simp] theorem modFunc_routes (v : Nat) (f : Func → Func) : (s.modFunc v f).routes = s.routes := rfl
@[simp] theorem modFunc_link (v : Nat) (f : Func → Func) : (s.modFunc v f).link = s.link := rfl
@[simp] theorem modFunc_fabric (v : Nat) (f : Func → Func) : (s.modFunc v f).fabric = s.fabric := rfl
@[simp] theorem modFunc_hostMsgs (v : Nat) (f : Func → Func) : (s.modFunc v f).hostMsgs = s.hostMsgs := rfl
@[simp] theorem modFunc_hostReads (v : Nat) (f : Func → Func) : (s.modFunc v f).hostReads = s.hostReads := rfl
@[simp] theorem modFunc_reports (v : Nat) (f : Func → Func) : (s.modFunc v f).reports = s.reports := rfl
@[simp] theorem modFunc_agenda (v : Nat) (f : Func → Func) : (s.modFunc v f).agenda = s.agenda := rfl
@[simp] theorem modFunc_cur (v : Nat) (f : Func → Func) : (s.modFunc v f).cur = s.cur := rfl
@[simp] theorem modFunc_draws (v : Nat) (f : Func → Func) : (s.modFunc v f).draws = s.draws := rfl
@[simp] theorem modFunc_late (v : Nat) (f : Func → Func) : (s.modFunc v f).late = s.late := rfl
@[simp] theorem modFunc_lags (v : Nat) (f : Func → Func) : (s.modFunc v f).lags = s.lags := rfl
@[simp] theorem modFunc_walkFrom (v : Nat) (f : Func → Func) : (s.modFunc v f).walkFrom = s.walkFrom := rfl

/-! ### modNet -/

@[simp] theorem modNet_power (n : Nat) (f : Net → Net) : (s.modNet n f).power = s.power := rfl
@[simp] theorem modNet_stage (n : Nat) (f : Net → Net) : (s.modNet n f).stage = s.stage := rfl
@[simp] theorem modNet_err (n : Nat) (f : Net → Net) : (s.modNet n f).err = s.err := rfl
@[simp] theorem modNet_ready (n : Nat) (f : Net → Net) : (s.modNet n f).ready = s.ready := rfl
@[simp] theorem modNet_tripped (n : Nat) (f : Net → Net) : (s.modNet n f).tripped = s.tripped := rfl
@[simp] theorem modNet_plim (n : Nat) (f : Net → Net) : (s.modNet n f).plim = s.plim := rfl
@[simp] theorem modNet_lowered (n : Nat) (f : Net → Net) : (s.modNet n f).lowered = s.lowered := rfl
@[simp] theorem modNet_spaced (n : Nat) (f : Net → Net) : (s.modNet n f).spaced = s.spaced := rfl
@[simp] theorem modNet_sensors (n : Nat) (f : Net → Net) : (s.modNet n f).sensors = s.sensors := rfl
@[simp] theorem modNet_fabricCounts (n : Nat) (f : Net → Net) : (s.modNet n f).fabricCounts = s.fabricCounts := rfl
@[simp] theorem modNet_adjusts (n : Nat) (f : Net → Net) : (s.modNet n f).adjusts = s.adjusts := rfl
@[simp] theorem modNet_retraining (n : Nat) (f : Net → Net) : (s.modNet n f).retraining = s.retraining := rfl
@[simp] theorem modNet_keys (n : Nat) (f : Net → Net) : (s.modNet n f).keys = s.keys := rfl
@[simp] theorem modNet_zeroKey (n : Nat) (f : Net → Net) : (s.modNet n f).zeroKey = s.zeroKey := rfl
@[simp] theorem modNet_dirBase (n : Nat) (f : Net → Net) : (s.modNet n f).dirBase = s.dirBase := rfl
@[simp] theorem modNet_launchCtr (n : Nat) (f : Net → Net) : (s.modNet n f).launchCtr = s.launchCtr := rfl
@[simp] theorem modNet_takes (n : Nat) (f : Net → Net) : (s.modNet n f).takes = s.takes := rfl
@[simp] theorem modNet_cyc (n : Nat) (f : Net → Net) : (s.modNet n f).cyc = s.cyc := rfl
@[simp] theorem modNet_clk (n : Nat) (f : Net → Net) : (s.modNet n f).clk = s.clk := rfl
@[simp] theorem modNet_mem (n : Nat) (f : Net → Net) : (s.modNet n f).mem = s.mem := rfl
@[simp] theorem modNet_log (n : Nat) (f : Net → Net) : (s.modNet n f).log = s.log := rfl
@[simp] theorem modNet_qkeys (n : Nat) (f : Net → Net) : (s.modNet n f).qkeys = s.qkeys := rfl
@[simp] theorem modNet_posted (n : Nat) (f : Net → Net) : (s.modNet n f).posted = s.posted := rfl
@[simp] theorem modNet_hostReqs (n : Nat) (f : Net → Net) : (s.modNet n f).hostReqs = s.hostReqs := rfl
@[simp] theorem modNet_hostNo (n : Nat) (f : Net → Net) : (s.modNet n f).hostNo = s.hostNo := rfl
@[simp] theorem modNet_l2 (n : Nat) (f : Net → Net) : (s.modNet n f).l2 = s.l2 := rfl
@[simp] theorem modNet_l1 (n : Nat) (f : Net → Net) : (s.modNet n f).l1 = s.l1 := rfl
@[simp] theorem modNet_icache (n : Nat) (f : Net → Net) : (s.modNet n f).icache = s.icache := rfl
@[simp] theorem modNet_remaps (n : Nat) (f : Net → Net) : (s.modNet n f).remaps = s.remaps := rfl
@[simp] theorem modNet_victims (n : Nat) (f : Net → Net) : (s.modNet n f).victims = s.victims := rfl
@[simp] theorem modNet_looks (n : Nat) (f : Net → Net) : (s.modNet n f).looks = s.looks := rfl
@[simp] theorem modNet_opCache (n : Nat) (f : Net → Net) : (s.modNet n f).opCache = s.opCache := rfl
@[simp] theorem modNet_coreStamps (n : Nat) (f : Net → Net) : (s.modNet n f).coreStamps = s.coreStamps := rfl
@[simp] theorem modNet_sectorStamps (n : Nat) (f : Net → Net) : (s.modNet n f).sectorStamps = s.sectorStamps := rfl
@[simp] theorem modNet_pins (n : Nat) (f : Net → Net) : (s.modNet n f).pins = s.pins := rfl
@[simp] theorem modNet_decays (n : Nat) (f : Net → Net) : (s.modNet n f).decays = s.decays := rfl
@[simp] theorem modNet_blocks (n : Nat) (f : Net → Net) : (s.modNet n f).blocks = s.blocks := rfl
@[simp] theorem modNet_nextUid (n : Nat) (f : Net → Net) : (s.modNet n f).nextUid = s.nextUid := rfl
@[simp] theorem modNet_nextAge (n : Nat) (f : Net → Net) : (s.modNet n f).nextAge = s.nextAge := rfl
@[simp] theorem modNet_launches (n : Nat) (f : Net → Net) : (s.modNet n f).launches = s.launches := rfl
@[simp] theorem modNet_colls (n : Nat) (f : Net → Net) : (s.modNet n f).colls = s.colls := rfl
@[simp] theorem modNet_nextColl (n : Nat) (f : Net → Net) : (s.modNet n f).nextColl = s.nextColl := rfl
@[simp] theorem modNet_nets (n : Nat) (f : Net → Net) : (s.modNet n f).nets = s.nets.modify n f := rfl
@[simp] theorem modNet_nextToken (n : Nat) (f : Net → Net) : (s.modNet n f).nextToken = s.nextToken := rfl
@[simp] theorem modNet_gathered (n : Nat) (f : Net → Net) : (s.modNet n f).gathered = s.gathered := rfl
@[simp] theorem modNet_residency (n : Nat) (f : Net → Net) : (s.modNet n f).residency = s.residency := rfl
@[simp] theorem modNet_words (n : Nat) (f : Net → Net) : (s.modNet n f).words = s.words := rfl
@[simp] theorem modNet_compacts (n : Nat) (f : Net → Net) : (s.modNet n f).compacts = s.compacts := rfl
@[simp] theorem modNet_parts (n : Nat) (f : Net → Net) : (s.modNet n f).parts = s.parts := rfl
@[simp] theorem modNet_funcs (n : Nat) (f : Net → Net) : (s.modNet n f).funcs = s.funcs := rfl
@[simp] theorem modNet_apEn (n : Nat) (f : Net → Net) : (s.modNet n f).apEn = s.apEn := rfl
@[simp] theorem modNet_apKey (n : Nat) (f : Net → Net) : (s.modNet n f).apKey = s.apKey := rfl
@[simp] theorem modNet_apPab (n : Nat) (f : Net → Net) : (s.modNet n f).apPab = s.apPab := rfl
@[simp] theorem modNet_devId (n : Nat) (f : Net → Net) : (s.modNet n f).devId = s.devId := rfl
@[simp] theorem modNet_routes (n : Nat) (f : Net → Net) : (s.modNet n f).routes = s.routes := rfl
@[simp] theorem modNet_link (n : Nat) (f : Net → Net) : (s.modNet n f).link = s.link := rfl
@[simp] theorem modNet_fabric (n : Nat) (f : Net → Net) : (s.modNet n f).fabric = s.fabric := rfl
@[simp] theorem modNet_hostMsgs (n : Nat) (f : Net → Net) : (s.modNet n f).hostMsgs = s.hostMsgs := rfl
@[simp] theorem modNet_hostReads (n : Nat) (f : Net → Net) : (s.modNet n f).hostReads = s.hostReads := rfl
@[simp] theorem modNet_reports (n : Nat) (f : Net → Net) : (s.modNet n f).reports = s.reports := rfl
@[simp] theorem modNet_agenda (n : Nat) (f : Net → Net) : (s.modNet n f).agenda = s.agenda := rfl
@[simp] theorem modNet_cur (n : Nat) (f : Net → Net) : (s.modNet n f).cur = s.cur := rfl
@[simp] theorem modNet_draws (n : Nat) (f : Net → Net) : (s.modNet n f).draws = s.draws := rfl
@[simp] theorem modNet_late (n : Nat) (f : Net → Net) : (s.modNet n f).late = s.late := rfl
@[simp] theorem modNet_lags (n : Nat) (f : Net → Net) : (s.modNet n f).lags = s.lags := rfl
@[simp] theorem modNet_walkFrom (n : Nat) (f : Net → Net) : (s.modNet n f).walkFrom = s.walkFrom := rfl

/-! ### gather -/

@[simp] theorem gather_power (c : Nat) (h : HLane) : (s.gather c h).power = s.power := rfl
@[simp] theorem gather_stage (c : Nat) (h : HLane) : (s.gather c h).stage = s.stage := rfl
@[simp] theorem gather_err (c : Nat) (h : HLane) : (s.gather c h).err = s.err := rfl
@[simp] theorem gather_ready (c : Nat) (h : HLane) : (s.gather c h).ready = s.ready := rfl
@[simp] theorem gather_tripped (c : Nat) (h : HLane) : (s.gather c h).tripped = s.tripped := rfl
@[simp] theorem gather_plim (c : Nat) (h : HLane) : (s.gather c h).plim = s.plim := rfl
@[simp] theorem gather_lowered (c : Nat) (h : HLane) : (s.gather c h).lowered = s.lowered := rfl
@[simp] theorem gather_spaced (c : Nat) (h : HLane) : (s.gather c h).spaced = s.spaced := rfl
@[simp] theorem gather_sensors (c : Nat) (h : HLane) : (s.gather c h).sensors = s.sensors := rfl
@[simp] theorem gather_fabricCounts (c : Nat) (h : HLane) : (s.gather c h).fabricCounts = s.fabricCounts := rfl
@[simp] theorem gather_adjusts (c : Nat) (h : HLane) : (s.gather c h).adjusts = s.adjusts := rfl
@[simp] theorem gather_retraining (c : Nat) (h : HLane) : (s.gather c h).retraining = s.retraining := rfl
@[simp] theorem gather_keys (c : Nat) (h : HLane) : (s.gather c h).keys = s.keys := rfl
@[simp] theorem gather_zeroKey (c : Nat) (h : HLane) : (s.gather c h).zeroKey = s.zeroKey := rfl
@[simp] theorem gather_dirBase (c : Nat) (h : HLane) : (s.gather c h).dirBase = s.dirBase := rfl
@[simp] theorem gather_launchCtr (c : Nat) (h : HLane) : (s.gather c h).launchCtr = s.launchCtr := rfl
@[simp] theorem gather_takes (c : Nat) (h : HLane) : (s.gather c h).takes = s.takes := rfl
@[simp] theorem gather_cyc (c : Nat) (h : HLane) : (s.gather c h).cyc = s.cyc := rfl
@[simp] theorem gather_clk (c : Nat) (h : HLane) : (s.gather c h).clk = s.clk := rfl
@[simp] theorem gather_mem (c : Nat) (h : HLane) : (s.gather c h).mem = s.mem := rfl
@[simp] theorem gather_log (c : Nat) (h : HLane) : (s.gather c h).log = s.log := rfl
@[simp] theorem gather_qkeys (c : Nat) (h : HLane) : (s.gather c h).qkeys = s.qkeys := rfl
@[simp] theorem gather_posted (c : Nat) (h : HLane) : (s.gather c h).posted = s.posted := rfl
@[simp] theorem gather_hostReqs (c : Nat) (h : HLane) : (s.gather c h).hostReqs = s.hostReqs := rfl
@[simp] theorem gather_hostNo (c : Nat) (h : HLane) : (s.gather c h).hostNo = s.hostNo := rfl
@[simp] theorem gather_l2 (c : Nat) (h : HLane) : (s.gather c h).l2 = s.l2 := rfl
@[simp] theorem gather_l1 (c : Nat) (h : HLane) : (s.gather c h).l1 = s.l1 := rfl
@[simp] theorem gather_icache (c : Nat) (h : HLane) : (s.gather c h).icache = s.icache := rfl
@[simp] theorem gather_remaps (c : Nat) (h : HLane) : (s.gather c h).remaps = s.remaps := rfl
@[simp] theorem gather_victims (c : Nat) (h : HLane) : (s.gather c h).victims = s.victims := rfl
@[simp] theorem gather_looks (c : Nat) (h : HLane) : (s.gather c h).looks = s.looks := rfl
@[simp] theorem gather_opCache (c : Nat) (h : HLane) : (s.gather c h).opCache = s.opCache := rfl
@[simp] theorem gather_coreStamps (c : Nat) (h : HLane) : (s.gather c h).coreStamps = s.coreStamps := rfl
@[simp] theorem gather_sectorStamps (c : Nat) (h : HLane) : (s.gather c h).sectorStamps = s.sectorStamps := rfl
@[simp] theorem gather_pins (c : Nat) (h : HLane) : (s.gather c h).pins = s.pins := rfl
@[simp] theorem gather_decays (c : Nat) (h : HLane) : (s.gather c h).decays = s.decays := rfl
@[simp] theorem gather_blocks (c : Nat) (h : HLane) : (s.gather c h).blocks = s.blocks := rfl
@[simp] theorem gather_nextUid (c : Nat) (h : HLane) : (s.gather c h).nextUid = s.nextUid := rfl
@[simp] theorem gather_nextAge (c : Nat) (h : HLane) : (s.gather c h).nextAge = s.nextAge := rfl
@[simp] theorem gather_launches (c : Nat) (h : HLane) : (s.gather c h).launches = s.launches := rfl
@[simp] theorem gather_colls (c : Nat) (h : HLane) : (s.gather c h).colls = s.colls := rfl
@[simp] theorem gather_nextColl (c : Nat) (h : HLane) : (s.gather c h).nextColl = s.nextColl := rfl
@[simp] theorem gather_nets (c : Nat) (h : HLane) : (s.gather c h).nets = s.nets := rfl
@[simp] theorem gather_nextToken (c : Nat) (h : HLane) : (s.gather c h).nextToken = s.nextToken := rfl
@[simp] theorem gather_gathered (c : Nat) (h : HLane) : (s.gather c h).gathered = s.gathered ++ [(c, { h with time := s.cyc })] := rfl
@[simp] theorem gather_residency (c : Nat) (h : HLane) : (s.gather c h).residency = s.residency := rfl
@[simp] theorem gather_words (c : Nat) (h : HLane) : (s.gather c h).words = s.words := rfl
@[simp] theorem gather_compacts (c : Nat) (h : HLane) : (s.gather c h).compacts = s.compacts := rfl
@[simp] theorem gather_parts (c : Nat) (h : HLane) : (s.gather c h).parts = s.parts := rfl
@[simp] theorem gather_funcs (c : Nat) (h : HLane) : (s.gather c h).funcs = s.funcs := rfl
@[simp] theorem gather_apEn (c : Nat) (h : HLane) : (s.gather c h).apEn = s.apEn := rfl
@[simp] theorem gather_apKey (c : Nat) (h : HLane) : (s.gather c h).apKey = s.apKey := rfl
@[simp] theorem gather_apPab (c : Nat) (h : HLane) : (s.gather c h).apPab = s.apPab := rfl
@[simp] theorem gather_devId (c : Nat) (h : HLane) : (s.gather c h).devId = s.devId := rfl
@[simp] theorem gather_routes (c : Nat) (h : HLane) : (s.gather c h).routes = s.routes := rfl
@[simp] theorem gather_link (c : Nat) (h : HLane) : (s.gather c h).link = s.link := rfl
@[simp] theorem gather_fabric (c : Nat) (h : HLane) : (s.gather c h).fabric = s.fabric := rfl
@[simp] theorem gather_hostMsgs (c : Nat) (h : HLane) : (s.gather c h).hostMsgs = s.hostMsgs := rfl
@[simp] theorem gather_hostReads (c : Nat) (h : HLane) : (s.gather c h).hostReads = s.hostReads := rfl
@[simp] theorem gather_reports (c : Nat) (h : HLane) : (s.gather c h).reports = s.reports := rfl
@[simp] theorem gather_agenda (c : Nat) (h : HLane) : (s.gather c h).agenda = s.agenda := rfl
@[simp] theorem gather_cur (c : Nat) (h : HLane) : (s.gather c h).cur = s.cur := rfl
@[simp] theorem gather_draws (c : Nat) (h : HLane) : (s.gather c h).draws = s.draws := rfl
@[simp] theorem gather_late (c : Nat) (h : HLane) : (s.gather c h).late = s.late := rfl
@[simp] theorem gather_lags (c : Nat) (h : HLane) : (s.gather c h).lags = s.lags := rfl
@[simp] theorem gather_walkFrom (c : Nat) (h : HLane) : (s.gather c h).walkFrom = s.walkFrom := rfl

/-! ### interrupt -/

@[simp] theorem interrupt_power (p v k : Nat) (d : DWord) : (s.interrupt p v k d).power = s.power := rfl
@[simp] theorem interrupt_stage (p v k : Nat) (d : DWord) : (s.interrupt p v k d).stage = s.stage := rfl
@[simp] theorem interrupt_err (p v k : Nat) (d : DWord) : (s.interrupt p v k d).err = s.err := rfl
@[simp] theorem interrupt_ready (p v k : Nat) (d : DWord) : (s.interrupt p v k d).ready = s.ready := rfl
@[simp] theorem interrupt_tripped (p v k : Nat) (d : DWord) : (s.interrupt p v k d).tripped = s.tripped := rfl
@[simp] theorem interrupt_plim (p v k : Nat) (d : DWord) : (s.interrupt p v k d).plim = s.plim := rfl
@[simp] theorem interrupt_lowered (p v k : Nat) (d : DWord) : (s.interrupt p v k d).lowered = s.lowered := rfl
@[simp] theorem interrupt_spaced (p v k : Nat) (d : DWord) : (s.interrupt p v k d).spaced = s.spaced := rfl
@[simp] theorem interrupt_sensors (p v k : Nat) (d : DWord) : (s.interrupt p v k d).sensors = s.sensors := rfl
@[simp] theorem interrupt_fabricCounts (p v k : Nat) (d : DWord) : (s.interrupt p v k d).fabricCounts = s.fabricCounts := rfl
@[simp] theorem interrupt_adjusts (p v k : Nat) (d : DWord) : (s.interrupt p v k d).adjusts = s.adjusts := rfl
@[simp] theorem interrupt_retraining (p v k : Nat) (d : DWord) : (s.interrupt p v k d).retraining = s.retraining := rfl
@[simp] theorem interrupt_keys (p v k : Nat) (d : DWord) : (s.interrupt p v k d).keys = s.keys := rfl
@[simp] theorem interrupt_zeroKey (p v k : Nat) (d : DWord) : (s.interrupt p v k d).zeroKey = s.zeroKey := rfl
@[simp] theorem interrupt_dirBase (p v k : Nat) (d : DWord) : (s.interrupt p v k d).dirBase = s.dirBase := rfl
@[simp] theorem interrupt_launchCtr (p v k : Nat) (d : DWord) : (s.interrupt p v k d).launchCtr = s.launchCtr := rfl
@[simp] theorem interrupt_takes (p v k : Nat) (d : DWord) : (s.interrupt p v k d).takes = s.takes := rfl
@[simp] theorem interrupt_cyc (p v k : Nat) (d : DWord) : (s.interrupt p v k d).cyc = s.cyc := rfl
@[simp] theorem interrupt_clk (p v k : Nat) (d : DWord) : (s.interrupt p v k d).clk = s.clk := rfl
@[simp] theorem interrupt_mem (p v k : Nat) (d : DWord) : (s.interrupt p v k d).mem = s.mem := rfl
@[simp] theorem interrupt_log (p v k : Nat) (d : DWord) : (s.interrupt p v k d).log = s.log := rfl
@[simp] theorem interrupt_qkeys (p v k : Nat) (d : DWord) : (s.interrupt p v k d).qkeys = s.qkeys := rfl
@[simp] theorem interrupt_posted (p v k : Nat) (d : DWord) : (s.interrupt p v k d).posted = s.posted := rfl
@[simp] theorem interrupt_hostReqs (p v k : Nat) (d : DWord) : (s.interrupt p v k d).hostReqs = s.hostReqs := rfl
@[simp] theorem interrupt_hostNo (p v k : Nat) (d : DWord) : (s.interrupt p v k d).hostNo = s.hostNo := rfl
@[simp] theorem interrupt_l2 (p v k : Nat) (d : DWord) : (s.interrupt p v k d).l2 = s.l2 := rfl
@[simp] theorem interrupt_l1 (p v k : Nat) (d : DWord) : (s.interrupt p v k d).l1 = s.l1 := rfl
@[simp] theorem interrupt_icache (p v k : Nat) (d : DWord) : (s.interrupt p v k d).icache = s.icache := rfl
@[simp] theorem interrupt_remaps (p v k : Nat) (d : DWord) : (s.interrupt p v k d).remaps = s.remaps := rfl
@[simp] theorem interrupt_victims (p v k : Nat) (d : DWord) : (s.interrupt p v k d).victims = s.victims := rfl
@[simp] theorem interrupt_looks (p v k : Nat) (d : DWord) : (s.interrupt p v k d).looks = s.looks := rfl
@[simp] theorem interrupt_opCache (p v k : Nat) (d : DWord) : (s.interrupt p v k d).opCache = s.opCache := rfl
@[simp] theorem interrupt_coreStamps (p v k : Nat) (d : DWord) : (s.interrupt p v k d).coreStamps = s.coreStamps := rfl
@[simp] theorem interrupt_sectorStamps (p v k : Nat) (d : DWord) : (s.interrupt p v k d).sectorStamps = s.sectorStamps := rfl
@[simp] theorem interrupt_pins (p v k : Nat) (d : DWord) : (s.interrupt p v k d).pins = s.pins := rfl
@[simp] theorem interrupt_decays (p v k : Nat) (d : DWord) : (s.interrupt p v k d).decays = s.decays := rfl
@[simp] theorem interrupt_blocks (p v k : Nat) (d : DWord) : (s.interrupt p v k d).blocks = s.blocks := rfl
@[simp] theorem interrupt_nextUid (p v k : Nat) (d : DWord) : (s.interrupt p v k d).nextUid = s.nextUid := rfl
@[simp] theorem interrupt_nextAge (p v k : Nat) (d : DWord) : (s.interrupt p v k d).nextAge = s.nextAge := rfl
@[simp] theorem interrupt_launches (p v k : Nat) (d : DWord) : (s.interrupt p v k d).launches = s.launches := rfl
@[simp] theorem interrupt_colls (p v k : Nat) (d : DWord) : (s.interrupt p v k d).colls = s.colls := rfl
@[simp] theorem interrupt_nextColl (p v k : Nat) (d : DWord) : (s.interrupt p v k d).nextColl = s.nextColl := rfl
@[simp] theorem interrupt_nets (p v k : Nat) (d : DWord) : (s.interrupt p v k d).nets = s.nets := rfl
@[simp] theorem interrupt_nextToken (p v k : Nat) (d : DWord) : (s.interrupt p v k d).nextToken = s.nextToken := rfl
@[simp] theorem interrupt_gathered (p v k : Nat) (d : DWord) : (s.interrupt p v k d).gathered = s.gathered := rfl
@[simp] theorem interrupt_residency (p v k : Nat) (d : DWord) : (s.interrupt p v k d).residency = s.residency := rfl
@[simp] theorem interrupt_words (p v k : Nat) (d : DWord) : (s.interrupt p v k d).words = s.words := rfl
@[simp] theorem interrupt_compacts (p v k : Nat) (d : DWord) : (s.interrupt p v k d).compacts = s.compacts := rfl
@[simp] theorem interrupt_parts (p v k : Nat) (d : DWord) : (s.interrupt p v k d).parts = s.parts := rfl
@[simp] theorem interrupt_funcs (p v k : Nat) (d : DWord) : (s.interrupt p v k d).funcs = s.funcs := rfl
@[simp] theorem interrupt_apEn (p v k : Nat) (d : DWord) : (s.interrupt p v k d).apEn = s.apEn := rfl
@[simp] theorem interrupt_apKey (p v k : Nat) (d : DWord) : (s.interrupt p v k d).apKey = s.apKey := rfl
@[simp] theorem interrupt_apPab (p v k : Nat) (d : DWord) : (s.interrupt p v k d).apPab = s.apPab := rfl
@[simp] theorem interrupt_devId (p v k : Nat) (d : DWord) : (s.interrupt p v k d).devId = s.devId := rfl
@[simp] theorem interrupt_routes (p v k : Nat) (d : DWord) : (s.interrupt p v k d).routes = s.routes := rfl
@[simp] theorem interrupt_link (p v k : Nat) (d : DWord) : (s.interrupt p v k d).link = s.link := rfl
@[simp] theorem interrupt_fabric (p v k : Nat) (d : DWord) : (s.interrupt p v k d).fabric = s.fabric := rfl
@[simp] theorem interrupt_hostReads (p v k : Nat) (d : DWord) : (s.interrupt p v k d).hostReads = s.hostReads := rfl
@[simp] theorem interrupt_reports (p v k : Nat) (d : DWord) : (s.interrupt p v k d).reports = s.reports := rfl
@[simp] theorem interrupt_agenda (p v k : Nat) (d : DWord) : (s.interrupt p v k d).agenda = s.agenda := rfl
@[simp] theorem interrupt_cur (p v k : Nat) (d : DWord) : (s.interrupt p v k d).cur = s.cur := rfl
@[simp] theorem interrupt_draws (p v k : Nat) (d : DWord) : (s.interrupt p v k d).draws = s.draws := rfl
@[simp] theorem interrupt_late (p v k : Nat) (d : DWord) : (s.interrupt p v k d).late = s.late := rfl
@[simp] theorem interrupt_lags (p v k : Nat) (d : DWord) : (s.interrupt p v k d).lags = s.lags := rfl
@[simp] theorem interrupt_walkFrom (p v k : Nat) (d : DWord) : (s.interrupt p v k d).walkFrom = s.walkFrom := rfl

/-! ### push -/

@[simp] theorem push_power (k : Ctx) (l : Nat) (w : OpKind) : (s.push k l w).power = s.power := rfl
@[simp] theorem push_stage (k : Ctx) (l : Nat) (w : OpKind) : (s.push k l w).stage = s.stage := rfl
@[simp] theorem push_err (k : Ctx) (l : Nat) (w : OpKind) : (s.push k l w).err = s.err := rfl
@[simp] theorem push_ready (k : Ctx) (l : Nat) (w : OpKind) : (s.push k l w).ready = s.ready := rfl
@[simp] theorem push_tripped (k : Ctx) (l : Nat) (w : OpKind) : (s.push k l w).tripped = s.tripped := rfl
@[simp] theorem push_plim (k : Ctx) (l : Nat) (w : OpKind) : (s.push k l w).plim = s.plim := rfl
@[simp] theorem push_lowered (k : Ctx) (l : Nat) (w : OpKind) : (s.push k l w).lowered = s.lowered := rfl
@[simp] theorem push_spaced (k : Ctx) (l : Nat) (w : OpKind) : (s.push k l w).spaced = s.spaced := rfl
@[simp] theorem push_sensors (k : Ctx) (l : Nat) (w : OpKind) : (s.push k l w).sensors = s.sensors := rfl
@[simp] theorem push_fabricCounts (k : Ctx) (l : Nat) (w : OpKind) : (s.push k l w).fabricCounts = s.fabricCounts := rfl
@[simp] theorem push_adjusts (k : Ctx) (l : Nat) (w : OpKind) : (s.push k l w).adjusts = s.adjusts := rfl
@[simp] theorem push_retraining (k : Ctx) (l : Nat) (w : OpKind) : (s.push k l w).retraining = s.retraining := rfl
@[simp] theorem push_keys (k : Ctx) (l : Nat) (w : OpKind) : (s.push k l w).keys = s.keys := rfl
@[simp] theorem push_zeroKey (k : Ctx) (l : Nat) (w : OpKind) : (s.push k l w).zeroKey = s.zeroKey := rfl
@[simp] theorem push_dirBase (k : Ctx) (l : Nat) (w : OpKind) : (s.push k l w).dirBase = s.dirBase := rfl
@[simp] theorem push_launchCtr (k : Ctx) (l : Nat) (w : OpKind) : (s.push k l w).launchCtr = s.launchCtr := rfl
@[simp] theorem push_takes (k : Ctx) (l : Nat) (w : OpKind) : (s.push k l w).takes = s.takes := rfl
@[simp] theorem push_cyc (k : Ctx) (l : Nat) (w : OpKind) : (s.push k l w).cyc = s.cyc := rfl
@[simp] theorem push_clk (k : Ctx) (l : Nat) (w : OpKind) : (s.push k l w).clk = s.clk := rfl
@[simp] theorem push_mem (k : Ctx) (l : Nat) (w : OpKind) : (s.push k l w).mem = s.mem := rfl
@[simp] theorem push_log (k : Ctx) (l : Nat) (w : OpKind) : (s.push k l w).log = s.log := rfl
@[simp] theorem push_qkeys (k : Ctx) (l : Nat) (w : OpKind) : (s.push k l w).qkeys = s.qkeys := rfl
@[simp] theorem push_posted (k : Ctx) (l : Nat) (w : OpKind) : (s.push k l w).posted = s.posted := rfl
@[simp] theorem push_hostReqs (k : Ctx) (l : Nat) (w : OpKind) : (s.push k l w).hostReqs = s.hostReqs := rfl
@[simp] theorem push_hostNo (k : Ctx) (l : Nat) (w : OpKind) : (s.push k l w).hostNo = s.hostNo := rfl
@[simp] theorem push_l2 (k : Ctx) (l : Nat) (w : OpKind) : (s.push k l w).l2 = s.l2 := rfl
@[simp] theorem push_l1 (k : Ctx) (l : Nat) (w : OpKind) : (s.push k l w).l1 = s.l1 := rfl
@[simp] theorem push_icache (k : Ctx) (l : Nat) (w : OpKind) : (s.push k l w).icache = s.icache := rfl
@[simp] theorem push_remaps (k : Ctx) (l : Nat) (w : OpKind) : (s.push k l w).remaps = s.remaps := rfl
@[simp] theorem push_victims (k : Ctx) (l : Nat) (w : OpKind) : (s.push k l w).victims = s.victims := rfl
@[simp] theorem push_looks (k : Ctx) (l : Nat) (w : OpKind) : (s.push k l w).looks = s.looks := rfl
@[simp] theorem push_opCache (k : Ctx) (l : Nat) (w : OpKind) : (s.push k l w).opCache = s.opCache := rfl
@[simp] theorem push_coreStamps (k : Ctx) (l : Nat) (w : OpKind) : (s.push k l w).coreStamps = s.coreStamps := rfl
@[simp] theorem push_sectorStamps (k : Ctx) (l : Nat) (w : OpKind) : (s.push k l w).sectorStamps = s.sectorStamps := rfl
@[simp] theorem push_pins (k : Ctx) (l : Nat) (w : OpKind) : (s.push k l w).pins = s.pins := rfl
@[simp] theorem push_decays (k : Ctx) (l : Nat) (w : OpKind) : (s.push k l w).decays = s.decays := rfl
@[simp] theorem push_nextUid (k : Ctx) (l : Nat) (w : OpKind) : (s.push k l w).nextUid = s.nextUid := rfl
@[simp] theorem push_nextAge (k : Ctx) (l : Nat) (w : OpKind) : (s.push k l w).nextAge = s.nextAge := rfl
@[simp] theorem push_launches (k : Ctx) (l : Nat) (w : OpKind) : (s.push k l w).launches = s.launches := rfl
@[simp] theorem push_colls (k : Ctx) (l : Nat) (w : OpKind) : (s.push k l w).colls = s.colls := rfl
@[simp] theorem push_nextColl (k : Ctx) (l : Nat) (w : OpKind) : (s.push k l w).nextColl = s.nextColl := rfl
@[simp] theorem push_nets (k : Ctx) (l : Nat) (w : OpKind) : (s.push k l w).nets = s.nets := rfl
@[simp] theorem push_nextToken (k : Ctx) (l : Nat) (w : OpKind) : (s.push k l w).nextToken = s.nextToken := rfl
@[simp] theorem push_gathered (k : Ctx) (l : Nat) (w : OpKind) : (s.push k l w).gathered = s.gathered := rfl
@[simp] theorem push_residency (k : Ctx) (l : Nat) (w : OpKind) : (s.push k l w).residency = s.residency := rfl
@[simp] theorem push_words (k : Ctx) (l : Nat) (w : OpKind) : (s.push k l w).words = s.words := rfl
@[simp] theorem push_compacts (k : Ctx) (l : Nat) (w : OpKind) : (s.push k l w).compacts = s.compacts := rfl
@[simp] theorem push_parts (k : Ctx) (l : Nat) (w : OpKind) : (s.push k l w).parts = s.parts := rfl
@[simp] theorem push_funcs (k : Ctx) (l : Nat) (w : OpKind) : (s.push k l w).funcs = s.funcs := rfl
@[simp] theorem push_apEn (k : Ctx) (l : Nat) (w : OpKind) : (s.push k l w).apEn = s.apEn := rfl
@[simp] theorem push_apKey (k : Ctx) (l : Nat) (w : OpKind) : (s.push k l w).apKey = s.apKey := rfl
@[simp] theorem push_apPab (k : Ctx) (l : Nat) (w : OpKind) : (s.push k l w).apPab = s.apPab := rfl
@[simp] theorem push_devId (k : Ctx) (l : Nat) (w : OpKind) : (s.push k l w).devId = s.devId := rfl
@[simp] theorem push_routes (k : Ctx) (l : Nat) (w : OpKind) : (s.push k l w).routes = s.routes := rfl
@[simp] theorem push_link (k : Ctx) (l : Nat) (w : OpKind) : (s.push k l w).link = s.link := rfl
@[simp] theorem push_fabric (k : Ctx) (l : Nat) (w : OpKind) : (s.push k l w).fabric = s.fabric := rfl
@[simp] theorem push_hostMsgs (k : Ctx) (l : Nat) (w : OpKind) : (s.push k l w).hostMsgs = s.hostMsgs := rfl
@[simp] theorem push_hostReads (k : Ctx) (l : Nat) (w : OpKind) : (s.push k l w).hostReads = s.hostReads := rfl
@[simp] theorem push_reports (k : Ctx) (l : Nat) (w : OpKind) : (s.push k l w).reports = s.reports := rfl
@[simp] theorem push_agenda (k : Ctx) (l : Nat) (w : OpKind) : (s.push k l w).agenda = s.agenda := rfl
@[simp] theorem push_cur (k : Ctx) (l : Nat) (w : OpKind) : (s.push k l w).cur = s.cur := rfl
@[simp] theorem push_draws (k : Ctx) (l : Nat) (w : OpKind) : (s.push k l w).draws = s.draws := rfl
@[simp] theorem push_late (k : Ctx) (l : Nat) (w : OpKind) : (s.push k l w).late = s.late := rfl
@[simp] theorem push_lags (k : Ctx) (l : Nat) (w : OpKind) : (s.push k l w).lags = s.lags := rfl
@[simp] theorem push_walkFrom (k : Ctx) (l : Nat) (w : OpKind) : (s.push k l w).walkFrom = s.walkFrom := rfl

/-! ### parkAgain -/

@[simp] theorem parkAgain_power (k : Ctx) (l : Nat) (w : Park) : (s.parkAgain k l w).power = s.power := rfl
@[simp] theorem parkAgain_stage (k : Ctx) (l : Nat) (w : Park) : (s.parkAgain k l w).stage = s.stage := rfl
@[simp] theorem parkAgain_err (k : Ctx) (l : Nat) (w : Park) : (s.parkAgain k l w).err = s.err := rfl
@[simp] theorem parkAgain_ready (k : Ctx) (l : Nat) (w : Park) : (s.parkAgain k l w).ready = s.ready := rfl
@[simp] theorem parkAgain_tripped (k : Ctx) (l : Nat) (w : Park) : (s.parkAgain k l w).tripped = s.tripped := rfl
@[simp] theorem parkAgain_plim (k : Ctx) (l : Nat) (w : Park) : (s.parkAgain k l w).plim = s.plim := rfl
@[simp] theorem parkAgain_lowered (k : Ctx) (l : Nat) (w : Park) : (s.parkAgain k l w).lowered = s.lowered := rfl
@[simp] theorem parkAgain_spaced (k : Ctx) (l : Nat) (w : Park) : (s.parkAgain k l w).spaced = s.spaced := rfl
@[simp] theorem parkAgain_sensors (k : Ctx) (l : Nat) (w : Park) : (s.parkAgain k l w).sensors = s.sensors := rfl
@[simp] theorem parkAgain_fabricCounts (k : Ctx) (l : Nat) (w : Park) : (s.parkAgain k l w).fabricCounts = s.fabricCounts := rfl
@[simp] theorem parkAgain_adjusts (k : Ctx) (l : Nat) (w : Park) : (s.parkAgain k l w).adjusts = s.adjusts := rfl
@[simp] theorem parkAgain_retraining (k : Ctx) (l : Nat) (w : Park) : (s.parkAgain k l w).retraining = s.retraining := rfl
@[simp] theorem parkAgain_keys (k : Ctx) (l : Nat) (w : Park) : (s.parkAgain k l w).keys = s.keys := rfl
@[simp] theorem parkAgain_zeroKey (k : Ctx) (l : Nat) (w : Park) : (s.parkAgain k l w).zeroKey = s.zeroKey := rfl
@[simp] theorem parkAgain_dirBase (k : Ctx) (l : Nat) (w : Park) : (s.parkAgain k l w).dirBase = s.dirBase := rfl
@[simp] theorem parkAgain_launchCtr (k : Ctx) (l : Nat) (w : Park) : (s.parkAgain k l w).launchCtr = s.launchCtr := rfl
@[simp] theorem parkAgain_takes (k : Ctx) (l : Nat) (w : Park) : (s.parkAgain k l w).takes = s.takes := rfl
@[simp] theorem parkAgain_cyc (k : Ctx) (l : Nat) (w : Park) : (s.parkAgain k l w).cyc = s.cyc := rfl
@[simp] theorem parkAgain_clk (k : Ctx) (l : Nat) (w : Park) : (s.parkAgain k l w).clk = s.clk := rfl
@[simp] theorem parkAgain_mem (k : Ctx) (l : Nat) (w : Park) : (s.parkAgain k l w).mem = s.mem := rfl
@[simp] theorem parkAgain_log (k : Ctx) (l : Nat) (w : Park) : (s.parkAgain k l w).log = s.log := rfl
@[simp] theorem parkAgain_qkeys (k : Ctx) (l : Nat) (w : Park) : (s.parkAgain k l w).qkeys = s.qkeys := rfl
@[simp] theorem parkAgain_posted (k : Ctx) (l : Nat) (w : Park) : (s.parkAgain k l w).posted = s.posted := rfl
@[simp] theorem parkAgain_hostReqs (k : Ctx) (l : Nat) (w : Park) : (s.parkAgain k l w).hostReqs = s.hostReqs := rfl
@[simp] theorem parkAgain_hostNo (k : Ctx) (l : Nat) (w : Park) : (s.parkAgain k l w).hostNo = s.hostNo := rfl
@[simp] theorem parkAgain_l2 (k : Ctx) (l : Nat) (w : Park) : (s.parkAgain k l w).l2 = s.l2 := rfl
@[simp] theorem parkAgain_l1 (k : Ctx) (l : Nat) (w : Park) : (s.parkAgain k l w).l1 = s.l1 := rfl
@[simp] theorem parkAgain_icache (k : Ctx) (l : Nat) (w : Park) : (s.parkAgain k l w).icache = s.icache := rfl
@[simp] theorem parkAgain_remaps (k : Ctx) (l : Nat) (w : Park) : (s.parkAgain k l w).remaps = s.remaps := rfl
@[simp] theorem parkAgain_victims (k : Ctx) (l : Nat) (w : Park) : (s.parkAgain k l w).victims = s.victims := rfl
@[simp] theorem parkAgain_looks (k : Ctx) (l : Nat) (w : Park) : (s.parkAgain k l w).looks = s.looks := rfl
@[simp] theorem parkAgain_opCache (k : Ctx) (l : Nat) (w : Park) : (s.parkAgain k l w).opCache = s.opCache := rfl
@[simp] theorem parkAgain_coreStamps (k : Ctx) (l : Nat) (w : Park) : (s.parkAgain k l w).coreStamps = s.coreStamps := rfl
@[simp] theorem parkAgain_sectorStamps (k : Ctx) (l : Nat) (w : Park) : (s.parkAgain k l w).sectorStamps = s.sectorStamps := rfl
@[simp] theorem parkAgain_pins (k : Ctx) (l : Nat) (w : Park) : (s.parkAgain k l w).pins = s.pins := rfl
@[simp] theorem parkAgain_decays (k : Ctx) (l : Nat) (w : Park) : (s.parkAgain k l w).decays = s.decays := rfl
@[simp] theorem parkAgain_nextUid (k : Ctx) (l : Nat) (w : Park) : (s.parkAgain k l w).nextUid = s.nextUid := rfl
@[simp] theorem parkAgain_nextAge (k : Ctx) (l : Nat) (w : Park) : (s.parkAgain k l w).nextAge = s.nextAge := rfl
@[simp] theorem parkAgain_launches (k : Ctx) (l : Nat) (w : Park) : (s.parkAgain k l w).launches = s.launches := rfl
@[simp] theorem parkAgain_colls (k : Ctx) (l : Nat) (w : Park) : (s.parkAgain k l w).colls = s.colls := rfl
@[simp] theorem parkAgain_nextColl (k : Ctx) (l : Nat) (w : Park) : (s.parkAgain k l w).nextColl = s.nextColl := rfl
@[simp] theorem parkAgain_nets (k : Ctx) (l : Nat) (w : Park) : (s.parkAgain k l w).nets = s.nets := rfl
@[simp] theorem parkAgain_nextToken (k : Ctx) (l : Nat) (w : Park) : (s.parkAgain k l w).nextToken = s.nextToken := rfl
@[simp] theorem parkAgain_gathered (k : Ctx) (l : Nat) (w : Park) : (s.parkAgain k l w).gathered = s.gathered := rfl
@[simp] theorem parkAgain_residency (k : Ctx) (l : Nat) (w : Park) : (s.parkAgain k l w).residency = s.residency := rfl
@[simp] theorem parkAgain_words (k : Ctx) (l : Nat) (w : Park) : (s.parkAgain k l w).words = s.words := rfl
@[simp] theorem parkAgain_compacts (k : Ctx) (l : Nat) (w : Park) : (s.parkAgain k l w).compacts = s.compacts := rfl
@[simp] theorem parkAgain_parts (k : Ctx) (l : Nat) (w : Park) : (s.parkAgain k l w).parts = s.parts := rfl
@[simp] theorem parkAgain_funcs (k : Ctx) (l : Nat) (w : Park) : (s.parkAgain k l w).funcs = s.funcs := rfl
@[simp] theorem parkAgain_apEn (k : Ctx) (l : Nat) (w : Park) : (s.parkAgain k l w).apEn = s.apEn := rfl
@[simp] theorem parkAgain_apKey (k : Ctx) (l : Nat) (w : Park) : (s.parkAgain k l w).apKey = s.apKey := rfl
@[simp] theorem parkAgain_apPab (k : Ctx) (l : Nat) (w : Park) : (s.parkAgain k l w).apPab = s.apPab := rfl
@[simp] theorem parkAgain_devId (k : Ctx) (l : Nat) (w : Park) : (s.parkAgain k l w).devId = s.devId := rfl
@[simp] theorem parkAgain_routes (k : Ctx) (l : Nat) (w : Park) : (s.parkAgain k l w).routes = s.routes := rfl
@[simp] theorem parkAgain_link (k : Ctx) (l : Nat) (w : Park) : (s.parkAgain k l w).link = s.link := rfl
@[simp] theorem parkAgain_fabric (k : Ctx) (l : Nat) (w : Park) : (s.parkAgain k l w).fabric = s.fabric := rfl
@[simp] theorem parkAgain_hostMsgs (k : Ctx) (l : Nat) (w : Park) : (s.parkAgain k l w).hostMsgs = s.hostMsgs := rfl
@[simp] theorem parkAgain_hostReads (k : Ctx) (l : Nat) (w : Park) : (s.parkAgain k l w).hostReads = s.hostReads := rfl
@[simp] theorem parkAgain_reports (k : Ctx) (l : Nat) (w : Park) : (s.parkAgain k l w).reports = s.reports := rfl
@[simp] theorem parkAgain_agenda (k : Ctx) (l : Nat) (w : Park) : (s.parkAgain k l w).agenda = s.agenda := rfl
@[simp] theorem parkAgain_cur (k : Ctx) (l : Nat) (w : Park) : (s.parkAgain k l w).cur = s.cur := rfl
@[simp] theorem parkAgain_draws (k : Ctx) (l : Nat) (w : Park) : (s.parkAgain k l w).draws = s.draws := rfl
@[simp] theorem parkAgain_late (k : Ctx) (l : Nat) (w : Park) : (s.parkAgain k l w).late = s.late := rfl
@[simp] theorem parkAgain_lags (k : Ctx) (l : Nat) (w : Park) : (s.parkAgain k l w).lags = s.lags := rfl
@[simp] theorem parkAgain_walkFrom (k : Ctx) (l : Nat) (w : Park) : (s.parkAgain k l w).walkFrom = s.walkFrom := rfl

end Sys2Proof.Laws
end

