-- ==== Sys2Proof/Laws/Issue.lean ====
section
/-! SUPPORT. Finding what an update changed, and what issuing an instruction does (05_encoding R69): said once, for every
instruction. -/

namespace Sys2Proof.Laws

open Sys2Proof.Machine

/-! ### Blocks after updates -/

theorem find_map {bs : List Block} {u v : Nat} {f : Block → Block} (hf : ∀ b, (f b).uid = b.uid) :
    (bs.map fun b => if b.uid == u then f b else b).find? (·.uid == v)
      = if v = u then (bs.find? (·.uid == u)).map f else bs.find? (·.uid == v) := by
  have hp : ((·.uid == v) ∘ fun b => if b.uid == u then f b else b) = (·.uid == v) := by
    funext b; simp only [Function.comp]; split <;> simp [hf]
  rw [List.find?_map, hp]
  split
  · rename_i h; subst h
    cases hb : bs.find? (·.uid == v) with
    | none => rfl
    | some b => simp [show b.uid = v by simpa using List.find?_some hb]
  · rename_i h
    cases hb : bs.find? (·.uid == v) with
    | none => rfl
    | some b => simp [show b.uid = v by simpa using List.find?_some hb, h]

/-- A block after a change of one block. -/
theorem block_modBlock (s : State) {u v : Nat} {f : Block → Block} (hf : ∀ b, (f b).uid = b.uid) :
    (s.modBlock u f).block? v = if v = u then (s.block? u).map f else s.block? v := find_map hf

/-- A block after a change of one crew. -/
theorem block_modCrew (s : State) (u c v : Nat) (f : Crew → Crew) :
    (s.modCrew u c f).block? v = if v = u then (s.block? u).map (·.modCrew c f) else s.block? v :=
  block_modBlock s fun _ => rfl

theorem block_uid {s : State} {u : Nat} {b : Block} (h : s.block? u = some b) : b.uid = u := by
  simpa using List.find?_some h

theorem crew_eq {s : State} {u c : Nat} {b : Block} {k : Crew} (hb : s.block? u = some b) (hc : b.crews[c]? = some k) :
    s.crew? u c = some (b, k) := by simp [State.crew?, hb, hc]

theorem block_of_crew {s : State} {u c : Nat} {b : Block} {k : Crew} (h : s.crew? u c = some (b, k)) :
    s.block? u = some b ∧ b.crews[c]? = some k := by
  simp only [State.crew?] at h
  split at h
  · split at h
    · simp only [Option.some.injEq, Prod.mk.injEq] at h
      obtain ⟨rfl, rfl⟩ := h
      exact ⟨by assumption, by assumption⟩
    · cases h
  · cases h

/-! ### The issuing crew -/

/-- What it means that a crew issues. -/
theorem issuing_eq {s : State} {k : Ctx} (h : s.issuing = some k) :
    s.block? k.b.uid = some k.b ∧ k.b.crews[k.ci]? = some k.c ∧ k.c.seq = .visit k.lab k.pc
      ∧ s.cur = some (k.b.uid, k.ci) := by
  simp only [State.issuing] at h
  split at h
  · cases h
  · rename_i u ci hcur
    split at h
    · cases h
    · rename_i b c hcr
      split at h
      · rename_i lab pc hs
        simp only [Option.some.injEq] at h
        subst h
        obtain ⟨hb, hc⟩ := block_of_crew hcr
        have := block_uid hb
        subst this
        exact ⟨hb, hc, hs, hcur⟩
      · cases h

/-! ### Counting -/

theorem bump_blocks (s : State) (v i : Nat) : (s.bump v i).blocks = s.blocks := by
  simp only [State.bump]; repeat' split
  all_goals simp

theorem sameDevice_refl (s : State) : SameDevice s s := ⟨rfl⟩

theorem sameDevice_trans {s t u : State} (h : SameDevice s t) (h' : SameDevice t u) : SameDevice s u := by
  have e : ({ u with blocks := s.blocks, funcs := s.funcs, hostMsgs := s.hostMsgs } : State)
      = { ({ u with blocks := t.blocks, funcs := t.funcs, hostMsgs := t.hostMsgs } : State) with
          blocks := s.blocks, funcs := s.funcs, hostMsgs := s.hostMsgs } := rfl
  exact ⟨by rw [e, h'.same, h.same]⟩

theorem sameDevice_modBlock (s : State) (u : Nat) (f : Block → Block) : SameDevice s (s.modBlock u f) := ⟨rfl⟩
theorem sameDevice_modFunc (s : State) (v : Nat) (f : Func → Func) : SameDevice s (s.modFunc v f) := ⟨rfl⟩
theorem sameDevice_interrupt (s : State) (p v k : Nat) (d : DWord) : SameDevice s (s.interrupt p v k d) := ⟨rfl⟩

theorem bump_device (s : State) (v i : Nat) : SameDevice s (s.bump v i) := by
  simp only [State.bump]
  split
  · split
    · exact sameDevice_modFunc s v _
    · exact sameDevice_trans (sameDevice_trans (sameDevice_modFunc s v _) (sameDevice_modFunc _ v _)) (sameDevice_interrupt _ _ _ _ _)
  · exact sameDevice_modFunc s v _

theorem foldl_blocks {α : Type} (f : State → α → State) (hf : ∀ s a, (f s a).blocks = s.blocks) :
    ∀ (l : List α) (s : State), (l.foldl f s).blocks = s.blocks
  | [], _ => rfl
  | a :: l, s => (foldl_blocks f hf l (f s a)).trans (hf s a)

theorem foldl_device {α : Type} (f : State → α → State) (hf : ∀ s a, SameDevice s (f s a)) :
    ∀ (l : List α) (s : State), SameDevice s (l.foldl f s)
  | [], s => sameDevice_refl s
  | a :: l, s => sameDevice_trans (hf s a) (foldl_device f hf l (f s a))

@[simp] theorem count_blocks (s : State) (v e : Nat) (ok : Nat → Bool) : (s.count v e ok).blocks = s.blocks := by
  simp only [State.count]
  split
  · refine foldl_blocks _ (fun s a => ?_) _ _
    split
    · exact bump_blocks s v a
    · rfl
  · rfl

/-- Counting changes counters and the messages of those that wrapped, and nothing else (R367). -/
theorem count_device (s : State) (v e : Nat) (ok : Nat → Bool) : SameDevice s (s.count v e ok) := by
  simp only [State.count]
  split
  · refine foldl_device _ (fun s a => ?_) _ _
    split
    · exact bump_device s v a
    · exact sameDevice_refl s
  · exact sameDevice_refl s

/-- What home memory reads as depends on nothing that a crew's step changes. -/
theorem sameDevice_memory {s t : State} (h : SameDevice s t) : SameMemory s t := by
  intro slot time a
  have e : t.readAt slot time a = ({ t with blocks := s.blocks, funcs := s.funcs, hostMsgs := s.hostMsgs } : State).readAt slot time a := rfl
  rw [e, h.same]

/-! ### Updates one after another -/

theorem modBlock_modBlock (s : State) (u : Nat) (f g : Block → Block) (hf : ∀ b, (f b).uid = b.uid) :
    (s.modBlock u f).modBlock u g = s.modBlock u fun b => g (f b) := by
  simp only [State.modBlock, List.map_map]
  congr 1
  apply List.map_congr_left
  intro b _
  simp only [Function.comp]
  by_cases h : b.uid = u
  · simp [h, hf]
  · simp [h]

theorem modCrew_modCrew (s : State) (u c : Nat) (f g : Crew → Crew) :
    (s.modCrew u c f).modCrew u c g = s.modCrew u c fun x => g (f x) := by
  simp only [State.modCrew]
  rw [modBlock_modBlock]
  · congr 1; funext b; simp only [Block.modCrew, List.modify_modify_eq]; rfl
  · exact fun _ => rfl

theorem modBlock_id (s : State) (u : Nat) {f : Block → Block} (hf : ∀ b, f b = b) : s.modBlock u f = s := by
  have : (fun b : Block => if b.uid == u then f b else b) = id := by funext b; simp [hf]
  simp only [State.modBlock, this, List.map_id]

theorem modCrew_id (s : State) (u c : Nat) {f : Crew → Crew} (hf : ∀ x, f x = x) : s.modCrew u c f = s := by
  refine modBlock_id s u fun b => ?_
  have : f = id := funext hf
  subst this
  simp [Block.modCrew]

/-! ### Issuing (R69) -/

/-- Counting an instruction leaves every block as it is (R386). -/
@[simp] theorem countIssue_block (s : State) (k : Ctx) (i : Instr) (v : Nat) : (s.countIssue k i).block? v = s.block? v := by
  simp [State.countIssue, State.block?]

/-- Counting an instruction changes counters and the messages of those that wrapped, and nothing else (R367, R386). -/
theorem countIssue_device (s : State) (k : Ctx) (i : Instr) : SameDevice s (s.countIssue k i) := by
  unfold State.countIssue
  exact count_device _ _ _ _

/-- An instruction that issues has its effect, the crew goes on after it, and the instruction is counted. -/
theorem issue_eq {i : Instr} {eff : Ctx → State → State} {s : State} {k : Ctx} (h : Issues s k i) :
    issue i eff s = .next (((eff k (s.begun k i)).modCur k (·.advance k i.len)).countIssue k i) := by
  simp [issue, h.now, h.legal, h.permitted]

/-- With no crew in a visit nothing issues (log 1). -/
theorem issue_none {i : Instr} {eff : Ctx → State → State} {s : State} (h : s.issuing = none) : issue i eff s = .next s := by
  simp [issue, h]

theorem modify_set {α : Type} {l : List α} {i : Nat} {x : α} (f : α → α) (h : l[i]? = some x) : l.modify i f = l.set i (f x) := by
  induction l generalizing i with
  | nil => simp at h
  | cons y l ih =>
    cases i with
    | zero => simp at h; subst h; rfl
    | succ i => simpa using ih (by simpa using h)

/-- The state in which an instruction has its effect: only the issuing crew has changed, and only its counts (R69). -/
theorem begun_eq (s : State) (k : Ctx) (i : Instr) : s.begun k i = s.modCrew k.b.uid k.ci fun c =>
    { c with
      ins := c.ins + 1, promoted := false, since := s.cyc
      busy := max c.busy (s.cyc + k.c.eighths * i.cost.1 + i.cost.2 + s.late)
      skid := if k.b.abort.isSome then c.skid + 1 else c.skid } := by
  simp only [State.begun, State.noteIssue, State.modCur, modCrew_modCrew]

theorem block_begun {s : State} {k : Ctx} {i : Instr} (h : s.issuing = some k) (v : Nat) : (s.begun k i).block? v
    = if v = k.b.uid then some { k.b with crews := k.b.crews.set k.ci (k.begun s i) } else s.block? v := by
  obtain ⟨hb, hc, -, -⟩ := issuing_eq h
  rw [begun_eq, block_modCrew, hb, Option.map_some, Block.modCrew, modify_set _ hc]
  rfl

/-- An effect on the issuing crew, and on the matrix commands its block has open: they become what the effect makes of them, and nothing
else changes. -/
theorem issue_block {i : Instr} {eff : Ctx → State → State} {f : Crew → Crew} {p : Block → List MOpen} {q : List MOpen} {s : State} {k : Ctx}
    (h : Issues s k i)
    (he : eff k (s.begun k i) = ((s.begun k i).modBlock k.b.uid fun b => { b with pending := p b }).modCur k f)
    (hp : p { k.b with crews := k.b.crews.set k.ci (k.begun s i) } = q) (hf : (f (k.begun s i)).seq = .visit k.lab k.pc) :
    ∃ t, issue i eff s = .next t ∧ CrewBecomes s t { k with b := { k.b with pending := q } }
      { f (k.begun s i) with seq := .visit k.lab (BitVec.ofNat 32 (slotAfter k.pc.toNat i.len)) } := by
  obtain ⟨-, hc, -, -⟩ := issuing_eq h.now
  refine ⟨_, issue_eq h, ?_⟩
  rw [he]
  have hdev : SameDevice s ((((((s.begun k i).modBlock k.b.uid fun b => { b with pending := p b }).modCur k f)).modCur k
      (·.advance k i.len)).countIssue k i) := by
    refine sameDevice_trans ?_ (countIssue_device _ _ _)
    rw [begun_eq]
    exact sameDevice_trans (sameDevice_modBlock _ _ _) (sameDevice_trans (sameDevice_modBlock _ _ _)
      (sameDevice_trans (sameDevice_modBlock _ _ _) (sameDevice_modBlock _ _ _)))
  have hblk : ∀ (t : State) (v : Nat), (t.modBlock k.b.uid fun b => { b with pending := p b }).block? v
      = if v = k.b.uid then (t.block? k.b.uid).map (fun b => { b with pending := p b }) else t.block? v := fun t v => block_modBlock t fun _ => rfl
  refine ⟨hdev, sameDevice_memory hdev, fun u hu => ?_, ?_⟩
  · have hu' : ¬ u = k.b.uid := hu
    simp only [countIssue_block, State.modCur, block_modCrew, hblk, block_begun h.now, hu', if_false]
  · show (State.countIssue _ _ _).block? k.b.uid = _
    simp only [countIssue_block, State.modCur, block_modCrew, hblk, block_begun h.now, if_true, Option.map_some, Option.some.injEq,
      Block.modCrew, List.modify_modify_eq, hp]
    congr 1
    rw [modify_set _ (x := k.begun s i) (by
      have := (List.getElem?_eq_some_iff.mp hc).1
      simp [this])]
    rw [List.set_set]
    congr 1
    show (f (k.begun s i)).advance k i.len = _
    simp only [Crew.advance, hf]

/-- An effect on the issuing crew alone: the crew becomes what the effect makes of it, and nothing else changes. -/
theorem issue_crew {i : Instr} {eff : Ctx → State → State} {f : Crew → Crew} {s : State} {k : Ctx} (h : Issues s k i)
    (he : eff k (s.begun k i) = (s.begun k i).modCur k f) (hf : (f (k.begun s i)).seq = .visit k.lab k.pc) :
    ∃ t, issue i eff s = .next t ∧ CrewBecomes s t k
      { f (k.begun s i) with seq := .visit k.lab (BitVec.ofNat 32 (slotAfter k.pc.toNat i.len)) } := by
  refine issue_block (p := fun b => b.pending) (q := k.b.pending) h ?_ rfl hf
  rw [modBlock_id _ _ fun _ => rfl]
  exact he

/-- The same, for an effect that is written as one. -/
theorem issue_modCur {i : Instr} {f : Crew → Crew} {s : State} {k : Ctx} (h : Issues s k i) {lanes : List Lane} {sregs : List Word}
    (hf : f (k.begun s i) = { k.begun s i with lanes := lanes, s := sregs }) :
    ∃ t, issue i (fun k s => s.modCur k f) s = .next t ∧ CrewStep s t k i lanes sregs := by
  have hs : (f (k.begun s i)).seq = .visit k.lab k.pc := by rw [hf]; exact (issuing_eq h.now).2.2.1
  obtain ⟨t, ht, hc⟩ := issue_crew (i := i) (eff := fun k s => s.modCur k f) h rfl hs
  rw [hf] at hc
  exact ⟨t, ht, hc⟩

/-! ### Queues (R166) -/

/-- Pushing an operation for each of some lanes. -/
theorem forLanes_push (k : Ctx) (w : Nat → Lane → OpKind) : ∀ (ls : List (Nat × Lane)) (s : State),
    s.forLanes ls (fun s j l => s.push k j (w j l))
      = s.modCur k fun c => { c with queue := c.queue ++ ls.map fun p => ⟨c.ins, p.1, k.pc, k.lab, w p.1 p.2⟩ }
  | [], s => (modCrew_id s _ _ fun _ => by simp).symm
  | p :: ls, s => by
    have e : s.forLanes (p :: ls) (fun s j l => s.push k j (w j l))
        = (s.push k p.1 (w p.1 p.2)).forLanes ls fun s j l => s.push k j (w j l) := rfl
    rw [e, forLanes_push k w ls, State.push, State.modCur, State.modCur, modCrew_modCrew, State.modCur]
    congr 1
    funext c
    simp

/-- The context is as it was where the instruction opens no matrix command. -/
theorem opened_none {i : Instr} (hw : i.written = []) (k : Ctx) (s : State) (ws : List (Nat × OpKind)) : k.opened s i ws = k := by
  simp [Ctx.opened, hw]

@[simp] theorem opened_nil (k : Ctx) (s : State) (i : Instr) : k.opened s i [] = k := by simp [Ctx.opened]

/-- An instruction whose effect is to queue operations, and then perhaps to change rewind points. -/
theorem queueStep_of {i : Instr} {eff : Ctx → State → State} {s : State} {k : Ctx} {ws : List (Nat × OpKind)} {p : Lane → Lane}
    (h : Issues s k i) (hw : k.opened s i ws = k) (he : eff k (s.begun k i) = (s.begun k i).modCur k fun c =>
      { c with queue := c.queue ++ ws.map (fun x => ⟨c.ins, x.1, k.pc, k.lab, x.2⟩), lanes := c.lanes.map p })
    (hp : ∀ l, (p l).noPoint = l.noPoint) : ∃ t, issue i eff s = .next t ∧ QueueStep s t k i ws := by
  obtain ⟨t, ht, hc⟩ := issue_crew h he (issuing_eq h.now).2.2.1
  refine ⟨t, ht, k.c.lanes.map p, ?_, ?_⟩
  · rw [List.map_map]
    exact List.map_congr_left fun l _ => hp l
  · rw [hw]; exact hc

theorem passImplicit_eq (s : State) (k : Ctx) (g : Guard) (len : Nat) : s.passImplicit k g len
    = s.modCur k fun c => { c with lanes := c.lanes.map fun l => if l.takes g then l.implicitPoint (s.after k len l.wl) else l } := by
  simp only [State.passImplicit, Crew.mapLanes]
  congr 1; funext c; congr 1
  apply List.ext_getElem?; intro j; simp

theorem implicit_noPoint (l : Lane) (g : Guard) (q : Word × Word) : ((if l.takes g then l.implicitPoint q else l) : Lane).noPoint = l.noPoint := by
  split <;> rfl

/-- Instructions whose lanes each queue one operation. -/
theorem issueLanes_queue {i : Instr} {ls : Crew → List (Nat × Lane)} {f : Ctx → State → Nat → Lane → State} {s : State} {k : Ctx}
    {w : Nat → Lane → OpKind} (hw : i.written = []) (h : Issues s k i) (hf : ∀ p ∈ ls k.c, ∀ s, f k s p.1 p.2 = s.push k p.1 (w p.1 p.2)) :
    ∃ t, issueLanes i ls f s = .next t ∧ QueueStep s t k i ((ls k.c).map fun p => (p.1, w p.1 p.2)) := by
  refine queueStep_of (p := id) h (opened_none hw _ _ _) ?_ fun _ => rfl
  have e : ∀ (qs : List (Nat × Lane)), (∀ p ∈ qs, ∀ s, f k s p.1 p.2 = s.push k p.1 (w p.1 p.2)) → ∀ s : State,
      s.forLanes qs (f k) = s.forLanes qs fun s j l => s.push k j (w j l) := by
    intro qs
    induction qs with
    | nil => intros; rfl
    | cons p qs ih =>
      intro hq s
      have := ih (fun p' hp' => hq p' (List.mem_cons_of_mem _ hp')) (s.push k p.1 (w p.1 p.2))
      simp only [State.forLanes, List.foldl_cons, hq p List.mem_cons_self] at this ⊢
      exact this
  rw [e _ hf, forLanes_push]
  congr 1; funext c; simp

/-- The same, where the active lanes then pass an implicit rewind point. -/
theorem issueOnce_queue {i : Instr} {ls : Crew → List (Nat × Lane)} {f : Ctx → State → Nat → Lane → State} {s : State} {k : Ctx}
    {w : Nat → Lane → OpKind} (hw : i.written = []) (h : Issues s k i) (hf : ∀ p ∈ ls k.c, ∀ s, f k s p.1 p.2 = s.push k p.1 (w p.1 p.2)) :
    ∃ t, issueOnce i ls f s = .next t ∧ QueueStep s t k i ((ls k.c).map fun p => (p.1, w p.1 p.2)) := by
  have e : ∀ (qs : List (Nat × Lane)), (∀ p ∈ qs, ∀ s, f k s p.1 p.2 = s.push k p.1 (w p.1 p.2)) → ∀ s : State,
      s.forLanes qs (f k) = s.forLanes qs fun s j l => s.push k j (w j l) := by
    intro qs
    induction qs with
    | nil => intros; rfl
    | cons p qs ih =>
      intro hq s
      have := ih (fun p' hp' => hq p' (List.mem_cons_of_mem _ hp')) (s.push k p.1 (w p.1 p.2))
      simp only [State.forLanes, List.foldl_cons, hq p List.mem_cons_self] at this ⊢
      exact this
  refine queueStep_of (ws := (ls k.c).map fun p => (p.1, w p.1 p.2)) (p := fun l => if l.takes i.guard then l.implicitPoint
    ((((s.begun k i).forLanes (ls k.c) fun s j l => s.push k j (w j l)).after k i.len l.wl)) else l) h
    (opened_none hw _ _ _) ?_ fun l => implicit_noPoint l _ _
  simp only [e _ hf]
  rw [passImplicit_eq]
  generalize ((s.begun k i).forLanes (ls k.c) fun s j l => s.push k j (w j l)).after k i.len = aft
  rw [forLanes_push, State.modCur, State.modCur, modCrew_modCrew, State.modCur]
  congr 1; funext c; simp

/-- Opening a command is a change of the block's open commands, and of nothing where the instruction opens none. -/
theorem noteOpen_eq (s : State) (k : Ctx) (i : Instr) : s.noteOpen k i = s.modBlock k.b.uid fun b => { b with
    pending := if i.written.isEmpty then b.pending
      else ⟨k.ci, ((b.crews[k.ci]?).map Crew.ins).getD 0, i.written, b.turns, s.now, b.spLog.length⟩ :: b.pending } := by
  simp only [State.noteOpen]
  split
  · exact (modBlock_id _ _ fun _ => rfl).symm
  · rfl

/-- An engine or system instruction. -/
theorem issueEngine_result {i : Instr} {imp : Bool} {vals : Crew → Lane → List DWord}
    (hi : ∀ s, exec i s = issueEngine i imp vals s) : EngineResult i vals := by
  intro s k h _
  obtain ⟨-, hc, -, -⟩ := issuing_eq h.now
  have hlen := (List.getElem?_eq_some_iff.mp hc).1
  rw [hi, issueEngine]
  cases ht : k.c.takers i.guard with
  | nil =>
    simp only [ht]
    refine queueStep_of (ws := []) (p := id) h (opened_nil _ _ _) ?_ fun _ => rfl
    simp only [ht]
    exact (modCrew_id _ _ _ fun _ => by simp).symm
  | cons x r =>
    simp only [ht]
    have hp : (if i.written.isEmpty then ({ k.b with crews := k.b.crews.set k.ci (k.begun s i) } : Block).pending
        else ⟨k.ci, ((({ k.b with crews := k.b.crews.set k.ci (k.begun s i) } : Block).crews[k.ci]?).map Crew.ins).getD 0, i.written,
          ({ k.b with crews := k.b.crews.set k.ci (k.begun s i) } : Block).turns, (s.begun k i).now,
          ({ k.b with crews := k.b.crews.set k.ci (k.begun s i) } : Block).spLog.length⟩
          :: ({ k.b with crews := k.b.crews.set k.ci (k.begun s i) } : Block).pending)
        = (k.opened s i [(x.1, .instr i (vals k.c x.2))]).b.pending := by
      simp only [Ctx.opened, List.isEmpty_cons, Bool.or_false]
      split <;> rename_i hw
      · rfl
      · have hn : (s.begun k i).now = s.now := by rw [begun_eq]; rfl
        simp [hlen, hn, Ctx.begun]
    have hq : { k with b := { k.b with pending := (k.opened s i [(x.1, .instr i (vals k.c x.2))]).b.pending } }
        = k.opened s i [(x.1, .instr i (vals k.c x.2))] := by
      simp only [Ctx.opened]; split <;> rfl
    have main : ∀ (p : Lane → Lane), (∀ l, (p l).noPoint = l.noPoint) →
        ∀ {eff : Ctx → State → State}, (eff k (s.begun k i) = ((s.begun k i).noteOpen k i).modCur k fun c =>
          { c with queue := c.queue ++ [⟨c.ins, x.1, k.pc, k.lab, .instr i (vals k.c x.2)⟩], lanes := c.lanes.map p }) →
        ∃ t, issue i eff s = .next t ∧ QueueStep s t k i [(x.1, .instr i (vals k.c x.2))] := by
      intro p hpt eff he
      rw [noteOpen_eq] at he
      obtain ⟨t, ht, hb⟩ := issue_block h he hp (issuing_eq h.now).2.2.1
      rw [hq] at hb
      exact ⟨t, ht, k.c.lanes.map p, by rw [List.map_map]; exact List.map_congr_left fun l _ => hpt l, hb⟩
    cases imp with
    | false =>
      refine main id (fun _ => rfl) ?_
      simp [ht, State.push]
    | true =>
      refine main (fun l => if l.takes i.guard then l.implicitPoint
        ((((s.begun k i).noteOpen k i).push k x.1 (.instr i (vals k.c x.2))).after k i.len l.wl) else l)
        (fun l => implicit_noPoint l _ _) ?_
      simp only [ht, if_true]
      rw [passImplicit_eq]
      generalize (((s.begun k i).noteOpen k i).push k x.1 (.instr i (vals k.c x.2))).after k i.len = aft
      simp only [State.push, State.modCur, modCrew_modCrew]

/-! ### The forms in which register instructions act (R56, R92) -/

/-- An instruction that acts in each guard-true active lane by itself. -/
theorem eachLane_result {i : Instr} {f : Crew → Nat → Lane → Lane} (hi : ∀ s, exec i s
      = issue i (fun k s => s.modCur k fun c => c.eachLane i.guard (f c)) s)
    (hf : ∀ (k : Ctx) s j l, f (k.begun s i) j l = f k.c j l) : LaneResult i f := by
  intro s k h
  rw [hi]
  refine issue_modCur h ?_
  simp only [Crew.eachLane, Crew.mapLanes, hf]
  rfl

theorem putS_begun (k : Ctx) (s : State) (i : Instr) (g : Guard) (w64 : Bool) (d : Reg) (val : Lane → Val) :
    (k.begun s i).putS g w64 d val = match k.c.takers g with
      | [] => k.begun s i
      | (j, l) :: _ =>
        { k.begun s i with
          lanes := k.c.lanes.modify j fun x => { x with rng := (val l l.rng).2 }
          s := (if w64 then k.c.wrS64 d (val l l.rng).1 else k.c.wrS d (bits (val l l.rng).1 0 32)).s } := by
  have e : (k.begun s i).takers g = k.c.takers g := rfl
  cases ht : k.c.takers g with
  | nil => simp only [Crew.putS, e, ht]
  | cons p r => simp only [Crew.putS, e, ht]; cases w64 <;> cases d <;> rfl

/-- A register instruction: the value goes to the register or pair of each guard-true active lane, or once to the crew's. -/
theorem issueAlu_result {i : Instr} {w64 : Bool} {d : Reg} {val : Crew → Lane → Val} (hi : ∀ s, exec i s = issueAlu i w64 d val s)
    (hv : ∀ (k : Ctx) s l, val (k.begun s i) l = val k.c l) : RegisterResult i w64 d val := by
  intro s k h
  rw [hi, issueAlu]
  cases hd : d.isS with
  | false =>
    simp only [Bool.false_eq_true, if_false]
    refine issue_modCur h ?_
    simp only [Crew.alu, hd, Bool.false_eq_true, if_false, Crew.eachLane, Crew.mapLanes, hv]
    have : ∀ (ls : List Lane) (p : Lane → Lane), (ls.mapIdx fun _ l => p l) = ls.map p := fun ls p => by
      apply List.ext_getElem?; intro j; simp
    rw [this]
    rfl
  | true =>
    simp only [if_true]
    have e : (k.begun s i).alu i.guard w64 d val = (k.begun s i).putS i.guard w64 d (val k.c) := by
      simp only [Crew.alu, hd, if_true]
      congr 1
      funext l
      exact hv k s l
    split
    · rename_i ht
      refine issue_modCur h ?_
      rw [e, putS_begun, ht]
      rfl
    · rename_i j l r ht
      refine issue_modCur h ?_
      rw [e, putS_begun, ht]

/-- The same for an integer result. -/
theorem issueInt_result {i : Instr} {t : Ty} {d : Reg} {val : Crew → Lane → Int} (hi : ∀ s, exec i s = issueInt i t d val s)
    (hv : ∀ (k : Ctx) s l, val (k.begun s i) l = val k.c l) : IntegerResult i t d val :=
  issueAlu_result hi fun k s l => by rw [hv]

/-- A wrapped integer wraps to itself (R73). -/
theorem wrapTo_wrapTo (t : Ty) (n : Int) : wrapTo t (wrapTo t n) = wrapTo t n := by
  unfold wrapTo
  split
  · simp
  · simp only [BitVec.ofInt_natCast, BitVec.ofNat_toNat, BitVec.setWidth_eq]

end Sys2Proof.Laws
end

