-- ==== Sys2Proof/Laws/Memory.lean ====
section
/-! SUPPORT. The canonical memories: every write keeps the form, a read after a write to the same place gives the value
written, and a write leaves every other place alone (11_ordering R165). -/

namespace Sys2Proof.Laws

open Sys2Proof.Machine

/-! ### The canonical form -/

/-- What the first address of a canonical tail must be above. -/
def above (a : Nat) : List Host.Cell → Prop
  | [] => True
  | c :: _ => a < c.1

theorem memWf_cons {a : Nat} {v : Byte} {r : List Host.Cell} :
    memWf ((a, v) :: r) = true ↔ v ≠ unlisted ∧ above a r ∧ memWf r = true := by
  cases r with
  | nil => simp [memWf, above]
  | cons c r => rcases c with ⟨b, w⟩; simp [memWf, above]; tauto

theorem above_memWrite {a b : Nat} {x : Byte} : ∀ {m : List Host.Cell}, above b m → b < a → memWf m = true →
    above b (memWrite m a x)
  | [], _, h, _ => by simp only [memWrite]; split <;> simp [above, h]
  | (c, v) :: r, hm, h, hw => by
    obtain ⟨_, hr, _⟩ := memWf_cons.1 hw
    simp only [above] at hm
    simp only [memWrite]
    split
    · split <;> simp [above, h, hm]
    · split
      · split
        · cases r with
          | nil => trivial
          | cons d r => simp only [above] at hr ⊢; omega
        · simp [above, h]
      · simp [above, hm]

/-- A write keeps the canonical form. -/
theorem memWf_memWrite {a : Nat} {x : Byte} : ∀ {m : List Host.Cell}, memWf m = true → memWf (memWrite m a x) = true
  | [], _ => by
    simp only [memWrite]
    split
    · rfl
    · rename_i h; simpa [memWf] using h
  | (b, v) :: r, h => by
    obtain ⟨hv, hr, hw⟩ := memWf_cons.1 h
    simp only [memWrite]
    split
    · split
      · exact h
      · rename_i hab hx; exact memWf_cons.2 ⟨by simpa using hx, hab, h⟩
    · split
      · rename_i hab; subst hab
        split
        · exact hw
        · rename_i hx; exact memWf_cons.2 ⟨by simpa using hx, hr, hw⟩
      · rename_i h1 h2
        exact memWf_cons.2 ⟨hv, above_memWrite hr (by omega) hw, memWf_memWrite hw⟩

/-- Writes one after another keep the canonical form. -/
theorem memWf_memWrites {cs : List Host.Cell} : ∀ {m : List Host.Cell}, memWf m = true → memWf (memWrites m cs) = true := by
  induction cs with
  | nil => intro m h; exact h
  | cons c cs ih => intro m h; exact ih (m := memWrite m c.1 c.2) (memWf_memWrite h)

/-! ### Reads after writes -/

theorem memRead_below {a : Nat} : ∀ {m : List Host.Cell}, above a m → memWf m = true → memRead m a = unlisted
  | [], _, _ => rfl
  | (b, v) :: r, h, _ => by
    simp only [above] at h
    simp [memRead, show a ≠ b by omega, h]

/-- A read after a write to the same place gives the value written. -/
theorem memRead_memWrite_same {a : Nat} {x : Byte} : ∀ {m : List Host.Cell}, memWf m = true →
    memRead (memWrite m a x) a = x
  | [], _ => by
    simp only [memWrite]
    split
    · rename_i h; simp [memRead, eq_of_beq h]
    · simp [memRead]
  | (b, v) :: r, h => by
    obtain ⟨_, hr, hw⟩ := memWf_cons.1 h
    simp only [memWrite]
    split
    · rename_i hab
      split
      · rename_i hx; simp [memRead, show a ≠ b by omega, hab, eq_of_beq hx]
      · simp [memRead]
    · split
      · rename_i hab; subst hab
        split
        · rename_i hx; rw [memRead_below hr hw, eq_of_beq hx]
        · simp [memRead]
      · rename_i h1 h2
        simp [memRead, h2, h1, memRead_memWrite_same hw]

/-- A write leaves every other place alone. -/
theorem memRead_memWrite_ne {a b : Nat} {x : Byte} (hab : b ≠ a) : ∀ {m : List Host.Cell}, memWf m = true →
    memRead (memWrite m a x) b = memRead m b
  | [], _ => by
    simp only [memWrite]
    split
    · rfl
    · simp [memRead, hab]
  | (c, v) :: r, h => by
    obtain ⟨_, hr, hw⟩ := memWf_cons.1 h
    simp only [memWrite]
    split
    · rename_i hac
      split
      · rfl
      · simp only [memRead, hab, if_false]
        split
        · rename_i hba; simp [show b ≠ c by omega, show b < c by omega]
        · rfl
    · split
      · rename_i hac; subst hac
        split
        · simp only [memRead, hab, if_false]
          split
          · rename_i hba
            refine memRead_below ?_ hw
            cases r with
            | nil => trivial
            | cons d r => simp only [above] at hr ⊢; omega
          · rfl
        · simp [memRead, hab]
      · simp [memRead, memRead_memWrite_ne hab hw]

/-- Writes leave every place alone that none of them names. -/
theorem memRead_memWrites_ne {a : Nat} {cs : List Host.Cell} (h : ∀ c ∈ cs, c.1 ≠ a) : ∀ {m : List Host.Cell},
    memWf m = true → memRead (memWrites m cs) a = memRead m a := by
  induction cs with
  | nil => intro m _; rfl
  | cons c cs ih =>
    intro m hm
    have := ih (fun c' hc => h c' (List.mem_cons_of_mem _ hc)) (m := memWrite m c.1 c.2) (memWf_memWrite hm)
    rw [memRead_memWrite_ne (Ne.symm (h c List.mem_cons_self)) hm] at this
    exact this

/-! ### Home memory -/

@[simp] theorem writeHome_mem (s : State) (slot : Nat) (cs : List Host.Cell) : (s.writeHome slot cs).mem = memWrites s.mem cs := rfl
@[simp] theorem writeHome_log (s : State) (slot : Nat) (cs : List Host.Cell) : (s.writeHome slot cs).log = cs :: s.log := rfl

/-- Home writes keep the canonical form. -/
theorem writeHome_memWf {s : State} (slot : Nat) (cs : List Host.Cell) (h : memWf s.mem = true) :
    memWf (s.writeHome slot cs).mem = true := memWf_memWrites h

theorem putHome_memWf {s : State} (slot a n x : Nat) (h : memWf s.mem = true) :
    memWf (s.putHome slot a n x).mem = true := writeHome_memWf slot _ h

/-- Home time advances by one with each home write (R165). -/
@[simp] theorem writeHome_now (s : State) (slot : Nat) (cs : List Host.Cell) : (s.writeHome slot cs).now = s.now + 1 := rfl

end Sys2Proof.Laws
end

