-- ==== Sys2Proof/Laws/Home.lean ====
section
/-! SUPPORT. What home memory reads as after a home write, through the key slot it was written by (11_ordering R165; 20_ranges
R326). -/

namespace Sys2Proof.Laws

open Sys2Proof.Machine

/-- A byte after writes one after another is the newest one of it, or the byte before. -/
theorem memRead_memWrites (a : Nat) : ∀ (cs : List Host.Cell) {m : List Host.Cell}, memWf m = true →
    memRead (memWrites m cs) a = ((cs.reverse.find? (·.1 == a)).map (·.2)).getD (memRead m a)
  | [], _, _ => rfl
  | c :: cs, m, h => by
    have e : memWrites m (c :: cs) = memWrites (memWrite m c.1 c.2) cs := rfl
    rw [e, memRead_memWrites a cs (memWf_memWrite h), List.reverse_cons, List.find?_append]
    cases hf : cs.reverse.find? (·.1 == a) with
    | some d => simp
    | none =>
      by_cases hc : c.1 = a
      · subst hc; simp [memRead_memWrite_same h]
      · have hb : (c.1 == a) = false := by simpa using hc
        simp [hb, memRead_memWrite_ne (Ne.symm hc) h]

theorem cellsOf_get (a : Nat) (bs : List Byte) (i : Nat) : (cellsOf a bs)[i]? = bs[i]?.map fun b => (a + i, b) := by
  simp [cellsOf, List.getElem?_mapIdx]

theorem mem_cellsOf {a : Nat} {bs : List Byte} {c : Host.Cell} : c ∈ cellsOf a bs ↔ ∃ i, bs[i]? = some c.2 ∧ c.1 = a + i := by
  rw [List.mem_iff_getElem?]
  constructor
  · rintro ⟨i, h⟩
    rw [cellsOf_get, Option.map_eq_some_iff] at h
    obtain ⟨b, hb, rfl⟩ := h
    exact ⟨i, hb, rfl⟩
  · rintro ⟨i, hb, hc⟩
    exact ⟨i, by rw [cellsOf_get, hb]; simp [← hc]⟩

/-- The newest cell of an address among those of a run of bytes. -/
theorem find_cellsOf (a : Nat) (bs : List Byte) (i : Nat) (b : Byte) (h : bs[i]? = some b) :
    (cellsOf a bs).reverse.find? (·.1 == a + i) = some (a + i, b) := by
  cases hf : (cellsOf a bs).reverse.find? (·.1 == a + i) with
  | none =>
    rw [List.find?_eq_none] at hf
    have : (a + i, b) ∈ (cellsOf a bs).reverse := List.mem_reverse.mpr (mem_cellsOf.mpr ⟨i, h, rfl⟩)
    exact absurd (hf _ this) (by simp)
  | some c =>
    have hc := List.find?_some hf
    obtain ⟨j, hj, hcj⟩ := mem_cellsOf.mp (List.mem_reverse.mp (List.mem_of_find?_eq_some hf))
    have hci : c.1 = a + i := by simpa using hc
    have : j = i := by omega
    subst this
    rw [hj] at h
    simp only [Option.some.injEq] at h
    rw [← h, ← hci]

theorem find_cellsOf_none (a : Nat) (bs : List Byte) (y : Nat) (h : y < a ∨ a + bs.length ≤ y) :
    (cellsOf a bs).reverse.find? (·.1 == y) = none := by
  rw [List.find?_eq_none]
  intro c hc
  obtain ⟨j, hj, hcj⟩ := mem_cellsOf.mp (List.mem_reverse.mp hc)
  have := (List.getElem?_eq_some_iff.mp hj).1
  simp; omega

theorem byteAt_now (s : State) (a : Nat) : s.byteAt s.now a = memRead s.mem a := by simp [State.byteAt]

/-- A byte's newest value after a home write. -/
theorem writeHome_byteAt {s : State} (slot : Nat) (cs : List Host.Cell) (h : memWf s.mem = true) (y : Nat) :
    (s.writeHome slot cs).byteAt (s.now + 1) y = ((cs.reverse.find? (·.1 == y)).map (·.2)).getD (s.byteAt s.now y) := by
  have e := byteAt_now (s.writeHome slot cs) y
  rw [writeHome_now] at e
  rw [e, writeHome_mem, memRead_memWrites y _ h, byteAt_now]

theorem material_quarter (s : State) (slot y : Nat) : s.material slot (64 * (y / 64)) = s.material slot y := by
  have h : hostBase = 64 * 2 ^ 46 := by decide
  simp only [State.material]
  have : hostBase ≤ 64 * (y / 64) ↔ hostBase ≤ y := by rw [h]; omega
  simp only [this]

theorem writeHome_material (s : State) (slot sl : Nat) (cs : List Host.Cell) (y : Nat) :
    (s.writeHome slot cs).material sl y = s.material sl y := rfl

theorem find_keep {α : Type} {p : α → Bool} {f : α → α} (h : ∀ x, p (f x) = p x) (l : List α) : (l.map f).find? p = (l.find? p).map f := by
  rw [List.find?_map]
  congr 2
  funext x
  exact h x

/-- No cell names a byte. -/
theorem find_untouched {cs : List Host.Cell} {y : Nat} (h : ∀ c ∈ cs, c.1 ≠ y) : cs.reverse.find? (·.1 == y) = none := by
  rw [List.find?_eq_none]; intro c hc; simpa using h c (List.mem_reverse.mp hc)

/-! The line of a slot after a write. -/

theorem put_foldl (line : Nat) : ∀ (cs : List Host.Cell) (e : Filled), ∃ vals, cs.foldl (·.put line) e = { e with vals := vals }
  | [], e => ⟨e.vals, rfl⟩
  | c :: cs, e => by
    obtain ⟨v, h⟩ := put_foldl line cs (e.put line c)
    refine ⟨v, ?_⟩
    rw [List.foldl_cons, h]; simp only [Filled.put]; split <;> rfl

/-- A byte of a quarter after writes in it: the newest of it, where it holds any. -/
theorem put_get (line y : Nat) : ∀ (cs : List Host.Cell) (e : Filled), 4 * line + e.q = y / 64 →
    (cs.foldl (·.put line) e).vals[y % 64]? = (e.vals[y % 64]?).map fun x => ((cs.reverse.find? (·.1 == y)).map (·.2)).getD x
  | [], e, _ => by simp
  | c :: cs, e, h => by
    have hq : (e.put line c).q = e.q := by simp only [Filled.put]; split <;> rfl
    rw [List.foldl_cons, put_get line y cs _ (by rw [hq]; exact h), List.reverse_cons, List.find?_append]
    cases hf : cs.reverse.find? (·.1 == y) with
    | some d => 
      simp only [Filled.put, Option.some_or, Option.map_some, Option.getD_some]
      split
      · by_cases hl : y % 64 < e.vals.length
        · rw [List.getElem?_eq_getElem (by simpa using hl), List.getElem?_eq_getElem hl]; rfl
        · rw [List.getElem?_eq_none (by simpa using hl), List.getElem?_eq_none (by omega)]
      · rfl
    | none =>
      simp only [Filled.put, Option.none_or, Option.map_none, Option.getD_none, Option.map_id']
      by_cases hc : c.1 = y
      · rw [if_pos (by rw [hc]; exact h), hc]
        simp only [List.getElem?_set, if_true]
        by_cases hl : y % 64 < e.vals.length
        · rw [List.getElem?_eq_getElem hl]; simp [hc, hl]
        · rw [List.getElem?_eq_none (by omega)]; simp; omega
      · have : (c.1 == y) = false := by simpa using hc
        simp only [List.find?_cons, this, List.find?_nil, Option.map_none, Option.getD_none, Option.map_id']
        split
        · rename_i hcy
          rw [List.getElem?_set_ne]
          omega
        · rfl

theorem put_filled (l : L2Line) (cs : List Host.Cell) (y : Nat) :
    (l.put cs).filled y = (l.filled y).map fun e => cs.foldl (·.put l.line) e := by
  simp only [L2Line.filled, L2Line.put]
  apply find_keep
  intro e
  obtain ⟨v, h⟩ := put_foldl l.line cs e
  rw [h]

theorem slotLine_line {s : State} {slot y : Nat} {l : L2Line} (h : s.slotLine slot y = some l) : l.line = y / 256 := by
  simp only [State.slotLine] at h
  obtain ⟨h, -⟩ := Option.filter_eq_some_iff.mp h
  have := List.find?_some h
  simp only [Bool.and_eq_true, beq_iff_eq] at this
  exact this.2

/-- The line of a key slot after a home write through it. -/
theorem writeHome_slotLine (s : State) (slot : Nat) (cs : List Host.Cell) (y : Nat) :
    (s.writeHome slot cs).slotLine slot y = (s.slotLine slot y).map (·.put cs) := by
  have e : (s.writeHome slot cs).l2 = s.l2.map fun l => if l.print == none && l.key == slot then l.put cs else l := rfl
  simp only [State.slotLine, e]
  rw [find_keep]
  · cases hf : s.l2.find? fun l => l.print == none && l.line == y / 256 with
    | none => rfl
    | some l =>
      have hp := List.find?_some hf
      simp only [Bool.and_eq_true, beq_iff_eq] at hp
      by_cases hk : l.key = slot
      · simp [hp.1, hk, L2Line.put, Option.filter]
      · simp [hk, Option.filter]
  · intro l
    split <;> rfl

/-- What a key slot's line holds of a quarter after a home write through it. -/
theorem writeHome_filled (s : State) (slot : Nat) (cs : List Host.Cell) (y : Nat) :
    ((s.writeHome slot cs).slotLine slot y).bind (·.filled y)
      = ((s.slotLine slot y).bind (·.filled y)).map fun e => cs.foldl (·.put (y / 256)) e := by
  rw [writeHome_slotLine]
  cases h : s.slotLine slot y with
  | none => rfl
  | some l => simp only [Option.map_some, Option.bind_some, put_filled, slotLine_line h]

theorem filled_q {s : State} {slot y : Nat} {e : Filled} (h : (s.slotLine slot y).bind (·.filled y) = some e) :
    4 * (y / 256) + e.q = y / 64 := by
  obtain ⟨l, hl, he⟩ := Option.bind_eq_some_iff.mp h
  have := List.find?_some he
  have : e.q = y / 64 % 4 := by simpa using this
  omega

theorem slotLine_quarter (s : State) (slot y : Nat) :
    (s.slotLine slot (64 * (y / 64))).bind (·.filled (64 * (y / 64))) = (s.slotLine slot y).bind (·.filled y) := by
  have h1 : 64 * (y / 64) / 256 = y / 256 := by omega
  have h2 : 64 * (y / 64) / 64 % 4 = y / 64 % 4 := by omega
  simp only [State.slotLine, L2Line.filled, h1, h2]

/-! The runs of bytes after a write. -/

/-- The newest run that a byte stands in, of those a copy shows. -/
theorem runAt_newest (s : State) (f : Option Nat) {t : Nat} (h : s.now ≤ t) (a : Nat) :
    s.runAt f t a = s.qkeys.find? fun r => r.holds a && (r.vals.isEmpty || f.all fun n => decide (r.no < n)) := by
  unfold State.runAt
  have e : (fun r : KeyRun => r.holds a && decide (s.now ≤ t ∨ r.time ≤ t) && (r.vals.isEmpty || f.all fun n => decide (r.no < n)))
      = fun r => r.holds a && (r.vals.isEmpty || f.all fun n => decide (r.no < n)) := by
    funext r; rw [decide_eq_true (Or.inl h), Bool.and_true]
  rw [e]

/-- The run of one byte that a write makes. -/
def ownRun (s : State) (slot a : Nat) : KeyRun := ⟨s.qkeys.length, a, 1, s.now + 1, s.material slot a, []⟩

theorem ownRun_holds (s : State) (slot a y : Nat) : (ownRun s slot a).holds y = (a == y) := by
  show (decide (a ≤ y) && decide (y < a + 1)) = (a == y)
  rw [Bool.eq_iff_iff, Bool.and_eq_true, beq_iff_eq, decide_eq_true_iff, decide_eq_true_iff]
  omega
theorem takeover_holds (s : State) (slot q y : Nat) : (s.takeover slot q).holds y = (q == y / 64) := by
  show (decide (64 * q ≤ y) && decide (y < 64 * q + 64)) = (q == y / 64)
  rw [Bool.eq_iff_iff, Bool.and_eq_true, beq_iff_eq, decide_eq_true_iff, decide_eq_true_iff]
  omega

theorem mem_takenOver {s : State} {slot : Nat} {cs : List Host.Cell} {q : Nat} : q ∈ s.takenOver slot cs ↔ (∃ c ∈ cs, c.1 / 64 = q)
    ∧ s.uniform slot q = false ∧ (s.slotLine slot (64 * q)).bind (·.filled (64 * q)) = none := by
  simp [State.takenOver]

/-- Whether a write through a slot makes a run for a byte. -/
def makesRun (s : State) (slot : Nat) (cs : List Host.Cell) (y : Nat) : Bool :=
  !s.standsPlain slot y || (s.takenOver slot cs).contains (y / 64)

/-- The run a byte stands in after a home write: its own, that of its quarter, or the one it stood in. -/
theorem writeHome_runAt (s : State) (slot : Nat) (cs : List Host.Cell) (f : Option Nat) (y : Nat)
    (hf : y / 64 ∈ s.takenOver slot cs → f = none) : (s.writeHome slot cs).runAt f (s.now + 1) y
      = if (∃ c ∈ cs, c.1 = y) ∧ makesRun s slot cs y = true then some (ownRun s slot y)
        else if y / 64 ∈ s.takenOver slot cs then some (s.takeover slot (y / 64)) else s.runAt f s.now y := by
  have e : (s.writeHome slot cs).qkeys = (cs.filter fun c => makesRun s slot cs c.1).map (fun c => ownRun s slot c.1)
      ++ (s.takenOver slot cs).map (s.takeover slot) ++ s.qkeys := rfl
  rw [runAt_newest _ f (Nat.le_of_eq (writeHome_now s slot cs)), runAt_newest s f (Nat.le_refl _), e, List.find?_append, List.find?_append]
  have own : ∀ c, ((ownRun s slot c).holds y && ((ownRun s slot c).vals.isEmpty || f.all fun n => decide ((ownRun s slot c).no < n)))
      = (c == y) := by
    intro c; rw [ownRun_holds, show (ownRun s slot c).vals.isEmpty = true from rfl, Bool.true_or, Bool.and_true]
  split
  · rename_i h
    obtain ⟨⟨c, hc, rfl⟩, hm⟩ := h
    have : (((cs.filter fun c => makesRun s slot cs c.1).map fun c => ownRun s slot c.1).find? fun r => r.holds c.1 &&
        (r.vals.isEmpty || f.all fun n => decide (r.no < n))) = some (ownRun s slot c.1) := by
      rw [List.find?_map]
      simp only [Function.comp_def, own]
      cases hh : (cs.filter fun c => makesRun s slot cs c.1).find? fun d => d.1 == c.1 with
      | none =>
        rw [List.find?_eq_none] at hh
        exact absurd (hh c (List.mem_filter.mpr ⟨hc, hm⟩)) (by simp)
      | some d =>
        have := List.find?_some hh
        simp only [beq_iff_eq] at this
        simp only [Option.map_some, this]
    rw [this]; rfl
  · rename_i h
    have : (((cs.filter fun c => makesRun s slot cs c.1).map fun c => ownRun s slot c.1).find? fun r => r.holds y &&
        (r.vals.isEmpty || f.all fun n => decide (r.no < n))) = none := by
      rw [List.find?_eq_none]
      intro r hr
      obtain ⟨c, hc, rfl⟩ := List.mem_map.mp hr
      obtain ⟨hc, hm⟩ := List.mem_filter.mp hc
      rw [own]
      intro he
      have he : c.1 = y := by simpa using he
      exact h ⟨⟨c, hc, he⟩, by rw [← he]; exact hm⟩
    rw [this, Option.none_or]
    split
    · rename_i hq
      have : ((s.takenOver slot cs).map (s.takeover slot)).find? (fun r => r.holds y && (r.vals.isEmpty || f.all fun n => decide (r.no < n)))
          = some (s.takeover slot (y / 64)) := by
        rw [List.find?_map, hf hq]
        simp only [Function.comp_def, Option.all_none, Bool.or_true, Bool.and_true, takeover_holds]
        cases hh : (s.takenOver slot cs).find? fun q => q == y / 64 with
        | none => rw [List.find?_eq_none] at hh; exact absurd (hh _ hq) (by simp)
        | some q => have := List.find?_some hh; simp only [beq_iff_eq] at this; rw [this]; rfl
      rw [this]; rfl
    · rename_i hq
      have : ((s.takenOver slot cs).map (s.takeover slot)).find? (fun r => r.holds y && (r.vals.isEmpty || f.all fun n => decide (r.no < n)))
          = none := by
        rw [List.find?_eq_none]
        intro r hr
        obtain ⟨q, hm, rfl⟩ := List.mem_map.mp hr
        rw [takeover_holds]
        intro he
        simp only [Bool.and_eq_true, beq_iff_eq] at he
        exact hq (he.1 ▸ hm)
      rw [this]; rfl

/-- How often a byte that a write does not name was written does not change with it (R165). -/
theorem writeHome_position (s : State) (slot : Nat) {cs : List Host.Cell} {y : Nat} (h : ∀ c ∈ cs, c.1 ≠ y) (t : Nat) :
    (s.writeHome slot cs).position t y = s.position t y := by
  have hc : (cs.any fun c => c.1 == y) = false := by
    rw [List.any_eq_false]; intro c hc; simpa using h c hc
  simp only [State.position, writeHome_now, writeHome_log]
  by_cases ht : s.now < t
  · rw [show s.now + 1 - t = 0 by omega, show s.now - t = 0 by omega]
    simp [hc]
  · rw [show s.now + 1 - t = (s.now - t) + 1 by omega]; rfl

/-! What home memory reads as. -/

/-- What home memory reads as depends on these fields alone, and on what lines of the L2 hold. -/
theorem readAt_congr {s t : State} (hm : t.mem = s.mem) (hl : t.log = s.log) (hq : t.qkeys = s.qkeys) (hk : t.keys = s.keys)
    (hz : t.zeroKey = s.zeroKey) (h2 : ∀ sl x, (t.slotLine sl x).map (fun l => (l.wrote x, l.filled x))
      = (s.slotLine sl x).map fun l => (l.wrote x, l.filled x))
    (slot time a : Nat) : t.readAt slot time a = s.readAt slot time a := by
  have en : t.now = s.now := congrArg List.length hl
  have e1 : ∀ f y x, t.runAt f y x = s.runAt f y x := fun f y x => by simp only [State.runAt, hq, en]
  have e2 : t.material slot a = s.material slot a := by simp only [State.material, State.keyOf, hk]
  have e3 : ∀ z y, t.byteAt z y = s.byteAt z y := fun z y => by unfold State.byteAt State.now; rw [hm, hl]
  have e4 : ∀ r z y, t.plainAt r z y = s.plainAt r z y := fun r z y => by simp only [State.plainAt, e3]
  have e5 : ∀ z y, t.quarterAt z y = s.quarterAt z y := fun z y => by simp only [State.quarterAt, e4, e1]
  have e0 : ∀ r, t.runKey r = s.runKey r := fun r => by simp only [State.runKey, hz]
  have e6 : ∀ r m z y, t.decrypt r m z y = s.decrypt r m z y := fun r m z y => by
    simp only [State.decrypt, e0, e4, e5]
  have e7 : ∀ z y, t.position z y = s.position z y := fun z y => by simp only [State.position, State.now, hl]
  have e8 : ∀ w v, t.readVia w v slot time a = s.readVia w v slot time a := fun w v => by
    simp only [State.readVia, e1, e2, e3, e4, e6, e7, en]
  have h2 := h2 slot a
  simp only [State.readAt, e8]
  cases ht : t.slotLine slot a <;> cases hs : s.slotLine slot a <;> simp_all

theorem now_congr {s t : State} (hl : t.log = s.log) : t.now = s.now := congrArg List.length hl

/-- A host-tier byte reads as it is (R326). -/
theorem readAt_host (s : State) (slot t : Nat) {a : Nat} (h : hostBase ≤ a) : s.readAt slot t a = s.byteAt t a := by
  simp [State.readAt, State.readVia, h]

/-- The newest value of a byte, as read through a slot. -/
theorem readAt_newest (s : State) (slot : Nat) {a : Nat} (h : ¬ hostBase ≤ a) {t : Nat} (ht : s.now = t) : s.readAt slot t a =
    let held := (s.slotLine slot a).bind (·.filled a)
    let r := s.runAt (held.map (·.runs)) t a
    if (s.slotLine slot a).any (·.wrote a) then s.plainAt r t a
    else match held with
      | none => s.decrypt r (s.material slot a) t a
      | some e =>
        if madeSince e.runs r then s.plainAt r t a
        else match e.vals[a % 64]? with
          | some x => if s.position e.time a < s.position t a then s.plainAt r t a else x
          | none => s.plainAt r t a := by
  subst ht
  simp only [State.readAt, State.readVia, if_neg h, beq_self_eq_true, Bool.and_true, if_true] <;> rfl

theorem ownKey_of_run {s : State} {a : Nat} (h : ¬ hostBase ≤ a) (t : Nat) : s.ownKey t a = s.runKey (s.runAt none t a) := by
  simp [State.ownKey, h]

/-- READ AFTER WRITE: through the key slot it was written by, a byte reads as the newest cell of it says, and every other byte as
before (R165, R326). -/
theorem writeHome_readAt {s : State} (slot : Nat) (cs : List Host.Cell) (h : memWf s.mem = true) (y : Nat) :
    (s.writeHome slot cs).readAt slot (s.now + 1) y
      = ((cs.reverse.find? (·.1 == y)).map (·.2)).getD (s.readAt slot s.now y) := by
  have hb := writeHome_byteAt slot cs h
  by_cases hy : hostBase ≤ y
  · rw [readAt_host _ _ _ hy, readAt_host _ _ _ hy, hb]
  rw [readAt_newest _ slot hy (writeHome_now s slot cs), writeHome_filled]
  have hw : ((s.writeHome slot cs).slotLine slot y).any (·.wrote y) = (s.slotLine slot y).any (·.wrote y) := by
    rw [writeHome_slotLine]; cases s.slotLine slot y <;> rfl
  rw [hw]
  generalize hheld : (s.slotLine slot y).bind (·.filled y) = held
  have hruns : (held.map fun e => cs.foldl (·.put (y / 256)) e).map (·.runs) = held.map (·.runs) := by
    cases held with
    | none => rfl
    | some e => obtain ⟨v, hv⟩ := put_foldl (y / 256) cs e; simp only [Option.map_some, hv]
  have hnone : y / 64 ∈ s.takenOver slot cs → held = none := fun hq => by
    rw [← hheld, ← slotLine_quarter]; exact (mem_takenOver.mp hq).2.2
  have hrun := writeHome_runAt s slot cs (held.map (·.runs)) y (fun hq => by rw [hnone hq]; rfl)
  simp only [hruns, hrun]
  by_cases hc : ∃ c ∈ cs, c.1 = y
  · -- the byte is written
    obtain ⟨d, hd⟩ : ∃ d, cs.reverse.find? (·.1 == y) = some d := by
      cases hf : cs.reverse.find? (·.1 == y) with
      | some d => exact ⟨d, rfl⟩
      | none =>
        obtain ⟨c, hc, rfl⟩ := hc
        rw [List.find?_eq_none] at hf
        exact absurd (hf c (List.mem_reverse.mpr hc)) (by simp)
    have hby : (s.writeHome slot cs).byteAt (s.now + 1) y = d.2 := by rw [hb, hd]; rfl
    simp only [hd, Option.map_some, Option.getD_some]
    -- in its run, of the slot's material, it stands as it was written
    obtain ⟨r, hr, hpl, hkey, hvals⟩ : ∃ r, (if (∃ c ∈ cs, c.1 = y) ∧ makesRun s slot cs y = true then some (ownRun s slot y)
        else if y / 64 ∈ s.takenOver slot cs then some (s.takeover slot (y / 64)) else s.runAt (held.map (·.runs)) s.now y) = r
        ∧ (s.writeHome slot cs).plainAt r (s.now + 1) y = d.2 ∧ (s.writeHome slot cs).runKey r = s.material slot y
        ∧ ∀ e, held = some e → madeSince e.runs r = false → e.vals[y % 64]? = none ∨ True := by
      refine ⟨_, rfl, ?_⟩
      by_cases hm : makesRun s slot cs y = true
      · rw [if_pos ⟨hc, hm⟩]
        refine ⟨?_, rfl, fun _ _ _ => Or.inr trivial⟩
        simp only [State.plainAt, Option.bind_some, ownRun, List.getElem?_nil, Option.getD_none]
        exact hby
      · rw [if_neg fun x => hm x.2]
        simp only [makesRun, Bool.or_eq_true, not_or, Bool.not_eq_true, Bool.not_eq_false', List.contains_eq_mem, decide_eq_false_iff_not] at hm
        rw [if_neg hm.2]
        have hp := hm.1
        simp only [State.standsPlain, decide_eq_false hy, Bool.false_or, Bool.and_eq_true, beq_iff_eq] at hp
        have hr : s.runAt (held.map (·.runs)) s.now y = s.runAt none s.now y := by
          have hp2 := hp.1.2
          rw [runAt_newest s none (Nat.le_refl _)] at hp2 ⊢
          rw [runAt_newest s _ (Nat.le_refl _)]
          simp only [Option.all_none, Bool.or_true, Bool.and_true] at hp2 ⊢
          revert hp2
          generalize s.qkeys = qs
          intro hp2
          induction qs with
          | nil => rfl
          | cons r rs ih =>
            simp only [List.find?_cons] at hp2 ⊢
            cases hh : r.holds y with
            | true =>
              rw [hh] at hp2
              have : r.vals.isEmpty = true := by simpa using hp2
              rw [this]; rfl
            | false => rw [hh] at hp2; exact ih hp2
        rw [hr]
        refine ⟨?_, hp.1.1, fun _ _ _ => Or.inr trivial⟩
        have hv := hp.1.2
        cases hrr : s.runAt none s.now y with
        | none => exact hby
        | some r =>
          rw [hrr] at hv
          have : r.vals = [] := by simpa using hv
          simp only [State.plainAt, Option.bind_some, this, List.getElem?_nil, Option.getD_none]
          exact hby
    rw [hr]
    split
    · exact hpl
    · cases held with
      | none => simp only [Option.map_none, State.decrypt, hkey, writeHome_material, if_true]; exact hpl
      | some e =>
        simp only [Option.map_some]
        split
        · exact hpl
        · rw [put_get _ _ _ _ (filled_q hheld), hd]
          cases e.vals[y % 64]? with
          | none => exact hpl
          | some x =>
            simp only [Option.map_some, Option.getD_some]
            split
            · exact hpl
            · rfl
  · -- the byte is not written
    have hcs : ∀ c ∈ cs, c.1 ≠ y := fun c hm he => hc ⟨c, hm, he⟩
    have hd := find_untouched hcs
    have hby : (s.writeHome slot cs).byteAt (s.now + 1) y = s.byteAt s.now y := by rw [hb, hd]; rfl
    simp only [hd, Option.map_none, Option.getD_none]
    simp only [hc, false_and, if_false]
    by_cases hq : y / 64 ∈ s.takenOver slot cs
    · -- its quarter is taken over as the slot reads it
      simp only [hq, if_true]
      have hpl : (s.writeHome slot cs).plainAt (some (s.takeover slot (y / 64))) (s.now + 1) y = s.readAt slot s.now y := by
        have e : 64 * (y / 64) + y % 64 = y := by omega
        have e2 : y - 64 * (y / 64) = y % 64 := by omega
        have e3 : y % 64 < 64 := Nat.mod_lt _ (by decide)
        simp only [State.plainAt, Option.bind_some, State.takeover, e2, List.getElem?_map, List.getElem?_range e3, Option.map_some, e,
          Option.getD_some]
      have := hnone hq
      subst this
      split
      · exact hpl
      · have hk : (s.writeHome slot cs).runKey (some (s.takeover slot (y / 64))) = s.material slot y := material_quarter s slot y
        simp only [Option.map_none, State.decrypt, hk, writeHome_material, if_true]
        exact hpl
    · rw [readAt_newest s slot hy rfl, hheld]
      simp only [hq, if_false]
      have hpl : ∀ r, (s.writeHome slot cs).plainAt r (s.now + 1) y = s.plainAt r s.now y := fun r => by simp only [State.plainAt, hby]
      simp only [hpl]
      split
      · rfl
      · cases held with
        | none =>
          simp only [Option.map_none, State.decrypt, hpl, writeHome_material]
          have ek : ∀ r, (s.writeHome slot cs).runKey r = s.runKey r := fun _ => rfl
          simp only [ek]
          split
          · rfl
          · rename_i hne
            have hun : s.uniform slot (y / 64) = true → False := fun hu => by
              have hi := List.all_eq_true.mp hu (y % 64) (List.mem_range.mpr (Nat.mod_lt _ (by decide)))
              have e : 64 * (y / 64) + y % 64 = y := by omega
              rw [e, ownKey_of_run hy, material_quarter] at hi
              exact hne (by simpa using hi)
            have far : ∀ c ∈ cs, c.1 / 64 ≠ y / 64 := fun c hm he => hq (mem_takenOver.mpr ⟨⟨c, hm, he⟩, by
              cases hu : s.uniform slot (y / 64) with
              | true => exact absurd hu (fun h => hun h)
              | false => rfl, by rw [slotLine_quarter]; exact hheld⟩)
            congr 1
            simp only [State.quarterAt]
            apply List.map_congr_left
            intro i hi
            have hi : i < 64 := List.mem_range.mp hi
            have hz : (y / 64 * 64 + i) / 64 = y / 64 := by omega
            have hcz : ∀ c ∈ cs, c.1 ≠ y / 64 * 64 + i := fun c hm he => far c hm (by rw [he, hz])
            have er := writeHome_runAt s slot cs none (y / 64 * 64 + i) fun _ => rfl
            rw [if_neg fun x => x.1.elim fun c hc => hcz c hc.1 hc.2, if_neg (by rw [hz]; exact hq)] at er
            rw [er]
            simp only [State.plainAt, hb, find_untouched hcz, Option.map_none, Option.getD_none]
        | some e =>
          have hp : ∀ t, (s.writeHome slot cs).position t y = s.position t y := writeHome_position s slot hcs
          have hp2 : s.position (s.now + 1) y = s.position s.now y := by simp [State.position]
          obtain ⟨v, hv⟩ := put_foldl (y / 256) cs e
          have hg := put_get (y / 256) y cs e (filled_q hheld)
          rw [hd] at hg
          simp only [Option.map_none, Option.getD_none, Option.map_id'] at hg
          rw [hv] at hg
          simp only [Option.map_some, hv, hp, hp2] at hg ⊢
          rw [hg]

/-- A home write leaves the history before it as it was (R165). -/
theorem writeHome_byteAt_past (s : State) (slot : Nat) (cs : List Host.Cell) {t : Nat} (ht : t < s.now) (y : Nat) :
    (s.writeHome slot cs).byteAt t y = s.byteAt t y := by
  have h1 : ¬ s.now + 1 ≤ t := by omega
  have h2 : ¬ s.now ≤ t := by omega
  have h3 : s.now + 1 - t = (s.now - t) + 1 := by omega
  simp only [State.byteAt, writeHome_now, if_neg h1, if_neg h2, h3]
  rfl

theorem leBytes_get (n x i : Nat) (h : i < n) : (leBytes n x)[i]? = some (BitVec.ofNat 8 (x / 256 ^ i)) := by
  simp [leBytes, h]
theorem leBytes_len (n x : Nat) : (leBytes n x).length = n := by simp [leBytes]

/-! ### Passing the L2 (R152, R159) -/

theorem onlyL2_refl (s : State) : OnlyL2 s s := ⟨rfl⟩
theorem onlyL2_trans {s t u : State} (h : OnlyL2 s t) (k : OnlyL2 t u) : OnlyL2 s u := by
  refine ⟨?_⟩
  have e : ({ u with l2 := s.l2, qkeys := s.qkeys, hostReqs := s.hostReqs } : State)
      = { ({ u with l2 := t.l2, qkeys := t.qkeys, hostReqs := t.hostReqs } : State) with
          l2 := s.l2, qkeys := s.qkeys, hostReqs := s.hostReqs } := rfl
  rw [e, k.same]
  exact h.same
theorem onlyL2_foldl {α : Type} {f : State → α → State} (hf : ∀ s x, OnlyL2 s (f s x)) : ∀ (l : List α) (s : State), OnlyL2 s (l.foldl f s)
  | [], s => onlyL2_refl s
  | x :: l, s => onlyL2_trans (hf s x) (onlyL2_foldl hf l (f s x))

theorem onlyL2_block {s t : State} (h : OnlyL2 s t) (u : Nat) : t.block? u = s.block? u := (congrArg (State.block? · u) h.same :)
theorem onlyL2_byteAt {s t : State} (h : OnlyL2 s t) (time a : Nat) : t.byteAt time a = s.byteAt time a :=
  (congrArg (State.byteAt · time a) h.same :)
theorem onlyL2_mem {s t : State} (h : OnlyL2 s t) : t.mem = s.mem := (congrArg State.mem h.same :)
theorem onlyL2_log {s t : State} (h : OnlyL2 s t) : t.log = s.log := (congrArg State.log h.same :)
theorem onlyL2_keys {s t : State} (h : OnlyL2 s t) : t.keys = s.keys := (congrArg State.keys h.same :)
theorem onlyL2_zeroKey {s t : State} (h : OnlyL2 s t) : t.zeroKey = s.zeroKey := (congrArg State.zeroKey h.same :)
theorem onlyL2_now {s t : State} (h : OnlyL2 s t) : t.now = s.now := (congrArg State.now h.same :)

theorem dropL2_only (s : State) (l : L2Line) : OnlyL2 s (s.dropL2 l) := ⟨rfl⟩
theorem l2Fill_only (s : State) (e : L2Line) : OnlyL2 s (s.l2Fill e) := by
  simp only [State.l2Fill]
  split
  · exact ⟨rfl⟩
  · split
    · exact ⟨rfl⟩
    · exact ⟨rfl⟩
theorem l2Access_only (s : State) (pr : Option Nat) (vf key sl a : Nat) (m : BitVec 256) (h : Hint) (st : BitVec 16) :
    OnlyL2 s (s.l2Access pr vf key sl a m h st) := by
  simp only [State.l2Access]
  split
  · exact l2Fill_only _ _
  · split
    · exact onlyL2_trans (dropL2_only s _) (l2Fill_only _ _)
    · exact ⟨rfl⟩
theorem l2Get_only (s : State) (vf key sl a : Nat) (need : List Nat) (h : Hint) (st : BitVec 16) : OnlyL2 s (s.l2Get vf key sl a need h st) := by
  simp only [State.l2Get]
  split
  · exact ⟨rfl⟩
  · exact l2Access_only _ _ _ _ _ _ _ _ _
/-- A write passing the L2 changes nothing but the L2. -/
theorem l2Write_only (s : State) (vf : Nat) (p : Piece) (h : Hint) : OnlyL2 s (s.l2Write vf p h) :=
  onlyL2_foldl (fun _ _ => l2Access_only _ _ _ _ _ _ _ _ _) _ s
/-- A read passing the L2 changes nothing but the L2. -/
theorem l2Read_only (s : State) (vf core : Nat) (p : Piece) : OnlyL2 s (s.l2Read vf core p) :=
  onlyL2_foldl (fun _ _ => l2Get_only _ _ _ _ _ _ _ _) _ s

/-! ### Drains -/

/-- The requests to the host that writes of a run are owed change nothing else (24_host_fabric R395). -/
theorem owesHost_keeps (s : State) (u home n : Nat) (c : HostCause) :
    { s.owesHost u home n c with hostReqs := s.hostReqs, hostNo := s.hostNo } = s := by
  simp only [State.owesHost]
  split
  · rfl
  · generalize linesOf home n = ls
    have : ∀ (ls : List (Nat × Nat)) (t : State), { t with hostReqs := s.hostReqs, hostNo := s.hostNo } = s →
        { ls.foldl (fun (s : State) x =>
          let dirty := (s.lineOf none x.1).any fun l => (List.range x.2).any fun i => l.wrote (x.1 + i)
          { s with hostReqs := s.hostReqs ++ [⟨u, x.1, c, s.hostNo, !dirty⟩], hostNo := s.hostNo + 1 }) t with
          hostReqs := s.hostReqs, hostNo := s.hostNo } = s := by
      intro ls
      induction ls with
      | nil => intro t h; exact h
      | cons x ls ih => intro t h; rw [List.foldl_cons]; exact ih _ h
    exact this ls s rfl

/-- What a drain does: the entry leaves the store buffer, and its cells go home, through the L2, as one write (R159, R166). -/
theorem drainAt_spec {s : State} {u n : Nat} {b : Block} {e : Entry} (hb : s.block? u = some b) (he : b.storeBuf[n]? = some e) :
    let w := (s.l2Write b.vf e.p e.hint).writeHome e.p.key e.cells
    (∃ b', (s.drainAt u n).block? u = some b' ∧ b'.storeBuf = b.storeBuf.eraseIdx n ∧ b'.refresh = b.refresh)
    ∧ (s.drainAt u n).mem = w.mem ∧ (s.drainAt u n).log = w.log ∧ (s.drainAt u n).qkeys = w.qkeys ∧ (s.drainAt u n).keys = w.keys
    ∧ (s.drainAt u n).l2 = w.l2 ∧ (s.drainAt u n).zeroKey = w.zeroKey := by
  intro w
  have hb' : w.block? u = some b := (onlyL2_block (l2Write_only s b.vf e.p e.hint) u).trans hb
  have hd : s.drainAt u n = (w.modBlock u fun b =>
        { b with
          storeBuf := b.storeBuf.eraseIdx n
          refreshAt := (e.cells.map fun c => (c.1, w.now)) ++ b.refreshAt.filter fun r => !e.cells.any (·.1 == r.1) }).owesHost
        u e.p.home e.p.size .drain := by
    simp only [State.drainAt, hb, he]; rfl
  rw [hd]
  generalize w = w at *
  generalize ht : (w.modBlock u fun b =>
        { b with
          storeBuf := b.storeBuf.eraseIdx n
          refreshAt := (e.cells.map fun c => (c.1, w.now)) ++ b.refreshAt.filter fun r => !e.cells.any (·.1 == r.1) }) = t
  have hk := owesHost_keeps t u e.p.home e.p.size .drain
  have hbt : ∃ b', t.block? u = some b' ∧ b'.storeBuf = b.storeBuf.eraseIdx n ∧ b'.refresh = b.refresh := by
    rw [← ht, block_modBlock w (f := fun b => { b with storeBuf := b.storeBuf.eraseIdx n, refreshAt := (e.cells.map fun c => (c.1, w.now)) ++ b.refreshAt.filter fun r => !e.cells.any (·.1 == r.1) }) (fun _ => rfl), if_pos rfl, hb']; exact ⟨_, rfl, rfl, rfl⟩
  obtain ⟨b', h1, h2⟩ := hbt
  refine ⟨⟨b', (congrArg (State.block? · u) hk :).trans h1, h2⟩, ?_⟩
  have hw : t.mem = w.mem ∧ t.log = w.log ∧ t.qkeys = w.qkeys ∧ t.keys = w.keys ∧ t.l2 = w.l2 ∧ t.zeroKey = w.zeroKey := by
    rw [← ht]; exact ⟨rfl, rfl, rfl, rfl, rfl, rfl⟩
  exact ⟨(congrArg State.mem hk :).trans hw.1, (congrArg State.log hk :).trans hw.2.1, (congrArg State.qkeys hk :).trans hw.2.2.1,
    (congrArg State.keys hk :).trans hw.2.2.2.1, (congrArg State.l2 hk :).trans hw.2.2.2.2.1, (congrArg State.zeroKey hk :).trans hw.2.2.2.2.2⟩

end Sys2Proof.Laws
end

