-- ==== Sys2Proof/Laws/Lanes.lean ====
section
/-! SUPPORT. What a change made lane by lane over the guard-true active lanes of a crew amounts to (05_encoding R55, R56). -/

namespace Sys2Proof.Laws

open Sys2Proof.Machine

theorem mapIdx_map {α β : Type} (f : α → β) (ls : List α) : (ls.mapIdx fun _ x => f x) = ls.map f := by
  apply List.ext_getElem?; intro j; simp

/-- Modifying distinct places of a list one after another. -/
theorem foldl_modify {α β : Type} (f : Nat × β → α → α) : ∀ (ps : List (Nat × β)) (ls : List α), (ps.map (·.1)).Nodup → ∀ j : Nat,
    (ps.foldl (fun ls p => ls.modify p.1 (f p)) ls)[j]?
      = ls[j]?.map fun y => match ps.find? (·.1 == j) with
        | some p => f p y
        | none => y
  | [], ls, _, j => by simp
  | p :: ps, ls, hn, j => by
    simp only [List.map_cons, List.nodup_cons] at hn
    rw [List.foldl_cons, foldl_modify f ps _ hn.2 j, List.getElem?_modify]
    by_cases hj : p.1 = j
    · subst hj
      have : ps.find? (·.1 == p.1) = none := by
        rw [List.find?_eq_none]
        intro q hq he
        exact hn.1 (List.mem_map.mpr ⟨q, hq, by simpa using he⟩)
      simp only [List.find?_cons, beq_self_eq_true, this, if_true]; cases ls[p.1]? <;> rfl
    · have hb : (p.1 == j) = false := by simpa using hj
      simp [hj, hb]

theorem slots_fst (c : Crew) : c.slots.map (·.1) = List.range c.lanes.length := by
  apply List.ext_getElem? ; intro j
  simp only [Crew.slots, List.getElem?_map, List.getElem?_mapIdx]
  by_cases h : j < c.lanes.length
  · simp [h]
  · simp [h]

/-- No lane is among the takers twice. -/
theorem takers_nodup (c : Crew) (g : Guard) : ((c.takers g).map (·.1)).Nodup := by
  have h : (c.slots.map (·.1)).Nodup := by rw [slots_fst]; exact List.nodup_range
  exact h.sublist (List.Sublist.map _ List.filter_sublist)

/-- A lane is among the takers when its guard is true and it is active. -/
theorem mem_takers {c : Crew} {g : Guard} {j : Nat} {l : Lane} : (j, l) ∈ c.takers g ↔ c.lanes[j]? = some l ∧ l.takes g = true := by
  simp only [Crew.takers, Crew.slots, List.mem_filter]
  refine and_congr_left fun _ => ?_
  rw [List.mem_iff_getElem?]
  constructor
  · rintro ⟨i, hi⟩
    simp only [List.getElem?_mapIdx, Option.map_eq_some_iff, Prod.mk.injEq] at hi
    obtain ⟨x, hx, rfl, rfl⟩ := hi
    exact hx
  · intro h
    exact ⟨j, by simp [h]⟩

theorem find_takers (c : Crew) (g : Guard) (j : Nat) : (c.takers g).find? (·.1 == j) =
    match c.lanes[j]? with
    | some l => if l.takes g then some (j, l) else none
    | none => none := by
  cases hf : (c.takers g).find? (·.1 == j) with
  | some p =>
    have hp := List.mem_of_find?_eq_some hf
    have hj : p.1 = j := by simpa using List.find?_some hf
    obtain ⟨i, l⟩ := p
    simp only at hj; subst hj
    obtain ⟨h1, h2⟩ := mem_takers.mp hp
    simp [h1, h2]
  | none =>
    rw [List.find?_eq_none] at hf
    cases hl : c.lanes[j]? with
    | none => rfl
    | some l =>
      by_cases ht : l.takes g = true
      · exact absurd (hf (j, l) (mem_takers.mpr ⟨hl, ht⟩)) (by simp)
      · simp [ht]

theorem forLanes_modLane_eq (k : Ctx) (f : Nat → Lane → Lane → Lane) : ∀ (ps : List (Nat × Lane)) (s : State),
    s.forLanes ps (fun s j l => s.modLane k.b.uid k.ci j (f j l))
      = s.modCur k fun c => { c with lanes := ps.foldl (fun ls p => ls.modify p.1 (f p.1 p.2)) c.lanes }
  | [], s => (modCrew_id s _ _ fun _ => rfl).symm
  | p :: ps, s => by
    have e : s.forLanes (p :: ps) (fun s j l => s.modLane k.b.uid k.ci j (f j l))
        = (s.modLane k.b.uid k.ci p.1 (f p.1 p.2)).forLanes ps fun s j l => s.modLane k.b.uid k.ci j (f j l) := rfl
    rw [e, forLanes_modLane_eq k f ps, State.modCur, State.modLane, modCrew_modCrew, State.modCur]
    rfl

/-- Changing each guard-true active lane one after another is changing them all at once. -/
theorem forLanes_modLane (k : Ctx) (g : Guard) (f : Nat → Lane → Lane → Lane) (s : State) :
    s.forLanes (k.c.takers g) (fun s j l => s.modLane k.b.uid k.ci j (f j l))
      = s.modCur k fun c => { c with lanes := c.lanes.mapIdx fun j y =>
          match k.c.lanes[j]? with
          | some l => if l.takes g then f j l y else y
          | none => y } := by
  rw [forLanes_modLane_eq]
  congr 1; funext c; congr 1
  apply List.ext_getElem?; intro j
  rw [foldl_modify (fun p => f p.1 p.2) _ _ (takers_nodup _ _), find_takers, List.getElem?_mapIdx]
  congr 1; funext y
  cases k.c.lanes[j]? with
  | none => rfl
  | some l =>
    simp only
    by_cases h : l.takes g = true <;> simp [h]

/-- Acting lane by lane depends only on what is done to the lanes listed. -/
theorem forLanes_congr {f f' : State → Nat → Lane → State} : ∀ (ps : List (Nat × Lane)), (∀ p ∈ ps, ∀ s, f s p.1 p.2 = f' s p.1 p.2) →
    ∀ s : State, s.forLanes ps f = s.forLanes ps f'
  | [], _, _ => rfl
  | p :: ps, h, s => by
    have e : ∀ g : State → Nat → Lane → State, s.forLanes (p :: ps) g = (g s p.1 p.2).forLanes ps g := fun _ => rfl
    rw [e, e, h p List.mem_cons_self s]
    exact forLanes_congr ps (fun q hq => h q (List.mem_cons_of_mem _ hq)) _

/-- An instruction that changes each guard-true active lane by itself, as the lane stood when it issued. -/
theorem issue_lanes {i : Instr} {eff : Ctx → State → State} {s : State} {k : Ctx} {f : Nat → Lane → Lane → Lane} (h : Issues s k i) (g : Guard)
    (hf : eff k (s.begun k i) = (s.begun k i).forLanes (k.c.takers g) fun s j l => s.modLane k.b.uid k.ci j (f j l)) :
    ∃ t, issue i eff s = .next t ∧ CrewStep s t k i (k.c.lanes.mapIdx fun j l => if l.takes g then f j l l else l) k.c.s := by
  rw [forLanes_modLane] at hf
  obtain ⟨t, ht, hc⟩ := issue_crew h hf (issuing_eq h.now).2.2.1
  refine ⟨t, ht, ?_⟩
  have e : (k.c.lanes.mapIdx fun j y => match k.c.lanes[j]? with
        | some l => if l.takes g then f j l y else y
        | none => y) = k.c.lanes.mapIdx fun j l => if l.takes g then f j l l else l := by
    apply List.ext_getElem?; intro j
    simp only [List.getElem?_mapIdx]
    cases k.c.lanes[j]? <;> rfl
  have e' : (k.begun s i).lanes = k.c.lanes := rfl
  simp only [e', e] at hc
  exact hc

/-! ### The state in which an instruction has its effect -/

theorem begun_same (s : State) (k : Ctx) (i : Instr) : SameDevice s (s.begun k i) := by
  rw [begun_eq]; exact sameDevice_modBlock _ _ _

@[simp] theorem begun_cyc (s : State) (k : Ctx) (i : Instr) : (s.begun k i).cyc = s.cyc :=
  (congrArg State.cyc (begun_same s k i).same :)

@[simp] theorem begun_gathered (s : State) (k : Ctx) (i : Instr) : (s.begun k i).gathered = s.gathered :=
  (congrArg State.gathered (begun_same s k i).same :)

/-- The block of the issuing crew once the instruction is counted. -/
theorem begun_block {s : State} {k : Ctx} {i : Instr} (h : s.issuing = some k) :
    (s.begun k i).block? k.b.uid = some { k.b with crews := k.b.crews.set k.ci (k.begun s i) } := by
  rw [block_begun h, if_pos rfl]

theorem set_get {α : Type} {l : List α} {i : Nat} {x y : α} (h : l[i]? = some x) : (l.set i y)[i]? = some y := by
  have := (List.getElem?_eq_some_iff.mp h).1
  simp [this]

theorem laneAt_eq {s : State} {u c j : Nat} {b : Block} {k : Crew} (hb : s.block? u = some b) (hc : b.crews[c]? = some k) :
    s.laneAt u c j = k.lanes[j]? := by simp [State.laneAt, crew_eq hb hc]

theorem begun_laneAt {s : State} {k : Ctx} {i : Instr} (h : s.issuing = some k) (j : Nat) : (s.begun k i).laneAt k.b.uid k.ci j = k.c.lanes[j]? :=
  (laneAt_eq (begun_block h) (k := k.begun s i) (set_get (issuing_eq h).2.1)).trans rfl

theorem advance_lanes (c : Crew) (k : Ctx) (n : Nat) : (c.advance k n).lanes = c.lanes := by
  simp only [Crew.advance]; split <;> rfl

/-- Going on after an instruction changes no lane. -/
theorem laneAt_advance (s : State) (k : Ctx) (u ci j n : Nat) : (s.modCur k (·.advance k n)).laneAt u ci j = s.laneAt u ci j := by
  simp only [State.laneAt, State.crew?, State.modCur, block_modCrew]
  by_cases hu : u = k.b.uid
  · subst hu
    simp only [if_true]
    cases hb : s.block? k.b.uid with
    | none => rfl
    | some b =>
      simp only [Option.map_some, Block.modCrew, List.getElem?_modify]
      cases hk : b.crews[ci]? with
      | none => simp
      | some c => by_cases e : k.ci = ci <;> simp [e, advance_lanes]
  · simp [hu]

/-- In a block that is no handler crew there is no verdict to pass (21_traps_preemption R335). -/
theorem passVerdict_none {s : State} {u l : Nat} {v : Verdict} (h : ∀ b, s.block? u = some b → b.hnd = []) : s.passVerdict u l v = s := by
  simp only [State.passVerdict]
  split
  · rfl
  · rename_i b hb; rw [h b hb]; rfl

theorem forLanes_id {f : State → Nat → Lane → State} : ∀ (ps : List (Nat × Lane)) (s : State),
    (∀ p ∈ ps, f s p.1 p.2 = s) → s.forLanes ps f = s
  | [], _, _ => rfl
  | p :: ps, s, h => by
    have e : s.forLanes (p :: ps) f = (f s p.1 p.2).forLanes ps f := rfl
    rw [e, h p List.mem_cons_self]
    exact forLanes_id ps s fun q hq => h q (List.mem_cons_of_mem _ hq)

/-- The instruction moves a crew's block through `f`, a change of one crew. -/
theorem block_modCur {s : State} {k : Ctx} {b : Block} {f : Crew → Crew} (h : s.block? k.b.uid = some b) :
    (s.modCur k f).block? k.b.uid = some (b.modCrew k.ci f) := by
  simp only [State.modCur, block_modCrew, if_true, h, Option.map_some]

end Sys2Proof.Laws
end

