-- ==== Sys2Proof/Laws/Trap.lean ====
section
/-! SUPPORT. Lanes after the shared operations, and what taking an exception does (05_encoding R70, R77;
21_traps_preemption R332-R337). -/

namespace Sys2Proof.Laws

open Sys2Proof.Machine

/-! ### Lanes after updates -/

theorem laneAt_some {s : State} {u c j : Nat} {l : Lane} (h : s.laneAt u c j = some l) :
    ∃ b k, s.block? u = some b ∧ b.crews[c]? = some k ∧ k.lanes[j]? = some l := by
  simp only [State.laneAt] at h
  split at h
  · rename_i b k hk
    obtain ⟨hb, hc⟩ := block_of_crew hk
    exact ⟨b, k, hb, hc, h⟩
  · cases h

/-- A lane after a change of one lane. -/
theorem laneAt_modLane (s : State) (u c j : Nat) (f : Lane → Lane) (v d i : Nat) :
    (s.modLane u c j f).laneAt v d i = if v = u ∧ d = c ∧ i = j then (s.laneAt v d i).map f else s.laneAt v d i := by
  simp only [State.laneAt, State.crew?, State.modLane, block_modCrew]
  by_cases hv : v = u
  · subst hv
    simp only [if_true, true_and]
    cases hb : s.block? v with
    | none => simp
    | some b =>
      simp only [Option.map_some, Block.modCrew]
      by_cases hd : d = c
      · subst hd
        simp only [true_and, List.getElem?_modify_eq]
        cases hk : b.crews[d]? with
        | none => simp
        | some k =>
          by_cases hi : i = j
          · subst hi; simp [Crew.modLane]
          · have : ¬ j = i := fun h => hi h.symm
            simp [Crew.modLane, hi, this]
      · have : ¬ c = d := fun h => hd h.symm
        simp only [hd, this, false_and, if_false, List.getElem?_modify]
        cases hk : b.crews[d]? <;> simp
  · simp [hv]

theorem sameButPark_refl (l : Lane) : SameButPark l l := rfl

theorem sameButPark_trans {a b c : Lane} (h : SameButPark a b) (h' : SameButPark b c) : SameButPark a c := by
  unfold SameButPark at h h' ⊢; rw [← h'] ; rw [← h]

theorem unparkWhere_lane {c : Crew} {p : Park → Bool} {j : Nat} {l : Lane} (h : c.lanes[j]? = some l) :
    ∃ l', (c.unparkWhere p).lanes[j]? = some l' ∧ SameButPark l l' := by
  simp only [Crew.unparkWhere, List.getElem?_map, h, Option.map_some, Option.some.injEq, exists_eq_left']
  split
  · split <;> rfl
  · rfl

/-- Lanes after crews of a block were mapped one by one. -/
theorem laneAt_mapBlocks {s : State} {f : Block → Block} (hf : ∀ b, (f b).uid = b.uid)
    (hl : ∀ (b : Block) (c : Nat) (k : Crew) (j : Nat) (l : Lane), b.crews[c]? = some k → k.lanes[j]? = some l →
      ∃ (k' : Crew) (l' : Lane), (f b).crews[c]? = some k' ∧ k'.lanes[j]? = some l' ∧ SameButPark l l') {u c j : Nat} {l : Lane}
    (h : s.laneAt u c j = some l) : ∃ l', (s.mapBlocks f).laneAt u c j = some l' ∧ SameButPark l l' := by
  obtain ⟨b, k, hb, hc, hj⟩ := laneAt_some h
  obtain ⟨k', l', hk', hl', hp⟩ := hl b c k j l hc hj
  have hp' : ((·.uid == u) ∘ f) = fun b : Block => b.uid == u := by funext b; simp [hf]
  have : (s.mapBlocks f).block? u = some (f b) := by
    simp only [State.block?, State.mapBlocks, List.find?_map, hp'] at hb ⊢
    simp [hb]
  exact ⟨l', by rw [laneAt_eq this hk', hl'], hp⟩

theorem modBlock_eq_map (s : State) (u : Nat) (f : Block → Block) :
    s.modBlock u f = s.mapBlocks fun b => if b.uid == u then f b else b := rfl

/-- Looking at the barriers again lets lanes go, and changes nothing else of a lane. -/
theorem laneAt_settle {s : State} (v : Nat) {u c j : Nat} {l : Lane} (h : s.laneAt u c j = some l) :
    ∃ l', (s.settle v).laneAt u c j = some l' ∧ SameButPark l l' := by
  have step : ∀ (p : Park → Bool) (b : Block) (c : Nat) (k : Crew) (j : Nat) (l : Lane), b.crews[c]? = some k →
      k.lanes[j]? = some l → ∃ (k' : Crew) (l' : Lane), (b.crews.map (·.unparkWhere p))[c]? = some k' ∧ k'.lanes[j]? = some l' ∧ SameButPark l l' := by
    intro p b c k j l hc hj
    obtain ⟨l', hl', hs⟩ := unparkWhere_lane (p := p) hj
    exact ⟨_, l', by simp [hc], hl', hs⟩
  obtain ⟨l1, h1, p1⟩ : ∃ l1, (s.modBlock v Block.settleBar).laneAt u c j = some l1 ∧ SameButPark l l1 := by
    rw [modBlock_eq_map]
    refine laneAt_mapBlocks (fun b => ?_) (fun b c k j l hc hj => ?_) h
    · simp only [Block.settleBar]; split <;> [split; skip] <;> rfl
    · split
      · simp only [Block.settleBar]
        split
        · exact step _ b c k j l hc hj
        · exact ⟨k, l, hc, hj, rfl⟩
      · exact ⟨k, l, hc, hj, rfl⟩
  obtain ⟨l2, h2, p2⟩ : ∃ l2, ((s.modBlock v Block.settleBar).settleBarc v).laneAt u c j = some l2 ∧ SameButPark l1 l2 := by
    simp only [State.settleBarc]
    split
    · exact ⟨l1, h1, rfl⟩
    · split
      · refine laneAt_mapBlocks (fun b => ?_) (fun b c k j l hc hj => ?_) h1
        · split <;> rfl
        · split
          · exact step _ b c k j l hc hj
          · exact ⟨k, l, hc, hj, rfl⟩
      · exact ⟨l1, h1, rfl⟩
  exact ⟨l2, h2, sameButPark_trans p1 p2⟩

/-- Looking at the barriers again changes only blocks. -/
theorem settle_device (s : State) (v : Nat) : { s.settle v with blocks := s.blocks } = s := by
  simp only [State.settle, State.settleBarc]
  split
  · rfl
  · split <;> rfl

theorem settle_same (s : State) (v : Nat) : SameDevice s (s.settle v) := by
  refine ⟨?_⟩
  have e : ({ s.settle v with blocks := s.blocks, funcs := s.funcs, hostMsgs := s.hostMsgs } : State)
      = { ({ s.settle v with blocks := s.blocks } : State) with funcs := s.funcs, hostMsgs := s.hostMsgs } := rfl
  rw [e, settle_device]

@[simp] theorem settle_gathered (s : State) (v : Nat) : (s.settle v).gathered = s.gathered := by
  have := congrArg State.gathered (settle_device s v)
  exact this

@[simp] theorem settle_cyc (s : State) (v : Nat) : (s.settle v).cyc = s.cyc := by
  have := congrArg State.cyc (settle_device s v)
  exact this

/-! ### Taking an exception -/

/-- Taking an exception in a lane of a block: the lane leaves with the places given, keeps its registers, and is handed to
the gathering of its core; no byte of memory changes. -/
theorem trapLane_spec {s : State} {k : Ctx} {j : Nat} {l : Lane} (hh : k.b.hnd = []) (hl : s.laneAt k.b.uid k.ci j = some l)
    (cause : Cause) (fault : DWord) (off wl ro : Word) :
    (∃ l', (s.trapLane k j cause fault off wl ro).laneAt k.b.uid k.ci j = some l' ∧ TrappedAt l l' wl ro)
    ∧ (s.trapLane k j cause fault off wl ro).gathered = s.gathered ++ [k.handed j cause fault off s.cyc]
    ∧ SameMemory s (s.trapLane k j cause fault off wl ro) := by
  have e : s.trapLane k j cause fault off wl ro
      = ((s.modLane k.b.uid k.ci j fun l => { l with trapped := true, act := false, wl := wl, ro := ro }).gather k.b.core
          { cause := cause, tag := k.tag cause j, origin := some ⟨k.b.uid, k.ci, j⟩, fault := fault, off := off,
            part := k.b.part, time := 0, decided := false }).settle k.b.uid := by
    simp [State.trapLane, hh]
  have h1 : (s.modLane k.b.uid k.ci j fun l => { l with trapped := true, act := false, wl := wl, ro := ro }).laneAt k.b.uid k.ci j
      = some { l with trapped := true, act := false, wl := wl, ro := ro } := by
    rw [laneAt_modLane]; simp [hl]
  refine ⟨?_, ?_, ?_⟩
  · obtain ⟨l', hl', hp⟩ := laneAt_settle (s := (s.modLane k.b.uid k.ci j fun l =>
      { l with trapped := true, act := false, wl := wl, ro := ro }).gather k.b.core
        { cause := cause, tag := k.tag cause j, origin := some ⟨k.b.uid, k.ci, j⟩, fault := fault, off := off,
          part := k.b.part, time := 0, decided := false }) k.b.uid h1
    refine ⟨l', by rw [e]; exact hl', ?_⟩
    unfold SameButPark at hp
    rw [← hp]
    exact ⟨rfl, rfl, rfl, rfl, ⟨rfl, rfl⟩, rfl, rfl, rfl, rfl, rfl, rfl, rfl, rfl, rfl⟩
  · rw [e, settle_gathered]; rfl
  · rw [e]
    have := sameDevice_memory (settle_same ((s.modLane k.b.uid k.ci j fun l =>
      { l with trapped := true, act := false, wl := wl, ro := ro }).gather k.b.core
        { cause := cause, tag := k.tag cause j, origin := some ⟨k.b.uid, k.ci, j⟩, fault := fault, off := off,
          part := k.b.part, time := 0, decided := false }) k.b.uid)
    intro slot time a
    rw [this slot time a]
    rfl

/-- What taking an exception hands to the gathering of its core, and that it changes blocks and the gathering alone. -/
theorem trapLane_gathers {s : State} {k : Ctx} (j : Nat) (hh : k.b.hnd = []) (cause : Cause) (fault : DWord) (off wl ro : Word) :
    (s.trapLane k j cause fault off wl ro).gathered = s.gathered ++ [k.handed j cause fault off s.cyc]
    ∧ (s.trapLane k j cause fault off wl ro).cyc = s.cyc
    ∧ SameMemory s (s.trapLane k j cause fault off wl ro) := by
  have e : s.trapLane k j cause fault off wl ro
      = ((s.modLane k.b.uid k.ci j fun l => { l with trapped := true, act := false, wl := wl, ro := ro }).gather k.b.core
          { cause := cause, tag := k.tag cause j, origin := some ⟨k.b.uid, k.ci, j⟩, fault := fault, off := off,
            part := k.b.part, time := 0, decided := false }).settle k.b.uid := by
    simp [State.trapLane, hh]
  rw [e]
  refine ⟨by rw [settle_gathered]; rfl, by rw [settle_cyc]; rfl, ?_⟩
  have := sameDevice_memory (settle_same ((s.modLane k.b.uid k.ci j fun l =>
    { l with trapped := true, act := false, wl := wl, ro := ro }).gather k.b.core
      { cause := cause, tag := k.tag cause j, origin := some ⟨k.b.uid, k.ci, j⟩, fault := fault, off := off,
        part := k.b.part, time := 0, decided := false }) k.b.uid)
  intro slot time a
  rw [this slot time a]
  rfl

/-- Taking an exception in one lane leaves every other lane as it is, but that a barrier may let it go. -/
theorem trapLane_other {s : State} {k : Ctx} {j : Nat} (hh : k.b.hnd = []) (cause : Cause) (fault : DWord) (off wl ro : Word)
    {u c i : Nat} {l : Lane} (hl : s.laneAt u c i = some l) (hne : ¬ (u = k.b.uid ∧ c = k.ci ∧ i = j)) :
    ∃ l', (s.trapLane k j cause fault off wl ro).laneAt u c i = some l' ∧ SameButPark l l' := by
  have e : s.trapLane k j cause fault off wl ro
      = ((s.modLane k.b.uid k.ci j fun l => { l with trapped := true, act := false, wl := wl, ro := ro }).gather k.b.core
          { cause := cause, tag := k.tag cause j, origin := some ⟨k.b.uid, k.ci, j⟩, fault := fault, off := off,
            part := k.b.part, time := 0, decided := false }).settle k.b.uid := by
    simp [State.trapLane, hh]
  rw [e]
  refine laneAt_settle k.b.uid ?_
  have : (s.modLane k.b.uid k.ci j fun l => { l with trapped := true, act := false, wl := wl, ro := ro }).laneAt u c i = some l := by
    rw [laneAt_modLane, if_neg hne, hl]
  exact this

theorem sameMemory_trans {s t u : State} (h : SameMemory s t) (h' : SameMemory t u) : SameMemory s u := fun slot time a => by
  rw [h' slot time a, h slot time a]

theorem trappedAt_of {l a b : Lane} {wl ro : Word} (h : TrappedAt l a wl ro) (hp : SameButPark a b) : TrappedAt l b wl ro := by
  unfold SameButPark at hp
  rw [← hp]
  exact ⟨h.trapped, h.act, h.wl, h.ro, h.regs, h.rest⟩

theorem trappedAt_from {l a b : Lane} {wl ro : Word} (h : TrappedAt a b wl ro) (hp : SameButPark l a) : TrappedAt l b wl ro := by
  unfold SameButPark at hp
  rw [← hp] at h
  exact ⟨h.trapped, h.act, h.wl, h.ro, h.regs, h.rest⟩

/-- Taking an exception in each of some lanes of the issuing crew. -/
theorem trapEach {k : Ctx} (hh : k.b.hnd = []) (cause : Cause) (fault : DWord) : ∀ (ps : List (Nat × Lane)) (s : State),
    (∀ p ∈ ps, k.c.lanes[p.1]? = some p.2) → (ps.map (·.1)).Nodup →
    (∀ p ∈ ps, ∃ l0, s.laneAt k.b.uid k.ci p.1 = some l0 ∧ SameButPark p.2 l0) →
    let t := ps.foldl (fun s p => s.trapAgain k p.1 cause fault) s
    SameMemory s t ∧ t.cyc = s.cyc
      ∧ t.gathered = s.gathered ++ (ps.map fun p => k.handed p.1 cause fault k.pc s.cyc)
      ∧ (∀ p ∈ ps, ∃ l', t.laneAt k.b.uid k.ci p.1 = some l' ∧ TrappedAt p.2 l' p.2.wl k.again)
      ∧ ∀ i l, (∀ p ∈ ps, p.1 ≠ i) → s.laneAt k.b.uid k.ci i = some l →
          ∃ l', t.laneAt k.b.uid k.ci i = some l' ∧ SameButPark l l'
  | [], s, _, _, _ => ⟨fun _ _ _ => rfl, rfl, by simp, by simp, fun i l _ h => ⟨l, h, rfl⟩⟩
  | p :: ps, s, hk, hn, hs => by
    obtain ⟨l0, h0, hp0⟩ := hs p List.mem_cons_self
    have hkp := hk p List.mem_cons_self
    simp only [List.map_cons, List.nodup_cons] at hn
    have e : s.trapAgain k p.1 cause fault = s.trapLane k p.1 cause fault k.pc p.2.wl k.again := by
      simp only [State.trapAgain, hkp]
    obtain ⟨⟨l1, h1, ht1⟩, hg, hm⟩ := trapLane_spec hh h0 cause fault k.pc p.2.wl k.again
    have hc := (trapLane_gathers (s := s) p.1 hh cause fault k.pc p.2.wl k.again).2.1
    have hoth : ∀ i l, p.1 ≠ i → s.laneAt k.b.uid k.ci i = some l →
        ∃ l', (s.trapLane k p.1 cause fault k.pc p.2.wl k.again).laneAt k.b.uid k.ci i = some l' ∧ SameButPark l l' :=
      fun i l hne hl => trapLane_other hh cause fault k.pc p.2.wl k.again hl fun h => hne h.2.2.symm
    have hne : ∀ q ∈ ps, p.1 ≠ q.1 := fun q hq he => hn.1 (List.mem_map.mpr ⟨q, hq, he.symm⟩)
    obtain ⟨im, ic, ig, il, io⟩ := trapEach hh cause fault ps (s.trapLane k p.1 cause fault k.pc p.2.wl k.again)
      (fun q hq => hk q (List.mem_cons_of_mem _ hq)) hn.2 (fun q hq => by
        obtain ⟨m, hm, hpm⟩ := hs q (List.mem_cons_of_mem _ hq)
        obtain ⟨m', hm', hpm'⟩ := hoth _ m (hne q hq) hm
        exact ⟨m', hm', sameButPark_trans hpm hpm'⟩)
    simp only [List.foldl_cons, e]
    refine ⟨sameMemory_trans hm im, ic.trans hc, ?_, ?_, ?_⟩
    · rw [ig, hg, hc]; simp
    · intro q hq
      rcases List.mem_cons.mp hq with rfl | hq
      · obtain ⟨l', hl', hp'⟩ := io _ l1 (fun r hr he => hne r hr he.symm) h1
        exact ⟨l', hl', trappedAt_from (trappedAt_of ht1 hp') hp0⟩
      · exact il q hq
    · intro i l hi hl
      obtain ⟨m, hm, hpm⟩ := hoth i l (hi p List.mem_cons_self) hl
      obtain ⟨m', hm', hpm'⟩ := io i m (fun r hr => hi r (List.mem_cons_of_mem _ hr)) hm
      exact ⟨m', hm', sameButPark_trans hpm hpm'⟩

/-- A change of the crew that issues which leaves its lanes alone. -/
theorem laneAt_modCur {f : Crew → Crew} (hf : ∀ c, (f c).lanes = c.lanes) (s : State) (k : Ctx) (u ci j : Nat) :
    (s.modCur k f).laneAt u ci j = s.laneAt u ci j := by
  simp only [State.laneAt, State.crew?, State.modCur, block_modCrew]
  by_cases hu : u = k.b.uid
  · subst hu
    simp only [if_true]
    cases hb : s.block? k.b.uid with
    | none => rfl
    | some b =>
      simp only [Option.map_some, Block.modCrew, List.getElem?_modify]
      cases hk : b.crews[ci]? with
      | none => simp
      | some c => by_cases e : k.ci = ci <;> simp [e, hf]
  · simp [hu]

/-- A trap of every active lane, whatever its guard (05_encoding R69), where the crew's lanes stand as the context has them. -/
theorem trapActive_spec {s : State} {k : Ctx} (hs : ∀ j, s.laneAt k.b.uid k.ci j = k.c.lanes[j]?) (hh : k.b.hnd = []) (cause : Cause) :
    SameMemory s (s.trapActive k cause)
      ∧ (s.trapActive k cause).gathered = s.gathered ++ ((k.c.slots.filter (·.2.act)).map fun p =>
          k.handed p.1 cause (k.b.codeVa k.pc) k.pc s.cyc)
      ∧ ∀ j l, k.c.lanes[j]? = some l → l.act = true →
          ∃ l', (s.trapActive k cause).laneAt k.b.uid k.ci j = some l' ∧ TrappedAt l l' l.wl k.again := by
  have hmem : ∀ p, p ∈ k.c.slots.filter (·.2.act) ↔ k.c.lanes[p.1]? = some p.2 ∧ p.2.act = true := by
    rintro ⟨j, l⟩
    simp only [Crew.slots, List.mem_filter]
    refine and_congr_left fun _ => ?_
    rw [List.mem_iff_getElem?]
    constructor
    · rintro ⟨i, hi⟩
      simp only [List.getElem?_mapIdx, Option.map_eq_some_iff, Prod.mk.injEq] at hi
      obtain ⟨x, hx, rfl, rfl⟩ := hi
      exact hx
    · intro h
      exact ⟨j, by simp [h]⟩
  have hn : ((k.c.slots.filter (·.2.act)).map (·.1)).Nodup := by
    have h : (k.c.slots.map (·.1)).Nodup := by rw [slots_fst]; exact List.nodup_range
    exact h.sublist (List.Sublist.map _ List.filter_sublist)
  obtain ⟨im, -, ig, il, -⟩ := trapEach hh cause (k.b.codeVa k.pc) _ s (fun p hp => ((hmem p).mp hp).1) hn fun p hp =>
    ⟨p.2, by rw [hs]; exact ((hmem p).mp hp).1, rfl⟩
  exact ⟨im, ig, fun j l hj ha => il (j, l) ((hmem (j, l)).mpr ⟨hj, ha⟩)⟩

/-- What an instruction that fails a check of R69 does: its crew's count of ready cycles begins anew, and its active lanes trap. -/
theorem noteTrap_spec {s : State} {k : Ctx} (h : s.issuing = some k) (hh : k.b.hnd = []) (i : Instr) (cause : Cause) :
    SameMemory s ((s.noteIssue k i).trapActive k cause)
      ∧ ((s.noteIssue k i).trapActive k cause).gathered = s.gathered ++ ((k.c.slots.filter (·.2.act)).map fun p =>
          k.handed p.1 cause (k.b.codeVa k.pc) k.pc s.cyc)
      ∧ ∀ j l, k.c.lanes[j]? = some l → l.act = true →
          ∃ l', ((s.noteIssue k i).trapActive k cause).laneAt k.b.uid k.ci j = some l' ∧ TrappedAt l l' l.wl k.again := by
  obtain ⟨hb, hc, -, -⟩ := issuing_eq h
  have hs : ∀ j, (s.noteIssue k i).laneAt k.b.uid k.ci j = k.c.lanes[j]? := fun j => by
    unfold State.noteIssue
    refine (laneAt_modCur ?_ s k _ _ j).trans (laneAt_eq hb hc)
    exact fun _ => rfl
  obtain ⟨a, b, c⟩ := trapActive_spec hs hh cause
  exact ⟨sameMemory_trans (fun _ _ _ => rfl) a, b, c⟩

end Sys2Proof.Laws
end

