-- ==== Sys2Proof/Laws/Events.lean ====
section
/-! SUPPORT. What the shared operations of the device's own moves do: to blocks, crews, functions, partitions and networks, to
scratchpads and arrival words, to the barriers, and through the host's apertures. -/

open Sys2Proof Sys2Proof.Machine

namespace Sys2Proof.Laws

/-- States with one home memory, history and keys read alike. -/
theorem sameMem {s t : State} (hm : t.mem = s.mem) (hl : t.log = s.log) (hq : t.qkeys = s.qkeys) (hk : t.keys = s.keys)
    (hz : t.zeroKey = s.zeroKey := by rfl) (h2 : ∀ sl x, (t.slotLine sl x).map (fun l => (l.wrote x, l.filled x))
      = (s.slotLine sl x).map fun l => (l.wrote x, l.filled x) := by intros; rfl) : SameMemory s t :=
  fun slot time a => readAt_congr hm hl hq hk hz h2 slot time a

/-! ### Looking up what was changed -/

theorem modBlock_at {s : State} {u : Nat} {b : Block} {f : Block → Block} (hf : ∀ b, (f b).uid = b.uid) (h : s.block? u = some b) :
   (s.modBlock u f).block? u = some (f b) := by rw [block_modBlock s hf, if_pos rfl, h]; rfl
theorem modCrew_at {s : State} {u ci : Nat} {b : Block} {c : Crew} {f : Crew → Crew} (h : s.crew? u ci = some (b, c)) :
   (s.modCrew u ci f).crew? u ci = some (b.modCrew ci f, f c) := by
  obtain ⟨hb, hc⟩ := block_of_crew h
  apply crew_eq
  · rw [block_modCrew, if_pos rfl, hb]; rfl
  · simp only [Block.modCrew, modify_set _ hc, set_get hc]

theorem net_modNet (s : State) (n k : Nat) (f : Net → Net) (h : n < s.nets.length) : (s.modNet n f).net k = if k = n then f (s.net n) else s.net k := by
  simp only [State.net, State.modNet, List.getElem?_modify]
  by_cases hk : k = n
  · subst hk; rw [List.getElem?_eq_getElem h]; simp
  · simp [hk, Ne.symm hk]

theorem part_modPart (s : State) (p q : Nat) (f : Machine.Part → Machine.Part) (h : p < s.parts.length) : (s.modPart p f).part q = if q = p then f (s.part p) else s.part q := by
  simp only [State.part, State.modPart, List.getElem?_modify]
  by_cases hk : q = p
  · subst hk; rw [List.getElem?_eq_getElem h]; simp
  · simp [hk, Ne.symm hk]
theorem func_modFunc (s : State) (v w : Nat) (f : Func → Func) (hv : v < s.funcs.length) : (s.modFunc v f).func w = if w = v then f (s.func v) else s.func w := by
  simp only [State.func, State.modFunc, List.getElem?_modify]
  by_cases h : w = v
  · subst h; rw [List.getElem?_eq_getElem hv]; simp
  · simp [h, Ne.symm h]

theorem report_block (s : State) (b : Block) (c l : Nat) (x : Cause) (d : DWord) (w : Word) (v : Nat) :
    (s.report b c l x d w).block? v = s.block? v := by
  simp only [State.report]; split <;> rfl
theorem report_mem (s : State) (b : Block) (c l : Nat) (x : Cause) (d : DWord) (w : Word) : SameMemory s (s.report b c l x d w) := by
  simp only [State.report]; split
  · exact sameMem rfl rfl rfl rfl
  · exact sameMem rfl rfl rfl rfl

theorem count_block (s : State) (v e : Nat) (ok : Nat → Bool) (u : Nat) : (s.count v e ok).block? u = s.block? u := by
  simp only [State.block?, count_blocks]

theorem count_nets (s : State) (v e : Nat) (ok : Nat → Bool) : (s.count v e ok).nets = s.nets :=
  (congrArg State.nets (count_device s v e ok).same :)

/-! ### Folds -/

theorem foldl_one {α : Type} (f : State → α → State) (x : α) : ∀ (l : List α) (s : State), x ∈ l → l.Nodup → (∀ y, y ≠ x → ∀ s, f s y = s) → l.foldl f s = f s x
  | [], _, h, _, _ => by cases h
  | y :: l, s, h, hn, hf => by
    rw [List.foldl_cons]
    have hn' := List.nodup_cons.mp hn
    by_cases hy : y = x
    · subst hy
      have : ∀ (l : List α) (s : State), y ∉ l → l.foldl f s = s := by
        intro l
        induction l with
        | nil => intros; rfl
        | cons z l ih =>
          intro s hm
          rw [List.foldl_cons, hf z (fun e => hm (by simp [e])), ih _ fun e => hm (by simp [e])]
      exact this l _ hn'.1
    · rw [hf y hy]
      exact foldl_one f x l s (by rcases List.mem_cons.mp h with h | h; exact absurd h.symm hy; exact h) hn'.2 hf

theorem foldl_keep {α β : Type} (f : State → α → State) (p : State → β) (hf : ∀ s a, p (f s a) = p s) : ∀ (l : List α) (s : State), p (l.foldl f s) = p s
  | [], _ => rfl
  | a :: l, s => (foldl_keep f p hf l (f s a)).trans (hf s a)

/-- The smallest label of a fold over lanes is one of theirs, and no other is smaller. -/
theorem smallest_fold : ∀ (ls : List Lane) (a : Option Word) (x : Word), ls.foldl (fun (a : Option Word) l => match a with
    | some x => some (if l.wl.toNat < x.toNat then l.wl else x)
    | none => some l.wl) a = some x → (a = some x ∨ ∃ l ∈ ls, l.wl = x) ∧ (∀ y, a = some y → x.toNat ≤ y.toNat) ∧ ∀ l ∈ ls, x.toNat ≤ l.wl.toNat
  | [], a, x, h => by simp at h; subst h; simp
  | l :: ls, a, x, h => by
    rw [List.foldl_cons] at h
    obtain ⟨h1, h2, h3⟩ := smallest_fold ls _ x h
    cases a with
    | none =>
      simp only at h1 h2
      have := h2 _ rfl
      refine ⟨Or.inr ?_, by simp, ?_⟩
      · rcases h1 with h1 | ⟨m, hm, e⟩
        · exact ⟨l, by simp, by simpa using h1⟩
        · exact ⟨m, by simp [hm], e⟩
      · intro m hm
        rcases List.mem_cons.mp hm with rfl | hm
        · exact this
        · exact h3 m hm
    | some y =>
      simp only at h1 h2
      have h4 := h2 _ rfl
      refine ⟨?_, ?_, ?_⟩
      · rcases h1 with h1 | ⟨m, hm, e⟩
        · simp only [Option.some.injEq] at h1
          split at h1
          · exact Or.inr ⟨l, by simp, h1⟩
          · exact Or.inl (by rw [h1])
        · exact Or.inr ⟨m, by simp [hm], e⟩
      · intro z hz; cases hz
        split at h4 <;> omega
      · intro m hm
        rcases List.mem_cons.mp hm with rfl | hm
        · split at h4 <;> omega
        · exact h3 m hm

/-- A trap of the lanes that a test picks does nothing when it picks none. -/
theorem seqTrap_none {s : State} {u ci : Nat} {b : Block} {c : Crew} (h : s.crew? u ci = some (b, c)) {p : Lane → Bool} (hp : ∀ l ∈ c.lanes, p l = false)
    (x : Cause) (f : Lane → DWord) (o : Lane → Word) : s.seqTrap u ci p x f o = s := by
  simp only [State.seqTrap, h]
  have : (c.slots.filter fun x => p x.2) = [] := by
    rw [List.filter_eq_nil_iff]
    intro q hq
    simp only [Crew.slots, List.mem_mapIdx] at hq
    obtain ⟨i, hi, rfl⟩ := hq
    simp [hp _ (List.getElem_mem hi)]
  rw [this]; rfl

/-! ### Little-endian numbers -/

theorem leNat_leBytes : ∀ (n x : Nat), leNat (leBytes n x) = x % 256 ^ n
  | 0, x => by simp [leBytes, leNat, Nat.mod_one]
  | n + 1, x => by
    have e : leBytes (n + 1) x = BitVec.ofNat 8 x :: leBytes n (x / 256) := by
      simp only [leBytes, List.range_succ_eq_map, List.map_cons, List.map_map]
      congr 1
      · simp
      · apply List.map_congr_left; intro i _
        simp only [Function.comp, Nat.pow_succ, Nat.div_div_eq_div_mul]; congr 2; rw [Nat.mul_comm]
    have ih := leNat_leBytes n (x / 256)
    rw [e]
    show (BitVec.ofNat 8 x).toNat + 256 * leNat (leBytes n (x / 256)) = _
    rw [ih, BitVec.toNat_ofNat, show 256 ^ (n + 1) = 256 * 256 ^ n from Nat.pow_succ', Nat.mod_mul]

/-! ### Scratchpads and arrival words -/

/-- The bytes just written read back. -/
theorem memBytes_memWrites {m : List Host.Cell} (h : memWf m = true) (a : Nat) (bs : List Byte) :
    memBytes (memWrites m (cellsOf a bs)) a bs.length = bs := by
  apply List.ext_getElem
  · simp [memBytes]
  · intro i h1 h2
    simp only [memBytes, List.getElem_map, List.getElem_range]
    rw [memRead_memWrites _ _ h, find_cellsOf a bs i bs[i] (List.getElem?_eq_getElem h2)]
    rfl
/-- A number's bytes read back in parts. -/
theorem byte_of_mod (x n i : Nat) (h : i < n) : BitVec.ofNat 8 (x % 256 ^ n / 256 ^ i) = BitVec.ofNat 8 (x / 256 ^ i) := by
  apply BitVec.eq_of_toNat_eq
  simp only [BitVec.toNat_ofNat]
  obtain ⟨d, rfl⟩ : ∃ d, n = i + 1 + d := ⟨n - i - 1, by omega⟩
  rw [show 256 ^ (i + 1 + d) = 256 ^ i * (256 * 256 ^ d) by rw [Nat.pow_add, Nat.pow_succ, Nat.mul_assoc], Nat.mod_mul_right_div_self,
    show (2 : Nat) ^ 8 = 256 from rfl, Nat.mod_mul_right_mod]

/-- Noting what a scratchpad write replaces changes nothing else (R181). -/
theorem noteSp_keeps (b : Block) (a n : Nat) : (b.noteSp a n).uid = b.uid ∧ (b.noteSp a n).ccmds = b.ccmds ∧ (b.noteSp a n).scratch = b.scratch := by
  simp only [Block.noteSp]; split <;> exact ⟨rfl, rfl, rfl⟩

theorem scratchStore_spec (s : State) (t a : Nat) (bs : List Byte) (u : Nat) {b : Block} (h : s.block? u = some b) :
    SameMemory s (s.scratchStore t a bs) ∧ ∃ b', (s.scratchStore t a bs).block? u = some b' ∧ b'.ccmds = b.ccmds := by
  refine ⟨sameMem rfl rfl rfl rfl, ?_⟩
  have e := block_modBlock s (u := t) (v := u) (f := fun b => ((b.noteSp a bs.length).scratchWrite a bs).wakeAwait) fun b => (noteSp_keeps b a bs.length).1
  simp only [State.scratchStore]
  rw [e]
  split
  · rename_i e; rw [← e, h]; exact ⟨_, rfl, (noteSp_keeps b a bs.length).2.1⟩
  · exact ⟨b, h, rfl⟩
theorem arriveAt_spec (s : State) (t a n : Nat) (u : Nat) {b : Block} (h : s.block? u = some b) :
    SameMemory s (s.arriveAt t a n) ∧ ∃ b', (s.arriveAt t a n).block? u = some b' ∧ b'.ccmds = b.ccmds := by
  simp only [State.arriveAt]
  split
  · exact scratchStore_spec s t a _ u h
  · exact ⟨sameMem rfl rfl rfl rfl, b, h, rfl⟩
theorem arriveAt_foldl (a n u : Nat) : ∀ (ts : List Nat) (s : State) {b : Block}, s.block? u = some b →
    SameMemory s (ts.foldl (fun s t => s.arriveAt t a n) s) ∧ ∃ b', (ts.foldl (fun s t => s.arriveAt t a n) s).block? u = some b' ∧ b'.ccmds = b.ccmds
  | [], s, b, h => ⟨sameMem rfl rfl rfl rfl, b, h, rfl⟩
  | t :: ts, s, b, h => by
    obtain ⟨m1, b1, h1, e1⟩ := arriveAt_spec s t a n u h
    obtain ⟨m2, b2, h2, e2⟩ := arriveAt_foldl a n u ts _ h1
    exact ⟨sameMemory_trans m1 m2, b2, h2, e2.trans e1⟩

/-! ### Draining the store buffer -/

theorem drainFirst_block (u : Nat) : ∀ (n : Nat) {s : State} {b : Block}, s.block? u = some b → b.storeBuf.length = n → ∃ b', (State.drainFirst u n s).block? u = some b' ∧ b'.storeBuf = [] ∧ b'.refresh = b.refresh
  | 0, s, b, hb, hl => ⟨b, hb, List.length_eq_zero_iff.mp hl, rfl⟩
  | n+1, s, b, hb, hl => by
    have : 0 < b.storeBuf.length := by omega
    obtain ⟨⟨b1, h1, h2, h3⟩, -⟩ := drainAt_spec (n := 0) hb (List.getElem?_eq_getElem this)
    obtain ⟨b2, i1, i2, i3⟩ := drainFirst_block u n h1 (by rw [h2]; cases hh : b.storeBuf <;> simp_all)
    exact ⟨b2, i1, i2, by rw [i3, h3]⟩

/-! ### Barriers looked at again -/

/-- Two crews that differ in nothing but what their lanes are parked for, and whether they sleep. -/
structure SameButParks (c d : Crew) : Prop where
  queue : d.queue = c.queue
  lanes : ∀ l' ∈ d.lanes, ∃ l ∈ c.lanes, SameButPark l l'
theorem sbp_refl (c : Crew) : SameButParks c c := ⟨rfl, fun l h => ⟨l, h, rfl⟩⟩
theorem sbp_trans {a b c : Crew} (h : SameButParks a b) (h' : SameButParks b c) : SameButParks a c := by
  refine ⟨h'.queue.trans h.queue, fun l hl => ?_⟩
  obtain ⟨m, hm, p⟩ := h'.lanes l hl
  obtain ⟨n, hn, q⟩ := h.lanes m hm
  exact ⟨n, hn, sameButPark_trans q p⟩
theorem sbp_unpark (c : Crew) (p : Park → Bool) : SameButParks c (c.unparkWhere p) := by
  refine ⟨rfl, fun l hl => ?_⟩
  obtain ⟨j, hj⟩ := List.mem_iff_getElem?.mp hl
  have : (c.unparkWhere p).lanes[j]? = some l := hj
  cases hc : c.lanes[j]? with
  | none => simp [Crew.unparkWhere, hc] at this
  | some m =>
    obtain ⟨l', h1, h2⟩ := unparkWhere_lane (p := p) hc
    rw [h1] at this; cases this
    exact ⟨m, List.mem_of_getElem? hc, h2⟩
/-- What looking at the barriers again leaves of a block. -/
structure Settled (b b' : Block) : Prop where
  uid : b'.uid = b.uid
  len : b'.crews.length = b.crews.length
  crews : ∀ (ci : Nat) c', b'.crews[ci]? = some c' → ∃ c, b.crews[ci]? = some c ∧ SameButParks c c'
  engines : b'.mcmds = b.mcmds ∧ b'.ccmds = b.ccmds ∧ b'.tiles = b.tiles
theorem settled_refl (b : Block) : Settled b b := ⟨rfl, rfl, fun _ c h => ⟨c, h, sbp_refl c⟩, rfl, rfl, rfl⟩
theorem settled_trans {a b c : Block} (h : Settled a b) (h' : Settled b c) : Settled a c := by
  refine ⟨h'.uid.trans h.uid, h'.len.trans h.len, fun ci x hx => ?_, h'.engines.1.trans h.engines.1, h'.engines.2.1.trans h.engines.2.1, h'.engines.2.2.trans h.engines.2.2⟩
  obtain ⟨y, hy, p⟩ := h'.crews ci x hx
  obtain ⟨z, hz, q⟩ := h.crews ci y hy
  exact ⟨z, hz, sbp_trans q p⟩
theorem crews_unpark {b : Block} {p : Park → Bool} (ci : Nat) (c' : Crew) (h : (b.crews.map (·.unparkWhere p))[ci]? = some c') :
    ∃ c, b.crews[ci]? = some c ∧ SameButParks c c' := by
  rw [List.getElem?_map, Option.map_eq_some_iff] at h
  obtain ⟨c, hc, rfl⟩ := h
  exact ⟨c, hc, sbp_unpark c p⟩
theorem block_settle {s : State} (v : Nat) {u : Nat} {b : Block} (h : s.block? u = some b) :
    ∃ b', (s.settle v).block? u = some b' ∧ Settled b b' := by
  obtain ⟨b1, h1, e1⟩ : ∃ b1, (s.modBlock v Block.settleBar).block? u = some b1 ∧ Settled b b1 := by
    rw [block_modBlock s (fun b => by simp only [Block.settleBar]; split <;> rfl)]
    split
    · rename_i e; subst e; rw [h]
      refine ⟨_, rfl, ?_⟩
      simp only [Block.settleBar]
      split
      · exact ⟨rfl, by simp, crews_unpark, rfl, rfl, rfl⟩
      · exact settled_refl b
    · exact ⟨b, h, settled_refl b⟩
  simp only [State.settle, State.settleBarc]
  split
  · exact ⟨b1, h1, e1⟩
  · split
    · rename_i x _ _
      simp only [State.block?, State.mapBlocks, List.find?_map] at h1 ⊢
      rw [show ((fun y : Block => y.uid == u) ∘ fun y => if (((s.modBlock v Block.settleBar).groupOf x).map (·.uid)).contains y.uid then
          { y with
            barcArr := [], barcInst := y.barcInst + 1
            crews := y.crews.map (·.unparkWhere fun w => w == .barc y.barcInst) } else y) = fun y => y.uid == u by
        funext y; simp only [Function.comp]; split <;> rfl]
      rw [h1]
      refine ⟨_, rfl, settled_trans e1 ?_⟩
      beta_reduce
      split
      · exact ⟨rfl, by simp, crews_unpark, rfl, rfl, rfl⟩
      · exact settled_refl b1
    · exact ⟨b1, h1, e1⟩

/-! ### Crews looked at again -/

/-- What looking at the crews and barriers of a block again leaves of it: what the engines hold. -/
structure KeepsEngines (b b' : Block) : Prop where
  uid : b'.uid = b.uid
  mcmds : b'.mcmds = b.mcmds
  ccmds : b'.ccmds = b.ccmds
  tiles : b'.tiles = b.tiles
  handles : b'.handles = b.handles
  ref : b'.ref = b.ref

theorem keeps_refl (b : Block) : KeepsEngines b b := ⟨rfl, rfl, rfl, rfl, rfl, rfl⟩
theorem keeps_trans {a b c : Block} (h : KeepsEngines a b) (h' : KeepsEngines b c) : KeepsEngines a c :=
  ⟨h'.uid.trans h.uid, h'.mcmds.trans h.mcmds, h'.ccmds.trans h.ccmds, h'.tiles.trans h.tiles, h'.handles.trans h.handles,
    h'.ref.trans h.ref⟩

theorem keeps_modBlock {s : State} (v : Nat) {f : Block → Block} (hf : ∀ b, KeepsEngines b (f b)) {u : Nat} {b : Block}
    (h : s.block? u = some b) : ∃ b', (s.modBlock v f).block? u = some b' ∧ KeepsEngines b b' := by
  rw [block_modBlock s (fun b => (hf b).uid)]
  split
  · rename_i e
    subst e
    rw [h]
    exact ⟨_, rfl, hf b⟩
  · exact ⟨b, h, keeps_refl b⟩

theorem keeps_settle {s : State} (v : Nat) {u : Nat} {b : Block} (h : s.block? u = some b) :
    ∃ b', (s.settle v).block? u = some b' ∧ KeepsEngines b b' := by
  obtain ⟨b1, h1, e1⟩ := keeps_modBlock v (f := Block.settleBar)
    (fun b => by simp only [Block.settleBar]; split <;> exact ⟨rfl, rfl, rfl, rfl, rfl, rfl⟩) h
  simp only [State.settle, State.settleBarc]
  split
  · exact ⟨b1, h1, e1⟩
  · split
    · rename_i x _ _
      simp only [State.block?, State.mapBlocks, List.find?_map] at h1 ⊢
      rw [show ((fun y : Block => y.uid == u) ∘ fun y => if (((s.modBlock v Block.settleBar).groupOf x).map (·.uid)).contains y.uid then
          { y with
            barcArr := [], barcInst := y.barcInst + 1
            crews := y.crews.map (·.unparkWhere fun w => w == .barc y.barcInst) } else y) = fun y => y.uid == u by
        funext y; simp only [Function.comp]; split <;> rfl]
      rw [h1]
      refine ⟨_, rfl, keeps_trans e1 ?_⟩
      beta_reduce
      split
      · exact ⟨rfl, rfl, rfl, rfl, rfl, rfl⟩
      · exact keeps_refl b1
    · exact ⟨b1, h1, e1⟩

theorem keeps_settleCrew {s : State} (v ci : Nat) {u : Nat} {b : Block} (h : s.block? u = some b) :
    ∃ b', (s.settleCrew v ci).block? u = some b' ∧ KeepsEngines b b' := by
  simp only [State.settleCrew]
  split
  · rename_i x _
    obtain ⟨b1, h1, e1⟩ := keeps_modBlock v (f := (·.modCrew ci (Crew.settleShell (x.holdsLast ci))))
      (fun b => ⟨rfl, rfl, rfl, rfl, rfl, rfl⟩) h
    obtain ⟨b2, h2, e2⟩ := keeps_settle v h1
    exact ⟨b2, h2, keeps_trans e1 e2⟩
  · exact ⟨b, h, keeps_refl b⟩

/-- Looking at a block's crews again leaves what its engines hold. -/
theorem keeps_settleCrews {s : State} (v : Nat) {u : Nat} {b : Block} (h : s.block? u = some b) :
    ∃ b', (s.settleCrews v).block? u = some b' ∧ KeepsEngines b b' := by
  simp only [State.settleCrews]
  split
  · rename_i x hx
    clear hx
    generalize List.range x.crews.length = l
    induction l generalizing s b with
    | nil => exact ⟨b, h, keeps_refl b⟩
    | cons ci l ih =>
      obtain ⟨b1, h1, e1⟩ := keeps_settleCrew v ci h
      obtain ⟨b2, h2, e2⟩ := ih h1
      exact ⟨b2, h2, keeps_trans e1 e2⟩
  · exact ⟨b, h, keeps_refl b⟩

/-- Looking at a block's crews again changes nothing but blocks. -/
theorem settleCrews_device (s : State) (u : Nat) : { s.settleCrews u with blocks := s.blocks } = s := by
  have one : ∀ (t : State) ci, { t.settleCrew u ci with blocks := t.blocks } = t := fun t ci => by
    simp only [State.settleCrew]
    split
    · exact (congrArg (fun x : State => { x with blocks := t.blocks }) (settle_device (t.modCrew u ci _) u) :)
    · rfl
  simp only [State.settleCrews]
  split
  · rename_i x _
    generalize List.range x.crews.length = l
    have : ∀ (l : List Nat) (t : State), { t with blocks := s.blocks } = s →
        { l.foldl (fun t ci => t.settleCrew u ci) t with blocks := s.blocks } = s := by
      intro l
      induction l with
      | nil => intro t h; exact h
      | cons ci l ih =>
        intro t h
        refine ih _ ?_
        rw [← h]
        exact (congrArg (fun x : State => { x with blocks := s.blocks }) (one t ci) :)
    exact this l s rfl
  · rfl

/-- What changes blocks alone keeps home memory. -/
theorem device_mem {s t : State} (h : { t with blocks := s.blocks } = s) : SameMemory s t :=
  sameMem (congrArg State.mem h :) (congrArg State.log h :) (congrArg State.qkeys h :) (congrArg State.keys h :) (congrArg State.zeroKey h :)
    fun sl x => (congrArg (fun y : State => (y.slotLine sl x).map fun l => (l.wrote x, l.filled x)) h :)

/-! ### Commands of the matrix unit that leave (R264, R270) -/

/-- The block after a matrix command left. -/
theorem mDone_block {s : State} {u id : Nat} {b : Block} (h : s.block? u = some b) :
    ∃ b', (s.mDone u id).block? u = some b' ∧ b'.tiles = b.tiles ∧ b'.handles = b.handles ∧ b'.ref = b.ref
      ∧ b'.mcmds = b.mcmds.filter (·.id != id) := by
  simp only [State.mDone]
  generalize hf : (fun b : Block => (_ : Block)) = f
  have hu : ∀ b : Block, (f b).uid = b.uid := by rw [← hf]; exact fun _ => rfl
  obtain ⟨b', h', k⟩ := keeps_settleCrews (s := { s.modBlock u f with l2 := (s.modBlock u f).l2.map fun l =>
    { l with pins := l.pins.filter (·.1 != u) } }) u (b := f b) (modBlock_at hu h)
  refine ⟨b', h', k.tiles.trans ?_, k.handles.trans ?_, k.ref.trans ?_, k.mcmds.trans ?_⟩ <;> (rw [← hf]; rfl)

/-- What a line holds does not rest on its pins (R270). -/
theorem pins_seen {s t : State} {f : L2Line → List (Nat × Nat × Nat)} (h : t.l2 = s.l2.map fun l => { l with pins := f l })
    (sl x : Nat) : (t.slotLine sl x).map (fun l => (l.wrote x, l.filled x)) = (s.slotLine sl x).map fun l => (l.wrote x, l.filled x) := by
  simp only [State.slotLine, h]
  rw [find_keep (f := fun l : L2Line => { l with pins := f l }) (fun _ => rfl)]
  cases s.l2.find? fun l => l.print == none && l.line == x / 256 with
  | none => rfl
  | some l =>
    simp only [Option.map_some, Option.filter]
    split <;> rfl
theorem mDone_mem (s : State) (u id : Nat) : SameMemory s (s.mDone u id) := by
  simp only [State.mDone]
  refine sameMemory_trans ?_ (device_mem (settleCrews_device _ _))
  exact sameMem rfl rfl rfl rfl (h2 := pins_seen (f := fun l => l.pins.filter (·.1 != u)) rfl)

/-! ### Apertures (R392) -/

theorem ap_div (a o i : Nat) (h : o + i < apertureSize) : (apertureBase + a * apertureSize + o + i - apertureBase) / apertureSize = a ∧ (apertureBase + a * apertureSize + o + i - apertureBase) % apertureSize = o + i := by
  have e : apertureBase + a * apertureSize + o + i - apertureBase = o + i + a * apertureSize := by omega
  have hp : 0 < apertureSize := by decide
  rw [e, Nat.add_mul_div_right _ _ hp, Nat.div_eq_of_lt h, Nat.add_mul_mod_self_right, Nat.mod_eq_of_lt h]; omega
theorem throughAperture_spec (s : State) (a o i : Nat) (ha : a < 16) (h : o + i < apertureSize) : s.throughAperture (apertureBase + a * apertureSize + o + i) = if s.apertureOn a then some (s.aperturePa a + (o + i), s.apertureKey a) else none := by
  obtain ⟨h1, h2⟩ := ap_div a o i h
  simp only [State.throughAperture, h1, h2]
  have : apertureBase ≤ apertureBase + a * apertureSize + o + i := by omega
  simp [this, ha]
theorem apertureCells_spec (s : State) (a o : Nat) (data : List Byte) (ha : a < 16) (h : o + data.length ≤ apertureSize) (b : Nat) :
    s.apertureCells b (apertureBase + a * apertureSize + o) data = if b = a ∧ s.apertureOn a = true then cellsOf (s.aperturePa a + o) data else [] := by
  have e : ∀ p ∈ data.zipIdx, (if (apertureBase + a * apertureSize + o + p.2 - apertureBase) / apertureSize = b then (s.throughAperture (apertureBase + a * apertureSize + o + p.2)).map fun x => (x.1, p.1) else none)
      = if b = a ∧ s.apertureOn a = true then some (s.aperturePa a + o + p.2, p.1) else none := by
    intro p hp
    have : p.2 < data.length := by
      obtain ⟨x, i⟩ := p
      have := List.mem_zipIdx hp
      simpa using this.2.1
    rw [(ap_div a o p.2 (by omega)).1, throughAperture_spec s a o p.2 ha (by omega)]
    by_cases hb : a = b
    · subst hb; cases s.apertureOn a <;> simp [Nat.add_assoc]
    · simp [hb, Ne.symm hb]
  simp only [State.apertureCells]
  rw [List.filterMap_congr e]
  split
  · simp [cellsOf, List.mapIdx_eq_zipIdx_map]
  · simp

end Sys2Proof.Laws
end

