-- ==== Sys2Proof/Laws/Exec.lean ====
section
/-! SUPPORT. Every instruction of a program issues in the one way of 05_encoding R69: one lemma for each, then one for all. -/

namespace Sys2Proof.Laws

set_option Elab.async false

open Sys2Proof.Machine

/-- The instruction's meaning is its effect, issued. -/
def Issued (i : Instr) : Prop := ∃ eff, ∀ s, exec i s = issue i eff s

theorem issued_nop x0 : Issued (.nop x0) := by
  refine ⟨?_, fun s => ?_⟩; rotate_left; simp only [exec, execNop]; exact rfl
theorem issued_go x0 x1 : Issued (.go x0 x1) := by
  refine ⟨?_, fun s => ?_⟩; rotate_left; simp only [exec, execGo]; exact rfl
theorem issued_gox x0 x1 : Issued (.gox x0 x1) := by
  refine ⟨?_, fun s => ?_⟩; rotate_left; simp only [exec, execGox]; exact rfl
theorem issued_call x0 x1 x2 : Issued (.call x0 x1 x2) := by
  refine ⟨?_, fun s => ?_⟩; rotate_left; simp only [exec, execCall]; exact rfl
theorem issued_callx x0 x1 x2 : Issued (.callx x0 x1 x2) := by
  refine ⟨?_, fun s => ?_⟩; rotate_left; simp only [exec, execCallx]; exact rfl
theorem issued_ret x0 : Issued (.ret x0) := by
  refine ⟨?_, fun s => ?_⟩; rotate_left; simp only [exec, execRet]; exact rfl
theorem issued_done x0 : Issued (.done x0) := by
  refine ⟨?_, fun s => ?_⟩; rotate_left; simp only [exec, execDone]; exact rfl
theorem issued_trap x0 x1 : Issued (.trap x0 x1) := by
  refine ⟨?_, fun s => ?_⟩; rotate_left; simp only [exec, execTrap, trapWith]; exact rfl
theorem issued_brk x0 x1 : Issued (.brk x0 x1) := by
  refine ⟨?_, fun s => ?_⟩; rotate_left; simp only [exec, execBrk, trapWith]; exact rfl
theorem issued_wantc x0 x1 x2 : Issued (.wantc x0 x1 x2) := by
  refine ⟨?_, fun s => ?_⟩; rotate_left; simp only [exec, execWantc, issueAlu]; exact rfl
theorem issued_prefiIc x0 x1 x2 : Issued (.prefiIc x0 x1 x2) := by
  refine ⟨?_, fun s => ?_⟩; rotate_left; simp only [exec, execPrefiIc]; exact rfl
theorem issued_prefiL2 x0 x1 x2 : Issued (.prefiL2 x0 x1 x2) := by
  refine ⟨?_, fun s => ?_⟩; rotate_left; simp only [exec, execPrefiL2]; exact rfl
theorem issued_pini x0 x1 x2 : Issued (.pini x0 x1 x2) := by
  refine ⟨?_, fun s => ?_⟩; rotate_left; simp only [exec, execPini]; exact rfl
theorem issued_unpini x0 x1 x2 : Issued (.unpini x0 x1 x2) := by
  refine ⟨?_, fun s => ?_⟩; rotate_left; simp only [exec, execUnpini]; exact rfl
theorem issued_movs x0 x1 x2 : Issued (.movs x0 x1 x2) := by
  refine ⟨?_, fun s => ?_⟩; rotate_left; simp only [exec, execMovs]; exact rfl
theorem issued_mov x0 x1 x2 x3 : Issued (.mov x0 x1 x2 x3) := by
  refine ⟨?_, fun s => ?_⟩; rotate_left; simp only [exec, execMov, issueAlu]; exact rfl
theorem issued_movi x0 x1 x2 x3 : Issued (.movi x0 x1 x2 x3) := by
  refine ⟨?_, fun s => ?_⟩; rotate_left; simp only [exec]; unfold execMovi issueAlu; exact rfl
theorem issued_movh x0 x1 x2 x3 : Issued (.movh x0 x1 x2 x3) := by
  refine ⟨?_, fun s => ?_⟩; rotate_left; simp only [exec, execMovh, issueAlu]; exact rfl
theorem issued_iadd x0 x1 x2 x3 x4 x5 : Issued (.iadd x0 x1 x2 x3 x4 x5) := by
  refine ⟨?_, fun s => ?_⟩; rotate_left; simp only [exec, execIadd, issueAlu, issueInt]; exact rfl
theorem issued_iadd3 x0 x1 x2 x3 x4 x5 x6 : Issued (.iadd3 x0 x1 x2 x3 x4 x5 x6) := by
  refine ⟨?_, fun s => ?_⟩; rotate_left; simp only [exec, execIadd3, issueAlu, issueInt]; exact rfl
theorem issued_isub x0 x1 x2 x3 x4 x5 : Issued (.isub x0 x1 x2 x3 x4 x5) := by
  refine ⟨?_, fun s => ?_⟩; rotate_left; simp only [exec, execIsub, issueAlu, issueInt]; exact rfl
theorem issued_addc x0 x1 x2 x3 x4 : Issued (.addc x0 x1 x2 x3 x4) := by
  refine ⟨?_, fun s => ?_⟩; rotate_left; simp only [exec, execAddc]; exact rfl
theorem issued_subb x0 x1 x2 x3 x4 : Issued (.subb x0 x1 x2 x3 x4) := by
  refine ⟨?_, fun s => ?_⟩; rotate_left; simp only [exec, execSubb]; exact rfl
theorem issued_imul x0 x1 x2 x3 x4 x5 : Issued (.imul x0 x1 x2 x3 x4 x5) := by
  refine ⟨?_, fun s => ?_⟩; rotate_left; simp only [exec, execImul, issueAlu, issueInt]; exact rfl
theorem issued_imulh x0 x1 x2 x3 x4 : Issued (.imulh x0 x1 x2 x3 x4) := by
  refine ⟨?_, fun s => ?_⟩; rotate_left; simp only [exec, execImulh, issueAlu, issueInt]; exact rfl
theorem issued_imad x0 x1 x2 x3 x4 x5 x6 : Issued (.imad x0 x1 x2 x3 x4 x5 x6) := by
  refine ⟨?_, fun s => ?_⟩; rotate_left; simp only [exec, execImad, issueAlu, issueInt]; exact rfl
theorem issued_imin x0 x1 x2 x3 x4 : Issued (.imin x0 x1 x2 x3 x4) := by
  refine ⟨?_, fun s => ?_⟩; rotate_left; simp only [exec, execImin, issueAlu, issueInt]; exact rfl
theorem issued_imax x0 x1 x2 x3 x4 : Issued (.imax x0 x1 x2 x3 x4) := by
  refine ⟨?_, fun s => ?_⟩; rotate_left; simp only [exec, execImax, issueAlu, issueInt]; exact rfl
theorem issued_iabs x0 x1 x2 x3 x4 : Issued (.iabs x0 x1 x2 x3 x4) := by
  refine ⟨?_, fun s => ?_⟩; rotate_left; simp only [exec, execIabs, issueAlu, issueInt]; exact rfl
theorem issued_ineg x0 x1 x2 x3 x4 : Issued (.ineg x0 x1 x2 x3 x4) := by
  refine ⟨?_, fun s => ?_⟩; rotate_left; simp only [exec, execIneg, issueAlu, issueInt]; exact rfl
theorem issued_and x0 x1 x2 x3 x4 : Issued (.and x0 x1 x2 x3 x4) := by
  refine ⟨?_, fun s => ?_⟩; rotate_left; simp only [exec, execAnd, issueAlu, issueLogic]; exact rfl
theorem issued_or x0 x1 x2 x3 x4 : Issued (.or x0 x1 x2 x3 x4) := by
  refine ⟨?_, fun s => ?_⟩; rotate_left; simp only [exec, execOr, issueAlu, issueLogic]; exact rfl
theorem issued_xor x0 x1 x2 x3 x4 : Issued (.xor x0 x1 x2 x3 x4) := by
  refine ⟨?_, fun s => ?_⟩; rotate_left; simp only [exec, execXor, issueAlu, issueLogic]; exact rfl
theorem issued_andn x0 x1 x2 x3 x4 : Issued (.andn x0 x1 x2 x3 x4) := by
  refine ⟨?_, fun s => ?_⟩; rotate_left; simp only [exec, execAndn, issueAlu, issueLogic]; exact rfl
theorem issued_shl x0 x1 x2 x3 x4 : Issued (.shl x0 x1 x2 x3 x4) := by
  refine ⟨?_, fun s => ?_⟩; rotate_left; simp only [exec, execShl, issueAlu]; exact rfl
theorem issued_shr x0 x1 x2 x3 x4 : Issued (.shr x0 x1 x2 x3 x4) := by
  refine ⟨?_, fun s => ?_⟩; rotate_left; simp only [exec, execShr, issueAlu]; exact rfl
theorem issued_sar x0 x1 x2 x3 x4 : Issued (.sar x0 x1 x2 x3 x4) := by
  refine ⟨?_, fun s => ?_⟩; rotate_left; simp only [exec, execSar, issueAlu, issueInt]; exact rfl
theorem issued_rot x0 x1 x2 x3 x4 : Issued (.rot x0 x1 x2 x3 x4) := by
  refine ⟨?_, fun s => ?_⟩; rotate_left; simp only [exec, execRot, issueAlu]; exact rfl
theorem issued_bfx x0 x1 x2 x3 x4 : Issued (.bfx x0 x1 x2 x3 x4) := by
  refine ⟨?_, fun s => ?_⟩; rotate_left; simp only [exec, execBfx, issueAlu, issueInt]; exact rfl
theorem issued_bfi x0 x1 x2 x3 x4 x5 : Issued (.bfi x0 x1 x2 x3 x4 x5) := by
  refine ⟨?_, fun s => ?_⟩; rotate_left; simp only [exec, execBfi, issueAlu]; exact rfl
theorem issued_popc x0 x1 x2 x3 : Issued (.popc x0 x1 x2 x3) := by
  refine ⟨?_, fun s => ?_⟩; rotate_left; simp only [exec, execPopc, issueAlu]; exact rfl
theorem issued_clz x0 x1 x2 x3 : Issued (.clz x0 x1 x2 x3) := by
  refine ⟨?_, fun s => ?_⟩; rotate_left; simp only [exec, execClz, issueAlu]; exact rfl
theorem issued_ctz x0 x1 x2 x3 : Issued (.ctz x0 x1 x2 x3) := by
  refine ⟨?_, fun s => ?_⟩; rotate_left; simp only [exec, execCtz, issueAlu]; exact rfl
theorem issued_brev x0 x1 x2 x3 : Issued (.brev x0 x1 x2 x3) := by
  refine ⟨?_, fun s => ?_⟩; rotate_left; simp only [exec, execBrev, issueAlu]; exact rfl
theorem issued_icmp x0 x1 x2 x3 x4 x5 x6 x7 : Issued (.icmp x0 x1 x2 x3 x4 x5 x6 x7) := by
  refine ⟨?_, fun s => ?_⟩; rotate_left; simp only [exec, execIcmp]; exact rfl
theorem issued_isel x0 x1 x2 x3 x4 x5 : Issued (.isel x0 x1 x2 x3 x4 x5) := by
  refine ⟨?_, fun s => ?_⟩; rotate_left; simp only [exec, execIsel, issueAlu]; exact rfl
theorem issued_lea x0 x1 x2 x3 x4 x5 : Issued (.lea x0 x1 x2 x3 x4 x5) := by
  refine ⟨?_, fun s => ?_⟩; rotate_left; simp only [exec, execLea, issueAlu]; exact rfl
theorem issued_idot4 x0 x1 x2 x3 x4 x5 x6 x7 : Issued (.idot4 x0 x1 x2 x3 x4 x5 x6 x7) := by
  refine ⟨?_, fun s => ?_⟩; rotate_left; simp only [exec, execIdot4, issueAlu]; exact rfl
theorem issued_got x0 x1 x2 x3 x4 : Issued (.got x0 x1 x2 x3 x4) := by
  refine ⟨?_, fun s => ?_⟩; rotate_left; simp only [exec, execGot]; exact rfl
theorem issued_fadd x0 x1 x2 x3 x4 x5 x6 x7 x8 : Issued (.fadd x0 x1 x2 x3 x4 x5 x6 x7 x8) := by
  refine ⟨?_, fun s => ?_⟩; rotate_left; simp only [exec, execFadd, issueAlu, issueArith]; exact rfl
theorem issued_fsub x0 x1 x2 x3 x4 x5 x6 x7 x8 : Issued (.fsub x0 x1 x2 x3 x4 x5 x6 x7 x8) := by
  refine ⟨?_, fun s => ?_⟩; rotate_left; simp only [exec, execFsub, issueAlu, issueArith]; exact rfl
theorem issued_fmul x0 x1 x2 x3 x4 x5 x6 x7 x8 : Issued (.fmul x0 x1 x2 x3 x4 x5 x6 x7 x8) := by
  refine ⟨?_, fun s => ?_⟩; rotate_left; simp only [exec, execFmul, issueAlu, issueArith]; exact rfl
theorem issued_ffma x0 x1 x2 x3 x4 x5 x6 x7 x8 x9 : Issued (.ffma x0 x1 x2 x3 x4 x5 x6 x7 x8 x9) := by
  refine ⟨?_, fun s => ?_⟩; rotate_left; simp only [exec, execFfma, issueAlu, issueArith]; exact rfl
theorem issued_fmin x0 x1 x2 x3 x4 x5 x6 : Issued (.fmin x0 x1 x2 x3 x4 x5 x6) := by
  refine ⟨?_, fun s => ?_⟩; rotate_left; simp only [exec, execFmin, issueAlu]; exact rfl
theorem issued_fmax x0 x1 x2 x3 x4 x5 x6 : Issued (.fmax x0 x1 x2 x3 x4 x5 x6) := by
  refine ⟨?_, fun s => ?_⟩; rotate_left; simp only [exec, execFmax, issueAlu]; exact rfl
theorem issued_fcmp x0 x1 x2 x3 x4 x5 x6 x7 x8 : Issued (.fcmp x0 x1 x2 x3 x4 x5 x6 x7 x8) := by
  refine ⟨?_, fun s => ?_⟩; rotate_left; simp only [exec, execFcmp]; exact rfl
theorem issued_fclass x0 x1 x2 x3 : Issued (.fclass x0 x1 x2 x3) := by
  refine ⟨?_, fun s => ?_⟩; rotate_left; simp only [exec, execFclass, issueAlu]; exact rfl
theorem issued_frcp x0 x1 x2 x3 x4 x5 x6 : Issued (.frcp x0 x1 x2 x3 x4 x5 x6) := by
  refine ⟨?_, fun s => ?_⟩; rotate_left; simp only [exec, execFrcp, issueAlu, issueUnary]; exact rfl
theorem issued_frsq x0 x1 x2 x3 x4 x5 : Issued (.frsq x0 x1 x2 x3 x4 x5) := by
  refine ⟨?_, fun s => ?_⟩; rotate_left; simp only [exec, execFrsq, issueAlu, issueUnary]; exact rfl
theorem issued_fsqrt x0 x1 x2 x3 x4 x5 x6 : Issued (.fsqrt x0 x1 x2 x3 x4 x5 x6) := by
  refine ⟨?_, fun s => ?_⟩; rotate_left; simp only [exec, execFsqrt, issueAlu, issueUnary]; exact rfl
theorem issued_fexp2 x0 x1 x2 x3 x4 x5 : Issued (.fexp2 x0 x1 x2 x3 x4 x5) := by
  refine ⟨?_, fun s => ?_⟩; rotate_left; simp only [exec, execFexp2, issueAlu, issueUnary]; exact rfl
theorem issued_flog2 x0 x1 x2 x3 x4 x5 : Issued (.flog2 x0 x1 x2 x3 x4 x5) := by
  refine ⟨?_, fun s => ?_⟩; rotate_left; simp only [exec, execFlog2, issueAlu, issueUnary]; exact rfl
theorem issued_fsin x0 x1 x2 x3 x4 x5 : Issued (.fsin x0 x1 x2 x3 x4 x5) := by
  refine ⟨?_, fun s => ?_⟩; rotate_left; simp only [exec, execFsin, issueAlu, issueUnary]; exact rfl
theorem issued_fcos x0 x1 x2 x3 x4 x5 : Issued (.fcos x0 x1 x2 x3 x4 x5) := by
  refine ⟨?_, fun s => ?_⟩; rotate_left; simp only [exec, execFcos, issueAlu, issueUnary]; exact rfl
theorem issued_ftanh x0 x1 x2 x3 x4 x5 : Issued (.ftanh x0 x1 x2 x3 x4 x5) := by
  refine ⟨?_, fun s => ?_⟩; rotate_left; simp only [exec, execFtanh, issueAlu, issueUnary]; exact rfl
theorem issued_fscale x0 x1 x2 x3 x4 x5 x6 x7 : Issued (.fscale x0 x1 x2 x3 x4 x5 x6 x7) := by
  refine ⟨?_, fun s => ?_⟩; rotate_left; simp only [exec, execFscale, issueAlu]; exact rfl
theorem issued_frnd x0 x1 x2 x3 x4 x5 : Issued (.frnd x0 x1 x2 x3 x4 x5) := by
  refine ⟨?_, fun s => ?_⟩; rotate_left; simp only [exec, execFrnd, issueAlu, issueUnary]; exact rfl
theorem issued_fdot2 x0 x1 x2 x3 x4 x5 x6 x7 x8 : Issued (.fdot2 x0 x1 x2 x3 x4 x5 x6 x7 x8) := by
  refine ⟨?_, fun s => ?_⟩; rotate_left; simp only [exec, execFdot2, issueAlu]; exact rfl
theorem issued_cvt x0 x1 x2 x3 x4 x5 x6 x7 x8 : Issued (.cvt x0 x1 x2 x3 x4 x5 x6 x7 x8) := by
  refine ⟨?_, fun s => ?_⟩; rotate_left; simp only [exec, execCvt, issueAlu]; exact rfl
theorem issued_pack x0 x1 x2 x3 x4 x5 x6 x7 x8 x9 x10 : Issued (.pack x0 x1 x2 x3 x4 x5 x6 x7 x8 x9 x10) := by
  refine ⟨?_, fun s => ?_⟩; rotate_left; simp only [exec, execPack, issueAlu]; exact rfl
theorem issued_unpack x0 x1 x2 x3 x4 x5 x6 x7 x8 x9 : Issued (.unpack x0 x1 x2 x3 x4 x5 x6 x7 x8 x9) := by
  refine ⟨?_, fun s => ?_⟩; rotate_left; simp only [exec, execUnpack, issueAlu]; exact rfl
theorem issued_vote x0 x1 x2 x3 : Issued (.vote x0 x1 x2 x3) := by
  refine ⟨?_, fun s => ?_⟩; rotate_left; simp only [exec, execVote, issueAlu]; exact rfl
theorem issued_ballot x0 x1 x2 : Issued (.ballot x0 x1 x2) := by
  refine ⟨?_, fun s => ?_⟩; rotate_left; simp only [exec, execBallot]; exact rfl
theorem issued_shfl x0 x1 x2 x3 x4 x5 : Issued (.shfl x0 x1 x2 x3 x4 x5) := by
  refine ⟨?_, fun s => ?_⟩; rotate_left; simp only [exec, execShfl]; exact rfl
theorem issued_scan x0 x1 x2 x3 x4 x5 x6 x7 x8 : Issued (.scan x0 x1 x2 x3 x4 x5 x6 x7 x8) := by
  refine ⟨?_, fun s => ?_⟩; rotate_left; simp only [exec, execScan]; exact rfl
theorem issued_reduce x0 x1 x2 x3 x4 x5 x6 x7 : Issued (.reduce x0 x1 x2 x3 x4 x5 x6 x7) := by
  refine ⟨?_, fun s => ?_⟩; rotate_left; simp only [exec, execReduce, issueAlu]; exact rfl
theorem issued_matchI x0 x1 x2 x3 x4 : Issued (.matchI x0 x1 x2 x3 x4) := by
  refine ⟨?_, fun s => ?_⟩; rotate_left; simp only [exec, execMatch]; exact rfl
theorem issued_isect x0 x1 x2 x3 x4 x5 x6 : Issued (.isect x0 x1 x2 x3 x4 x5 x6) := by
  refine ⟨?_, fun s => ?_⟩; rotate_left; simp only [exec, execIsect]; exact rfl
theorem issued_regroup x0 x1 x2 x3 : Issued (.regroup x0 x1 x2 x3) := by
  refine ⟨?_, fun s => ?_⟩; rotate_left; simp only [exec]; unfold execRegroup; exact rfl
theorem issued_qnt x0 x1 x2 x3 x4 x5 x6 x7 x8 : Issued (.qnt x0 x1 x2 x3 x4 x5 x6 x7 x8) := by
  refine ⟨?_, fun s => ?_⟩; rotate_left; simp only [exec, execQnt]; exact rfl
theorem issued_take x0 x1 x2 x3 x4 : Issued (.take x0 x1 x2 x3 x4) := by
  refine ⟨?_, fun s => ?_⟩; rotate_left; simp only [exec, execTake, issueOnce]; exact rfl
theorem issued_netcnt x0 x1 x2 : Issued (.netcnt x0 x1 x2) := by
  refine ⟨?_, fun s => ?_⟩; rotate_left; simp only [exec, execNetcnt]; exact rfl
theorem issued_ld x0 x1 x2 x3 x4 x5 : Issued (.ld x0 x1 x2 x3 x4 x5) := by
  refine ⟨?_, fun s => ?_⟩; rotate_left; simp only [exec, execLd, issueLanes]; exact rfl
theorem issued_st x0 x1 x2 x3 x4 : Issued (.st x0 x1 x2 x3 x4) := by
  refine ⟨?_, fun s => ?_⟩; rotate_left; simp only [exec, execSt, issueLanes]; exact rfl
theorem issued_lds x0 x1 x2 x3 : Issued (.lds x0 x1 x2 x3) := by
  refine ⟨?_, fun s => ?_⟩; rotate_left; simp only [exec, execLds, issueLanes]; exact rfl
theorem issued_sts x0 x1 x2 x3 : Issued (.sts x0 x1 x2 x3) := by
  refine ⟨?_, fun s => ?_⟩; rotate_left; simp only [exec, execSts, issueLanes]; exact rfl
theorem issued_ldp x0 x1 x2 x3 : Issued (.ldp x0 x1 x2 x3) := by
  refine ⟨?_, fun s => ?_⟩; rotate_left; simp only [exec, execLdp, issueLanes]; exact rfl
theorem issued_stp x0 x1 x2 x3 : Issued (.stp x0 x1 x2 x3) := by
  refine ⟨?_, fun s => ?_⟩; rotate_left; simp only [exec, execStp, issueLanes]; exact rfl
theorem issued_ldl x0 x1 x2 x3 x4 : Issued (.ldl x0 x1 x2 x3 x4) := by
  refine ⟨?_, fun s => ?_⟩; rotate_left; simp only [exec, execLdl, issueLanes]; exact rfl
theorem issued_stl x0 x1 x2 x3 x4 : Issued (.stl x0 x1 x2 x3 x4) := by
  refine ⟨?_, fun s => ?_⟩; rotate_left; simp only [exec, execStl, issueLanes]; exact rfl
theorem issued_atom x0 x1 x2 x3 x4 x5 : Issued (.atom x0 x1 x2 x3 x4 x5) := by
  refine ⟨?_, fun s => ?_⟩; rotate_left; simp only [exec, execAtom, issueOnce]; exact rfl
theorem issued_cas x0 x1 x2 x3 x4 : Issued (.cas x0 x1 x2 x3 x4) := by
  refine ⟨?_, fun s => ?_⟩; rotate_left; simp only [exec, execCas, issueOnce]; exact rfl
theorem issued_red x0 x1 x2 x3 x4 x5 : Issued (.red x0 x1 x2 x3 x4 x5) := by
  refine ⟨?_, fun s => ?_⟩; rotate_left; simp only [exec, execRed, issueOnce]; exact rfl
theorem issued_fence x0 x1 : Issued (.fence x0 x1) := by
  refine ⟨?_, fun s => ?_⟩; rotate_left; simp only [exec, execFence]; exact rfl
theorem issued_phasePub x0 : Issued (.phasePub x0) := by
  refine ⟨?_, fun s => ?_⟩; rotate_left; simp only [exec, execPhasePub, issuePhase]; exact rfl
theorem issued_phaseRef x0 : Issued (.phaseRef x0) := by
  refine ⟨?_, fun s => ?_⟩; rotate_left; simp only [exec, execPhaseRef, issuePhase]; exact rfl
theorem issued_phaseFull x0 : Issued (.phaseFull x0) := by
  refine ⟨?_, fun s => ?_⟩; rotate_left; simp only [exec, execPhaseFull, issuePhase]; exact rfl
theorem issued_waitc x0 x1 x2 x3 x4 : Issued (.waitc x0 x1 x2 x3 x4) := by
  refine ⟨?_, fun s => ?_⟩; rotate_left; simp only [exec, execWaitc, issueOnce]; exact rfl
theorem issued_pref x0 x1 x2 x3 : Issued (.pref x0 x1 x2 x3) := by
  refine ⟨?_, fun s => ?_⟩; rotate_left; simp only [exec, execPref, issueLanes]; exact rfl
theorem issued_sfence x0 x1 x2 : Issued (.sfence x0 x1 x2) := by
  refine ⟨?_, fun s => ?_⟩; rotate_left; simp only [exec, execSfence]; exact rfl
theorem issued_bar : Issued .bar := by
  refine ⟨?_, fun s => ?_⟩; rotate_left; simp only [exec, execBar, issueOnce]; exact rfl
theorem issued_barc : Issued .barc := by
  refine ⟨?_, fun s => ?_⟩; rotate_left; simp only [exec, execBarc, issueOnce]; exact rfl
theorem issued_awinit x0 x1 x2 : Issued (.awinit x0 x1 x2) := by
  refine ⟨?_, fun s => ?_⟩; rotate_left; simp only [exec, execAwinit, issueOnce]; exact rfl
theorem issued_arrive x0 x1 x2 : Issued (.arrive x0 x1 x2) := by
  refine ⟨?_, fun s => ?_⟩; rotate_left; simp only [exec, execArrive, issueOnce]; exact rfl
theorem issued_await x0 x1 x2 : Issued (.await x0 x1 x2) := by
  refine ⟨?_, fun s => ?_⟩; rotate_left; simp only [exec, execAwait, issueLanes]; exact rfl
theorem issued_mdesc x0 x1 x2 x3 x4 x5 x6 : Issued (.mdesc x0 x1 x2 x3 x4 x5 x6) := by
  refine ⟨?_, fun s => ?_⟩; rotate_left; simp only [exec, execMdesc, issueEngine]; exact rfl
theorem issued_mzero x0 x1 : Issued (.mzero x0 x1) := by
  refine ⟨?_, fun s => ?_⟩; rotate_left; simp only [exec, execMzero, issueEngine]; exact rfl
theorem issued_mwrite x0 x1 x2 x3 x4 x5 : Issued (.mwrite x0 x1 x2 x3 x4 x5) := by
  refine ⟨?_, fun s => ?_⟩; rotate_left; simp only [exec, execMwrite, issueEngine]; exact rfl
theorem issued_mloop x0 x1 x2 x3 x4 x5 x6 x7 : Issued (.mloop x0 x1 x2 x3 x4 x5 x6 x7) := by
  refine ⟨?_, fun s => ?_⟩; rotate_left; simp only [exec, execMloop, issueEngine]; exact rfl
theorem issued_mwait x0 x1 x2 : Issued (.mwait x0 x1 x2) := by
  refine ⟨?_, fun s => ?_⟩; rotate_left; simp only [exec, execMwait, issueLanes]; exact rfl
theorem issued_mread x0 x1 x2 x3 x4 x5 : Issued (.mread x0 x1 x2 x3 x4 x5) := by
  refine ⟨?_, fun s => ?_⟩; rotate_left; simp only [exec, execMread, issueLanes]; exact rfl
theorem issued_mfence x0 : Issued (.mfence x0) := by
  refine ⟨?_, fun s => ?_⟩; rotate_left; simp only [exec, execMfence, issueEngine]; exact rfl
theorem issued_mstat x0 x1 : Issued (.mstat x0 x1) := by
  refine ⟨?_, fun s => ?_⟩; rotate_left; simp only [exec, execMstat, issueEngine]; exact rfl
theorem issued_mstatLog x0 x1 x2 : Issued (.mstatLog x0 x1 x2) := by
  refine ⟨?_, fun s => ?_⟩; rotate_left; simp only [exec, execMstatLog, issueEngine]; exact rfl
theorem issued_mstatExp x0 x1 x2 : Issued (.mstatExp x0 x1 x2) := by
  refine ⟨?_, fun s => ?_⟩; rotate_left; simp only [exec, execMstatExp, issueEngine]; exact rfl
theorem issued_mstatClr x0 : Issued (.mstatClr x0) := by
  refine ⟨?_, fun s => ?_⟩; rotate_left; simp only [exec, execMstatClr, issueEngine]; exact rfl
theorem issued_cgather x0 x1 x2 x3 x4 x5 : Issued (.cgather x0 x1 x2 x3 x4 x5) := by
  refine ⟨?_, fun s => ?_⟩; rotate_left; simp only [exec, execCgather, issueCopy, issueOnce]; exact rfl
theorem issued_cscatter x0 x1 x2 x3 x4 x5 : Issued (.cscatter x0 x1 x2 x3 x4 x5) := by
  refine ⟨?_, fun s => ?_⟩; rotate_left; simp only [exec, execCscatter, issueCopy, issueOnce]; exact rfl
theorem issued_cscatadd x0 x1 x2 x3 x4 x5 x6 : Issued (.cscatadd x0 x1 x2 x3 x4 x5 x6) := by
  refine ⟨?_, fun s => ?_⟩; rotate_left; simp only [exec, execCscatadd, issueCopy, issueOnce]; exact rfl
theorem issued_ccopy x0 x1 x2 x3 x4 x5 x6 : Issued (.ccopy x0 x1 x2 x3 x4 x5 x6) := by
  refine ⟨?_, fun s => ?_⟩; rotate_left; simp only [exec, execCcopy, issueCopy, issueOnce]; exact rfl
theorem issued_cfill x0 x1 x2 x3 x4 x5 : Issued (.cfill x0 x1 x2 x3 x4 x5) := by
  refine ⟨?_, fun s => ?_⟩; rotate_left; simp only [exec, execCfill, issueCopy, issueOnce]; exact rfl
theorem issued_cstat x0 x1 : Issued (.cstat x0 x1) := by
  refine ⟨?_, fun s => ?_⟩; rotate_left; simp only [exec, execCstat, issueEngine]; exact rfl
theorem issued_cstatClr x0 x1 : Issued (.cstatClr x0 x1) := by
  refine ⟨?_, fun s => ?_⟩; rotate_left; simp only [exec, execCstatClr, issueEngine]; exact rfl
theorem issued_xgrp x0 x1 x2 : Issued (.xgrp x0 x1 x2) := by
  refine ⟨?_, fun s => ?_⟩; rotate_left; simp only [exec, execXgrp, issueEngine]; exact rfl
theorem issued_xgrpEnd x0 x1 : Issued (.xgrpEnd x0 x1) := by
  refine ⟨?_, fun s => ?_⟩; rotate_left; simp only [exec, execXgrpEnd, issueEngine]; exact rfl
theorem issued_xgather x0 x1 x2 x3 x4 : Issued (.xgather x0 x1 x2 x3 x4) := by
  refine ⟨?_, fun s => ?_⟩; rotate_left; simp only [exec, execXgather, issueEngine]; exact rfl
theorem issued_xrscat x0 x1 x2 x3 x4 x5 : Issued (.xrscat x0 x1 x2 x3 x4 x5) := by
  refine ⟨?_, fun s => ?_⟩; rotate_left; simp only [exec, execXrscat, issueEngine]; exact rfl
theorem issued_xa2a x0 x1 x2 x3 x4 : Issued (.xa2a x0 x1 x2 x3 x4) := by
  refine ⟨?_, fun s => ?_⟩; rotate_left; simp only [exec, execXa2a, issueEngine]; exact rfl
theorem issued_xbar x0 x1 : Issued (.xbar x0 x1) := by
  refine ⟨?_, fun s => ?_⟩; rotate_left; simp only [exec, execXbar, issueEngine]; exact rfl
theorem issued_xwait x0 x1 : Issued (.xwait x0 x1) := by
  refine ⟨?_, fun s => ?_⟩; rotate_left; simp only [exec, execXwait, issueLanes]; exact rfl
theorem issued_rsplit x0 x1 x2 x3 x4 x5 : Issued (.rsplit x0 x1 x2 x3 x4 x5) := by
  refine ⟨?_, fun s => ?_⟩; rotate_left; simp only [exec, execRsplit, issueEngine]; exact rfl
theorem issued_rmerge x0 x1 x2 x3 : Issued (.rmerge x0 x1 x2 x3) := by
  refine ⟨?_, fun s => ?_⟩; rotate_left; simp only [exec, execRmerge, issueEngine]; exact rfl
theorem issued_rinval x0 x1 x2 x3 x4 : Issued (.rinval x0 x1 x2 x3 x4) := by
  refine ⟨?_, fun s => ?_⟩; rotate_left; simp only [exec, execRinval, issueEngine]; exact rfl
theorem issued_rprobe x0 x1 x2 x3 x4 : Issued (.rprobe x0 x1 x2 x3 x4) := by
  refine ⟨?_, fun s => ?_⟩; rotate_left; simp only [exec, execRprobe, issueEngine]; exact rfl
theorem issued_rprobeS2 x0 x1 x2 x3 x4 : Issued (.rprobeS2 x0 x1 x2 x3 x4) := by
  refine ⟨?_, fun s => ?_⟩; rotate_left; simp only [exec, execRprobeS2, issueEngine]; exact rfl
theorem issued_rcompact x0 x1 x2 x3 x4 : Issued (.rcompact x0 x1 x2 x3 x4) := by
  refine ⟨?_, fun s => ?_⟩; rotate_left; simp only [exec, execRcompact, issueEngine]; exact rfl
theorem issued_netsave x0 x1 x2 x3 : Issued (.netsave x0 x1 x2 x3) := by
  refine ⟨?_, fun s => ?_⟩; rotate_left; simp only [exec, execNetsave, issueEngine]; exact rfl
theorem issued_netload x0 x1 x2 x3 : Issued (.netload x0 x1 x2 x3) := by
  refine ⟨?_, fun s => ?_⟩; rotate_left; simp only [exec, execNetload, issueEngine]; exact rfl
theorem issued_netdrain x0 x1 : Issued (.netdrain x0 x1) := by
  refine ⟨?_, fun s => ?_⟩; rotate_left; simp only [exec, execNetdrain, issueEngine]; exact rfl
theorem issued_netreset x0 x1 : Issued (.netreset x0 x1) := by
  refine ⟨?_, fun s => ?_⟩; rotate_left; simp only [exec, execNetreset, issueEngine]; exact rfl
theorem issued_hinfo x0 x1 x2 : Issued (.hinfo x0 x1 x2) := by
  refine ⟨?_, fun s => ?_⟩; rotate_left; simp only [exec, execHinfo]; exact rfl
theorem issued_hget x0 x1 x2 : Issued (.hget x0 x1 x2) := by
  refine ⟨?_, fun s => ?_⟩; rotate_left; simp only [exec, execHget]; exact rfl
theorem issued_hput x0 x1 x2 : Issued (.hput x0 x1 x2) := by
  refine ⟨?_, fun s => ?_⟩; rotate_left; simp only [exec, execHput]; exact rfl
theorem issued_hresume x0 : Issued (.hresume x0) := by
  refine ⟨?_, fun s => ?_⟩; rotate_left; simp only [exec, execHresume, issueVerdict]; exact rfl
theorem issued_hkill x0 : Issued (.hkill x0) := by
  refine ⟨?_, fun s => ?_⟩; rotate_left; simp only [exec, execHkill, issueVerdict]; exact rfl
theorem issued_habort x0 : Issued (.habort x0) := by
  refine ⟨?_, fun s => ?_⟩; rotate_left; simp only [exec, execHabort, issueVerdict]; exact rfl
theorem issued_launch x0 x1 x2 x3 : Issued (.launch x0 x1 x2 x3) := by
  refine ⟨?_, fun s => ?_⟩; rotate_left; simp only [exec, execLaunch, issueEngine]; exact rfl
theorem issued_cntcfg x0 x1 x2 x3 x4 : Issued (.cntcfg x0 x1 x2 x3 x4) := by
  refine ⟨?_, fun s => ?_⟩; rotate_left; simp only [exec, execCntcfg, issueEngine]; exact rfl
theorem issued_cntrd x0 x1 x2 : Issued (.cntrd x0 x1 x2) := by
  refine ⟨?_, fun s => ?_⟩; rotate_left; simp only [exec, execCntrd]; exact rfl
theorem issued_sealset x0 x1 x2 x3 : Issued (.sealset x0 x1 x2 x3) := by
  refine ⟨?_, fun s => ?_⟩; rotate_left; simp only [exec, execSealset, issueEngine]; exact rfl
theorem issued_unassignedMajor x0 : Issued (.unassignedMajor x0) := by
  refine ⟨?_, fun s => ?_⟩; rotate_left; simp only [exec, execUnassignedMajor]; exact rfl

/-- Every instruction that is no event of the machine is issued. -/
theorem exec_issued (i : Instr) (h : i.isEvent = false) : Issued i := by
  cases i with
  | nop _ => exact issued_nop _
  | go _ _ => exact issued_go _ _
  | gox _ _ => exact issued_gox _ _
  | call _ _ _ => exact issued_call _ _ _
  | callx _ _ _ => exact issued_callx _ _ _
  | ret _ => exact issued_ret _
  | done _ => exact issued_done _
  | trap _ _ => exact issued_trap _ _
  | brk _ _ => exact issued_brk _ _
  | wantc _ _ _ => exact issued_wantc _ _ _
  | prefiIc _ _ _ => exact issued_prefiIc _ _ _
  | prefiL2 _ _ _ => exact issued_prefiL2 _ _ _
  | pini _ _ _ => exact issued_pini _ _ _
  | unpini _ _ _ => exact issued_unpini _ _ _
  | movs _ _ _ => exact issued_movs _ _ _
  | mov _ _ _ _ => exact issued_mov _ _ _ _
  | movi _ _ _ _ => exact issued_movi _ _ _ _
  | movh _ _ _ _ => exact issued_movh _ _ _ _
  | iadd _ _ _ _ _ _ => exact issued_iadd _ _ _ _ _ _
  | iadd3 _ _ _ _ _ _ _ => exact issued_iadd3 _ _ _ _ _ _ _
  | isub _ _ _ _ _ _ => exact issued_isub _ _ _ _ _ _
  | addc _ _ _ _ _ => exact issued_addc _ _ _ _ _
  | subb _ _ _ _ _ => exact issued_subb _ _ _ _ _
  | imul _ _ _ _ _ _ => exact issued_imul _ _ _ _ _ _
  | imulh _ _ _ _ _ => exact issued_imulh _ _ _ _ _
  | imad _ _ _ _ _ _ _ => exact issued_imad _ _ _ _ _ _ _
  | imin _ _ _ _ _ => exact issued_imin _ _ _ _ _
  | imax _ _ _ _ _ => exact issued_imax _ _ _ _ _
  | iabs _ _ _ _ _ => exact issued_iabs _ _ _ _ _
  | ineg _ _ _ _ _ => exact issued_ineg _ _ _ _ _
  | and _ _ _ _ _ => exact issued_and _ _ _ _ _
  | or _ _ _ _ _ => exact issued_or _ _ _ _ _
  | xor _ _ _ _ _ => exact issued_xor _ _ _ _ _
  | andn _ _ _ _ _ => exact issued_andn _ _ _ _ _
  | shl _ _ _ _ _ => exact issued_shl _ _ _ _ _
  | shr _ _ _ _ _ => exact issued_shr _ _ _ _ _
  | sar _ _ _ _ _ => exact issued_sar _ _ _ _ _
  | rot _ _ _ _ _ => exact issued_rot _ _ _ _ _
  | bfx _ _ _ _ _ => exact issued_bfx _ _ _ _ _
  | bfi _ _ _ _ _ _ => exact issued_bfi _ _ _ _ _ _
  | popc _ _ _ _ => exact issued_popc _ _ _ _
  | clz _ _ _ _ => exact issued_clz _ _ _ _
  | ctz _ _ _ _ => exact issued_ctz _ _ _ _
  | brev _ _ _ _ => exact issued_brev _ _ _ _
  | icmp _ _ _ _ _ _ _ _ => exact issued_icmp _ _ _ _ _ _ _ _
  | isel _ _ _ _ _ _ => exact issued_isel _ _ _ _ _ _
  | lea _ _ _ _ _ _ => exact issued_lea _ _ _ _ _ _
  | idot4 _ _ _ _ _ _ _ _ => exact issued_idot4 _ _ _ _ _ _ _ _
  | got _ _ _ _ _ => exact issued_got _ _ _ _ _
  | fadd _ _ _ _ _ _ _ _ _ => exact issued_fadd _ _ _ _ _ _ _ _ _
  | fsub _ _ _ _ _ _ _ _ _ => exact issued_fsub _ _ _ _ _ _ _ _ _
  | fmul _ _ _ _ _ _ _ _ _ => exact issued_fmul _ _ _ _ _ _ _ _ _
  | ffma _ _ _ _ _ _ _ _ _ _ => exact issued_ffma _ _ _ _ _ _ _ _ _ _
  | fmin _ _ _ _ _ _ _ => exact issued_fmin _ _ _ _ _ _ _
  | fmax _ _ _ _ _ _ _ => exact issued_fmax _ _ _ _ _ _ _
  | fcmp _ _ _ _ _ _ _ _ _ => exact issued_fcmp _ _ _ _ _ _ _ _ _
  | fclass _ _ _ _ => exact issued_fclass _ _ _ _
  | frcp _ _ _ _ _ _ _ => exact issued_frcp _ _ _ _ _ _ _
  | frsq _ _ _ _ _ _ => exact issued_frsq _ _ _ _ _ _
  | fsqrt _ _ _ _ _ _ _ => exact issued_fsqrt _ _ _ _ _ _ _
  | fexp2 _ _ _ _ _ _ => exact issued_fexp2 _ _ _ _ _ _
  | flog2 _ _ _ _ _ _ => exact issued_flog2 _ _ _ _ _ _
  | fsin _ _ _ _ _ _ => exact issued_fsin _ _ _ _ _ _
  | fcos _ _ _ _ _ _ => exact issued_fcos _ _ _ _ _ _
  | ftanh _ _ _ _ _ _ => exact issued_ftanh _ _ _ _ _ _
  | fscale _ _ _ _ _ _ _ _ => exact issued_fscale _ _ _ _ _ _ _ _
  | frnd _ _ _ _ _ _ => exact issued_frnd _ _ _ _ _ _
  | fdot2 _ _ _ _ _ _ _ _ _ => exact issued_fdot2 _ _ _ _ _ _ _ _ _
  | cvt _ _ _ _ _ _ _ _ _ => exact issued_cvt _ _ _ _ _ _ _ _ _
  | pack _ _ _ _ _ _ _ _ _ _ _ => exact issued_pack _ _ _ _ _ _ _ _ _ _ _
  | unpack _ _ _ _ _ _ _ _ _ _ => exact issued_unpack _ _ _ _ _ _ _ _ _ _
  | vote _ _ _ _ => exact issued_vote _ _ _ _
  | ballot _ _ _ => exact issued_ballot _ _ _
  | shfl _ _ _ _ _ _ => exact issued_shfl _ _ _ _ _ _
  | scan _ _ _ _ _ _ _ _ _ => exact issued_scan _ _ _ _ _ _ _ _ _
  | reduce _ _ _ _ _ _ _ _ => exact issued_reduce _ _ _ _ _ _ _ _
  | matchI _ _ _ _ _ => exact issued_matchI _ _ _ _ _
  | isect _ _ _ _ _ _ _ => exact issued_isect _ _ _ _ _ _ _
  | regroup _ _ _ _ => exact issued_regroup _ _ _ _
  | qnt _ _ _ _ _ _ _ _ _ => exact issued_qnt _ _ _ _ _ _ _ _ _
  | take _ _ _ _ _ => exact issued_take _ _ _ _ _
  | netcnt _ _ _ => exact issued_netcnt _ _ _
  | ld _ _ _ _ _ _ => exact issued_ld _ _ _ _ _ _
  | st _ _ _ _ _ => exact issued_st _ _ _ _ _
  | lds _ _ _ _ => exact issued_lds _ _ _ _
  | sts _ _ _ _ => exact issued_sts _ _ _ _
  | ldp _ _ _ _ => exact issued_ldp _ _ _ _
  | stp _ _ _ _ => exact issued_stp _ _ _ _
  | ldl _ _ _ _ _ => exact issued_ldl _ _ _ _ _
  | stl _ _ _ _ _ => exact issued_stl _ _ _ _ _
  | atom _ _ _ _ _ _ => exact issued_atom _ _ _ _ _ _
  | cas _ _ _ _ _ => exact issued_cas _ _ _ _ _
  | red _ _ _ _ _ _ => exact issued_red _ _ _ _ _ _
  | fence _ _ => exact issued_fence _ _
  | phasePub _ => exact issued_phasePub _
  | phaseRef _ => exact issued_phaseRef _
  | phaseFull _ => exact issued_phaseFull _
  | waitc _ _ _ _ _ => exact issued_waitc _ _ _ _ _
  | pref _ _ _ _ => exact issued_pref _ _ _ _
  | sfence _ _ _ => exact issued_sfence _ _ _
  | bar => exact issued_bar
  | barc => exact issued_barc
  | awinit _ _ _ => exact issued_awinit _ _ _
  | arrive _ _ _ => exact issued_arrive _ _ _
  | await _ _ _ => exact issued_await _ _ _
  | mdesc _ _ _ _ _ _ _ => exact issued_mdesc _ _ _ _ _ _ _
  | mzero _ _ => exact issued_mzero _ _
  | mwrite _ _ _ _ _ _ => exact issued_mwrite _ _ _ _ _ _
  | mloop _ _ _ _ _ _ _ _ => exact issued_mloop _ _ _ _ _ _ _ _
  | mwait _ _ _ => exact issued_mwait _ _ _
  | mread _ _ _ _ _ _ => exact issued_mread _ _ _ _ _ _
  | mfence _ => exact issued_mfence _
  | mstat _ _ => exact issued_mstat _ _
  | mstatLog _ _ _ => exact issued_mstatLog _ _ _
  | mstatExp _ _ _ => exact issued_mstatExp _ _ _
  | mstatClr _ => exact issued_mstatClr _
  | cgather _ _ _ _ _ _ => exact issued_cgather _ _ _ _ _ _
  | cscatter _ _ _ _ _ _ => exact issued_cscatter _ _ _ _ _ _
  | cscatadd _ _ _ _ _ _ _ => exact issued_cscatadd _ _ _ _ _ _ _
  | ccopy _ _ _ _ _ _ _ => exact issued_ccopy _ _ _ _ _ _ _
  | cfill _ _ _ _ _ _ => exact issued_cfill _ _ _ _ _ _
  | cstat _ _ => exact issued_cstat _ _
  | cstatClr _ _ => exact issued_cstatClr _ _
  | xgrp _ _ _ => exact issued_xgrp _ _ _
  | xgrpEnd _ _ => exact issued_xgrpEnd _ _
  | xgather _ _ _ _ _ => exact issued_xgather _ _ _ _ _
  | xrscat _ _ _ _ _ _ => exact issued_xrscat _ _ _ _ _ _
  | xa2a _ _ _ _ _ => exact issued_xa2a _ _ _ _ _
  | xbar _ _ => exact issued_xbar _ _
  | xwait _ _ => exact issued_xwait _ _
  | rsplit _ _ _ _ _ _ => exact issued_rsplit _ _ _ _ _ _
  | rmerge _ _ _ _ => exact issued_rmerge _ _ _ _
  | rinval _ _ _ _ _ => exact issued_rinval _ _ _ _ _
  | rprobe _ _ _ _ _ => exact issued_rprobe _ _ _ _ _
  | rprobeS2 _ _ _ _ _ => exact issued_rprobeS2 _ _ _ _ _
  | rcompact _ _ _ _ _ => exact issued_rcompact _ _ _ _ _
  | netsave _ _ _ _ => exact issued_netsave _ _ _ _
  | netload _ _ _ _ => exact issued_netload _ _ _ _
  | netdrain _ _ => exact issued_netdrain _ _
  | netreset _ _ => exact issued_netreset _ _
  | hinfo _ _ _ => exact issued_hinfo _ _ _
  | hget _ _ _ => exact issued_hget _ _ _
  | hput _ _ _ => exact issued_hput _ _ _
  | hresume _ => exact issued_hresume _
  | hkill _ => exact issued_hkill _
  | habort _ => exact issued_habort _
  | launch _ _ _ _ => exact issued_launch _ _ _ _
  | cntcfg _ _ _ _ _ => exact issued_cntcfg _ _ _ _ _
  | cntrd _ _ _ => exact issued_cntrd _ _ _
  | sealset _ _ _ _ => exact issued_sealset _ _ _ _
  | spanCensus _ _ => cases h
  | fetchLineLoad _ _ _ => cases h
  | laneUnpark _ _ _ => cases h
  | operationPerform _ _ _ _ _ => cases h
  | drain _ _ => cases h
  | waitcPoll _ _ _ => cases h
  | regroupPair _ _ _ => cases h
  | regroupTimeout _ _ => cases h
  | crewPromote _ _ => cases h
  | localityScoreDecay _ => cases h
  | tokenNumberReturn _ _ _ => cases h
  | networkDrained _ => cases h
  | handlerCrewFormFull _ => cases h
  | handlerCrewFormTimeout _ => cases h
  | blockAbortStop _ => cases h
  | blockComplete _ => cases h
  | launchComplete _ => cases h
  | launchListTake _ _ => cases h
  | listHeadWake _ _ => cases h
  | blockPlace _ => cases h
  | groupPlace _ => cases h
  | copyPiece _ _ _ _ _ => cases h
  | copyMarker _ _ => cases h
  | matrixCmdExecute _ => cases h
  | matrixKstep _ _ _ => cases h
  | collectiveDeliver _ _ _ => cases h
  | collectiveOpComplete _ _ => cases h
  | collectiveTimeout _ _ _ => cases h
  | collectiveFallback _ => cases h
  | fullerStart _ => cases h
  | fullerGranuleMove _ => cases h
  | sliceExpiry _ => cases h
  | sliceEarlyEnd _ => cases h
  | partitionReset _ => cases h
  | partitionDrainComplete _ => cases h
  | hostSwitchAck _ => cases h
  | partitionRecordWrite _ _ _ => cases h
  | functionRecordWrite _ _ _ _ => cases h
  | denialConsumerWrite _ _ => cases h
  | registerWrite _ _ => cases h
  | hostApertureWrite _ _ => cases h
  | hostApertureRead _ _ => cases h
  | hostRecall _ _ _ => cases h
  | hostTierResponse _ => cases h
  | linkFlitReceive _ => cases h
  | fabricFlitReceive _ _ => cases h
  | fabricRouteWrite _ => cases h
  | powerGood => cases h
  | bootStageComplete _ => cases h
  | adaptiveAdjust => cases h
  | plimSet _ => cases h
  | powerLimitThrottle _ _ => cases h
  | thermalTrip => cases h
  | memoryRetrain _ => cases h
  | retrainRequest _ => cases h
  | attestationReport _ => cases h
  | keySlotLoad _ _ => cases h
  | powerRemoved => cases h
  | unassignedMajor _ => exact issued_unassignedMajor _

end Sys2Proof.Laws
end

