-- ==== Sys2Proof/Laws/PerInstr.lean ====
section
/-! SUPPORT. For each constructor of `Instr`: the decoder reads an encoded instruction back (05_encoding R50-R68). -/

namespace Sys2Proof.Laws.RoundTrip

/-- The words of a well-formed instruction decode to it. -/
def Statement (i : Instr) : Prop := i.wf = true → ∀ w v, i.words = some (w, v) → decodeWords w v = .ok i

/-- What is left to show once the words are known: that the major is assigned and the fields are read back. -/
theorem of_fields {i : Instr} {w v : DWord} (hm : majorAssigned (opcOf w) = true) (hw : i.words = some (w, v))
    (hf : decodeFields w v = .ok i) : Statement i := by
  intro h w' v' e
  rw [hw] at e
  obtain ⟨rfl, rfl⟩ : w = w' ∧ v = v' := by simpa using e
  simp [decodeWords, hm, hf, h, hw]

/-- An event has no words. -/
theorem of_event {i : Instr} (hw : i.words = none) : Statement i := fun _ _ _ e => by simp [hw] at e

theorem nop g : Statement (.nop g) := by
  refine of_fields (by simp [packJ, majorAssigned]) rfl ?_
  simp [decodeFields, packJ, decodeControl, ok_bind, pure_ok]
theorem go g l : Statement (.go g l) := by
  refine of_fields (by simp [packJ, majorAssigned]) rfl ?_
  simp [decodeFields, packJ, decodeControl, ok_bind, pure_ok]
theorem gox g r : Statement (.gox g r) := by
  refine of_fields (by simp [packJ, majorAssigned]) rfl ?_
  simp [decodeFields, packJ, decodeControl, ok_bind, pure_ok]
theorem call g w l : Statement (.call g w l) := by
  refine of_fields (by simp [majorAssigned]) rfl ?_
  simp [decodeFields]
theorem callx g r l : Statement (.callx g r l) := by
  refine of_fields (by simp [packJ, majorAssigned]) rfl ?_
  simp [decodeFields, packJ, decodeControl, ok_bind, pure_ok]
theorem ret g : Statement (.ret g) := by
  refine of_fields (by simp [packJ, majorAssigned]) rfl ?_
  simp [decodeFields, packJ, decodeControl, ok_bind, pure_ok]
theorem done g : Statement (.done g) := by
  refine of_fields (by simp [packJ, majorAssigned]) rfl ?_
  simp [decodeFields, packJ, decodeControl, ok_bind, pure_ok]
theorem trap g k : Statement (.trap g k) := by
  refine of_fields (by simp [packIK, majorAssigned]) rfl ?_
  simp [decodeFields, packIK, decodeControl, ok_bind, pure_ok]
theorem brk g k : Statement (.brk g k) := by
  refine of_fields (by simp [packIK, majorAssigned]) rfl ?_
  simp [decodeFields, packIK, decodeControl, ok_bind, pure_ok]
theorem wantc g d k : Statement (.wantc g d k) := by
  refine of_fields (by simp [packIK, majorAssigned]) rfl ?_
  simp [decodeFields, packIK, decodeControl, ok_bind, pure_ok]
theorem prefiIc g n line : Statement (.prefiIc g n line) := by
  refine of_fields (by simp [packIK, majorAssigned]) rfl ?_
  simp [decodeFields, packIK, decodeControl, ok_bind, pure_ok]
theorem prefiL2 g n line : Statement (.prefiL2 g n line) := by
  refine of_fields (by simp [packIK, majorAssigned]) rfl ?_
  simp [decodeFields, packIK, decodeControl, ok_bind, pure_ok]
theorem pini g n line : Statement (.pini g n line) := by
  refine of_fields (by simp [packIK, majorAssigned]) rfl ?_
  simp [decodeFields, packIK, decodeControl, ok_bind, pure_ok]
theorem unpini g n line : Statement (.unpini g n line) := by
  refine of_fields (by simp [packIK, majorAssigned]) rfl ?_
  simp [decodeFields, packIK, decodeControl, ok_bind, pure_ok]
theorem movs g d r : Statement (.movs g d r) := by
  refine of_fields (by simp [packRR, majorAssigned]) rfl ?_
  simp [decodeFields, packRR, decodeInteger, rFields, ok_bind, pure_ok]
  rfl
theorem mov g t d a : Statement (.mov g t d a) := by
  refine of_fields (by simp [packRT, majorAssigned]) rfl ?_
  simp [decodeFields, packRT, decodeInteger, rFields, ok_bind, pure_ok]
theorem movi g f d k : Statement (.movi g f d k) := by
  refine of_fields (by simp [packIK, majorAssigned]) rfl ?_
  simp [decodeFields, packIK, decodeControl, ok_bind, pure_ok]
theorem movh g d a k : Statement (.movh g d a k) := by
  refine of_fields (by simp [packIK, majorAssigned]) rfl ?_
  simp [decodeFields, packIK, decodeControl, ok_bind, pure_ok]
theorem iadd g t sat d a b : Statement (.iadd g t sat d a b) := by
  refine of_fields (by simp [packRT, majorAssigned]) rfl ?_
  simp [decodeFields, packRT, decodeInteger, rFields, ok_bind, pure_ok]
theorem iadd3 g t sat d a b c : Statement (.iadd3 g t sat d a b c) := by
  refine of_fields (by simp [packRT, majorAssigned]) rfl ?_
  simp [decodeFields, packRT, decodeInteger, rFields, ok_bind, pure_ok]
theorem isub g t sat d a b : Statement (.isub g t sat d a b) := by
  refine of_fields (by simp [packRT, majorAssigned]) rfl ?_
  simp [decodeFields, packRT, decodeInteger, rFields, ok_bind, pure_ok]
theorem addc g d a b q : Statement (.addc g d a b q) := by
  refine of_fields (by simp [packRT, majorAssigned]) rfl ?_
  simp [decodeFields, packRT, decodeInteger, rFields, ok_bind, pure_ok]
  rfl
theorem subb g d a b q : Statement (.subb g d a b q) := by
  refine of_fields (by simp [packRT, majorAssigned]) rfl ?_
  simp [decodeFields, packRT, decodeInteger, rFields, ok_bind, pure_ok]
  rfl
theorem imul g t sat d a b : Statement (.imul g t sat d a b) := by
  refine of_fields (by simp [packRT, majorAssigned]) rfl ?_
  simp [decodeFields, packRT, decodeInteger, rFields, ok_bind, pure_ok]
theorem imulh g t d a b : Statement (.imulh g t d a b) := by
  refine of_fields (by simp [packRT, majorAssigned]) rfl ?_
  simp [decodeFields, packRT, decodeInteger, rFields, ok_bind, pure_ok]
theorem imad g t sat d a b c : Statement (.imad g t sat d a b c) := by
  refine of_fields (by simp [packRT, majorAssigned]) rfl ?_
  simp [decodeFields, packRT, decodeInteger, rFields, ok_bind, pure_ok]
theorem imin g t d a b : Statement (.imin g t d a b) := by
  refine of_fields (by simp [packRT, majorAssigned]) rfl ?_
  simp [decodeFields, packRT, decodeInteger, rFields, ok_bind, pure_ok]
theorem imax g t d a b : Statement (.imax g t d a b) := by
  refine of_fields (by simp [packRT, majorAssigned]) rfl ?_
  simp [decodeFields, packRT, decodeInteger, rFields, ok_bind, pure_ok]
theorem iabs g t sat d a : Statement (.iabs g t sat d a) := by
  refine of_fields (by simp [packRT, majorAssigned]) rfl ?_
  simp [decodeFields, packRT, decodeInteger, rFields, ok_bind, pure_ok]
theorem ineg g t sat d a : Statement (.ineg g t sat d a) := by
  refine of_fields (by simp [packRT, majorAssigned]) rfl ?_
  simp [decodeFields, packRT, decodeInteger, rFields, ok_bind, pure_ok]
theorem and g t d a b : Statement (.and g t d a b) := by
  refine of_fields (by simp [packRT, majorAssigned]) rfl ?_
  simp [decodeFields, packRT, decodeInteger, rFields, ok_bind, pure_ok]
theorem or g t d a b : Statement (.or g t d a b) := by
  refine of_fields (by simp [packRT, majorAssigned]) rfl ?_
  simp [decodeFields, packRT, decodeInteger, rFields, ok_bind, pure_ok]
theorem xor g t d a b : Statement (.xor g t d a b) := by
  refine of_fields (by simp [packRT, majorAssigned]) rfl ?_
  simp [decodeFields, packRT, decodeInteger, rFields, ok_bind, pure_ok]
theorem andn g t d a b : Statement (.andn g t d a b) := by
  refine of_fields (by simp [packRT, majorAssigned]) rfl ?_
  simp [decodeFields, packRT, decodeInteger, rFields, ok_bind, pure_ok]
theorem shl g t d a b : Statement (.shl g t d a b) := by
  refine of_fields (by simp [packRT, majorAssigned]) rfl ?_
  simp [decodeFields, packRT, decodeInteger, rFields, ok_bind, pure_ok]
theorem shr g t d a b : Statement (.shr g t d a b) := by
  refine of_fields (by simp [packRT, majorAssigned]) rfl ?_
  simp [decodeFields, packRT, decodeInteger, rFields, ok_bind, pure_ok]
theorem sar g t d a b : Statement (.sar g t d a b) := by
  refine of_fields (by simp [packRT, majorAssigned]) rfl ?_
  simp [decodeFields, packRT, decodeInteger, rFields, ok_bind, pure_ok]
theorem rot g t d a b : Statement (.rot g t d a b) := by
  refine of_fields (by simp [packRT, majorAssigned]) rfl ?_
  simp [decodeFields, packRT, decodeInteger, rFields, ok_bind, pure_ok]
theorem bfx g t d a b : Statement (.bfx g t d a b) := by
  refine of_fields (by simp [packRT, majorAssigned]) rfl ?_
  simp [decodeFields, packRT, decodeInteger, rFields, ok_bind, pure_ok]
theorem bfi g t d a b c : Statement (.bfi g t d a b c) := by
  refine of_fields (by simp [packRT, majorAssigned]) rfl ?_
  simp [decodeFields, packRT, decodeInteger, rFields, ok_bind, pure_ok]
theorem popc g t d a : Statement (.popc g t d a) := by
  refine of_fields (by simp [packRT, majorAssigned]) rfl ?_
  simp [decodeFields, packRT, decodeInteger, rFields, ok_bind, pure_ok]
theorem clz g t d a : Statement (.clz g t d a) := by
  refine of_fields (by simp [packRT, majorAssigned]) rfl ?_
  simp [decodeFields, packRT, decodeInteger, rFields, ok_bind, pure_ok]
theorem ctz g t d a : Statement (.ctz g t d a) := by
  refine of_fields (by simp [packRT, majorAssigned]) rfl ?_
  simp [decodeFields, packRT, decodeInteger, rFields, ok_bind, pure_ok]
theorem brev g t d a : Statement (.brev g t d a) := by
  refine of_fields (by simp [packRT, majorAssigned]) rfl ?_
  simp [decodeFields, packRT, decodeInteger, rFields, ok_bind, pure_ok]
theorem icmp g t cond comb d a b c : Statement (.icmp g t cond comb d a b c) := by
  refine of_fields (by simp [packRT, majorAssigned]) rfl ?_
  simp [decodeFields, packRT, decodeInteger, rFields, ok_bind, pure_ok]
  rfl
theorem isel g t d a b q : Statement (.isel g t d a b q) := by
  refine of_fields (by simp [packRT, majorAssigned]) rfl ?_
  simp [decodeFields, packRT, decodeInteger, rFields, ok_bind, pure_ok]
  rfl
theorem lea g t sh d a b : Statement (.lea g t sh d a b) := by
  refine of_fields (by simp [packRT, majorAssigned]) rfl ?_
  simp [decodeFields, packRT, decodeInteger, rFields, ok_bind, pure_ok]
theorem idot4 g t sat mixed d a b c : Statement (.idot4 g t sat mixed d a b c) := by
  refine of_fields (by simp [packRT, majorAssigned]) rfl ?_
  simp [decodeFields, packRT, decodeInteger, rFields, ok_bind, pure_ok]
theorem got g r tbl n w : Statement (.got g r tbl n w) := by
  refine of_fields (by simp [packRR, majorAssigned]) rfl ?_
  simp [decodeFields, packRR, decodeCopy, rFields, ok_bind, pure_ok]
  rfl
theorem fadd g t rm sat x2 ftz d a b : Statement (.fadd g t rm sat x2 ftz d a b) := by
  refine of_fields (by simp [packRT, majorAssigned]) rfl ?_
  simp [decodeFields, packRT, decodeFloat, rFields, ok_bind, pure_ok]
theorem fsub g t rm sat x2 ftz d a b : Statement (.fsub g t rm sat x2 ftz d a b) := by
  refine of_fields (by simp [packRT, majorAssigned]) rfl ?_
  simp [decodeFields, packRT, decodeFloat, rFields, ok_bind, pure_ok]
theorem fmul g t rm sat x2 ftz d a b : Statement (.fmul g t rm sat x2 ftz d a b) := by
  refine of_fields (by simp [packRT, majorAssigned]) rfl ?_
  simp [decodeFields, packRT, decodeFloat, rFields, ok_bind, pure_ok]
theorem ffma g t rm sat x2 ftz d a b c : Statement (.ffma g t rm sat x2 ftz d a b c) := by
  refine of_fields (by simp [packRT, majorAssigned]) rfl ?_
  simp [decodeFields, packRT, decodeFloat, rFields, ok_bind, pure_ok]
theorem fmin g t x2 ftz d a b : Statement (.fmin g t x2 ftz d a b) := by
  refine of_fields (by simp [packRT, majorAssigned]) rfl ?_
  simp [decodeFields, packRT, decodeFloat, rFields, ok_bind, pure_ok]
theorem fmax g t x2 ftz d a b : Statement (.fmax g t x2 ftz d a b) := by
  refine of_fields (by simp [packRT, majorAssigned]) rfl ?_
  simp [decodeFields, packRT, decodeFloat, rFields, ok_bind, pure_ok]
theorem fcmp g t cond comb ftz d a b c : Statement (.fcmp g t cond comb ftz d a b c) := by
  refine of_fields (by simp [packRT, majorAssigned]) rfl ?_
  simp [decodeFields, packRT, decodeFloat, rFields, ok_bind, pure_ok]
  rfl
theorem fclass g t d a : Statement (.fclass g t d a) := by
  refine of_fields (by simp [packRT, majorAssigned]) rfl ?_
  simp [decodeFields, packRT, decodeFloat, rFields, ok_bind, pure_ok]
theorem frcp g t rm sat ftz d a : Statement (.frcp g t rm sat ftz d a) := by
  refine of_fields (by simp [packRT, majorAssigned]) rfl ?_
  simp [decodeFields, packRT, decodeFloat, rFields, ok_bind, pure_ok]
theorem frsq g t sat ftz d a : Statement (.frsq g t sat ftz d a) := by
  refine of_fields (by simp [packRT, majorAssigned]) rfl ?_
  simp [decodeFields, packRT, decodeFloat, rFields, ok_bind, pure_ok]
theorem fsqrt g t rm sat ftz d a : Statement (.fsqrt g t rm sat ftz d a) := by
  refine of_fields (by simp [packRT, majorAssigned]) rfl ?_
  simp [decodeFields, packRT, decodeFloat, rFields, ok_bind, pure_ok]
theorem fexp2 g t sat ftz d a : Statement (.fexp2 g t sat ftz d a) := by
  refine of_fields (by simp [packRT, majorAssigned]) rfl ?_
  simp [decodeFields, packRT, decodeFloat, rFields, ok_bind, pure_ok]
theorem flog2 g t sat ftz d a : Statement (.flog2 g t sat ftz d a) := by
  refine of_fields (by simp [packRT, majorAssigned]) rfl ?_
  simp [decodeFields, packRT, decodeFloat, rFields, ok_bind, pure_ok]
theorem fsin g t sat ftz d a : Statement (.fsin g t sat ftz d a) := by
  refine of_fields (by simp [packRT, majorAssigned]) rfl ?_
  simp [decodeFields, packRT, decodeFloat, rFields, ok_bind, pure_ok]
theorem fcos g t sat ftz d a : Statement (.fcos g t sat ftz d a) := by
  refine of_fields (by simp [packRT, majorAssigned]) rfl ?_
  simp [decodeFields, packRT, decodeFloat, rFields, ok_bind, pure_ok]
theorem ftanh g t sat ftz d a : Statement (.ftanh g t sat ftz d a) := by
  refine of_fields (by simp [packRT, majorAssigned]) rfl ?_
  simp [decodeFields, packRT, decodeFloat, rFields, ok_bind, pure_ok]
theorem fscale g t rm sat ftz d a b : Statement (.fscale g t rm sat ftz d a b) := by
  refine of_fields (by simp [packRT, majorAssigned]) rfl ?_
  simp [decodeFields, packRT, decodeFloat, rFields, ok_bind, pure_ok]
theorem frnd g t rm ftz d a : Statement (.frnd g t rm ftz d a) := by
  refine of_fields (by simp [packRT, majorAssigned]) rfl ?_
  simp [decodeFields, packRT, decodeFloat, rFields, ok_bind, pure_ok]
theorem fdot2 g t rm sat ftz d a b c : Statement (.fdot2 g t rm sat ftz d a b c) := by
  refine of_fields (by simp [packRT, majorAssigned]) rfl ?_
  simp [decodeFields, packRT, decodeFloat, rFields, ok_bind, pure_ok]
theorem cvt g td ts rm sat ftz d a b : Statement (.cvt g td ts rm sat ftz d a b) := by
  refine of_fields (by simp [packRT, majorAssigned]) rfl ?_
  simp [decodeFields, packRT, decodeFloat, rFields, ok_bind, pure_ok]
theorem pack g td ts rm sat ftz n d a b c : Statement (.pack g td ts rm sat ftz n d a b c) := by
  refine of_fields (by simp [packRT, majorAssigned]) rfl ?_
  simp [decodeFields, packRT, decodeFloat, rFields, ok_bind, pure_ok]
theorem unpack g td ts rm sat ftz n d a b : Statement (.unpack g td ts rm sat ftz n d a b) := by
  refine of_fields (by simp [packRT, majorAssigned]) rfl ?_
  simp [decodeFields, packRT, decodeFloat, rFields, ok_bind, pure_ok]
theorem vote g m d q : Statement (.vote g m d q) := by
  refine of_fields (by simp [packRR, majorAssigned]) rfl ?_
  simp [decodeFields, packRR, decodeCrew, rFields, ok_bind, pure_ok]
  rfl
theorem ballot g d q : Statement (.ballot g d q) := by
  refine of_fields (by simp [packRR, majorAssigned]) rfl ?_
  simp [decodeFields, packRR, decodeCrew, rFields, ok_bind, pure_ok]
  rfl
theorem shfl g m t d a b : Statement (.shfl g m t d a b) := by
  refine of_fields (by simp [packRT, majorAssigned]) rfl ?_
  simp [decodeFields, packRT, decodeCrew, rFields, ok_bind, pure_ok]
theorem scan g op t rm sat excl ftz d a : Statement (.scan g op t rm sat excl ftz d a) := by
  refine of_fields (by simp [packRT, majorAssigned]) rfl ?_
  simp [decodeFields, packRT, decodeCrew, rFields, ok_bind, pure_ok]
theorem reduce g op t rm sat ftz d a : Statement (.reduce g op t rm sat ftz d a) := by
  refine of_fields (by simp [packRT, majorAssigned]) rfl ?_
  simp [decodeFields, packRT, decodeCrew, rFields, ok_bind, pure_ok]
theorem matchI g t d a c : Statement (.matchI g t d a c) := by
  refine of_fields (by simp [packRT, majorAssigned]) rfl ?_
  simp [decodeFields, packRT, decodeCrew, rFields, ok_bind, pure_ok]
theorem isect g t q d a b c : Statement (.isect g t q d a b c) := by
  refine of_fields (by simp [packRT, majorAssigned]) rfl ?_
  simp [decodeFields, packRT, decodeCrew, rFields, ok_bind, pure_ok]
theorem regroup d a b n : Statement (.regroup d a b n) := by
  refine of_fields (by simp [packRR, majorAssigned]) rfl ?_
  simp [decodeFields, packRR, decodeCrew, rFields, ok_bind, pure_ok]
  rfl
theorem qnt g t rm fine outl ftz d a c : Statement (.qnt g t rm fine outl ftz d a c) := by
  refine of_fields (by simp [packRT, majorAssigned]) rfl ?_
  simp [decodeFields, packRT, decodeCrew, rFields, mBit_qnt, ok_bind, pure_ok]
theorem take g w32 d a c : Statement (.take g w32 d a c) := by
  cases w32 <;> refine of_fields (by simp [packRR, majorAssigned]) rfl ?_ <;>
  simp [decodeFields, packRR, decodeCrew, rFields, ok_bind, pure_ok] <;> rfl
theorem netcnt g d a : Statement (.netcnt g d a) := by
  refine of_fields (by simp [packRR, majorAssigned]) rfl ?_
  simp [decodeFields, packRR, decodeCrew, rFields, ok_bind, pure_ok]
  rfl
theorem ld g z h home d m : Statement (.ld g z h home d m) := by
  cases home <;> refine of_fields (by simp [packMem, majorAssigned]) rfl ?_ <;>
  simp [decodeFields, packMem, decodeMemory, ok_bind, pure_ok]
theorem st g z h d m : Statement (.st g z h d m) := by
  refine of_fields (by simp [packMem, majorAssigned]) rfl ?_
  simp [decodeFields, packMem, decodeMemory, ok_bind, pure_ok]
theorem lds g z d m : Statement (.lds g z d m) := by
  refine of_fields (by simp [packMem, majorAssigned]) rfl ?_
  simp [decodeFields, packMem, decodeMemory, ok_bind, pure_ok]
theorem sts g z d m : Statement (.sts g z d m) := by
  refine of_fields (by simp [packMem, majorAssigned]) rfl ?_
  simp [decodeFields, packMem, decodeMemory, ok_bind, pure_ok]
theorem ldp g z d m : Statement (.ldp g z d m) := by
  refine of_fields (by simp [packMem, majorAssigned]) rfl ?_
  simp [decodeFields, packMem, decodeMemory, ok_bind, pure_ok]
theorem stp g z d m : Statement (.stp g z d m) := by
  refine of_fields (by simp [packMem, majorAssigned]) rfl ?_
  simp [decodeFields, packMem, decodeMemory, ok_bind, pure_ok]
theorem ldl g z h d m : Statement (.ldl g z h d m) := by
  refine of_fields (by simp [packMem, majorAssigned]) rfl ?_
  simp [decodeFields, packMem, decodeMemory, ok_bind, pure_ok]
theorem stl g z h d m : Statement (.stl g z h d m) := by
  refine of_fields (by simp [packMem, majorAssigned]) rfl ?_
  simp [decodeFields, packMem, decodeMemory, ok_bind, pure_ok]
theorem atom g op z spc d m : Statement (.atom g op z spc d m) := by
  refine of_fields (by simp [packMem, majorAssigned]) rfl ?_
  simp [decodeFields, packMem, decodeMemory, ok_bind, pure_ok]
theorem cas g z spc d m : Statement (.cas g z spc d m) := by
  refine of_fields (by simp [packMem, majorAssigned]) rfl ?_
  simp [decodeFields, packMem, decodeMemory, ok_bind, pure_ok]
theorem red g op z spc d m : Statement (.red g op z spc d m) := by
  refine of_fields (by simp [packMem, majorAssigned]) rfl ?_
  simp [decodeFields, packMem, decodeMemory, ok_bind, pure_ok]
theorem fence g sc : Statement (.fence g sc) := by
  refine of_fields (by simp [packRR, majorAssigned]) rfl ?_
  simp [decodeFields, packRR, decodeSync, rFields, ok_bind, pure_ok]
  rfl
theorem phasePub g : Statement (.phasePub g) := by
  refine of_fields (by simp [packRR, majorAssigned]) rfl ?_
  simp [decodeFields, packRR, decodeSync, rFields, ok_bind, pure_ok]
  rfl
theorem phaseRef g : Statement (.phaseRef g) := by
  refine of_fields (by simp [packRR, majorAssigned]) rfl ?_
  simp [decodeFields, packRR, decodeSync, rFields, ok_bind, pure_ok]
  rfl
theorem phaseFull g : Statement (.phaseFull g) := by
  refine of_fields (by simp [packRR, majorAssigned]) rfl ?_
  simp [decodeFields, packRR, decodeSync, rFields, ok_bind, pure_ok]
  rfl
theorem waitc g cond z d m : Statement (.waitc g cond z d m) := by
  refine of_fields (by simp [packMem, majorAssigned]) rfl ?_
  simp [decodeFields, packMem, decodeMemory, ok_bind, pure_ok]
theorem pref g l2 h m : Statement (.pref g l2 h m) := by
  cases l2 <;> refine of_fields (by simp [packMem, majorAssigned]) rfl ?_ <;>
  simp [decodeFields, packMem, decodeMemory, ok_bind, pure_ok]
theorem sfence g a b : Statement (.sfence g a b) := by
  refine of_fields (by simp [packRR, majorAssigned]) rfl ?_
  simp [decodeFields, packRR, decodeSync, rFields, ok_bind, pure_ok]
  rfl
theorem bar : Statement (.bar) := by
  refine of_fields (by simp [packRR, majorAssigned]) rfl ?_
  simp [decodeFields, packRR, decodeSync, rFields, ok_bind, pure_ok]
  rfl
theorem barc : Statement (.barc) := by
  refine of_fields (by simp [packRR, majorAssigned]) rfl ?_
  simp [decodeFields, packRR, decodeSync, rFields, ok_bind, pure_ok]
  rfl
theorem awinit g d m : Statement (.awinit g d m) := by
  refine of_fields (by simp [packMem, majorAssigned]) rfl ?_
  simp [decodeFields, packMem, decodeMemory, ok_bind, pure_ok]
theorem arrive g d m : Statement (.arrive g d m) := by
  refine of_fields (by simp [packMem, majorAssigned]) rfl ?_
  simp [decodeFields, packMem, decodeMemory, ok_bind, pure_ok]
theorem await g d m : Statement (.await g d m) := by
  refine of_fields (by simp [packMem, majorAssigned]) rfl ?_
  simp [decodeFields, packMem, decodeMemory, ok_bind, pure_ok]
theorem mdesc g l2 fmt h stride a b : Statement (.mdesc g l2 fmt h stride a b) := by
  cases l2 <;> refine of_fields (by simp [packRR, majorAssigned]) rfl ?_ <;>
  simp [decodeFields, packRR, decodeMatrix, rFields, ok_bind, pure_ok] <;> rfl
theorem mzero g t : Statement (.mzero g t) := by
  refine of_fields (by simp [packRR, majorAssigned]) rfl ?_
  simp [decodeFields, packRR, decodeMatrix, rFields, ok_bind, pure_ok]
  rfl
theorem mwrite g int t a b c : Statement (.mwrite g int t a b c) := by
  cases int <;> refine of_fields (by simp [packRT, majorAssigned]) rfl ?_ <;>
  simp [decodeFields, packRT, decodeMatrix, rFields, ok_bind, pure_ok]
theorem mloop g sh t ha hb k ia ib : Statement (.mloop g sh t ha hb k ia ib) := by
  refine of_fields (by simp [packRR, majorAssigned]) rfl ?_
  simp [decodeFields, packRR, decodeMatrix, rFields, ok_bind, pure_ok]
  rfl
theorem mwait g all t : Statement (.mwait g all t) := by
  refine of_fields (by simp [packRR, majorAssigned]) rfl ?_
  simp [decodeFields, packRR, decodeMatrix, rFields, ok_bind, pure_ok]
  rfl
theorem mread g i64 t d a b : Statement (.mread g i64 t d a b) := by
  cases i64 <;> refine of_fields (by simp [packRT, majorAssigned]) rfl ?_ <;>
  simp [decodeFields, packRT, decodeMatrix, rFields, ok_bind, pure_ok]
theorem mfence g : Statement (.mfence g) := by
  refine of_fields (by simp [packRR, majorAssigned]) rfl ?_
  simp [decodeFields, packRR, decodeMatrix, rFields, ok_bind, pure_ok]
  rfl
theorem mstat g d : Statement (.mstat g d) := by
  refine of_fields (by simp [packRR, majorAssigned]) rfl ?_
  simp [decodeFields, packRR, decodeMatrix, rFields, ok_bind, pure_ok]
  rfl
theorem mstatLog g d a : Statement (.mstatLog g d a) := by
  refine of_fields (by simp [packRR, majorAssigned]) rfl ?_
  simp [decodeFields, packRR, decodeMatrix, rFields, ok_bind, pure_ok]
  rfl
theorem mstatExp g t d : Statement (.mstatExp g t d) := by
  refine of_fields (by simp [packRR, majorAssigned]) rfl ?_
  simp [decodeFields, packRR, decodeMatrix, rFields, ok_bind, pure_ok]
  rfl
theorem mstatClr g : Statement (.mstatClr g) := by
  refine of_fields (by simp [packRR, majorAssigned]) rfl ?_
  simp [decodeFields, packRR, decodeMatrix, rFields, ok_bind, pure_ok]
  rfl
theorem cgather g r d a b c : Statement (.cgather g r d a b c) := by
  refine of_fields (by simp [packRR, majorAssigned]) rfl ?_
  simp [decodeFields, packRR, decodeCopy, rFields, ok_bind, pure_ok]
  rfl
theorem cscatter g r d a b c : Statement (.cscatter g r d a b c) := by
  refine of_fields (by simp [packRR, majorAssigned]) rfl ?_
  simp [decodeFields, packRR, decodeCopy, rFields, ok_bind, pure_ok]
  rfl
theorem cscatadd g t r d a b c : Statement (.cscatadd g t r d a b c) := by
  refine of_fields (by simp [packRT, majorAssigned]) rfl ?_
  simp [decodeFields, packRT, decodeCopy, rFields, ok_bind, pure_ok]
theorem ccopy g dir mc w d a c : Statement (.ccopy g dir mc w d a c) := by
  refine of_fields (by simp [packRR, majorAssigned]) rfl ?_
  simp [decodeFields, packRR, decodeCopy, rFields, ok_bind, pure_ok]
  rfl
theorem cfill g glob w d a c : Statement (.cfill g glob w d a c) := by
  cases glob <;> refine of_fields (by simp [packRR, majorAssigned]) rfl ?_ <;>
  simp [decodeFields, packRR, decodeCopy, rFields, ok_bind, pure_ok] <;> rfl
theorem cstat g d : Statement (.cstat g d) := by
  refine of_fields (by simp [packRR, majorAssigned]) rfl ?_
  simp [decodeFields, packRR, decodeCopy, rFields, ok_bind, pure_ok]
  rfl
theorem cstatClr g d : Statement (.cstatClr g d) := by
  refine of_fields (by simp [packRR, majorAssigned]) rfl ?_
  simp [decodeFields, packRR, decodeCopy, rFields, ok_bind, pure_ok]
  rfl
theorem xgrp g slot a : Statement (.xgrp g slot a) := by
  refine of_fields (by simp [packRR, majorAssigned]) rfl ?_
  simp [decodeFields, packRR, decodeCollective, rFields, ok_bind, pure_ok]
  rfl
theorem xgrpEnd g slot : Statement (.xgrpEnd g slot) := by
  refine of_fields (by simp [packRR, majorAssigned]) rfl ?_
  simp [decodeFields, packRR, decodeCollective, rFields, ok_bind, pure_ok]
  rfl
theorem xgather g slot ioff cb a : Statement (.xgather g slot ioff cb a) := by
  refine of_fields (by simp [packRR, majorAssigned]) rfl ?_
  simp [decodeFields, packRR, decodeCollective, rFields, ok_bind, pure_ok]
  rfl
theorem xrscat g t slot ioff cb a : Statement (.xrscat g t slot ioff cb a) := by
  refine of_fields (by simp [packRT, majorAssigned]) rfl ?_
  simp [decodeFields, packRT, decodeCollective, rFields, ok_bind, pure_ok]
theorem xa2a g slot ioff cb a : Statement (.xa2a g slot ioff cb a) := by
  refine of_fields (by simp [packRR, majorAssigned]) rfl ?_
  simp [decodeFields, packRR, decodeCollective, rFields, ok_bind, pure_ok]
  rfl
theorem xbar g slot : Statement (.xbar g slot) := by
  refine of_fields (by simp [packRR, majorAssigned]) rfl ?_
  simp [decodeFields, packRR, decodeCollective, rFields, ok_bind, pure_ok]
  rfl
theorem xwait g slot : Statement (.xwait g slot) := by
  refine of_fields (by simp [packRR, majorAssigned]) rfl ?_
  simp [decodeFields, packRR, decodeCollective, rFields, ok_bind, pure_ok]
  rfl
theorem rsplit g one d a b c : Statement (.rsplit g one d a b c) := by
  refine of_fields (by simp [packRR, majorAssigned]) rfl ?_
  simp [decodeFields, packRR, decodeSystem, rFields, ok_bind, pure_ok]
  rfl
theorem rmerge g d a b : Statement (.rmerge g d a b) := by
  refine of_fields (by simp [packRR, majorAssigned]) rfl ?_
  simp [decodeFields, packRR, decodeSystem, rFields, ok_bind, pure_ok]
  rfl
theorem rinval g all a b c : Statement (.rinval g all a b c) := by
  refine of_fields (by simp [packRR, majorAssigned]) rfl ?_
  simp [decodeFields, packRR, decodeSystem, rFields, ok_bind, pure_ok]
  rfl
theorem rprobe g d a b q : Statement (.rprobe g d a b q) := by
  refine of_fields (by simp [packRR, majorAssigned]) rfl ?_
  simp [decodeFields, packRR, decodeSystem, rFields, ok_bind, pure_ok]
  rfl
theorem rprobeS2 g d a b q : Statement (.rprobeS2 g d a b q) := by
  refine of_fields (by simp [packRR, majorAssigned]) rfl ?_
  simp [decodeFields, packRR, decodeSystem, rFields, ok_bind, pure_ok]
  rfl
theorem rcompact g d a b c : Statement (.rcompact g d a b c) := by
  refine of_fields (by simp [packRR, majorAssigned]) rfl ?_
  simp [decodeFields, packRR, decodeSystem, rFields, ok_bind, pure_ok]
  rfl
theorem netsave g d a b : Statement (.netsave g d a b) := by
  refine of_fields (by simp [packRR, majorAssigned]) rfl ?_
  simp [decodeFields, packRR, decodeSystem, rFields, ok_bind, pure_ok]
  rfl
theorem netload g d a b : Statement (.netload g d a b) := by
  refine of_fields (by simp [packRR, majorAssigned]) rfl ?_
  simp [decodeFields, packRR, decodeSystem, rFields, ok_bind, pure_ok]
  rfl
theorem netdrain g a : Statement (.netdrain g a) := by
  refine of_fields (by simp [packRR, majorAssigned]) rfl ?_
  simp [decodeFields, packRR, decodeSystem, rFields, ok_bind, pure_ok]
  rfl
theorem netreset g a : Statement (.netreset g a) := by
  refine of_fields (by simp [packRR, majorAssigned]) rfl ?_
  simp [decodeFields, packRR, decodeSystem, rFields, ok_bind, pure_ok]
  rfl
theorem hinfo g pc d : Statement (.hinfo g pc d) := by
  cases pc <;> refine of_fields (by simp [packRR, majorAssigned]) rfl ?_ <;>
  simp [decodeFields, packRR, decodeSystem, rFields, ok_bind, pure_ok] <;> rfl
theorem hget g d r : Statement (.hget g d r) := by
  refine of_fields (by simp [packRR, majorAssigned]) rfl ?_
  simp [decodeFields, packRR, decodeSystem, rFields, ok_bind, pure_ok]
  rfl
theorem hput g r a : Statement (.hput g r a) := by
  refine of_fields (by simp [packRR, majorAssigned]) rfl ?_
  simp [decodeFields, packRR, decodeSystem, rFields, ok_bind, pure_ok]
  rfl
theorem hresume g : Statement (.hresume g) := by
  refine of_fields (by simp [packRR, majorAssigned]) rfl ?_
  simp [decodeFields, packRR, decodeSystem, rFields, ok_bind, pure_ok]
  rfl
theorem hkill g : Statement (.hkill g) := by
  refine of_fields (by simp [packRR, majorAssigned]) rfl ?_
  simp [decodeFields, packRR, decodeSystem, rFields, ok_bind, pure_ok]
  rfl
theorem habort g : Statement (.habort g) := by
  refine of_fields (by simp [packRR, majorAssigned]) rfl ?_
  simp [decodeFields, packRR, decodeSystem, rFields, ok_bind, pure_ok]
  rfl
theorem launch g d a b : Statement (.launch g d a b) := by
  refine of_fields (by simp [packRR, majorAssigned]) rfl ?_
  simp [decodeFields, packRR, decodeSystem, rFields, ok_bind, pure_ok]
  rfl
theorem cntcfg g d a b c : Statement (.cntcfg g d a b c) := by
  refine of_fields (by simp [packRR, majorAssigned]) rfl ?_
  simp [decodeFields, packRR, decodeSystem, rFields, ok_bind, pure_ok]
  rfl
theorem cntrd g d a : Statement (.cntrd g d a) := by
  refine of_fields (by simp [packRR, majorAssigned]) rfl ?_
  simp [decodeFields, packRR, decodeSystem, rFields, ok_bind, pure_ok]
  rfl
theorem sealset g d a b : Statement (.sealset g d a b) := by
  refine of_fields (by simp [packRR, majorAssigned]) rfl ?_
  simp [decodeFields, packRR, decodeSystem, rFields, ok_bind, pure_ok]
  rfl
theorem spanCensus b c : Statement (.spanCensus b c) := of_event rfl
theorem fetchLineLoad b c time : Statement (.fetchLineLoad b c time) := of_event rfl
theorem laneUnpark b c l : Statement (.laneUnpark b c l) := of_event rfl
theorem operationPerform b c k posted picks : Statement (.operationPerform b c k posted picks) := of_event rfl
theorem drain b k : Statement (.drain b k) := of_event rfl
theorem waitcPoll b c l : Statement (.waitcPoll b c l) := of_event rfl
theorem regroupPair b c c2 : Statement (.regroupPair b c c2) := of_event rfl
theorem regroupTimeout b c : Statement (.regroupTimeout b c) := of_event rfl
theorem crewPromote b c : Statement (.crewPromote b c) := of_event rfl
theorem localityScoreDecay core : Statement (.localityScoreDecay core) := of_event rfl
theorem tokenNumberReturn net hops tok : Statement (.tokenNumberReturn net hops tok) := of_event rfl
theorem networkDrained net : Statement (.networkDrained net) := of_event rfl
theorem handlerCrewFormFull core : Statement (.handlerCrewFormFull core) := of_event rfl
theorem handlerCrewFormTimeout core : Statement (.handlerCrewFormTimeout core) := of_event rfl
theorem blockAbortStop b : Statement (.blockAbortStop b) := of_event rfl
theorem blockComplete b : Statement (.blockComplete b) := of_event rfl
theorem launchComplete launch : Statement (.launchComplete launch) := of_event rfl
theorem launchListTake vf list : Statement (.launchListTake vf list) := of_event rfl
theorem listHeadWake vf list : Statement (.listHeadWake vf list) := of_event rfl
theorem blockPlace launch : Statement (.blockPlace launch) := of_event rfl
theorem groupPlace launch : Statement (.groupPlace launch) := of_event rfl
theorem copyPiece b k row piece ecc : Statement (.copyPiece b k row piece ecc) := of_event rfl
theorem copyMarker b k : Statement (.copyMarker b k) := of_event rfl
theorem matrixCmdExecute b : Statement (.matrixCmdExecute b) := of_event rfl
theorem matrixKstep b cached ecc : Statement (.matrixKstep b cached ecc) := of_event rfl
theorem collectiveDeliver op member order : Statement (.collectiveDeliver op member order) := of_event rfl
theorem collectiveOpComplete op member : Statement (.collectiveOpComplete op member) := of_event rfl
theorem collectiveTimeout b c l : Statement (.collectiveTimeout b c l) := of_event rfl
theorem collectiveFallback op : Statement (.collectiveFallback op) := of_event rfl
theorem fullerStart die : Statement (.fullerStart die) := of_event rfl
theorem fullerGranuleMove die : Statement (.fullerGranuleMove die) := of_event rfl
theorem sliceExpiry part : Statement (.sliceExpiry part) := of_event rfl
theorem sliceEarlyEnd part : Statement (.sliceEarlyEnd part) := of_event rfl
theorem partitionReset part : Statement (.partitionReset part) := of_event rfl
theorem partitionDrainComplete part : Statement (.partitionDrainComplete part) := of_event rfl
theorem hostSwitchAck part : Statement (.hostSwitchAck part) := of_event rfl
theorem partitionRecordWrite part off data : Statement (.partitionRecordWrite part off data) := of_event rfl
theorem functionRecordWrite part vf off data : Statement (.functionRecordWrite part vf off data) := of_event rfl
theorem denialConsumerWrite part c : Statement (.denialConsumerWrite part c) := of_event rfl
theorem registerWrite off v : Statement (.registerWrite off v) := of_event rfl
theorem hostApertureWrite off data : Statement (.hostApertureWrite off data) := of_event rfl
theorem hostApertureRead off n : Statement (.hostApertureRead off n) := of_event rfl
theorem hostRecall line off data : Statement (.hostRecall line off data) := of_event rfl
theorem hostTierResponse k : Statement (.hostTierResponse k) := of_event rfl
theorem linkFlitReceive flit : Statement (.linkFlitReceive flit) := of_event rfl
theorem fabricFlitReceive port flit : Statement (.fabricFlitReceive port flit) := of_event rfl
theorem fabricRouteWrite w : Statement (.fabricRouteWrite w) := of_event rfl
theorem powerGood : Statement (.powerGood) := of_event rfl
theorem bootStageComplete r : Statement (.bootStageComplete r) := of_event rfl
theorem adaptiveAdjust : Statement (.adaptiveAdjust) := of_event rfl
theorem plimSet watts : Statement (.plimSet watts) := of_event rfl
theorem powerLimitThrottle lower space : Statement (.powerLimitThrottle lower space) := of_event rfl
theorem thermalTrip : Statement (.thermalTrip) := of_event rfl
theorem memoryRetrain channel : Statement (.memoryRetrain channel) := of_event rfl
theorem retrainRequest channel : Statement (.retrainRequest channel) := of_event rfl
theorem attestationReport nonce : Statement (.attestationReport nonce) := of_event rfl
theorem keySlotLoad slot key : Statement (.keySlotLoad slot key) := of_event rfl
theorem powerRemoved : Statement (.powerRemoved) := of_event rfl
theorem unassignedMajor w : Statement (.unassignedMajor w) := by
  intro h w' v e
  have e' : some (w, (0 : DWord)) = some (w', v) := e
  simp only [Option.some.injEq, Prod.mk.injEq] at e'
  obtain ⟨rfl, rfl⟩ := e'
  have : majorAssigned (opcOf w) = false := by
    cases hm : majorAssigned (opcOf w) with
    | false => rfl
    | true =>
      have : (!majorAssigned (opcOf w)) = true := by
        simp only [Instr.wf, Bool.and_eq_true] at h; exact h.2
      rw [hm] at this; exact absurd this (by decide)
  rw [decodeWords, this]; rfl

end Sys2Proof.Laws.RoundTrip
end

