-- ==== Sys2Proof/Laws/Step.lean ====
section
/-! SUPPORT. What a step is: which instruction a crew issues next, and which move a step makes. -/

open Sys2Proof Sys2Proof.Machine

namespace Sys2Proof.Laws

/-- The instruction a crew issues next, from where its visit stands. -/
theorem nextInstr_of {s : State} {u ci b c lab pc p l} (hc : s.crew? u ci = some (b, c)) (hs : c.seq = .visit lab pc)
    (hl : c.line = some l) (hh : b.heldAt c = false) (hb : State.boundary b c lab pc = .issue p)
    (hm : b.mayIssue c (l.instrAt p.toNat) = true) (hf : s.linkFree b ci (c.joinAt lab p) (l.instrAt p.toNat) = true)
    (ha : (!(l.instrAt p.toNat).leavesAfter || (s.afterWaits b c p (l.instrAt p.toNat).len).isNone) = true)
    (hx : s.mayChoose b c = true) (hk : s.heldBack b.core c (l.instrAt p.toNat) = false) :
    s.nextInstr u ci = some (lab, p, l.instrAt p.toNat) := by
  have hr : s.readyInstr b ci c = some (lab, p, l.instrAt p.toNat) := by
    simp only [State.readyInstr, hs, hl, hh, hb, hm, hf, ha, Bool.and_self, if_true, Bool.false_eq_true, if_false]
  simp only [State.nextInstr, hc, hr, hx, hk, Bool.not_false, Bool.and_self, if_true]

/-- Time passing leaves READY. -/
theorem pass_ready (s : State) (c r : Nat) : (s.pass c r).ready = s.ready := by
  simp only [State.pass, State.watch]; split <;> rfl

/-- A step makes the next move of the agenda. -/
theorem step_agenda {s : State} {t : Turn} {rest : List Turn} (h : s.agenda = t :: rest) :
    step s = State.make ((({ s with agenda := rest } : State).inTurn t).pass t.cycles t.refs) t.move := by
  simp only [step, State.turn, h]

/-- An issuing move runs the crew's next instruction. -/
theorem make_issue {s : State} {u ci lab p i} (hr : s.ready = true)
    (h : (s.opening (.issue u ci)).nextInstr u ci = some (lab, p, i)) :
    s.make (.issue u ci) = exec i ((s.opening (.issue u ci)).issueState u ci lab p) := by
  simp only [State.make, hr, h, Bool.not_true, Bool.false_eq_true, if_false]

/-- The instruction that the words of a slot decode to. -/
theorem instrAt_ok {l : Line} {o : Nat} {i : Instr}
    (h : decodeWords (l.wordAt o) (if lengthOf (l.wordAt o) = 2 then l.wordAt (o + 1) else 0) = .ok i) : l.instrAt o = i := by
  unfold Line.instrAt
  simp only []
  rw [h]

/-- Words that decode to nothing. -/
theorem instrAt_error {l : Line} {o : Nat} {e : DecodeError}
    (h : decodeWords (l.wordAt o) (if lengthOf (l.wordAt o) = 2 then l.wordAt (o + 1) else 0) = .error e) :
    l.instrAt o = .unassignedMajor (l.wordAt o) := by
  unfold Line.instrAt
  simp only []
  rw [h]

end Sys2Proof.Laws
end

