-- ==== Sys2Proof/Laws/Words.lean ====
section
/-! SUPPORT. Words as bytes, and which instructions have words. -/

open Sys2Proof

namespace Sys2Proof.Laws

/-- A slice of a word as a number. -/
theorem bits_toNat (w : DWord) (lo len : Nat) : (bits w lo len).toNat = w.toNat / 2 ^ lo % 2 ^ len := by
  simp [bits, BitVec.extractLsb'_toNat, Nat.shiftRight_eq_div_pow]

/-- A word has eight bytes. -/
theorem bytesOf_length (w : DWord) : (bytesOf w).length = 8 := by simp [bytesOf]

/-- The bytes of a word read back as the word. -/
theorem dwordOf_bytesOf (w : DWord) : dwordOf (bytesOf w) = w := by
  have h : List.foldr (fun (x : Byte) acc => x.toNat + 256 * acc) 0 (bytesOf w) = w.toNat := by
    have := w.isLt
    simp [bytesOf, List.range, List.range.loop]
    omega
  rw [dwordOf, h]; simp

/-- Eight bytes are the bytes of the word they make. -/
theorem bytesOf_dwordOf (b : List Byte) (h : b.length = 8) : bytesOf (dwordOf b) = b := by
  match b, h with
  | [b0, b1, b2, b3, b4, b5, b6, b7], _ =>
    have h0 := b0.isLt; have h1 := b1.isLt; have h2 := b2.isLt; have h3 := b3.isLt
    have h4 := b4.isLt; have h5 := b5.isLt; have h6 := b6.isLt; have h7 := b7.isLt
    have e : (dwordOf [b0, b1, b2, b3, b4, b5, b6, b7]).toNat = b0.toNat + 256 * (b1.toNat + 256 * (b2.toNat
        + 256 * (b3.toNat + 256 * (b4.toNat + 256 * (b5.toNat + 256 * (b6.toNat + 256 * b7.toNat)))))) := by
      simp [dwordOf]; omega
    simp only [bytesOf, List.range, List.range.loop, List.map]
    simp only [List.cons.injEq, and_true]
    refine ⟨?_, ?_, ?_, ?_, ?_, ?_, ?_, ?_⟩ <;> apply BitVec.eq_of_toNat_eq <;> rw [bits_toNat, e] <;> simp <;> omega

/-- Every instruction but an event has words. -/
theorem words_of {i : Instr} (h : i.isEvent = false) : ∃ p, i.words = some p := by
  cases i <;> first | exact Bool.noConfusion (show true = false from h) | exact ⟨_, rfl⟩

/-- What has words is no event. -/
theorem event_words {i : Instr} (h : i.words ≠ none) : i.isEvent = false := by
  cases i <;> first | exact (rfl : false = false) | exact absurd (show none = none from rfl) h

/-- The second word of a short instruction is zero. -/
theorem short_second {i : Instr} {w v : DWord} (e : i.words = some (w, v)) (h : lengthOf w ≠ 2) : v = 0 := by
  cases i <;> first
    | (have e' : some (_, _) = some (w, v) := e; injection e' with e'; exact (congrArg Prod.snd e').symm)
    | (exfalso; apply h; have e' : some (_, _) = some (w, v) := e; injection e' with e'
       have e1 : _ = w := congrArg Prod.fst e'; rw [← e1]; simp [lengthOf, packRR, packRT])
    | (have e' : (none : Option (DWord × DWord)) = some (w, v) := e; simp at e')

/-- What an assigned word decodes to is well formed, and has exactly those words. -/
theorem decodeWords_sound {w v : DWord} {i : Instr} (hm : majorAssigned (opcOf w) = true) (h : decodeWords w v = .ok i) :
    i.wf = true ∧ i.words = some (w, v) := by
  unfold decodeWords at h
  rw [if_pos hm] at h
  cases hd : decodeFields w v with
  | error e => rw [hd] at h; exact absurd h (fun h => by injection h)
  | ok j =>
    rw [hd] at h
    dsimp only at h
    by_cases hw : j.wf = true
    · rw [hw, if_neg (by decide)] at h
      by_cases hx : j.words = some (w, v)
      · rw [if_pos hx] at h; injection h with h; subst h; exact ⟨hw, hx⟩
      · rw [if_neg hx] at h; injection h
    · rw [Bool.not_eq_true] at hw
      rw [hw, if_pos (by decide)] at h; injection h

end Sys2Proof.Laws
end

