-- ==== Sys2Proof/Tests/Slice0.lean ====
section
/-! SUPPORT. Tests, whose expected results come from the spec's encodings, tables and worked examples; and, for each statement
with hypotheses, a state and operands that meet them. -/

open Sys2Proof Sys2Proof.Machine

namespace Sys2Proof.Tests

set_option Elab.async false

/-! ### Words written out from the encodings of the spec (05_encoding R54-R68 and the entries' own tables) -/

/-- No guard, and the guard (q1). -/
def G : Guard := ⟨false, 0⟩
def G1 : Guard := ⟨false, 1⟩

/-- A word, its second word, and the instruction it stands for. -/
abbrev Row := DWord × DWord × Instr

def controlWords : List Row := [
  (0x0100FFFF00000000, 0x0, .nop G),
  (0x0201FFFF00000004, 0x0, .go G1 4),
  (0x030003FF00000000, 0x0, .gox G (.v 3)),
  (0x0400000B00000011, 0x0, .call G 11 17),
  (0x050085FF00000020, 0x0, .callx G (.s 5) 32),
  (0x0600FFFF00000000, 0x0, .ret G),
  (0x0701FFFF00000000, 0x0, .done G1),
  (0x0800FFFF0000002A, 0x0, .trap G 42),
  (0x0902FFFF00000007, 0x0, .brk ⟨false, 2⟩ 7),
  (0x0A008AFF00000001, 0x0, .wantc G (.s 10) 1),
  (0x0B00FF8900000010, 0x0, .prefiIc G (.s 9) 1),
  (0x0B00FF8900000011, 0x0, .prefiL2 G (.s 9) 1),
  (0x0B10FF8900000010, 0x0, .pini G (.s 9) 1),
  (0x0B20FFFF00000030, 0x0, .unpini G .none 3),
  (0x0C0000CAFFFF0000, 0x0, .movs G (.v 0) .lid),
  (0xF000FF90FFFF0000, 0x6000030002, .got G (.s 16) 0x60 3 2)]

def integerWords : List Row := [
  (0x10000182FFFFE000, 0x0, .mov G .b32 (.v 1) (.s 2)),
  (0x110084FF00000001, 0x0, .movi G .word (.s 4) 1),
  (0x120002803F800000, 0x0, .movh G (.v 2) (.s 0) 0x3F800000),
  (0x1300010080FF4000, 0x0, .iadd G .i32 false (.v 1) (.v 0) (.s 0)),
  (0x14000508090A4000, 0x0, .iadd3 G .i32 false (.v 5) (.v 8) (.v 9) (.v 10)),
  (0x1500068805FF4000, 0x0, .isub G .i32 false (.v 6) (.s 8) (.v 5)),
  (0x1600028082C35000, 0x0, .addc G (.v 2) (.s 0) (.s 2) 3),
  (0x1700028082C35000, 0x0, .subb G (.v 2) (.s 0) (.s 2) 3),
  (0x1800068080FF5100, 0x0, .imul G .n32 true (.v 6) (.s 0) (.s 0)),
  (0x1900048080FF5000, 0x0, .imulh G .n32 (.v 4) (.s 0) (.s 0)),
  (0x1A00010203044100, 0x0, .imad G .i32 true (.v 1) (.v 2) (.v 3) (.v 4)),
  (0x1B00010203FF1000, 0x0, .imin G .n8 (.v 1) (.v 2) (.v 3)),
  (0x1C00020406FF6000, 0x0, .imax G .i64 (.v 2) (.v 4) (.v 6)),
  (0x1D000102FFFF4000, 0x0, .iabs G .i32 false (.v 1) (.v 2)),
  (0x1E000102FFFF2100, 0x0, .ineg G .i16 true (.v 1) (.v 2)),
  (0x1F00010088FFE000, 0x0, .and G .b32 (.v 1) (.v 0) (.s 8)),
  (0x2000020406FF7000, 0x0, .or G .n64 (.v 2) (.v 4) (.v 6)),
  (0x2100C1C2C3FFE000, 0x0, .xor G .b32 (.q 1) (.q 2) (.q 3)),
  (0x2200010283FFE000, 0x0, .andn G .b32 (.v 1) (.v 2) (.s 3)),
  (0x2300060484FF5000, 0x0, .shl G .n32 (.v 6) (.v 4) (.s 4)),
  (0x2400028001FF7000, 0x0, .shr G .n64 (.v 2) (.s 0) (.v 1)),
  (0x2500078384FF4000, 0x0, .sar G .i32 (.v 7) (.s 3) (.s 4)),
  (0x2600010203FFE000, 0x0, .rot G .b32 (.v 1) (.v 2) (.v 3)),
  (0x2700088085FF4000, 0x0, .bfx G .i32 (.v 8) (.s 0) (.s 5)),
  (0x280001020385E000, 0x0, .bfi G .b32 (.v 1) (.v 2) (.v 3) (.s 5)),
  (0x29000102FFFF7000, 0x0, .popc G .n64 (.v 1) (.v 2)),
  (0x29100900FFFFE000, 0x0, .clz G .b32 (.v 9) (.v 0)),
  (0x29200102FFFFE000, 0x0, .ctz G .b32 (.v 1) (.v 2)),
  (0x29300204FFFF7000, 0x0, .brev G .n64 (.v 2) (.v 4)),
  (0x2A00C10380C15002, 0x0, .icmp G .n32 .eq .and 1 (.v 3) (.s 0) (.q 1)),
  (0x2B00010203C4E000, 0x0, .isel G .b32 (.v 1) (.v 2) (.v 3) 4),
  (0x2C00028005FF5006, 0x0, .lea G .n32 3 (.v 2) (.s 0) (.v 5)),
  (0x2D00010203040002, 0x0, .idot4 G .i8 false true (.v 1) (.v 2) (.v 3) (.v 4))]

def floatWords : List Row := [
  (0x3000010203FF8503, 0x0, .fadd G .f16 .rdn true true true (.v 1) (.v 2) (.v 3)),
  (0x3000040102FFA600, 0x0, .fadd G .f32 .rup false false false (.v 4) (.v 1) (.v 2)),
  (0x3100010203FFA000, 0x0, .fsub G .f32 .rne false false false (.v 1) (.v 2) (.v 3)),
  (0x3200018080FFA000, 0x0, .fmul G .f32 .rne false false false (.v 1) (.s 0) (.s 0)),
  (0x330003808081A000, 0x0, .ffma G .f32 .rne false false false (.v 3) (.s 0) (.s 0) (.s 1)),
  (0x3400048283FFA000, 0x0, .fmin G .f32 false false (.v 4) (.s 2) (.s 3)),
  (0x3500010203FF9002, 0x0, .fmax G .bf16 true false (.v 1) (.v 2) (.v 3)),
  (0x3620C10203C4A004, 0x0, .fcmp G .f32 .lt .or false 1 (.v 2) (.v 3) (.q 4)),
  (0x37000102FFFFB000, 0x0, .fclass G .e4m3 (.v 1) (.v 2)),
  (0x38000102FFFFA200, 0x0, .frcp G .f32 .rtz false false (.v 1) (.v 2)),
  (0x39000102FFFFA000, 0x0, .frsq G .f32 false false (.v 1) (.v 2)),
  (0x3A000102FFFFAA00, 0x0, .fsqrt G .f32 .rst false false (.v 1) (.v 2)),
  (0x3B000102FFFFA100, 0x0, .fexp2 G .f32 true false (.v 1) (.v 2)),
  (0x3C000102FFFF8001, 0x0, .flog2 G .f16 false true (.v 1) (.v 2)),
  (0x3D000A86FFFFA000, 0x0, .fsin G .f32 false false (.v 10) (.s 6)),
  (0x3E000102FFFFA000, 0x0, .fcos G .f32 false false (.v 1) (.v 2)),
  (0x3F000102FFFF9000, 0x0, .ftanh G .bf16 false false (.v 1) (.v 2)),
  (0x4000010203FFA000, 0x0, .fscale G .f32 .rne false false (.v 1) (.v 2) (.v 3)),
  (0x41000102FFFFA600, 0x0, .frnd G .f32 .rup false (.v 1) (.v 2)),
  (0x4200010203048000, 0x0, .fdot2 G .f16 .rne false false (.v 1) (.v 2) (.v 3) (.v 4)),
  (0x43000783FFFFD8A0, 0x0, .cvt G .e2m1 .f32 .rna false false (.v 7) (.s 3) .none),
  (0x4300088584FFA0D0, 0x0, .cvt G .f32 .e2m1 .rne false false (.v 8) (.s 5) (.s 4)),
  (0x440001020304B0A2, 0x0, .pack G .e4m3 .f32 .rne false false 1 (.v 1) (.v 2) (.v 3) (.v 4)),
  (0x4500010284FFA0B4, 0x0, .unpack G .f32 .e4m3 .rne false false 2 (.v 1) (.v 2) (.s 4))]

def crewWords : List Row := [
  (0x501084C1FFFF0000, 0x0, .vote G .any (.s 4) 1),
  (0x510084C1FFFF0000, 0x0, .ballot G (.s 4) 1),
  (0x5220010283FFE000, 0x0, .shfl G .down .b32 (.v 1) (.v 2) (.s 3)),
  (0x53000102FFFF4002, 0x0, .scan G .add .i32 .rne false true false (.v 1) (.v 2)),
  (0x54208402FFFFA000, 0x0, .reduce G .max .f32 .rne false false (.s 4) (.v 2)),
  (0x55000103FFC2E000, 0x0, .matchI G .b32 (.v 1) (.v 3) (.q 2)),
  (0x56000801029E400A, 0x0, .isect G .i32 5 (.v 8) (.v 1) (.v 2) (.s 30)),
  (0x5700C28602FF0000, 0x0, .regroup 2 (.s 6) (.v 2) 0),
  (0x58000201FF90D006, 0x0, .qnt G .e2m1 .rne true true false (.v 2) (.v 1) (.s 16)),
  (0x59100482FFC20000, 0x0, .take G true (.v 4) (.s 2) (.q 2)),
  (0x5A009882FFFF0000, 0x0, .netcnt G (.s 24) (.s 2))]

def memoryWords : List Row := [
  (0x60000C8006B80001, 0x0, .ld G .b128 .nl1 false (.v 12) ⟨.s 0, .v 6, 1⟩),
  (0x6100028000A00040, 0x0, .st G .f32 .none (.v 2) ⟨.s 0, .v 0, 64⟩),
  (0x62000186FF00FFFF, 0x0, .lds G .i8 (.v 1) ⟨.s 6, .none, 0xFFFF⟩),
  (0x6300018A00500000, 0x0, .sts G .n32 (.v 1) ⟨.s 10, .v 0, 0⟩),
  (0x6401079205A00000, 0x0, .ldp G1 .f32 (.v 7) ⟨.s 18, .v 5, 0⟩),
  (0x6500079205A00000, 0x0, .stp G .f32 (.v 7) ⟨.s 18, .v 5, 0⟩),
  (0x66000102FFA00000, 0x0, .ldl G .f32 .none (.v 1) ⟨.v 2, .none, 0⟩),
  (0x67000204FF7C0002, 0x0, .stl G .n64 .keep (.v 2) ⟨.v 4, .none, 2⟩),
  (0x68000186FF510000, 0x0, .atom G .add .n32 .sp (.v 1) ⟨.s 6, .none, 0⟩),
  (0x69000280FF500000, 0x0, .cas G .n32 .global (.v 2) ⟨.s 0, .none, 0⟩),
  (0x6A700186FFA20000, 0x0, .red G .fadd .f32 .peer (.v 1) ⟨.s 6, .none, 0⟩),
  (0x6B40FFFFFFFF0000, 0x0, .fence G .sys),
  (0x6C00FFFFFFFF0000, 0x0, .phasePub G),
  (0x6C10FFFFFFFF0000, 0x0, .phaseRef G),
  (0x6C20FFFFFFFF0000, 0x0, .phaseFull G),
  (0x6D500180FF500000, 0x0, .waitc G .ge .n32 (.v 1) ⟨.s 0, .none, 0⟩),
  (0x6E00FF8001010000, 0x0, .pref G true .none ⟨.s 0, .v 1, 0⟩),
  (0x6F00FF81FFFF0000, 0x0, .sfence G (.s 1) .none),
  (0x8000FFFFFFFF0000, 0x0, .bar),
  (0x8100FFFFFFFF0000, 0x0, .barc),
  (0x8201868DFF000001, 0x0, .awinit G1 (.s 6) ⟨.s 13, .none, 1⟩),
  (0x8301868DFF000001, 0x0, .arrive G1 (.s 6) ⟨.s 13, .none, 1⟩),
  (0x84008886FF000000, 0x0, .await G (.s 8) ⟨.s 6, .none, 0⟩)]

def engineWords : List Row := [
  (0xC001FF8B8CFF0020, 0x20, .mdesc G1 false .e2m1 0 32 (.s 11) (.s 12)),
  (0xC010FF82FFFF00C2, 0x20, .mdesc G true .f16 1 32 (.s 2) .none),
  (0xC101FFFFFFFF0000, 0x0, .mzero G1 0),
  (0xC200FF0203044002, 0x0, .mwrite G true 1 (.v 2) (.v 3) (.v 4)),
  (0xC350FFFFFFFF0000, 0x1000100000FFFC0, .mloop G .s2x2 0 0 1 1 0 0xFFFC0),
  (0xC400FFFFFFFF0006, 0x0, .mwait G false 3),
  (0xC500059400FFA000, 0x0, .mread G false 0 (.v 5) (.s 20) (.v 0)),
  (0xC600FFFFFFFF0000, 0x0, .mfence G),
  (0xC7009EFFFFFF0000, 0x0, .mstat G (.s 30)),
  (0xC7109E83FFFF0000, 0x0, .mstatLog G (.s 30) (.s 3)),
  (0xC7209EFFFFFF0002, 0x0, .mstatExp G 1 (.s 30)),
  (0xC730FFFFFFFF0000, 0x0, .mstatClr G),
  (0xD0018B808A8D0000, 0x1F0040001000, .cgather G1 ⟨0, 31, 64, 4096⟩ (.s 11) (.s 0) (.s 10) (.s 13)),
  (0xD1008B808A8D0000, 0x1F0040001000, .cscatter G ⟨0, 31, 64, 4096⟩ (.s 11) (.s 0) (.s 10) (.s 13)),
  (0xD2008B808A8DA000, 0x1F0040001000, .cscatadd G .f32 ⟨0, 31, 64, 4096⟩ (.s 11) (.s 0) (.s 10) (.s 13)),
  (0xD3018680FF860000, 0x10003F0301000000, .ccopy G1 .g2s false ⟨0x100, 63, 3, 256, 0⟩ (.s 6) (.s 0) (.s 6)),
  (0xD3008680FF860002, 0x10003F0301000000, .ccopy G .g2s true ⟨0x100, 63, 3, 256, 0⟩ (.s 6) (.s 0) (.s 6)),
  (0xD4008682FF860000, 0x10003F0300000040, .cfill G false ⟨0x100, 63, 3, 0, 64⟩ (.s 6) (.s 2) (.s 6)),
  (0xD50084FFFFFF0000, 0x0, .cstat G (.s 4)),
  (0xD51084FFFFFF0000, 0x0, .cstatClr G (.s 4)),
  (0xE000FF82FFFF0006, 0x0, .xgrp G 3 (.s 2)),
  (0xE010FFFFFFFF0006, 0x0, .xgrpEnd G 3),
  (0xE100FF82FFFF0002, 0x10000000040, .xgather G 1 256 64 (.s 2)),
  (0xE200FF82FFFF9002, 0x10000000040, .xrscat G .bf16 1 256 64 (.s 2)),
  (0xE300FF82FFFF0002, 0x10000000040, .xa2a G 1 256 64 (.s 2)),
  (0xE400FFFFFFFF0002, 0x0, .xbar G 1),
  (0xE500FFFFFFFF001E, 0x0, .xwait G 15)]

def systemWords : List Row := [
  (0xA000848586880002, 0x0, .rsplit G true (.s 4) (.s 5) (.s 6) (.s 8)),
  (0xA100848586FF0000, 0x0, .rmerge G (.s 4) (.s 5) (.s 6)),
  (0xA200FF8586890000, 0x0, .rinval G false (.s 5) (.s 6) (.s 9)),
  (0xA300888682C10000, 0x0, .rprobe G (.s 8) (.s 6) (.s 2) 1),
  (0xA300888682C10002, 0x0, .rprobeS2 G (.s 8) (.s 6) (.s 2) 1),
  (0xA400848586880000, 0x0, .rcompact G (.s 4) (.s 5) (.s 6) (.s 8)),
  (0xA500848586FF0000, 0x0, .netsave G (.s 4) (.s 5) (.s 6)),
  (0xA600848586FF0000, 0x0, .netload G (.s 4) (.s 5) (.s 6)),
  (0xA700FF85FFFF0000, 0x0, .netdrain G (.s 5)),
  (0xA800FF85FFFF0000, 0x0, .netreset G (.s 5)),
  (0xA91003FFFFFF0000, 0x0, .hinfo G true (.v 3)),
  (0xAA0004C8FFFF0000, 0x0, .hget G (.v 4) (.sp .wl)),
  (0xAB01C881FFFF0000, 0x0, .hput G1 (.sp .wl) (.s 1)),
  (0xAC01FFFFFFFF0000, 0x0, .hresume G1),
  (0xAC19FFFFFFFF0000, 0x0, .hkill ⟨true, 1⟩),
  (0xAC20FFFFFFFF0000, 0x0, .habort G),
  (0xAD00848586FF0000, 0x0, .launch G (.s 4) (.s 5) (.s 6)),
  (0xAE00848586870000, 0x0, .cntcfg G (.s 4) (.s 5) (.s 6) (.s 7)),
  (0xAE108885FFFF0000, 0x0, .cntrd G (.s 8) (.s 5)),
  (0xAF00948682FF0000, 0x0, .sealset G (.s 20) (.s 6) (.s 2))]

/-- Whether each word decodes to its instruction, and the instruction encodes to the word. -/
def agree (l : List Row) : Bool := l.all fun x =>
  decide (decodeWords x.1 x.2.1 = .ok x.2.2) && decide (x.2.2.words = some (x.1, x.2.1))

theorem test_decode_control : agree controlWords = true := by decide
theorem test_decode_integer : agree integerWords = true := by decide
theorem test_decode_float : agree floatWords = true := by decide
theorem test_decode_crew : agree crewWords = true := by decide
theorem test_decode_memory : agree memoryWords = true := by decide
theorem test_decode_engine : agree engineWords = true := by decide
theorem test_decode_system : agree systemWords = true := by decide

/-- The words that the spec's tables give as ones that do not issue, with why the decoder refuses them. -/
def refusedWords : List (DWord × DWord × DecodeError) := [
  (0x1308010080FF4000, 0x0, .operand),
  (0x1300010180FF6000, 0x0, .operand),
  (0x1300010080FFF000, 0x0, .code),
  (0x1300010080FF4C00, 0x0, .code),
  (0x1300010080004000, 0x0, .unused),
  (0x16008C8082C35000, 0x0, .operand),
  (0x1900048080FF5100, 0x0, .unused),
  (0x2500078384FF5000, 0x0, .operand),
  (0x2A20C10181FFE000, 0x0, .operand),
  (0x3000058283FFB000, 0x0, .operand),
  (0x3D000A86FFFFA600, 0x0, .unused),
  (0x3690C18386FFA000, 0x0, .fn),
  (0x3400048283FFA100, 0x0, .unused),
  (0x4300088584FFA1D0, 0x0, .operand),
  (0x44000B8308FF90A2, 0x0, .operand),
  (0x60000380FF700000, 0x0, .operand),
  (0x62000286FFB00000, 0x0, .operand),
  (0x60000480FFC00002, 0x0, .code),
  (0x6000848000A00000, 0x0, .operand),
  (0x62000286FFA40000, 0x0, .unused),
  (0x68000180FF000000, 0x0, .operand),
  (0x68A00180FF500000, 0x0, .fn),
  (0x6B50FFFFFFFF0000, 0x0, .fn),
  (0x8001FFFFFFFF0000, 0x0, .unused),
  (0x510089C1FFFF0000, 0x0, .operand),
  (0x53000201FFFFAA00, 0x0, .operand),
  (0x5701C28602FF0000, 0x0, .unused),
  (0x59100404FFC30000, 0x0, .operand),
  (0x58000201FF90B004, 0x0, .operand),
  (0xC370FFFFFFFF0000, 0x100010000000000, .fn),
  (0xC300FFFFFFFF0000, 0x100000000000000, .operand),
  (0xC000FF8B8CFF00A0, 0x20, .operand),
  (0xC000FF018CFF0020, 0x20, .operand),
  (0xC500859400FFA000, 0x0, .operand),
  (0xD0018B808A8D0000, 0x1F0000001000, .operand),
  (0xD3118486FF860002, 0x10003F0301000000, .operand),
  (0xE100FF10FFFF0002, 0x40, .operand),
  (0xAA0004CFFFFF0000, 0x0, .operand),
  (0xA300848682C10000, 0x0, .operand),
  (0xAE108985FFFF0000, 0x0, .operand)]

theorem test_decode_refuses : (refusedWords.all fun x => decide (decodeWords x.1 x.2.1 = .error x.2.2)) = true := by decide

/-- An unassigned major, and words too short for an instruction (R51, R65, R68). -/
theorem test_decode_unassigned : decodeWords 0x7000000000000000 0 = .ok (.unassignedMajor 0x7000000000000000)
    ∧ decodeWords 0 0 = .ok (.unassignedMajor 0) ∧ decodeBytes [0, 0, 0] = .error .short
    ∧ decodeBytes (bytesOf 0xC600FFFFFFFF0000) = .error .short := by decide

/-- The table's numbering: the first word lowest. -/
theorem test_decode_table : decodeTableWord 64 0x1300010080FF4000 = some (.iadd G .i32 false (.v 1) (.v 0) (.s 0))
    ∧ decodeTableWord 128 (0xD3018680FF860000 + 0x10003F0301000000 * 2 ^ 64)
      = some (.ccopy G1 .g2s false ⟨0x100, 63, 3, 256, 0⟩ (.s 6) (.s 0) (.s 6)) := by decide

/-! ### Issue -/

/-- A state in which that instruction issues: the next fetch holds it. -/
def at' (w v : DWord) : State := (State.reset.fetchNext 128 (w.toNat + v.toNat * 2 ^ 64)).issueState State.reset.nextUid 0 1 1

/-- The instruction issues in that state. -/
def issues (x : Row) : Bool := match (at' x.1 x.2.1).issuing with
  | some k => x.2.2.legal k.b k.c && x.2.2.permitted k.b
  | none => false

/-- What `issues` says is `Issues`: the hypothesis of every statement about an instruction's result can be met. -/
theorem issues_spec {x : Row} (h : issues x = true) : ∃ s k, Issues s k x.2.2 := by
  unfold issues at h
  cases hk : (at' x.1 x.2.1).issuing with
  | none => rw [hk] at h; cases h
  | some k =>
    rw [hk] at h
    rw [Bool.and_eq_true] at h
    exact ⟨_, k, hk, h.1, h.2⟩

theorem test_issues_control : (controlWords.all issues) = true := by decide
theorem test_issues_integer : (integerWords.all issues) = true := by decide
theorem test_issues_float : (floatWords.all issues) = true := by decide
theorem test_issues_crew : (crewWords.all issues) = true := by decide
theorem test_issues_memory : (memoryWords.all issues) = true := by decide
theorem test_issues_engine : (engineWords.all issues) = true := by decide
theorem test_issues_system : (systemWords.all issues) = true := by decide

/-- The very next step runs it. -/
def runs (x : Row) : Bool := match step (State.reset.withFetchWord 128 (x.1.toNat + x.2.1.toNat * 2 ^ 64)) with
  | .next t => t.agenda.isEmpty && t.cur == some (State.reset.nextUid, 0)
  | _ => false

theorem test_runs_control : (controlWords.all runs) = true := by decide +kernel
theorem test_runs_integer : (integerWords.all runs) = true := by decide +kernel
theorem test_runs_float : (floatWords.all runs) = true := by decide +kernel
theorem test_runs_crew : (crewWords.all runs) = true := by decide +kernel
theorem test_runs_memory : (memoryWords.all runs) = true := by decide +kernel
theorem test_runs_engine : (engineWords.all runs) = true := by decide +kernel
theorem test_runs_system : (systemWords.all runs) = true := by decide +kernel

/-! ### Witnesses: for each statement, states and operands that meet the hypotheses of its clauses. Those of the statements about
instructions wherever they issue are `test_issues_…`, by `issues_spec`. -/

/-- The issuing state with its lanes changed, or its one block. -/
def lanes (f : Lane → Lane) (s : State) : State :=
  { s with blocks := s.blocks.map fun b => { b with crews := b.crews.map fun c => { c with lanes := c.lanes.map f } } }

def block (f : Block → Block) (s : State) : State := { s with blocks := s.blocks.map f }

/-- The instruction issues, and its context is as said. -/
def issuesWith (s : State) (i : Instr) (p : Ctx → Bool) : Bool := match s.issuing with
  | some k => i.legal k.b k.c && i.permitted k.b && !(k.c.takers i.guard).isEmpty && p k
  | none => false

/-- A context of a block that is no handler crew, and one of a handler crew. -/
def ctx : Ctx := ((at' 0x0100FFFF00000000 0).issuing).getD ⟨Block.blank, 0, Crew.blank, 0, 0⟩
def ctxH : Ctx := ((at' 0xAC00FFFFFFFF0000 0).issuing).getD ⟨Block.blank, 0, Crew.blank, 0, 0⟩

theorem witness_control :
    issuesWith (lanes (fun l => { l with link := List.replicate 7 1 }) (at' 0x0400000B00000011 0)) (.call G 11 17)
      (fun k => decide (∀ p ∈ k.c.takers G, p.2.link.length < 8 ∧ p.2.depth < 264)) = true
    ∧ issuesWith (at' 0x050085FF00000020 0) (.callx G (.s 5) 32)
      (fun k => decide (∀ p ∈ k.c.takers G, p.2.link.length < 8 ∧ p.2.depth < 264)) = true
    ∧ issuesWith (lanes (fun l => { l with link := [7] }) (at' 0x0600FFFF00000000 0)) (.ret G)
      (fun k => decide (∀ p ∈ k.c.takers G, p.2.link ≠ [] ∧ p.2.spilled = 0)) = true
    ∧ ({ Lane.blank 32 with link := List.replicate 8 1, spilled := 256 } : Lane).depth = 264 ∧ (Lane.blank 32).link = [] := by
  decide +kernel

theorem witness_done_and_traps :
    issuesWith (at' 0x0700FFFF00000000 0) (.done G) (fun k => k.b.hnd.isEmpty) = true
    ∧ issuesWith (at' 0x0800FFFF0000002A 0) (.trap G 42) (fun k => k.b.hnd.isEmpty) = true
    ∧ issuesWith (at' 0x0900FFFF00000007 0) (.brk G 7) (fun k => k.b.hnd.isEmpty) = true := by decide +kernel

theorem witness_exception_entry : ctx.b.hnd = [] ∧ ((at' 0x0100FFFF00000000 0).laneAt ctx.b.uid ctx.ci 0).isSome = true
    ∧ ((at' 0x0100FFFF00000000 0).laneAt ctx.b.uid ctx.ci 1).isSome = true ∧ ctxH.b.hnd ≠ [] := by decide +kernel

/-- A crew of 32 registers may not name v200; SEALSET is a privileged instruction of level 3 (23_system_instructions). -/
theorem witness_not_run :
    ((block (fun b => { b with crews := b.crews.map fun c => { c with budget := 32 } }) (at' 0x10000182FFFFE000 0)).issuing.elim false
      fun k => !(Instr.mov G .b32 (.v 100) (.s 2)).legal k.b k.c && k.b.hnd.isEmpty) = true
    ∧ ((at' 0x10000182FFFFE000 0).issuing.elim false fun k => (Instr.sealset G (.s 20) (.s 6) (.s 2)).legal k.b k.c
      && !(Instr.sealset G (.s 20) (.s 6) (.s 2)).permitted k.b && k.b.hnd.isEmpty) = true
    ∧ ((at' 0x7000000000000000 0).issuing.elim false fun k => k.b.hnd.isEmpty) = true := by decide +kernel

/-- A crew of 32 registers may not regroup v30 to v33 (15_crew_instructions R246). -/
theorem test_regroup_budget : (Instr.regroup 2 (.s 6) (.v 30) 3).legal ctx.b { ctx.c with budget := 32 } = false
    ∧ (Instr.regroup 2 (.s 6) (.v 28) 3).legal ctx.b { ctx.c with budget := 32 } = true := by decide +kernel

theorem witness_special_registers :
    issuesWith (at' 0x0C0000CAFFFF0000 0) (.movs G (.v 0) .lid) (fun _ => true) = true
    ∧ issuesWith (at' 0x0C0084CEFFFF0000 0) (.movs G (.s 4) .swc) (fun k => (k.c.takers G).head?.isSome) = true := by decide +kernel

theorem witness_code_lines : issuesWith (at' 0x0B20FFFF00000030 0) (.unpini G .none 3) (fun k => !(k.c.takers G).isEmpty) = true := by
  decide +kernel

/-- A lane trapped by TRAP, as the handler lane that stands for it sees it. -/
def handled : HLane :=
  { cause := .trapInstr, tag := 0, origin := some ⟨0, 0, 1⟩, fault := 42, off := 1, part := 0, time := 0, decided := false }

theorem witness_verdicts : handled.origin = some ⟨0, 0, 1⟩ ∧ handled.cause.isTrap = true
    ∧ ((at' 0x0100FFFF00000000 0).laneAt 0 0 1).isSome = true
    ∧ Cause.isTrap .matrixError = false ∧ ({ handled with decided := true } : HLane).decided = true := by decide +kernel

theorem witness_scans :
    issuesWith (at' 0x53000102FFFF4002 0) (.scan G .add .i32 .rne false true false (.v 1) (.v 2)) (fun k =>
      decide (((k.c.takers G).filter fun p => decide (p.1 < 1)) ≠ []) && decide (((k.c.takers G).filter fun p => decide (p.1 < 0)) = [])) = true := by
  decide +kernel

/-- A ballot's bit, a shuffle's slot: the first and the last. -/
theorem witness_ballot : (ctx.c.takers G).map (·.1) = [0, 1] ∧ (127 : Nat) < 128 := by decide +kernel

/-- A network granted by the function's record and open (R357, R233). -/
def netState : State :=
  { at' 0x5A009882FFFF0000 0 with funcs := List.replicate 64 { Func.reset with record := (1 : BitVec 2560) <<< 1280 } }

theorem witness_networks : issuesWith netState (.netcnt G (.s 24) (.s 2)) (fun k => match (k.c.takers G).head? with
    | some p => netState.granted k.b (k.c.rd p.2 (.s 2)).toNat
    | none => false) = true := by decide +kernel

/-- Every access of a form is in bounds, and aligned to `n` bytes. -/
def inBounds (k : Ctx) (ps : List (Nat × Lane)) (m : Mem) (n size : Nat) : Bool :=
  !ps.isEmpty && ps.all fun p => decide (k.c.addrS p.2 m size % n = 0 ∧ k.c.addrS p.2 m size + size ≤ k.b.scratchSize)

/-- The first and the last bytes of a scratchpad of 32,768 bytes. -/
theorem witness_scratchpad :
    issuesWith (at' 0x62000186FF000000 0) (.lds G .i8 (.v 1) ⟨.s 6, .none, 0⟩) (fun k => inBounds k (k.c.doers G (.v 1)) ⟨.s 6, .none, 0⟩ 1 1) = true
    ∧ issuesWith (at' 0x62000186FF007FFF 0) (.lds G .i8 (.v 1) ⟨.s 6, .none, 0x7FFF⟩) (fun k => inBounds k (k.c.doers G (.v 1)) ⟨.s 6, .none, 0x7FFF⟩ 1 1) = true
    ∧ issuesWith (at' 0x6300018AFF501FFF 0) (.sts G .n32 (.v 1) ⟨.s 10, .none, 0x1FFF⟩) (fun k => inBounds k (k.c.takers G) ⟨.s 10, .none, 0x1FFF⟩ 4 4) = true
    ∧ issuesWith (at' 0x8200868DFF000FFF 0) (.awinit G (.s 6) ⟨.s 13, .none, 0xFFF⟩) (fun k => inBounds k (k.c.takers G) ⟨.s 13, .none, 0xFFF⟩ 8 8) = true
    ∧ issuesWith (at' 0x8300868DFF000FFF 0) (.arrive G (.s 6) ⟨.s 13, .none, 0xFFF⟩) (fun k => inBounds k (k.c.takers G) ⟨.s 13, .none, 0xFFF⟩ 8 8) = true
    ∧ issuesWith (at' 0x84008886FF000000 0) (.await G (.s 8) ⟨.s 6, .none, 0⟩) (fun k => inBounds k (k.c.takers G) ⟨.s 6, .none, 0⟩ 8 8) = true
    ∧ issuesWith (at' 0x68000186FF511FFF 0) (.atom G .add .n32 .sp (.v 1) ⟨.s 6, .none, 0x1FFF⟩) (fun k => inBounds k (k.c.doers G (.v 1)) ⟨.s 6, .none, 0x1FFF⟩ 4 4) = true
    ∧ issuesWith (at' 0x69000286FF510000 0) (.cas G .n32 .sp (.v 2) ⟨.s 6, .none, 0⟩) (fun k => inBounds k (k.c.doers G (.v 2)) ⟨.s 6, .none, 0⟩ 4 4) = true
    ∧ issuesWith (at' 0x6A000186FF510000 0) (.red G .add .n32 .sp (.v 1) ⟨.s 6, .none, 0⟩) (fun k => inBounds k (k.c.takers G) ⟨.s 6, .none, 0⟩ 4 4) = true := by
  decide +kernel

/-- Lanes whose s6 is 2: a misaligned word; one past the scratchpad; a group position where no block stands, and past the four. -/
theorem witness_access_checks :
    (ctx.c.wrS (.s 6) 2).addrG (Lane.blank 32) ⟨.s 6, .none, 0⟩ 4 % 4 ≠ 0 ∧ (ctx.c.wrS (.s 6) 2).addrS (Lane.blank 32) ⟨.s 6, .none, 0⟩ 4 % 4 ≠ 0
    ∧ (ctx.c.wrS (.s 6) 2).addrS (Lane.blank 32) ⟨.s 6, .none, 0⟩ 8 % 8 ≠ 0 ∧ ASpace.sp ≠ ASpace.global ∧ ASpace.peer ≠ ASpace.global
    ∧ ctx.b.scratchSize < 32765 + 4 ∧ (524288 : Nat) < 2 ^ 21 ∧ State.reset.scratchOn ctx.b (ctx.b.core / 4 * 4 + 524288 / 2 ^ 19) = none
    ∧ (2097151 : Nat) < 2 ^ 21 ∧ State.reset.scratchOn ctx.b (ctx.b.core / 4 * 4 + 2097151 / 2 ^ 19) = none
    ∧ (2 : Nat) ^ 21 ≤ 2097152 := by decide +kernel

/-- A crew with these operations in its queue, in the block of `at'`. -/
def queued (ws : List OpKind) : State := block (fun b => { b with
  crews := b.crews.map fun c => { c with ins := 1, queue := ws.map fun w => ⟨1, 0, 1, 1, w⟩ } }) (at' 0x0100FFFF00000000 0)

/-- Whether the operation at that place of the queue is what it should be, and may perform or not. -/
def performs (s : State) (n : Nat) (may : Bool) (p : OpKind → Bool) : Bool := match s.crew? 0 0 with
  | some (b, c) => match c.queue[n]? with
    | some o => p o.what && s.mayGo b 0 c n o == may
    | none => false
  | none => false

/-- A load behind a store to the same bytes of the scratchpad waits; a load alone, a barrier and a system instruction perform. -/
theorem witness_operations :
    performs (queued [.spStore 0 64 4 7, .spLoad .n32 0 64 (.v 1)]) 1 false (fun _ => true) = true
    ∧ performs (queued [.spLoad .n32 0 64 (.v 1)]) 0 true (fun w => !w.byEighth) = true
    ∧ performs (queued [.instr (.mwait G false 0) []]) 0 true (fun w => w.byEighth) = true
    ∧ performs (queued [.instr (.netreset G (.s 5)) [0]]) 0 true (fun w => match w with
      | .instr i _ => i.system && !w.byEighth
      | _ => false) = true := by decide +kernel

/-- The block's scratchpad is there, and canonical. -/
theorem witness_scratchpad_moves : (∃ t, (at' 0x0100FFFF00000000 0).targetOf ctx 0 = some t
    ∧ (at' 0x0100FFFF00000000 0).block? t.uid = some t ∧ memWf t.scratch = true) ∧ (1 : Nat) ≠ ctx.b.uid :=
  ⟨⟨_, rfl, rfl, rfl⟩, by decide⟩

/-- A piece of four bytes at that home address. -/
def piece (a : Nat) : Piece := ⟨a, a, 4, 0, 0, 0, 0, 0xFFFF⟩

/-- A block with two store-buffer entries for the same bytes. -/
def entries : List Entry := [⟨piece 64, 1, 0, 0, 0, 1, 0, .none⟩, ⟨piece 64, 2, 0, 0, 0, 1, 1, .none⟩]

def buffered : State := block (fun b => { b with storeBuf := entries, entered := 2 }) (at' 0x0100FFFF00000000 0)

theorem witness_drains : (buffered.block? 0).isSome = true ∧ oldestEntry entries 0 = true
    ∧ oldestEntry entries 1 = false ∧ memWf buffered.mem = true := by decide +kernel

/-- Canonical memory, times before the newest, and bytes next to the ones written. -/
theorem witness_home : memWf State.reset.mem = true ∧ memWf [(3, 1), (5, 2)] = true
    ∧ (0 : Nat) < ({ State.reset with log := [[]] } : State).now ∧ ((63 : Nat) < 64 ∧ (64 : Nat) + 4 ≤ 68) := by decide +kernel

theorem witness_atomics : ((at' 0x0100FFFF00000000 0).block? ctx.b.uid).isSome = true
    ∧ ((at' 0x0100FFFF00000000 0).block? ctx.b.uid).elim false (fun b => decide (∀ e ∈ b.storeBuf, overlap e.p.home e.p.size 64 4 = false)) = true
    ∧ (at' 0x0100FFFF00000000 0).denies 0 0 (piece 64) = none := by decide +kernel

/-- A phase with nothing of its block unacknowledged, and one with a store on its way. -/
theorem witness_phases : (buffered.block? ctx.b.uid).elim false (fun b => b.unacked == 0) = true
    ∧ ((block (fun b => { b with unacked := 1 }) buffered).block? ctx.b.uid).elim false (fun b => b.unacked != 0) = true := by
  decide +kernel

/-- An arrival word of target 2 with one arrival: the second meets the target exactly, none does not; a block that has the word. -/
theorem witness_arrivals :
    (let w : DWord := (5 : BitVec 16) ++ (2 : BitVec 24) ++ (1 : BitVec 24);
      (bits w 24 24).toNat ≤ (bits w 0 24).toNat + 1 ∧ (bits w 0 24).toNat + 0 < (bits w 24 24).toNat)
    ∧ ((at' 0x0100FFFF00000000 0).block? 0).elim false (fun b => memWf b.scratch && b.genAt 8 == 0 && b.genAt 8 != 5) = true
    ∧ ((7 : Nat) < 8 ∧ (8 : Nat) + 8 ≤ 16) := by decide +kernel

theorem witness_copies_post :
    (issuesWith (at' 0xD3008680FF860000 0x10003F0301000000) (.ccopy G .g2s false ⟨0x100, 63, 3, 256, 0⟩ (.s 6) (.s 0) (.s 6)) (fun _ => true) = true
    ∧ [Instr.ccopy G .g2s false ⟨0x100, 63, 3, 256, 0⟩ (.s 6) (.s 0) (.s 6), .ccopy G .s2g false ⟨0x100, 63, 3, 256, 0⟩ (.s 6) (.s 0) (.s 6),
        .cfill G false ⟨0x100, 63, 3, 0, 64⟩ (.s 6) (.s 2) (.s 6), .cfill G true ⟨0x100, 63, 3, 0, 64⟩ (.s 6) (.s 2) (.s 6),
        .cgather G ⟨0, 31, 64, 4096⟩ (.s 11) (.s 0) (.s 10) (.s 13), .cscatter G ⟨0, 31, 64, 4096⟩ (.s 11) (.s 0) (.s 10) (.s 13),
        .cscatadd G .f32 ⟨0, 31, 64, 4096⟩ (.s 11) (.s 0) (.s 10) (.s 13)].all (fun i =>
      (let r := copyOf i 0 0 0; r.1.check r.2.1 r.2.2 0 ctx.b.scratchSize).isNone) = true)
    ∧ (4 : Nat) % 8 ≠ 0 ∧ (32768 : Nat) % 8 = 0 ∧ ctx.b.scratchSize < 32768 + 8 := by decide +kernel

/-- Counters 8 and 7, events 9 and 8; slots 16 and 8; a space and a network that nobody has; a network granted with a token in it. -/
theorem witness_system_performs : 8 ≤ (8 : DWord).toNat ∧ (7 : DWord).toNat < 8 ∧ 9 ≤ (9 : DWord).toNat ∧ (8 : DWord).toNat < 9
    ∧ ctx.b.vf < 64 ∧ State.reset.funcs.length = 64 ∧ (State.reset.func ctx.b.vf).cnt.length = 8 ∧ 16 ≤ (16 : DWord).toNat
    ∧ (15 : DWord).toNat < 16 ∧ 8191 / 8 < 8192 ∧ State.reset.reachesNet ctx.b 256 = false ∧ State.reset.reachesNet ctx.b 0 = false
    ∧ netState.reachesNet ctx.b 0 = true
    ∧ (({ netState with nets := netState.nets.set 0 { Net.reset with tokens := [⟨0, 0, 0, 0, 0⟩] } } : State).net 0).tokens ≠ []
    ∧ netState.nets.length = 256 := by decide +kernel

/-- A block with that matrix command, in a state whose pages 0 to 15 stand in the core's lookaside. -/
def mcmd (k : MKind) (begun : Bool) : MCmd := ⟨3, 0, 0, 0, 1, k, begun, false, false, 0, 0, 0, []⟩

def d1Id : BitVec 256 := BitVec.ofNat 256 (15 * 2 ^ 168 + 7 * 2 ^ 64)
def d2Id (key : Nat) : BitVec 256 := BitVec.ofNat 256 (15 * 2 ^ 176 + key * 2 ^ 125 + 3 * 2 ^ 120)

def looked (s : State) : State :=
  { s with keys := [(0, 0)], looks := [⟨0, none, 0, 0, d1Id, d2Id 0, none⟩, ⟨0, some 0, 0, 0, d1Id, d2Id 0, none⟩] }

def matrix (k : MKind) (begun : Bool) : State := block (fun b => { b with mcmds := [mcmd k begun] }) (at' 0x0100FFFF00000000 0)

/-- The block's oldest command is that one; its tile 1 has the kind given. -/
def oldest (s : State) (m : MCmd) (t : TileKind) : Bool := match s.block? 0 with
  | some b => b.mcmds == [m] && (b.tiles[1]?).elim false fun x => x.kind == t
  | none => false

def tileKind (t : TileKind) (s : State) : State := block (fun b => { b with tiles := b.tiles.map fun x => { x with kind := t } }) s

/-- An MLOOP not begun, over scratchpad operands of bf16 and of that format, with tile 0 of that kind: the kind of its pair, and whether
the tile takes it. -/
def loopPair (f : MFmt) (t : TileKind) : Option (Option Bool × Bool) :=
  let s := tileKind t (matrix (.mloop .s1x1 0 1 0 1 ⟨some (.sp .bf16 0 0 128), 0⟩ ⟨some (.sp f 8192 0 128), 0⟩ 0 0) false)
  match s.block? 0 with
  | some b => if b.stopping then none else match s.beginFormat b ⟨some (.sp .bf16 0 0 128), 0⟩ with
    | (s1, some (.ok x)) => match s1.beginFormat b ⟨some (.sp f 8192 0 128), 0⟩ with
      | (_, some (.ok y)) => some (pairKind x y, (pairKind x y).elim false fun int => (b.tiles.take 1).all (·.takes int))
      | _ => none
    | _ => none
  | none => none

theorem witness_matrix_commands :
    oldest (matrix (.mzero 0) false) (mcmd (.mzero 0) false) .unset = true
    ∧ oldest (matrix (.mwrite true 1 [(0, 63, 5)]) false) (mcmd (.mwrite true 1 [(0, 63, 5)]) false) .unset = true
    ∧ Tile.zero.takes true = true ∧ ({ Tile.zero with kind := .int } : Tile).takes true = true
    ∧ oldest (tileKind .float (matrix (.mwrite true 1 [(0, 63, 5)]) false)) (mcmd (.mwrite true 1 [(0, 63, 5)]) false) .float = true
    ∧ ({ Tile.zero with kind := .float } : Tile).takes true = false
    ∧ oldest (matrix (.mdesc 2) false) (mcmd (.mdesc 2) false) .unset = true
    ∧ loopPair .bf16 .unset = some (some false, true) ∧ loopPair .bf16 .int = some (some false, false) ∧ loopPair .i8 .unset = some (none, false) := by
  decide +kernel

/-- Operands that the scratchpad holds: each of a step's rows is read. -/
def running : MCmd := mcmd (.mloop .s1x1 0 1 0 1 ⟨some (.sp .bf16 0 0 128), 0⟩ ⟨some (.sp .bf16 8192 0 128), 0⟩ 0 0) true

def running? : Bool :=
  let s := matrix running.kind true
  oldest s running .unset && match State.operandRows 0 3 0 0 ⟨some (.sp .bf16 0 0 128), 0⟩ 0 false [] [] 0 (List.range 64) s with
    | (s1, .ok _) => match State.operandRows 0 3 1 1 ⟨some (.sp .bf16 8192 0 128), 0⟩ 0 false [] [] 0 (List.range 64) s1 with
      | (s2, .ok _) => (s2.block? 0).isSome
      | _ => false
    | _ => false

theorem witness_matrix_steps : running? = true
    ∧ ((block (fun b => { b with stopping := true }) (matrix running.kind true)).block? 0).elim false
      (fun b => b.stopping && decide (running.step % 1 = 0) && !b.midStep) = true ∧ Tile.zero.m[4095]? = some 0 ∧ (0 : Int) ≠ nanM
    ∧ ({ Tile.zero with m := [nanM] } : Tile).m[0]? = some nanM := by decide +kernel

/-- A copy command of two rows of 64 bytes that meet at no byte. -/
def ccmd (k : CKind) : CCmd := ⟨4, 0, 0, 0, 1, k, 2, 64, 0, [], [], [], [], 0, [], false, 0⟩

/-- The block's copy command; a piece of it. -/
def copying (c : CCmd) : State := looked (block (fun b => { b with ccmds := [c] }) (at' 0x0100FFFF00000000 0))

def copyIs (c : CCmd) (p : State → Block → CCmd → Bool) : Bool := match (copying c).block? 0 with
  | some b => match b.ccmds[0]? with
    | some x => x == c && p (copying c) b x
    | none => false
  | none => false

/-- What a check of a piece finds. -/
def found (s : State) (b : Block) (va : Nat) : Nat := match s.checkPiece b va 64 .read with
  | (_, .ok _) => 0
  | (_, .denied _) => 1
  | (_, .fault) => 2
  | (_, .wait _) => 3

def denying (s : State) : State := { s with looks := s.looks.map fun e => { e with d1 := e.d1 + BitVec.ofNat 256 (5 * 2 ^ 72) } }

theorem witness_copies :
    copyIs { ccmd (.gather 0 64 none 0 64 false) with done := [(0, 0)] } (fun _ _ c => c.done.contains (0, 0)) = true
    ∧ copyIs (ccmd (.gather 0 64 none 0 64 false)) (fun _ _ c => decide (c.rows ≤ 2)) = true
    ∧ copyIs (ccmd (.gather 0 64 none 0 0 false)) (fun _ _ c => decide (0 < c.pieceCount 1) && !c.mayPiece 1 0) = true
    ∧ copyIs (ccmd (.gather 0 64 none 0 64 false)) (fun s b c => decide (1 < c.rows) && decide (0 < c.pieceCount 1) && c.mayPiece 1 0
        && c.kind.reads && found s b 64 == 0 && found s b 0x10000 == 2 && found (denying s) b 64 == 1) = true
    ∧ copyIs (ccmd (.scatter 0 64 none 0 64)) (fun _ _ c => c.mayPiece 1 0 && !c.kind.reads && (c.rowGlobal 1).isSome) = true
    ∧ copyIs (ccmd (.spsp 0 64 4096 64)) (fun _ _ c => c.mayPiece 1 0 && !c.kind.reads && (c.rowGlobal 1).isNone) = true := by
  decide +kernel

/-- Markers: with a row still under way, after the last, and after the first 64 of 65 rows. -/
theorem witness_markers :
    copyIs (ccmd (.spsp 0 64 4096 64)) (fun s b c => !((List.range (c.nextMark - c.marked)).map (· + c.marked)).all (s.rowDone b c)) = true
    ∧ copyIs { ccmd (.spsp 0 64 4096 64) with done := [(0, 0), (1, 0)] } (fun s b c =>
        ((List.range (c.nextMark - c.marked)).map (· + c.marked)).all (s.rowDone b c) && c.nextMark == c.rows && c.owed.isEmpty
          && s.landings b c == [0]) = true
    ∧ copyIs { ccmd (.spsp 0 64 4096 64) with rows := 65, done := (List.range 64).map fun i => (i, 0) } (fun s b c =>
        ((List.range (c.nextMark - c.marked)).map (· + c.marked)).all (s.rowDone b c) && c.nextMark != c.rows && s.landings b c == [0]) = true
    ∧ copyIs { ccmd (.gather 0 64 none 0 64 false) with done := [(0, 0), (1, 0)], owed := [2, 0] } (fun s b c =>
        ((List.range (c.nextMark - c.marked)).map (· + c.marked)).all (s.rowDone b c) && decide (2 ≤ c.owed.length) && decide c.owed.Nodup) = true := by
  decide +kernel

/-- A device whose directory, at physical address 0, has address space 0 with one range, pages 0 to 15, over function 0's one
stage-2 descriptor; the function is valid, in partition 0, which has clusters 0 and 1 and a slice of 10 microseconds for it and one for function 1. -/
def world : State :=
  let f : BitVec 2560 := BitVec.ofNat 2560 (2 ^ (8 * 20 + 7) + (2 * 2 ^ (8 * 24) + 2 ^ (8 * 24 + 40)) + 2 ^ (8 * 144) + 2 ^ (8 * 196) + 8192 * 2 ^ (8 * 200))
  let p : BitVec 1024 := BitVec.ofNat 1024 (2 ^ (8 * 7) + (2 ^ 6 + 2 ^ 15) * 2 ^ (8 * 16) + (1 + 2 ^ 6 + 2 ^ 15) * 2 ^ (8 * 18))
  { looked State.reset with
    power := true, stage := 6, ready := true
    mem := memWrites [] (cellsOf 0 (leBytes 16 (2 ^ 69 + 2 ^ 76 + 2 ^ 88)) ++ cellsOf 4096 (leBytes 32 d1Id.toNat)
      ++ cellsOf 8192 (leBytes 32 (d2Id 0).toNat))
    parts := State.reset.parts.set 0 { Part.reset with record := p, holder := some 0 }
    funcs := (State.reset.funcs.set 0 { Func.reset with record := f }).set 1 { Func.reset with record := BitVec.ofNat 2560 (2 ^ (8 * 20 + 7)) } }

/-- Its tables say what they should. -/
theorem test_world : memWf world.mem = true ∧ (world.walkEntry 0 none 0 64).toBool = true ∧ (world.func 0).valid = true
    ∧ (world.func 0).partNo = 0 ∧ (world.part 0).cores = [0, 1, 2, 3, 4, 5, 6, 7] ∧ listKind ((world.func 0).listRec 0) = 1
    ∧ (world.part 0).sched 0 = (0, 1, true) ∧ (world.part 0).sched 1 = (1, 1, true) := by decide +kernel

/-! Calls, code lines, range instructions -/

/-- Lanes that call with eight labels in hardware, and lanes that return with one there and one spilled; their private areas are
in pages that are mapped. -/
def calling (links : List Word) (n : Nat) : Option (Ctx × Lane) :=
  (block (fun b => { b with priv := 0x4000 }) (lanes (fun l => { l with link := links, spilled := n }) (at' 0x0400000B00000011 0))).issuing.bind
    fun k => k.c.lanes.head?.map fun l => (k, l)

def passes (k : Ctx) (va : Nat) (kind : AccKind) : Bool := match (world.checkGlobal k va 4 kind).2 with
  | .pass _ => true
  | _ => false

theorem witness_link_area :
    ((calling (List.replicate 8 7) 0).elim false fun p => decide (p.2.depth ≠ 264 ∧ 8 ≤ p.2.link.length)
      && passes p.1 (p.1.b.privVa p.2 (4 * p.2.spilled)) .write) = true
    ∧ ((calling [7] 1).elim false fun p => p.2.link == [7] && decide (p.2.spilled ≠ 0)
      && passes p.1 (p.1.b.privVa p.2 (4 * (p.2.spilled - 1))) .read) = true := by decide +kernel

/-- A block whose code is in the mapped pages, and not. -/
def coded : Block := { ctx.b with code := 128, nline := 1 }

def pinning (n : Nat) : State := { world with pins := (List.range n).map fun i => (coded.core, 9, i, 1000 + i) }

theorem witness_pins :
    (({ world with looks := [], mem := [] } : State).lineX coded 0).isNone = true
    ∧ ((pinning 128).lineX coded 0).elim false (fun x => decide (128 ≤ ((pinning 128).pinned coded.core).length)
        && !((pinning 128).pinned coded.core).contains (x.home / 128)) = true
    ∧ ((pinning 127).lineX coded 0).elim false (fun x => decide (((pinning 127).pinned coded.core).length < 128)
        && ((pinning 127).denies coded.part coded.clr (pieceOf 0 128 x)).isNone
        && decide (((pinning 127).icache.filter fun l => l.core == coded.core).length < 256)
        && decide ((pinning 127).codeFrom coded (coded.code + 128 * 0) x.home ≤ (pinning 127).now)) = true := by decide +kernel

/-- A block of level 3 in the world, in the context of an instruction of its crew. -/
def sysCtx : Ctx := { ctx with b := { ctx.b with level := 3 } }

def sysOp : Op := ⟨1, 0, 1, 1, .bar⟩

/-- Pages `lo` to `hi` over intermediate pages `ia` on. -/
def pages (lo hi ia : Nat) : BitVec 256 := BitVec.ofNat 256 (lo * 2 ^ 212 + hi * 2 ^ 168 + ia * 2 ^ 128 + 7 * 2 ^ 64)

/-- Address space 0 with `n` ranges, these the last; a record of two ranges at 0xF000; stage 2 maps pages 0 to 63. -/
def ranged (n : Nat) (ds rs : List (BitVec 256)) : State :=
  { world with mem := memWrites [] (cellsOf 0 (leBytes 16 (2 ^ 69 + n * 2 ^ 76 + 2 ^ 88))
    ++ cellsOf 8192 (leBytes 32 (BitVec.ofNat 256 (63 * 2 ^ 176 + 3 * 2 ^ 120) : BitVec 256).toNat)
    ++ cellsOf (4096 + 32 * (n - ds.length)) (ds.flatMap fun d => leBytes 32 d.toNat) ++ cellsOf 0xF000 (rs.flatMap fun d => leBytes 32 d.toNat)) }

def holds (s : State) (va : Nat) : Option (Nat × BitVec 256) := match s.holding 0 va with
  | .ok x => some x
  | .error _ => none

/-- A split at va into the ranges at 0xF000: the search's result, the check of the ranges read, and whether the table can be written. -/
def splits (n : Nat) (ds rs : List (BitVec 256)) : Option (Bool × Bool × Bool) :=
  let s := ranged n ds rs
  match holds s 0, s.sysFetch sysCtx sysOp G 0xF000 (32 * rs.length) with
  | some (i, x), (t, some bs) => some (d1Bad x || d1Mode x == 2,
    splitOk x ((List.range rs.length).map fun j => BitVec.ofNat 256 (leNat ((bs.drop (32 * j)).take 32))),
    (t.tableFrom 0 (t.dirEntry 0) (i + 1) (dirN (t.dirEntry 0) - (i + 1))).elim false fun rest =>
      (t.tablePlaces (t.dirEntry 0) i (rs ++ rest).length).isSome)
  | _, _ => none

/-- A merge at va: whether a next range stands, and the check of the two. -/
def merges (ds : List (BitVec 256)) : Option (Bool × Bool) :=
  let s := ranged ds.length ds []
  (holds s 0).bind fun p => (s.tableFrom 0 (s.dirEntry 0) (p.1 + 1) (dirN (s.dirEntry 0) - (p.1 + 1))).bind fun r =>
    match r with
    | y :: rest => if (s.tablePlaces (s.dirEntry 0) p.1 (rest.length + 1)).isSome then some (true, !d1Bad p.2 && !d1Bad y && mergeOk p.2 y) else none
    | [] => some (decide (p.1 + 1 < dirN (s.dirEntry 0)), false)

def halves : List (BitVec 256) := [pages 0 7 0, pages 8 15 8]

theorem witness_splits :
    world.reachesSpace sysCtx.b 3 = false ∧ world.reachesSpace sysCtx.b 0 = true ∧ (holds world 0x10000).isNone = true
    ∧ splits 1 [d1Id] halves = some (false, true, true) ∧ splits 1 [d1Id] [pages 0 15 16] = some (false, true, true)
    ∧ splits 1 [d1Id] [pages 0 7 0, pages 9 15 9] = some (false, false, true) ∧ splits 1 [d1Moving d1Id 32 0] halves = some (true, true, true)
    ∧ (match (world.sysFetch sysCtx sysOp G 0x20000 64).2 with
      | none => true
      | some _ => false) = true := by decide +kernel

/-- A table of 4,095 ranges, of which the last holds page 0. -/
theorem witness_full_table : (holds (ranged 4095 [pages 0 1 0] []) 0).elim false (fun p => p.1 == 4094 && splitOk p.2 [pages 0 0 0, pages 1 1 1]
    && decide (4095 ≤ dirN ((ranged 4095 [pages 0 1 0] []).dirEntry 0))) = true := by decide +kernel

theorem witness_merges : merges halves = some (true, true) ∧ merges [pages 0 7 0, pages 8 15 9] = some (true, false)
    ∧ merges [d1Id] = some (false, false) := by decide +kernel

/-- Nothing is in flight in the world; a buffered store of page 0 is. -/
theorem witness_rinval : world.inFlight 0 0 (·.entryMeets false 0 4096) false 0 4096 = false
    ∧ ({ world with blocks := buffered.blocks } : State).inFlight 0 0 (·.entryMeets false 0 4096) false 0 4096 = true
    ∧ world.inFlight 0 0 (·.entryMeets true 0 0) true 0 0 = false ∧ (1 : DWord).toNat * 4096 ≠ 0 := by decide +kernel

def walks (s : State) (va : Nat) : Option (Nat × BitVec 256 × Nat) := match s.walk 0 va with
  | .ok x => some x
  | .error _ => none

theorem witness_compacts : (walks world 0x10000).isNone = true
    ∧ (walks (ranged 1 [d1Id] []) 0).elim false (fun p => (ranged 1 [d1Id] []).backingOk p.2.2 p.2.1 (32 * 4096)
      && !(ranged 1 [d1Id] []).backingOk p.2.2 p.2.1 0) = true
    ∧ (world.part 0).hostMode 1 = false ∧ ({ world.part 0 with record := setBytes (world.part 0).record 32 [2] } : Part).hostMode 1 = true
    ∧ 16 ≤ (List.replicate 16 (⟨0, 0, 0, 0, 0, 32, false⟩ : Compact)).countP (fun c => c.die == 0 && !c.started)
    ∧ ([] : List Compact).countP (fun c => c.die == 0 && !c.started) < 16 := by decide +kernel

/-- List 0 of function 0 at 0x3000, with that head and a tail of 0. -/
def listed (head : Nat) (watched : List Nat) : State :=
  { world with
    mem := memWrites world.mem (cellsOf 0x3000 (leBytes 16 head))
    funcs := world.funcs.modify 0 fun f => { f with record := setBytes f.record 200 (leBytes 8 0x3000), watched := watched } }

/-- LAUNCH to list 0, whose level is 1, from a block of that level: the record is read, and the ring is full or has room. -/
def launching (head : Nat) : Option Bool :=
  let s : State := { ranged 1 [d1Id] [] with funcs := (listed head []).funcs }
  let s := { s with mem := memWrites s.mem (cellsOf 0x3000 (leBytes 16 head)) }
  let l := (s.func 0).listRec 0
  match s.sysFetch sysCtx sysOp G 0xF000 64 with
  | (s1, some _) => match s1.checkRun sysCtx.b.core (listAsid l) 0 sysCtx.b.clr (listRing l) 16 .read with
    | (s2, .ok ps) =>
      let (s3, ht) := s2.readRun 0 sysCtx.b.core ps
      let h : DWord := dwordOf (ht.take 8)
      let t : DWord := dwordOf (ht.drop 8)
      match s3.checkRun sysCtx.b.core (listAsid l) 0 sysCtx.b.clr (listSlot l h.toNat) 64 .write with
      | (s4, .ok _) => match s4.checkRun sysCtx.b.core (listAsid l) 0 sysCtx.b.clr (listRing l) 8 .write with
        | (_, .ok _) => some (decide ((h.toNat : Int) - t.toNat < (listSize l : Int)))
        | _ => none
      | _ => none
    | _ => none
  | _ => none

theorem witness_launch_instruction : listKind (((listed 0 []).func 0).listRec 0) = 1 ∧ ((0 : DWord).toNat < 8 ∧ min (0 : Nat) 3 < 1)
    ∧ min sysCtx.b.level 3 = 3 ∧ listKind (((listed 0 []).func 0).listRec 1) = 0 ∧ launching 0 = some true ∧ launching 1 = some false := by
  decide +kernel

/-- NETSAVE and NETLOAD of network 0, with a record of it at 0xF000 or zeros but for another network's number; SEALSET's map. -/
theorem witness_records_of_networks :
    (let s : State := { world with funcs := world.funcs.modify 0 fun f => { f with record := setBytes f.record 160 [1] } };
      s.reachesNet sysCtx.b 0 = true ∧ 0 < s.nets.length ∧ (s.net 0).tokens = [] ∧ ((s.closeNet 0).net 0).quiet = true
        ∧ (s.sysRun sysCtx G 0xF000 96 .write).2.isSome = true
        ∧ ((s.sysFetch sysCtx sysOp G 0xF000 96).2.elim false fun bs => recordOk 0 bs && !recordOk 1 bs) = true)
    ∧ (world.sysFetch sysCtx sysOp G 0 8192).2.isSome = true := by decide +kernel

/-! Collectives, networks, regrouping -/

def member (self : Nat) : Group := ⟨0, 77, self, 0, [⟨0, 0, 0, 0⟩, ⟨4096, 0, 0, 0⟩], 1⟩

/-- Member `self` of a group of two, with an operation of 64 bytes. -/
def coll (id self op : Nat) (t : Ty) : COp :=
  { id := id, blk := 0, slot := 0, group := member self, seq := 0, op := op, t := t, src := 0x8000, c := 64, off := 0, crew := 0, lane := 0,
    oid := 0, pc := 1, since := 0, got := [], sent := [], landed := [], reported := false, done := false, kernel := none
    asid := 0, part := 0, vf := 0, clr := 0, launch := 1, core := 0, quad := 0, cslot := 0, home := 0 }

def collState (cs : List COp) : State := { world with colls := cs }

def collIs (cs : List COp) (p : State → COp → Bool) : Bool := ((collState cs).coll? 0).elim false (p (collState cs))

/-- What a parked lane in XWAIT waits for. -/
def xwaiting : State := { collState [coll 0 0 0 .i32] with
  clk := 5, blocks := (at' 0x0100FFFF00000000 0).blocks.map fun b => { b with crews := b.crews.map fun c => { c with
    lanes := c.lanes.map fun l => { l with parked := true, act := false, park := some (.xwait 0 [0] 3 5 1 1) } } } }

/-- And one whose operation is done at the timeout. -/
def xwaitDone : State := { xwaiting with colls := [{ coll 0 0 0 .i32 with done := true }] }

theorem witness_collectives :
    collIs [coll 0 0 0 .i32] (fun s c => c.done || !s.allIssued c || (s.siblings c).any s.mismatched) = true
    ∧ collIs [coll 0 0 0 .i32, { coll 1 1 0 .i32 with c := 32 }] (fun s c => s.allIssued c && (s.siblings c).any s.mismatched
        && !((s.siblings c).filter s.mismatched).isEmpty) = true
    ∧ collIs [coll 0 0 2 .i32, coll 1 1 2 .i32] (fun s c => !c.done && s.allIssued c && !(s.siblings c).any s.mismatched && c.op == 2) = true
    ∧ collIs [coll 0 0 1 .i32, coll 1 1 1 .i32] (fun s c => !c.done && s.allIssued c && !(s.siblings c).any s.mismatched && c.op == 1
        && decide (15 < c.slots) && decide (15 * (c.t.width / 8) < c.c) && !c.got.contains (15, 0)
        && match State.elementValues c (c.group.self * c.c + 15 * (c.t.width / 8)) (c.t.width / 8) (List.range c.n) s with
          | (s', some vs) => (s'.writeInbox c (15 * (c.t.width / 8)) ⟨leBytes (c.t.width / 8) (treeOf c.t vs.length [1] vs), c.oid, c.launch,
            (((s'.sibling c c.group.self).bind fun x => (s'.readContribution x (c.group.self * c.c + 15 * (c.t.width / 8))
              (c.t.width / 8)).2).map (·.sealId)).getD 0⟩).2
          | _ => false) = true
    ∧ collIs [coll 0 0 2 .i32, coll 1 1 2 .i32] (fun _ c => decide (1 < c.slots) && decide (c.slots ≤ 2)) = true
    ∧ collIs [{ coll 0 0 0 .i32 with got := [(0, 0), (1, 0)] }, { coll 1 1 0 .i32 with got := [(0, 0), (1, 0)] }] (fun s c =>
        !c.done && s.allIssued c && ((s.siblings c).filter s.mismatched).isEmpty && c.full && s.contributionRead c) = true
    ∧ (xwaiting.parkedAt 0 0 0).elim false (fun p => p.2.2 == .xwait 0 [0] 3 5 1 1 && !xwaiting.parkOver p.1 0 p.2.2 && (p.1.crews[0]?).isSome
        && ([0].findSome? xwaiting.coll?).isSome && decide (5 + (xwaiting.part p.1.part).ctmo * perMicro ≤ xwaiting.clk.toNat)) = true
    ∧ (xwaitDone.parkedAt 0 0 0).elim false (fun p => p.2.2 == .xwait 0 [0] 3 5 1 1 && xwaitDone.parkOver p.1 0 p.2.2 && (p.1.crews[0]?).isSome
        && ([0].findSome? xwaitDone.coll?).isSome && decide (5 + (xwaitDone.part p.1.part).ctmo * perMicro ≤ xwaitDone.clk.toNat)) = true
    ∧ collIs [coll 0 0 0 .i32] (fun s c => c.got.isEmpty && c.sent.isEmpty && !c.done && c.kernel.isNone && decide (c.since + (s.part c.part).fbdl * perMicro ≤ s.clk.toNat)) = true := by
  decide +kernel

/-- A token of lane 0 in network 0, and the operation that waits for its number. -/
def tokened : State :=
  let s := queued [.token 0 5 true (.v 1) (.q 2)]
  { s with nets := s.nets.set 0 { Net.reset with tokens := [⟨5, 0, 0, 0, 0⟩] } }

theorem witness_tokens : (0 : Nat) < tokened.nets.length ∧ ((tokened.net 0).tokens.find? (·.id == 5)).isSome = true
    ∧ (let x := (([] : List Nat) ++ List.replicate 10 5).foldl Net.hop (tokened.net 0);
        ((x.tokens.find? (·.id == 5)).bind fun t => netWiring.2.findIdx? (· == t.wire)) = some 0 ∧ x.resetting = false)
    ∧ ((tokened.crew? 0 0).elim false fun p => (p.2.queue.find? fun o => match o.what with
      | .token m id _ _ _ => m == 0 && id == 5
      | _ => false).isSome && (p.2.lanes[0]?).isSome) = true
    ∧ (let n : Net := { Net.reset with closed := true, resetting := true }; n.closed = true ∧ n.resetting = true ∧ n.tokens = []) := by
  decide +kernel

/-- Two crews that wait in the same REGROUP with the same key; the receiver has a free slot for the donor's one live lane. -/
def regrouping : State :=
  let w : Regroup := ⟨1, 7, 2, 8, 4, 0, 0⟩
  block (fun b => { b with crews := b.crews.flatMap fun c =>
    [{ c with regroup := some w, lanes := c.lanes.map fun l => { l with done := true } },
     { c with cid := 1, regroup := some w, lanes := c.lanes.take 1 }] }) { at' 0x0100FFFF00000000 0 with cyc := 1024 }

/-- One crew that waits alone. -/
def lonely : State := block (fun b => { b with crews := b.crews.take 1 }) regrouping

theorem witness_regrouping : ((regrouping.block? 0).elim false fun b => match b.crews[0]?, b.crews[1]? with
    | some r, some d => b.pairsNext r d && r.mayPair d && !b.stopping && b.abort.isNone && !b.pairsNext d r
    | _, _ => false) = true
    ∧ ((regrouping.crew? 0 1).elim false fun p => p.2.regroup.elim false fun w => decide (w.since + 1024 ≤ regrouping.cyc)
      && p.1.crews.any fun y => p.2.mayPair y || y.mayPair p.2) = true
    ∧ ((lonely.crew? 0 0).elim false fun p => p.2.regroup.elim false fun w => decide (w.since + 1024 ≤ lonely.cyc)
      && p.1.crews.all fun y => !p.2.mayPair y && !y.mayPair p.2) = true
    ∧ (0 : Nat) < (Lane.blank 8).v.length ∧ (7 : Nat) < (Lane.blank 8).v.length := by decide +kernel

/-! The sequencer -/

/-- The crew with lanes that want its span, about to take a census above the label 0; or with none ahead. -/
def censusAt (lo : Word) : State := block (fun b => { b with crews := b.crews.map fun c => { c with
  seq := .census (some lo), lanes := c.lanes.map fun l => { l with act := false, wl := 1, ro := 0 } } }) (at' 0x0100FFFF00000000 0)

/-- The crew visited the label 1 last, and its lanes want the next label of its line. -/
def nextCensus : State := block (fun b => { b with crews := b.crews.map fun c => { c with
  last := some 1, line := some ⟨0, [(1 : BitVec 4) ++ (0 : BitVec 43) ++ (3 : BitVec 2) ++ (0x7FFF : BitVec 15), 0x0100FFFF00000000, 0x0100FFFF00000000]⟩
  lanes := c.lanes.map fun l => { l with wl := 2 } } }) (censusAt 0)

theorem witness_census :
    (((censusAt 0).crew? 0 0).elim false fun p => !p.1.heldAt p.2 && p.2.seq == .census (some 0) && p.2.smallest (some 0) == some 1
      && !isHeader 1 && decide ((1 : Nat) / 16 < p.1.nline) && (censusAt 0).farMove p.1 p.2 1 && (p.2.line.elim false fun ln => ln.idx == 0 && ln.label 0)
      && p.2.lanes.any (fun l => l.wants && l.wl == 1) && p.2.lanes.all fun l => l.ro == 0) = true
    ∧ (((nextCensus).crew? 0 0).elim false fun p => !p.1.heldAt p.2 && p.2.seq == .census (some 0) && p.2.smallest (some 0) == some 2
      && !isHeader 2 && decide ((2 : Nat) / 16 < p.1.nline) && !nextCensus.farMove p.1 p.2 2 && (p.2.line.elim false fun ln => ln.idx == 0 && ln.label 1)
      && p.2.lanes.any (fun l => l.wants && l.wl == 2) && p.2.lanes.all fun l => l.ro == 0) = true
    ∧ (((censusAt 1).crew? 0 0).elim false fun p => !p.1.heldAt p.2 && p.2.seq == .census (some 1) && p.2.smallest (some 1) == none) = true
    ∧ ((block (fun b => { b with crews := b.crews.map fun c => { c with seq := .visit 1 16 } }) (at' 0x0100FFFF00000000 0)).crew? 0 0).elim false
      (fun p => !p.1.heldAt p.2 && match State.boundary p.1 p.2 1 16 with
        | .over => true
        | _ => false) = true := by decide +kernel

/-- The crew waits for line 0, and the next line prefetched is the one, or there is none; the code stands in pages that are mapped. -/
def loading (next : Option Line) (s : State) : State :=
  { s with blocks := (block (fun b => { b with nline := 1, code := 128, crews := b.crews.map fun c => { c with
      seq := .load 0 (.run 1 1), line := none, next := next } }) (at' 0x0100FFFF00000000 0)).blocks }

theorem witness_lines :
    (((loading (some (fetchLine 0 0)) world).crew? 0 0).elim false fun p => !p.1.heldAt p.2 && p.2.seq == .load 0 (.run 1 1)
      && p.2.next.elim false fun l => l.idx == 0 && l.wellFormed) = true
    ∧ (((loading none world).crew? 0 0).elim false fun p => !p.1.heldAt p.2 && p.2.next.isNone
      && match (loading none world).fetch p.1 0 p.2 0 0 with
        | (_, .line l) => !l.wellFormed
        | _ => false) = true
    ∧ (((loading none { world with looks := [], mem := [] }).crew? 0 0).elim false fun p => !p.1.heldAt p.2 && p.2.next.isNone
      && match (loading none { world with looks := [], mem := [] }).fetch p.1 0 p.2 0 0 with
        | (_, .fault _) => true
        | _ => false) = true := by decide +kernel

/-- Both lanes parked for that. -/
def parked (w : Park) (s : State) : State := { s with blocks := (block (fun b => { b with crews := b.crews.map fun c => { c with
  lanes := c.lanes.map fun l => { l with parked := true, act := false, park := some w } } }) (at' 0x0100FFFF00000000 0)).blocks }

theorem witness_parks :
    ((parked (.await 8 5) world).parkedAt 0 0 1).elim false (fun p => (parked (.await 8 5) world).parkOver p.1 0 p.2.2) = true
    ∧ ((parked (.await 8 0) world).parkedAt 0 0 1).elim false (fun p => !(parked (.await 8 0) world).parkOver p.1 0 p.2.2) = true
    ∧ ((parked (.waitc 0x8000 0x8000 .eq .n32 0 1) world).parkedAt 0 0 0).elim false (fun p =>
        ((parked (.waitc 0x8000 0x8000 .eq .n32 0 1) world).waitcPiece p.1 0x8000 4).elim false fun x =>
          world.waitcTrue p.1.part p.1.clr x .eq .n32 0 && !world.waitcTrue p.1.part p.1.clr x .ne .n32 0) = true
    ∧ (let s : State := { at' 0x0100FFFF00000000 0 with cyc := 1024 };
        (s.crew? 0 0).elim false fun p => (s.readyInstr p.1 0 p.2).isSome && decide (p.2.since + 1024 ≤ s.cyc)) = true
    ∧ ((at' 0x0100FFFF00000000 0).crew? 0 0).elim false (fun p => decide ((at' 0x0100FFFF00000000 0).cyc < p.2.since + 1024)) = true
    ∧ ({ world with cyc := 1024 } : State).decayed 0 + 1024 ≤ 1024 ∧ world.cyc < world.decayed 0 + 1024 := by decide +kernel

/-! Handler crews, blocks, launches -/

theorem witness_handlers :
    (let s : State := { world with gathered := List.replicate 128 (0, handled) };
      s.handlerBusy 0 = false ∧ (s.gatheredOn 0).length = 128)
    ∧ (let s : State := { world with gathered := [(0, handled)], cyc := 256 };
      s.handlerBusy 0 = false ∧ s.gatheredOn 0 = [handled] ∧ handled.time + 256 ≤ s.cyc)
    ∧ (at' 0xAC00FFFFFFFF0000 0).handlerBusy 0 = true
    ∧ (List.replicate 128 handled)[127]? = some handled ∧ [handled][1]? = none := by decide +kernel

/-- The block of `at'`, aborted; and with its one crew retired. -/
def aborted : State := block (fun b => { b with abort := some (0, ⟨0, 0, 0⟩) }) (at' 0x0100FFFF00000000 0)

def retired : State := block (fun b => { b with crews := b.crews.map fun c => { c with seq := .retired } }) (at' 0x0100FFFF00000000 0)

theorem witness_blocks_end :
    ((at' 0x0100FFFF00000000 0).block? 0).elim false (fun b => b.abort.isNone) = true
    ∧ (aborted.block? 0).elim false (fun b => b.abort.isSome && !b.midStep && b.crews.all (·.mayStop)) = true
    ∧ (retired.block? 0).elim false (fun b => (b.crews.all fun c => c.seq == .retired && c.queue.isEmpty) && b.mcmds.isEmpty && b.ccmds.isEmpty
        && !(retired.posted.any (·.blk == 0)) && b.hnd.isEmpty && b.storeBuf.isEmpty && b.unacked == 0 && !b.errs?) = true
    ∧ ((at' 0x0100FFFF00000000 0).block? 0).elim false (fun b => !(b.crews.all fun c => c.seq == .retired && c.queue.isEmpty)) = true := by
  decide +kernel

/-- A header of one finish crew of 32 registers, and a record of 4 blocks of 32 lanes; both grouped or not (R359, R416). -/
def header (grouped : Bool) : BitVec 1024 :=
  BitVec.ofNat 1024 (1 + (if grouped then 2 ^ 16 else 0) + 2 ^ 32 + 2 ^ 64 + 128 * 2 ^ 96 + 2 ^ (8 * 36) + (2 * 256 + 32) * 2 ^ (8 * 64))

def record : BitVec 512 :=
  BitVec.ofNat 512 (32 * 2 ^ (8 * 9) + 2 ^ (8 * 11) + 4 * 2 ^ (8 * 12) + 0x8000 * 2 ^ (8 * 40))

def launched (grouped : Bool) (done : Nat) : Launch :=
  { id := 1, part := 0, vf := 0, list := 0, level := 1, proc := 0, prio := 0, record := record, hdr := header grouped, args := [],
    nextBid := done, completed := done, nerr := 0, saved := [], order := 0, time := 0 }

def listReads (s : State) (p : State → DWord → DWord → Bool) : Bool :=
  let l := (s.func 0).listRec 0
  let s0 := s.payWords 0
  match s0.plainRun (s0.part 0).firstCore (listAsid l) (listRing l) 16 .read with
  | (s1, .ok ps) =>
    let r := s1.readRun 0 (s0.part 0).firstCore ps
    s0.placing 0 == some 0 && !(s0.func 0).out.contains 0
      && p r.1 (BitVec.ofNat 64 (leNat (r.2.take 8))) (BitVec.ofNat 64 (leNat (r.2.drop 8)))
  | _ => false

theorem witness_launches :
    ((listed 0 []).placing 0 = some 0 ∧ listKind (((listed 0 []).func 0).listRec 0) ≠ 0 ∧ ((listed 0 []).func 0).out.contains 0 = false
      ∧ ((listed 0 []).func 0).partNo = 0)
    ∧ listReads (listed 0 []) (fun _ h t => decide ((h - t).toInt ≤ 0)) = true
    ∧ listReads (listed 1 []) (fun s1 h t => decide (0 < (h - t).toInt) && s1.arbitrate 0 == some (.take 0)
        && match s1.plainRun 0 (listAsid ((s1.func 0).listRec 0)) (listRing ((s1.func 0).listRec 0) + 8) 8 .write with
          | (_, .ok _) => true
          | _ => false) = true
    ∧ listReads { listed 1 [] with launches := [launched false 0] } (fun s1 h t => decide (0 < (h - t).toInt) && s1.arbitrate 0 != some (.take 0)) = true
    ∧ (let s : State := { listed 1 [] with looks := [], mem := [] };
        match (s.payWords 0).plainRun 0 0 (listRing ((s.func 0).listRec 0)) 16 .read with
        | (_, .fault _ _) => true
        | _ => false) = true
    ∧ (((listed 1 [0]).func 0).watched.contains 0 = true ∧ (listed 1 [0]).listHas 0 0 0 = true)
    ∧ (let s : State := { world with launches := [launched false 4] };
        (s.launch? 1).isSome = true ∧ (launched false 4).completed = recGrid record ∧ (s.func 0).lost = false
          ∧ (s.writeWord 0 0 record 1 (completionWord 1 0 0 1)).2 = true)
    ∧ (launched false 3).completed ≠ recGrid record := by decide +kernel

/-- A launch whose next block is to be placed, one whose next group is, and one with a saved block. -/
def placing (l : Launch) : State := { world with launches := [l], launchCtr := 1 }

def savedBlock : Block := { Block.blank with uid := 9, launch := 1, crews := [{ Crew.blank with budget := 32, role := 2 }] }

theorem witness_placing :
    (hdrGrouped (header false) = false ∧ (placing (launched false 0)).arbitrate 0 = some (.place 1)
      ∧ ((placing (launched false 0)).chooseCore 0 1 (hdrNeed (header false))).isSome = true ∧ headerOk (header false) = true)
    ∧ (hdrGrouped (header true) = true ∧ (placing { launched true 0 with record := record ||| BitVec.ofNat 512 (7 * 2 ^ (8 * 10)) }).arbitrate 0 = some (.place 1)
      ∧ ((placing (launched true 0)).chooseCluster 0 (List.replicate 4 (hdrNeed (header true)))).isSome = true)
    ∧ ((placing { launched false 4 with saved := [savedBlock] }).arbitrate 0 = some (.restore 1)
      ∧ (((placing { launched false 4 with saved := [savedBlock] }).chooseCore 0 1 savedBlock.need).elim false fun x =>
        ((placing { launched false 4 with saved := [savedBlock] }).readdBlock { launched false 4 with saved := [savedBlock] } savedBlock x.1 x.2).2) = true) := by
  decide +kernel

/-! Slices, records, the fuller -/

/-- The holder of partition 0 has no work but function 1 has a launch; time has passed. -/
def sliced (t : DWord) (f : Part → Part) : State :=
  { world with clk := t, launches := [{ launched false 4 with vf := 1, saved := [savedBlock] }], parts := world.parts.modify 0 f }

theorem witness_slices :
    ((sliced 0 fun p => { p with holder := none, entry := 1 }).served 0 = true ∧ (sliced 0 fun p => { p with holder := none, entry := 1 }).entryWorks 0 0 = false)
    ∧ (let s : State := { sliced 0 fun p => { p with holder := none } with launches := [{ launched false 4 with saved := [savedBlock] }] };
        s.served 0 = true ∧ (s.part 0).holder = none ∧ s.entryWorks 0 (s.part 0).entry = true)
    ∧ (let s := sliced 22499 id;
        (s.part 0).holder = some 0 ∧ (s.part 0).switching = none
          ∧ s.clk.toNat < (s.part 0).sliceStart + ((s.part 0).sched (s.part 0).entry).2.1 * perSlice)
    ∧ (let s := { sliced 22500 id with funcs := world.funcs.modify 1 fun f => { f with record := BitVec.ofNat 2560 (2 ^ (8 * 20 + 7)) } };
        (s.part 0).sliceStart + ((s.part 0).sched (s.part 0).entry).2.1 * perSlice ≤ s.clk.toNat
          ∧ s.served 0 = true ∧ s.nextEntry 0 (s.part 0).entry = some 1 ∧ ((s.part 0).sched 1).1 ≠ 0)
    ∧ (let s := sliced 0 fun p => { p with switching := some 1 }; s.served 0 = true ∧ (s.part 0).holder = some 0 ∧ (s.part 0).switching = some 1)
    ∧ (let s := sliced 2250 fun p => { p with idleSince := some 0 };
        (s.part 0).holder = some 0 ∧ s.mayEndEarly 0 = true ∧ s.nextEntry 0 (s.part 0).entry = some 1 ∧ (s.part 0).idleSince = some 0 ∧ 0 + perMicro ≤ s.clk.toNat)
    ∧ (let s := sliced 2249 fun p => { p with idleSince := some 0 };
        s.nextEntry 0 (s.part 0).entry = some 1 ∧ (s.part 0).idleSince = some 0 ∧ s.clk.toNat < 0 + perMicro)
    ∧ (let s := sliced 0 fun p => { p with switching := some 1, awaitsHost := true };
        s.ready = true ∧ (s.part 0).switching = some 1 ∧ (s.part 0).awaitsHost = true) := by decide +kernel

theorem witness_records : world.ready = true ∧ (15 : Nat) < 16 ∧ world.parts.length = 16 ∧ world.funcs.length = 64
    ∧ 127 + [(1 : Byte)].length ≤ 128 ∧ 319 + [(1 : Byte)].length ≤ 320 ∧ (63 : Nat) < 64
    ∧ ((world.func 0).valid = true → (world.func 0).partNo = 0) ∧ world.busy 0 = false
    ∧ (128 ≤ 244 ∧ 244 < 320 ∧ 127 / 8 = (127 + 1 - 1) / 8) ∧ world.partBusy 0 = false
    ∧ ({ world with blocks := (at' 0x0100FFFF00000000 0).blocks } : State).partBusy 0 = true
    ∧ world.netsTaken 0 { world.func 0 with record := setBytes (world.func 0).record 160 [1] } (world.func 0) = false
    ∧ ({ world with funcs := world.funcs.modify 1 fun f => { f with record := setBytes f.record 160 [1] } } : State).netsTaken 0
      { world.func 0 with record := setBytes (world.func 0).record 160 [1] } (world.func 0) = true := by decide +kernel

/-- The fuller's request for the range of address space 0, before and after it started; stage 2 maps pages 0 to 63 in it. -/
def fulling (d1 : BitVec 256) (started : Bool) : State :=
  { world with
    mem := memWrites world.mem (cellsOf 4096 (leBytes 32 d1.toNat) ++ cellsOf 8192 (leBytes 32 (BitVec.ofNat 256 (63 * 2 ^ 176 + 3 * 2 ^ 120) : BitVec 256).toNat))
    looks := [], compacts := [⟨0, 0, 0, 0, 0, 32, started⟩] }

theorem witness_fuller :
    (let s : State := { fulling (d1Moving d1Id 32 0) true with blocks := (queued [.red .add .n32 (.global (piece 64)) 1]).blocks };
      (s.drainGranule 0 0 0 4096).inFlight 0 0 (fun p => overlap 0 4096 p.va p.size) false 0 4096 = true
        ∧ ((fulling (d1Moving d1Id 32 0) true).drainGranule 0 0 0 4096).inFlight 0 0 (fun p => overlap 0 4096 p.va p.size) false 0 4096 = false)
    ∧     (let s := fulling d1Id false;
      (s.compacts.any fun c => c.die == 0 && c.started) = false ∧ (s.compacts.find? fun c => c.die == 0).isSome = true
        ∧ s.compactRange ⟨0, 0, 0, 0, 0, 32, false⟩ = some (0, d1Id) ∧ s.backingOk 0 d1Id (32 * 4096) = true
        ∧ (s.setRange 0 0 d1Id (d1Moving d1Id 32 0)).isSome = true)
    ∧ ([0, 14, 15].all fun wm =>
        let d := d1Moving d1Id 32 wm
        let s := fulling d true
        s.compactRange ⟨0, 0, 0, 0, 0, 32, true⟩ == some (0, d) && d1Mode d == 2 && !s.inFlight 0 0 (fun p => overlap ((d1Base d + d1Wm d) * 4096) 4096 p.va p.size) false ((d1Base d + d1Wm d) * 4096) 4096
          && (decide (d1Wm d + 1 < d1Size d) == (wm != 15)) && (s.stage2 0 ((d1Iab d + d1Wm d) * 4096) .read).isSome
          && (s.stage2 0 ((d1Nia d + d1Wm d) * 4096) .write).isSome && (s.setRange 0 0 d (d1Moving d (d1Nia d) (d1Wm d + 1))).isSome) = true := by
  decide +kernel

/-! The host, links, power -/

def apertured : State := { world with apEn := world.apEn.set 15 1 }

theorem witness_host : world.ready = true ∧ (15 : Nat) < 16 ∧ apertured.apertureOn 15 = true ∧ world.apertureOn 15 = false
    ∧ (apertureSize - 1) + [(1 : Byte)].length ≤ apertureSize ∧ apertureSize - 1 < apertureSize ∧ memWf world.mem = true
    ∧ (255 : Nat) % 256 + [(1 : Byte)].length ≤ 256 ∧ (0x1000F8 : Nat) < 0x100100 ∧ 0x100180 ≤ (0x100180 : Nat) := by decide +kernel

/-- A flit's bytes with the sequence number given and its CRC; it is wrong for another port. -/
def flitOf (seq : Nat) : List Byte :=
  let body := leBytes 60 (seq * 2 ^ 52)
  body ++ leBytes 4 (crc32 body).toNat

theorem witness_flits : ({ world with stage := 6 } : State).linkUp = true ∧ State.reset.linkUp = false
    ∧ flitSeq (BitVec.ofNat 64 (leNat ((leBytes 64 0).take 8))) = Port.reset.next
    ∧ flitSeq (BitVec.ofNat 64 (leNat ((leBytes 64 0).take 8))) ≠ ({ Port.reset with next := 5 } : Port).next
    ∧ crc32 ((leBytes 64 0).take 60) ≠ BitVec.ofNat 32 (leNat ((leBytes 64 0).drop 60))
    ∧ (flitOf 0).length = 64 ∧ crc32 ((flitOf 0).take 60) = BitVec.ofNat 32 (leNat ((flitOf 0).drop 60))
    ∧ world.power = true ∧ (0xFFFE : BitVec 16) ≠ 0xFFFF ∧ (1 : Nat) ≠ (0 : BitVec 16).toNat := by decide +kernel

/-- A line of the L2 with nothing of its own. -/
def cleanLine : L2Line := ⟨none, 5, [], [], 0, 0, 0, 0, 0, 0, .none, []⟩

theorem witness_power : State.reset.power = false
    ∧ ([1, 2, 3, 4, 5, 6].all fun n =>
        let s : State := { State.reset with power := true, stage := n }
        s.power && !s.ready && !s.tripped && s.err == 0) = true
    ∧ State.reset.ready = false ∧ (∀ i ∈ [Instr.sliceExpiry 0], readyFree i = false)
    ∧ (1200 ≤ 1200 ∧ 1900 ≤ 1900 ∧ 1200 % 25 = 0 ∧ 1900 % 25 = 0 ∧ 1199 < 1200 ∧ 1900 < 1901 ∧ 1210 % 25 ≠ 0)
    ∧ world.retrainNeedsRequest = false
    ∧ (let s : State := { world with retraining := [3], blocks := (at' 0x0100FFFF00000000 0).blocks, parts := world.parts.modify 0 fun p =>
          { p with record := setBytes p.record 32 [0x10] } };
        s.retrainNeedsRequest = true ∧ 3 ∈ s.retraining ∧ 4 ∉ s.retraining)
    ∧ (1 ≤ 2047 ∧ 2047 < 2048 ∧ 2048 ≤ 2048)
    ∧ (cleanLine ∈ (({ world with l2 := [cleanLine] } : State).cleanL2 fun l => l.line == 5).l2 ∧ cleanLine.line == 5) = true := by decide +kernel

/-! Steps -/

theorem witness_steps :
    memWf State.reset.mem = true
    ∧ (match step (State.reset.withFetchWord 64 0x0100FFFF00000000) with
      | .next t => memWf t.mem
      | _ => false) = true
    ∧ (let s := State.reset.withFetchWord 64 0x0100FFFF00000000;
        let s' := (({ s with agenda := [], walkFrom := s.now } : State).pass 0 0).opening (.issue 0 0);
        s.agenda = [⟨0, 0, .issue 0 0, 0, []⟩] ∧ s'.ready = true ∧ ((s'.crew? 0 0).elim false fun p => p.2.seq == .visit 1 1 && !p.1.heldAt p.2
          && p.2.line.elim false fun l => (match State.boundary p.1 p.2 1 1 with
              | .issue x => x == 1
              | _ => false) && p.1.mayIssue p.2 (.nop G) && s'.linkFree p.1 0 (p.2.joinAt 1 1) (.nop G) && s'.mayChoose p.1 p.2
            && !s'.heldBack p.1.core p.2 (.nop G) && decide (decodeWords (l.wordAt 1) 0 = .ok (.nop G))) = true)
    ∧ (let s := State.reset.withFetchWord 64 0x1300010080004000;
        ((s.crew? 0 0).elim false fun p => p.2.line.elim false fun l => decide (decodeWords (l.wordAt 1) 0 = .error .unused)
          && p.1.mayIssue p.2 (.unassignedMajor (l.wordAt 1)) && s.linkFree p.1 0 (p.2.joinAt 1 1) (.unassignedMajor (l.wordAt 1))
          && s.mayChoose p.1 p.2 && !s.heldBack p.1.core p.2 (.unassignedMajor (l.wordAt 1))) = true)
    ∧ (let s : State := { world with agenda := [⟨0, 0, .event (.sliceExpiry 0), 0, []⟩] }; s.ready = true)
    ∧ readyFree .powerGood = true ∧ State.reset.ready = false ∧ readyFree (.sliceExpiry 0) = false
    ∧ State.reset.agenda = [] ∧ State.reset.dead = false ∧ ({ State.reset with err := 1 } : State).dead = true := by decide +kernel

theorem witness_encodings : (Instr.iadd G .i32 false (.v 1) (.v 0) (.s 0)).wf = true ∧ (Instr.iadd G .i32 false (.v 1) (.v 0) (.s 0)).isEvent = false
    ∧ decodeBytes (bytesOf 0x1300010080FF4000 ++ [7]) = .ok (.iadd G .i32 false (.v 1) (.v 0) (.s 0), [7]) := by decide +kernel

/-! What performs: ordering, loads and stores, atomics, engines, collectives -/

/-- The operation at that place of that queue. -/
def opIn (s : State) (n : Nat) (p : Block → Crew → Op → Bool) : Bool := match s.crew? 0 0 with
  | some (b, c) => (c.queue[n]?).elim false (p b c)
  | none => false

/-- Reads of a peer's scratchpad before a fence; a fence alone; one behind a store, and behind a posted RED. -/
def fencing (w : List OpKind) (n : Nat) : Bool :=
  opIn (queued w) n fun b c o => (queued w).mayPerform b 0 c n && match o.what with
    | .fence _ => true
    | _ => false

def bare : State := queued []

def onBlock (s : State) (p : Block → Bool) : Bool := (s.block? 0).elim false p

theorem witness_ordering :
    fencing [.fence .block] 0 = true ∧ fencing [.fence .clust] 0 = true ∧ fencing [.fence .sys] 0 = true
    ∧ fencing [.spStore 1 64 4 7, .fence .crew] 1 = true
    ∧ ((∀ q ∈ bare.posted, q.blk ≠ ctx.b.uid) ∧ (∀ r ∈ bare.hostReqs, r.blk ≠ ctx.b.uid) ∧ ∀ l ∈ ctx.c.lanes, l.parked = false)
    ∧ onBlock (block (fun b => { b with handles := [⟨some (.sp .bf16 64 0 128), 1⟩, ⟨none, 0⟩] }) bare) (fun b =>
        (b.handles[0]?).elim false (fun h => h.inScratch == some 0) && (b.handles[1]?).elim false fun h => h.inScratch.isNone) = true
    ∧ onBlock bare (fun b => !({ b with barArr := b.barArr ++ [(ctx.c.cid, 0)] } : Block).barDone
        && ({ b with barArr := b.barArr ++ [(ctx.c.cid, 0), (ctx.c.cid, 1)] } : Block).barDone) = true
    ∧ ([false, true].all fun all =>
        let t := bare.modBlock 0 fun b => { b with barcArr := (ctx.c.cid, 0) :: if all then [(ctx.c.cid, 1)] else [] }
        t.barcDone (t.blockOf ctx) == all) = true
    ∧ ((bare.laneAt 0 0 1).isSome = true ∧ Cond.eval .eq (accInt .i32 0) (accInt .i32 0) = true ∧ Cond.eval .eq (accInt .i32 0) (accInt .i32 1) = false) := by
  decide +kernel

/-- A piece under seal 5, and a line of the L2 with seal 5's tag. -/
def sealed (a : Nat) : Piece := { piece a with sealId := 5 }

def tagged : State := { bare with l2 := [⟨none, 0, [(1, 0)], [], 0, 0, 0, 5, 0, 0, .none, []⟩] }

theorem witness_loads_and_stores :
    (bare.block? ctx.b.uid).isSome = true ∧ (bare.laneOf ctx 1).isSome = true
    ∧ (ctx.b.uid = 0 ∧ bare.cleared ctx.b.part ctx.b.clr (piece 64).sealId = true ∧ bare.cleared ctx.b.part ctx.b.clr (sealed 64).sealId = false)
    ∧ ((([(1, 0)] : List (Nat × Nat)).lookup ((piece 64).home / 64)).getD 0 = 0 ∧ ([(1, 5)] : List (Nat × Nat)).lookup ((piece 64).home / 64) = some 5)
    ∧ (bare.denies ctx.b.part ctx.b.clr (piece 64) = none ∧ bare.denies ctx.b.part ctx.b.clr (sealed 64) = some (5, false)
      ∧ tagged.denies ctx.b.part ctx.b.clr (piece 64) = some (5, true))
    ∧ (let r := bare.passQuarters ctx 0 true .none [piece 64, piece 96];
        let c := r.1.readPiece ctx 0 false r.2 (piece 64) 0;
        let w := c.1.readPiece ctx 0 false r.2 (piece 96) 0;
        c.2.2 = none ∧ w.2.2 = none) := by decide +kernel

/-- A RED posted of the block of `at'`, and of that block saved. -/
def redOp : Op := ⟨1, 0, 1, 1, .red .add .n32 (.global (piece 64)) 3⟩

def posted : State := { bare with posted := [⟨0, 0, redOp, 0⟩] }

def postedSaved : State := { world with posted := [⟨9, 0, redOp, 0⟩], launches := [{ launched false 4 with saved := [savedBlock] }] }

theorem witness_reds :
    (posted.posted[0]? = some ⟨0, 0, redOp, 0⟩ ∧ memWf posted.mem = true)
    ∧ onBlock posted (fun b => b.storeBuf.isEmpty && (posted.denies b.part b.clr (piece 64)).isNone && posted.denies b.part b.clr (sealed 64) == some (5, false)) = true
    ∧ (postedSaved.posted[0]? = some ⟨9, 0, redOp, 0⟩ ∧ postedSaved.block? 9 = none ∧ (postedSaved.savedBlock 9).isSome = true)
    ∧ (∃ t, posted.targetOf ctx 0 = some t ∧ posted.block? t.uid = some t ∧ memWf t.scratch = true) :=
  ⟨by decide +kernel, by decide +kernel, by decide +kernel, _, rfl, rfl, rfl⟩

/-- Two MWAITs, one that waits for a command and one that need not; a tile with a value of before; an entry of the log. -/
def mstate : State := block (fun b => { b with
  mcmds := [mcmd (.mzero 1) false], pending := [⟨0, 1, [1], 0, 0, 0⟩], turns := 1, past := [(1, ⟨[], none, .int, false⟩, 0)]
  mlog := [⟨3, 2, 1, 0⟩] }) bare

theorem witness_matrix_instructions :
    onBlock bare (fun b => (b.handles[15]?).isSome && decide (b.mcmds.length ≤ 8) && decide (b.mlog.length ≤ 16) && decide (b.tiles.length ≤ 8)
      && (b.mwaitFor 0 true 0).isEmpty && (b.mlog[0]?).isNone && (b.tiles[7]?).isSome) = true
    ∧ onBlock mstate (fun b => b.mwaitFor 0 true 0 != [] && b.mwaitFor 0 false 1 != [] && (b.mwaitFor 0 false 2).isEmpty && (b.mlog[0]?).isSome
      && (b.tileSeen 1).any (·.kind == .int) && decide (b.mcmds.length ≤ 8)) = true
    ∧ opIn (queued [.instr (.mfence G) []]) 0 (fun b c _ => (queued [.instr (.mfence G) []]).mayPerform b 0 c 0) = true
    ∧ (∀ q ∈ [(⟨1, 0, 1, 1, .instr (.mwait G true 0) []⟩ : Op)], q.lane = 0 → q.ins = 1)
    ∧ (({ Tile.zero with m := [nanM] } : Tile).m[0]? = some nanM ∧ Tile.zero.m[4095]? = some 0 ∧ Tile.zero.e = none
      ∧ ({ Tile.zero with e := some 5 } : Tile).e = some 5) := by decide +kernel

/-- A record of a group of two at 0xF000, and zeros, or the ranges' map bits clear; the block's own slots with and without a group. -/
def grouping (d1 : BitVec 256) : State :=
  let s := ranged 1 [d1] []
  let m := memWrites s.mem (cellsOf 0x2000 (leBytes 32 (BitVec.ofNat 256 (63 * 2 ^ 176 + 7 * 2 ^ 120) : BitVec 256).toNat)
    ++ cellsOf 0xF000 (leBytes 32 (2 + 7 * 2 ^ 32 + 99 * 2 ^ 64) ++ leBytes 16 (0x8000 * 2 ^ 64) ++ leBytes 16 (1 + 0x9000 * 2 ^ 64)))
  { s with mem := m, looks := [], devId := 0, blocks := (at' 0x0100FFFF00000000 0).blocks }

/-- How an XGRP of the record at `va` is read: the header, the record, and what group it declares. -/
def declares (s : State) (va : Nat) : Nat × Option Nat :=
  let read := fun (s : State) n => s.checkRun ctx.b.core ctx.b.asid ctx.b.part ctx.b.clr va n .read
  match read s 32 with
  | (_, .fault ..) => (1, none)
  | (_, .denied ..) => (2, none)
  | (_, .wait ..) => (3, none)
  | (s1, .ok ps) =>
    let r := s1.readRun ctx.b.vf ctx.b.core ps
    match recCount r.2 with
    | none => (4, none)
    | some n => match read r.1 (32 + 16 * n) with
      | (s3, .ok qs) =>
        let q := s3.readRun ctx.b.vf ctx.b.core qs
        (0, (q.1.groupRec ctx.b va q.2).map (·.members.length))
      | _ => (5, none)

theorem witness_groups :
    declares (grouping d1Id) 0xF000 = (0, some 2) ∧ declares { grouping d1Id with devId := 1 } 0xF000 = (0, none)
    ∧ declares (grouping d1Id) 0xE000 = (4, none) ∧ declares (grouping d1Id) 0x40000 = (1, none)
    ∧ declares (grouping (d1Id + BitVec.ofNat 256 (5 * 2 ^ 72))) 0xF000 = (2, none)
    ∧ declares (grouping (d1Id + BitVec.ofNat 256 (2 ^ 70 + 32 * 2 ^ 24))) 0xF000 = (3, none) := by decide +kernel

/-- Slot 3 live, with an operation open, and with it done. -/
def slotted (done : Bool) : State :=
  { block (fun b => { b with groups := b.groups.set 3 (some (member 0)) }) bare with
    colls := [{ coll 0 0 0 .i32 with slot := 3, done := done }] }

theorem witness_collective_instructions :
    onBlock bare (fun b => ((b.groups[3]?).getD none).isNone && b.ccmds.isEmpty && decide (b.ccmds.length ≤ 16)) = true
    ∧ onBlock (slotted false) (fun b => ((b.groups[3]?).getD none).isSome
        && (slotted false).colls.any fun c => c.blk == 0 && c.slot == 3 && !c.done) = true
    ∧ onBlock (slotted true) (fun b => ((b.groups[3]?).getD none).isSome
        && (slotted true).colls.all fun c => c.blk == 0 && c.slot == 3 && c.done) = true
    ∧ (∀ l ∈ ctx.c.lanes, l.park = none ∧ l.waited = none) := by decide +kernel

/-- NETCNT of two lanes; a line whose fetch waits, and faults; a crew ready for 1,000 cycles; a census whose span no line keeps back. -/
def awaiting : State :=
  { world with looks := world.looks.map fun e => { e with d1 := e.d1 + BitVec.ofNat 256 (2 ^ 70), map := some (0, 0) } }

theorem witness_waits :
    ((queued [.netcnt 0 (.s 24), .netcnt 0 (.s 24)]).crew? 0 0).elim false (fun p => p.2.queue.length == 2) = true
    ∧ ((loading none awaiting).crew? 0 0).elim false (fun p => !p.1.heldAt p.2 && p.2.next.isNone && p.2.line.isNone
        && match (loading none awaiting).fetch p.1 0 p.2 0 0 with
          | (_, .wait _) => true
          | _ => false) = true
    ∧ (nextCensus.crew? 0 0).elim false (fun p => (nextCensus.roWaits p.1 p.2 2).isNone) = true
    ∧ (let s : State := { at' 0x0100FFFF00000000 0 with cyc := 1000 };
        s.ready && (s.crew? 0 0).elim false fun p => (s.readyInstr p.1 0 p.2).isSome && decide (s.cyc ≤ max p.2.since p.2.busy + 2048)) = true
    ∧ (fetchLine 0 0).wellFormed = true
    ∧ (⟨0, List.replicate 16 0⟩ : Line).wellFormed = false := by decide +kernel

/-- A block to be completed whose error record is written, or waits. -/
def erring (s : State) : State :=
  { s with blocks := (block (fun b => { b with kills := 1, crews := b.crews.map fun c => { c with seq := .retired } })
      (at' 0x0100FFFF00000000 0)).blocks, launches := [launched false 4] }

def errorEnds (s : State) : Nat := match s.block? 0 with
  | some b => if !b.errs? then 9 else match (s.drainAll 0).writeError { b with launch := 1 } with
    | (_, .done) => 0
    | (_, .wait ..) => 1
    | (_, .fault _) => 2
  | none => 9

/-- What the check of a record says. -/
def checked (s : State) (r : BitVec 512) : Nat := match s.checkLaunch 0 0 r with
  | (_, .accept ..) => 0
  | (_, .refuse n) => n
  | (_, .wait) => 9

/-- One range of 64 GB, pinned, with the header at 0xE000. -/
def roomy : State :=
  let s := ranged 1 [pages 0 0xFFFFFF 0] []
  { s with
    looks := []
    mem := memWrites s.mem (cellsOf 0x2000 (leBytes 32 (BitVec.ofNat 256 (0xFFFFFF * 2 ^ 176 + 7 * 2 ^ 120) : BitVec 256).toNat)
      ++ cellsOf 0xE000 (leBytes 128 (header false).toNat)) }

def asked : BitVec 512 := record ||| BitVec.ofNat 512 (2 ^ (8 * 10) + 0xE000 * 2 ^ (8 * 16) + 0xF000 * 2 ^ (8 * 24) + 0x10000 * 2 ^ (8 * 48))

theorem witness_waiting_fronts :
    errorEnds (erring world) = 0 ∧ errorEnds (erring awaiting) = 1
    ∧ checked roomy asked = 0 ∧ checked world asked = 4 ∧ checked awaiting asked = 9
    ∧ (block (fun b => { b with crews := b.crews.map fun c => { c with seq := .retired } }) aborted |>.block? 0).elim false (fun b => b.runs) = false
    ∧ (let s : State := { listed 0 [] with funcs := (listed 0 []).funcs.modify 0 fun f => { f with taken := [(0, asked)] } };
        (s.placing 0 == some 0 && (s.func 0).taken.lookup 0 == some asked)) = true
    ∧ (listed 0 []).listOn 0 0 = true := by decide +kernel

/-- A write of three 8-byte parts into a record, and no lags. -/
theorem witness_parts : (244 < 320 ∨ (4 : Nat) ≠ 0) ∧ (List.replicate 16 (7 : Byte)).length ≠ 128 ∧ (eightsOf 4 (List.replicate 16 7)).length = 3
    ∧ (fulling d1Id false).lags = [] ∧ ({ world with sensors := [7] } : State).sensors[0]? = some 7 ∧ (world.fabricCounts[7]?).isSome = true
    ∧ ({ world with routes := [(5, 3)] } : State).routes.lookup (5 : BitVec 16).toNat = some 3 := by decide +kernel

/-! What the clauses about checks, pieces, restores and switches ask -/

/-- Origin registers within and beyond the budget; handler lanes with and without a verdict, and none; blocks aborted and not. -/
theorem witness_handlers_act :
    (bare.crew? 0 0).elim false (fun p => decide ((3 : BitVec 7).toNat < p.2.budget)
      && decide (({ p.2 with budget := 8 } : Crew).budget ≤ (100 : BitVec 7).toNat) && (p.2.lanes[0]?).isSome) = true
    ∧ (onBlock (block (fun b => { b with hnd := [handled] }) bare) fun b => (b.hnd[0]?).elim false (fun h => !h.decided) && (b.hnd[1]?).isNone) = true
    ∧ onBlock bare (fun b => b.abort.isNone) = true ∧ onBlock aborted (fun b => b.abort.isSome) = true := by decide +kernel

/-- How a check of a word of global memory ends. -/
def checks (s : State) (va : Nat) (kind : AccKind) : Nat := match (s.checkGlobal ctx va 4 kind).2 with
  | .pass [_] => 0
  | .pass _ => 1
  | .trap .. => 2
  | .park .. => 3

/-- A range of signed bytes, decoded, with its scale plane at 0x8000; nonresident, or its scale plane elsewhere. -/
def d1Dec (mode spb : Nat) : BitVec 256 := d1Id + BitVec.ofNat 256 (mode * 2 ^ 70 + 4 * 2 ^ 67 + spb * 2 ^ 88)

/-- The world with that one range. -/
def decodedWorld (d : BitVec 256) : State := { ranged 1 [d] [] with looks := [] }

/-- How a decoded load ends: its code and scale pieces, one missing, a fault, a wait. -/
def decodesTo (s : State) (va : Nat) : Nat := match s.decodes ctx va .f32 with
  | none => 9
  | some d1 => match s.translate ctx.b.core (some ctx.c.quad) ctx.b.asid va 1 .read with
    | (t, .ok x) =>
      let elem := (va - d1Base d1 * 4096) / Acc.f32.size
      let o := codeOffset (d1Fmt d1) elem
      let code := d1Base x.d1 * 4096 + o.1
      let plane := t.planePiece (dirVf (t.dirEntry ctx.b.asid))
      match plane code (d1Ia x.d1 code) 1 x.d1, plane noVa (d1Spb x.d1 * 4096 + elem / 64 * 4) 4 x.d1 with
      | some _, some _ => 0
      | _, _ => 1
    | (_, .fault _) => 2
    | (_, .park _) => 3

theorem witness_memory_checks :
    ([AccKind.read, .write].all fun k => checks world 0x8000 k == 0 && checks world 0x20000 k == 2 && checks awaiting 0x8000 k == 3) = true
    ∧ (checks world 0x8000 .red = 0 ∧ checks world 0x20000 .red = 2 ∧ checks awaiting 0x8000 .red = 3)
    ∧ 2 ^ 56 ≤ (2 ^ 56 : Nat) + 1 - 1 ∧ world.decodes ctx 0x8000 .n32 = none
    ∧ decodesTo (decodedWorld (d1Dec 0 8)) 0x4000 = 0 ∧ decodesTo (decodedWorld (d1Dec 0 0x1000)) 0x4000 = 1
    ∧ decodesTo (decodedWorld (d1Dec 0 8 - BitVec.ofNat 256 (2 ^ 64))) 0x4000 = 2 ∧ decodesTo (decodedWorld (d1Dec 1 8)) 0x4000 = 3
    ∧ ASpace.sp ≠ ASpace.global ∧ ASpace.peer ≠ ASpace.global
    ∧ ctx.c.addrG (Lane.blank 32) ⟨.s 6, .none, 0⟩ 4 % 4 = 0 ∧ ctx.c.addrS (Lane.blank 32) ⟨.s 6, .none, 0⟩ 4 % 4 = 0 := by decide +kernel

/-- The host has not acknowledged a drain of the block. -/
theorem witness_sys_waits :
    (let s : State := { bare with hostReqs := [⟨0, 0, .drain, 0, true⟩, ⟨0, 0, .red 0, 1, false⟩], hostNo := 2 };
      (s.crew? 0 0).elim false (fun p => (s.sysWait 0 0 p.2 (.fence .sys)).isSome) = true ∧ (s.hostReqs[0]?).elim false (·.sent) = true
        ∧ (s.hostReqs[1]?).elim false (fun r => !r.sent) = true)
    ∧ (bare.crew? 0 0).elim false (fun p => (bare.sysWait 0 0 p.2 (.fence .sys)).isNone) = true := by decide +kernel

/-- How the check of a copy command's piece ends. -/
def pieceEnds (s : State) (va n : Nat) (kind : AccKind) : Nat := onBlock' s fun b => match s.checkPiece b va n kind with
  | (_, .ok _) => 0
  | (_, .fault) => 1
  | (_, .denied _) => 2
  | (_, .wait _) => 3
where onBlock' (s : State) (f : Block → Nat) : Nat := ((s.block? 0).map f).getD 9

/-- How the scale word of a row of 64 codes is read: a piece, none, or one denied. -/
def scaleEnds (s : State) : Nat :=
  let c := ccmd (.gather 0 64 none 0 64 true)
  match s.rowScales ctx.b c 1, c.rowGlobal 1 with
  | some (m, ia, d, vf), some va => if m ≤ 0 then 8 else match s.planePiece vf va (ia + 4 * 0) 4 d with
    | some q => if (s.denies ctx.b.part ctx.b.clr q).isSome then 2 else 0
    | none => 1
  | _, _ => 9

theorem witness_pieces_arrive :
    ([AccKind.write, .red].all fun k => (let s := copying (ccmd (.scatter 0 64 none 0 64))
      pieceEnds s 64 64 k == 0 && pieceEnds s 0x10000 64 k == 1 && pieceEnds (denying s) 64 64 k == 2
      && pieceEnds { s with looks := awaiting.looks } 64 64 k == 3)) = true
    ∧ copyIs { ccmd (.scatadd .f32 64 64 0 0) with idxs := [0, 1] } (fun _ _ c => (c.rowGlobal 1).elim false fun a => a % (addAcc .f32).size == 0) = true
    ∧ copyIs { ccmd (.scatadd .f32 66 64 0 0) with idxs := [0, 1] } (fun _ _ c => (c.rowGlobal 1).elim false fun a => a % (addAcc .f32).size != 0) = true
    ∧ copyIs (ccmd (.gather 0 64 none 0 64 true)) (fun s b c => (s.rowScales b c 1).isNone) = true
    ∧ (scaleEnds (decodedWorld (d1Dec 0 8)) = 0 ∧ scaleEnds (decodedWorld (d1Dec 0 0x1000)) = 1
      ∧ scaleEnds (decodedWorld (d1Dec 0 8 + BitVec.ofNat 256 (5 * 2 ^ 72))) = 2)
    ∧ ((1 : Nat) ∈ [1] ∧ (1 : Nat) ∉ ([] : List Nat)) := by decide +kernel
/-- How reads and writes of 64 bytes for an operation end. -/
def runEnds (s : State) (c : COp) (va : Nat) (kind : AccKind) : Nat := match (s.checkRun c.core c.asid c.part c.clr va 64 kind).2 with
  | .ok _ => 0
  | .fault .. => 1
  | .denied .. => 2
  | .wait .. => 3

theorem witness_collective_pieces :
    ([AccKind.read, .write].all fun k => (let c := coll 0 0 0 .i32
      runEnds world c 0x8000 k == 0 && runEnds world c 0x20000 k == 1 && runEnds (denying world) c 0x8000 k == 2
      && runEnds awaiting c 0x8000 k == 3)) = true
    ∧ collIs [coll 0 0 0 .i32, coll 1 1 0 .i32] (fun s c => decide (64 * 0 < c.c) && decide (c.c ≤ 64 * 1) && !c.got.contains (1, 0)
        && match s.memberBytes c 1 0 64 with
          | (t, some y) => (t.writeInbox c 64 y).2
          | _ => false) = true
    ∧ collIs [coll 0 0 0 .i32] (fun s c => (s.memberBytes c 1 0 64).2.isNone && (c.group.members[1]?).elim false fun m => !s.remote m
        && (s.sibling c 1).isNone && (s.sibling c 0).isSome) = true
    ∧ (let s : State := { collState [coll 0 0 0 .i32, coll 1 1 0 .i32] with looks := awaiting.looks };
        ((s.coll? 0).elim false fun c => (s.memberBytes c 1 0 64).2.isNone && !(s.writeInbox c 64 ⟨List.replicate 64 0, 0, 0, 0⟩).2) = true)
    ∧ (let s : State := { collState [{ coll 0 0 2 .i32 with group := { member 0 with members := [⟨0, 0, 0, 0⟩, ⟨4096, 0, 0, 7⟩] } }] with devId := 0 };
        ((s.coll? 0).elim false fun c => s.owesChunk c 1 && !c.sent.contains (1, 0) && decide (64 * 0 < c.c)
          && (s.readContribution c (1 * c.c + 64 * 0) (min 64 (c.c - 64 * 0))).2.isSome
          && (({ s with looks := awaiting.looks } : State).readContribution c (1 * c.c + 64 * 0) (min 64 (c.c - 64 * 0))).2.isNone
          && (c.group.members[1]?).elim false fun m => s.remote m && !s.routed m.dev && ({ s with routes := [(7, 0)] } : State).routed m.dev) = true) := by
  decide +kernel

/-- The token of a network that resets; a lane parked at an earlier TAKE, and at a later one. -/
theorem witness_resets :
    (let s : State := { tokened with nets := tokened.nets.set 0 { Net.reset with closed := true, resetting := true, tokens := [⟨5, 0, 0, 0, 0⟩] } };
      (0 : Nat) < s.nets.length ∧ ((s.net 0).tokens.find? (·.id == 5)).isSome = true
      ∧ (let x := (([] : List Nat) ++ List.replicate 10 5).foldl Net.hop (s.net 0);
          ((x.tokens.find? (·.id == 5)).bind fun t => netWiring.2.findIdx? (· == t.wire)) = some 0 ∧ x.resetting = true))
    ∧ (let l : Lane := { Lane.blank 8 with parked := true, park := some (.network 0 3) };
        l.parked = true ∧ l.park = some (.network 0 3) ∧ (3 : Nat) < (⟨4, 0, 1, 1, .bar⟩ : Op).ins ∧ (⟨1, 0, 1, 1, .bar⟩ : Op).ins ≤ 3) := by decide +kernel

/-- A code line in the instruction cache, and not; and one whose seal denies it. -/
theorem witness_code_bytes :
    (linesOf (pieceOf 128 128 ⟨128, 0, 0, 0, 0, 0⟩).home 128).length = 1 ∧ (world.inIcache 0 0 0 0).isNone = true ∧ (0 : Nat) ≤ world.now
    ∧ (({ world with icache := [⟨0, 0, 0, 0, List.replicate 256 0⟩] } : State).inIcache 0 0 0 0).isSome = true
    ∧ ((loading none world).crew? 0 0).elim false (fun p => match State.translateRun p.1.core (some p.2.quad) p.1.asid .exec 4 (loading none world)
        (p.1.code + 128 * 0) 128 with
      | (t, ps, none) => ps.length == 1 && ps.all fun q => (t.denies p.1.part p.1.clr (pieceOf q.1 q.2.1 q.2.2)).isNone
          && ((denying t).denies p.1.part p.1.clr (pieceOf q.1 q.2.1 { q.2.2 with sealId := 5 })).isSome
      | _ => false) = true := by decide +kernel

/-- The header of a handler image can be read, and waits. -/
theorem witness_images : (match world.imageLines 0 0 0xE000 with
      | .ok _ => true
      | _ => false) = true
    ∧ (match awaiting.imageLines 0 0 0xE000 with
      | .error _ => true
      | _ => false) = true := by decide +kernel

/-- A retired block of a group, and a peer with a store to its scratchpad in its queue. -/
def reached : State :=
  { retired with blocks := retired.blocks.flatMap fun b => [{ b with grouped := true, scratchSize := 0 },
      { b with uid := 1, grouped := true, core := 1, pos := 1, crews := b.crews.map fun c => { c with queue := [⟨1, 0, 1, 1, .spStore b.core 64 4 7⟩] } }] }

theorem witness_peers_reach : onBlock reached (fun b => reached.peersReach b) = true ∧ onBlock retired (fun b => !retired.peersReach b) = true := by
  decide +kernel

/-- A completion word of a refused launch that is written, and one that waits. -/
theorem witness_refusals : (world.writeWord 0 0 record 0 (completionWord 3 2 0 0)).2 = true ∧ (awaiting.writeWord 0 0 record 0 (completionWord 3 2 0 0)).2 = false
    ∧ recCword record % 8 = 0 ∧ (3 : Nat) < 16 ∧ (match (world.checkRun (world.part 0).firstCore (recAsid record) 0 (recClr record) (recCword record) 8 .write).2 with
      | .ok _ => true
      | _ => false) = true := by decide +kernel
/-! Restores and switches -/

/-- A launch whose image at 0xE000 has a rewind table of one entry: point 5, recipe 3, v1 and s2; its save area is at 0x10000. -/
def pointed : Launch := { launched false 4 with record := asked, hdr := header false + BitVec.ofNat 1024 (2 ^ (8 * 20)) }

def pointing (mode : Nat) : State :=
  let s := ranged 1 [pages 0 0xFFFFFF 0 + BitVec.ofNat 256 (mode * 2 ^ 70)] []
  { s with
    looks := []
    mem := memWrites s.mem (cellsOf 0x2000 (leBytes 32 (BitVec.ofNat 256 (0xFFFFFF * 2 ^ 176 + 7 * 2 ^ 120) : BitVec 256).toNat)
      ++ cellsOf 0xE080 (leBytes 32 (5 + 3 * 2 ^ 32 + 2 * 2 ^ 64 + 4 * 2 ^ 192))) }

/-- A saved block with a lane at that marked point, or another, and a store-buffer entry. -/
def pointedBlock (point : Word) (es : List Entry) : Block :=
  { savedBlock with storeBuf := es, crews := [{ Crew.blank with
    budget := 32, role := 2, seq := .census none, lanes := [{ Lane.blank 32 with done := false, kind := true, wl := point, rwl := point }] }] }

/-- How the entries of a restore end: kept, lost, denied, or a wait. -/
def entriesEnd (s : State) (b : Block) : Nat := match (State.entriesAgain b 0 b.storeBuf s).2 with
  | .error _ => 9
  | .ok (es, lost, den) => es.length + 10 * lost.length + 100 * den.length

theorem witness_restores :
    ((pointing 0).pointEntry 0 pointed 5).isSome = true ∧ ((pointing 0).pointEntry 0 pointed 6).isNone = true
    ∧ ((pointing 1).pointWait 0 pointed (pointedBlock 5 [])).isSome = true ∧ ((pointing 0).pointWait 0 pointed (pointedBlock 5 [])).isNone = true
    ∧ (let es : List Entry := [⟨piece 64, 1, 0, 0, 0, 1, 0, .none⟩];
        entriesEnd world (pointedBlock 5 es) = 1 ∧ entriesEnd { world with looks := [], mem := [] } (pointedBlock 5 es) = 10
        ∧ entriesEnd (denying (looked world)) (pointedBlock 5 es) = 100 ∧ entriesEnd { awaiting with looks := awaiting.looks } (pointedBlock 5 es) = 9)
    ∧ (∀ x ∈ world.blocks, x.uid ≠ savedBlock.uid) ∧ ([(0, 1, 2)] : List (Nat × Nat × Nat)).find? (·.1 == 0) = some (0, 1, 2)
    ∧ ((lanes (fun l => { l with kind := true, wl := 6, rwl := 6 }) bare).crew? 0 0).elim false (fun p => p.1.hnd.isEmpty
        && (p.2.lanes[1]?).elim false fun x => !x.done && x.kind && x.wl == x.rwl) = true
    ∧ ((parked (.waitc 0x8000 0x8000 .eq .n32 0 1) world).crew? 0 0).elim false (fun p =>
        (parked (.waitc 0x8000 0x8000 .eq .n32 0 1) world).waitcNow p.1 (.waitc 0x8000 0x8000 .eq .n32 0 1) && (p.2.lanes[0]?).elim false (·.parked)) = true
    ∧ (placing { launched false 4 with saved := [savedBlock] }).launch? 1 ≠ none ∧ (placing (launched false 4)).launch? 1 ≠ none := by decide +kernel

/-- Four saved blocks of a group, all of which can resume, or not. -/
def savedGroup : Launch :=
  { launched true 4 with
    saved := (List.range 4).map fun i => { savedBlock with uid := 9 + i, bid := i, pos := i, grouped := true, storeBuf := [⟨piece 64, 1, 0, 0, 0, 1, 0, .none⟩] }
    record := record ||| BitVec.ofNat 512 (7 * 2 ^ (8 * 10)) }

theorem witness_groups_resume :
    (placing savedGroup).arbitrate 0 = some (.restore 1)
    ∧ ((placing savedGroup).regroupOn 0 savedGroup.savedGroup).elim false (fun xs => xs.length == 4
        && ((placing savedGroup).groupReady savedGroup (xs.map fun x => (x.1, x.2.1))).2
        && !(({ placing savedGroup with looks := awaiting.looks } : State).groupReady savedGroup (xs.map fun x => (x.1, x.2.1))).2) = true := by
  decide +kernel

/-- A switch of function 0 for SCHED's entry 1: with its one block still running, or ready to be saved. -/
def switching (s : State) (f : Block → Block) (n : Nat) : State :=
  { s with
    launches := [{ pointed with completed := 3 }], parts := s.parts.modify 0 fun p => { p with switching := some 1, record := setBytes p.record 32 [BitVec.ofNat 8 n] }
    blocks := (block (fun b => f { b with stopping := true, launch := 1 }) bare).blocks }

/-- The block with its lanes at a marked point. -/
def atPoint (b : Block) : Block := { b with crews := b.crews.map fun c => { c with lanes := c.lanes.map fun l => { l with kind := true, rwl := 5 } } }

theorem witness_switches :
    0 < world.parts.length ∧ (0 : Nat) < world.funcs.length
    ∧ (switching (pointing 0) (fun b => { b with abort := some (0, ⟨0, 0, 0⟩) }) 0).switchReady 0 0 = false
    ∧ (switching (pointing 0) id 0).switchReady 0 0 = true
    ∧ ((switching (pointing 1) atPoint 0).pointsWait 0).isSome = true ∧ ((switching (pointing 0) atPoint 0).pointsWait 0).isNone = true
    ∧ (({ switching (pointing 0) id 0 with blocks := [] } : State).switchOut 0 0).2 = true
    ∧ ((({ switching (pointing 0) id 0 with blocks := [] } : State).switchOut 0 0).1.part 0).hostMode 2 = false
    ∧ ((({ switching (pointing 0) id 4 with blocks := [] } : State).switchOut 0 0).1.part 0).hostMode 2 = true
    ∧ ((switching (pointing 0) id 0).blocks.map (·.uid)).Nodup
    ∧ (Func.reset.wrote = [] ∧ Func.reset.cnt.length = 8) := by decide +kernel

/-- A save area that faults, and one that waits. -/
theorem witness_saves :
    (match State.writeSections 0 [(pointed, 0, leBytes 4 2)] (pointing 0) with
      | (_, .done) => true
      | _ => false) = true
    ∧ (let s := switching { pointing 0 with mem := [] } id 0;
      match (let r := State.areasOf [] (some 1) (s.restoreOrder 0) (s.saveBlocks 0); State.writeSections 0 r.2 r.1) with
      | (_, .fault _) => true
      | _ => false) = true
    ∧ (let s := switching (pointing 1) id 0;
      match (let r := State.areasOf [] (some 1) (s.restoreOrder 0) (s.saveBlocks 0); State.writeSections 0 r.2 r.1) with
      | (_, .wait ..) => true
      | _ => false) = true := by decide +kernel

/-- Network 0 of function 0, whose record stands in the save area of launch 1 as zeros but for its own number, or another's. -/
def incoming (mode m : Nat) : State :=
  { pointing mode with
    launches := [pointed], mem := memWrites (pointing mode).mem (cellsOf (0x10000 + 256 + 90) (leBytes 2 m))
    funcs := world.funcs.modify 0 fun f => { f with record := setBytes f.record 160 [1], netsIn := some 1 } }

theorem witness_switches_in :
    ((incoming 1 0).netsWait 0 0).isSome = true ∧ ((incoming 0 0).netsWait 0 0).isNone = true
    ∧ ((incoming 0 0).part 0).hostMode 3 = false ∧ (((incoming 0 0).func 0).netsIn.bind (incoming 0 0).launch?).isSome = true
    ∧ ((switching world id 8).part 0).hostMode 3 = true ∧ ((world.func 0).netsIn.bind world.launch?).isNone = true
    ∧ ([(0, true), (1, false)].all fun x => match (incoming 0 x.1).plainRun 0 0 (0x10000 + 256 + 96 * 0) 96 .read with
      | (s1, .ok ps) => recordOk 0 (s1.readRun 0 0 ps).2 == x.2
      | _ => false) = true
    ∧ (0 : Nat) ∈ (incoming 0 0).netsBack 0 ∧ Net.reset.cnt.length = 16 := by decide +kernel

/-- A function with a saved block: a write of S2 changes what must stand, one of CCFG does not. -/
theorem witness_busy_records :
    (let s := placing { launched false 4 with saved := [savedBlock] };
      s.busy 0 = true ∧ (let old := (s.func 0).record;
        byteField (keepFields (setBytes old 24 [7]) funcFields : BitVec 2560) 24 64 ≠ byteField old 24 64
        ∧ (let new : BitVec 2560 := keepFields (setBytes old 32 [7]) funcFields;
          byteField new 24 64 = byteField old 24 64 ∧ byteField new 20 8 = byteField old 20 8 ∧ byteField new 160 256 = byteField old 160 256
          ∧ s.netsTaken 0 { s.func 0 with record := new } (s.func 0) = false)))
    ∧ cleanLine.print = none := by decide +kernel

/-! ### Well-formedness: a term for each check, which the check refuses (05_encoding R55, R56, R61, and the entries' own limits) -/

def illFormed : List Instr := [
  .nop ⟨true, 0⟩, .gox G (.q 1), .callx G .none 1, .wantc G (.q 1) 0, .prefiIc G (.v 1) 0, .pini G (.v 1) 0, .unpini G (.v 1) 0,
  .movs G (.s 0) .lid, .movs G (.v 1) .clk, .mov G .b32 (.s 1) (.v 1), .mov G .b32 (.s 1) (.q 1), .mov G .i64 (.v 1) (.v 2), .mov G .f32 (.v 1) (.v 2),
  .movi G .i64 (.v 1) 0, .movi G .word (.q 1) 0, .movh G (.v 1) (.s 0) 0,
  .iadd G .b32 false (.v 1) (.v 2) (.v 3), .iadd G .i32 false (.s 1) (.v 2) (.s 3), .isub G .i64 false (.v 2) (.v 4) (.v 5), .imul G .f32 false (.v 1) (.v 2) (.v 3),
  .imin G .b32 (.v 1) (.v 2) (.v 3), .imax G .i64 (.v 1) (.v 2) (.v 4), .iadd3 G .i64 false (.v 2) (.v 4) (.v 6) (.v 9), .imad G .e2m1 false (.v 1) (.v 2) (.v 3) (.v 4),
  .addc G (.s 1) (.s 2) (.s 3) 1, .subb G (.v 1) (.q 1) (.v 3) 1, .imulh G .n8 (.v 1) (.v 2) (.v 3), .iabs G .n32 false (.v 1) (.v 2), .ineg G .n64 false (.v 2) (.v 4),
  .and G .n32 (.v 1) (.v 2) (.v 3), .or G .n64 (.q 1) (.q 2) (.q 3), .xor G .b32 (.q 1) (.v 2) (.q 3), .andn G .b32 (.s 1) (.v 2) (.s 3),
  .shl G .n8 (.v 1) (.v 2) (.v 3), .shr G .i32 (.v 1) (.v 2) (.v 3), .sar G .n32 (.v 1) (.v 2) (.v 3), .rot G .n32 (.v 1) (.v 2) (.v 3),
  .bfx G .b32 (.v 1) (.v 2) (.v 3), .bfi G .n32 (.v 1) (.v 2) (.v 3) (.v 4), .popc G .i32 (.v 1) (.v 2), .clz G .n64 (.v 1) (.v 3), .ctz G .n32 (.v 1) (.v 2),
  .brev G .n64 (.v 1) (.v 2), .icmp G .b32 .lt .none 1 (.v 1) (.v 2) .none, .icmp G .i32 .lt .and 1 (.v 1) (.v 2) .none, .icmp G .i32 .lt .none 1 (.v 1) (.v 2) (.q 1),
  .isel G .b32 (.s 1) (.s 2) (.s 3) 1, .isel G .n32 (.v 1) (.v 2) (.v 3) 1, .lea G .i64 0 (.v 2) (.v 4) (.v 6), .lea G .i32 0 (.v 1) (.v 4) (.v 6),
  .idot4 G .i16 false false (.v 1) (.v 2) (.v 3) (.v 4), .got G (.q 1) 0 1 0, .got G (.v 1) 0 0 0,
  .fadd G .e4m3 .rne false false false (.v 1) (.v 2) (.v 3), .fsub G .f32 .rne false true false (.v 1) (.v 2) (.v 3), .fmul G .f16 .rne false false false (.s 1) (.v 2) (.v 3),
  .ffma G .i32 .rne false false false (.v 1) (.v 2) (.v 3) (.v 4), .fmin G .f32 true false (.v 1) (.v 2) (.v 3), .fmax G .e2m1 false false (.v 1) (.v 2) (.v 3),
  .fcmp G .e5m2 .lt .none false 1 (.v 1) (.v 2) .none, .fclass G .i32 (.v 1) (.v 2), .frcp G .e4m3 .rne false false (.v 1) (.v 2), .fsqrt G .f32 .rne false false (.q 1) (.v 2),
  .frsq G .e4m3 false false (.v 1) (.v 2), .fexp2 G .i32 false false (.v 1) (.v 2), .flog2 G .f32 false false (.s 1) (.v 2), .fsin G .b32 false false (.v 1) (.v 2),
  .fcos G .n8 false false (.v 1) (.v 2), .ftanh G .e2m1 false false (.v 1) (.v 2), .fscale G .e4m3 .rne false false (.v 1) (.v 2) (.v 3), .frnd G .i32 .rne false (.v 1) (.v 2),
  .fdot2 G .f32 .rne false false (.v 1) (.v 2) (.v 3) (.v 4), .cvt G .b32 .f32 .rne false false (.v 1) (.v 2) .none, .cvt G .i32 .f32 .rne true false (.v 1) (.v 2) .none,
  .cvt G .i16 .i32 .rtz false false (.v 1) (.v 2) .none, .cvt G .f32 .e2m1 .rne true false (.v 1) (.v 2) (.s 1), .cvt G .f32 .f16 .rne false false (.v 1) (.v 2) (.s 1),
  .pack G .f32 .f32 .rne false false 0 (.v 1) (.v 2) (.v 3) (.v 4), .pack G .e4m3 .f32 .rne false false 2 (.v 1) (.v 2) (.v 3) (.v 4),
  .pack G .f16 .f32 .rne false false 0 (.v 1) (.v 2) (.v 3) (.v 4), .pack G .e4m3 .e2m1 .rne false false 0 (.v 1) (.v 2) (.v 3) (.v 4),
  .unpack G .f32 .f32 .rne false false 0 (.v 1) (.v 2) .none, .unpack G .f32 .e4m3 .rne false false 4 (.v 1) (.v 2) .none, .unpack G .i64 .i8 .rne false false 0 (.v 2) (.v 2) .none,
  .vote G .all (.v 1) 1, .ballot G (.s 2) 1, .shfl G .idx .b32 (.s 1) (.v 2) (.v 3), .shfl G .idx .n32 (.v 1) (.v 2) (.v 3), .scan G .add .f32 .rst false false false (.v 1) (.v 2),
  .scan G .max .i32 .rne true false false (.v 1) (.v 2), .scan G .and .n32 .rne false false false (.v 1) (.v 2), .reduce G .add .i32 .rne false true (.v 1) (.v 2),
  .matchI G .n32 (.v 1) (.v 2) (.q 1), .matchI G .b32 (.s 1) (.v 2) (.q 1), .isect G .i8 1 (.v 2) (.v 1) (.v 3) (.s 2), .isect G .i32 1 (.v 3) (.v 1) (.v 3) (.s 2),
  .isect G .i32 1 (.v 2) (.v 1) (.v 3) (.s 3), .regroup 1 (.v 1) (.v 2) 0, .regroup 1 (.s 1) (.s 2) 0, .qnt G .f16 .rne false false false (.v 2) (.v 1) (.s 2),
  .qnt G .e4m3 .rne false true false (.v 2) (.v 1) (.s 2), .take G true (.v 4) (.s 2) .none, .take G false (.v 5) (.s 2) .none, .netcnt G (.s 3) (.s 2),
  .ld G .i64 .none false (.v 1) ⟨.s 0, .none, 0⟩, .ld G .b128 .none false (.v 2) ⟨.s 0, .none, 0⟩, .ld G .i32 .none false (.v 1) ⟨.s 1, .none, 0⟩,
  .ld G .i32 .none false (.s 1) ⟨.v 0, .none, 0⟩, .st G .i32 .none (.q 1) ⟨.s 0, .none, 0⟩, .lds G .i32 (.v 1) ⟨.q 1, .none, 0⟩, .sts G .n64 (.v 1) ⟨.s 0, .none, 0⟩,
  .ldp G .i32 (.s 1) ⟨.v 0, .none, 0⟩, .stp G .b128 (.v 1) ⟨.s 0, .none, 0⟩, .ldl G .i64 .none (.v 1) ⟨.s 0, .none, 0⟩, .stl G .i32 .none (.v 1) ⟨.s 0, .q 1, 0⟩,
  .atom G .add .b32 .sp (.v 1) ⟨.s 0, .none, 0⟩, .atom G .fadd .i32 .sp (.v 1) ⟨.s 0, .none, 0⟩, .atom G .add .i32 .global (.v 1) ⟨.s 1, .none, 0⟩,
  .cas G .f32 .sp (.v 2) ⟨.s 0, .none, 0⟩, .cas G .n32 .sp (.v 1) ⟨.s 0, .none, 0⟩, .cas G .n64 .sp (.v 2) ⟨.s 0, .none, 0⟩, .red G .exch .i32 .sp (.v 1) ⟨.s 0, .none, 0⟩,
  .waitc G .lt .b32 (.v 1) ⟨.s 0, .none, 0⟩, .waitc G .eq .i8 (.v 1) ⟨.s 0, .none, 0⟩, .pref G true .none ⟨.s 1, .none, 0⟩, .sfence G (.v 1) .none,
  .awinit G (.q 1) ⟨.s 0, .none, 0⟩, .arrive G .none ⟨.s 0, .none, 0⟩, .await G (.v 1) ⟨.q 0, .none, 0⟩, .mdesc G true .e2m1 0 0 (.s 2) .none,
  .mdesc G false .bf16 0 0 (.s 2) (.s 3), .mdesc G true .f16 0 0 (.s 3) .none, .mwrite G true 0 (.q 1) (.v 1) (.v 2), .mloop G .s1x1 0 0 0 0 0 0, .mwait G true 1,
  .mread G true 0 (.v 1) (.v 2) (.v 3), .mstat G (.s 1), .mstatLog G (.s 2) (.v 1), .mstatExp G 0 (.v 2), .cgather G ⟨0, 31, 0, 64⟩ (.s 1) (.s 0) (.s 2) (.s 3),
  .cscatter G ⟨0, 31, 1, 64⟩ (.s 1) (.s 1) (.s 2) (.s 3), .cscatadd G .f16 ⟨0, 31, 1, 64⟩ (.s 1) (.s 0) (.s 2) (.s 3), .cscatadd G .i64 ⟨0, 3, 1, 64⟩ (.s 1) (.s 0) (.s 2) (.s 3),
  .ccopy G .s2g true ⟨0, 63, 3, 0, 0⟩ (.s 2) (.s 1) (.s 3), .ccopy G .g2s false ⟨0, 63, 3, 0, 0⟩ (.s 2) (.s 1) (.s 3), .cfill G false ⟨0, 63, 3, 1, 0⟩ (.s 2) (.s 1) (.s 3),
  .cfill G true ⟨1, 63, 3, 0, 0⟩ (.s 2) (.s 1) (.s 3), .cstat G (.s 1), .cstatClr G (.v 2), .xgrp G 0 (.s 1), .xgather G 0 0 0 (.s 2), .xa2a G 0 0 64 (.s 1),
  .xrscat G .f16 0 0 64 (.s 2), .xrscat G .f32 0 0 2 (.s 2), .rsplit G false (.s 1) (.s 2) (.s 3) (.s 4), .rmerge G (.v 1) (.s 2) (.s 4), .rinval G true (.s 1) (.s 2) .none,
  .rinval G false (.s 1) (.s 2) .none, .rprobe G (.s 4) (.s 1) (.s 2) 1, .rprobeS2 G (.s 8) (.s 1) (.s 3) 1, .rcompact G (.s 1) (.s 2) (.s 4) (.s 5), .netsave G (.s 1) (.s 2) (.s 3),
  .netload G (.s 1) (.v 2) (.s 4), .netdrain G (.v 1), .netreset G .none, .hinfo G false (.v 1), .hget G (.s 1) (.v 1), .hget G (.v 1) (.sp .clk), .hput G (.sp .cbase) (.v 1),
  .hput G (.v 1) (.q 1), .launch G (.s 1) (.s 2) (.s 4), .cntcfg G (.s 1) (.s 2) (.s 3) (.v 1), .cntrd G (.s 1) (.s 2), .sealset G (.s 1) (.s 2) (.s 3),
  .unassignedMajor 0x1300000000000000]

theorem test_ill_formed : (illFormed.all fun i => !i.wf) = true := by decide +kernel

/-- And the instructions of the words above are well formed. -/
theorem test_well_formed : ((controlWords ++ integerWords ++ floatWords ++ crewWords ++ memoryWords ++ engineWords ++ systemWords).all fun x =>
    x.2.2.wf) = true := by decide +kernel

/-! ### Results that the spec states: its worked runs (06_control_integer, 08_float_convert), its tables of roundings (07 R118), draws
(R119, R120), tree sums (R122), intersections (14 R227) and quantised blocks (15 R248) -/

/-- The crew after a word is stepped in two lanes, with these scalar registers and, in lane order, these lanes' registers from v0. -/
def ran (w : DWord) (ss : List Word) (vs : List (List Word)) : Crew :=
  let s := block (fun b => { b with crews := b.crews.map fun c => { c with
    s := ss ++ c.s.drop ss.length
    lanes := vs.map fun x => let l := c.lanes.headD (Lane.blank 128); { l with v := x ++ l.v.drop x.length } } }) (State.reset.withFetchWord 64 w.toNat)
  match step s with
  | .next t => ((t.crew? 0 0).map (·.2)).getD Crew.blank
  | _ => Crew.blank

/-- A vector register of every lane, and a predicate. -/
def vreg (c : Crew) (n : Nat) : List Word := c.lanes.map fun l => regAt l.v n
def preds (c : Crew) (n : BitVec 3) : List Bool := c.lanes.map fun l => l.pred n

def intScalars : List Word := [0xFFFFFFFF, 7, 1, 0x80000000, 40, 0x0000081C]

theorem test_worked_carry : vreg (ran 0x1600028082C35000 intScalars [[0], [1]]) 2 = [0, 0] ∧ preds (ran 0x1600028082C35000 intScalars [[0], [1]]) 3 = [true, true]
    ∧ vreg (ran 0x1600038100C35000 intScalars [[0], [1]]) 3 = [7, 8] ∧ preds (ran 0x1600038100C35000 intScalars [[0], [1]]) 3 = [false, false] := by decide +kernel

theorem test_worked_multiply : vreg (ran 0x1900048080FF5000 intScalars [[], []]) 4 = [0xFFFFFFFE, 0xFFFFFFFE]
    ∧ vreg (ran 0x1800058080FF5000 intScalars [[], []]) 5 = [1, 1] ∧ vreg (ran 0x1800068080FF5100 intScalars [[], []]) 6 = [0xFFFFFFFF, 0xFFFFFFFF] := by decide +kernel

theorem test_worked_fields : vreg (ran 0x2500078384FF4000 intScalars [[]]) 7 = [0xFFFFFFFF] ∧ vreg (ran 0x2700088085FF4000 intScalars [[]]) 8 = [0xFFFFFFFF]
    ∧ vreg (ran 0x27000A8085FF5000 intScalars [[]]) 10 = [0xF] ∧ vreg (ran 0x29100900FFFFE000 intScalars [[0], [1]]) 9 = [32, 31]
    ∧ (ran 0x0A008AFF00000001 intScalars [[0], [1]]).s[10]? = some 2 := by decide +kernel

def floatScalars : List Word := [0x3F800001, 0xBF800002, 0x7F800001, 0x40200000, 0x80405400, 8, 0x3F000000]

theorem test_worked_float : vreg (ran 0x3200018080FFA000 floatScalars [[]]) 1 = [0x3F800002] ∧ vreg (ran 0x3000020181FFA000 floatScalars [[0, 0x3F800002]]) 2 = [0]
    ∧ vreg (ran 0x330003808081A000 floatScalars [[]]) 3 = [0x28800000] ∧ vreg (ran 0x3400048283FFA000 floatScalars [[]]) 4 = [0x40200000]
    ∧ vreg (ran 0x3000058283FFA000 floatScalars [[]]) 5 = [0x7FC00000] := by decide +kernel

theorem test_worked_convert : vreg (ran 0x43000683FFFFD0A0 floatScalars [[]]) 6 = [4] ∧ vreg (ran 0x43000783FFFFD8A0 floatScalars [[]]) 7 = [5]
    ∧ vreg (ran 0x4300088584FFA0D0 floatScalars [[]]) 8 = [0x41F00000] ∧ vreg (ran 0x43000985FFFFA0D0 floatScalars [[]]) 9 = [0x80000000]
    ∧ vreg (ran 0x3D000A86FFFFA000 floatScalars [[]]) 10 = [0x3F800000]
    ∧ vreg (ran 0x44000B8308FF90A0 floatScalars [[0, 0, 0, 0, 0, 0, 0, 0, 0x41F00000]]) 11 = [0x41F04020] := by decide +kernel

/-- A conversion from f32 in the modes rne, rna, rtz, rdn and rup. -/
def roundings (t : Ty) (sat ftz : Bool) (x : DWord) : List Nat :=
  [Rm.rne, .rna, .rtz, .rdn, .rup].map fun rm => (convert t .f32 rm sat ftz x 1).1.toNat

theorem test_roundings : roundings .e2m1 false false 0x3E99999A = [1, 1, 0, 0, 1] ∧ roundings .e2m1 false false 0x40200000 = [4, 5, 4, 4, 5]
    ∧ roundings .e2m1 false false 0xC0A00000 = [14, 15, 14, 15, 14] ∧ roundings .e2m1 false false 0x40E00000 = [7, 7, 7, 7, 7]
    ∧ roundings .e4m3 false false 0x43E08000 = [0x7F, 0x7F, 0x7E, 0x7E, 0x7F] ∧ roundings .e4m3 true false 0x43E08000 = [0x7E, 0x7E, 0x7E, 0x7E, 0x7E]
    ∧ roundings .e4m3 false false 0xC3E08000 = [0x7F, 0x7F, 0xFE, 0x7F, 0xFE] ∧ roundings .e4m3 false false 0x3A83126F = [1, 1, 0, 0, 1]
    ∧ roundings .e4m3 false true 0x3A83126F = [0, 0, 0, 0, 0] ∧ roundings .f16 false false 0x477FF000 = [0x7C00, 0x7C00, 0x7BFF, 0x7BFF, 0x7C00]
    ∧ ([Rm.rne, .rna, .rtz, .rdn, .rup].map fun rm => (convert .f32 .n32 rm false false 0x1000001 1).1.toNat)
      = [0x4B800000, 0x4B800001, 0x4B800000, 0x4B800000, 0x4B800001] := by decide +kernel

/-- The first draws of lanes 0 to 2 under seed 5 (R119, R120). -/
theorem test_draws : [0, 1, 2].map (fun o => rngSeed 5 o) = [0x5, 0x9E3779B4, 0x3C6EF367] ∧ [0, 1, 2].map (fun o => rngSeed 0x0000000100000004 o) = [0x5, 0x9E3779B4, 0x3C6EF367]
    ∧ [0x5, 0x9E3779B4, 0x3C6EF367].map (fun s => (convert .e2m1 .f32 .rst false false 0x40200000 s).1) = [4, 4, 5] := by decide +kernel

/-- Four lanes with 1, 2^24, 1 and -2^24, summed by SCAN and REDUCE under rne (R122). -/
theorem test_tree_sums : vreg (ran 0x53000201FFFFA000 [] [[0, 0x3F800000], [0, 0x4B800000], [0, 0x3F800000], [0, 0xCB800000]]) 2
      = [0x3F800000, 0x4B800000, 0x4B800000, 0x3F800000]
    ∧ vreg (ran 0x54000201FFFFA000 [] [[0, 0x3F800000], [0, 0x4B800000], [0, 0x3F800000], [0, 0xCB800000]]) 2 = List.replicate 4 0x3F800000 := by decide +kernel

/-- The block of 15_crew_instructions quantised two ways: codes of lanes 0 to 4 and the scale words. -/
def quantised : List (List Word) :=
  [0x3F666666, 0xC0266666, 0x3DCCCCCD, 0x42200000].map (fun x => [0, x]) ++ List.replicate 60 [0, 0]

theorem test_quantise_fine : (let c := ran 0x58000201FF90D006 [] quantised;
    (vreg c 2).take 5 = [2 + 2, 15, 0, 8, 0] ∧ c.s[16]? = some 0x7DBC6C00 ∧ c.s[17]? = some 0) := by decide +kernel

theorem test_quantise_pow2 : (let c := ran 0x58000301FF92D004 [] quantised;
    (vreg c 3).take 5 = [4, 15, 0, 8, 0] ∧ c.s[18]? = some 0x7E006A00) := by decide +kernel

end Sys2Proof.Tests
end

