-- ==== Sys2Proof/Proofs/ArrivalWords.lean ====
section
/-! Arrival words (12_memory_instructions R207 to R209): the fields of the word an addition makes, what one move that stores to a
scratchpad does to the block, and the obligation about them. -/

namespace Sys2Proof.Proofs

open Sys2Proof.Machine Sys2Proof.Laws

/-! ### The fields of an arrival word (R207) -/

section Fields
variable (gen : BitVec 16) (target count : BitVec 24)

theorem count_of_append : bits (gen ++ target ++ count : DWord) 0 24 = count :=
  (bits_append_low (gen ++ target) count 0 24 (by decide)).trans (bits_all count)

theorem target_of_append : bits (gen ++ target ++ count : DWord) 24 24 = target :=
  calc bits (gen ++ target ++ count : DWord) 24 24
    _ = bits (gen ++ target) 0 24 := bits_append_high (gen ++ target) count 24 24 (by decide)
    _ = bits target 0 24 := bits_append_low gen target 0 24 (by decide)
    _ = target := bits_all target

theorem gen_of_append : bits (gen ++ target ++ count : DWord) 48 16 = gen :=
  calc bits (gen ++ target ++ count : DWord) 48 16
    _ = bits (gen ++ target) 24 16 := bits_append_high (gen ++ target) count 48 16 (by decide)
    _ = bits gen 0 16 := bits_append_high gen target 24 16 (by decide)
    _ = gen := bits_all gen

end Fields

/-! ### The addition (R208) -/

theorem arrivalAdd_of_reached {w : DWord} {n : Nat} (h : (bits w 24 24).toNat ≤ (bits w 0 24).toNat + n) :
    arrivalAdd w n = (bits w 48 16 + 1) ++ bits w 24 24 ++ (0 : BitVec 24) := if_pos h

theorem arrivalAdd_of_below {w : DWord} {n : Nat} (h : (bits w 0 24).toNat + n < (bits w 24 24).toNat) :
    arrivalAdd w n = bits w 48 16 ++ bits w 24 24 ++ BitVec.ofNat 24 ((bits w 0 24).toNat + n) := if_neg (Nat.not_le.mpr h)

/-- An addition that reaches the target starts the next generation at count zero. -/
theorem arrivalAdd_fields_of_reached {w : DWord} {n : Nat} (h : (bits w 24 24).toNat ≤ (bits w 0 24).toNat + n) :
    bits (arrivalAdd w n) 0 24 = 0 ∧ bits (arrivalAdd w n) 24 24 = bits w 24 24
      ∧ bits (arrivalAdd w n) 48 16 = bits w 48 16 + 1 := by
  rw [arrivalAdd_of_reached h]
  exact ⟨count_of_append .., target_of_append .., gen_of_append ..⟩

/-- An addition below the target counts, without wrapping, since the target has the count's width. -/
theorem arrivalAdd_fields_of_below {w : DWord} {n : Nat} (h : (bits w 0 24).toNat + n < (bits w 24 24).toNat) :
    (bits (arrivalAdd w n) 0 24).toNat = (bits w 0 24).toNat + n ∧ bits (arrivalAdd w n) 24 24 = bits w 24 24
      ∧ bits (arrivalAdd w n) 48 16 = bits w 48 16 := by
  have hfits : (bits w 0 24).toNat + n < 2 ^ 24 := h.trans (bits w 24 24).isLt
  rw [arrivalAdd_of_below h]
  refine ⟨?_, target_of_append .., gen_of_append ..⟩
  rw [count_of_append, BitVec.toNat_ofNat, Nat.mod_eq_of_lt hfits]

/-- The word AWINIT writes: generation and count zero, and the target (R207). -/
def initWord (target : BitVec 24) : DWord := (0 : BitVec 16) ++ target ++ (0 : BitVec 24)

theorem initWord_toNat (target : BitVec 24) : (initWord target).toNat = target.toNat * 2 ^ 24 :=
  calc (initWord target).toNat
    _ = ((0 : BitVec 16) ++ target).toNat <<< 24 ||| (0 : BitVec 24).toNat := BitVec.toNat_append ((0 : BitVec 16) ++ target) 0
    _ = target.toNat * 2 ^ 24 := by rw [BitVec.toNat_append]; simp [Nat.shiftLeft_eq]

theorem initWord_fields (target : BitVec 24) :
    bits (initWord target) 0 24 = 0 ∧ bits (initWord target) 24 24 = target ∧ bits (initWord target) 48 16 = 0 :=
  ⟨count_of_append .., target_of_append .., gen_of_append ..⟩

/-! ### A scratchpad after one move that stores to it -/

/-- The block after a store has the bytes written, as any later read of its scratchpad finds them, and every other byte as before. -/
theorem scratchStore_block {s : State} {u : Nat} {b : Block} (a : Nat) (bs : List Byte) (hb : s.block? u = some b)
    (hw : memWf b.scratch = true) : ∃ b', (s.scratchStore u a bs).block? u = some b' ∧ b'.scratchBytes a bs.length = bs
      ∧ memWf b'.scratch = true ∧ ∀ y, y < a ∨ a + bs.length ≤ y → memRead b'.scratch y = memRead b.scratch y := by
  obtain ⟨-, -, hscratch⟩ := noteSp_keeps b a bs.length
  have hnew : (((b.noteSp a bs.length).scratchWrite a bs).wakeAwait).scratch = memWrites b.scratch (cellsOf a bs) :=
    congrArg (memWrites · (cellsOf a bs)) hscratch
  refine ⟨_, modBlock_at (fun b => (noteSp_keeps b a bs.length).1) hb, ?_, ?_, fun y hy => ?_⟩
  · rw [Block.scratchBytes, hnew, memBytes_memWrites hw]
  · rw [hnew]; exact memWf_memWrites hw
  · rw [hnew, memRead_memWrites y _ hw, find_cellsOf_none a bs y hy]; rfl

/-- A store of one 64-bit word: the word read back is the one written. -/
theorem scratchStore_word {s : State} {u : Nat} {b : Block} (a : Nat) (w : DWord) (hb : s.block? u = some b)
    (hw : memWf b.scratch = true) : ∃ b', (s.scratchStore u a (leBytes 8 w.toNat)).block? u = some b'
      ∧ b'.scratchWord a = w ∧ memWf b'.scratch = true
      ∧ ∀ y, y < a ∨ a + 8 ≤ y → memRead b'.scratch y = memRead b.scratch y := by
  obtain ⟨b', hb', hbytes, hw', hframe⟩ := scratchStore_block a (leBytes 8 w.toNat) hb hw
  rw [leBytes_len] at hbytes hframe
  refine ⟨b', hb', ?_, hw', hframe⟩
  rw [Block.scratchWord, hbytes, leNat_leBytes, Nat.mod_eq_of_lt (show w.toNat < 256 ^ 8 from w.isLt), BitVec.ofNat_toNat, BitVec.setWidth_eq]

/-! ### ARRIVE, AWINIT and AWAIT perform (R183, R184, R207 to R209) -/

section Perform
variable {s : State} {k : Ctx} {o : Op} {b : Block} {a : Nat} {gen : BitVec 16}

/-- An ARRIVE, or an engine's marker, replaces the word by what the addition makes of it, and no other byte. -/
theorem arriveAt_word {u : Nat} (a n : Nat) (hb : s.block? u = some b) (hw : memWf b.scratch = true) :
    ∃ b', (s.arriveAt u a n).block? u = some b' ∧ b'.scratchWord a = arrivalAdd (b.scratchWord a) n ∧ memWf b'.scratch = true
      ∧ ∀ y, y < a ∨ a + 8 ≤ y → memRead b'.scratch y = memRead b.scratch y := by
  have harrive : s.arriveAt u a n = s.scratchStore u a (leBytes 8 (arrivalAdd (b.scratchWord a) n).toNat) := by
    rw [State.arriveAt, hb]
  rw [harrive]
  exact scratchStore_word a _ hb hw

theorem performOp_arrive {n : BitVec 24} (ho : o.what = .arrive a n) (picks : List Nat) :
    s.performOp k o picks = s.arriveAt k.b.uid a n.toNat := by
  simp only [State.performOp, ho]

theorem performOp_awinit {target : BitVec 24} (ho : o.what = .awinit a target) (picks : List Nat) :
    s.performOp k o picks = s.scratchStore k.b.uid a (leBytes 8 (target.toNat * 2 ^ 24)) := by
  simp only [State.performOp, ho]

theorem awinit_word {target : BitVec 24} (ho : o.what = .awinit a target) (picks : List Nat)
    (hb : s.block? k.b.uid = some b) (hw : memWf b.scratch = true) :
    ∃ b', (s.performOp k o picks).block? k.b.uid = some b' ∧ bits (b'.scratchWord a) 0 24 = 0
      ∧ bits (b'.scratchWord a) 24 24 = target ∧ bits (b'.scratchWord a) 48 16 = 0 ∧ memWf b'.scratch = true
      ∧ ∀ y, y < a ∨ a + 8 ≤ y → memRead b'.scratch y = memRead b.scratch y := by
  obtain ⟨b', hb', hword, hw', hframe⟩ := scratchStore_word a (initWord target) hb hw
  obtain ⟨hcount, htarget, hgen⟩ := initWord_fields target
  rw [initWord_toNat, ← performOp_awinit ho picks] at hb'
  exact ⟨b', hb', hword ▸ hcount, hword ▸ htarget, hword ▸ hgen, hw', hframe⟩

theorem performAwait_of_left (hb : s.block? k.b.uid = some b) (h : b.genAt a ≠ gen) : s.performAwait k o a gen = s := by
  simp [State.performAwait, State.blockOf, hb, h]

theorem performAwait_of_named (hb : s.block? k.b.uid = some b) (h : b.genAt a = gen) :
    s.performAwait k o a gen = s.parkAfter k o.lane 1 (.await a gen) := by
  simp [State.performAwait, State.blockOf, hb, h]

/-- The lanes of an eighth perform an AWAIT one after another, each by its own word. -/
theorem performEighth_await_cons (ho : o.what = .await a gen) {p : Op} {a' : Nat} {gen' : BitVec 16}
    (hp : p.what = .await a' gen') (os : List Op) :
    s.performEighth k o (p :: os) = (s.performAwait k p a' gen').performEighth k o os := by
  simp only [State.performEighth, ho, List.foldl_cons, hp]

theorem performEighth_await_nil (ho : o.what = .await a gen) : s.performEighth k o [] = s := by
  simp only [State.performEighth, ho, List.foldl_nil]

theorem performEighth_await_one (ho : o.what = .await a gen) {p : Op} {a' : Nat} {gen' : BitVec 16}
    (hp : p.what = .await a' gen') : s.performEighth k o [p] = s.performAwait k p a' gen' := by
  rw [performEighth_await_cons ho hp, performEighth_await_nil ho]

end Perform

/-- Settles O29: the fields of the word an addition makes give R208, the rule for one store to a scratchpad gives the rest of the
scratchpad after ARRIVE and AWINIT, and an eighth's AWAITs are a fold of the lanes' own. -/
theorem arrivalWords : Obligations.ArrivalWords := by
  unfold Obligations.ArrivalWords
  refine ⟨fun w n h => arrivalAdd_fields_of_reached h, fun w n h => arrivalAdd_fields_of_below h,
    fun s k o a n picks ho => performOp_arrive ho picks, fun s u a n b hb hw => arriveAt_word a n hb hw,
    fun s k o a x picks b ho hb hw => awinit_word ho picks hb hw,
    fun s k o a gen p a' gen' b ho hp hb => ⟨fun h => ?_, fun h => ?_, fun os => ?_⟩⟩
  · rw [performEighth_await_one ho hp, performAwait_of_left hb h]
  · rw [performEighth_await_one ho hp, performAwait_of_named hb h]
  · rw [performEighth_await_cons ho hp, performEighth_await_one ho hp]

end Sys2Proof.Proofs
end

