-- ==== Sys2Proof/Proofs/CrewInstructions.lean ====
section
/-! Votes, ballots, shuffles, matches, scans and reductions (07_number_formats R121, R122; 15_crew_instructions R239 to R244): what
each computes from the lanes that take part, and the obligation about them. -/

namespace Sys2Proof.Proofs

open Sys2Proof.Machine Sys2Proof.Laws

/-! ### Two more forms in which register instructions act (R56, R92) -/

/-- An effect on the issuing crew's scalar registers, once for the crew where some lane takes part (R56). -/
theorem issue_once_modCur {i : Instr} {g : Guard} {f : Crew → Crew} {s : State} {k : Ctx} (h : Issues s k i) {sregs : List Word}
    (hf : f (k.begun s i) = { k.begun s i with s := sregs }) :
    ∃ t, issue i (once g fun k s => s.modCur k f) s = .next t
      ∧ CrewStep s t k i k.c.lanes (if (k.c.takers g).isEmpty then k.c.s else sregs) := by
  by_cases he : (k.c.takers g).isEmpty = true
  · have hnone : once g (fun k s => s.modCur k f) k (s.begun k i) = (s.begun k i).modCur k id := by
      rw [once, if_pos he]
      exact (modCrew_id _ _ _ fun _ => rfl).symm
    rw [if_pos he]
    exact issue_crew h hnone (issuing_eq h.now).2.2.1
  · have hsome : once g (fun k s => s.modCur k f) k (s.begun k i) = (s.begun k i).modCur k f := by
      rw [once, if_neg he]
    have hseq : (f (k.begun s i)).seq = .visit k.lab k.pc := by rw [hf]; exact (issuing_eq h.now).2.2.1
    obtain ⟨t, ht, hc⟩ := issue_crew h hsome hseq
    rw [hf] at hc
    rw [if_neg he]
    exact ⟨t, ht, hc⟩

/-- The rule for instructions that act lane by lane, where the model writes the lane's change in another form than the statement. -/
theorem eachLane_result_of {i : Instr} {f f' : Crew → Nat → Lane → Lane}
    (hi : ∀ s, exec i s = issue i (fun k s => s.modCur k fun c => c.eachLane i.guard (f c)) s)
    (hf : ∀ (k : Ctx) s j l, f (k.begun s i) j l = f k.c j l) (he : ∀ c j l, f c j l = f' c j l) : LaneResult i f' := by
  obtain rfl : f = f' := funext₃ he
  exact eachLane_result hi hf

/-! ### Votes and ballots (R239, R240) -/

/-- A vote over the participants' predicates, by its mode. -/
theorem voteMode_eval_map {α : Type} (m : VoteMode) (ps : List α) (f : α → Bool) :
    VoteMode.eval m (ps.map f) = match m with
      | .all => ps.all f
      | .any => ps.any f
      | .uni => ps.all f || ps.all fun p => !f p := by
  cases m <;> simp [VoteMode.eval, List.all_map, List.any_map, Function.comp_def]

/-- A bit of a mask to which the slots of a list are added, those whose predicate is true. -/
theorem getLsbD_foldl_slots (q : BitVec 3) {j : Nat} (hj : j < 128) : ∀ (ps : List (Nat × Lane)) (m : BitVec 128),
    (ps.foldl (fun m p => if p.2.pred q then m ||| ((1 : BitVec 128) <<< p.1) else m) m).getLsbD j = true
      ↔ m.getLsbD j = true ∨ ∃ l, (j, l) ∈ ps ∧ l.pred q = true
  | [], m => by simp
  | (i, x) :: ps, m => by
    have hbit : ((1 : BitVec 128) <<< i).getLsbD j = true ↔ j = i := by
      rw [BitVec.ofNat_eq_ofNat, BitVec.getLsbD_shiftLeft, BitVec.getLsbD_one]
      simp only [hj, decide_true, Bool.true_and, Bool.and_eq_true, Bool.not_eq_true', decide_eq_false_iff_not, decide_eq_true_eq]
      omega
    have hhead : (∃ l, (j, l) ∈ (i, x) :: ps ∧ l.pred q = true)
        ↔ (j = i ∧ x.pred q = true) ∨ ∃ l, (j, l) ∈ ps ∧ l.pred q = true := by
      simp only [List.mem_cons, Prod.mk.injEq, or_and_right, exists_or, and_assoc, exists_and_left, exists_eq_left]
    rw [List.foldl_cons, getLsbD_foldl_slots q hj ps, hhead]
    by_cases hq : x.pred q = true
    · simp only [hq, if_true, BitVec.getLsbD_or, Bool.or_eq_true, hbit, and_true, or_assoc]
    · simp only [hq, if_false, Bool.false_eq_true, and_false, false_or]

theorem getLsbD_ballot (c : Crew) (g : Guard) (q : BitVec 3) {j : Nat} (hj : j < 128) :
    (c.ballot g q).getLsbD j = true ↔ ∃ l, c.lanes[j]? = some l ∧ l.takes g = true ∧ l.pred q = true := by
  rw [Crew.ballot, getLsbD_foldl_slots q hj]
  simp only [mem_takers, and_assoc, BitVec.ofNat_eq_ofNat, BitVec.getLsbD_zero, Bool.false_eq_true, false_or]

@[simp] theorem plus_zero (r : Reg) : r.plus 0 = r := by
  cases r <;> simp [Reg.plus]

/-! ### Shuffles and matches (R241, R242) -/

/-- The participant in a slot that a shuffle names: none where the slot is negative, is not in the crew, or takes no part. -/
theorem find_takers_int (c : Crew) (g : Guard) (n : Int) :
    (if 0 ≤ n then (c.takers g).find? fun p => (p.1 : Int) == n else none) =
      match (if 0 ≤ n then c.lanes[n.toNat]? else none) with
      | some x => if x.takes g then some (n.toNat, x) else none
      | none => none := by
  by_cases hn : 0 ≤ n
  · obtain ⟨j, rfl⟩ := Int.eq_ofNat_of_zero_le hn
    have hp : (fun p : Nat × Lane => (p.1 : Int) == (j : Int)) = (·.1 == j) := by
      funext p
      simp
    simp only [hn, if_true, hp, Int.toNat_natCast]
    exact find_takers c g j
  · simp only [hn, if_false]

/-! ### Scans and reductions (R244) -/

theorem scanInt_add (t : Ty) (sat : Bool) {xs : List Int} (h : xs ≠ []) : scanInt .add t sat xs = putBits t (fitTo t sat xs.sum) := by
  obtain ⟨x, r, rfl⟩ := List.exists_cons_of_ne_nil h
  have hsum : r.foldl (· + ·) x = (x :: r).sum := by rw [List.sum_eq_foldl, List.foldl_cons, zero_add]
  rw [← hsum]
  rfl

theorem scanned_int (c : Crew) (g : Guard) (op : ScanOp) {t : Ty} (rm : Rm) (sat ftz : Bool) (a : Reg) (n : Nat) (ht : t.isFloat = false) :
    c.scanned g op t rm sat ftz a n
      = scanInt op t sat (((c.takers g).filter fun p => decide (p.1 < n)).map fun p => c.iv p.2 t a) := by
  simp only [Crew.scanned, ht, Bool.false_eq_true, if_false]

/-- Counting an instruction changes neither the lanes nor the registers that a scan reads. -/
theorem scanned_begun (k : Ctx) (s : State) (i : Instr) (g : Guard) (op : ScanOp) (t : Ty) (rm : Rm) (sat ftz : Bool) (a : Reg) (n : Nat) :
    (k.begun s i).scanned g op t rm sat ftz a n = k.c.scanned g op t rm sat ftz a n := rfl

/-! ### What each instruction does where it issues -/

theorem vote_result (g : Guard) (m : VoteMode) (d : Reg) (q : BitVec 3) : RegisterResult (.vote g m d q) false d fun c _ =>
    pureVal (if (match m with
      | .all => (c.takers g).all fun p => p.2.pred q
      | .any => (c.takers g).any fun p => p.2.pred q
      | .uni => (c.takers g).all (fun p => p.2.pred q) || (c.takers g).all fun p => !p.2.pred q) then 1 else 0) := by
  refine issueAlu_result (fun s => ?_) fun _ _ _ => rfl
  cases m <;> simp only [exec, execVote, voteMode_eval_map]

theorem ballot_step (g : Guard) (d : Reg) (q : BitVec 3) {s : State} {k : Ctx} (h : Issues s k (.ballot g d q)) :
    ∃ t, exec (.ballot g d q) s = .next t ∧ CrewStep s t k (.ballot g d q) k.c.lanes (if (k.c.takers g).isEmpty then k.c.s else
      ((((k.c.wrS d (bits (k.c.ballot g q) 0 32)).wrS (d.plus 1) (bits (k.c.ballot g q) 32 32)).wrS (d.plus 2)
        (bits (k.c.ballot g q) 64 32)).wrS (d.plus 3) (bits (k.c.ballot g q) 96 32)).s) := by
  refine issue_once_modCur h ?_
  have hrange : List.range 4 = [0, 1, 2, 3] := rfl
  simp only [hrange, List.foldl_cons, List.foldl_nil, plus_zero]
  cases d <;> rfl

theorem shfl_result (g : Guard) (m : ShflMode) (t : Ty) (d a b : Reg) : LaneResult (.shfl g m t d a b) fun c j l =>
    let n := ShflMode.slot m j (c.rd l b).toNat
    l.put t.is64 d (pureVal (match (if 0 ≤ n then c.lanes[n.toNat]? else none) with
      | some x => if x.takes g then c.rdT x t.is64 a else c.rdT l t.is64 a
      | none => c.rdT l t.is64 a)) := by
  refine eachLane_result_of (fun s => by simp only [exec, execShfl]; rfl) (fun _ _ _ _ => rfl) fun c j l => ?_
  simp only [find_takers_int]
  generalize (if 0 ≤ ShflMode.slot m j (c.rd l b).toNat then c.lanes[(ShflMode.slot m j (c.rd l b).toNat).toNat]? else none) = source
  cases source with
  | none => rfl
  | some x => by_cases hx : x.takes g = true <;> simp only [hx, if_true, if_false, Bool.false_eq_true]

theorem match_result (g : Guard) (t : Ty) (d a q : Reg) : LaneResult (.matchI g t d a q) fun c j l =>
    let n := ((c.takers g).find? fun p => c.rdT p.2 t.is64 a == c.rdT l t.is64 a).elim j (·.1)
    (l.wr d (BitVec.ofNat 32 n)).wr q (if n = j then 1 else 0) := by
  refine eachLane_result_of (fun s => by simp only [exec, execMatch]; rfl) (fun _ _ _ _ => rfl) fun c j l => ?_
  cases (c.takers g).find? fun p => c.rdT p.2 t.is64 a == c.rdT l t.is64 a <;> rfl

theorem scan_result (g : Guard) (op : ScanOp) (t : Ty) (rm : Rm) (sat excl ftz : Bool) (d a : Reg) :
    LaneResult (.scan g op t rm sat excl ftz d a) fun c j l =>
      l.put t.is64 d (pureVal (c.scanned g op t rm sat ftz a (if excl then j else j + 1))) :=
  eachLane_result (fun s => by simp only [exec, execScan]; rfl) fun _ _ _ _ => rfl

theorem reduce_result (g : Guard) (op : ScanOp) (t : Ty) (rm : Rm) (sat ftz : Bool) (d a : Reg) :
    RegisterResult (.reduce g op t rm sat ftz d a) t.is64 d fun c _ => pureVal (c.scanned g op t rm sat ftz a 128) :=
  issueAlu_result (fun _ => by simp only [exec, execReduce]) fun _ _ _ => congrArg pureVal (scanned_begun ..)

/-- Settles O17: each instruction issues in one of the forms of Laws/Issue, or in one of the two forms above; a ballot's bits are those of a fold over
the participants, and an integer scan is the exact fold of their operands. -/
theorem votesScansAndShuffles : Obligations.VotesScansAndShuffles := by
  unfold Obligations.VotesScansAndShuffles
  refine ⟨⟨vote_result, fun g d q _ _ h => ballot_step g d q h, fun c g q _ hj => getLsbD_ballot c g q hj, shfl_result, match_result⟩,
    scan_result, reduce_result,
    fun c g t rm sat ftz a n ht hne => ?_, fun c g op t rm sat ftz a n ht hnil => ?_⟩
  · rw [scanned_int c g .add rm sat ftz a n ht, scanInt_add t sat (mt List.map_eq_nil_iff.mp hne)]
  · rw [scanned_int c g op rm sat ftz a n ht, hnil]
    rfl

end Sys2Proof.Proofs
end

