-- ==== Sys2Proof/Proofs/MatrixCommands.lean ====
section
/-! The oldest matrix command of a block (17_engines R263, R264; 18_engine_instructions R291 to R294): what it does to the unit where it
executes or is refused, and the obligation about it. -/

namespace Sys2Proof.Proofs

open Sys2Proof.Machine Sys2Proof.Laws

/-! ### Commands that leave the unit (R263, R264) -/

/-- A command leaves with a tile set: the block holds that tile and no longer the command. -/
theorem setTile_mDone_block {s : State} {u : Nat} {b : Block} (t id : Nat) (x : Tile) (hb : s.block? u = some b) :
    ∃ b', ((s.modBlock u (·.setTile t x)).mDone u id).block? u = some b' ∧ b'.tiles = b.tiles.set t x
      ∧ b'.mcmds = b.mcmds.filter (·.id != id) := by
  obtain ⟨b', hb', htiles, -, -, hmcmds⟩ := mDone_block (id := id) (modBlock_at (f := (·.setTile t x)) (fun _ => rfl) hb)
  exact ⟨b', hb', htiles, hmcmds⟩

theorem setTile_mDone_mem (s : State) (u t id : Nat) (x : Tile) :
    SameMemory s ((s.modBlock u (·.setTile t x)).mDone u id) :=
  sameMemory_trans (sameMem rfl rfl rfl rfl) (mDone_mem _ u id)

/-- A refused command leaves the tiles and sets REF. -/
theorem mRefuse_block {s : State} {b : Block} (m : MCmd) (addr : Nat) (hb : s.block? b.uid = some b) :
    ∃ b', (s.mRefuse b m addr).block? b.uid = some b' ∧ b'.tiles = b.tiles ∧ b'.ref = true
      ∧ b'.mcmds = b.mcmds.filter (·.id != m.id) := by
  have hflagged : (s.modBlock b.uid fun b => { b with ref := true }).block? b.uid = some { b with ref := true } :=
    modBlock_at (fun _ => rfl) hb
  obtain ⟨b', hb', htiles, -, href, hmcmds⟩ := mDone_block (id := m.id) ((report_block ..).trans hflagged)
  exact ⟨b', hb', htiles, href, hmcmds⟩

theorem mRefuse_mem (s : State) (b : Block) (m : MCmd) (addr : Nat) : SameMemory s (s.mRefuse b m addr) :=
  sameMemory_trans (t := s.modBlock b.uid fun b => { b with ref := true }) (sameMem rfl rfl rfl rfl)
    (sameMemory_trans (report_mem _ b m.crew m.lane _ _ m.pc) (mDone_mem _ b.uid m.id))

/-! ### An MLOOP whose handles have formats (R263) -/

section Formats
variable {s s1 s2 : State} {b : Block} {m : MCmd} {sh : Shape} {t : Nat} {ka kb : Handle} {fa fb : Ty} {int : Bool}
  (hfa : s.beginFormat b ka = (s1, some (.ok fa))) (hfb : s1.beginFormat b kb = (s2, some (.ok fb)))
include hfa hfb

theorem beginMloop_of_takes (hpair : pairKind fa fb = some int)
    (htakes : ((b.tiles.drop t).take (sh.dims.1 * sh.dims.2)).all (·.takes int) = true) :
    s.beginMloop b m sh t ka kb = (s2.modBlock b.uid fun b =>
      { b with mcmds := b.mcmds.map fun c => if c.id == m.id then { c with begun := true, int := int } else c }).fetchAhead b
        m.kind int 0 := by
  simp only [State.beginMloop, hfa, hfb, hpair, htakes, if_true]

theorem beginMloop_of_not_takes (hpair : pairKind fa fb = some int)
    (htakes : ((b.tiles.drop t).take (sh.dims.1 * sh.dims.2)).all (·.takes int) = false) :
    s.beginMloop b m sh t ka kb = s2.mRefuse b m 0 := by
  simp only [State.beginMloop, hfa, hfb, hpair, htakes, Bool.false_eq_true, if_false]

theorem beginMloop_of_unpaired (hpair : pairKind fa fb = none) : s.beginMloop b m sh t ka kb = s2.mRefuse b m 0 := by
  simp only [State.beginMloop, hfa, hfb, hpair]

end Formats

/-! ### The oldest command by its kind (R264, R291 to R294) -/

/-- A unit that a pre-emption has stopped begins no command, whatever it holds (R273). -/
theorem exec_of_unitStops {s : State} {u : Nat} {b : Block} (hb : s.block? u = some b) (hstops : b.unitStops = true) :
    exec (.matrixCmdExecute u) s = .next s := by
  simp only [exec, execMatrixCmdExecute, hb]
  cases b.mcmds with
  | nil => rfl
  | cons m rest => simp only [hstops, Bool.or_true, if_true]

section Oldest
variable {s : State} {u : Nat} {b : Block} {m : MCmd} {rest : List MCmd} (hb : s.block? u = some b)
  (hruns : b.unitStops = false) (hq : b.mcmds = m :: rest) (hnew : m.begun = false)
include hb hruns hq hnew

theorem exec_mdesc {h : Nat} (hk : m.kind = .mdesc h) : exec (.matrixCmdExecute u) s = .next (s.mDone u m.id) := by
  simp [exec, execMatrixCmdExecute, hb, hruns, hq, hnew, hk]

theorem exec_mzero {t : Nat} (hk : m.kind = .mzero t) :
    exec (.matrixCmdExecute u) s = .next ((s.modBlock u (·.setTile t Tile.zero)).mDone u m.id) := by
  simp [exec, execMatrixCmdExecute, hb, hruns, hq, hnew, hk]

theorem exec_mwrite_of_takes {int : Bool} {t : Nat} {els : List (Nat × Nat × Word)} (hk : m.kind = .mwrite int t els)
    (htakes : ((b.tiles[t]?).getD Tile.zero).takes int = true) :
    exec (.matrixCmdExecute u) s = .next ((s.modBlock u (·.setTile t (((b.tiles[t]?).getD Tile.zero).write int
      (els.map fun e => (64 * e.1 + e.2.1, e.2.2))))).mDone u m.id) := by
  simp [exec, execMatrixCmdExecute, hb, hruns, hq, hnew, hk, htakes]

theorem exec_mwrite_of_not_takes {int : Bool} {t : Nat} {els : List (Nat × Nat × Word)} (hk : m.kind = .mwrite int t els)
    (htakes : ((b.tiles[t]?).getD Tile.zero).takes int = false) :
    exec (.matrixCmdExecute u) s = .next (s.mRefuse b m 0) := by
  simp [exec, execMatrixCmdExecute, hb, hruns, hq, hnew, hk, htakes]

theorem exec_mloop {sh : Shape} {t n a c : Nat} {ka kb : Handle} {x y : Int} (hk : m.kind = .mloop sh t n a c ka kb x y) :
    exec (.matrixCmdExecute u) s = .next (s.beginMloop b m sh t ka kb) := by
  simp [exec, execMatrixCmdExecute, hb, hruns, hq, hnew, hk]

end Oldest

/-- Settles O34: by the oldest command's kind, what executing it gives is one of the ways in which a command leaves the unit, or the
beginning of an MLOOP. -/
theorem matrixCommandsExecute : Obligations.MatrixCommandsExecute := by
  unfold Obligations.MatrixCommandsExecute
  refine ⟨fun s u b => exec_of_unitStops, fun s u b m rest t hb hruns hq hnew hk => ?mzero,
    fun s u b m rest int t els hb hruns hq hnew hk htakes => ?written,
    fun s u b m rest int t els hb hruns hq hnew hk htakes => ?refused,
    fun s u b m rest h hb hruns hq hnew hk => ?mdesc,
    fun s u b m rest sh t n a c ka kb x y s1 s2 fa fb hb hruns hq hnew hk hfa hfb => ?mloop⟩
  case mzero =>
    obtain ⟨b', hleft⟩ := setTile_mDone_block t m.id Tile.zero hb
    exact ⟨_, b', exec_mzero hb hruns hq hnew hk, setTile_mDone_mem s u t m.id _, hleft⟩
  case written =>
    obtain ⟨b', hleft⟩ := setTile_mDone_block t m.id _ hb
    exact ⟨_, b', exec_mwrite_of_takes hb hruns hq hnew hk htakes, setTile_mDone_mem s u t m.id _, hleft⟩
  case refused =>
    obtain rfl := block_uid hb
    obtain ⟨b', hleft⟩ := mRefuse_block m 0 hb
    exact ⟨_, b', exec_mwrite_of_not_takes hb hruns hq hnew hk htakes, mRefuse_mem s b m 0, hleft⟩
  case mdesc =>
    obtain ⟨b', hb', htiles, hhandles, -, hmcmds⟩ := mDone_block (id := m.id) hb
    exact ⟨_, b', exec_mdesc hb hruns hq hnew hk, mDone_mem s u m.id, hb', htiles, hhandles, hmcmds⟩
  case mloop =>
    obtain rfl := block_uid hb
    rw [exec_mloop hb hruns hq hnew hk]
    exact ⟨fun int hpair htakes => congrArg _ (beginMloop_of_takes hfa hfb hpair htakes),
      fun int hpair htakes => congrArg _ (beginMloop_of_not_takes hfa hfb hpair htakes),
      fun hpair => congrArg _ (beginMloop_of_unpaired hfa hfb hpair)⟩

end Sys2Proof.Proofs
end

