-- ==== Sys2Proof/Proofs/ExceptionEntry.lean ====
section
/-! Taking an exception, in a block and in a handler crew (05_encoding R70, R77; 21_traps_preemption R332, R334, R335, R337): what a
verdict leaves of the gathering, and the obligation about the entry. -/

namespace Sys2Proof.Proofs

open Sys2Proof.Machine Sys2Proof.Laws

/-! ### A verdict gathers nothing (R335, R337) -/

@[simp] theorem killLane_gathered (s : State) (o : Origin) (n : Nat) : (s.killLane o n).gathered = s.gathered := rfl

@[simp] theorem settleCrew_gathered (s : State) (u ci : Nat) : (s.settleCrew u ci).gathered = s.gathered := by
  unfold State.settleCrew
  split
  case h_1 b _ => rw [settle_gathered, modCrew_gathered]
  case h_2 => rfl

/-- A verdict changes its origin's lane and block, and looks at the origin's crew again; none of that gathers a lane. -/
@[simp] theorem verdict_gathered (s : State) (h : HLane) (v : Verdict) : (s.verdict h v).gathered = s.gathered := by
  unfold State.verdict
  split
  case h_1 => rfl
  case h_2 o _ =>
    rw [settleCrew_gathered]
    cases v with
    | resume | kill | none => simp only [reduceCtorEq, beq_iff_eq, if_false]; split_ifs <;> rfl
    | abort => simp only [beq_self_eq_true, if_true, modBlock_gathered]; split_ifs <;> rfl

/-- Passing a verdict does nothing with no such handler lane or one that has decided, and otherwise acts on the origin alone. -/
@[simp] theorem passVerdict_gathered (s : State) (u lane : Nat) (v : Verdict) : (s.passVerdict u lane v).gathered = s.gathered := by
  unfold State.passVerdict
  split
  case h_1 => rfl
  case h_2 b _ =>
    split
    case h_1 => rfl
    case h_2 h _ =>
      split_ifs
      · rfl
      · rw [verdict_gathered, modBlock_gathered]

/-! ### The entry in a handler crew (R337) -/

theorem trapLane_of_handler {s : State} {k : Ctx} (hh : k.b.hnd ≠ []) (j : Nat) (cause : Cause) (fault : DWord) (off wl ro : Word) :
    s.trapLane k j cause fault off wl ro =
      (s.modLane k.b.uid k.ci j fun l => { l with done := true, act := false, wl := wl, ro := ro }).passVerdict k.b.uid j .none :=
  if_pos (bne_iff_ne.mpr hh)

theorem trapLane_of_handler_gathered {s : State} {k : Ctx} (hh : k.b.hnd ≠ []) (j : Nat) (cause : Cause) (fault : DWord)
    (off wl ro : Word) : (s.trapLane k j cause fault off wl ro).gathered = s.gathered := by
  rw [trapLane_of_handler hh, passVerdict_gathered, modLane_gathered]

/-- Settles O11: in an ordinary block the lane is trapped and gathered and the others are left; in a handler crew the lane passes the
verdict `none`, and a verdict gathers nothing. -/
theorem exceptionEntry : Obligations.ExceptionEntry := by
  unfold Obligations.ExceptionEntry
  refine ⟨fun s k j l cause fault off wl ro hh hl => ?block, fun s k j cause fault off wl ro hh => ?handler,
    fun s k j cause fault off wl ro hh => ?gathered⟩
  case block =>
    obtain ⟨htrapped, hgathered, hmem⟩ := trapLane_spec hh hl cause fault off wl ro
    exact ⟨htrapped, hgathered, hmem, fun u ci i m hne hm => trapLane_other hh cause fault off wl ro hm hne⟩
  case handler => exact trapLane_of_handler hh j cause fault off wl ro
  case gathered => exact trapLane_of_handler_gathered hh j cause fault off wl ro

end Sys2Proof.Proofs
end

