-- ==== Sys2Proof/Proofs/EncodeDecode.lean ====
section
/-! The encoding as a bijection between well-formed instructions and the words that decode to them (05_encoding R50, R51, R54, R55,
R65, R68): words as bytes, and the obligation about them. -/

namespace Sys2Proof.Proofs

open Sys2Proof.Machine Sys2Proof.Laws

/-- Each instruction that has words is read back from them; an event has none. -/
theorem roundTrip (i : Instr) : RoundTrip.Statement i := by
  cases i
  case nop => exact RoundTrip.nop _
  case go => exact RoundTrip.go _ _
  case gox => exact RoundTrip.gox _ _
  case call => exact RoundTrip.call _ _ _
  case callx => exact RoundTrip.callx _ _ _
  case ret => exact RoundTrip.ret _
  case done => exact RoundTrip.done _
  case trap => exact RoundTrip.trap _ _
  case brk => exact RoundTrip.brk _ _
  case wantc => exact RoundTrip.wantc _ _ _
  case prefiIc => exact RoundTrip.prefiIc _ _ _
  case prefiL2 => exact RoundTrip.prefiL2 _ _ _
  case pini => exact RoundTrip.pini _ _ _
  case unpini => exact RoundTrip.unpini _ _ _
  case movs => exact RoundTrip.movs _ _ _
  case mov => exact RoundTrip.mov _ _ _ _
  case movi => exact RoundTrip.movi _ _ _ _
  case movh => exact RoundTrip.movh _ _ _ _
  case iadd => exact RoundTrip.iadd _ _ _ _ _ _
  case iadd3 => exact RoundTrip.iadd3 _ _ _ _ _ _ _
  case isub => exact RoundTrip.isub _ _ _ _ _ _
  case addc => exact RoundTrip.addc _ _ _ _ _
  case subb => exact RoundTrip.subb _ _ _ _ _
  case imul => exact RoundTrip.imul _ _ _ _ _ _
  case imulh => exact RoundTrip.imulh _ _ _ _ _
  case imad => exact RoundTrip.imad _ _ _ _ _ _ _
  case imin => exact RoundTrip.imin _ _ _ _ _
  case imax => exact RoundTrip.imax _ _ _ _ _
  case iabs => exact RoundTrip.iabs _ _ _ _ _
  case ineg => exact RoundTrip.ineg _ _ _ _ _
  case and => exact RoundTrip.and _ _ _ _ _
  case or => exact RoundTrip.or _ _ _ _ _
  case xor => exact RoundTrip.xor _ _ _ _ _
  case andn => exact RoundTrip.andn _ _ _ _ _
  case shl => exact RoundTrip.shl _ _ _ _ _
  case shr => exact RoundTrip.shr _ _ _ _ _
  case sar => exact RoundTrip.sar _ _ _ _ _
  case rot => exact RoundTrip.rot _ _ _ _ _
  case bfx => exact RoundTrip.bfx _ _ _ _ _
  case bfi => exact RoundTrip.bfi _ _ _ _ _ _
  case popc => exact RoundTrip.popc _ _ _ _
  case clz => exact RoundTrip.clz _ _ _ _
  case ctz => exact RoundTrip.ctz _ _ _ _
  case brev => exact RoundTrip.brev _ _ _ _
  case icmp => exact RoundTrip.icmp _ _ _ _ _ _ _ _
  case isel => exact RoundTrip.isel _ _ _ _ _ _
  case lea => exact RoundTrip.lea _ _ _ _ _ _
  case idot4 => exact RoundTrip.idot4 _ _ _ _ _ _ _ _
  case got => exact RoundTrip.got _ _ _ _ _
  case fadd => exact RoundTrip.fadd _ _ _ _ _ _ _ _ _
  case fsub => exact RoundTrip.fsub _ _ _ _ _ _ _ _ _
  case fmul => exact RoundTrip.fmul _ _ _ _ _ _ _ _ _
  case ffma => exact RoundTrip.ffma _ _ _ _ _ _ _ _ _ _
  case fmin => exact RoundTrip.fmin _ _ _ _ _ _ _
  case fmax => exact RoundTrip.fmax _ _ _ _ _ _ _
  case fcmp => exact RoundTrip.fcmp _ _ _ _ _ _ _ _ _
  case fclass => exact RoundTrip.fclass _ _ _ _
  case frcp => exact RoundTrip.frcp _ _ _ _ _ _ _
  case frsq => exact RoundTrip.frsq _ _ _ _ _ _
  case fsqrt => exact RoundTrip.fsqrt _ _ _ _ _ _ _
  case fexp2 => exact RoundTrip.fexp2 _ _ _ _ _ _
  case flog2 => exact RoundTrip.flog2 _ _ _ _ _ _
  case fsin => exact RoundTrip.fsin _ _ _ _ _ _
  case fcos => exact RoundTrip.fcos _ _ _ _ _ _
  case ftanh => exact RoundTrip.ftanh _ _ _ _ _ _
  case fscale => exact RoundTrip.fscale _ _ _ _ _ _ _ _
  case frnd => exact RoundTrip.frnd _ _ _ _ _ _
  case fdot2 => exact RoundTrip.fdot2 _ _ _ _ _ _ _ _ _
  case cvt => exact RoundTrip.cvt _ _ _ _ _ _ _ _ _
  case pack => exact RoundTrip.pack _ _ _ _ _ _ _ _ _ _ _
  case unpack => exact RoundTrip.unpack _ _ _ _ _ _ _ _ _ _
  case vote => exact RoundTrip.vote _ _ _ _
  case ballot => exact RoundTrip.ballot _ _ _
  case shfl => exact RoundTrip.shfl _ _ _ _ _ _
  case scan => exact RoundTrip.scan _ _ _ _ _ _ _ _ _
  case reduce => exact RoundTrip.reduce _ _ _ _ _ _ _ _
  case matchI => exact RoundTrip.matchI _ _ _ _ _
  case isect => exact RoundTrip.isect _ _ _ _ _ _ _
  case regroup => exact RoundTrip.regroup _ _ _ _
  case qnt => exact RoundTrip.qnt _ _ _ _ _ _ _ _ _
  case take => exact RoundTrip.take _ _ _ _ _
  case netcnt => exact RoundTrip.netcnt _ _ _
  case ld => exact RoundTrip.ld _ _ _ _ _ _
  case st => exact RoundTrip.st _ _ _ _ _
  case lds => exact RoundTrip.lds _ _ _ _
  case sts => exact RoundTrip.sts _ _ _ _
  case ldp => exact RoundTrip.ldp _ _ _ _
  case stp => exact RoundTrip.stp _ _ _ _
  case ldl => exact RoundTrip.ldl _ _ _ _ _
  case stl => exact RoundTrip.stl _ _ _ _ _
  case atom => exact RoundTrip.atom _ _ _ _ _ _
  case cas => exact RoundTrip.cas _ _ _ _ _
  case red => exact RoundTrip.red _ _ _ _ _ _
  case fence => exact RoundTrip.fence _ _
  case phasePub => exact RoundTrip.phasePub _
  case phaseRef => exact RoundTrip.phaseRef _
  case phaseFull => exact RoundTrip.phaseFull _
  case waitc => exact RoundTrip.waitc _ _ _ _ _
  case pref => exact RoundTrip.pref _ _ _ _
  case sfence => exact RoundTrip.sfence _ _ _
  case awinit => exact RoundTrip.awinit _ _ _
  case arrive => exact RoundTrip.arrive _ _ _
  case await => exact RoundTrip.await _ _ _
  case mdesc => exact RoundTrip.mdesc _ _ _ _ _ _ _
  case mzero => exact RoundTrip.mzero _ _
  case mwrite => exact RoundTrip.mwrite _ _ _ _ _ _
  case mloop => exact RoundTrip.mloop _ _ _ _ _ _ _ _
  case mwait => exact RoundTrip.mwait _ _ _
  case mread => exact RoundTrip.mread _ _ _ _ _ _
  case mfence => exact RoundTrip.mfence _
  case mstat => exact RoundTrip.mstat _ _
  case mstatLog => exact RoundTrip.mstatLog _ _ _
  case mstatExp => exact RoundTrip.mstatExp _ _ _
  case mstatClr => exact RoundTrip.mstatClr _
  case cgather => exact RoundTrip.cgather _ _ _ _ _ _
  case cscatter => exact RoundTrip.cscatter _ _ _ _ _ _
  case cscatadd => exact RoundTrip.cscatadd _ _ _ _ _ _ _
  case ccopy => exact RoundTrip.ccopy _ _ _ _ _ _ _
  case cfill => exact RoundTrip.cfill _ _ _ _ _ _
  case cstat => exact RoundTrip.cstat _ _
  case cstatClr => exact RoundTrip.cstatClr _ _
  case xgrp => exact RoundTrip.xgrp _ _ _
  case xgrpEnd => exact RoundTrip.xgrpEnd _ _
  case xgather => exact RoundTrip.xgather _ _ _ _ _
  case xrscat => exact RoundTrip.xrscat _ _ _ _ _ _
  case xa2a => exact RoundTrip.xa2a _ _ _ _ _
  case xbar => exact RoundTrip.xbar _ _
  case xwait => exact RoundTrip.xwait _ _
  case rsplit => exact RoundTrip.rsplit _ _ _ _ _ _
  case rmerge => exact RoundTrip.rmerge _ _ _ _
  case rinval => exact RoundTrip.rinval _ _ _ _ _
  case rprobe => exact RoundTrip.rprobe _ _ _ _ _
  case rprobeS2 => exact RoundTrip.rprobeS2 _ _ _ _ _
  case rcompact => exact RoundTrip.rcompact _ _ _ _ _
  case netsave => exact RoundTrip.netsave _ _ _ _
  case netload => exact RoundTrip.netload _ _ _ _
  case netdrain => exact RoundTrip.netdrain _ _
  case netreset => exact RoundTrip.netreset _ _
  case hinfo => exact RoundTrip.hinfo _ _ _
  case hget => exact RoundTrip.hget _ _ _
  case hput => exact RoundTrip.hput _ _ _
  case hresume => exact RoundTrip.hresume _
  case hkill => exact RoundTrip.hkill _
  case habort => exact RoundTrip.habort _
  case launch => exact RoundTrip.launch _ _ _ _
  case cntcfg => exact RoundTrip.cntcfg _ _ _ _ _
  case cntrd => exact RoundTrip.cntrd _ _ _
  case sealset => exact RoundTrip.sealset _ _ _ _
  case unassignedMajor => exact RoundTrip.unassignedMajor _
  case bar => exact RoundTrip.bar
  case barc => exact RoundTrip.barc
  all_goals exact RoundTrip.of_event rfl

/-! ### Words and the bytes that hold them (R4, R50, R51) -/

theorem take_bytesOf (w : DWord) (rest : List Byte) : (bytesOf w ++ rest).take 8 = bytesOf w :=
  List.take_left' (bytesOf_length w)

theorem drop_bytesOf (w : DWord) (rest : List Byte) : (bytesOf w ++ rest).drop 8 = rest :=
  List.drop_left' (bytesOf_length w)

/-- Eight bytes or more begin with the bytes of the word they make. -/
theorem bytesOf_take_append_drop {b : List Byte} (h : 8 ≤ b.length) : bytesOf (dwordOf (b.take 8)) ++ b.drop 8 = b := by
  rw [bytesOf_dwordOf _ (by rw [List.length_take, Nat.min_eq_left h]), List.take_append_drop]

theorem decodeBytes_one {w : DWord} (rest : List Byte) (h : lengthOf w ≠ 2) :
    decodeBytes (bytesOf w ++ rest) = (decodeWords w 0).map (·, rest) := by
  have hlong : ¬ (bytesOf w ++ rest).length < 8 := by rw [List.length_append, bytesOf_length]; omega
  simp only [decodeBytes, hlong, take_bytesOf, drop_bytesOf, dwordOf_bytesOf, h, if_false]

theorem decodeBytes_two {w : DWord} (v : DWord) (rest : List Byte) (h : lengthOf w = 2) :
    decodeBytes (bytesOf w ++ (bytesOf v ++ rest)) = (decodeWords w v).map (·, rest) := by
  have hlong : ¬ (bytesOf w ++ (bytesOf v ++ rest)).length < 16 := by simp only [List.length_append, bytesOf_length]; omega
  have hlong' : ¬ (bytesOf w ++ (bytesOf v ++ rest)).length < 8 := fun hs => hlong (hs.trans (by decide))
  have hdrop : (bytesOf w ++ (bytesOf v ++ rest)).drop 16 = rest := by
    rw [show 16 = 8 + 8 from rfl, ← List.drop_drop, drop_bytesOf, drop_bytesOf]
  simp only [decodeBytes, hlong, hlong', hdrop, take_bytesOf, drop_bytesOf, dwordOf_bytesOf, h, if_true, if_false]

/-! ### The two directions -/

theorem encode_of_words {i : Instr} {w v : DWord} (h : i.words = some (w, v)) :
    encode i = some (if lengthOf w = 2 then [w, v] else [w]) := by
  rw [encode, h]
  rfl

/-- The bytes of an instruction's encoding decode to it, whatever follows. -/
theorem decodeBytes_encode {i : Instr} {w v : DWord} (hwf : i.wf = true) (hw : i.words = some (w, v)) (rest : List Byte) :
    decodeBytes ((if lengthOf w = 2 then [w, v] else [w]).flatMap bytesOf ++ rest) = .ok (i, rest) := by
  have hdec : decodeWords w v = .ok i := roundTrip i hwf w v hw
  by_cases hl : lengthOf w = 2
  · simp only [hl, if_true, List.flatMap_cons, List.flatMap_nil, List.append_nil, List.append_assoc]
    rw [decodeBytes_two v rest hl, hdec]
    rfl
  · obtain rfl : v = 0 := short_second hw hl
    simp only [hl, if_false, List.flatMap_cons, List.flatMap_nil, List.append_nil]
    rw [decodeBytes_one rest hl, hdec]
    rfl

/-- Bytes that decode begin with one word or two, as the first word says, and decode as these words do. -/
theorem decodeBytes_ok {b : List Byte} {i : Instr} {rest : List Byte} (h : decodeBytes b = .ok (i, rest)) :
    ∃ w v, decodeWords w v = .ok i ∧ b = (if lengthOf w = 2 then [w, v] else [w]).flatMap bytesOf ++ rest := by
  have hok : ∀ {w v : DWord} {r : List Byte}, (decodeWords w v).map (·, r) = .ok (i, rest) → decodeWords w v = .ok i ∧ r = rest := by
    intro w v r hm
    cases hd : decodeWords w v with
    | error e => rw [hd] at hm; cases hm
    | ok j => rw [hd] at hm; cases hm; exact ⟨rfl, rfl⟩
  have hlong : 8 ≤ b.length := by
    by_contra hs
    rw [decodeBytes, if_pos (Nat.not_le.mp hs)] at h
    cases h
  obtain ⟨w, tail, rfl⟩ : ∃ w tail, b = bytesOf w ++ tail := ⟨_, _, (bytesOf_take_append_drop hlong).symm⟩
  by_cases hl : lengthOf w = 2
  · have hlong2 : 8 ≤ tail.length := by
      by_contra hs
      have hshort : (bytesOf w ++ tail).length < 16 := by rw [List.length_append, bytesOf_length]; omega
      simp only [decodeBytes, Nat.not_lt.mpr hlong, take_bytesOf, dwordOf_bytesOf, hl, hshort, if_true, if_false] at h
      cases h
    obtain ⟨v, tail, rfl⟩ : ∃ v tail', tail = bytesOf v ++ tail' := ⟨_, _, (bytesOf_take_append_drop hlong2).symm⟩
    rw [decodeBytes_two v tail hl] at h
    obtain ⟨hd, rfl⟩ := hok h
    exact ⟨w, v, hd, by simp [hl]⟩
  · rw [decodeBytes_one tail hl] at h
    obtain ⟨hd, rfl⟩ := hok h
    exact ⟨w, 0, hd, by simp [hl]⟩

/-- A word with an unassigned major decodes to no other instruction. -/
theorem majorAssigned_of_decodeWords {w v : DWord} {i : Instr} (h : decodeWords w v = .ok i) (hi : ∀ w, i ≠ .unassignedMajor w) :
    majorAssigned (opcOf w) = true := by
  by_contra hm
  rw [decodeWords, if_neg hm] at h
  cases h
  exact hi w rfl

/-- Settles O56: an instruction's words are read back from their bytes, and bytes that decode are the bytes of the words that they
decode as, which the decoder's own comparison with the encoding fixes. -/
theorem encodeDecode : Obligations.EncodeDecode := by
  unfold Obligations.EncodeDecode
  refine ⟨fun i hwf hev => ?encoded, fun b i rest h hi => ?decoded⟩
  case encoded =>
    obtain ⟨⟨w, v⟩, hw⟩ := words_of hev
    refine ⟨_, encode_of_words hw, ?_, decodeBytes_encode hwf hw⟩
    by_cases hl : lengthOf w = 2
    · exact .inr (by rw [if_pos hl]; rfl)
    · exact .inl (by rw [if_neg hl]; rfl)
  case decoded =>
    obtain ⟨w, v, hd, hb⟩ := decodeBytes_ok h
    obtain ⟨hwf, hw⟩ := decodeWords_sound (majorAssigned_of_decodeWords hd hi) hd
    exact ⟨hwf, event_words (by rw [hw]; exact Option.some_ne_none _), _, encode_of_words hw, hb⟩

end Sys2Proof.Proofs
end

