-- ==== Sys2Proof/Proofs/RegisterInstructions.lean ====
section
/-! The register instructions (05_encoding R56, R71, R73; 06_control_integer R87, R89 to R103; 07_number_formats, 08_float_convert R126 to
R143): each issues in one of the forms of Laws/Issue with the value its rule states, and the obligations about them. -/

namespace Sys2Proof.Proofs

open Sys2Proof.Machine Sys2Proof.Laws

/-! ### Values that the model writes in another form than the rules (R73, R94, R139) -/

/-- The rule for register instructions, where the model writes the value in another form than the statement. -/
theorem issueAlu_result_of {i : Instr} {w64 : Bool} {d : Reg} {val val' : Crew → Lane → Val}
    (hi : ∀ s, exec i s = issueAlu i w64 d val s) (hv : ∀ (k : Ctx) s l, val (k.begun s i) l = val k.c l)
    (he : ∀ c l, val c l = val' c l) : RegisterResult i w64 d val' := by
  obtain rfl : val = val' := funext₂ he
  exact issueAlu_result hi hv

/-- The bits written for an integer are those of its value in the range of the type. -/
theorem putBits_wrapTo (t : Ty) (n : Int) : putBits t (wrapTo t n) = putBits t n := by
  rw [putBits, wrapTo_wrapTo, putBits]

/-! ### MOVS and WANTC (R87, R89) -/

theorem exec_movs (g : Guard) (d : Reg) (r : SReg) (s : State) : exec (.movs g d r) s =
    issue (.movs g d r) (fun k s => s.modCur k fun c => if d.isS then c.putS g r.is64 d fun l => pureVal (s.special k 0 l r)
      else c.eachLane g fun j l => l.put r.is64 d (pureVal (s.special k j l r))) s := rfl

/-- Counting the instruction changes no special register that it reads. -/
theorem special_begun (s : State) (k : Ctx) (i : Instr) (j : Nat) (l : Lane) (r : SReg) :
    (s.begun k i).special k j l r = s.special k j l r := by
  cases r <;> rfl

theorem movs_vector (g : Guard) (d : Reg) (r : SReg) {s : State} {k : Ctx} (h : Issues s k (.movs g d r)) (hd : d.isS = false) :
    ∃ t, exec (.movs g d r) s = .next t ∧ CrewStep s t k (Instr.movs g d r) (k.c.lanes.mapIdx fun j l =>
      if l.takes g then l.put r.is64 d (pureVal (s.special k j l r)) else l) k.c.s := by
  rw [exec_movs]
  refine issue_crew (f := fun c => c.eachLane g fun j l => l.put r.is64 d (pureVal (s.special k j l r))) h ?_ (issuing_eq h.now).2.2.1
  simp only [hd, Bool.false_eq_true, if_false, special_begun]

/-- A scalar register takes only special registers that are the same in every lane (R89). -/
theorem special_of_scalar {d : Reg} {r : SReg} {g : Guard} (hwf : (Instr.movs g d r).wf = true) (hd : d.isS = true)
    (s : State) (k : Ctx) (i j : Nat) (l : Lane) : s.special k i l r = s.special k j l r := by
  have hlane : ((if r.isLane then d.isV || d.isNone else d.isGp) && (!r.is64 || d.isEven)) = true :=
    (Bool.and_eq_true _ _ ▸ hwf).2
  cases d with
  | s n =>
    cases r with
    | wl | ro | lid | oid | rng => cases hlane
    | cid | bid | swc | clk | clid | core | part | lnch | cbase => rfl
  | v | q | sp | none => cases hd

/-- A value that draws nothing, written to a scalar register, leaves the lanes as they are (R56). -/
theorem putS_begun_pureVal (k : Ctx) (s : State) (i : Instr) (g : Guard) (w64 : Bool) (d : Reg) (val : Lane → DWord) :
    (k.begun s i).putS g w64 d (fun l => pureVal (val l)) = { k.begun s i with s := match k.c.takers g with
      | [] => k.c.s
      | (_, l) :: _ => (if w64 then k.c.wrS64 d (val l) else k.c.wrS d (bits (val l) 0 32)).s } := by
  rw [putS_begun]
  cases ht : k.c.takers g with
  | nil => rfl
  | cons p rest =>
    obtain ⟨hget, -⟩ := mem_takers.mp (ht ▸ List.mem_cons_self : p ∈ k.c.takers g)
    have hlanes : k.c.lanes.modify p.1 (fun l => { l with rng := p.2.rng }) = k.c.lanes := by
      rw [modify_set _ hget]
      exact List.ext_getElem? fun j => by
        rw [List.getElem?_set]
        split_ifs with hj hlen
        · exact hj ▸ hget.symm
        · exact absurd (List.getElem?_eq_some_iff.mp hget).1 (hj ▸ hlen)
        · rfl
    simp only [pureVal, hlanes]
    rfl

theorem movs_scalar (g : Guard) (d : Reg) (r : SReg) {s : State} {k : Ctx} (h : Issues s k (.movs g d r)) (hd : d.isS = true) :
    ∃ t, exec (.movs g d r) s = .next t ∧ CrewStep s t k (Instr.movs g d r) k.c.lanes (match k.c.takers g with
      | [] => k.c.s
      | (j, l) :: _ => (if r.is64 then k.c.wrS64 d (s.special k j l r) else k.c.wrS d (bits (s.special k j l r) 0 32)).s) := by
  have hwf : (Instr.movs g d r).wf = true := by
    have hlegal := h.legal
    simp only [Instr.legal, Bool.and_eq_true] at hlegal
    exact hlegal.1.1.1
  rw [exec_movs]
  obtain ⟨t, ht, hc⟩ := issue_crew (i := .movs g d r) (f := fun c => c.putS g r.is64 d fun l => pureVal (s.special k 0 l r)) h
    (eff := fun k s => s.modCur k fun c => if d.isS then c.putS g r.is64 d fun l => pureVal (s.special k 0 l r)
      else c.eachLane g fun j l => l.put r.is64 d (pureVal (s.special k j l r)))
    (by simp only [hd, if_true, special_begun]) (by rw [putS_begun_pureVal]; exact (issuing_eq h.now).2.2.1)
  refine ⟨t, ht, ?_⟩
  rw [putS_begun_pureVal] at hc
  cases htk : k.c.takers g with
  | nil => rw [htk] at hc; exact hc
  | cons p rest =>
    rw [htk] at hc
    simp only [special_of_scalar hwf hd s k 0 p.1] at hc
    exact hc

/-- Settles O1: each of them is a register instruction of the form of R56, MOVS with a value that its slot fixes. -/
theorem movesWriteTheirValue : Obligations.MovesWriteTheirValue := by
  unfold Obligations.MovesWriteTheirValue
  refine ⟨⟨fun g t d a => ?_, fun g d k => ?_, fun g d k => ?_, fun g d k => ?_, fun g d a k => ?_, fun g t d a b q => ?_,
    fun g t sh d a b => ?_⟩, fun g d r s k h => movs_vector g d r h, fun g d r s k h => movs_scalar g d r h, fun g d x => ?_⟩
  all_goals exact issueAlu_result (fun _ => rfl) fun _ _ _ => rfl

/-! ### Integer arithmetic, logic, shifts and counts (R94 to R103) -/

theorem imulh_result (g : Guard) (t : Ty) (d a b : Reg) :
    IntegerResult (.imulh g t d a b) t d fun c l => c.iv l t a * c.iv l t b / 2 ^ t.width :=
  issueAlu_result_of (fun _ => rfl) (fun _ _ _ => rfl) fun _ _ => congrArg pureVal (putBits_wrapTo t _)

theorem iabs_result (g : Guard) (t : Ty) (sat : Bool) (d a : Reg) :
    IntegerResult (.iabs g t sat d a) t d fun c l => fitTo t sat |c.iv l t a| :=
  issueAlu_result_of (fun _ => rfl) (fun _ _ _ => rfl) fun _ _ =>
    congrArg (fun n => pureVal (putBits t (fitTo t sat n))) (Int.natCast_natAbs _)

/-- Settles O2: each issues as an integer instruction with the value that R94 or R103 states. -/
theorem integerArithmetic : Obligations.IntegerArithmetic := by
  unfold Obligations.IntegerArithmetic
  refine ⟨fun g t sat d a b => ?_, fun g t sat d a b e => ?_, fun g t sat d a b => ?_, fun g t sat d a b => ?_, imulh_result,
    fun g t sat d a b e => ?_, fun g t d a b => ?_, fun g t d a b => ?_, iabs_result, fun g t sat d a => ?_,
    fun g t sat mixed d a b e => ?idot4⟩
  case idot4 => exact issueAlu_result (fun _ => rfl) fun _ _ _ => rfl
  all_goals exact issueInt_result (fun _ => rfl) fun _ _ _ => rfl

/-- Settles O3: each issues as a register instruction with the value that its rule states, SAR and BFX as integer ones. -/
theorem logicAndShifts : Obligations.LogicAndShifts := by
  unfold Obligations.LogicAndShifts
  refine ⟨fun g t d a b => ?_, fun g t d a b => ?_, fun g t d a b => ?_, fun g t d a b => ?_, fun g t d a b => ?_,
    fun g t d a b => ?_, fun g t d a b => ?sar, fun g t d a b => ?_, fun g t d a b => ?bfx, fun g t d a b e => ?_,
    fun g t d a => ?_, fun g t d a => ?_, fun g t d a => ?_, fun g t d a => ?_⟩
  case sar => exact issueInt_result (fun _ => rfl) fun _ _ _ => rfl
  case bfx => exact issueInt_result (fun _ => rfl) fun _ _ _ => rfl
  all_goals exact issueAlu_result (fun _ => rfl) fun _ _ _ => rfl

/-- Settles O4: each acts in each lane by itself, with the sum, difference or comparison of its operands. -/
theorem carriesAndCompares : Obligations.CarriesAndCompares := by
  unfold Obligations.CarriesAndCompares
  refine ⟨⟨fun g d a b q => ?_, fun g d a b q => ?_⟩, fun g t cond comb d a b q => ?_, fun g t cond comb ftz d a b q => ?_⟩
  all_goals exact eachLane_result (fun _ => rfl) fun _ _ _ _ => rfl

/-! ### Float arithmetic and functions (R126 to R137) -/

/-- Settles O5: each issues as a register instruction whose value is one rounding of the exact sum or product. -/
theorem floatArithmetic : Obligations.FloatArithmetic := by
  unfold Obligations.FloatArithmetic
  refine ⟨fun g t rm sat x2 ftz d a b => ?_, fun g t rm sat x2 ftz d a b => ?_, fun g t rm sat x2 ftz d a b => ?_,
    fun g t rm sat x2 ftz d a b e => ?_, fun g t rm sat ftz d a b => ?_, fun g t rm sat ftz d a b e => ?_⟩
  all_goals exact issueAlu_result (fun _ => rfl) fun _ _ _ => rfl

/-- Settles O6: each issues as a register instruction whose value is its function of the decoded operand. -/
theorem floatFunctions : Obligations.FloatFunctions := by
  unfold Obligations.FloatFunctions
  refine ⟨fun g t x2 ftz d a b => ?_, fun g t x2 ftz d a b => ?_, fun g t d a => ?_, fun g t rm ftz d a => ?_,
    fun g t rm sat ftz d a => ?_, fun g t rm sat ftz d a => ?_, fun g t sat ftz d a => ?_, fun g t sat ftz d a => ?_,
    fun g t sat ftz d a => ?_, fun g t sat ftz d a => ?_, fun g t sat ftz d a => ?_, fun g t sat ftz d a => ?_⟩
  all_goals exact issueAlu_result (fun _ => rfl) fun _ _ _ => rfl

/-! ### Conversions (R139 to R143) -/

/-- The bits that a plain conversion takes: those of a register, or of a pair (R139). -/
theorem convert_source (x : DWord) (y : Word) (w64 : Bool) :
    BitVec.ofNat 64 (if w64 then x.toNat else y.toNat) = if w64 then x else y.setWidth 64 := by
  cases w64
  · exact BitVec.ofNat_toNat 64 y
  · exact (BitVec.ofNat_toNat 64 x).trans (BitVec.setWidth_eq x)

theorem cvt_result (g : Guard) (td ts : Ty) (rm : Rm) (sat ftz : Bool) (d a b : Reg) :
    RegisterResult (.cvt g td ts rm sat ftz d a b) td.is64 d fun c l =>
      if b.isNone then convert td ts rm sat ftz (if ts.is64 then c.rd64 l a else (c.rd l a).setWidth 64)
      else blockDecode td ts rm ftz ((c.rd l a).toNat % 2 ^ ts.width) (c.rd l b) :=
  issueAlu_result_of (fun _ => rfl) (fun _ _ _ => rfl) fun c l => by rw [convert_source]

/-- Settles O7: each issues as a register instruction whose value is the conversion, or the block decode, of its operands. -/
theorem conversions : Obligations.Conversions := by
  unfold Obligations.Conversions
  refine ⟨cvt_result, fun g td ts rm sat ftz n d a b e => ?_, fun g td ts rm sat ftz n d a b => ?_⟩
  all_goals exact issueAlu_result (fun _ => rfl) fun _ _ _ => rfl

end Sys2Proof.Proofs
end

