-- ==== Sys2Proof/Proofs/ControlInstructions.lean ====
section
/-! The control instructions (04_sweep R40; 06_control_integer R78 to R86): what they leave of the lanes, the link stack and the table
jump, and the obligations about them. -/

namespace Sys2Proof.Proofs

open Sys2Proof.Machine Sys2Proof.Laws

/-- An instruction completes with the effect that it issues with (R33, R69). -/
theorem completes_of {i : Instr} {effect : Ctx → State → State} (hi : ∀ s, exec i s = issue i effect s) : Completes i effect :=
  fun s _ h => (hi s).trans (issue_eq h)

/-- The lanes that take part, each changed by itself, whatever its slot. -/
theorem issue_takers {i : Instr} {eff : Ctx → State → State} {s : State} {k : Ctx} (h : Issues s k i) (g : Guard)
    {f : State → Nat → Lane → State} (hi : eff k (s.begun k i) = (s.begun k i).forLanes (k.c.takers g) f) (p : Lane → Lane → Lane)
    (hf : ∀ x ∈ k.c.takers g, ∀ s, f s x.1 x.2 = s.modLane k.b.uid k.ci x.1 (p x.2)) :
    ∃ t, issue i eff s = .next t ∧ CrewStep s t k i (k.c.lanes.map fun l => if l.takes g then p l l else l) k.c.s := by
  have hlanes := forLanes_congr (f' := fun s j l => s.modLane k.b.uid k.ci j (p l)) (k.c.takers g) hf (s.begun k i)
  obtain ⟨t, ht, hc⟩ := issue_lanes (f := fun _ l => p l) h g (hi.trans hlanes)
  exact ⟨t, ht, mapIdx_map (fun l => if l.takes g then p l l else l) k.c.lanes ▸ hc⟩

/-! ### The link stack (R40, R81, R82) -/

section LinkStack
variable {s s' : State} {k : Ctx} {j : Nat} {l : Lane} {ps : List Piece}

theorem call_of_full (target ret : Word) (h : l.depth = 264) :
    s.call k j l target ret = s.trapAgain k j .linkOverflow (BitVec.ofNat 64 (k.b.privVa l 0)) := by
  rw [State.call, if_pos h]

theorem call_of_room (target ret : Word) (hroom : l.link.length < 8) (hdepth : l.depth < 264) :
    s.call k j l target ret = s.modLane k.b.uid k.ci j fun l => { l with link := ret :: l.link, wl := target, ro := 0, act := false } := by
  rw [State.call, if_neg hdepth.ne, if_pos hroom]
  rfl

theorem call_of_spill (target ret : Word) (hdepth : l.depth ≠ 264) (hheld : 8 ≤ l.link.length)
    (hcheck : s.checkGlobal k (k.b.privVa l (4 * l.spilled)) 4 .write = (s', .pass ps)) :
    s.call k j l target ret =
      (s'.storePieces k j .none (piecesOf (k.b.privVa l (4 * l.spilled)) (l.link.getLast?.getD 0).toNat ps)).modLane k.b.uid k.ci j
        fun m => { m with link := ret :: m.link.dropLast, spilled := m.spilled + 1, wl := target, ro := 0, act := false } := by
  simp only [State.call, if_neg hdepth, if_neg (Nat.not_lt.mpr hheld), hcheck]
  rfl

theorem ret_of_empty (h : l.link = []) : s.ret k j l = s.trapAgain k j .linkUnderflow 0 := by
  simp only [State.ret, h]

theorem ret_of_held {top : Word} {rest : List Word} (hlink : l.link = top :: rest) (hspilled : l.spilled = 0) :
    s.ret k j l = s.modLane k.b.uid k.ci j fun m => { m with link := rest, wl := top, ro := 0, act := false } := by
  simp only [State.ret, hlink, if_pos hspilled]
  rfl

theorem ret_of_spilled {top : Word} {rest : List Word} (hlink : l.link = top :: rest) (hspilled : l.spilled ≠ 0)
    (hcheck : s.checkGlobal k (k.b.privVa l (4 * (l.spilled - 1))) 4 .read = (s', .pass ps)) :
    s.ret k j l = (s'.refill k j l ps).1.modLane k.b.uid k.ci j fun m =>
      { m with link := rest ++ [(s'.refill k j l ps).2], spilled := m.spilled - 1, wl := top, ro := 0, act := false } := by
  simp only [State.ret, hlink, if_neg hspilled, hcheck]
  rfl

end LinkStack

theorem nop_step (g : Guard) {s : State} {k : Ctx} (h : Issues s k (.nop g)) :
    ∃ t, exec (.nop g) s = .next t ∧ CrewStep s t k (Instr.nop g) k.c.lanes k.c.s := by
  have hexec : exec (.nop g) s = issue (.nop g) (fun _ s => s) s := rfl
  rw [hexec]
  exact issue_crew (f := id) h (modCrew_id _ _ _ fun _ => rfl).symm (issuing_eq h.now).2.2.1

section Calls
variable {g : Guard} {s : State} {k : Ctx} {x : Word}

theorem exec_call (g : Guard) (w : BitVec 16) (x : Word) (s : State) : exec (.call g w x) s = issue (.call g w x)
    (fun k s => s.forLanes (k.c.takers g) fun s j l => s.call k j l x (k.pc + w.signExtend 32)) s := rfl

theorem exec_callx (g : Guard) (r : Reg) (x : Word) (s : State) : exec (.callx g r x) s = issue (.callx g r x)
    (fun k s => s.forLanes (k.c.takers g) fun s j l => s.call k j l (k.c.rd l r) x) s := rfl

theorem exec_ret (g : Guard) (s : State) : exec (.ret g) s = issue (.ret g)
    (fun k s => s.forLanes (k.c.takers g) fun s j l => s.ret k j l) s := rfl

variable (hroom : ∀ p ∈ k.c.takers g, p.2.link.length < 8 ∧ p.2.depth < 264)
include hroom

theorem call_step {w : BitVec 16} (h : Issues s k (.call g w x)) : ∃ t, exec (.call g w x) s = .next t ∧
    CrewStep s t k (Instr.call g w x) (k.c.lanes.map fun l => if l.takes g then
      { l with link := (k.pc + w.signExtend 32) :: l.link, wl := x, ro := 0, act := false } else l) k.c.s := by
  rw [exec_call]
  exact issue_takers h g rfl (fun _ m => { m with link := (k.pc + w.signExtend 32) :: m.link, wl := x, ro := 0, act := false })
    fun p hp s => call_of_room _ _ (hroom p hp).1 (hroom p hp).2

theorem callx_step {r : Reg} (h : Issues s k (.callx g r x)) : ∃ t, exec (.callx g r x) s = .next t ∧
    CrewStep s t k (Instr.callx g r x) (k.c.lanes.map fun l => if l.takes g then
      { l with link := x :: l.link, wl := k.c.rd l r, ro := 0, act := false } else l) k.c.s := by
  rw [exec_callx]
  exact issue_takers h g rfl (fun l m => { m with link := x :: m.link, wl := k.c.rd l r, ro := 0, act := false })
    fun p hp s => call_of_room _ _ (hroom p hp).1 (hroom p hp).2

end Calls

theorem ret_step {g : Guard} {s : State} {k : Ctx} (h : Issues s k (.ret g))
    (hheld : ∀ p ∈ k.c.takers g, p.2.link ≠ [] ∧ p.2.spilled = 0) : ∃ t, exec (.ret g) s = .next t ∧
    CrewStep s t k (Instr.ret g) (k.c.lanes.map fun l => if l.takes g then
      { l with link := l.link.tail, wl := l.link.headD 0, ro := 0, act := false } else l) k.c.s := by
  rw [exec_ret]
  refine issue_takers h g rfl (fun l m => { m with link := l.link.tail, wl := l.link.headD 0, ro := 0, act := false }) fun p hp s => ?_
  obtain ⟨hne, hspilled⟩ := hheld p hp
  obtain ⟨top, rest, hlink⟩ := List.exists_cons_of_ne_nil hne
  rw [ret_of_held hlink hspilled, hlink]
  rfl

/-! ### GOT (R83) -/

theorem exec_got (g : Guard) (r : Reg) (tbl : Word) (n w : BitVec 16) (s : State) : exec (.got g r tbl n w) s =
    issue (.got g r tbl n w) (fun k s => s.forLanes (k.c.takers g) fun s i l =>
      let x := (k.c.rd l r).toNat
      let va := k.b.code + 4 * tbl.toNat + 4 * x
      if n.toNat ≤ x then s.modLane k.b.uid k.ci i (·.leave (k.pc + w.signExtend 32))
      else match s.translate k.b.core (some k.c.quad) k.b.asid va 4 .exec with
        | (s, .ok p) =>
          let denied := fun (s : State) (tag : Option Nat) =>
            (s.denial k.b.part k.b.vf va l.oid k.b.launch (.lane k.b.core) false tag.isSome (tag.getD p.sealId)).modLane k.b.uid k.ci i
              (·.leave 0)
          if s.cleared k.b.part k.b.clr p.sealId = false then denied s none
          else
            let (s, tag, view) := s.passCaches k.b k.ci (pieceOf va 4 p) ((List.range 4).map (p.home + ·)) false false .none
            if tag.isSome then denied s tag
            else s.modLane k.b.uid k.ci i (·.leave (BitVec.ofNat 32
              (leNat ((List.range 4).map fun j => s.readView view p.key (s.codeFrom k.b va p.home) (p.home + j)))))
        | (s, .fault c) => s.trapAgain k i c (BitVec.ofNat 64 va)
        | (s, .park p) => (s.askResidency k.b k.ci i va k.pc p).parkAgain k i p) s := by
  simp only [exec, execGot]
  congr 1
  funext k s
  congr 1
  funext s i l
  by_cases hx : n.toNat ≤ (k.c.rd l r).toNat
  · rw [if_neg (Nat.not_lt.mpr hx), if_pos hx]
  · rw [if_pos (Nat.not_le.mp hx), if_neg hx]
    obtain ⟨s', x⟩ := s.translate k.b.core (some k.c.quad) k.b.asid (k.b.code + 4 * tbl.toNat + 4 * (k.c.rd l r).toNat) 4 .exec
    cases x with
    | fault c => rfl
    | park p => rfl
    | ok p =>
      cases hopen : s'.cleared k.b.part k.b.clr p.sealId with
      | false => simp only [hopen, Bool.false_and, Bool.false_eq_true, if_false, if_true, Option.isSome_none, Option.getD_none]
      | true =>
        simp only [hopen, Bool.true_and, Bool.true_eq_false, if_false, if_true]
        generalize s'.passCaches k.b k.ci _ _ false false .none = passed
        obtain ⟨s'', tag, view⟩ := passed
        cases tag <;> rfl

/-- Settles O8: each clause is the instruction's effect as it issues, or a rule of the link stack. -/
theorem controlMovesTheLanes : Obligations.ControlMovesTheLanes := by
  unfold Obligations.ControlMovesTheLanes
  exact ⟨fun s k g h => nop_step g h, ⟨fun g x => eachLane_result (fun _ => rfl) fun _ _ _ _ => rfl,
      fun g r => eachLane_result (fun _ => rfl) fun _ _ _ _ => rfl⟩,
    ⟨fun g w x => completes_of (exec_call g w x), fun g r x => completes_of (exec_callx g r x),
      fun g w x s k h hroom => call_step hroom h, fun g r x s k h hroom => callx_step hroom h,
      fun s k j l target ret s' ps => call_of_spill target ret⟩,
    ⟨fun g => completes_of (exec_ret g), fun g s k h hheld => ret_step h hheld,
      fun s k j l top rest s' ps => ret_of_spilled⟩,
    ⟨fun s k j l target ret => call_of_full target ret, fun s k j l => ret_of_empty⟩,
    fun g r tbl n w => completes_of (exec_got g r tbl n w)⟩

end Sys2Proof.Proofs
end

