-- ==== Sys2Proof/Proofs/Walks.lean ====
section
/-! What a walk and the sequencer's view of the code rest on (20_ranges R314 to R318; 04_sweep R33, R41): home memory, the L2, keys,
functions' records and remaps, but no block, lookaside or gathered lane. -/

namespace Sys2Proof.Proofs

open Sys2Proof.Machine Sys2Proof.Laws

/-- Two states that agree in everything a walk reads. -/
structure SameWalks (s t : State) : Prop where
  mem : t.mem = s.mem
  log : t.log = s.log
  qkeys : t.qkeys = s.qkeys
  keys : t.keys = s.keys
  zeroKey : t.zeroKey = s.zeroKey
  l2 : t.l2 = s.l2
  funcs : t.funcs = s.funcs
  remaps : t.remaps = s.remaps
  lags : t.lags = s.lags
  walkFrom : t.walkFrom = s.walkFrom
  dirBase : t.dirBase = s.dirBase

theorem sameWalks_refl (s : State) : SameWalks s s := ⟨rfl, rfl, rfl, rfl, rfl, rfl, rfl, rfl, rfl, rfl, rfl⟩

theorem sameWalks_trans {s t u : State} (h : SameWalks s t) (h' : SameWalks t u) : SameWalks s u :=
  ⟨h'.mem.trans h.mem, h'.log.trans h.log, h'.qkeys.trans h.qkeys, h'.keys.trans h.keys, h'.zeroKey.trans h.zeroKey, h'.l2.trans h.l2,
    h'.funcs.trans h.funcs, h'.remaps.trans h.remaps, h'.lags.trans h.lags, h'.walkFrom.trans h.walkFrom, h'.dirBase.trans h.dirBase⟩

/-- A change of the blocks alone. -/
theorem sameWalks_of_blocks {s t : State} (h : { t with blocks := s.blocks } = s) : SameWalks s t := by
  have field : ∀ {α : Type} (f : State → α), f { t with blocks := s.blocks } = f s := fun f => congrArg f h
  exact ⟨field State.mem, field State.log, field State.qkeys, field State.keys, field State.zeroKey, field State.l2, field State.funcs,
    field State.remaps, field State.lags, field State.walkFrom, field State.dirBase⟩

section Congruence
variable {s t : State} (h : SameWalks s t)
include h

theorem now_walks : t.now = s.now := now_congr h.log

theorem readAt_walks (slot time a : Nat) : t.readAt slot time a = s.readAt slot time a :=
  readAt_congr h.mem h.log h.qkeys h.keys h.zeroKey (fun sl x => by simp only [State.slotLine, h.l2]) slot time a

theorem func_walks (v : Nat) : t.func v = s.func v := by simp only [State.func, h.funcs]

theorem keyOf_walks (k : Nat) : t.keyOf k = s.keyOf k := by simp only [State.keyOf, h.keys]

theorem lastRemap_walks : t.lastRemap = s.lastRemap := by
  funext ok
  simp only [State.lastRemap, h.remaps]

theorem ago_walks : t.ago = s.ago := by
  funext r w
  simp only [State.ago, h.lags]

theorem walkFloor_walks (asid : Option Nat) : t.walkFloor asid = s.walkFloor asid := by
  rw [State.walkFloor, h.walkFrom, lastRemap_walks h, State.walkFloor]

theorem walkTime_walks (asid : Option Nat) (r w : Nat) : t.walkTime asid r w = s.walkTime asid r w := by
  rw [State.walkTime, walkFloor_walks h, now_walks h, ago_walks h, lastRemap_walks h, State.walkTime]

theorem readDesc_walks (asid : Option Nat) (slot pa r : Nat) : t.readDesc asid slot pa r = s.readDesc asid slot pa r := by
  simp only [State.readDesc, readAt_walks h, walkTime_walks h]

theorem s2Search_walks (r vf ia : Nat) : t.s2Search r vf ia = s.s2Search r vf ia := by
  have hdesc : t.s2Desc vf = s.s2Desc vf := by
    funext r i
    simp only [State.s2Desc, readDesc_walks h, func_walks h]
  simp only [State.s2Search, hdesc, func_walks h]

theorem s2Use_walks (d : BitVec 256) (ia : Nat) (kind : AccKind) : t.s2Use d ia kind = s.s2Use d ia kind := by
  simp only [State.s2Use, keyOf_walks h]

theorem stage2At_walks (r vf ia : Nat) (kind : AccKind) : t.stage2At r vf ia kind = s.stage2At r vf ia kind := by
  simp only [State.stage2At, s2Search_walks h, s2Use_walks h]

theorem dirEntry_walks (asid : Nat) : t.dirEntry asid = s.dirEntry asid := by
  simp only [State.dirEntry, readAt_walks h, walkTime_walks h, h.dirBase]

theorem tableAt_walks (e : BitVec 128) (i : Nat) (kind : AccKind) : t.tableAt e i kind = s.tableAt e i kind := by
  simp only [State.tableAt, stage2At_walks h]

theorem d1At_walks (asid : Nat) (e : BitVec 128) : t.d1At asid e = s.d1At asid e := by
  funext r i
  simp only [State.d1At, tableAt_walks h, readDesc_walks h]

theorem walk_walks (asid va : Nat) : t.walk asid va = s.walk asid va := by
  simp only [State.walk, State.probe, dirEntry_walks h, tableAt_walks h, d1At_walks h]

theorem readHome_walks (slot a n : Nat) : t.readHome slot a n = s.readHome slot a n := by
  simp only [State.readHome, readAt_walks h, now_walks h]

theorem mapWord_walks (vf : Nat) (d : BitVec 256) (g : Nat) : t.mapWord vf d g = s.mapWord vf d g := by
  simp only [State.mapWord, State.stage2, State.numHome, stage2At_walks h, readHome_walks h]

theorem walkEntry_walks (core : Nat) (quad : Option Nat) (asid va : Nat) : t.walkEntry core quad asid va = s.walkEntry core quad asid va := by
  simp only [State.walkEntry, State.s2Find, walk_walks h, mapWord_walks h, s2Search_walks h]

theorem checkX_walks (asid : Nat) (e : Look) (va : Nat) (kind : AccKind) : t.checkX asid e va kind = s.checkX asid e va kind := by
  simp only [State.checkX, s2Use_walks h]

theorem homeLine_walks (b : Block) (n : Nat) : t.homeLine b n = s.homeLine b n := by
  simp only [State.homeLine, walkEntry_walks h, checkX_walks h, readHome_walks h]

theorem peekLine_walks (b : Block) (c : Crew) (n : Nat) : t.peekLine b c n = s.peekLine b c n := by
  simp only [State.peekLine, homeLine_walks h]

theorem isLabel_walks (b : Block) (c : Crew) (o : Nat) : t.isLabel b c o = s.isLabel b c o := by
  simp only [State.isLabel, peekLine_walks h]

theorem after_walks (k : Ctx) (len : Nat) (wl : Word) : t.after k len wl = s.after k len wl := by
  simp only [State.after, isLabel_walks h]

end Congruence

theorem begun_blocks (s : State) (k : Ctx) (i : Instr) : { s.begun k i with blocks := s.blocks } = s := by
  rw [begun_eq]
  rfl

/-- Counting an instruction leaves where a lane goes on after it. -/
theorem after_begun (s : State) (k : Ctx) (i : Instr) (len : Nat) (wl : Word) : (s.begun k i).after k len wl = s.after k len wl :=
  after_walks (sameWalks_of_blocks (begun_blocks s k i)) k len wl

end Sys2Proof.Proofs
end

