-- ==== Sys2Proof/Proofs/Barriers.lean ====
section
/-! Looking at barriers and crews again (04_sweep R44; 09_program_halo R147; 12_memory_instructions R205; 21_traps_preemption R336): what
it keeps of blocks and lanes, once for every relation that such a look keeps. -/

namespace Sys2Proof.Proofs

open Sys2Proof.Machine Sys2Proof.Laws

/-! ### Device and lanes -/

/-- A change of some fields of a block other than its crews leaves its lanes. -/
theorem laneAt_modBlock {s : State} {v : Nat} {f : Block → Block} (huid : ∀ b, (f b).uid = b.uid) (hcrews : ∀ b, (f b).crews = b.crews)
    (u ci j : Nat) : (s.modBlock v f).laneAt u ci j = s.laneAt u ci j := by
  simp only [State.laneAt, State.crew?, block_modBlock s huid]
  by_cases hu : u = v
  · subst hu
    cases s.block? u with
    | none => simp only [if_true, Option.map_none]
    | some b => simp only [if_true, Option.map_some, hcrews]; cases b.crews[ci]? <;> rfl
  · simp only [hu, if_false]

/-- A change of a crew that keeps its lanes. -/
theorem laneAt_modCrew {s : State} {v cj : Nat} {f : Crew → Crew} (hf : ∀ c, (f c).lanes = c.lanes) (u ci j : Nat) :
    (s.modCrew v cj f).laneAt u ci j = s.laneAt u ci j := by
  simp only [State.laneAt, State.crew?, block_modCrew]
  by_cases hu : u = v
  · subst hu
    cases s.block? u with
    | none => simp only [if_true, Option.map_none]
    | some b =>
      simp only [if_true, Option.map_some, Block.modCrew, List.getElem?_modify]
      cases hc : b.crews[ci]? with
      | none => rfl
      | some c => by_cases h : cj = ci <;> simp [h, hf]
  · simp only [hu, if_false]

theorem settleShell_lanes (held : Bool) (c : Crew) : (c.settleShell held).lanes = c.lanes := by
  unfold Crew.settleShell
  split <;> rfl

theorem settleCrew_device (s : State) (u ci : Nat) : { s.settleCrew u ci with blocks := s.blocks } = s := by
  unfold State.settleCrew
  split
  · next b _ =>
    exact congrArg (fun t : State => { t with blocks := s.blocks }) (settle_device (s.modCrew u ci (Crew.settleShell (b.holdsLast ci))) u)
  · rfl

/-- Looking at a crew and its block's barriers again lets lanes go, and changes nothing else of a lane. -/
theorem laneAt_settleCrew {s : State} (v cj : Nat) {u ci j : Nat} {l : Lane} (h : s.laneAt u ci j = some l) :
    ∃ l', (s.settleCrew v cj).laneAt u ci j = some l' ∧ SameButPark l l' := by
  unfold State.settleCrew
  split
  · exact laneAt_settle v ((laneAt_modCrew (settleShell_lanes _) u ci j).trans h)
  · exact ⟨l, h, sameButPark_refl l⟩

/-! ### Blocks: a relation that every barrier's completion keeps -/

section Relation
variable {R : Block → Block → Prop} (hrefl : ∀ b, R b b) (htrans : ∀ {a b c}, R a b → R b c → R a c)
  (hopen : ∀ (b : Block) arr inst arr' inst' p, R b { b with
    barArr := arr, barInst := inst, barcArr := arr', barcInst := inst', crews := b.crews.map (·.unparkWhere p) })

include hrefl in
/-- What one change of one block leaves of any block. -/
theorem rel_modBlock {s : State} (v : Nat) {f : Block → Block} (huid : ∀ b, (f b).uid = b.uid) (hf : ∀ b, s.block? v = some b → R b (f b))
    {u : Nat} {b : Block} (h : s.block? u = some b) : ∃ b', (s.modBlock v f).block? u = some b' ∧ R b b' := by
  rw [block_modBlock s huid]
  by_cases hu : u = v
  · subst hu
    exact ⟨f b, by rw [if_pos rfl, h]; rfl, hf b h⟩
  · exact ⟨b, by rw [if_neg hu, h], hrefl b⟩

/-- What a change of every block leaves of any block. -/
theorem rel_mapBlocks {s : State} {f : Block → Block} (huid : ∀ b, (f b).uid = b.uid) (hf : ∀ b, R b (f b))
    {u : Nat} {b : Block} (h : s.block? u = some b) : ∃ b', (s.mapBlocks f).block? u = some b' ∧ R b b' := by
  have hkeep : ((·.uid == u) ∘ f) = fun b : Block => b.uid == u := funext fun b => by simp only [Function.comp, huid]
  refine ⟨f b, ?_, hf b⟩
  simp only [State.block?, State.mapBlocks, List.find?_map, hkeep] at h ⊢
  rw [h]
  rfl

theorem settleBar_uid (b : Block) : b.settleBar.uid = b.uid := by
  unfold Block.settleBar
  split <;> rfl

/-- A block whose open BARC completes (R147). -/
def nextBarc (b : Block) : Block :=
  { b with barcArr := [], barcInst := b.barcInst + 1, crews := b.crews.map (·.unparkWhere fun w => w == .barc b.barcInst) }

/-- Looking at a BARC again does nothing, or opens the next one in some blocks. -/
theorem settleBarc_cases (s : State) (u : Nat) : s.settleBarc u = s ∨
    ∃ ids : List Nat, s.settleBarc u = s.mapBlocks fun b => if ids.contains b.uid then nextBarc b else b := by
  unfold State.settleBarc
  split
  · exact .inl rfl
  · split
    · exact .inr ⟨_, rfl⟩
    · exact .inl rfl

include hrefl htrans hopen in
/-- Looking at the barriers again completes instances of BAR and of BARC, and changes no block otherwise. -/
theorem rel_settle {s : State} (v : Nat) {u : Nat} {b : Block} (h : s.block? u = some b) :
    ∃ b', (s.settle v).block? u = some b' ∧ R b b' := by
  obtain ⟨b1, h1, hbar⟩ := rel_modBlock hrefl v settleBar_uid (fun b _ => by
    unfold Block.settleBar
    split
    · exact hopen b [] (b.barInst + 1) b.barcArr b.barcInst _
    · exact hrefl b) h
  unfold State.settle
  obtain hsame | ⟨ids, hnext⟩ := settleBarc_cases (s.modBlock v Block.settleBar) v
  · exact ⟨b1, by rw [hsame, h1], hbar⟩
  · obtain ⟨b2, h2, hbarc⟩ := rel_mapBlocks (R := R) (f := fun b => if ids.contains b.uid then nextBarc b else b)
      (fun b => by split <;> rfl) (fun b => by
        split
        · exact hopen b b.barArr b.barInst [] (b.barcInst + 1) _
        · exact hrefl b) h1
    exact ⟨b2, by rw [hnext, h2], htrans hbar hbarc⟩

include hrefl htrans hopen in
/-- The same for a crew that is not sweeping, which may come to stand elsewhere. -/
theorem rel_settleCrew (hshell : ∀ (b : Block) ci held, R b (b.modCrew ci (Crew.settleShell held))) {s : State} (v ci : Nat)
    {u : Nat} {b : Block} (h : s.block? u = some b) : ∃ b', (s.settleCrew v ci).block? u = some b' ∧ R b b' := by
  unfold State.settleCrew
  split
  · next x _ =>
    obtain ⟨b1, h1, hr⟩ := rel_modBlock hrefl v (f := (·.modCrew ci (Crew.settleShell (x.holdsLast ci)))) (fun _ => rfl)
      (fun b _ => hshell b ci _) h
    obtain ⟨b2, h2, hr'⟩ := rel_settle hrefl htrans hopen v h1
    exact ⟨b2, h2, htrans hr hr'⟩
  · exact ⟨b, h, hrefl b⟩

end Relation

end Sys2Proof.Proofs
end

