-- ==== Sys2Proof/Proofs/Exceptions.lean ====
section
/-! DONE, TRAP and BRK, instructions that may not run, and the return from an exception (05_encoding R68 to R70; 06_control_integer R85,
R86; 21_traps_preemption R335, R338): traps of several lanes, verdicts on an origin, and the obligations about them. -/

namespace Sys2Proof.Proofs

open Sys2Proof.Machine Sys2Proof.Laws

/-! ### What completing an instruction keeps -/

/-- What completing an instruction adds to its effect: where the crew stands, and the function's counters. -/
theorem completed_keeps (s : State) (k : Ctx) (i : Instr) (n : Nat) :
    SameMemory s ((s.modCur k (·.advance k n)).countIssue k i) ∧ ((s.modCur k (·.advance k n)).countIssue k i).gathered = s.gathered
      ∧ ∀ u ci j, ((s.modCur k (·.advance k n)).countIssue k i).laneAt u ci j = s.laneAt u ci j := by
  have hcount := countIssue_device (s.modCur k (·.advance k n)) k i
  refine ⟨sameMemory_trans (sameDevice_memory (sameDevice_modBlock s k.b.uid _)) (sameDevice_memory hcount), ?_, fun u ci j => ?_⟩
  · exact (congrArg State.gathered hcount.same).trans (modCur_gathered ..)
  · refine Eq.trans ?_ (laneAt_advance s k u ci j n)
    simp only [State.laneAt, State.crew?, countIssue_block]

/-! ### DONE (R85, R335) -/

theorem exec_done (g : Guard) (s : State) : exec (.done g) s = issue (.done g) (fun k s =>
    ((s.modCur k fun c => { c with lanes := c.lanes.map fun l => if l.takes g then { l with done := true, act := false } else l }).forLanes
      (k.c.takers g) fun s j _ => s.passVerdict k.b.uid j .none).settle k.b.uid) s := by
  have hlanes : ∀ c : Crew, c.eachLane g (fun _ l => { l with done := true, act := false })
      = { c with lanes := c.lanes.map fun l => if l.takes g then { l with done := true, act := false } else l } := fun c => by
    rw [Crew.eachLane, Crew.mapLanes, mapIdx_map (fun l : Lane => if l.takes g then { l with done := true, act := false } else l)]
  simp only [exec, execDone, hlanes]

theorem done_step {g : Guard} {s : State} {k : Ctx} (h : Issues s k (.done g)) (hh : k.b.hnd = []) :
    ∃ t, exec (.done g) s = .next t ∧ SameMemory s t ∧ ∀ j l, k.c.lanes[j]? = some l → ∃ l', t.laneAt k.b.uid k.ci j = some l' ∧
      SameButPark (if l.takes g then { l with done := true, act := false } else l) l' := by
  have hblock := block_modCur (f := fun c => { c with lanes := c.lanes.map fun l => if l.takes g then { l with done := true, act := false } else l })
    (begun_block (i := .done g) h.now)
  set s1 := (s.begun k (.done g)).modCur k fun c =>
    { c with lanes := c.lanes.map fun l => if l.takes g then { l with done := true, act := false } else l } with hs1
  have hverdicts : s1.forLanes (k.c.takers g) (fun s j _ => s.passVerdict k.b.uid j .none) = s1 :=
    forLanes_id _ _ fun p _ => passVerdict_none fun b hb => by rw [hblock] at hb; cases hb; exact hh
  have hexec : exec (.done g) s = .next (((s1.settle k.b.uid).modCur k (·.advance k (Instr.done g).len)).countIssue k (.done g)) := by
    rw [exec_done, issue_eq h, ← hs1, hverdicts]
  obtain ⟨hmem, -, hlane⟩ := completed_keeps (s1.settle k.b.uid) k (.done g) (Instr.done g).len
  refine ⟨_, hexec, sameMemory_trans (sameMemory_trans ?_ (sameDevice_memory (settle_same s1 k.b.uid))) hmem, fun j l hl => ?_⟩
  · exact sameMemory_trans (sameDevice_memory (begun_same s k _)) (sameDevice_memory (sameDevice_modBlock _ _ _))
  · obtain ⟨-, hci, -, -⟩ := issuing_eq h.now
    have h1 : s1.laneAt k.b.uid k.ci j = some (if l.takes g then { l with done := true, act := false } else l) := by
      have hcrew : (k.b.crews.set k.ci (k.begun s (.done g)))[k.ci]? = some (k.begun s (.done g)) := set_get hci
      rw [laneAt_eq hblock (by rw [Block.modCrew, List.getElem?_modify_eq, hcrew]; rfl)]
      simp only [List.getElem?_map]
      exact congrArg (Option.map _) hl
    obtain ⟨l', hl', hp⟩ := laneAt_settle k.b.uid h1
    exact ⟨l', (hlane ..).trans hl', hp⟩

/-- Settles O9: DONE ends its lanes and looks at the barriers again; in a block that is no handler crew no verdict is passed. -/
theorem doneFinishesItsLanes : Obligations.DoneFinishesItsLanes := by
  unfold Obligations.DoneFinishesItsLanes
  exact ⟨fun g => completes_of (exec_done g), fun g s k h hh => done_step h hh⟩

/-! ### TRAP and BRK (R70, R86) -/

/-- Taking an exception leaves what walks read. -/
theorem trapLane_walks {k : Ctx} (hh : k.b.hnd = []) (s : State) (j : Nat) (cause : Cause) (fault : DWord) (off wl ro : Word) :
    SameWalks s (s.trapLane k j cause fault off wl ro) := by
  rw [State.trapLane, hh, if_neg (by decide)]
  exact sameWalks_trans (by constructor <;> rfl) (sameWalks_of_blocks (settle_device _ k.b.uid))

section Traps
variable {k : Ctx} (hh : k.b.hnd = []) (cause : Cause) (fault : DWord) (off : Word) {place : State → Lane → Word × Word}
  (hplace : ∀ {s t : State}, SameWalks s t → place t = place s)
include hh hplace

/-- Taking an exception in each of some lanes of the issuing crew, each to go on at a place of its own. -/
theorem trapLanes_spec : ∀ (ps : List (Nat × Lane)) (s : State), (ps.map (·.1)).Nodup →
    (∀ p ∈ ps, ∃ l, s.laneAt k.b.uid k.ci p.1 = some l ∧ SameButPark p.2 l) →
    let t := s.forLanes ps fun s j l => s.trapLane k j cause fault off (place s l).1 (place s l).2
    SameMemory s t ∧ t.gathered = s.gathered ++ (ps.map fun p => k.handed p.1 cause fault off s.cyc)
      ∧ (∀ p ∈ ps, ∃ l', t.laneAt k.b.uid k.ci p.1 = some l' ∧ TrappedAt p.2 l' (place s p.2).1 (place s p.2).2)
      ∧ ∀ j l, (∀ p ∈ ps, p.1 ≠ j) → s.laneAt k.b.uid k.ci j = some l → ∃ l', t.laneAt k.b.uid k.ci j = some l' ∧ SameButPark l l'
  | [], s, _, _ => ⟨fun _ _ _ => rfl, by simp [State.forLanes], by simp, fun j l _ h => ⟨l, h, sameButPark_refl l⟩⟩
  | p :: ps, s, hnodup, hlanes => by
    obtain ⟨hfirst, hnodup⟩ := List.nodup_cons.mp hnodup
    have hne : ∀ q ∈ ps, q.1 ≠ p.1 := fun q hq he => hfirst (List.mem_map.mpr ⟨q, hq, he⟩)
    obtain ⟨l0, h0, hp0⟩ := hlanes p List.mem_cons_self
    obtain ⟨⟨l1, h1, htrapped⟩, hgather, hmem⟩ := trapLane_spec hh h0 cause fault off (place s p.2).1 (place s p.2).2
    obtain ⟨-, hcyc, -⟩ := trapLane_gathers (s := s) p.1 hh cause fault off (place s p.2).1 (place s p.2).2
    have hother : ∀ j l, p.1 ≠ j → s.laneAt k.b.uid k.ci j = some l →
        ∃ l', (s.trapLane k p.1 cause fault off (place s p.2).1 (place s p.2).2).laneAt k.b.uid k.ci j = some l' ∧ SameButPark l l' :=
      fun j l hj hl => trapLane_other hh cause fault off _ _ hl fun h => hj h.2.2.symm
    obtain ⟨hmem', hgather', htrapped', hother'⟩ := trapLanes_spec ps
      (s.trapLane k p.1 cause fault off (place s p.2).1 (place s p.2).2) hnodup fun q hq => by
        obtain ⟨m, hm, hpm⟩ := hlanes q (List.mem_cons_of_mem _ hq)
        obtain ⟨m', hm', hpm'⟩ := hother q.1 m (hne q hq).symm hm
        exact ⟨m', hm', sameButPark_trans hpm hpm'⟩
    refine ⟨sameMemory_trans hmem hmem', ?_, fun q hq => ?_, fun j l hj hl => ?_⟩
    · refine hgather'.trans ?_
      rw [hgather, hcyc, List.append_assoc]
      rfl
    · rcases List.mem_cons.mp hq with rfl | hq
      · obtain ⟨l', hl', hp'⟩ := hother' q.1 l1 hne h1
        exact ⟨l', hl', trappedAt_from (trappedAt_of htrapped hp') hp0⟩
      · rw [← hplace (trapLane_walks hh s p.1 cause fault off (place s p.2).1 (place s p.2).2)]
        exact htrapped' q hq
    · obtain ⟨m, hm, hpm⟩ := hother j l (hj p List.mem_cons_self) hl
      obtain ⟨m', hm', hpm'⟩ := hother' j m (fun q hq => hj q (List.mem_cons_of_mem _ hq)) hm
      exact ⟨m', hm', sameButPark_trans hpm hpm'⟩

end Traps

/-- An instruction that traps its lanes, each to go on after it. -/
theorem trapWith_step {i : Instr} {cause : Cause} {x : Word} {s : State} {k : Ctx} (hi : exec i s = trapWith i cause x s)
    (h : Issues s k i) (hh : k.b.hnd = []) : ∃ t, exec i s = .next t ∧ SameMemory s t
      ∧ t.gathered = s.gathered ++ (k.c.takers i.guard).map (fun p => k.handed p.1 cause (x.setWidth 64) k.pc s.cyc)
      ∧ ∀ j l, k.c.lanes[j]? = some l → ∃ l', t.laneAt k.b.uid k.ci j = some l' ∧
          if l.takes i.guard then TrappedAt l l' (s.after k i.len l.wl).1 (s.after k i.len l.wl).2 else SameButPark l l' := by
  have hlane : ∀ j, (s.begun k i).laneAt k.b.uid k.ci j = k.c.lanes[j]? := begun_laneAt h.now
  obtain ⟨hmem, hgather, htrapped, hother⟩ := trapLanes_spec hh cause (x.setWidth 64) k.pc
    (place := fun s l => s.after k i.len l.wl) (fun hw => funext fun l => after_walks hw k i.len l.wl) (k.c.takers i.guard) (s.begun k i)
    (takers_nodup k.c i.guard) fun p hp => ⟨p.2, (hlane p.1).trans (mem_takers.mp hp).1, sameButPark_refl p.2⟩
  obtain ⟨hmem', hgather', hlane'⟩ := completed_keeps ((s.begun k i).forLanes (k.c.takers i.guard) fun s j l =>
    s.trapLane k j cause (x.setWidth 64) k.pc (s.after k i.len l.wl).1 (s.after k i.len l.wl).2) k i i.len
  refine ⟨_, hi.trans (issue_eq h), sameMemory_trans (sameDevice_memory (begun_same s k i)) (sameMemory_trans hmem hmem'), ?_, fun j l hl => ?_⟩
  · rw [hgather', hgather, begun_gathered, begun_cyc]
  · rw [hlane']
    by_cases htakes : l.takes i.guard = true
    · obtain ⟨l', hl', ht⟩ := htrapped (j, l) (mem_takers.mpr ⟨hl, htakes⟩)
      rw [after_begun] at ht
      exact ⟨l', hl', by rw [if_pos htakes]; exact ht⟩
    · obtain ⟨l', hl', hp⟩ := hother j l (fun p hp he => htakes (by
        obtain ⟨hget, hp'⟩ := mem_takers.mp hp
        rw [he, hl] at hget
        cases hget
        exact hp')) ((hlane j).trans hl)
      exact ⟨l', hl', by rw [if_neg htakes]; exact hp⟩

/-- Settles O10: each taking of an exception leaves the other lanes as they are, and moves no label that tells where a lane goes on. -/
theorem trapsTakeTheirException : Obligations.TrapsTakeTheirException := by
  unfold Obligations.TrapsTakeTheirException
  refine ⟨fun g x => completes_of fun _ => rfl, fun g x => completes_of fun _ => rfl, fun i x cause s k hi h hh => ?_⟩
  obtain ⟨⟨g, rfl⟩, rfl⟩ | ⟨⟨g, rfl⟩, rfl⟩ := hi
  · exact trapWith_step rfl h hh
  · exact trapWith_step rfl h hh

/-! ### Instructions that may not run (R68, R69, R369) -/

section MayNotRun
variable {i : Instr} {s : State} {k : Ctx} (hi : i.isEvent = false) (hk : s.issuing = some k)
include hi hk

theorem exec_of_not_legal (h : i.legal k.b k.c = false) :
    exec i s = .next (((s.noteIssue k i).trapActive k .illegal).modCur k (·.advance k i.len)) := by
  obtain ⟨eff, heff⟩ := exec_issued i hi
  simp only [heff, issue, hk, h, Bool.not_false, if_true]

theorem exec_of_not_permitted (h : i.legal k.b k.c = true) (hp : i.permitted k.b = false) :
    exec i s = .next (((s.noteIssue k i).trapActive k .privilege).modCur k (·.advance k i.len)) := by
  obtain ⟨eff, heff⟩ := exec_issued i hi
  simp only [heff, issue, hk, h, hp, Bool.not_true, Bool.not_false, Bool.false_eq_true, if_true, if_false]

end MayNotRun

/-- The traps of an instruction that may not run, where its block is no handler crew. -/
theorem noteTrap_advance {s : State} {k : Ctx} (hk : s.issuing = some k) (i : Instr) (cause : Cause) (hh : k.b.hnd = []) :
    let t := ((s.noteIssue k i).trapActive k cause).modCur k (·.advance k i.len)
    SameMemory s t ∧ (∀ j l, k.c.lanes[j]? = some l → l.act = true → ∃ l', t.laneAt k.b.uid k.ci j = some l' ∧ TrappedAt l l' l.wl k.again)
      ∧ t.gathered = s.gathered ++ (k.c.slots.filter (·.2.act)).map fun p => k.handed p.1 cause (k.b.codeVa k.pc) k.pc s.cyc := by
  obtain ⟨hmem, hgather, htrapped⟩ := noteTrap_spec hk hh i cause
  refine ⟨sameMemory_trans hmem (sameDevice_memory (sameDevice_modBlock _ _ _)), fun j l hl hact => ?_, (modCur_gathered ..).trans hgather⟩
  obtain ⟨l', hl', ht⟩ := htrapped j l hl hact
  exact ⟨l', (laneAt_advance ..).trans hl', ht⟩

theorem legal_unassignedMajor (w : DWord) (b : Block) (c : Crew) : (Instr.unassignedMajor w).legal b c = false := Bool.and_false _

/-- Settles O12: whatever the instruction, the checks of R69 come before its effect. -/
theorem instructionsThatMayNotRunTrap : Obligations.InstructionsThatMayNotRunTrap := by
  unfold Obligations.InstructionsThatMayNotRunTrap
  refine ⟨fun i s k hi hk h => ⟨_, exec_of_not_legal hi hk h, rfl, noteTrap_advance hk i .illegal⟩,
    fun i s k hi hk h hp => ⟨_, exec_of_not_permitted hi hk h hp, rfl, noteTrap_advance hk i .privilege⟩,
    fun w s k hk => ⟨legal_unassignedMajor w _ _, exec_of_not_legal rfl hk (legal_unassignedMajor w _ _)⟩⟩

end Sys2Proof.Proofs
end

