-- ==== Sys2Proof/Proofs/Verdicts.lean ====
section
/-! The return from an exception and the handler instructions (21_traps_preemption R335, R336, R338; 23_system_instructions R382 to R384):
what a verdict does to its origin and its origin's block, what HGET reads and HPUT writes, and the obligations about them. -/

namespace Sys2Proof.Proofs

open Sys2Proof.Machine Sys2Proof.Laws

/-! ### A killed lane (R335, R339) -/

/-- A lane that a verdict ends. -/
def endedLane (l : Lane) : Lane := { l with done := true, trapped := false, act := false }

/-- A block that counts more kills. -/
def addKills (n : Nat) (b : Block) : Block := { b with kills := b.kills + n }

theorem killLane_eq (s : State) (o : Origin) (n : Nat) : s.killLane o n =
    (s.modLane o.blk o.crew o.lane endedLane).modBlock o.blk (addKills n) :=
  (modBlock_modBlock s o.blk (·.modCrew o.crew (·.modLane o.lane endedLane)) (addKills n) fun _ => rfl).symm

theorem laneAt_killLane (s : State) (o : Origin) (n u ci j : Nat) : (s.killLane o n).laneAt u ci j =
    if u = o.blk ∧ ci = o.crew ∧ j = o.lane then (s.laneAt u ci j).map endedLane else s.laneAt u ci j := by
  rw [killLane_eq, laneAt_modBlock (f := addKills n) (fun _ => rfl) (fun _ => rfl), laneAt_modLane]

theorem settleCrew_mem (s : State) (u ci : Nat) : SameMemory s (s.settleCrew u ci) := device_mem (settleCrew_device s u ci)

/-- A change of one lane, after which its crew is looked at again: the lane is as changed, and the others as they were, but that a
barrier may let them go. -/
theorem laneAt_changed_settleCrew {s t : State} {o : Origin} {f : Lane → Lane}
    (h : ∀ u ci j, t.laneAt u ci j = if u = o.blk ∧ ci = o.crew ∧ j = o.lane then (s.laneAt u ci j).map f else s.laneAt u ci j) :
    (∀ l, s.laneAt o.blk o.crew o.lane = some l →
      ∃ l', (t.settleCrew o.blk o.crew).laneAt o.blk o.crew o.lane = some l' ∧ SameButPark (f l) l')
    ∧ ∀ u ci j m, ¬ (u = o.blk ∧ ci = o.crew ∧ j = o.lane) → s.laneAt u ci j = some m →
        ∃ m', (t.settleCrew o.blk o.crew).laneAt u ci j = some m' ∧ SameButPark m m' := by
  refine ⟨fun l hl => laneAt_settleCrew _ _ ?_, fun u ci j m hne hm => laneAt_settleCrew _ _ ?_⟩
  · rw [h, if_pos ⟨rfl, rfl, rfl⟩, hl]
    rfl
  · rw [h, if_neg hne, hm]

/-! ### Verdicts that abort nothing (R335) -/

section Verdict
variable {s : State} {h : HLane} {v : Verdict} {o : Origin} {b : Block} (ho : h.origin = some o)
include ho

/-- A verdict on a trapped lane resumes it, where its block is not aborted and the verdict says so, and else ends it. -/
theorem verdict_of_trap (ht : h.cause.isTrap = true) (hv : v ≠ .abort) (hb : s.block? o.blk = some b) : s.verdict h v =
    (if v = .resume ∧ b.abort = none then s.modLane o.blk o.crew o.lane fun l => { l with trapped := false, resumed := true }
      else s.killLane o 1).settleCrew o.blk o.crew := by
  cases v with
  | abort => exact absurd rfl hv
  | kill | none => simp [State.verdict, ho, ht]
  | resume => cases habort : b.abort <;> simp [State.verdict, ho, ht, hb, habort]

/-- A verdict about a report or request that aborts nothing only looks at its origin's crew again. -/
theorem verdict_of_report (ht : h.cause.isTrap = false) (hv : v ≠ .abort) : s.verdict h v = s.settleCrew o.blk o.crew := by
  cases v with
  | abort => exact absurd rfl hv
  | kill | none | resume => simp [State.verdict, ho, ht]

/-- A block that is aborted by an origin: what becomes of it that was not aborted yet. -/
def abortBy (tag : DWord) (o : Origin) (b : Block) : Block :=
  if b.abort.isSome then b
  else { b with
    abort := some (tag, o), errs := (b.crews.filter (·.live)).map fun c => (c.cid, 0, 0), crews := b.crews.map fun c => { c with skid := 0 } }

theorem verdict_abort : s.verdict h .abort =
    ((if h.cause.isTrap then s.killLane o 0 else s).modBlock o.blk (abortBy h.tag o)).settleCrew o.blk o.crew := by
  simp only [State.verdict, ho, beq_self_eq_true, if_true]
  rfl

end Verdict

/-- A verdict on a trapped lane acts on that lane alone (R335). -/
theorem verdict_trap_lanes {s : State} {h : HLane} {v : Verdict} {o : Origin} {b : Block} {c : Crew} {l : Lane} (ho : h.origin = some o)
    (ht : h.cause.isTrap = true) (hv : v ≠ .abort) (hb : s.block? o.blk = some b) (hc : b.crews[o.crew]? = some c)
    (hl : c.lanes[o.lane]? = some l) : SameMemory s (s.verdict h v)
      ∧ (∃ l', (s.verdict h v).laneAt o.blk o.crew o.lane = some l' ∧ SameButPark
          (if v = .resume ∧ b.abort = none then { l with trapped := false, resumed := true }
            else { l with done := true, trapped := false, act := false }) l')
      ∧ ∀ u ci i m, ¬ (u = o.blk ∧ ci = o.crew ∧ i = o.lane) → s.laneAt u ci i = some m →
          ∃ m', (s.verdict h v).laneAt u ci i = some m' ∧ SameButPark m m' := by
  have hlane : s.laneAt o.blk o.crew o.lane = some l := (laneAt_eq hb hc).trans hl
  rw [verdict_of_trap ho ht hv hb]
  by_cases hr : v = .resume ∧ b.abort = none
  · simp only [hr, and_self, if_true]
    obtain ⟨hself, hother⟩ := laneAt_changed_settleCrew (o := o) (laneAt_modLane s o.blk o.crew o.lane fun l => { l with trapped := false, resumed := true })
    exact ⟨sameMemory_trans (sameDevice_memory (sameDevice_modBlock ..)) (settleCrew_mem _ _ _), hself l hlane, hother⟩
  · simp only [hr, if_false]
    obtain ⟨hself, hother⟩ := laneAt_changed_settleCrew (laneAt_killLane s o 1)
    exact ⟨sameMemory_trans (sameDevice_memory (sameDevice_modBlock ..)) (settleCrew_mem _ _ _), hself l hlane, hother⟩

theorem verdict_report_lanes (s : State) (h : HLane) (v : Verdict) (hv : v ≠ .abort) (ht : h.cause.isTrap = false) :
    SameMemory s (s.verdict h v) ∧ ∀ u ci i m, s.laneAt u ci i = some m → ∃ m', (s.verdict h v).laneAt u ci i = some m' ∧ SameButPark m m' := by
  cases ho : h.origin with
  | none =>
    have hsame : s.verdict h v = s := by simp only [State.verdict, ho]
    rw [hsame]
    exact ⟨fun _ _ _ => rfl, fun u ci i m hm => ⟨m, hm, sameButPark_refl m⟩⟩
  | some o =>
    rw [verdict_of_report ho ht hv]
    exact ⟨settleCrew_mem _ _ _, fun u ci i m hm => laneAt_settleCrew _ _ hm⟩

/-! ### Aborts (R335, R338) -/

/-- What looking at barriers and crews again keeps of a block's abort. -/
structure KeepsAbort (b b' : Block) : Prop where
  length : b'.crews.length = b.crews.length
  abort : b'.abort = b.abort
  errs : b'.errs = b.errs
  skids : ∀ c' ∈ b'.crews, ∃ c ∈ b.crews, c'.skid = c.skid

theorem keepsAbort_refl (b : Block) : KeepsAbort b b := ⟨rfl, rfl, rfl, fun c hc => ⟨c, hc, rfl⟩⟩

theorem keepsAbort_trans {a b c : Block} (h : KeepsAbort a b) (h' : KeepsAbort b c) : KeepsAbort a c := by
  refine ⟨h'.length.trans h.length, h'.abort.trans h.abort, h'.errs.trans h.errs, fun x hx => ?_⟩
  obtain ⟨y, hy, hxy⟩ := h'.skids x hx
  obtain ⟨z, hz, hyz⟩ := h.skids y hy
  exact ⟨z, hz, hxy.trans hyz⟩

theorem keepsAbort_open (b : Block) (arr : List (Nat × Nat)) (inst : Nat) (arr' : List (Nat × Nat)) (inst' : Nat) (p : Park → Bool) :
    KeepsAbort b { b with barArr := arr, barInst := inst, barcArr := arr', barcInst := inst', crews := b.crews.map (·.unparkWhere p) } := by
  refine ⟨List.length_map .., rfl, rfl, fun c' hc' => ?_⟩
  obtain ⟨c, hc, rfl⟩ := List.mem_map.mp hc'
  exact ⟨c, hc, rfl⟩

theorem keepsAbort_modCrew {f : Crew → Crew} (hf : ∀ c, (f c).skid = c.skid) (b : Block) (ci : Nat) : KeepsAbort b (b.modCrew ci f) := by
  refine ⟨List.length_modify .., rfl, rfl, fun c' hc' => ?_⟩
  obtain ⟨j, hj⟩ := List.mem_iff_getElem?.mp hc'
  simp only [Block.modCrew, List.getElem?_modify] at hj
  cases hc : b.crews[j]? with
  | none => rw [hc] at hj; cases hj
  | some c =>
    rw [hc] at hj
    obtain rfl := Option.some.inj hj
    exact ⟨c, List.mem_of_getElem? hc, by dsimp only; split <;> simp only [hf]⟩

theorem settleShell_skid (held : Bool) (c : Crew) : (c.settleShell held).skid = c.skid := by
  unfold Crew.settleShell
  split <;> rfl

theorem keepsAbort_settleCrew {s : State} (v ci : Nat) {u : Nat} {b : Block} (h : s.block? u = some b) :
    ∃ b', (s.settleCrew v ci).block? u = some b' ∧ KeepsAbort b b' :=
  rel_settleCrew keepsAbort_refl keepsAbort_trans keepsAbort_open (fun b ci held => keepsAbort_modCrew (settleShell_skid held) b ci) v ci h

/-- A change of one element that keeps what a list is filtered and mapped by. -/
theorem filter_map_modify {α β : Type} {p : α → Bool} {g : α → β} {f : α → α} (hp : ∀ x, p (f x) = p x) (hg : ∀ x, g (f x) = g x) :
    ∀ (l : List α) (i : Nat), ((l.modify i f).filter p).map g = (l.filter p).map g
  | [], i => by cases i <;> rfl
  | x :: l, 0 => by
    rw [List.modify_zero_cons, List.filter_cons, List.filter_cons, hp]
    split <;> simp only [List.map_cons, hg]
  | x :: l, i + 1 => by
    rw [List.modify_succ_cons, List.filter_cons, List.filter_cons]
    split <;> simp only [List.map_cons, filter_map_modify hp hg l i]

/-- The origin's block once its lane is ended, where it was trapped: which crews of it are live stays. -/
theorem killed_block {s : State} {o : Origin} {b : Block} (trap : Bool) (hb : s.block? o.blk = some b) :
    ∃ b1, (if trap then s.killLane o 0 else s).block? o.blk = some b1 ∧ b1.crews.length = b.crews.length ∧ b1.abort = b.abort
      ∧ b1.errs = b.errs
      ∧ (b1.crews.filter (·.live)).map (fun c => (c.cid, (0 : Word), 0)) = (b.crews.filter (·.live)).map fun c => (c.cid, 0, 0) := by
  cases trap with
  | false => exact ⟨b, hb, rfl, rfl, rfl, rfl⟩
  | true =>
    refine ⟨_, modBlock_at (fun _ => rfl) hb, List.length_modify .., rfl, rfl, ?_⟩
    exact filter_map_modify (p := Crew.live) (g := fun c : Crew => (c.cid, (0 : Word), 0)) (f := (·.modLane o.lane endedLane))
      (fun _ => rfl) (fun _ => rfl) _ _

/-- An abort verdict aborts the origin's block by it, where it is not aborted yet. -/
theorem verdict_abort_block {s : State} {h : HLane} {o : Origin} {b : Block} (ho : h.origin = some o) (hb : s.block? o.blk = some b) :
    ∃ b', (s.verdict h .abort).block? o.blk = some b' ∧ b'.crews.length = b.crews.length
      ∧ (∀ x, b.abort = some x → b'.abort = some x ∧ b'.errs = b.errs)
      ∧ (b.abort = none → b'.abort = some (h.tag, o) ∧ b'.errs = (b.crews.filter (·.live)).map (fun c => (c.cid, 0, 0))
          ∧ ∀ c ∈ b'.crews, c.skid = 0) := by
  obtain ⟨b1, h1, hlength, habort, herrs, hlive⟩ := killed_block h.cause.isTrap hb
  have h2 := modBlock_at (f := abortBy h.tag o) (fun b => by unfold abortBy; split <;> rfl) h1
  obtain ⟨b', h', hkeep⟩ := keepsAbort_settleCrew o.blk o.crew h2
  refine ⟨b', by rw [verdict_abort ho, h'], hkeep.length.trans ?_, fun x hx => ?_, fun hnone => ?_⟩
  · unfold abortBy
    split
    · exact hlength
    · exact (List.length_map ..).trans hlength
  · have hkept : abortBy h.tag o b1 = b1 := by rw [abortBy, habort, hx, Option.isSome_some, if_pos rfl]
    rw [hkeep.abort, hkeep.errs, hkept]
    exact ⟨habort.trans hx, herrs⟩
  · have hnew : abortBy h.tag o b1 = { b1 with
        abort := some (h.tag, o), errs := (b1.crews.filter (·.live)).map fun c => (c.cid, 0, 0)
        crews := b1.crews.map fun c => { c with skid := 0 } } := by
      rw [abortBy, habort, hnone, Option.isSome_none, if_neg Bool.false_ne_true]
    rw [hkeep.abort, hkeep.errs]
    refine ⟨by rw [hnew], by rw [hnew]; exact hlive, fun c' hc' => ?_⟩
    obtain ⟨c, hc, hskid⟩ := hkeep.skids c' hc'
    rw [hnew] at hc
    obtain ⟨d, -, rfl⟩ := List.mem_map.mp hc
    exact hskid

theorem abortBy_lanes (tag : DWord) (o : Origin) (b : Block) (ci j : Nat) :
    ((abortBy tag o b).crews[ci]?).bind (fun c => c.lanes[j]?) = (b.crews[ci]?).bind fun c => c.lanes[j]? := by
  unfold abortBy
  split
  · rfl
  · simp only [List.getElem?_map]
    cases b.crews[ci]? <;> rfl

theorem laneAt_eq_bind (s : State) (u ci j : Nat) :
    s.laneAt u ci j = (s.block? u).bind fun b => (b.crews[ci]?).bind fun c => c.lanes[j]? := by
  simp only [State.laneAt, State.crew?]
  cases s.block? u with
  | none => rfl
  | some b => cases h : b.crews[ci]? <;> simp only [h, Option.bind_some, Option.bind_none]

theorem laneAt_abortBy (s : State) (tag : DWord) (o : Origin) (u ci j : Nat) :
    (s.modBlock o.blk (abortBy tag o)).laneAt u ci j = s.laneAt u ci j := by
  rw [laneAt_eq_bind, laneAt_eq_bind, block_modBlock s fun b => by unfold abortBy; split <;> rfl]
  split
  · next hu =>
    subst hu
    cases s.block? o.blk with
    | none => rfl
    | some b => exact abortBy_lanes tag o b ci j
  · rfl

theorem verdict_abort_mem {s : State} {h : HLane} {o : Origin} (ho : h.origin = some o) : SameMemory s (s.verdict h .abort) := by
  rw [verdict_abort ho]
  refine sameMemory_trans (sameMemory_trans ?_ (sameDevice_memory (sameDevice_modBlock ..))) (settleCrew_mem _ _ _)
  split
  · exact sameDevice_memory (sameDevice_modBlock ..)
  · exact fun _ _ _ => rfl

/-- An abort ends its origin's lane, where it is trapped (R338). -/
theorem verdict_abort_lane {s : State} {h : HLane} {o : Origin} {b : Block} {c : Crew} {l : Lane} (ho : h.origin = some o)
    (ht : h.cause.isTrap = true) (hb : s.block? o.blk = some b) (hc : b.crews[o.crew]? = some c) (hl : c.lanes[o.lane]? = some l) :
    ∃ l', (s.verdict h .abort).laneAt o.blk o.crew o.lane = some l'
      ∧ SameButPark { l with done := true, trapped := false, act := false } l' := by
  rw [verdict_abort ho, ht, if_pos rfl]
  refine laneAt_settleCrew _ _ ?_
  rw [laneAt_abortBy, laneAt_killLane, if_pos ⟨rfl, rfl, rfl⟩, laneAt_eq hb hc, hl]
  rfl

/-! ### Verdicts are passed once (R335) -/

section Pass
variable {s : State} {u j : Nat} {v : Verdict} {b : Block} {h : HLane} (hb : s.block? u = some b)
include hb

theorem passVerdict_of_decided (hj : b.hnd[j]? = some h) (hd : h.decided = true) : s.passVerdict u j v = s := by
  simp only [State.passVerdict, hb, hj, hd, if_true]

theorem passVerdict_of_first (hj : b.hnd[j]? = some h) (hd : h.decided = false) : s.passVerdict u j v =
    (s.modBlock u fun b => { b with hnd := b.hnd.modify j fun h => { h with decided := true } }).verdict h v := by
  simp only [State.passVerdict, hb, hj, hd, Bool.false_eq_true, if_false]

theorem passVerdict_of_no_lane (hj : b.hnd[j]? = none) : s.passVerdict u j v = s := by
  simp only [State.passVerdict, hb, hj]

end Pass

/-- Settles O16: a verdict changes its origin's lane, or aborts its origin's block, and then looks at the origin's crew again. -/
theorem verdictsReturn : Obligations.VerdictsReturn := by
  unfold Obligations.VerdictsReturn
  refine ⟨fun s h v o b c l => verdict_trap_lanes, verdict_report_lanes, fun s u j v b h => passVerdict_of_decided,
    fun s h o b ho hb => ?_⟩
  obtain ⟨b', hb', hlength, hkept, hnew⟩ := verdict_abort_block ho hb
  exact ⟨b', hb', verdict_abort_mem ho, hlength, hkept, hnew, fun ht c l hc hl => verdict_abort_lane ho ht hb hc hl⟩

/-! ### HINFO and HGET (R382, R383) -/

/-- A change of one crew leaves what walks read. -/
theorem sameWalks_modCrew (s : State) (u ci : Nat) (f : Crew → Crew) : SameWalks s (s.modCrew u ci f) := sameWalks_of_blocks rfl

/-- An instruction that acts in each of its lanes, after which these lanes pass the implicit point (R340, R341). -/
theorem issue_eachLane_implicit {i : Instr} {eff : Ctx → State → State} {s : State} {k : Ctx} (h : Issues s k i) (g : Guard)
    {f : Nat → Lane → Lane} (hf : ∀ j l, (f j l).wl = l.wl ∧ (f j l).takes g = l.takes g)
    (he : eff k (s.begun k i) = ((s.begun k i).modCur k fun c => c.eachLane g f).passImplicit k g 1) :
    ∃ t, issue i eff s = .next t ∧ CrewStep s t k i (k.c.lanes.mapIdx fun j l =>
      if l.takes g then (f j l).implicitPoint (s.after k 1 l.wl) else l) k.c.s := by
  have hafter : ∀ wl, ((s.begun k i).modCur k fun c => c.eachLane g f).after k 1 wl = s.after k 1 wl := fun wl =>
    after_walks (sameWalks_trans (sameWalks_of_blocks (begun_blocks s k i)) (sameWalks_modCrew (s.begun k i) k.b.uid k.ci (·.eachLane g f))) k 1 wl
  have hlane : ∀ j l, (if (if l.takes g then f j l else l).takes g then
      (if l.takes g then f j l else l).implicitPoint (s.after k 1 (if l.takes g then f j l else l).wl)
      else if l.takes g then f j l else l) = if l.takes g then (f j l).implicitPoint (s.after k 1 l.wl) else l := fun j l => by
    obtain ⟨hwl, htakes⟩ := hf j l
    cases ht : l.takes g with
    | true => simp only [if_true, htakes, ht, hwl]
    | false => simp only [Bool.false_eq_true, if_false, ht]
  rw [passImplicit_eq, funext hafter] at he
  refine issue_crew (f := fun c => { c with
    lanes := c.lanes.mapIdx fun j l => if l.takes g then (f j l).implicitPoint (s.after k 1 l.wl) else l }) h ?_ (issuing_eq h.now).2.2.1
  rw [he]
  simp only [State.modCur, modCrew_modCrew]
  congr 1
  funext c
  have hlanes : (c.lanes.mapIdx fun j l => if l.takes g then f j l else l).map
      (fun l => if l.takes g then l.implicitPoint (s.after k 1 l.wl) else l)
      = c.lanes.mapIdx fun j l => if l.takes g then (f j l).implicitPoint (s.after k 1 l.wl) else l := by
    refine List.ext_getElem? fun j => ?_
    simp only [List.getElem?_map, List.getElem?_mapIdx, Option.map_map, Function.comp_def, hlane]
  simp only [Crew.eachLane, Crew.mapLanes, hlanes]

/-- A write of a vector register leaves where a lane stands, and whether it takes part. -/
theorem wr_vector {r : Reg} (hr : r.isV = true) (g : Guard) (l : Lane) (x : Word) : (l.wr r x).wl = l.wl ∧ (l.wr r x).takes g = l.takes g := by
  cases r with
  | v n => exact ⟨rfl, rfl⟩
  | s n | q n | sp n | none => cases hr

theorem wr64_place (r : Reg) (g : Guard) (l : Lane) (x : DWord) : (l.wr64 r x).wl = l.wl ∧ (l.wr64 r x).takes g = l.takes g := by
  cases r <;> exact ⟨rfl, rfl⟩

theorem exec_hinfo (g : Guard) (pc : Bool) (d : Reg) (s : State) : exec (.hinfo g pc d) s = issue (.hinfo g pc d) (fun k s =>
    (s.modCur k fun c => c.eachLane g fun i l => match k.handled i with
      | some h => if pc then l.wr d h.off else l.wr64 d h.fault
      | none => l).passImplicit k g 1) s := rfl

theorem exec_hget (g : Guard) (d r : Reg) (s : State) : exec (.hget g d r) s = issue (.hget g d r) (fun k s =>
    (s.modCur k fun c => c.eachLane g fun i l => l.wr d (match s.originOf k i with
      | some (b, cr, x, o) => s.originReg b cr x o r
      | none => 0)).passImplicit k g 1) s := rfl

theorem operandsOk_of_issues {s : State} {k : Ctx} {i : Instr} (h : Issues s k i) : i.operandsOk = true := by
  have hlegal := h.legal
  simp only [Instr.legal, Instr.wf, Bool.and_eq_true] at hlegal
  exact hlegal.1.1.1.2

/-- The low word of a word. -/
theorem low_setWidth (x : Word) : bits (x.setWidth 64) 0 32 = x := by
  apply BitVec.eq_of_toNat_eq
  simp [x.isLt]

/-- The low word of a number. -/
theorem low_ofNat (n : Nat) : bits (BitVec.ofNat 64 n) 0 32 = BitVec.ofNat 32 n := by
  apply BitVec.eq_of_toNat_eq
  simp

theorem hinfo_step {g : Guard} {pc : Bool} {d : Reg} {s : State} {k : Ctx} (h : Issues s k (.hinfo g pc d)) :
    ∃ t, exec (.hinfo g pc d) s = .next t ∧ CrewStep s t k (Instr.hinfo g pc d) (k.c.lanes.mapIdx fun j l => if l.takes g then
      (match k.b.hnd[j]? with
      | some h => if pc then l.wr d h.off else l.wr64 d h.fault
      | none => l).implicitPoint (s.after k 1 l.wl)
      else l) k.c.s := by
  rw [exec_hinfo]
  refine issue_eachLane_implicit h g (f := fun j l => match k.b.hnd[j]? with
    | some h => if pc then l.wr d h.off else l.wr64 d h.fault
    | none => l) (fun j l => ?_) rfl
  have hd : d.isV = true := by
    have hok : (d.isV && (pc || d.isEven)) = true := operandsOk_of_issues h
    exact (Bool.and_eq_true_iff.mp hok).1
  cases k.b.hnd[j]? with
  | none => exact ⟨rfl, rfl⟩
  | some x => cases pc with
    | false => exact wr64_place d g l x.fault
    | true => exact wr_vector hd g l x.off

theorem hget_step {g : Guard} {d r : Reg} {s : State} {k : Ctx} (h : Issues s k (.hget g d r)) :
    ∃ t, exec (.hget g d r) s = .next t ∧ CrewStep s t k (Instr.hget g d r) (k.c.lanes.mapIdx fun j l => if l.takes g then
      (l.wr d (match (s.begun k (.hget g d r)).originOf k j with
        | some (b, cr, x, o) => (s.begun k (.hget g d r)).originReg b cr x o r
        | none => 0)).implicitPoint (s.after k 1 l.wl)
      else l) k.c.s := by
  have hd : d.isV = true := by
    have hok : (d.isV && r.isOrigin) = true := operandsOk_of_issues h
    exact (Bool.and_eq_true_iff.mp hok).1
  rw [exec_hget]
  exact issue_eachLane_implicit h g (f := fun j l => l.wr d (match (s.begun k (.hget g d r)).originOf k j with
    | some (b, cr, x, o) => (s.begun k (.hget g d r)).originReg b cr x o r
    | none => 0)) (fun j l => wr_vector hd g l _) rfl

/-- Settles O14: HINFO and HGET act in each lane by itself, and the register table is R383's. -/
theorem handlerReads : Obligations.HandlerReads := by
  unfold Obligations.HandlerReads
  refine ⟨fun g pc d s k => hinfo_step, fun g d r s k => hget_step, fun s b c l o => ?_⟩
  exact ⟨fun n hn => if_pos hn, fun n hn => if_neg (Nat.not_lt.mpr hn), fun n => rfl, fun n => rfl, low_setWidth _, low_setWidth _,
    low_setWidth _, low_ofNat _, low_setWidth _, low_ofNat _, low_ofNat _, low_setWidth _, low_setWidth _, low_ofNat _, low_ofNat _,
    low_ofNat _⟩

/-! ### HPUT (R383) -/

/-- A change of one crew and of one lane of it leaves every other lane. -/
theorem putOriginReg_others {s : State} {o : Origin} {budget : Nat} {r : Reg} {x : Word} {u ci j : Nat} {m : Lane}
    (hne : ¬ (u = o.blk ∧ ci = o.crew ∧ j = o.lane)) (hm : s.laneAt u ci j = some m) :
    (s.putOriginReg o budget r x).laneAt u ci j = some m := by
  have hlanes : ∀ c : Crew, (c.wrS r x).lanes = c.lanes := fun c => by cases r <;> rfl
  have hsplit : s.putOriginReg o budget r x = (s.modCrew o.blk o.crew (·.wrS r x)).modLane o.blk o.crew o.lane (·.putOrigin budget r x) :=
    (modCrew_modCrew s o.blk o.crew (·.wrS r x) (·.modLane o.lane (·.putOrigin budget r x))).symm
  rw [hsplit, laneAt_modLane, if_neg hne, laneAt_modCrew hlanes, hm]

theorem putOrigin_eq (l : Lane) (budget : Nat) (r : Reg) (x : Word) : l.putOrigin budget r x = (match r with
    | .v n => if n.toNat < budget then { l with v := l.v.set n.toNat x } else l
    | .q n => l.setPred n (x.getLsbD 0)
    | .sp .wl => { l with wl := x }
    | .sp .ro => { l with ro := x }
    | .sp .rng => { l with rng := x, rngc := x }
    | _ => l) := by
  cases r with
  | sp n => cases n <;> rfl
  | v n | s n | q n | none => rfl

/-- HPUT's write of a register of the origin (R383). -/
theorem putOriginReg_at {s : State} {o : Origin} {b : Block} {c : Crew} {l : Lane} (budget : Nat) (r : Reg) (x : Word)
    (hc : s.crew? o.blk o.crew = some (b, c)) (hl : c.lanes[o.lane]? = some l) : ∃ b' c',
      (s.putOriginReg o budget r x).crew? o.blk o.crew = some (b', c') ∧ c'.s = (c.wrS r x).s
      ∧ c'.lanes[o.lane]? = some (l.putOrigin budget r x) := by
  obtain ⟨hblock, hcrew⟩ := block_of_crew hc
  refine ⟨_, (c.wrS r x).modLane o.lane (·.putOrigin budget r x), crew_eq (modBlock_at (fun _ => rfl) hblock) ?_, rfl, ?_⟩
  · simp only [Block.modCrew, List.getElem?_modify, hcrew, if_true, Option.map_eq_map, Option.map_some]
  · have hlanes : (c.wrS r x).lanes = c.lanes := by cases r <;> rfl
    simp only [Crew.modLane, List.getElem?_modify, hlanes, hl, if_true, Option.map_eq_map, Option.map_some]

theorem wrS_scalars (c : Crew) (r : Reg) (x : Word) : (c.wrS r x).s = (match r with
    | .s n => c.s.set n.toNat x
    | _ => c.s) := by
  cases r <;> rfl

theorem exec_hput (g : Guard) (r a : Reg) (s : State) : exec (.hput g r a) s = issue (.hput g r a) (fun k s =>
    (s.forLanes (k.c.takers g) fun s i l => match s.originOf k i with
      | some (_, c, _, o) => s.putOriginReg o c.budget r (k.c.rd l a)
      | none => s).passImplicit k g 1) s := rfl

/-- Settles O15: the handler instructions' effects as they issue, HPUT's write, and the rules of verdicts that are passed once. -/
theorem handlerActs : Obligations.HandlerActs := by
  unfold Obligations.HandlerActs
  refine ⟨fun g r a => completes_of (exec_hput g r a), fun g => completes_of fun _ => rfl, fun g => completes_of fun _ => rfl,
    fun g => completes_of fun _ => rfl, fun s o b c l budget r x hc hl => ?_, fun s u j v b h => passVerdict_of_first,
    fun s u j v b => passVerdict_of_no_lane⟩
  obtain ⟨b', c', hcrew, hs, hlane⟩ := putOriginReg_at budget r x hc hl
  exact ⟨b', c', hcrew, sameDevice_memory (sameDevice_modBlock _ _ _), fun u ci j m => putOriginReg_others, hs.trans (wrS_scalars c r x),
    hlane.trans (congrArg some (putOrigin_eq l budget r x))⟩

end Sys2Proof.Proofs
end

