-- ==== Sys2Proof/Proofs/Turns.lean ====
section
/-! What a turn of the machine is, what stands at reset, and words written out from the spec (05_encoding R54 to R69; 11_ordering R166;
25_bringup R399). -/

namespace Sys2Proof.Proofs

open Sys2Proof.Machine Sys2Proof.Laws

/-- Settles O59: nothing is listed at reset. -/
theorem resetMemoriesCanonical : Obligations.ResetMemoriesCanonical := by
  unfold Obligations.ResetMemoriesCanonical
  exact ⟨rfl, rfl⟩

/-- Settles O57, word by word. -/
theorem decodeSpecWords : Obligations.DecodeSpecWords := by
  unfold Obligations.DecodeSpecWords
  decide

/-- The instruction of a slot is what its words decode to, and one that is not legal where they decode to nothing (R55, R69). -/
theorem instrAt_of_decoded {l : Line} {o : Nat} {i : Instr} {d : Except DecodeError Instr}
    (hd : decodeWords (l.wordAt o) (if lengthOf (l.wordAt o) = 2 then l.wordAt (o + 1) else 0) = d)
    (h : d = .ok i ∨ (∃ e, d = .error e) ∧ i = .unassignedMajor (l.wordAt o)) : l.instrAt o = i := by
  subst hd
  rcases h with hok | ⟨⟨e, herror⟩, rfl⟩
  · exact instrAt_ok hok
  · exact instrAt_error herror

/-- A move that is an event runs it, with no crew issuing, once READY is set or where it needs none (R400). -/
theorem make_event {s : State} {i : Instr} : s.make (.event i) =
    if s.ready || readyFree i then exec i { s.opening (.event i) with cur := none } else .next s := rfl

/-- A move begins with READY as it was. -/
theorem opening_ready (s : State) (u ci : Nat) : (s.opening (.issue u ci)).ready = s.ready := rfl

/-- A step that issues runs its crew's next instruction (R33, R219). -/
theorem step_issue {s s' : State} {t : Turn} {rest : List Turn} {u ci : Nat} {lab p : Word} {i : Instr} (h : s.agenda = t :: rest)
    (hm : t.move = .issue u ci)
    (hs : ((({ s with agenda := rest } : State).inTurn t).pass t.cycles t.refs).opening (.issue u ci) = s') (hready : s'.ready = true)
    (hnext : s'.nextInstr u ci = some (lab, p, i)) : step s = exec i (s'.issueState u ci lab p) := by
  subst hs
  rw [opening_ready] at hready
  rw [step_agenda h, hm, make_issue hready hnext]

/-- A step that is an event (R166, R400). -/
theorem step_event {s s' : State} {t : Turn} {rest : List Turn} {i : Instr} (h : s.agenda = t :: rest) (hm : t.move = .event i)
    (hs : (({ s with agenda := rest } : State).inTurn t).pass t.cycles t.refs = s') :
    step s = if s.ready || readyFree i then exec i { s'.opening (.event i) with cur := none } else .next s' := by
  have hready : s'.ready = s.ready := hs ▸ pass_ready _ _ _
  rw [step_agenda h, hm, hs, make_event, hready]

/-- Settles O60: a step makes the next move of the agenda, or one that free values pick. -/
theorem stepRunsDecoded : Obligations.StepRunsDecoded := by
  unfold Obligations.StepRunsDecoded
  refine ⟨?_, ?_, ?_, ?_⟩
  · intro s s' cycles refs late lags u ci rest b c lab pc p l i hagenda hs hready hcrew hseq hline hheld hboundary hmay hfree hafter
      hchoose hback w d hdecoded
    obtain rfl := instrAt_of_decoded rfl hdecoded
    refine step_issue hagenda rfl hs hready (nextInstr_of hcrew hseq hline hheld hboundary hmay hfree ?_ hchoose hback)
    rcases hafter with h | h <;> simp only [h, Bool.not_false, Bool.true_or, Option.isNone_none, Bool.or_true]
  · intro s cycles refs late lags i rest hagenda t
    have hstep := step_event (s' := t) hagenda rfl rfl
    refine ⟨fun hready => hstep.trans (if_pos (Bool.or_eq_true_iff.mpr hready)), fun hready hfree => hstep.trans (if_neg ?_)⟩
    simp only [hready, hfree, Bool.or_false, Bool.false_eq_true, not_false_eq_true]
  · intro s hagenda hdead
    simp only [step, State.turn, hagenda, hdead, Bool.false_eq_true, if_false]
    rfl
  · intro s hagenda hdead
    simp only [step, State.turn, hagenda, hdead, if_true]

end Sys2Proof.Proofs
end

