-- ==== Sys2Proof/Proofs/OperationMoves.lean ====
section
/-! OPERATION_PERFORM (11_ordering R165 to R174, R178; 23_system_instructions R371; 24_host_fabric R395): when an operation performs, and
what it does to its queue. -/

namespace Sys2Proof.Proofs

open Sys2Proof.Machine Sys2Proof.Laws

section Place
variable {s : State} {u ci n : Nat} {b : Block} {c : Crew} {o : Op} (hc : s.crew? u ci = some (b, c)) (ho : c.queue[n]? = some o)
include hc ho

/-- OPERATION_PERFORM at a place of a crew's queue. -/
theorem exec_operationPerform (picks : List Nat) : exec (.operationPerform u ci n false picks) s = .next
    (if s.mayGo b ci c n o then (s.resultsLate u ci).performNext u ci n c o ⟨b, ci, c, o.lab, o.pc⟩ picks else s) := by
  have hexec : exec (.operationPerform u ci n false picks) s = execOperationPerform u ci n false picks s := rfl
  simp only [hexec, execOperationPerform, Bool.false_eq_true, if_false, hc, ho, State.opCtx]

theorem exec_operationPerform_of_not (h : s.mayGo b ci c n o = false) (picks : List Nat) :
    exec (.operationPerform u ci n false picks) s = .next s := by
  rw [exec_operationPerform hc ho, h]
  rfl

theorem exec_operationPerform_of_may (h : s.mayGo b ci c n o = true) (picks : List Nat) :
    exec (.operationPerform u ci n false picks) s = .next
      ((s.resultsLate u ci).performNext u ci n c o ⟨b, ci, c, o.lab, o.pc⟩ picks) := by
  rw [exec_operationPerform hc ho, h]
  rfl

omit hc in
/-- A token's number returns by its network alone (14_crews R228): it does not perform from the queue. -/
theorem not_token_of_mayGo (h : s.mayGo b ci c n o = true) {m t : Nat} {w32 : Bool} {d q : Reg} : o.what ≠ .token m t w32 d q := by
  intro htoken
  have hmay : s.mayPerform b ci c n = true := by
    simpa only [State.mayGo, htoken, OpKind.byEighth, Bool.false_eq_true, if_false] using h
  simp only [State.mayPerform, ho, htoken, Bool.and_false, Bool.false_eq_true] at hmay

end Place

/-! ### What performs -/

section Next
variable {s : State} {u ci n : Nat} {c : Crew} {o : Op} {k : Ctx} {picks : List Nat}

theorem sysWait_of_not_atSys {w : OpKind} (h : w.atSys = false) : s.sysWait u ci c w = none := by
  simp only [State.sysWait, h, Bool.false_and, Bool.false_eq_true, if_false]

/-- What performs eighth by eighth is no system instruction. -/
theorem system_of_byEighth {i : Instr} {xs : List DWord} (h : (OpKind.instr i xs).byEighth = true) : i.system = false := by
  cases i with
  | mwait | xwait => rfl
  | _ => cases h

theorem performNext_of_waiting {t : State} (h : s.sysWait u ci c o.what = some t) : s.performNext u ci n c o k picks = t := by
  unfold State.performNext
  split
  · next m x w32 d q htoken =>
    rw [htoken, sysWait_of_not_atSys rfl] at h
    cases h
  · simp only [h]

theorem performNext_of_eighth (hw : s.sysWait u ci c o.what = none) (h : o.what.byEighth = true) :
    s.performNext u ci n c o k picks = (s.unqueueEighth u ci o).performEighth k o (eighthOf c.queue o) := by
  unfold State.performNext
  split
  · next htoken =>
    rw [htoken] at h
    cases h
  · simp only [hw, h, if_true]

theorem performNext_of_fence {sc : Scope} (hw : s.sysWait u ci c o.what = none) (h : o.what = .fence sc) :
    s.performNext u ci n c o k picks = ((s.unqueue u ci n).performOp k o picks).modCrew u ci fun c => { c with acks := none } := by
  rw [h] at hw
  simp only [State.performNext, h, hw, OpKind.byEighth, Bool.false_eq_true, if_false]

theorem performNext_of_system {i : Instr} {xs : List DWord} (hw : s.sysWait u ci c o.what = none) (h : o.what = .instr i xs)
    (hi : i.system = true) : s.performNext u ci n c o k picks =
      (let r := s.performSystem k o i xs;
        if r.2 then r.1.modCrew u ci fun c => { c with queue := c.queue.filter (· != o), acks := none } else r.1) := by
  have heighth : (OpKind.instr i xs).byEighth = false :=
    Bool.eq_false_iff.mpr fun h => Bool.noConfusion ((system_of_byEighth h).symm.trans hi)
  rw [h] at hw
  simp only [State.performNext, h, hw, heighth, hi, Bool.false_eq_true, if_false, if_true]
  generalize s.performSystem k o i xs = r
  obtain ⟨t, done⟩ := r
  cases done <;> rfl

/-- Any other operation performs alone, out of its queue. -/
theorem performNext_of_lone (htoken : ∀ m t w32 d q, o.what ≠ .token m t w32 d q) (heighth : o.what.byEighth = false)
    (hsystem : ∀ i xs, o.what = .instr i xs → i.system = false) (hfence : ∀ sc, o.what ≠ .fence sc) :
    s.performNext u ci n c o k picks = (s.unqueue u ci n).performOp k o picks := by
  have hat : o.what.atSys = false := by
    cases hw : o.what with
    | fence sc => exact absurd hw (hfence sc)
    | instr i xs => exact hsystem i xs hw
    | _ => rfl
  have hwait := sysWait_of_not_atSys (s := s) (u := u) (ci := ci) (c := c) hat
  unfold State.performNext
  split
  · next m t w32 d q h => exact absurd h (htoken m t w32 d q)
  · simp only [hwait, heighth, Bool.false_eq_true, if_false]
    split
    · next i xs h => simp only [hsystem i xs h, Bool.false_eq_true, if_false]
    · next sc h => exact absurd h (hfence sc)
    · rfl

/-- What performs at `.sys` waits while the host owes its crew an acknowledgement for what stood outstanding (R174, R371, R395). -/
theorem sysWait_of_atSys {w : OpKind} (h : w.atSys = true) : s.sysWait u ci c w =
    if ∃ r ∈ s.hostReqs, r.blk = u ∧ r.no < c.acks.getD s.hostNo ∧ (r.cause = .drain ∨ r.cause = .red ci)
    then some ((s.cleanL2 fun l => l.print == none && decide (hostBase ≤ 256 * l.line)).modCrew u ci fun x =>
      { x with acks := some (c.acks.getD s.hostNo) })
    else none := by
  have howed : s.unacknowledged u ci (c.acks.getD s.hostNo) = true ↔
      ∃ r ∈ s.hostReqs, r.blk = u ∧ r.no < c.acks.getD s.hostNo ∧ (r.cause = .drain ∨ r.cause = .red ci) := by
    simp only [State.unacknowledged, List.any_eq_true, Bool.and_eq_true, beq_iff_eq, decide_eq_true_eq, and_assoc]
    refine exists_congr fun r => and_congr_right fun _ => and_congr_right fun _ => and_congr_right fun _ => ?_
    cases r.cause <;> simp
  simp only [State.sysWait, h, Bool.true_and, howed]
  rfl

end Next

/-- Settles O22: each clause is one case of what OPERATION_PERFORM does. -/
theorem operationsPerform : Obligations.OperationsPerform := by
  unfold Obligations.OperationsPerform
  intro s u ci n picks b c o hc ho
  refine ⟨fun h => exec_operationPerform_of_not hc ho h picks, fun h heighth hsystem hfence => ?_, ?_, fun h heighth => ?_, fun h t hwait => ?_,
    ?_, fun h => sysWait_of_atSys ?_, fun h hwait i xs hw hi => ?_, fun i xs => rfl, fun m => ⟨fun h => ?_, fun h => ?_⟩⟩
  · rw [exec_operationPerform_of_may hc ho h, performNext_of_lone (fun _ _ _ _ _ => not_token_of_mayGo ho h) heighth hsystem hfence]
  · rintro h ⟨sc, hsc⟩ hwait
    rw [exec_operationPerform_of_may hc ho h, performNext_of_fence hwait hsc]
  · have hat : o.what.atSys = false := by
      cases hw : o.what with
      | instr i xs => exact system_of_byEighth (hw ▸ heighth)
      | fence sc => rw [hw] at heighth; cases heighth
      | _ => rfl
    rw [exec_operationPerform_of_may hc ho h, performNext_of_eighth (sysWait_of_not_atSys hat) heighth]
  · rw [exec_operationPerform_of_may hc ho h, performNext_of_waiting hwait]
  · rintro ⟨hfence, hsystem⟩
    refine sysWait_of_not_atSys ?_
    cases hw : o.what with
    | fence sc => cases sc with
      | sys => exact absurd rfl (hfence _ hw)
      | _ => rfl
    | instr i xs => exact hsystem i xs hw
    | _ => rfl
  · rcases h with h | ⟨i, xs, h, hi⟩
    · rw [h]; rfl
    · rw [h]; exact hi
  · rw [exec_operationPerform_of_may hc ho h, performNext_of_system hwait hw hi]
  · have hexec : exec (.operationPerform u ci m true picks) s = .next (if s.mayPost m then s.performPosted m else s) := rfl
    rw [hexec, h]; rfl
  · have hexec : exec (.operationPerform u ci m true picks) s = .next (if s.mayPost m then s.performPosted m else s) := rfl
    rw [hexec, h]; rfl

end Sys2Proof.Proofs
end

