-- ==== Sys2Proof/Proofs/Drains.lean ====
section
/-! Home memory and the store buffer (11_ordering R165 to R171; 10_memory R155, R159): what drains leave of the blocks, the drains a store
makes, and the obligations about home memory, DRAIN and PHASE. -/

namespace Sys2Proof.Proofs

open Sys2Proof.Machine Sys2Proof.Laws

/-! ### Home memory -/

/-- Bytes written at home read as written, at the newest time (R168). -/
theorem writeHome_reads {s : State} (slot a : Nat) (bs : List Byte) (hw : memWf s.mem = true) {i : Nat} {x : Byte} (hx : bs[i]? = some x) :
    (s.writeHome slot (cellsOf a bs)).readAt slot (s.now + 1) (a + i) = x := by
  rw [writeHome_readAt slot _ hw, find_cellsOf a bs i x hx]
  rfl

/-- Every other byte reads as before through the same key. -/
theorem writeHome_reads_other {s : State} (slot a : Nat) (bs : List Byte) (hw : memWf s.mem = true) {y : Nat}
    (hy : y < a ∨ a + bs.length ≤ y) : (s.writeHome slot (cellsOf a bs)).readAt slot (s.now + 1) y = s.readAt slot s.now y := by
  rw [writeHome_readAt slot _ hw, find_cellsOf_none a bs y hy]
  rfl

/-- Settles O25: each part is the home memory's law. -/
theorem homeReadsAfterWrites : Obligations.HomeReadsAfterWrites := by
  unfold Obligations.HomeReadsAfterWrites
  intro s slot a n x hw
  exact ⟨fun i hi => writeHome_reads slot a _ hw (leBytes_get n x i hi), fun y hy => writeHome_reads_other slot a _ hw (by rwa [leBytes_len]),
    fun t y ht => writeHome_byteAt_past s slot _ ht y, putHome_memWf slot a n x hw⟩

/-! ### What drains leave of the blocks -/

/-- A block after some of its store buffer has drained. -/
structure Drained (b b' : Block) : Prop where
  same : { b' with storeBuf := b.storeBuf, refreshAt := b.refreshAt } = b
  sublist : List.Sublist b'.storeBuf b.storeBuf

theorem drained_refl (b : Block) : Drained b b := ⟨rfl, List.Sublist.refl _⟩

theorem drained_trans {a b c : Block} (h : Drained a b) (h' : Drained b c) : Drained a c := by
  refine ⟨?_, h'.sublist.trans h.sublist⟩
  calc { c with storeBuf := a.storeBuf, refreshAt := a.refreshAt }
      = { ({ c with storeBuf := b.storeBuf, refreshAt := b.refreshAt } : Block) with storeBuf := a.storeBuf, refreshAt := a.refreshAt } := rfl
    _ = a := by rw [h'.same, h.same]

/-- Home memory stays in its canonical form. -/
def KeepsCanonical (s t : State) : Prop := memWf s.mem = true → memWf t.mem = true

theorem keepsCanonical_refl (s : State) : KeepsCanonical s s := id

theorem keepsCanonical_trans {s t u : State} (h : KeepsCanonical s t) (h' : KeepsCanonical t u) : KeepsCanonical s u := fun hs => h' (h hs)

theorem keepsCanonical_of_mem {s t : State} (h : t.mem = s.mem) : KeepsCanonical s t := fun hs => h ▸ hs

/-- A move after which each block is as before, but that some of its store buffer has drained; no launch has changed, and home memory is
still canonical. -/
structure DrainStep (s t : State) : Prop where
  block : ∀ u b, s.block? u = some b → ∃ b', t.block? u = some b' ∧ Drained b b'
  uids : t.blocks.map (·.uid) = s.blocks.map (·.uid)
  launches : t.launches = s.launches
  nextUid : t.nextUid = s.nextUid
  canonical : KeepsCanonical s t

theorem drainStep_of_blocks {s t : State} (h : t.blocks = s.blocks) (hm : t.mem = s.mem := by rfl) (hl : t.launches = s.launches := by rfl)
    (hn : t.nextUid = s.nextUid := by rfl) : DrainStep s t :=
  ⟨fun u b hb => ⟨b, by rw [State.block?, h]; exact hb, drained_refl b⟩, by rw [h], hl, hn, keepsCanonical_of_mem hm⟩

theorem drainStep_refl (s : State) : DrainStep s s := drainStep_of_blocks rfl

theorem drainStep_trans {s t u : State} (h : DrainStep s t) (h' : DrainStep t u) : DrainStep s u := by
  refine ⟨fun v b hb => ?_, h'.uids.trans h.uids, h'.launches.trans h.launches, h'.nextUid.trans h.nextUid,
    keepsCanonical_trans h.canonical h'.canonical⟩
  obtain ⟨b1, h1, hd⟩ := h.block v b hb
  obtain ⟨b2, h2, hd'⟩ := h'.block v b1 h1
  exact ⟨b2, h2, drained_trans hd hd'⟩

theorem drainStep_ite {p : Prop} [Decidable p] {s t u : State} (h : DrainStep s t) (h' : DrainStep s u) :
    DrainStep s (if p then t else u) := by
  split <;> assumption

theorem drainStep_foldl {α : Type} {f : State → α → State} (hf : ∀ s x, DrainStep s (f s x)) :
    ∀ (l : List α) (s : State), DrainStep s (l.foldl f s)
  | [], s => drainStep_refl s
  | x :: l, s => drainStep_trans (hf s x) (drainStep_foldl hf l (f s x))

theorem owesHost_blocks (s : State) (u home n : Nat) (c : HostCause) : (s.owesHost u home n c).blocks = s.blocks :=
  (congrArg State.blocks (owesHost_keeps s u home n c) :)

theorem owesHost_step (s : State) (u home n : Nat) (c : HostCause) : DrainStep s (s.owesHost u home n c) :=
  drainStep_of_blocks (owesHost_blocks ..) (congrArg State.mem (owesHost_keeps s u home n c) :)
    (congrArg State.launches (owesHost_keeps s u home n c) :) (congrArg State.nextUid (owesHost_keeps s u home n c) :)

theorem drainStep_onlyL2 {s t : State} (h : OnlyL2 s t) : DrainStep s t :=
  drainStep_of_blocks (congrArg State.blocks h.same :) (onlyL2_mem h) (congrArg State.launches h.same :) (congrArg State.nextUid h.same :)

theorem writeHome_step (s : State) (slot : Nat) (cs : List Host.Cell) : DrainStep s (s.writeHome slot cs) :=
  ⟨fun _ b hb => ⟨b, hb, drained_refl b⟩, rfl, rfl, rfl, memWf_memWrites⟩

/-- What a drain leaves of its block (R166). -/
def drainedEntry (e : Entry) (n time : Nat) (b : Block) : Block :=
  { b with
    storeBuf := b.storeBuf.eraseIdx n
    refreshAt := (e.cells.map fun c => (c.1, time)) ++ b.refreshAt.filter fun r => !e.cells.any (·.1 == r.1) }

theorem modBlock_uids (s : State) (u : Nat) {f : Block → Block} (hf : ∀ b, (f b).uid = b.uid) :
    (s.modBlock u f).blocks.map (·.uid) = s.blocks.map (·.uid) := by
  simp only [State.modBlock, List.map_map]
  refine List.map_congr_left fun b _ => ?_
  simp only [Function.comp]
  split
  · exact hf b
  · rfl

theorem drainedEntry_step (s : State) (u : Nat) (e : Entry) (n time : Nat) : DrainStep s (s.modBlock u (drainedEntry e n time)) :=
  ⟨fun _ _ hv => rel_modBlock drained_refl u (f := drainedEntry e n time) (fun _ => rfl) (fun _ _ => ⟨rfl, List.eraseIdx_sublist ..⟩) hv,
    modBlock_uids s u fun _ => rfl, rfl, rfl, id⟩

theorem drainAt_eq {s : State} {u n : Nat} {b : Block} {e : Entry} (hb : s.block? u = some b) (he : b.storeBuf[n]? = some e) :
    s.drainAt u n = (((s.l2Write b.vf e.p e.hint).writeHome e.p.key e.cells).modBlock u
      (drainedEntry e n ((s.l2Write b.vf e.p e.hint).writeHome e.p.key e.cells).now)).owesHost u e.p.home e.p.size .drain := by
  simp only [State.drainAt, hb, he]
  rfl

theorem drainAt_step (s : State) (u n : Nat) : DrainStep s (s.drainAt u n) := by
  cases hb : s.block? u with
  | none =>
    have hsame : s.drainAt u n = s := by simp only [State.drainAt, hb]
    rw [hsame]
    exact drainStep_refl s
  | some b =>
    cases he : b.storeBuf[n]? with
    | none =>
      have hsame : s.drainAt u n = s := by simp only [State.drainAt, hb, he]
      rw [hsame]
      exact drainStep_refl s
    | some e =>
      rw [drainAt_eq hb he]
      exact drainStep_trans (drainStep_trans (drainStep_onlyL2 (l2Write_only s b.vf e.p e.hint)) (writeHome_step ..))
        (drainStep_trans (drainedEntry_step ..) (owesHost_step ..))

theorem drainOver_step (u a n : Nat) : ∀ (fuel : Nat) (s : State), DrainStep s (State.drainOver u a n fuel s)
  | 0, s => drainStep_refl s
  | fuel + 1, s => by
    unfold State.drainOver
    split
    · exact drainStep_refl s
    · split
      · exact drainStep_trans (drainAt_step s u _) (drainOver_step u a n fuel _)
      · exact drainStep_refl s

theorem drainRun_step (s : State) (u a n : Nat) : DrainStep s (s.drainRun u a n) := by
  unfold State.drainRun
  split
  · exact drainOver_step u a n _ s
  · exact drainStep_refl s

theorem cleanLine_step (s : State) (core line : Nat) (but : Option Nat) : DrainStep s (s.cleanLine core line but) :=
  drainStep_foldl (f := fun s (b : Block) => s.drainRun b.uid (256 * line) 256) (fun s b => drainRun_step s b.uid _ _) _ s

theorem dropL1_step (s : State) (l : L1Line) : DrainStep s (s.dropL1 l) :=
  drainStep_trans (cleanLine_step s l.core l.line none) (drainStep_of_blocks rfl)

theorem l1Alloc_step (s : State) (e : L1Line) : DrainStep s (s.l1Alloc e) := by
  unfold State.l1Alloc
  dsimp only
  split
  · exact drainStep_of_blocks rfl
  · split
    · exact drainStep_of_blocks rfl
    · next v _ =>
      exact drainStep_trans (drainStep_trans (t := s.draw.2) (drainStep_of_blocks rfl) (dropL1_step s.draw.2 v)) (drainStep_of_blocks rfl)

theorem l1Store_step (s : State) (core line quad slot : Nat) (h : Hint) : DrainStep s (s.l1Store core line quad slot h) := by
  unfold State.l1Store
  split
  · exact drainStep_of_blocks rfl
  · exact l1Alloc_step _ _

/-! ### Entries of the store buffer (R169) -/

/-- The newest entry for a byte gives it (R165). -/
theorem bufferByte_append (old : List Entry) (e : Entry) {i : Nat} (hi : i < e.p.size) :
    bufferByte (old ++ [e]) (e.p.home + i) = some (BitVec.ofNat 8 (e.data.toNat / 256 ^ i)) := by
  have hin : (decide (e.p.home ≤ e.p.home + i) && decide (e.p.home + i < e.p.home + e.p.size)) = true := by simp [hi]
  simp only [bufferByte, List.reverse_append, List.reverse_singleton, List.singleton_append, List.find?_cons, hin,
    Nat.add_sub_cancel_left]

/-- A store adds its entry behind what is left of the store buffer (R159, R169). -/
theorem addEntry_block {s : State} {u : Nat} {b : Block} (e : Entry) (h : Hint) (hb : s.block? u = some b) : ∃ b' old,
    (s.addEntry u e h).block? u = some b' ∧ b'.storeBuf = old ++ [{ e with no := b.entered, hint := h }] ∧ old.Sublist b.storeBuf := by
  have hstep : ∃ t, DrainStep s t ∧ s.addEntry u e h = t.modBlock u fun b =>
      { b with storeBuf := b.storeBuf ++ [{ e with no := b.entered, hint := h }], entered := b.entered + 1 } := by
    simp only [State.addEntry, hb]
    exact ⟨_, drainStep_trans (drainStep_trans (cleanLine_step s _ _ (some u)) (drainStep_ite (drainStep_refl _) (l1Store_step _ _ _ _ _ _)))
      (drainStep_ite (drainAt_step _ u 0) (drainStep_refl _)), rfl⟩
  obtain ⟨t, hdrain, ht⟩ := hstep
  obtain ⟨b1, h1, hd⟩ := hdrain.block u b hb
  have hentered : b1.entered = b.entered := (congrArg Block.entered hd.same :)
  refine ⟨_, b1.storeBuf, by rw [ht]; exact modBlock_at (fun _ => rfl) h1, ?_, hd.sublist⟩
  rw [hentered]

/-! ### DRAIN (R166) -/

theorem exec_drain {s : State} {u : Nat} {b : Block} (n : Nat) (hb : s.block? u = some b) :
    exec (.drain u n) s = .next (if oldestEntry b.storeBuf n then s.drainAt u n else s) := by
  have hexec : exec (.drain u n) s = execDrain u n s := rfl
  simp only [hexec, execDrain, hb]

/-- Settles O24: the oldest entry goes home as one write, through the L2. -/
theorem drainsGoHome : Obligations.DrainsGoHome := by
  unfold Obligations.DrainsGoHome
  refine ⟨fun s u n b e hb he hold hw => ?_, fun s u n b hb hold => by rw [exec_drain n hb, hold]; rfl⟩
  have honly := l2Write_only s b.vf e.p e.hint
  obtain ⟨⟨b', hb', hbuf, -⟩, hmem, hlog, hqkeys, hkeys, hl2, hzero⟩ := drainAt_spec hb he
  have hw' : memWf (s.l2Write b.vf e.p e.hint).mem = true := by rw [onlyL2_mem honly, hw]
  have hread : ∀ time a, (s.drainAt u n).readAt e.p.key time a
      = ((s.l2Write b.vf e.p e.hint).writeHome e.p.key e.cells).readAt e.p.key time a := fun time a =>
    readAt_congr hmem hlog hqkeys hkeys hzero (fun sl x => by simp only [State.slotLine, hl2]) e.p.key time a
  have hnow : (s.drainAt u n).now = (s.l2Write b.vf e.p e.hint).now + 1 := by rw [now_congr hlog, writeHome_now]
  refine ⟨s.drainAt u n, b', by rw [exec_drain n hb, hold]; rfl, hb', hbuf, by rw [hnow, onlyL2_now honly], honly, fun i hi => ?_,
    fun a ha => ?_⟩
  · rw [hread, hnow]
    exact writeHome_reads _ _ _ hw' (leBytes_get _ _ i hi)
  · rw [hread, hnow, ← onlyL2_now honly]
    exact writeHome_reads_other _ _ _ hw' (by rwa [leBytes_len])

/-! ### PHASE (R171) -/

/-- Draining the first entries of a store buffer. -/
theorem drainFirst_drop (u : Nat) : ∀ (n : Nat) {s : State} {b : Block}, s.block? u = some b → ∃ b',
    (State.drainFirst u n s).block? u = some b' ∧ b'.storeBuf = b.storeBuf.drop n ∧ b'.refresh = b.refresh
  | 0, s, b, hb => ⟨b, hb, rfl, rfl⟩
  | n + 1, s, b, hb => by
    have hone : ∃ b1, (s.drainAt u 0).block? u = some b1 ∧ b1.storeBuf = b.storeBuf.drop 1 ∧ b1.refresh = b.refresh := by
      cases he : b.storeBuf[0]? with
      | none =>
        have hsame : s.drainAt u 0 = s := by simp only [State.drainAt, hb, he]
        have hempty : b.storeBuf = [] := List.getElem?_eq_none_iff.mp he |> fun h => List.length_eq_zero_iff.mp (Nat.le_zero.mp h)
        exact ⟨b, by rw [hsame, hb], by rw [hempty]; rfl, rfl⟩
      | some e =>
        obtain ⟨⟨b1, h1, hbuf, href⟩, -⟩ := drainAt_spec hb he
        exact ⟨b1, h1, by rw [hbuf, List.eraseIdx_zero, List.drop_one], href⟩
    obtain ⟨b1, h1, hbuf, href⟩ := hone
    obtain ⟨b2, h2, hbuf', href'⟩ := drainFirst_drop u n h1
    exact ⟨b2, h2, by rw [hbuf', hbuf, List.drop_drop, Nat.add_comm], href'.trans href⟩

theorem refresh_block {s : State} {u : Nat} {b : Block} (core : Nat) (hb : s.block? u = some b) : ∃ b',
    (s.refresh u core).block? u = some b' ∧ b'.storeBuf = b.storeBuf ∧ b'.refresh = s.now ∧ b'.refreshAt = [] := by
  have h1 := modBlock_at (f := fun b => { b with refresh := s.now, refreshAt := [] }) (fun _ => rfl) hb
  exact ⟨_, modBlock_at (s := { s.modBlock u fun b => { b with refresh := s.now, refreshAt := [] } with
    coreStamps := _, sectorStamps := _, l2 := _ }) (fun _ => rfl) h1, rfl, rfl, rfl⟩

theorem refresh_now (s : State) (u core : Nat) : (s.refresh u core).now = s.now := rfl

section Phase
variable {s : State} {k : Ctx} {o : Op} {b : Block} (hb : s.block? k.b.uid = some b)
include hb

theorem performPhase_of_held (ref : Bool) (mark : Option Nat) (h : b.unacked ≠ 0) : s.performPhase k o true ref mark =
    s.modCur k fun c => { c with queue := { o with what := .phase true ref (some b.entered) } :: c.queue } := by
  simp only [State.performPhase, State.blockOf, hb, Option.getD_some, Bool.true_and, bne_iff_ne, ne_eq, h, not_false_eq_true, if_true]

/-- With nothing unacknowledged, a phase drains what it is to publish, and then refreshes. -/
theorem performPhase_of_free (pub ref : Bool) (mark : Option Nat) (h : pub = true → b.unacked = 0) : s.performPhase k o pub ref mark =
    (let n := if pub then b.storeBuf.countP fun e => decide (e.no < mark.getD b.entered) else 0
     if ref then (State.drainFirst k.b.uid n s).refresh k.b.uid k.b.core else State.drainFirst k.b.uid n s) := by
  cases pub with
  | false => simp only [State.performPhase, Bool.false_and, Bool.false_eq_true, if_false, State.drainFirst]
  | true =>
    simp only [State.performPhase, State.blockOf, hb, Option.getD_some, h rfl, bne_self_eq_false, Bool.and_false, Bool.false_eq_true,
      if_false, if_true]

end Phase

/-- Settles O27: a phase waits, or drains the entries marked and refreshes. -/
theorem phasesPublishAndRefresh : Obligations.PhasesPublishAndRefresh := by
  unfold Obligations.PhasesPublishAndRefresh
  refine ⟨fun s k o pub ref mark picks b ho hb hfree => ?_, fun s k o ref mark picks b ho hb hheld => ?_⟩
  · have hop : s.performOp k o picks = s.performPhase k o pub ref mark := by simp only [State.performOp, ho]
    rw [hop, performPhase_of_free hb pub ref mark hfree]
    dsimp only
    generalize hn : (if pub then b.storeBuf.countP fun e => decide (e.no < mark.getD b.entered) else 0) = n
    obtain ⟨b1, h1, hbuf, href⟩ := drainFirst_drop k.b.uid n hb
    have hpub : pub = true → b1.storeBuf = b.storeBuf.drop (b.storeBuf.countP fun e => decide (e.no < mark.getD b.entered)) := fun h => by
      rw [hbuf, ← hn, if_pos h]
    have hnot : pub = false → b1.storeBuf = b.storeBuf := fun h => by
      rw [hbuf, ← hn, if_neg (by simp [h]), List.drop_zero]
    cases ref with
    | false => exact ⟨b1, h1, hpub, hnot, fun h => Bool.noConfusion h, fun _ => href⟩
    | true =>
      obtain ⟨b2, h2, hbuf', href', hat⟩ := refresh_block k.b.core h1
      exact ⟨b2, h2, fun h => hbuf'.trans (hpub h), fun h => hbuf'.trans (hnot h), fun _ => ⟨href', hat⟩, fun h => Bool.noConfusion h⟩
  · have hop : s.performOp k o picks = s.performPhase k o true ref mark := by simp only [State.performOp, ho]
    rw [hop, performPhase_of_held hb ref mark hheld]

end Sys2Proof.Proofs
end

