-- ==== Sys2Proof/Proofs/MemoryOperations.lean ====
section
/-! Loads, stores and atomics as they perform (11_ordering R165, R168, R169, R172, R175; 12_memory_instructions R187, R192 to R198). -/

namespace Sys2Proof.Proofs

open Sys2Proof.Machine Sys2Proof.Laws

/-! ### Scratchpads (R172) -/

theorem scratchStore_other (s : State) (u a : Nat) (bs : List Byte) {v : Nat} (hv : v ≠ u) :
    (s.scratchStore u a bs).block? v = s.block? v := by
  rw [State.scratchStore, block_modBlock s (f := fun b => ((b.noteSp a bs.length).scratchWrite a bs).wakeAwait)
    fun b => (noteSp_keeps b a bs.length).1, if_neg hv]

theorem scratchStore_mem (s : State) (u a : Nat) (bs : List Byte) : SameMemory s (s.scratchStore u a bs) :=
  sameDevice_memory (sameDevice_modBlock s u _)

/-- The bytes of a run are read one by one. -/
theorem memRead_of_memBytes {m : List Host.Cell} {a n : Nat} {bs : List Byte} (h : memBytes m a n = bs) {i : Nat} (hi : i < n) :
    bs[i]? = some (memRead m (a + i)) := by
  rw [← h, memBytes, List.getElem?_map, List.getElem?_range hi]
  rfl

/-- A store of the low bytes of a value: they read as written, and every other byte and scratchpad is kept. -/
theorem scratchStore_bytes {s : State} {t : Block} (a n x : Nat) (hb : s.block? t.uid = some t) (hw : memWf t.scratch = true) :
    SameMemory s (s.scratchStore t.uid a (leBytes n (x % 256 ^ n)))
    ∧ (∀ v, v ≠ t.uid → (s.scratchStore t.uid a (leBytes n (x % 256 ^ n))).block? v = s.block? v)
    ∧ ∃ t', (s.scratchStore t.uid a (leBytes n (x % 256 ^ n))).block? t.uid = some t' ∧ memWf t'.scratch = true
      ∧ (∀ i, i < n → memRead t'.scratch (a + i) = BitVec.ofNat 8 (x / 256 ^ i))
      ∧ ∀ y, y < a ∨ a + n ≤ y → memRead t'.scratch y = memRead t.scratch y := by
  obtain ⟨t', ht', hbytes, hw', hframe⟩ := scratchStore_block a (leBytes n (x % 256 ^ n)) hb hw
  rw [leBytes_len] at hbytes hframe
  refine ⟨scratchStore_mem _ _ _ _, fun v hv => scratchStore_other _ _ _ _ hv, t', ht', hw', fun i hi => ?_, hframe⟩
  have hread := (memRead_of_memBytes hbytes hi).symm.trans (leBytes_get n _ i hi)
  rw [Option.some.inj hread, byte_of_mod x n i hi]

/-! ### Single-copy reads (R168) -/

theorem laneOf_modLane (s : State) (k : Ctx) (j : Nat) (f : Lane → Lane) :
    (s.modLane k.b.uid k.ci j f).laneOf k j = (s.laneOf k j).map f := by
  have hlane : ∀ s : State, s.laneOf k j = s.laneAt k.b.uid k.ci j := fun s => by
    simp only [State.laneOf, State.laneAt]
    cases s.crew? k.b.uid k.ci <;> rfl
  rw [hlane, hlane, laneAt_modLane, if_pos ⟨rfl, rfl, rfl⟩]

/-- A home time at which a read may take its bytes. -/
theorem readTime_may (s : State) (b : Block) (l : Lane) (p : Piece) (pick : Nat) : s.readTime b l p pick = s.now ∨
    s.readTime b l p pick = pick ∧ ∀ i, i < p.size → bufferByte b.storeBuf (p.home + i) = none →
      s.position (b.floorOf l (p.home + i)) (p.home + i) ≤ s.position pick (p.home + i) := by
  unfold State.readTime
  split
  · exact .inl rfl
  · split
    · next h =>
      refine .inr ⟨rfl, fun i hi hnone => ?_⟩
      have hall := List.all_eq_true.mp (Bool.and_eq_true_iff.mp h).1 i (List.mem_range.mpr hi)
      simpa only [hnone, Option.isSome_none, Bool.false_or, State.mayRead, decide_eq_true_eq] using hall
    · exact .inl rfl

/-- A lane whose coherence floors rise keeps its registers. -/
theorem raises_keep (keep : Nat → Bool) (a t : Nat) : ∀ (is : List Nat) (l : Lane),
    (is.foldl (fun l i => if keep i then l else l.raise t (a + i) 1) l).v = l.v
    ∧ (is.foldl (fun l i => if keep i then l else l.raise t (a + i) 1) l).q = l.q
  | [], l => ⟨rfl, rfl⟩
  | i :: is, l => by
    obtain ⟨hv, hq⟩ := raises_keep keep a t is (if keep i then l else l.raise t (a + i) 1)
    rw [List.foldl_cons, hv, hq]
    split <;> exact ⟨rfl, rfl⟩

section Read
variable {s : State} {k : Ctx} {b : Block} {p : Piece} {tags : List Passed} (hb : s.block? k.b.uid = some b)
include hb

theorem readPiece_of_sealed (j : Nat) (home : Bool) (tags : List Passed) (pick : Nat) (hseal : s.cleared b.part b.clr p.sealId = false) :
    s.readPiece k j home tags p pick = (s, List.replicate p.size 0, some (p.sealId, false)) := by
  simp only [State.readPiece, State.blockOf, hb, Option.getD_some, hseal, Bool.not_false, if_true]

theorem readPiece_of_tagged {tag : Nat} {view : Option Filled} (j : Nat) (home : Bool) (pick : Nat)
    (hopen : s.cleared b.part b.clr p.sealId = true) (htag : tags.lookup (p.home / 64) = some (tag, view)) (hne : tag ≠ 0) :
    s.readPiece k j home tags p pick = (s, List.replicate p.size 0, some (tag, true)) := by
  simp only [State.readPiece, State.blockOf, hb, Option.getD_some, hopen, htag, Bool.not_true, Bool.false_eq_true, if_false, ne_eq, hne,
    not_false_eq_true, if_true]

theorem readPiece_of_open {j : Nat} {l : Lane} {view : Option Filled} (home : Bool) (pick : Nat) (hl : s.laneOf k j = some l)
    (hopen : s.cleared b.part b.clr p.sealId = true) (htag : (tags.lookup (p.home / 64)).getD (0, none) = (0, view)) :
    s.readPiece k j home tags p pick =
      (let t := if home then s.now else s.readTime b l p pick
       (s.modLane k.b.uid k.ci j fun l => (List.range p.size).foldl (fun l i =>
          if (bufferByte b.storeBuf (p.home + i)).isSome then l else l.raise t (p.home + i) 1) l, s.plainBytes b p view t, none)) := by
  simp only [State.readPiece, State.blockOf, hb, Option.getD_some, hopen, htag, Bool.not_true, Bool.false_eq_true, if_false, ne_eq,
    not_true_eq_false, hl]

end Read

theorem plainBytes_eq (s : State) (b : Block) (p : Piece) (view : Option Filled) (t : Nat) : s.plainBytes b p view t =
    (List.range p.size).map fun i => (bufferByte b.storeBuf (p.home + i)).getD (s.readView view p.key t (p.home + i)) := by
  refine List.map_congr_left fun i _ => ?_
  cases bufferByte b.storeBuf (p.home + i) <;> rfl

/-- A read that nothing denies (R168): its time, its bytes, and the lane after it. -/
theorem readPiece_reads {s : State} {k : Ctx} {j : Nat} {b : Block} {l : Lane} {p : Piece} {tags : List Passed} {view : Option Filled}
    (home : Bool) (pick : Nat) (hb : s.block? k.b.uid = some b) (hl : s.laneOf k j = some l)
    (hopen : s.cleared b.part b.clr p.sealId = true) (htag : (tags.lookup (p.home / 64)).getD (0, none) = (0, view)) : ∃ t l',
      (t = s.now ∨ (home = false ∧ t = pick ∧ ∀ i, i < p.size → bufferByte b.storeBuf (p.home + i) = none →
        s.position (b.floorOf l (p.home + i)) (p.home + i) ≤ s.position t (p.home + i)))
      ∧ (s.readPiece k j home tags p pick).2 = ((List.range p.size).map fun i =>
          (bufferByte b.storeBuf (p.home + i)).getD (s.readView view p.key t (p.home + i)), none)
      ∧ (s.readPiece k j home tags p pick).1.laneOf k j = some l' ∧ l'.v = l.v ∧ l'.q = l.q
      ∧ SameMemory s (s.readPiece k j home tags p pick).1 := by
  rw [readPiece_of_open hb home pick hl hopen htag]
  obtain ⟨hv, hq⟩ := raises_keep (fun i => (bufferByte b.storeBuf (p.home + i)).isSome) p.home
    (if home then s.now else s.readTime b l p pick) (List.range p.size) l
  refine ⟨if home then s.now else s.readTime b l p pick, _, ?_, congrArg (·, none) (plainBytes_eq ..), (laneOf_modLane ..).trans (by rw [hl]; rfl), hv, hq,
    sameDevice_memory (sameDevice_modBlock _ _ _)⟩
  cases home with
  | true => exact .inl rfl
  | false =>
    obtain hnow | ⟨htime, hmay⟩ := readTime_may s b l p pick
    · exact .inl hnow
    · refine .inr ⟨rfl, htime, fun i hi hnone => ?_⟩
      have hfloor := hmay i hi hnone
      rwa [← htime] at hfloor

/-! ### Loads (R168, R192) -/

theorem performOp_load {s : State} {k : Ctx} {o : Op} {z : Acc} {home : Bool} {h : Hint} {ps : List Piece} {d : Reg} (picks : List Nat)
    (ho : o.what = .load z home h ps d) : s.performOp k o picks =
      (let r := s.passQuarters k home true h ps
       let q := State.readAll k o.lane home r.2 ps picks r.1
       let t := q.1.modCur k (·.putWords o.lane d (loadWords z q.2.1))
       match q.2.2 with
       | some (va, sl) => t.denyLane k o.lane va false sl
       | none => t) := by
  simp only [State.performOp, ho, State.performLoad] <;>
  cases (State.readAll k o.lane home (s.passQuarters k home true h ps).2 ps picks (s.passQuarters k home true h ps).1).2.2 <;> rfl

/-- The value that a decoded load writes (R116). -/
def decodedWord (z : Acc) (fmt : Nat) (hi : Bool) (code scale : List Byte) : Word :=
  let x := leNat code
  let t := match z with
    | .f16 => Ty.f16
    | .bf16 => .bf16
    | _ => .f32
  BitVec.ofNat 32 (roundTo t .rne false false (blockValue (fmtTy fmt) (if fmt = 1 then (if hi then x / 16 else x % 16) else x)
    (BitVec.ofNat 32 (leNat scale))) 0).1

/-- A decoded load whose reads nothing denies writes the value of its code and its scale word. -/
theorem performOp_decode {s s1 s2 s3 : State} {k : Ctx} {o : Op} {z : Acc} {home : Bool} {h : Hint} {va fmt : Nat} {code scale : Piece}
    {hi : Bool} {d : Reg} {picks : List Nat} {tags : List Passed} {cs ws : List Byte} (ho : o.what = .decode z home h va fmt code scale hi d)
    (hpass : s.passQuarters k home true h [code, scale] = (s1, tags))
    (hcode : s1.readPiece k o.lane home tags code (picks.headD s1.now) = (s2, cs, none))
    (hscale : s2.readPiece k o.lane home tags scale (picks.tail.headD s2.now) = (s3, ws, none)) :
    s.performOp k o picks = s3.modCur k (·.putWords o.lane d [decodedWord z fmt hi cs ws]) := by
  simp only [State.performOp, ho, State.performDecode, hpass, hcode, hscale]
  rfl

/-! ### Stores (R169, R193) -/

theorem performOp_store {s : State} {k : Ctx} {o : Op} {h : Hint} {ps : List (Piece × DWord)} (picks : List Nat)
    (ho : o.what = .store h ps) : s.performOp k o picks = s.storePieces k o.lane h ps := by
  simp only [State.performOp, ho, State.performStore]

section Store
variable {s : State} {k : Ctx} {b : Block} {p : Piece} {x : DWord}

theorem storePieces_of_open (j : Nat) (h : Hint) (hopen : s.denies k.b.part k.b.clr p = none) :
    s.storePieces k j h [(p, x)] = s.addEntry k.b.uid ⟨p, x, s.oidOf k j, k.ci, j, k.pc, 0, h⟩ h := by
  simp only [State.storePieces, List.filterMap_cons, hopen, Option.map_none, List.filterMap_nil, List.foldl_cons, List.foldl_nil,
    Option.isSome_none, Bool.false_eq_true, if_false]

theorem storePieces_of_denied (j : Nat) (h : Hint) {sl : Nat × Bool} (hdenied : s.denies k.b.part k.b.clr p = some sl) :
    s.storePieces k j h [(p, x)] = s.denyLane k j p.va true sl := by
  simp only [State.storePieces, List.filterMap_cons, hdenied, Option.map_some, List.filterMap_nil, List.foldl_cons, List.foldl_nil,
    Option.isSome_some, if_true]

end Store

/-- Settles O23: each clause is one kind of load or store. -/
theorem loadsAndStoresPerform : Obligations.LoadsAndStoresPerform := by
  unfold Obligations.LoadsAndStoresPerform
  refine ⟨?_, ?_, ?_, ?_, ?_, ?_, ?_, ?_, ?_⟩
  · intro s k o z core a d picks t ho ht
    simp only [State.performOp, ho, State.performSpLoad, ht]
    rfl
  · intro s k o core a n x picks t ho ht hb hw
    have hop : s.performOp k o picks = s.scratchStore t.uid a (leBytes n (x.toNat % 256 ^ n)) := by
      simp only [State.performOp, ho, State.performSpStore, ht]
    rw [hop]
    obtain ⟨hmem, hother, t', ht', hw', hbytes, hframe⟩ := scratchStore_bytes a n x.toNat hb hw
    exact ⟨t', ht', hw', hbytes, hframe, hother, hmem⟩
  · exact fun s k j home tags p pick b l view hb hl hopen htag => readPiece_reads home pick hb hl hopen htag
  · exact fun s k j home tags p pick b hb => ⟨readPiece_of_sealed hb j home tags pick,
      fun tag view hopen htag hne => readPiece_of_tagged hb j home pick hopen htag hne⟩
  · exact fun s k o z home h ps d picks ho => performOp_load picks ho
  · intro k j home tags p ps t ts s
    rfl
  · intro s k o z home h va fmt code scale hi d picks ho r c w x t hc hw
    exact performOp_decode (s1 := r.1) (tags := r.2) (s2 := c.1) (cs := c.2.1) (s3 := w.1) (ws := w.2.1) ho rfl
      (Prod.ext rfl (Prod.ext rfl hc)) (Prod.ext rfl (Prod.ext rfl hw))
  · intro s k o h p x picks b ho hb
    rw [performOp_store picks ho]
    refine ⟨fun hopen => ?_, fun sl hdenied => storePieces_of_denied o.lane h hdenied⟩
    rw [storePieces_of_open o.lane h hopen]
    obtain ⟨b', old, hb', hbuf, hold⟩ := addEntry_block ⟨p, x, s.oidOf k o.lane, k.ci, o.lane, k.pc, 0, h⟩ h hb
    refine ⟨b', old, _, hb', hbuf, hold, rfl, rfl, rfl, rfl, rfl, rfl, fun i hi => ?_⟩
    rw [hbuf]
    exact bufferByte_append old _ hi
  · intro s k o h ps picks ho
    rw [performOp_store picks ho]
    rfl

end Sys2Proof.Proofs
end

