-- ==== Sys2Proof/Proofs/Atomics.lean ====
section
/-! Atomics and REDs as they perform (11_ordering R165, R167, R174, R175; 12_memory_instructions R195 to R198). -/

namespace Sys2Proof.Proofs

open Sys2Proof.Machine Sys2Proof.Laws

/-! ### Draining what an atomic's bytes have in the store buffer (R175) -/

/-- A forced drain takes in nothing but its own run where no entry overlaps it. -/
theorem forcedRuns_of_apart {a n : Nat} : ∀ {es : List Entry}, (∀ e ∈ es, overlap e.p.home e.p.size a n = false) → forcedRuns a n es = [(a, n)]
  | [], _ => rfl
  | e :: es, h => by
    have hrest : forcedRuns a n es = [(a, n)] := forcedRuns_of_apart fun x hx => h x (List.mem_cons_of_mem _ hx)
    have he := h e (List.mem_cons_self ..)
    simp only [forcedRuns, List.foldr_cons] at hrest ⊢
    rw [hrest]
    simp only [List.any_cons, List.any_nil, Bool.or_false, he, Bool.false_eq_true, if_false]

theorem forcedIdx_of_apart {a n : Nat} {es : List Entry} (h : ∀ e ∈ es, overlap e.p.home e.p.size a n = false) : forcedIdx a n es = none := by
  refine List.find?_eq_none.mpr fun k hk => ?_
  cases he : es[k]? with
  | none => simp only [Bool.false_eq_true, not_false_eq_true]
  | some e =>
    have hruns : forcedRuns a n (es.drop (k + 1)) = [(a, n)] := forcedRuns_of_apart fun x hx => h x (List.mem_of_mem_drop hx)
    simp only [hruns, List.any_cons, List.any_nil, Bool.or_false, h e (List.mem_of_getElem? he), Bool.false_eq_true, not_false_eq_true]

/-- With nothing of a run in the store buffer, it has nothing to drain. -/
theorem drainRun_of_apart {s : State} {u a n : Nat} {b : Block} (hb : s.block? u = some b)
    (h : ∀ e ∈ b.storeBuf, overlap e.p.home e.p.size a n = false) : s.drainRun u a n = s := by
  have hover : ∀ fuel, State.drainOver u a n fuel s = s := fun fuel => by
    cases fuel with
    | zero => rfl
    | succ fuel => simp only [State.drainOver, hb, forcedIdx_of_apart h]
  simp only [State.drainRun, hb, hover]

/-! ### The move (R175, R195 to R198) -/

section Move
variable {s : State} {k : Ctx} {p : Piece} {b : Block} (hb : s.block? k.b.uid = some b)
  (hapart : ∀ e ∈ b.storeBuf, overlap e.p.home e.p.size p.home p.size = false)
include hb hapart

/-- An atomic of a global word that nothing denies. -/
theorem atomicAt_global (j : Nat) (z : Acc) (w : Bool) (f : DWord → Option DWord) (hopen : s.denies k.b.part k.b.clr p = none) :
    s.atomicAt k j z (.global p) w f =
      (let s1 := s.l2Read k.b.vf k.b.core p
       let old := BitVec.ofNat 64 (s1.numHome p.key p.home p.size)
       let s2 := (match f old with
         | some x => s1.writeThrough k.b.vf p (leBytes p.size (x.toNat % 256 ^ p.size))
         | none => s1)
       (s2.modLane k.b.uid k.ci j fun l => l.raise s2.now p.home p.size, old)) := by
  simp only [State.atomicAt, drainRun_of_apart hb hapart, hopen] <;>
  rfl

end Move

section Scratch
variable {s : State} {k : Ctx} {core a : Nat} {t : Block} (ht : s.targetOf k core = some t)
include ht

theorem atomicAt_scratch (j : Nat) (z : Acc) (w : Bool) (f : DWord → Option DWord) : s.atomicAt k j z (.scratch core a) w f =
    (match f (BitVec.ofNat 64 (leNat (memBytes t.scratch a z.size))) with
      | some x => s.scratchStore t.uid a (leBytes z.size (x.toNat % 256 ^ z.size))
      | none => s, BitVec.ofNat 64 (leNat (memBytes t.scratch a z.size))) := by
  simp only [State.atomicAt, ht]
  rfl

end Scratch

/-! ### REDs of global memory (R165, R174, R197) -/

/-- A RED that performs is acknowledged. -/
def acked (u : Nat) (b : Block) : Block := if b.uid == u then { b with unacked := b.unacked - 1 } else b

theorem acked_uid (u : Nat) (b : Block) : (acked u b).uid = b.uid := by
  unfold acked
  split <;> rfl

section Posted
variable {s : State} {n : Nat} {q : Posted} {op : AtomOp} {z : Acc} {p : Piece} {v : DWord} (hq : s.posted[n]? = some q)
  (hop : q.op.what = .red op z (.global p) v)

include hq hop in
theorem performPosted_of_block {b : Block} (hb : s.block? q.blk = some b) : s.performPosted n =
    (({ s with posted := s.posted.eraseIdx n } : State).performRedOf b q op z p v).modBlock q.blk (acked q.blk) := by
  have hb' : ({ s with posted := s.posted.eraseIdx n } : State).block? q.blk = some b := hb
  simp only [State.performPosted, hq, hop, hb']
  rfl

include hq hop in
theorem performPosted_of_saved {b : Block} (hb : s.block? q.blk = none) (hsaved : s.savedBlock q.blk = some b) : s.performPosted n =
    (let t := ({ s with posted := s.posted.eraseIdx n } : State).performRedOf b q op z p v
     { t with launches := t.launches.map fun l => { l with saved := l.saved.map (acked q.blk) } }) := by
  have hb' : ({ s with posted := s.posted.eraseIdx n } : State).block? q.blk = none := hb
  have hsaved' : ({ s with posted := s.posted.eraseIdx n } : State).savedBlock q.blk = some b := hsaved
  simp only [State.performPosted, hq, hop, hb', hsaved']
  rfl

end Posted

section Red
variable {s : State} {b : Block} {q : Posted} {op : AtomOp} {z : Acc} {p : Piece} {v : DWord} (hb : s.block? b.uid = some b)
  (hapart : ∀ e ∈ b.storeBuf, overlap e.p.home e.p.size p.home p.size = false)
include hb hapart

theorem performRedOf_of_denied {sl : Nat × Bool} (h : s.denies b.part b.clr p = some sl) : s.performRedOf b q op z p v =
    s.denial b.part b.vf p.va q.oid b.launch (.lane b.core) true sl.2 sl.1 := by
  simp only [State.performRedOf, drainRun_of_apart hb hapart, h]

/-- The word that a RED writes: what its operation makes of the newest value at home. -/
def redWord (s : State) (b : Block) (op : AtomOp) (z : Acc) (p : Piece) (v : DWord) : DWord :=
  atomNew op z (BitVec.ofNat 64 ((s.l2Read b.vf b.core p).numHome p.key p.home p.size)) v

theorem performRedOf_of_open (h : s.denies b.part b.clr p = none) : s.performRedOf b q op z p v =
    (let t := ((s.l2Read b.vf b.core p).l2Write b.vf p .none).writeHome p.key
       (cellsOf p.home (leBytes p.size ((redWord s b op z p v).toNat % 256 ^ p.size)))
     (t.modLane b.uid q.crew q.op.lane fun l => l.raise t.now p.home p.size).owesHost q.blk p.home p.size (.red q.crew)) := by
  simp only [State.performRedOf, drainRun_of_apart hb hapart, h]
  rfl

end Red

theorem owesHost_reads (s : State) (u home n : Nat) (c : HostCause) (slot time a : Nat) :
    (s.owesHost u home n c).readAt slot time a = s.readAt slot time a := by
  have field : ∀ {α : Type} (f : State → α), f { s.owesHost u home n c with hostReqs := s.hostReqs, hostNo := s.hostNo } = f s := fun f =>
    congrArg f (owesHost_keeps s u home n c)
  exact field fun s => s.readAt slot time a

theorem owesHost_now (s : State) (u home n : Nat) (c : HostCause) : (s.owesHost u home n c).now = s.now :=
  (congrArg State.now (owesHost_keeps s u home n c) :)

theorem owesHost_posted (s : State) (u home n : Nat) (c : HostCause) : (s.owesHost u home n c).posted = s.posted :=
  (congrArg State.posted (owesHost_keeps s u home n c) :)

theorem modBlock_reads (s : State) (u : Nat) (f : Block → Block) (slot time a : Nat) :
    (s.modBlock u f).readAt slot time a = s.readAt slot time a := sameDevice_memory (sameDevice_modBlock s u f) slot time a

/-- A posted RED that performs (R197): what home memory reads then, and its acknowledgement. -/
theorem performPosted_writes {s : State} {n : Nat} {q : Posted} {op : AtomOp} {z : Acc} {p : Piece} {v : DWord} {b : Block}
    (hq : s.posted[n]? = some q) (hop : q.op.what = .red op z (.global p) v) (hb : s.block? q.blk = some b)
    (hapart : ∀ e ∈ b.storeBuf, overlap e.p.home e.p.size p.home p.size = false) (hw : memWf s.mem = true)
    (hopen : s.denies b.part b.clr p = none) :
    let s0 : State := { s with posted := s.posted.eraseIdx n }
    let s1 := s0.l2Read b.vf b.core p
    let new := atomNew op z (BitVec.ofNat 64 (s1.numHome p.key p.home p.size)) v
    let s2 := s1.l2Write b.vf p .none
    let t := s.performPosted n
    t.now = s.now + 1 ∧ t.posted = s0.posted ∧ OnlyL2 s0 s2
      ∧ (∀ i, i < p.size → t.readAt p.key t.now (p.home + i) = BitVec.ofNat 8 (new.toNat / 256 ^ i))
      ∧ (∀ a, a < p.home ∨ p.home + p.size ≤ a → t.readAt p.key t.now a = s2.readAt p.key s.now a)
      ∧ ∃ b', t.block? q.blk = some b' ∧ b'.unacked = b.unacked - 1 ∧ b'.storeBuf = b.storeBuf := by
  intro s0 s1 new s2 t
  have huid : b.uid = q.blk := block_uid hb
  have honly : OnlyL2 s0 s2 := onlyL2_trans (l2Read_only s0 b.vf b.core p) (l2Write_only s1 b.vf p .none)
  have hnow2 : s2.now = s.now := (onlyL2_now honly : s2.now = s0.now)
  have hw2 : memWf s2.mem = true := by rw [onlyL2_mem honly]; exact hw
  have hb0 : s0.block? b.uid = some b := huid ▸ hb
  generalize hbs : leBytes p.size (new.toNat % 256 ^ p.size) = bs
  have hlen : bs.length = p.size := by rw [← hbs, leBytes_len]
  have ht : t = (((s2.writeHome p.key (cellsOf p.home bs)).modLane b.uid q.crew q.op.lane fun l =>
      l.raise (s2.writeHome p.key (cellsOf p.home bs)).now p.home p.size).owesHost q.blk p.home p.size (.red q.crew)).modBlock q.blk
        (acked q.blk) := by
    rw [← hbs]
    exact (performPosted_of_block hq hop hb).trans
      (congrArg (·.modBlock q.blk (acked q.blk)) (performRedOf_of_open (s := s0) (q := q) hb0 hapart hopen))
  have hnow : t.now = s.now + 1 := by
    rw [ht]
    exact (owesHost_now ..).trans ((writeHome_now s2 p.key _).trans (congrArg (· + 1) hnow2))
  have hread : ∀ time a, t.readAt p.key time a = (s2.writeHome p.key (cellsOf p.home bs)).readAt p.key time a := fun time a => by
    rw [ht, modBlock_reads, owesHost_reads]
    exact modBlock_reads ..
  refine ⟨hnow, by rw [ht]; exact (owesHost_posted ..).trans (congrArg State.posted honly.same :), honly, fun i hi => ?_, fun a ha => ?_, ?_⟩
  · rw [hread, hnow, ← hnow2]
    refine (writeHome_reads p.key p.home bs hw2 (by rw [← hbs]; exact leBytes_get _ _ i hi)).trans (byte_of_mod _ _ i hi)
  · rw [hread, hnow, ← hnow2]
    exact writeHome_reads_other p.key p.home bs hw2 (by rwa [hlen])
  · have hbefore : (s2.writeHome p.key (cellsOf p.home bs)).block? q.blk = some b := (onlyL2_block honly q.blk).trans hb
    generalize s2.writeHome p.key (cellsOf p.home bs) = s3 at ht hbefore
    have hraised : (s3.modLane b.uid q.crew q.op.lane fun l => l.raise s3.now p.home p.size).block? q.blk =
        some (b.modCrew q.crew (·.modLane q.op.lane fun l => l.raise s3.now p.home p.size)) := by
      rw [huid]
      exact modBlock_at (fun _ => rfl) hbefore
    have howed : ∀ (s : State) home n c, (s.owesHost q.blk home n c).block? q.blk = s.block? q.blk := fun s home n c => by
      rw [State.block?, owesHost_blocks, State.block?]
    refine ⟨_, by rw [ht]; exact modBlock_at (acked_uid q.blk) ((howed ..).trans hraised), ?_, ?_⟩
    · have hself : (b.modCrew q.crew (·.modLane q.op.lane fun l => l.raise s3.now p.home p.size)).uid == q.blk := by simpa [Block.modCrew] using huid
      rw [acked, if_pos hself]
      rfl
    · unfold acked
      split <;> rfl

theorem accInt_min (z : Acc) (x v : DWord) : accInt z (atomNew .min z x v) = min (accInt z x) (accInt z v) := by
  simp only [atomNew]
  split <;> omega

theorem accInt_max (z : Acc) (x v : DWord) : accInt z (atomNew .max z x v) = max (accInt z x) (accInt z v) := by
  simp only [atomNew]
  split <;> omega

/-- Settles O26: each clause is one kind of atomic, or one value that atomics write. -/
theorem atomicsAct : Obligations.AtomicsAct := by
  unfold Obligations.AtomicsAct
  refine ⟨⟨?_, ?_, ?_, ?_, ?_, ?_, ?_, ?_⟩, fun _ _ _ => rfl, fun _ _ _ => rfl, fun _ _ _ => rfl, fun _ _ _ => rfl, fun _ _ _ => rfl,
    accInt_min, accInt_max⟩
  · exact fun s k j z p w f b hb hapart hopen => atomicAt_global hb hapart j z w f hopen
  · intro s k o z p cmp new d picks ho
    simp only [State.performOp, ho, State.performCas]
  · intro s k o op z p v d picks ho
    simp only [State.performOp, ho, State.performAtom]
  · intro s k o op z core a v picks ho
    simp only [State.performOp, ho, State.performRed]
  · intro s k j z core a w f t ht hb hw
    rw [atomicAt_scratch ht]
    refine ⟨rfl, fun h => ?_, fun x h => ?_⟩
    · simp only [h]
    · simp only [h]
      exact scratchStore_bytes a z.size x.toNat hb hw
  · intro s k o op z p v picks b ho hb
    have hop : s.performOp k o picks = { s.modBlock k.b.uid fun b => { b with unacked := b.unacked + 1 } with
        posted := s.posted ++ [⟨k.b.uid, k.ci, o, s.oidOf k o.lane⟩] } := by
      simp only [State.performOp, ho, State.performRed]
    rw [hop]
    exact ⟨_, modBlock_at (f := fun b => { b with unacked := b.unacked + 1 }) (fun _ => rfl) hb, rfl, rfl, rfl, fun _ _ _ => rfl⟩
  · intro s n q op z p v b hq hop hb hapart hw
    refine ⟨performPosted_writes hq hop hb hapart hw, fun sl hdenied => ?_⟩
    rw [performPosted_of_block hq hop hb]
    have huid : b.uid = q.blk := block_uid hb
    exact congrArg (·.modBlock q.blk (acked q.blk)) (performRedOf_of_denied (s := { s with posted := s.posted.eraseIdx n }) (q := q)
      (huid ▸ hb) hapart hdenied)
  · exact fun s n q op z p v b hq hop hb hsaved => performPosted_of_saved hq hop hb hsaved

end Sys2Proof.Proofs
end

