-- ==== Sys2Proof/Proofs/Ordering.lean ====
section
/-! Fences, SFENCE, barriers and WAITC as they perform (09_program_halo R147; 11_ordering R174, R177; 12_memory_instructions R199 to
R205). -/

namespace Sys2Proof.Proofs

open Sys2Proof.Machine Sys2Proof.Laws

/-! ### FENCE (R174, R199) -/

section Fence
variable {s : State} {b : Block} {ci : Nat} {c : Crew} {n : Nat} {o : Op} {sc : Scope} (ho : c.queue[n]? = some o) (hw : o.what = .fence sc)
include ho hw

/-- What a FENCE asks of what stands before it, beside the order of MFENCE and MWAIT. -/
theorem mayPerform_fence : s.mayPerform b ci c n = true ↔
    c.behindMwait o.ins = false ∧ s.fenceOk b ci (c.queue.take n) sc = true := by
  have hbefore : ((c.queue.take n).filter fun p => !(o.what.byEighth && p.ins == o.ins && p.lane / 16 == o.lane / 16)) = c.queue.take n := by
    simp only [hw, OpKind.byEighth, Bool.false_and, Bool.not_false, List.filter_true]
  have hbytes : ∀ core, o.what.bytes core = [] := fun core => by rw [hw]; rfl
  have hmeets : ∀ (x : OpKind) core, x.meets core o.what = false := fun x core => by
    simp only [OpKind.meets, hbytes, List.any_nil]
    exact List.any_eq_false.mpr fun _ _ => Bool.false_ne_true
  have hcores : o.what.cores b.core = [] := by rw [OpKind.cores, hbytes]; rfl
  simp only [State.mayPerform, ho, hbefore, hmeets, hcores, hbytes]
  simp [hw, OpKind.isStore, OpKind.afterLen]

theorem before_fence_of_crew (h : s.mayPerform b ci c n = true) (hsc : sc = .crew ∨ sc = .block) :
    ∀ p ∈ c.queue.take n, p.what.peer b.core = true ∧ p.what.returns = false := fun p hp => by
  have hok := ((mayPerform_fence ho hw).mp h).2
  have hall : ((c.queue.take n).all fun o => o.what.peer b.core && !o.what.returns) = true := by rcases hsc with rfl | rfl <;> exact hok
  simpa only [Bool.and_eq_true, Bool.not_eq_true'] using List.all_eq_true.mp hall p hp

theorem before_fence_of_clust (h : s.mayPerform b ci c n = true) (hsc : sc = .clust ∨ sc = .part ∨ sc = .sys) :
    n = 0 ∧ ∀ q ∈ s.posted, q.blk = b.uid → q.crew ≠ ci := by
  have hok := ((mayPerform_fence ho hw).mp h).2
  have hboth : ((c.queue.take n).isEmpty && !s.posted.any fun p => p.blk == b.uid && p.crew == ci) = true := by
    rcases hsc with rfl | rfl | rfl <;> exact hok
  obtain ⟨hempty, hnone⟩ := Bool.and_eq_true_iff.mp hboth
  refine ⟨?_, fun q hq hblk hcrew => ?_⟩
  · have hlt : n < c.queue.length := (List.getElem?_eq_some_iff.mp ho).1
    have hlen := congrArg List.length (List.isEmpty_iff.mp hempty)
    rw [List.length_take, List.length_nil] at hlen
    omega
  · have hq' := List.any_eq_false.mp (Bool.not_eq_true' _ ▸ hnone) q hq
    exact hq' (by simp [hblk, hcrew])

end Fence

theorem mayPerform_fence_first {s : State} {b : Block} {ci : Nat} {c : Crew} {o : Op} {sc : Scope} (ho : c.queue[0]? = some o)
    (hw : o.what = .fence sc) (hposted : ∀ q ∈ s.posted, q.blk ≠ b.uid) (hparked : ∀ l ∈ c.lanes, l.parked = false) :
    s.mayPerform b ci c 0 = true := by
  have hmine : (s.posted.any fun p => p.blk == b.uid && p.crew == ci) = false := List.any_eq_false.mpr fun q hq => by simp [hposted q hq]
  refine (mayPerform_fence ho hw).mpr ⟨List.any_eq_false.mpr fun l hl => ?_, ?_⟩
  · split
    · simp [hparked l hl]
    · exact Bool.false_ne_true
  · cases sc <;> simp [State.fenceOk, hmine]

/-! ### SFENCE (R201) -/

theorem performSfence_block {s : State} {k : Ctx} {a : Nat} {len : Option Nat} {b : Block} (hb : s.block? k.b.uid = some b) : ∃ b',
    (s.performSfence k a len).block? k.b.uid = some b' ∧ SameMemory s (s.performSfence k a len) ∧ b'.scratch = b.scratch
    ∧ b'.tiles = b.tiles ∧ b'.crews = b.crews ∧ b'.handles.length = b.handles.length
    ∧ ∀ (i : Nat) h, b.handles[i]? = some h → b'.handles[i]? = some (match h.inScratch with
      | some lo => if 0 < len.getD (b.scratchSize - a) ∧ lo < a + len.getD (b.scratchSize - a) ∧ a < b.scratchSize
          then { h with gen := h.gen + 1 } else h
      | none => h) := by
  refine ⟨_, modBlock_at (fun _ => rfl) hb, sameDevice_memory (sameDevice_modBlock s k.b.uid _), rfl, rfl, rfl, List.length_map .., fun i h hi => ?_⟩
  simp only [List.getElem?_map, hi, Option.map_some, Option.some.injEq]
  cases h.inScratch with
  | none => rfl
  | some lo => simp only [Bool.and_eq_true, decide_eq_true_eq, and_assoc]

/-! ### Parking at a barrier (R41, R147, R205) -/

theorem laneAt_parkAfter (s : State) (k : Ctx) (lane len : Nat) (w : Park) (j : Nat) :
    (s.parkAfter k lane len w).laneAt k.b.uid k.ci j = if j = lane then (s.laneAt k.b.uid k.ci j).map fun l =>
      { l with parked := true, act := false, park := some w, wl := (s.after k len l.wl).1, ro := (s.after k len l.wl).2 }
      else s.laneAt k.b.uid k.ci j := by
  rw [State.parkAfter, laneAt_modLane]
  simp only [true_and]

/-- A lane that stands parked for something, with the registers of another. -/
structure ParkedAs (l l' : Lane) (w : Park) : Prop where
  parked : l'.parked = true
  act : l'.act = false
  park : l'.park = some w
  regs : l'.v = l.v

/-- The lanes of some operations park, one after another. -/
theorem laneAt_parkEach (k : Ctx) (w : Park) {j : Nat} {l : Lane} : ∀ (os : List Op) (s : State) (m : Lane),
    s.laneAt k.b.uid k.ci j = some m → m.v = l.v → (ParkedAs l m w ∨ ∃ p ∈ os, p.lane = j) →
    ∃ l', (os.foldl (fun s o => s.parkAfter k o.lane 1 w) s).laneAt k.b.uid k.ci j = some l' ∧ ParkedAs l l' w
  | [], s, m, hm, _, h => by
    obtain hparked | ⟨p, hp, -⟩ := h
    · exact ⟨m, hm, hparked⟩
    · cases hp
  | o :: os, s, m, hm, hv, h => by
    by_cases ho : j = o.lane
    · refine laneAt_parkEach k w os (s.parkAfter k o.lane 1 w) (m := { m with
        parked := true, act := false, park := some w, wl := (s.after k 1 m.wl).1, ro := (s.after k 1 m.wl).2 }) ?_ hv
        (.inl ⟨rfl, rfl, rfl, hv⟩)
      rw [laneAt_parkAfter, if_pos ho, hm]
      rfl
    · refine laneAt_parkEach k w os (s.parkAfter k o.lane 1 w) m ?_ hv (h.imp_right fun ⟨p, hp, hj⟩ => ⟨p, ?_, hj⟩)
      · rw [laneAt_parkAfter, if_neg ho, hm]
      · exact (List.mem_cons.mp hp).resolve_left fun h => ho (h ▸ hj).symm

theorem modLane_block {s : State} {u : Nat} {b : Block} (ci j : Nat) (f : Lane → Lane) (hb : s.block? u = some b) :
    (s.modLane u ci j f).block? u = some (b.modCrew ci (·.modLane j f)) :=
  modBlock_at (f := (·.modCrew ci (·.modLane j f))) (fun _ => rfl) hb

/-- Parking lanes leaves what a block has of its barriers. -/
theorem block_parkEach (k : Ctx) (w : Park) : ∀ (os : List Op) {s : State} {b : Block}, s.block? k.b.uid = some b → ∃ b',
    (os.foldl (fun s o => s.parkAfter k o.lane 1 w) s).block? k.b.uid = some b' ∧ b'.barArr = b.barArr ∧ b'.barInst = b.barInst
      ∧ b'.barcInst = b.barcInst
  | [], s, b, hb => ⟨b, hb, rfl, rfl, rfl⟩
  | o :: os, s, b, hb => by
    obtain ⟨b', hb', harr, hinst, hinst'⟩ := block_parkEach k w os (s := s.parkAfter k o.lane 1 w) (modLane_block k.ci o.lane _ hb)
    exact ⟨b', hb', harr, hinst, hinst'⟩

/-- Lanes that arrive at a barrier that they do not complete park. -/
theorem parkEach_spec {s : State} {k : Ctx} {b0 : Block} {f : Block → Block} (huid : ∀ b, (f b).uid = b.uid)
    (hcrews : ∀ b, (f b).crews = b.crews) (w : Park) (os : List Op) (hb : (s.modBlock k.b.uid f).block? k.b.uid = some b0) : ∃ b',
    (os.foldl (fun s o => s.parkAfter k o.lane 1 w) (s.modBlock k.b.uid f)).block? k.b.uid = some b' ∧ b'.barArr = b0.barArr
      ∧ b'.barInst = b0.barInst ∧ b'.barcInst = b0.barcInst
      ∧ ∀ p ∈ os, ∀ l, s.laneAt k.b.uid k.ci p.lane = some l → ∃ l',
          (os.foldl (fun s o => s.parkAfter k o.lane 1 w) (s.modBlock k.b.uid f)).laneAt k.b.uid k.ci p.lane = some l'
          ∧ l'.parked = true ∧ l'.act = false ∧ l'.park = some w ∧ l'.v = l.v := by
  obtain ⟨b', hb', harr, hinst, hinst'⟩ := block_parkEach k w os hb
  refine ⟨b', hb', harr, hinst, hinst', fun p hp l hl => ?_⟩
  obtain ⟨l', hl', hpark⟩ := laneAt_parkEach k w (l := l) os (s.modBlock k.b.uid f) l (by rw [laneAt_modBlock huid hcrews, hl]) rfl
    (.inr ⟨p, hp, rfl⟩)
  exact ⟨l', hl', hpark.parked, hpark.act, hpark.park, hpark.regs⟩

/-! ### Completing a barrier (R147, R205) -/

theorem counted_iff (l : Lane) : l.counted = true ↔ l.done = false ∧ l.trapped = false := by
  simp only [Lane.counted, Bool.and_eq_true, Bool.not_eq_true']

theorem arrived_iff (c : Crew) (arr : List (Nat × Nat)) : c.arrived arr = true ↔
    (c.live = true → ∀ (j : Nat) l, c.lanes[j]? = some l → l.done = false → l.trapped = false → (c.cid, j) ∈ arr) := by
  have hslots : ∀ x : Nat × Lane, x ∈ c.slots ↔ c.lanes[x.1]? = some x.2 := fun x => by
    simp only [Crew.slots, List.mem_iff_getElem?, List.getElem?_mapIdx, Option.map_eq_some_iff]
    constructor
    · rintro ⟨i, l, hl, rfl⟩
      exact hl
    · exact fun h => ⟨x.1, x.2, h, rfl⟩
  cases hlive : c.live with
  | false => simp only [Crew.arrived, hlive, Bool.not_false, Bool.true_or, Bool.false_eq_true, false_implies]
  | true =>
    simp only [Crew.arrived, hlive, Bool.not_true, Bool.false_or, List.all_eq_true, true_implies]
    constructor
    · intro h j l hl hdone htrapped
      have hx := h (j, l) ((hslots (j, l)).mpr hl)
      simpa only [(counted_iff l).mpr ⟨hdone, htrapped⟩, Bool.not_true, Bool.false_or, List.contains_iff_mem] using hx
    · rintro h ⟨j, l⟩ hx
      cases hcounted : l.counted with
      | false => simp only [Bool.not_false, Bool.true_or]
      | true =>
        obtain ⟨hdone, htrapped⟩ := (counted_iff l).mp hcounted
        simpa only [Bool.not_true, Bool.false_or, List.contains_iff_mem] using h j l ((hslots (j, l)).mp hx) hdone htrapped

theorem barDone_iff (b : Block) : b.barDone = true ↔ b.barArr ≠ [] ∧ ∀ c ∈ b.crews, c.live = true → ∀ (j : Nat) l, c.lanes[j]? = some l →
    l.done = false → l.trapped = false → (c.cid, j) ∈ b.barArr := by
  simp only [Block.barDone, Bool.and_eq_true, bne_iff_ne, List.all_eq_true, arrived_iff]

/-- No lane that is let go stays parked for what lets it go. -/
theorem unparkWhere_gone (c : Crew) (w : Park) : ∀ l ∈ (c.unparkWhere (· == w)).lanes, l.parked = true → l.park ≠ some w := by
  intro l hl
  obtain ⟨m, hm, rfl⟩ := List.mem_map.mp hl
  cases hpark : m.park with
  | none => simp only [hpark, ne_eq, reduceCtorEq, not_false_eq_true, implies_true]
  | some x =>
    cases hgo : (m.parked && x == w) with
    | true => simp only [hgo, if_true, Bool.false_eq_true, false_implies]
    | false =>
      simp only [hgo, Bool.false_eq_true, if_false, hpark]
      intro hparked hwait
      obtain rfl := Option.some.inj hwait
      simp only [hparked, beq_self_eq_true, Bool.and_self, Bool.true_eq_false] at hgo

theorem settleBar_of_done {b : Block} (h : b.barDone = true) : b.settleBar = { b with
    barArr := [], barInst := b.barInst + 1, crews := b.crews.map (·.unparkWhere (· == .bar b.barInst)) } := by
  rw [Block.settleBar, if_pos h]

theorem settleBar_spec (b : Block) : (b.barDone = true → b.settleBar.barArr = [] ∧ b.settleBar.barInst = b.barInst + 1
      ∧ ∀ c ∈ b.settleBar.crews, ∀ l ∈ c.lanes, l.parked = true → l.park ≠ some (.bar b.barInst))
    ∧ (b.barDone = false → b.settleBar = b) := by
  refine ⟨fun h => ?_, fun h => by rw [Block.settleBar, h]; rfl⟩
  rw [settleBar_of_done h]
  refine ⟨rfl, rfl, fun c hc => ?_⟩
  obtain ⟨d, -, rfl⟩ := List.mem_map.mp hc
  exact unparkWhere_gone d _

theorem settleBarc_of_done {s : State} {u : Nat} {b : Block} (hb : s.block? u = some b) (h : s.barcDone b = true) :
    s.settleBarc u = s.mapBlocks fun x => if ((s.groupOf b).map (·.uid)).contains x.uid then nextBarc x else x := by
  simp only [State.settleBarc, hb, h, if_true]
  rfl

/-- A BARC that completes opens the next one in each block of its group. -/
theorem settleBarc_spec {s : State} {u : Nat} {b : Block} (hb : s.block? u = some b) (h : s.barcDone b = true) {x : Block}
    (hx : x ∈ s.blocks) (hmem : x.uid ∈ (s.groupOf b).map (·.uid)) : ∃ y ∈ (s.settleBarc u).blocks, y.uid = x.uid ∧ y.barcArr = []
      ∧ y.barcInst = x.barcInst + 1 ∧ ∀ c ∈ y.crews, ∀ l ∈ c.lanes, l.parked = true → l.park ≠ some (.barc x.barcInst) := by
  refine ⟨nextBarc x, ?_, rfl, rfl, rfl, fun c hc => ?_⟩
  · rw [settleBarc_of_done hb h]
    exact List.mem_map.mpr ⟨x, hx, by rw [if_pos (List.contains_iff_mem.mpr hmem)]⟩
  · obtain ⟨d, -, rfl⟩ := List.mem_map.mp hc
    exact unparkWhere_gone d _

/-! ### BAR and BARC perform -/

section Barriers
variable {s : State} {k : Ctx} {o : Op} {b : Block} (os : List Op) (hb : s.block? k.b.uid = some b)
include hb

/-- A block with more arrivals at its BAR. -/
def atBar (k : Ctx) (os : List Op) (b : Block) : Block := { b with barArr := b.barArr ++ os.map fun (o : Op) => (k.c.cid, o.lane) }

/-- The same for its BARC. -/
def atBarc (k : Ctx) (os : List Op) (b : Block) : Block := { b with barcArr := b.barcArr ++ os.map fun (o : Op) => (k.c.cid, o.lane) }

theorem performEighth_bar (ho : o.what = .bar) : s.performEighth k o os = if (atBar k os b).barDone
    then (s.modBlock k.b.uid (atBar k os)).settle k.b.uid
    else os.foldl (fun s o => s.parkAfter k o.lane 1 (.bar b.barInst)) (s.modBlock k.b.uid (atBar k os)) := by
  have hblock : (s.modBlock k.b.uid (atBar k os)).blockOf k = atBar k os b := by
    rw [State.blockOf, modBlock_at (f := atBar k os) (fun _ => rfl) hb, Option.getD_some]
  have hinst : (s.blockOf k).barInst = b.barInst := by rw [State.blockOf, hb, Option.getD_some]
  rw [← hblock, ← hinst]
  simp only [State.performEighth, ho]
  rfl

theorem performEighth_barc (ho : o.what = .barc) : s.performEighth k o os =
    if (s.modBlock k.b.uid (atBarc k os)).barcDone ((s.modBlock k.b.uid (atBarc k os)).blockOf k)
    then (s.modBlock k.b.uid (atBarc k os)).settle k.b.uid
    else os.foldl (fun s o => s.parkAfter k o.lane 1 (.barc b.barcInst)) (s.modBlock k.b.uid (atBarc k os)) := by
  have hinst : (s.blockOf k).barcInst = b.barcInst := by rw [State.blockOf, hb, Option.getD_some]
  rw [← hinst]
  simp only [State.performEighth, ho]
  rfl

end Barriers

/-! ### WAITC (R177, R203) -/

theorem performEighth_waitc {s : State} {k : Ctx} {o : Op} {cond : Cond} {z : Acc} {p : Piece} {rhs : DWord}
    (ho : o.what = .waitc cond z p rhs) : s.performEighth k o [o] =
      (let s1 := (s.drainRun k.b.uid p.home p.size).l2Read k.b.vf k.b.core p
       let s2 := (match s1.denies k.b.part k.b.clr p with
         | some sl => s1.denyLane k o.lane p.va false sl
         | none => s1)
       if s1.waitcTrue k.b.part k.b.clr p cond z rhs then s2.modLane k.b.uid k.ci o.lane fun l => l.raise s1.now p.home p.size
       else s2.parkAfter k o.lane 1 (.waitc p.home p.va cond z rhs k.pc)) := by
  simp only [State.performEighth, ho, List.foldl_cons, List.foldl_nil, State.performWaitc] <;>
  rfl

/-- Settles O28: each clause is one of these instructions. -/
theorem orderingInstructionsPerform : Obligations.OrderingInstructionsPerform := by
  unfold Obligations.OrderingInstructionsPerform
  refine ⟨?_, ?_, ?_, ?_, fun b => ⟨barDone_iff b, settleBar_spec b⟩, ?_, ?_, ?_⟩
  · intro s k o sc picks ho
    have hop : s.performOp k o picks = s.performFence sc := by simp only [State.performOp, ho]
    rw [hop]
    refine ⟨fun hne => ?_, fun hsys => by rw [hsys]; rfl⟩
    cases sc with
    | sys => exact absurd rfl hne
    | _ => rfl
  · intro s b ci c n o sc ho hw
    exact ⟨fun h => ⟨before_fence_of_crew ho hw h, before_fence_of_clust ho hw h⟩, fun hn hposted hparked => by
      subst hn
      exact mayPerform_fence_first ho hw hposted hparked⟩
  · intro s k o a len picks b ho hb
    have hop : s.performOp k o picks = s.performSfence k a len := by simp only [State.performOp, ho]
    rw [hop]
    exact performSfence_block hb
  · intro s k o os b ho hb b0
    rw [performEighth_bar os hb ho]
    refine ⟨fun (h : (atBar k os b).barDone = false) => ?_, fun h => if_pos h⟩
    rw [if_neg (Bool.eq_false_iff.mp h)]
    obtain ⟨b', hb', harr, hinst, -, hlanes⟩ := parkEach_spec (f := atBar k os) (fun _ => rfl) (fun _ => rfl) (.bar b.barInst) os
      (modBlock_at (f := atBar k os) (fun _ => rfl) hb)
    exact ⟨b', hb', harr, hinst, hlanes⟩
  · intro s k o os b ho hb t
    rw [performEighth_barc os hb ho]
    refine ⟨fun (h : (s.modBlock k.b.uid (atBarc k os)).barcDone ((s.modBlock k.b.uid (atBarc k os)).blockOf k) = false) => ?_,
      fun h => if_pos h⟩
    rw [if_neg (Bool.eq_false_iff.mp h)]
    obtain ⟨b', hb', -, -, hinst, hlanes⟩ := parkEach_spec (f := atBarc k os) (fun _ => rfl) (fun _ => rfl) (.barc b.barcInst) os
      (modBlock_at (f := atBarc k os) (fun _ => rfl) hb)
    exact ⟨b', hb', hinst, hlanes⟩
  · exact fun s u b hb h x hx hmem => settleBarc_spec hb h hx hmem
  · intro s k o cond z p rhs ho s1 no x s2
    rw [performEighth_waitc ho]
    exact ⟨fun h => if_pos h, fun h => if_neg (Bool.eq_false_iff.mp h)⟩

end Sys2Proof.Proofs
end

