-- ==== Sys2Proof/Proofs/CodeLines.lean ====
section
/-! PREFI, PINI and UNPINI (04_sweep R39, R48, R49; 06_control_integer R88): the lines they name, the pins, and the instruction cache. -/

namespace Sys2Proof.Proofs

open Sys2Proof.Machine Sys2Proof.Laws

section Lines
variable {s : State} {b : Block} {n : Nat}

theorem requestLine_of_no_line (h : s.lineX b n = none) : s.requestLine b n = s := by
  simp only [State.requestLine, h]

theorem pinLine_of_no_line (h : s.lineX b n = none) : s.pinLine b n = s := by
  simp only [State.pinLine, h]

variable {x : Xlat} (hx : s.lineX b n = some x)
include hx

theorem requestLine_of_denied (h : (s.denies b.part b.clr (pieceOf 0 128 x)).isSome = true) : s.requestLine b n = s := by
  simp only [State.requestLine, hx, h, if_true]

/-- A new line is not pinned where 128 are (R48). -/
theorem pinLine_of_full (hfull : 128 ≤ (s.pinned b.core).length) (hnew : x.home / 128 ∉ s.pinned b.core) : s.pinLine b n = s := by
  have hroom : ((s.pinned b.core).contains (x.home / 128) || decide ((s.pinned b.core).length < 128)) = false := by
    simp only [List.contains_eq_mem, hnew, decide_false, Nat.not_lt.mpr hfull, Bool.or_false]
  simp only [State.pinLine, hx, hroom, Bool.false_eq_true, if_false, ite_self]

/-- Any other line is pinned for the launch (R48). -/
theorem pinLine_pins (hroom : x.home / 128 ∈ s.pinned b.core ∨ (s.pinned b.core).length < 128) :
    ∃ p ∈ (s.pinLine b n).pins, p.1 = b.core ∧ p.2.1 = b.launch ∧ p.2.2.1 = n := by
  have hroom' : ((s.pinned b.core).contains (x.home / 128) || decide ((s.pinned b.core).length < 128)) = true := by
    simpa only [Bool.or_eq_true, List.contains_iff_mem, decide_eq_true_eq] using hroom
  simp only [State.pinLine, hx, hroom', if_true]
  split
  · next hpinned =>
    obtain ⟨p, hp, hthis⟩ := List.any_eq_true.mp hpinned
    simp only [Bool.and_eq_true, beq_iff_eq, and_assoc] at hthis
    exact ⟨p, hp, hthis⟩
  · exact ⟨_, List.mem_cons_self .., rfl, rfl, rfl⟩

end Lines

/-! ### The instruction cache (R39, R49) -/

/-- A fill reads no byte of a time before the code may be read. -/
theorem fillTime_from {s : State} (x : Xlat) {since : Nat} (pick : Nat) (h : since ≤ s.now) : since ≤ s.fillTime x since pick := by
  unfold State.fillTime
  split
  · split
    · omega
    · exact h
  · exact h

/-- A core's instruction cache with room in it takes a line. -/
theorem icachePut_mem {s : State} (e : ILine) (hroom : (s.icache.filter fun l => l.core == e.core).length < 256) :
    e ∈ (s.icachePut e).icache := by
  have hkept : ((s.icache.filter fun l => !(l.core == e.core && l.line == e.line)).filter fun l => l.core == e.core).length < 256 :=
    lt_of_le_of_lt ((List.filter_sublist.filter _).length_le) hroom
  simp only [State.icachePut, hkept, if_true]
  exact List.mem_cons_self ..

/-- A code line that is read stands in the instruction cache afterwards, where that has room (R39, R49). -/
theorem codeLine_in_icache {s : State} (b : Block) (va : Nat) (x : Xlat) {since : Nat} (pick : Nat) (hsince : since ≤ s.now)
    (hroom : (s.icache.filter fun l => l.core == b.core).length < 256) :
    ∃ l ∈ (s.codeLine b va x since pick).1.icache, l.core = b.core ∧ l.line = x.home / 256 ∧ l.key = x.key ∧ since ≤ l.time := by
  unfold State.codeLine
  split
  · next l hl =>
    have hthis := List.find?_some hl
    simp only [Bool.and_eq_true, beq_iff_eq, decide_eq_true_eq, and_assoc] at hthis
    exact ⟨l, List.mem_of_find?_eq_some hl, hthis⟩
  · refine ⟨_, icachePut_mem _ ?_, rfl, rfl, rfl, fillTime_from x pick hsince⟩
    have hicache : ∀ p, (s.l2Read b.vf b.core p).icache = s.icache := fun p => (congrArg State.icache (l2Read_only s b.vf b.core p).same :)
    rw [hicache]
    exact hroom

theorem requestLine_in_icache {s : State} {b : Block} {n : Nat} {x : Xlat} (hx : s.lineX b n = some x)
    (hopen : s.denies b.part b.clr (pieceOf 0 128 x) = none) (hroom : (s.icache.filter fun l => l.core == b.core).length < 256)
    (hsince : s.codeFrom b (b.code + 128 * n) x.home ≤ s.now) :
    ∃ l ∈ (s.requestLine b n).icache, l.core = b.core ∧ l.line = x.home / 256 ∧ l.key = x.key
      ∧ s.codeFrom b (b.code + 128 * n) x.home ≤ l.time := by
  simp only [State.requestLine, hx, hopen, Option.isSome_none, Bool.false_eq_true, if_false]
  exact codeLine_in_icache (s := s.draw.2) b _ x s.draw.1 hsince hroom

/-- Settles O13: the effects as they issue, and the rules of one line. -/
theorem codeLinesArePinned : Obligations.CodeLinesArePinned := by
  unfold Obligations.CodeLinesArePinned
  exact ⟨fun g n line => completes_of fun _ => rfl, fun g n line => completes_of fun _ => rfl, fun g n line => completes_of fun _ => rfl,
    fun g n line => completes_of fun _ => rfl, fun s b n h => ⟨pinLine_of_no_line h, requestLine_of_no_line h⟩,
    fun s b n x hx => pinLine_of_full hx, fun s b n x hx => pinLine_pins hx,
    fun s b n x hx hopen hroom hsince => requestLine_in_icache hx hopen hroom hsince, fun s b n x hx => requestLine_of_denied hx⟩

end Sys2Proof.Proofs
end

