-- ==== Sys2Proof/Proofs/Queueing.lean ====
section
/-! Instructions that complete by adding operations to their crew's queue (11_ordering R165, R166, R178; 12_memory_instructions R189 to
R210; 14_crews R213, R233; 18_engine_instructions R288, R289; 23_system_instructions R371). -/

namespace Sys2Proof.Proofs

open Sys2Proof.Machine Sys2Proof.Laws

/-! ### Lanes whose checks pass -/

/-- An instruction whose lanes act one by one, each queuing its operation where the condition holds. -/
theorem queueResult_lanes {i : Instr} {ls : Crew → List (Nat × Lane)} {f : Ctx → State → Nat → Lane → State} {ok : Ctx → Prop}
    {w : Ctx → Nat → Lane → OpKind} (hi : ∀ s, exec i s = issueLanes i ls f s) (hw : i.written = [])
    (hf : ∀ k, ok k → ∀ p ∈ ls k.c, ∀ s, f k s p.1 p.2 = s.push k p.1 (w k p.1 p.2)) :
    QueueResult i ok fun k => (ls k.c).map fun p => (p.1, w k p.1 p.2) := fun s k h hok => by
  rw [hi]
  exact issueLanes_queue hw h (hf k hok)

/-- The same, where the lanes then pass an implicit rewind point. -/
theorem queueResult_once {i : Instr} {ls : Crew → List (Nat × Lane)} {f : Ctx → State → Nat → Lane → State} {ok : Ctx → Prop}
    {w : Ctx → Nat → Lane → OpKind} (hi : ∀ s, exec i s = issueOnce i ls f s) (hw : i.written = [])
    (hf : ∀ k, ok k → ∀ p ∈ ls k.c, ∀ s, f k s p.1 p.2 = s.push k p.1 (w k p.1 p.2)) :
    QueueResult i ok fun k => (ls k.c).map fun p => (p.1, w k p.1 p.2) := fun s k h hok => by
  rw [hi]
  exact issueOnce_queue hw h (hf k hok)

/-- An instruction that finds nothing to do in its crew. -/
theorem queueStep_nil {i : Instr} {eff : Ctx → State → State} {s : State} {k : Ctx} (h : Issues s k i) (he : eff k (s.begun k i) = s.begun k i) :
    ∃ t, issue i eff s = .next t ∧ QueueStep s t k i [] :=
  queueStep_of (ws := []) (p := id) h (opened_nil k s i) (he.trans (modCrew_id _ _ _ fun c => by simp).symm) fun _ => rfl

theorem takers_take_one (c : Crew) (g : Guard) : (c.takers g).take 1 = match c.takers g with
    | [] => []
    | p :: _ => [p] := by
  cases c.takers g <;> rfl

/-- An instruction that queues one operation for its crew, in its lowest lane. -/
theorem queueResult_crew {i : Instr} {g : Guard} {eff : Ctx → State → State} {w : Ctx → Lane → OpKind}
    (hi : ∀ s, exec i s = issue i eff s) (hw : i.written = []) (hnone : ∀ k s, k.c.takers g = [] → eff k s = s)
    (hsome : ∀ k s p ps, k.c.takers g = p :: ps → eff k s = s.push k p.1 (w k p.2)) :
    QueueResult i (fun _ => True) fun k => ((k.c.takers g).take 1).map fun p => (p.1, w k p.2) := fun s k h _ => by
  rw [hi]
  dsimp only
  cases hg : k.c.takers g with
  | nil => exact queueStep_nil h (hnone k _ hg)
  | cons p ps =>
    refine queueStep_of (p := id) h (opened_none hw _ _ _) ((hsome k _ p ps hg).trans ?_) fun _ => rfl
    simp only [State.push, List.take_succ_cons, List.take_zero, List.map_cons, List.map_nil, List.map_id_fun, id_eq]

/-! ### Scratchpad and arrival-word instructions (R191, R194 to R197, R207 to R209) -/

theorem checkSp_ok {k : Ctx} {a w : Nat} (h : a + w ≤ k.b.scratchSize) : k.checkSp a w = .ok (k.b.core, a) := by
  rw [Ctx.checkSp, if_neg (Nat.not_lt.mpr h)]

theorem atomLane_sp {k : Ctx} {l : Lane} {z : Acc} {m : Mem} (halign : k.c.addrS l m z.size % z.size = 0)
    (hin : k.c.addrS l m z.size + z.size ≤ k.b.scratchSize) (s : State) (j : Nat) (kind : AccKind) (f : Place → OpKind) :
    s.atomLane k j l z .sp kind m f = s.push k j (f (.scratch k.b.core (k.c.addrS l m z.size))) := by
  simp only [State.atomLane, halign, ne_eq, not_true_eq_false, if_false, beq_self_eq_true, if_true, checkSp_ok hin, State.orTrap]

theorem arrivalLane_ok {k : Ctx} {l : Lane} {m : Mem} (halign : k.c.addrS l m 8 % 8 = 0) (hin : k.c.addrS l m 8 + 8 ≤ k.b.scratchSize)
    (s : State) (j : Nat) (f : Nat → OpKind) : s.arrivalLane k j l m f = s.push k j (f (k.c.addrS l m 8)) := by
  simp only [State.arrivalLane, halign, ne_eq, not_true_eq_false, if_false, checkSp_ok hin, State.orTrap]

/-- A phase queues itself once for the crew, whose lanes then pass an implicit point (R171, R200). -/
theorem phase_result {i : Instr} {pub ref : Bool} (hi : ∀ s, exec i s = issuePhase i pub ref s) (hw : i.written = []) :
    QueueResult i (fun _ => True) fun k => ((k.c.takers i.guard).take 1).map fun p => (p.1, .phase pub ref none) := fun s k h _ => by
  rw [hi, issuePhase]
  dsimp only
  cases hg : k.c.takers i.guard with
  | nil =>
    refine queueStep_nil h ?_
    simp only [hg, List.isEmpty_nil, if_true]
  | cons p ps =>
    obtain ⟨t, ht, hq⟩ := issueOnce_queue (i := i) (ls := fun c => (c.takers i.guard).take 1) (f := fun k s j _ => s.push k j (.phase pub ref none))
      (w := fun _ _ => .phase pub ref none) hw h fun _ _ _ => rfl
    simp only [hg] at hq
    refine ⟨t, ?_, hq⟩
    rw [← ht, issueOnce, issue_eq h, issue_eq h]
    simp only [hg, List.isEmpty_cons, Bool.false_eq_true, if_false, State.pushOnce, State.forLanes, List.take_succ_cons, List.take_zero,
      List.foldl_cons, List.foldl_nil]

theorem exec_fence (g : Guard) (sc : Scope) (s : State) : exec (.fence g sc) s =
    issue (.fence g sc) (fun k s => s.pushOnce k g (.fence sc)) s := rfl

theorem exec_sfence (g : Guard) (a b : Reg) (s : State) : exec (.sfence g a b) s = issue (.sfence g a b) (fun k s =>
    match k.c.takers g with
    | [] => s
    | (i, l) :: _ => s.push k i (.sfence (k.c.rd l a).toNat (if b.isNone then none else some (k.c.rd l b).toNat))) s := rfl

/-- Settles O20: every check passes, so each lane that acts queues its operation. -/
theorem scratchpadInstructionsAreQueued : Obligations.ScratchpadInstructionsAreQueued := by
  unfold Obligations.ScratchpadInstructionsAreQueued
  refine ⟨⟨?_, ?_, ?_, ?_, ?_⟩, ⟨?_, ?_, ?_⟩, ⟨?_, ?_, ?_, ?_, ?_, ?_, ?_⟩⟩
  · exact fun g z d m => queueResult_lanes (ls := (·.doers g d)) (w := fun k _ l => .spLoad z k.b.core (k.c.addrS l m z.size / z.size * z.size) d) (fun _ => rfl) rfl
      fun k hok p hp s => by simp only [checkSp_ok (hok p hp), State.orTrap]
  · exact fun g z d m => queueResult_lanes (ls := (·.takers g))
      (w := fun k _ l => .spStore k.b.core (k.c.addrS l m z.size / z.size * z.size) z.size (k.c.dataOf l d z.regs)) (fun _ => rfl) rfl
      fun k hok p hp s => by simp only [checkSp_ok (hok p hp), State.orTrap]
  · exact fun g d m => queueResult_once (ls := (·.takers g)) (w := fun k _ l => .awinit (k.c.addrS l m 8) (bits (k.c.rd l d) 0 24)) (fun _ => rfl) rfl
      fun k hok p hp s => arrivalLane_ok (hok p hp).1 (hok p hp).2 s p.1 _
  · exact fun g d m => queueResult_once (ls := (·.takers g)) (w := fun k _ l => .arrive (k.c.addrS l m 8) (bits (k.c.rd l d) 0 24)) (fun _ => rfl) rfl
      fun k hok p hp s => arrivalLane_ok (hok p hp).1 (hok p hp).2 s p.1 _
  · exact fun g d m => queueResult_lanes (ls := (·.takers g)) (w := fun k _ l => .await (k.c.addrS l m 8) (bits (k.c.rd l d) 0 16)) (fun _ => rfl) rfl
      fun k hok p hp s => arrivalLane_ok (hok p hp).1 (hok p hp).2 s p.1 _
  · exact fun g op z d m => queueResult_once (ls := (·.doers g d))
      (w := fun k _ l => .atom op z (.scratch k.b.core (k.c.addrS l m z.size)) (k.c.operand l z d) d) (fun _ => rfl) rfl
      fun k hok p hp s => atomLane_sp (hok p hp).1 (hok p hp).2 s p.1 .atomic _
  · exact fun g z d m => queueResult_once (ls := (·.doers g d))
      (w := fun k _ l => .cas z (.scratch k.b.core (k.c.addrS l m z.size)) (k.c.operand l z d) (k.c.operand l z (d.plus z.regs)) d)
      (fun _ => rfl) rfl fun k hok p hp s => atomLane_sp (hok p hp).1 (hok p hp).2 s p.1 .atomic _
  · exact fun g op z d m => queueResult_once (ls := (·.takers g)) (w := fun k _ l => .red op z (.scratch k.b.core (k.c.addrS l m z.size)) (k.c.operand l z d))
      (fun _ => rfl) rfl fun k hok p hp s => atomLane_sp (hok p hp).1 (hok p hp).2 s p.1 .red _
  · exact fun g sc => queueResult_crew (g := g) (w := fun _ _ => .fence sc) (exec_fence g sc) rfl (fun k s hg => by simp only [State.pushOnce, hg])
      fun k s p ps hg => by simp only [State.pushOnce, hg]
  · exact fun g => phase_result (i := .phasePub g) (fun _ => rfl) rfl
  · exact fun g => phase_result (i := .phaseRef g) (fun _ => rfl) rfl
  · exact fun g => phase_result (i := .phaseFull g) (fun _ => rfl) rfl
  · exact fun g a b => queueResult_crew (g := g)
      (w := fun k l => .sfence (k.c.rd l a).toNat (if b.isNone then none else some (k.c.rd l b).toNat)) (exec_sfence g a b) rfl
      (fun k s hg => by simp only [hg]) fun k s p ps hg => by simp only [hg]
  · exact queueResult_once (ls := (·.takers always)) (w := fun _ _ _ => .bar) (fun _ => rfl) rfl fun _ _ _ _ _ => rfl
  · exact queueResult_once (ls := (·.takers always)) (w := fun _ _ _ => .barc) (fun _ => rfl) rfl fun _ _ _ _ _ => rfl

/-! ### Engine and system instructions (R178, R288, R289, R371) -/

/-- A copy instruction none of whose lanes fails a check (R302). -/
theorem copy_result {i : Instr} {pd pa : Bool} {d a b e : Reg} (hi : ∀ s, exec i s = issueCopy i pd pa d a b e s) (hw : i.written = []) :
    QueueResult i (fun k => ∀ p ∈ k.c.takers i.guard,
        (let r := copyOf i (k.c.copyArg p.2 pd d) (k.c.copyArg p.2 pa a) (k.c.copyArg p.2 false b);
          r.1.check r.2.1 r.2.2 (k.c.rd p.2 e).toNat k.b.scratchSize) = none)
      fun k => (k.c.takers i.guard).map fun p => (p.1, .instr i
        [k.c.copyArg p.2 pd d, k.c.copyArg p.2 pa a, k.c.copyArg p.2 false b, k.c.copyArg p.2 false e]) :=
  queueResult_once (ls := (·.takers i.guard)) (w := fun k _ l => .instr i [k.c.copyArg l pd d, k.c.copyArg l pa a, k.c.copyArg l false b, k.c.copyArg l false e]) hi hw
    fun k hok p hp s => by
      have hcheck := hok p hp
      dsimp only at hcheck ⊢
      rw [hcheck]

theorem check_of_misaligned (c : CKind) (n b : Nat) {aw : Nat} (size : Nat) (h : aw % 8 ≠ 0) : c.check n b aw size = some (.misaligned, aw) := by
  rw [CKind.check, if_pos h]

theorem check_of_outside (c : CKind) (n b : Nat) {aw size : Nat} (h : aw % 8 = 0) (hout : size < aw + 8) :
    c.check n b aw size = some (.scratchBound, aw) := by
  have hfirst : ∃ es, c.extents n b aw = (aw, 8) :: es := ⟨_, rfl⟩
  obtain ⟨es, hes⟩ := hfirst
  rw [CKind.check, if_neg (not_not.mpr h), hes, List.find?_cons, decide_eq_true hout]
  rfl

/-- Settles O30, instruction by instruction. -/
theorem engineInstructionsAreQueued : Obligations.EngineInstructionsAreQueued := by
  unfold Obligations.EngineInstructionsAreQueued
  refine ⟨⟨?_, ?_, ?_, ?_, ?_, ?_, ?_, ?_, ?_, ?_, ?_, ?_, ?_, ?_, ?_, ?_, ?_⟩, ⟨?_, ?_, ?_⟩,
    fun i pd pa d a b e h => ?_, fun c n b aw size h => check_of_misaligned c n b size h, fun c n b aw size h hout => check_of_outside c n b h hout⟩
  · exact fun g l2 fmt h st a b => issueEngine_result fun _ => rfl
  · exact fun g t => issueEngine_result fun _ => rfl
  · exact fun g int t a b c => issueEngine_result fun _ => rfl
  · exact fun g sh t ha hb n ia ib => issueEngine_result fun _ => rfl
  · exact fun g => issueEngine_result fun _ => rfl
  · exact fun g d => issueEngine_result fun _ => rfl
  · exact fun g d a => issueEngine_result fun _ => rfl
  · exact fun g t d => issueEngine_result fun _ => rfl
  · exact fun g => issueEngine_result fun _ => rfl
  · exact fun g d => issueEngine_result fun _ => rfl
  · exact fun g d => issueEngine_result fun _ => rfl
  · exact fun g sl a => issueEngine_result fun _ => rfl
  · exact fun g sl => issueEngine_result fun _ => rfl
  · exact fun g sl io cb a => issueEngine_result fun _ => rfl
  · exact fun g t sl io cb a => issueEngine_result fun _ => rfl
  · exact fun g sl io cb a => issueEngine_result fun _ => rfl
  · exact fun g sl => issueEngine_result fun _ => rfl
  · exact fun g all t => queueResult_lanes (ls := (·.takers g)) (w := fun _ _ _ => .instr (.mwait g all t) []) (fun _ => rfl) rfl fun _ _ _ _ _ => rfl
  · exact fun g w t d a b => queueResult_lanes (ls := (·.takers g))
      (w := fun k _ l => .instr (.mread g w t d a b) [(k.c.rd l a).setWidth 64, (k.c.rd l b).setWidth 64]) (fun _ => rfl) rfl
      fun _ _ _ _ _ => rfl
  · exact fun g sl => queueResult_lanes (ls := (·.takers g)) (w := fun _ _ _ => .instr (.xwait g sl) []) (fun _ => rfl) rfl fun _ _ _ _ _ => rfl
  · obtain ⟨⟨g, r, rfl | rfl⟩, rfl, rfl⟩ | ⟨⟨g, t, r, rfl⟩, rfl, rfl⟩ | ⟨⟨g, dir, mc, w, rfl, rfl, rfl⟩, rfl⟩ | ⟨⟨g, w, rfl⟩, rfl, rfl⟩ := h
    · exact copy_result (fun _ => rfl) rfl
    · exact copy_result (fun _ => rfl) rfl
    · exact copy_result (fun _ => rfl) rfl
    · exact copy_result (fun _ => rfl) rfl
    · exact copy_result (fun _ => rfl) rfl

/-- Settles O31, instruction by instruction. -/
theorem systemInstructionsAreQueued : Obligations.SystemInstructionsAreQueued := by
  unfold Obligations.SystemInstructionsAreQueued
  refine ⟨?_, ?_, ?_, ?_, ?_, ?_, ?_, ?_, ?_, ?_, ?_, ?_, ?_, ?_⟩
  · exact fun g one d a b e => issueEngine_result fun _ => rfl
  · exact fun g d a b => issueEngine_result fun _ => rfl
  · exact fun g all a b e => issueEngine_result fun _ => rfl
  · exact fun g d a b q => issueEngine_result fun _ => rfl
  · exact fun g d a b q => issueEngine_result fun _ => rfl
  · exact fun g d a b e => issueEngine_result fun _ => rfl
  · exact fun g d a b => issueEngine_result fun _ => rfl
  · exact fun g d a b => issueEngine_result fun _ => rfl
  · exact fun g a => issueEngine_result fun _ => rfl
  · exact fun g a => issueEngine_result fun _ => rfl
  · exact fun g d a b => issueEngine_result fun _ => rfl
  · exact fun g d a b e => issueEngine_result fun _ => rfl
  · exact fun g d a b => issueEngine_result fun _ => rfl
  · exact fun g d a => completes_of fun _ => rfl

/-! ### Networks and REGROUP (R213, R233, R234, R249, R250) -/

theorem exec_take (g : Guard) (w32 : Bool) (d a q : Reg) (s : State) : exec (.take g w32 d a q) s = issue (.take g w32 d a q)
    (fun k s => (s.forLanes (k.c.takers g) fun s i l =>
      let n := (k.c.rd l a).toNat
      if s.granted k.b n = false then s.trapAgain k i .netNotGranted (BitVec.ofNat 64 n)
      else if (s.net n).closed then s.parkAgain k i (.network n (k.c.ins + 1))
      else (({ s with nextToken := s.nextToken + 1 } : State).modNet n fun x =>
        { x with tokens := x.tokens ++ [⟨s.nextToken, k.b.uid, k.ci, i, i % 16⟩] }).push k i (.token n s.nextToken w32 d q)).passImplicit k g
          (Instr.take g w32 d a q).len) s := by
  have hexec : exec (.take g w32 d a q) s = execTake g w32 d a q s := rfl
  simp only [hexec, execTake, issueOnce, Bool.not_eq_true']
  rfl

/-- NETCNT of a network that is granted queues itself in its lanes, or once for the crew (R250). -/
theorem netcnt_queue {g : Guard} {d a : Reg} {s : State} {k : Ctx} (h : Issues s k (.netcnt g d a))
    (hgranted : ∀ p, (k.c.takers g).head? = some p → s.granted k.b (k.c.rd p.2 a).toNat = true) :
    ∃ t, exec (.netcnt g d a) s = .next t ∧ QueueStep s t k (Instr.netcnt g d a) (match k.c.takers g with
      | [] => []
      | p :: r => (if d.isS then [p] else p :: r).map fun x => (x.1, .netcnt (k.c.rd p.2 a).toNat d)) := by
  have hexec : exec (.netcnt g d a) s = execNetcnt g d a s := rfl
  rw [hexec, execNetcnt]
  cases hg : k.c.takers g with
  | nil =>
    refine queueStep_nil h ?_
    simp only [hg]
  | cons p ps =>
    have hopen : (s.begun k (.netcnt g d a)).granted k.b (k.c.rd p.2 a).toNat = true := hgranted p (by rw [hg]; rfl)
    refine queueStep_of (p := id) h (opened_none rfl _ _ _) ?_ fun _ => rfl
    simp only [hg, hopen, Bool.not_true, Bool.false_eq_true, if_false]
    cases d.isS with
    | true => simp only [if_true, State.push, List.map_cons, List.map_nil, List.map_id_fun, id_eq]
    | false =>
      simp only [Bool.false_eq_true, if_false]
      rw [forLanes_push k (fun _ _ => .netcnt (k.c.rd p.2 a).toNat d) (p :: ps)]
      simp only [List.map_map, Function.comp_def, List.map_id_fun, id_eq]

theorem execRegroup_eq (q : BitVec 3) (a b : Reg) (n : BitVec 7) (s : State) : execRegroup q a b n s = issue (.regroup q a b n)
    (fun k s => (s.modCur k fun c => { c with regroup := some ⟨k.pc, (k.c.lanes.head?.elim 0 fun l => k.c.rd l a), q,
      (match b with
        | .v x => x.toNat
        | _ => 0), n.toNat + 1, s.cyc, s.cyc⟩ }).passImplicit k ⟨false, 0⟩ 1) s := by
  unfold execRegroup
  refine congrArg (fun eff => issue (.regroup q a b n) eff s) (funext fun k => funext fun s => ?_)
  refine congrArg (fun f => (s.modCur k f).passImplicit k always 1) (funext fun c => ?_)
  cases k.c.lanes <;> rfl

theorem exec_regroup (q : BitVec 3) (a b : Reg) (n : BitVec 7) (s : State) : exec (.regroup q a b n) s = execRegroup q a b n s := rfl

/-- Settles O19: the effects of TAKE and REGROUP as they issue, and NETCNT's queuing. -/
theorem networksAndRegrouping : Obligations.NetworksAndRegrouping := by
  unfold Obligations.NetworksAndRegrouping
  exact ⟨fun g w32 d a q => completes_of (exec_take g w32 d a q), fun g d a s k => netcnt_queue,
    fun q a b n => completes_of fun s => (exec_regroup q a b n s).trans (execRegroup_eq q a b n s)⟩

end Sys2Proof.Proofs
end

