-- ==== Sys2Proof/Proofs/Intersections.lean ====
section
/-! ISECT and QNT (13_program_filter R227; 15_crew_instructions R245, R247, R248): what they leave of the lanes and of the crew's scalar
registers. -/

namespace Sys2Proof.Proofs

open Sys2Proof.Machine Sys2Proof.Laws

/-- Changing lanes one after another changes nothing else of a crew. -/
theorem foldl_modLane {α : Type} (slot : α → Nat) (f : α → Lane → Lane) : ∀ (xs : List α) (c : Crew),
    xs.foldl (fun c x => c.modLane (slot x) (f x)) c = { c with lanes := xs.foldl (fun ls x => ls.modify (slot x) (f x)) c.lanes }
  | [], _ => rfl
  | x :: xs, c => foldl_modLane slot f xs (c.modLane (slot x) (f x))

theorem wrS_wrS_lanes (c : Crew) (ls : List Lane) (r r' : Reg) (x x' : Word) :
    ((({ c with lanes := ls } : Crew).wrS r x).wrS r' x') = { c with lanes := ls, s := ((c.wrS r x).wrS r' x').s } := by
  cases r <;> cases r' <;> rfl

theorem wrS_wrS_scalars {c c' : Crew} (h : c.s = c'.s) (r r' : Reg) (x x' : Word) :
    ((c.wrS r x).wrS r' x').s = ((c'.wrS r x).wrS r' x').s := by
  cases r <;> cases r' <;> simp only [Crew.wrS, h]

/-- Among pairs with distinct keys a key finds its own. -/
theorem find_of_nodup {β : Type} {j : Nat} {x : β} : ∀ {ps : List (Nat × β)}, (ps.map (·.1)).Nodup → (j, x) ∈ ps →
    ps.find? (·.1 == j) = some (j, x)
  | p :: ps, hnodup, hmem => by
    obtain ⟨hp, hrest⟩ := List.nodup_cons.mp hnodup
    obtain rfl | hin := List.mem_cons.mp hmem
    · rw [List.find?_cons_of_pos (by simp)]
    · have hne : p.1 ≠ j := fun h => hp (List.mem_map.mpr ⟨(j, x), hin, h.symm⟩)
      rw [List.find?_cons_of_neg (by simpa using hne)]
      exact find_of_nodup hrest hin

theorem find_none_of_not_mem {β : Type} {j : Nat} {ps : List (Nat × β)} (h : ∀ p ∈ ps, p.1 ≠ j) : ps.find? (·.1 == j) = none :=
  List.find?_eq_none.mpr fun p hp => by simpa using h p hp

/-! ### The lanes of a crew that take part, each with its place among them -/

/-- The participants of a crew, each lane slot with its place among them. -/
def placed (c : Crew) (g : Guard) : List (Nat × Nat) := (c.takers g).zipIdx.map fun x => (x.1.1, x.2)

theorem placed_fst (c : Crew) (g : Guard) : (placed c g).map (·.1) = (c.takers g).map (·.1) := by
  refine List.ext_getElem? fun n => ?_
  simp only [placed, List.getElem?_map, List.getElem?_zipIdx, Option.map_map]
  cases (c.takers g)[n]? <;> rfl

theorem placed_nodup (c : Crew) (g : Guard) : ((placed c g).map (·.1)).Nodup := placed_fst c g ▸ takers_nodup c g

theorem mem_placed {c : Crew} {g : Guard} {n j : Nat} {l : Lane} (h : (c.takers g)[n]? = some (j, l)) : (j, n) ∈ placed c g :=
  List.mem_map.mpr ⟨((j, l), n), List.mem_iff_getElem?.mpr ⟨n, by simp [h]⟩, rfl⟩

/-- The lanes after each participant is changed by its place. -/
def placedLanes (c : Crew) (g : Guard) (f : Nat → Lane → Lane) : List Lane :=
  (placed c g).foldl (fun ls p => ls.modify p.1 (f p.2)) c.lanes

section Placed
variable {c : Crew} {g : Guard} {f : Nat → Lane → Lane}

theorem placedLanes_length : (placedLanes c g f).length = c.lanes.length := by
  have hlen : ∀ (ps : List (Nat × Nat)) (ls : List Lane), (ps.foldl (fun ls p => ls.modify p.1 (f p.2)) ls).length = ls.length := by
    intro ps
    induction ps with
    | nil => exact fun _ => rfl
    | cons p ps ih => exact fun ls => (ih _).trans (List.length_modify ..)
  exact hlen _ _

theorem placedLanes_get (j : Nat) : (placedLanes c g f)[j]? = c.lanes[j]?.map fun l => match (placed c g).find? (·.1 == j) with
    | some p => f p.2 l
    | none => l := by
  refine (foldl_modify (fun p => f p.2) (placed c g) c.lanes (placed_nodup c g) j).trans
    (congrArg (fun h => c.lanes[j]?.map h) (funext fun l => ?_))
  cases (placed c g).find? (·.1 == j) <;> rfl

theorem placedLanes_of_taker {n j : Nat} {l : Lane} (h : (c.takers g)[n]? = some (j, l)) : (placedLanes c g f)[j]? = some (f n l) := by
  have hl := (mem_takers.mp (List.mem_of_getElem? h)).1
  rw [placedLanes_get, hl, find_of_nodup (placed_nodup c g) (mem_placed h)]
  rfl

theorem placedLanes_of_other {j : Nat} {l : Lane} (hl : c.lanes[j]? = some l) (h : l.takes g = false) : (placedLanes c g f)[j]? = some l := by
  rw [placedLanes_get, hl, find_none_of_not_mem fun p hp hj => ?_]
  · rfl
  · have hfst : j ∈ (c.takers g).map (·.1) := by
      rw [← placed_fst]
      exact hj ▸ List.mem_map.mpr ⟨p, hp, rfl⟩
    obtain ⟨⟨j', m⟩, hm, rfl⟩ := List.mem_map.mp hfst
    obtain ⟨hm', htakes⟩ := mem_takers.mp hm
    obtain rfl : m = l := Option.some.inj (hm'.symm.trans hl)
    exact Bool.false_ne_true (h.symm.trans htakes)

end Placed

/-! ### ISECT (R227, R245) -/

/-- What ISECT finds in its participants. -/
abbrev isectFound (c : Crew) (g : Guard) (t : Ty) (a b : Reg) : List Int × List Int × Nat × Nat × Bool :=
  isectOf ((c.takers g).map fun p => c.iv p.2 t a) ((c.takers g).map fun p => c.iv p.2 t b)

/-- What ISECT leaves of its participant at a place. -/
def isectLane (r : List Int × List Int × Nat × Nat × Bool) (q : BitVec 3) (d : Reg) (n : Nat) (l : Lane) : Lane :=
  ((l.wr d (BitVec.ofInt 32 (r.1[n]?.getD (-1)))).wr (d.plus 1) (BitVec.ofInt 32 (r.2.1[n]?.getD (-1)))).setPred q r.2.2.2.2

/-- What ISECT leaves of its crew. -/
def isectCrew (g : Guard) (t : Ty) (q : BitVec 3) (d a b sc : Reg) (c : Crew) : Crew :=
  let r := isectFound c g t a b
  { c with
    lanes := placedLanes c g (isectLane r q d)
    s := ((c.wrS sc (BitVec.ofNat 32 r.2.2.1)).wrS (sc.plus 1) (BitVec.ofNat 32 r.2.2.2.1)).s }

theorem exec_isect (g : Guard) (t : Ty) (q : BitVec 3) (d a b sc : Reg) (s : State) : exec (.isect g t q d a b sc) s =
    execIsect g t q d a b sc s := rfl

theorem execIsect_eq (g : Guard) (t : Ty) (q : BitVec 3) (d a b sc : Reg) (s : State) : execIsect g t q d a b sc s =
    issue (.isect g t q d a b sc) (once g fun k s => s.modCur k (isectCrew g t q d a b sc)) s := by
  unfold execIsect
  refine congrArg (fun f => issue (.isect g t q d a b sc) (once g fun k s => s.modCur k f) s) (funext fun c => ?_)
  have hzip : ∀ (r : List Int × List Int × Nat × Nat × Bool), (c.takers g).zipIdx.foldl (fun c x => c.modLane x.1.1 (isectLane r q d x.2)) c =
      { c with lanes := placedLanes c g (isectLane r q d) } := fun r => by
    rw [foldl_modLane (fun x : (Nat × Lane) × Nat => x.1.1) (fun x => isectLane r q d x.2), placedLanes, placed, List.foldl_map]
  exact (congrArg (fun x : Crew => (x.wrS sc _).wrS (sc.plus 1) _) (hzip (isectFound c g t a b))).trans (wrS_wrS_lanes ..)

theorem isect_step {g : Guard} {t : Ty} {q : BitVec 3} {d a b sc : Reg} {s : State} {k : Ctx} (h : Issues s k (.isect g t q d a b sc)) :
    ∃ u lanes, exec (.isect g t q d a b sc) s = .next u ∧
      let r := isectOf ((k.c.takers g).map fun p => k.c.iv p.2 t a) ((k.c.takers g).map fun p => k.c.iv p.2 t b)
      CrewStep s u k (Instr.isect g t q d a b sc) lanes (if (k.c.takers g).isEmpty then k.c.s else
        ((k.c.wrS sc (BitVec.ofNat 32 r.2.2.1)).wrS (sc.plus 1) (BitVec.ofNat 32 r.2.2.2.1)).s)
      ∧ lanes.length = k.c.lanes.length
      ∧ (∀ (j : Nat) (l : Lane), k.c.lanes[j]? = some l → l.takes g = false → lanes[j]? = some l)
      ∧ ∀ (n j : Nat) (l : Lane), (k.c.takers g)[n]? = some (j, l) → lanes[j]? = some
          (((l.wr d (BitVec.ofInt 32 (r.1[n]?.getD (-1)))).wr (d.plus 1) (BitVec.ofInt 32 (r.2.1[n]?.getD (-1)))).setPred q
            r.2.2.2.2) := by
  rw [exec_isect, execIsect_eq]
  cases hempty : (k.c.takers g).isEmpty with
  | true =>
    obtain ⟨u, hu, hstep⟩ := issue_crew (f := id) (eff := once g fun k s => s.modCur k (isectCrew g t q d a b sc)) h
      (by rw [once, hempty]; exact (modCrew_id _ _ _ fun _ => rfl).symm) (issuing_eq h.now).2.2.1
    refine ⟨u, k.c.lanes, hu, hstep, rfl, fun j l hl _ => hl, fun n j l hn => ?_⟩
    rw [List.isEmpty_iff.mp hempty] at hn
    cases hn
  | false =>
    obtain ⟨u, hu, hstep⟩ := issue_crew (f := isectCrew g t q d a b sc) (eff := once g fun k s => s.modCur k (isectCrew g t q d a b sc)) h
      (by rw [once, hempty]; rfl) (issuing_eq h.now).2.2.1
    have hcrew : isectCrew g t q d a b sc (k.begun s (.isect g t q d a b sc)) = { k.begun s (.isect g t q d a b sc) with
        lanes := placedLanes k.c g (isectLane (isectFound k.c g t a b) q d)
        s := ((k.c.wrS sc (BitVec.ofNat 32 (isectFound k.c g t a b).2.2.1)).wrS (sc.plus 1)
          (BitVec.ofNat 32 (isectFound k.c g t a b).2.2.2.1)).s } :=
      congrArg (fun x => ({ k.begun s (.isect g t q d a b sc) with
        lanes := placedLanes k.c g (isectLane (isectFound k.c g t a b) q d), s := x } : Crew)) (wrS_wrS_scalars (c := k.begun s (.isect g t q d a b sc)) (c' := k.c) rfl sc (sc.plus 1) _ _)
    rw [hcrew] at hstep
    refine ⟨u, placedLanes k.c g (isectLane (isectFound k.c g t a b) q d), hu, hstep, placedLanes_length, fun j l hl h => placedLanes_of_other hl h,
      fun n j l hn => placedLanes_of_taker hn⟩

/-- Settles O18: ISECT changes its participants by their places, and QNT is its blocks' effect as it issues. -/
theorem intersectAndQuantise : Obligations.IntersectAndQuantise := by
  unfold Obligations.IntersectAndQuantise
  exact ⟨fun g t q d a b sc s k => isect_step, fun g t rm fine outl ftz d a sc => completes_of fun _ => rfl⟩

end Sys2Proof.Proofs
end

