-- ==== Sys2Proof/Proofs/AccessIssue.lean ====
section
/-! The global, private and peer accesses at issue (11_ordering R168; 12_memory_instructions R186 to R203): their checks, and what each
lane queues, or how it traps or parks. -/

namespace Sys2Proof.Proofs

open Sys2Proof.Machine Sys2Proof.Laws

/-! ### The checks of a global access (R190) -/

/-- A piece that some state's translation gives an access of a kind. -/
def Translated (k : Ctx) (asid : Nat) (kind : AccKind) (p : Piece) : Prop :=
  ∃ (s : State) (x : Xlat), (s.translate k.b.core (some k.c.quad) asid p.va p.size kind).2 = .ok x ∧ p = pieceOf p.va p.size x

/-- Checks that pass have translated each single-copy access, lowest first. -/
theorem checkUnits_pass {k : Ctx} {asid : Nat} {kind : AccKind} {size : Nat} : ∀ (us : List (Nat × Nat)) {s t : State} {done ps : List Piece},
    State.checkUnits k asid kind size us s done = (t, .pass ps) → (∀ p ∈ done, Translated k asid kind p) →
    ps.map (fun p => (p.va, p.size)) = done.reverse.map (fun p => (p.va, p.size)) ++ us.map (fun x => (x.1, size))
      ∧ ∀ p ∈ ps, Translated k asid kind p
  | [], s, t, done, ps, h, hdone => by
    obtain ⟨rfl, hps⟩ := Prod.mk.inj h
    obtain rfl := Check.pass.inj hps
    exact ⟨by simp only [List.map_nil, List.append_nil], fun p hp => hdone p (List.mem_reverse.mp hp)⟩
  | (va, o) :: us, s, t, done, ps, h, hdone => by
    unfold State.checkUnits at h
    split at h
    · next s' x hx =>
      obtain ⟨hmap, hall⟩ := checkUnits_pass us h fun p hp => by
        obtain rfl | hp := List.mem_cons.mp hp
        · exact ⟨s, x, congrArg Prod.snd hx, rfl⟩
        · exact hdone p hp
      refine ⟨hmap.trans ?_, hall⟩
      simp only [List.reverse_cons, List.map_append, List.map_cons, List.map_nil, List.append_assoc, List.singleton_append, pieceOf]
    · cases (Prod.mk.inj h).2
    · cases (Prod.mk.inj h).2

theorem checkGlobal_of_beyond (s : State) (k : Ctx) {va n : Nat} (kind : AccKind) (h : 2 ^ 56 ≤ va + n - 1) :
    s.checkGlobal k va n kind = (s, .trap .rangeMiss va) := by
  rw [State.checkGlobal, if_pos h]

theorem checkGlobal_pass {s t : State} {k : Ctx} {va n : Nat} {kind : AccKind} {ps : List Piece}
    (h : s.checkGlobal k va n kind = (t, .pass ps)) :
    ps.map (fun p => (p.va, p.size)) = (unitsOf va n).map (fun x => (x.1, unitOf va n)) ∧ ∀ p ∈ ps, Translated k k.b.asid kind p := by
  rw [State.checkGlobal] at h
  split at h
  · cases (Prod.mk.inj h).2
  · exact checkUnits_pass _ h fun p hp => absurd hp List.not_mem_nil

/-! ### One lane's access (R190 to R196) -/

section Lane
variable {s t : State} {k : Ctx} {i va : Nat} {z : Acc} {l : Lane}

theorem loadLane_plain (home : Bool) (h : Hint) (d : Reg) (hplain : s.decodes k va z = none) :
    (∀ t ps, s.checkGlobal k va z.size .read = (t, .pass ps) → s.loadLane k i va z home h d = t.push k i (.load z home h ps d))
    ∧ (∀ t c f, s.checkGlobal k va z.size .read = (t, .trap c f) → s.loadLane k i va z home h d = t.trapAgain k i c (BitVec.ofNat 64 f))
    ∧ ∀ t w a, s.checkGlobal k va z.size .read = (t, .park w a) →
        s.loadLane k i va z home h d = (t.askResidency k.b k.ci i a k.pc w).parkAgain k i w := by
  refine ⟨fun t ps hcheck => ?_, fun t c f hcheck => ?_, fun t w a hcheck => ?_⟩ <;>
    simp only [State.loadLane, hplain, hcheck, State.failCheck]

theorem loadLane_decoded (home : Bool) (h : Hint) (d : Reg) {d1 : BitVec 256} (hdec : s.decodes k va z = some d1) :
    (∀ t x, s.translate k.b.core (some k.c.quad) k.b.asid va 1 .read = (t, .ok x) →
      (let elem := (va - d1Base d1 * 4096) / z.size
       let o := codeOffset (d1Fmt d1) elem
       let code := d1Base x.d1 * 4096 + o.1
       let plane := t.planePiece (dirVf (t.dirEntry k.b.asid))
       s.loadLane k i va z home h d = match plane code (d1Ia x.d1 code) 1 x.d1, plane noVa (d1Spb x.d1 * 4096 + elem / 64 * 4) 4 x.d1 with
         | some c, some w => t.push k i (.decode z home h va (d1Fmt d1) c w o.2 d)
         | _, _ => t.trapAgain k i .stage2 (BitVec.ofNat 64 va)))
    ∧ (∀ t c, s.translate k.b.core (some k.c.quad) k.b.asid va 1 .read = (t, .fault c) →
        s.loadLane k i va z home h d = t.trapAgain k i c (BitVec.ofNat 64 va))
    ∧ ∀ t w, s.translate k.b.core (some k.c.quad) k.b.asid va 1 .read = (t, .park w) →
        s.loadLane k i va z home h d = (t.askResidency k.b k.ci i va k.pc w).parkAgain k i w := by
  refine ⟨fun t x htr => ?_, fun t c htr => ?_, fun t w htr => ?_⟩ <;> simp only [State.loadLane, hdec, htr] <;> rfl

theorem storeLane_cases (s : State) (k : Ctx) (i : Nat) (l : Lane) (va : Nat) (z : Acc) (h : Hint) (d : Reg) :
    (∀ t ps, s.checkGlobal k va z.size .write = (t, .pass ps) → s.storeLane k i l va z h d = t.push k i (.store h (ps.map fun p =>
      (p, BitVec.ofNat 64 ((k.c.dataOf l d z.regs).toNat % 256 ^ z.size / 256 ^ (p.va - va) % 256 ^ p.size)))))
    ∧ (∀ t c f, s.checkGlobal k va z.size .write = (t, .trap c f) → s.storeLane k i l va z h d = t.trapAgain k i c (BitVec.ofNat 64 f))
    ∧ ∀ t w a, s.checkGlobal k va z.size .write = (t, .park w a) →
        s.storeLane k i l va z h d = (t.askResidency k.b k.ci i a k.pc w).parkAgain k i w := by
  refine ⟨fun t ps hcheck => ?_, fun t c f hcheck => ?_, fun t w a hcheck => ?_⟩ <;>
    simp only [State.storeLane, hcheck, State.failCheck, piecesOf]

theorem atomLane_global (kind : AccKind) (m : Mem) (f : Place → OpKind) (halign : k.c.addrG l m z.size % z.size = 0) :
    (∀ t p ps, s.checkGlobal k (k.c.addrG l m z.size) z.size kind = (t, .pass (p :: ps)) →
      s.atomLane k i l z .global kind m f = t.push k i (f (.global p)))
    ∧ (∀ t c x, s.checkGlobal k (k.c.addrG l m z.size) z.size kind = (t, .trap c x) →
        s.atomLane k i l z .global kind m f = t.trapAgain k i c (BitVec.ofNat 64 x))
    ∧ ∀ t w a, s.checkGlobal k (k.c.addrG l m z.size) z.size kind = (t, .park w a) →
        s.atomLane k i l z .global kind m f = (t.askResidency k.b k.ci i a k.pc w).parkAgain k i w := by
  refine ⟨fun t p ps hcheck => ?_, fun t c x hcheck => ?_, fun t w a hcheck => ?_⟩ <;>
    simp only [State.atomLane, halign, ne_eq, not_true_eq_false, if_false, hcheck, State.failCheck]

theorem atomLane_global_misaligned (kind : AccKind) (m : Mem) (f : Place → OpKind) (h : k.c.addrG l m z.size % z.size ≠ 0) :
    s.atomLane k i l z .global kind m f = s.trapAgain k i .misaligned (BitVec.ofNat 64 (k.c.addrG l m z.size)) := by
  simp only [State.atomLane, ne_eq, h, not_false_eq_true, if_true]

/-- An atomic that is not of global memory. -/
theorem atomLane_local {spc : ASpace} (kind : AccKind) (m : Mem) (f : Place → OpKind) (hspc : spc ≠ .global) :
    s.atomLane k i l z spc kind m f =
      if k.c.addrS l m z.size % z.size ≠ 0 then s.trapAgain k i .misaligned (BitVec.ofNat 64 (k.c.addrS l m z.size))
      else match (if spc == .sp then k.checkSp (k.c.addrS l m z.size) z.size else s.checkPeer k (k.c.addrS l m z.size) z.size) with
        | .ok (core, o) => s.push k i (f (.scratch core o))
        | .error c => s.trapAgain k i c (BitVec.ofNat 64 (k.c.addrS l m z.size)) := by
  cases spc with
  | global => exact absurd rfl hspc
  | sp | peer => rfl

theorem arrivalLane_misaligned (m : Mem) (f : Nat → OpKind) (h : k.c.addrS l m 8 % 8 ≠ 0) :
    s.arrivalLane k i l m f = s.trapAgain k i .misaligned (BitVec.ofNat 64 (k.c.addrS l m 8)) := by
  simp only [State.arrivalLane, ne_eq, h, not_false_eq_true, if_true]

end Lane

theorem checkSp_beyond {k : Ctx} {a w : Nat} (h : k.b.scratchSize < a + w) : k.checkSp a w = .error .scratchBound := by
  rw [Ctx.checkSp, if_pos h]

theorem checkPeer_absent {s : State} {k : Ctx} {a : Nat} (w : Nat) (ha : a < 2 ^ 21)
    (h : s.scratchOn k.b (k.b.core / 4 * 4 + a / 2 ^ 19) = none) : s.checkPeer k a w = .error .peerAbsent := by
  have hwindow : a / 2 ^ 21 = 0 := Nat.div_eq_of_lt ha
  have hpos : a / 2 ^ 19 % 4 = a / 2 ^ 19 := Nat.mod_eq_of_lt (by omega)
  simp only [State.checkPeer, hwindow, ne_eq, not_true_eq_false, if_false, hpos, h]

theorem checkPeer_beyond (s : State) (k : Ctx) {a : Nat} (w : Nat) (ha : 2 ^ 21 ≤ a) : s.checkPeer k a w = .error .scratchBound := by
  have hwindow : a / 2 ^ 21 ≠ 0 := by
    have := Nat.div_le_div_right (c := 2 ^ 21) ha
    omega
  simp only [State.checkPeer, ne_eq, hwindow, not_false_eq_true, if_true]

/-! ### Queuing and parking -/

theorem push_crew {s : State} {k : Ctx} {b : Block} {c : Crew} (i : Nat) (w : OpKind) (hc : s.crew? k.b.uid k.ci = some (b, c)) :
    ∃ b', (s.push k i w).crew? k.b.uid k.ci = some (b', { c with queue := c.queue ++ [⟨c.ins, i, k.pc, k.lab, w⟩] }) :=
  ⟨_, modCrew_at (f := fun c => { c with queue := c.queue ++ [⟨c.ins, i, k.pc, k.lab, w⟩] }) hc⟩

theorem parkAgain_lane {s : State} {k : Ctx} {i : Nat} {l : Lane} (w : Park) (hl : s.laneAt k.b.uid k.ci i = some l) :
    (s.parkAgain k i w).laneAt k.b.uid k.ci i = some { l with parked := true, act := false, ro := k.again, park := some w } := by
  rw [State.parkAgain, laneAt_modLane, if_pos ⟨rfl, rfl, rfl⟩, hl]
  rfl

/-! ### The instructions as they issue -/

theorem exec_ldl (g : Guard) (z : Acc) (h : Hint) (d : Reg) (m : Mem) (s : State) : exec (.ldl g z h d m) s = execLdl g z h d m s := rfl
theorem exec_stl (g : Guard) (z : Acc) (h : Hint) (d : Reg) (m : Mem) (s : State) : exec (.stl g z h d m) s = execStl g z h d m s := rfl

theorem execLdl_eq (g : Guard) (z : Acc) (h : Hint) (d : Reg) (m : Mem) (s : State) : execLdl g z h d m s =
    issue (.ldl g z h d m) (fun k s => s.forLanes (k.c.doers g d) fun s i l =>
      if 4096 < k.c.addrS l m z.size + z.size
      then s.trapAgain k i .rangeMiss (BitVec.ofNat 64 (k.b.privVa l (k.c.addrS l m z.size)))
      else s.loadLane k i (k.b.privVa l (k.c.addrS l m z.size)) z false h d) s := by
  simp only [execLdl, issueLanes, Block.checkPriv, decide_eq_true_eq]

theorem execStl_eq (g : Guard) (z : Acc) (h : Hint) (d : Reg) (m : Mem) (s : State) : execStl g z h d m s =
    issue (.stl g z h d m) (fun k s => s.forLanes (k.c.takers g) fun s i l =>
      if 4096 < k.c.addrS l m z.size + z.size
      then s.trapAgain k i .rangeMiss (BitVec.ofNat 64 (k.b.privVa l (k.c.addrS l m z.size)))
      else s.storeLane k i l (k.b.privVa l (k.c.addrS l m z.size)) z h d) s := by
  simp only [execStl, issueLanes, Block.checkPriv, decide_eq_true_eq]

/-- Settles O21: the effects as they issue, then one lane's access, and the checks. -/
theorem memoryInstructionsIssue : Obligations.MemoryInstructionsIssue := by
  unfold Obligations.MemoryInstructionsIssue
  refine ⟨⟨?_, ?_, ?_, ?_, ?_, ?_, ?_, ?_, ?_, ?_, ?_, ?_, ?_, ?_, ?_, ?_, ?_, ?_, ?_⟩, ?_, ?_, ?_, ?_, ?_, ?_⟩
  · exact fun g z h home d m => completes_of fun _ => rfl
  · exact fun g z h d m => completes_of fun _ => rfl
  · exact fun g z h d m => completes_of fun s => (exec_ldl g z h d m s).trans (execLdl_eq g z h d m s)
  · exact fun g z h d m => completes_of fun s => (exec_stl g z h d m s).trans (execStl_eq g z h d m s)
  · exact fun g z d m => completes_of fun _ => rfl
  · exact fun g z d m => completes_of fun _ => rfl
  · exact fun g op z spc d m => completes_of fun _ => rfl
  · exact fun g z spc d m => completes_of fun _ => rfl
  · exact fun g op z spc d m => completes_of fun _ => rfl
  · exact fun g cond z d m => completes_of fun _ => rfl
  · exact fun g l2 h m => completes_of fun _ => rfl
  · exact fun s k i va z home h d => loadLane_plain home h d
  · exact fun s k i va z home h d d1 => loadLane_decoded home h d
  · exact fun s k i l va z h d => storeLane_cases s k i l va z h d
  · exact fun s k i l z kind m f => atomLane_global kind m f
  · exact fun s k i l z spc kind m f hspc halign => (atomLane_local kind m f hspc).trans (if_neg (not_not.mpr halign))
  · exact fun s k va n kind => ⟨checkGlobal_of_beyond s k kind, fun t ps h => checkGlobal_pass h⟩
  · exact fun s k i w b c => push_crew i w
  · exact fun s k i w l => parkAgain_lane w
  · exact fun s k j l z kind m f => atomLane_global_misaligned kind m f
  · exact fun s k j l z spc kind m f hspc h => (atomLane_local kind m f hspc).trans (if_pos h)
  · exact fun s k j l m f => arrivalLane_misaligned m f
  · exact fun k a w => checkSp_beyond
  · exact fun s k a w => checkPeer_absent w
  · exact fun s k a w => checkPeer_beyond s k w

end Sys2Proof.Proofs
end

