-- ==== Sys2Proof/Proofs/SystemPerform.lean ====
section
/-! The system instructions as they perform: range tables, counters, networks, launch lists and clearance maps (20_ranges R321 to R323,
R327; 23_system_instructions R371 to R388). -/

namespace Sys2Proof.Proofs

open Sys2Proof.Machine Sys2Proof.Laws

/-- A state whose late results are none reads everything as the newest (R371). -/
theorem withoutLags {s : State} (h : s.lags = []) : ({ s with lags := [] } : State) = s := by
  cases s; cases h; rfl

/-! ### Range instructions (R374 to R378) -/

section Ranges
variable {s : State} (hlags : s.lags = []) (k : Ctx) (o : Op) (g : Guard)
include hlags

theorem performSystem_rsplit (one : Bool) (d a b e : Reg) (xs : List DWord) :
    s.performSystem k o (.rsplit g one d a b e) xs = s.performRsplit k o g one d xs :=
  congrArg (fun t : State => t.performRsplit k o g one d xs) (withoutLags hlags)

theorem performSystem_rmerge (d a b : Reg) (xs : List DWord) :
    s.performSystem k o (.rmerge g d a b) xs = s.performRmerge k o d xs :=
  congrArg (fun t : State => t.performRmerge k o d xs) (withoutLags hlags)

theorem performSystem_rinval (all : Bool) (a b e : Reg) (xs : List DWord) :
    s.performSystem k o (.rinval g all a b e) xs = s.performRinval k g all xs :=
  congrArg (fun t : State => t.performRinval k g all xs) (withoutLags hlags)

theorem performSystem_rprobe (d a b : Reg) (q : BitVec 3) (xs : List DWord) :
    s.performSystem k o (.rprobe g d a b q) xs = s.performRprobe k o g d q xs :=
  congrArg (fun t : State => t.performRprobe k o g d q xs) (withoutLags hlags)

theorem performSystem_rprobeS2 (d a b : Reg) (q : BitVec 3) (xs : List DWord) :
    s.performSystem k o (.rprobeS2 g d a b q) xs = s.performRprobeS2 k o g d q xs :=
  congrArg (fun t : State => t.performRprobeS2 k o g d q xs) (withoutLags hlags)

theorem performSystem_rcompact (d a b e : Reg) (xs : List DWord) :
    s.performSystem k o (.rcompact g d a b e) xs = s.performRcompact k o d xs :=
  congrArg (fun t : State => t.performRcompact k o d xs) (withoutLags hlags)

end Ranges

/-! #### RSPLIT (R374) -/

section Rsplit
variable {s t : State} {k : Ctx} {o : Op} {g : Guard} {one : Bool} {d : Reg} {xs : List DWord} {i : Nat} {x : BitVec 256}
variable {bs : List Byte}

/-- The descriptors that RSPLIT has read. -/
def splitRead (one : Bool) (bs : List Byte) : List (BitVec 256) :=
  (List.range (if one then 1 else 2)).map fun j => BitVec.ofNat 256 (leNat ((bs.drop (32 * j)).take 32))

theorem rsplit_outOfReach (h : s.reachesSpace k.b (xs.headD 0).toNat = false) : s.performRsplit k o g one d xs = s.sysDone k o d [2] := by
  simp only [State.performRsplit, h]; rfl

variable (hreach : s.reachesSpace k.b (xs.headD 0).toNat = true)
include hreach

theorem rsplit_notFound {st : Word} (h : s.holding (xs.headD 0).toNat (xs.tail.headD 0).toNat = .error st) :
    s.performRsplit k o g one d xs = s.sysDone k o d [st] := by
  simp only [State.performRsplit, hreach, h]; rfl

variable (hfound : s.holding (xs.headD 0).toNat (xs.tail.headD 0).toNat = .ok (i, x))
include hfound

theorem rsplit_badOld (h : (d1Bad x || d1Mode x == 2) = true) : s.performRsplit k o g one d xs = s.sysDone k o d [3] := by
  simp only [State.performRsplit, hreach, hfound, h]; rfl

variable (hold : (d1Bad x || d1Mode x == 2) = false)
include hold

theorem rsplit_unread (h : s.sysFetch k o g ((xs.drop 2).headD 0).toNat (if one then 32 else 64) = (t, none)) :
    s.performRsplit k o g one d xs = (t, true) := by
  simp only [State.performRsplit, hreach, hfound, hold, h]; rfl

variable (hread : s.sysFetch k o g ((xs.drop 2).headD 0).toNat (if one then 32 else 64) = (t, some bs))
include hread

theorem rsplit_badNew (h : splitOk x (splitRead one bs) = false) : s.performRsplit k o g one d xs = t.sysDone k o d [3] := by
  rw [splitRead] at h
  simp only [State.performRsplit, hreach, hfound, hold, hread, h]; rfl

variable (hnew : splitOk x (splitRead one bs) = true)
include hnew

theorem rsplit_full (h : 4095 ≤ dirN (t.dirEntry (xs.headD 0).toNat)) (hone : one = false) :
    s.performRsplit k o g one d xs = t.sysDone k o d [4] := by
  rw [splitRead] at hnew
  subst hone
  simp only [State.performRsplit, hreach, hfound, hold, hread, hnew, h]; rfl

theorem rsplit_splits (hfits : one = true ∨ dirN (t.dirEntry (xs.headD 0).toNat) < 4095) {rest : List (BitVec 256)} {ps : List (Nat × Nat)}
    (hrest : t.tableFrom (xs.headD 0).toNat (t.dirEntry (xs.headD 0).toNat) (i + 1) (dirN (t.dirEntry (xs.headD 0).toNat) - (i + 1))
      = some rest)
    (hps : t.tablePlaces (t.dirEntry (xs.headD 0).toNat) i (if one then splitRead one bs else splitRead one bs ++ rest).length = some ps) :
    s.performRsplit k o g one d xs =
      (let u := t.putTable ps (if one then splitRead one bs else splitRead one bs ++ rest)
       ((if one then u else u.setTableSize (xs.headD 0).toNat (dirN (t.dirEntry (xs.headD 0).toNat) + 1)).edited (xs.headD 0).toNat
         t.now).sysDone k o d [0]) := by
  have hroom : (!one && decide (4095 ≤ dirN (t.dirEntry (xs.headD 0).toNat))) = false := by
    rcases hfits with rfl | hlt
    · rfl
    · simp only [decide_eq_false (Nat.not_le.mpr hlt), Bool.and_false]
  rw [splitRead] at hnew hps
  simp only [State.performRsplit, hreach, hfound, hold, hread, hnew, hroom, hrest, hps]; rfl

end Rsplit

/-! #### RMERGE (R375) -/

section Rmerge
variable {s : State} {k : Ctx} {o : Op} {d : Reg} {xs : List DWord} {i : Nat} {x y : BitVec 256} {rest : List (BitVec 256)}

theorem rmerge_outOfReach (h : s.reachesSpace k.b (xs.headD 0).toNat = false) : s.performRmerge k o d xs = s.sysDone k o d [2] := by
  simp only [State.performRmerge, h]; rfl

variable (hreach : s.reachesSpace k.b (xs.headD 0).toNat = true)
include hreach

theorem rmerge_notFound {st : Word} (h : s.holding (xs.headD 0).toNat (xs.tail.headD 0).toNat = .error st) :
    s.performRmerge k o d xs = s.sysDone k o d [st] := by
  simp only [State.performRmerge, hreach, h]; rfl

variable (hfound : s.holding (xs.headD 0).toNat (xs.tail.headD 0).toNat = .ok (i, x))
include hfound

theorem rmerge_last (h : dirN (s.dirEntry (xs.headD 0).toNat) ≤ i + 1) : s.performRmerge k o d xs = s.sysDone k o d [2] := by
  simp only [State.performRmerge, hreach, hfound, h, if_true]; rfl

variable (hnext : i + 1 < dirN (s.dirEntry (xs.headD 0).toNat))
variable (hrest : s.tableFrom (xs.headD 0).toNat (s.dirEntry (xs.headD 0).toNat) (i + 1) (dirN (s.dirEntry (xs.headD 0).toNat) - (i + 1))
  = some (y :: rest))
include hnext hrest

theorem rmerge_refused (h : (d1Bad x || d1Bad y || !mergeOk x y) = true) : s.performRmerge k o d xs = s.sysDone k o d [3] := by
  simp only [State.performRmerge, hreach, hfound, Nat.not_le.mpr hnext, hrest, h, if_false, if_true]; rfl

theorem rmerge_merges (hok : (d1Bad x || d1Bad y || !mergeOk x y) = false) {ps : List (Nat × Nat)}
    (hps : s.tablePlaces (s.dirEntry (xs.headD 0).toNat) i (rest.length + 1) = some ps) :
    s.performRmerge k o d xs =
      (((s.putTable ps (setLimit x (d1Limit y) :: rest)).setTableSize (xs.headD 0).toNat (dirN (s.dirEntry (xs.headD 0).toNat) - 1)).edited
        (xs.headD 0).toNat s.now).sysDone k o d [0] := by
  simp only [State.performRmerge, hreach, hfound, Nat.not_le.mpr hnext, hrest, hok, if_false, List.length_cons, hps]; rfl

end Rmerge

/-! #### RINVAL (R321, R323, R376) -/

section Rinval
variable {s : State} {k : Ctx} {g : Guard} {all : Bool} {xs : List DWord}

theorem rinval_nothing (h : (all = false ∧ ((xs.drop 2).headD 0).toNat * 4096 = 0) ∨ s.reachesSpace k.b (xs.headD 0).toNat = false) :
    s.performRinval k g all xs = (s.passImplicit k g 1, true) := by
  have hskip : ((!all && decide (((xs.drop 2).headD 0).toNat * 4096 = 0)) || !s.reachesSpace k.b (xs.headD 0).toNat) = true := by
    rcases h with ⟨rfl, hn⟩ | hreach
    · simp only [hn, decide_true, Bool.not_false, Bool.and_self, Bool.true_or]
    · simp only [hreach, Bool.not_false, Bool.or_true]
  simp only [State.performRinval, hskip, if_true]

theorem rinval_acts (hrun : all = true ∨ ((xs.drop 2).headD 0).toNat * 4096 ≠ 0) (hreach : s.reachesSpace k.b (xs.headD 0).toNat = true) :
    ((!all && decide (((xs.drop 2).headD 0).toNat * 4096 = 0)) || !s.reachesSpace k.b (xs.headD 0).toNat) = false := by
  rcases hrun with rfl | hn
  · simp only [hreach, Bool.not_true, Bool.false_and, Bool.or_self]
  · simp only [hn, hreach, decide_false, Bool.and_false, Bool.not_true, Bool.or_self]

/-- What RINVAL leaves in the lookasides: no entry of its run on a core of the partition (R321, R323). -/
theorem looks_invalidate (s : State) (part asid : Nat) (all : Bool) (lo n : Nat) :
    (s.invalidate part asid all lo n).looks = s.looks.filter fun e => !((s.part part).cores.contains e.core && e.asid == asid
      && runsMeet all lo n (d1Base e.d1 * 4096) (d1Size e.d1 * 4096)) := by
  have hmet : ∀ (met : List Asked) (s : State),
      (met.foldl (fun (s : State) r => let g := s.granuleAt asid r.va; s.remap .fresh asid g.1 (g.1 + g.2 - 1)) s).looks = s.looks :=
    fun met s => foldl_keep (fun (s : State) (r : Asked) => let g := s.granuleAt asid r.va; s.remap .fresh asid g.1 (g.1 + g.2 - 1))
      State.looks (fun _ _ => rfl) met s
  cases all with
  | true => exact congrArg _ (hmet _ s)
  | false => exact congrArg _ (hmet _ s)

end Rinval

/-! #### RCOMPACT (R378) -/

section Rcompact
variable {s : State} {k : Ctx} {o : Op} {d : Reg} {asid va nia : DWord} {i vf : Nat} {x : BitVec 256}

theorem rcompact_outOfReach (h : s.reachesSpace k.b asid.toNat = false) :
    s.performRcompact k o d [asid, va, nia] = s.sysDone k o d [2] := by
  simp only [State.performRcompact, List.headD_cons, h]; rfl

variable (hreach : s.reachesSpace k.b asid.toNat = true)
include hreach

theorem rcompact_notFound {c : Cause} (h : s.walk asid.toNat (va.toNat % 2 ^ 56) = .error c) :
    s.performRcompact k o d [asid, va, nia] = s.sysDone k o d [if c = .stage2 then 5 else 2] := by
  simp only [State.performRcompact, List.headD_cons, List.tail_cons, hreach, h, beq_iff_eq]; rfl

variable (hfound : s.walk asid.toNat (va.toNat % 2 ^ 56) = .ok (i, x, vf))
include hfound

theorem rcompact_badBacking (h : s.backingOk vf x nia.toNat = false) :
    s.performRcompact k o d [asid, va, nia] = s.sysDone k o d [3] := by
  simp only [State.performRcompact, List.headD_cons, List.tail_cons, List.drop, hreach, hfound, h]; rfl

variable (hback : s.backingOk vf x nia.toNat = true)
include hback

theorem rcompact_toHost (h : (s.part k.b.part).hostMode 1 = true) :
    s.performRcompact k o d [asid, va, nia] = (s.interrupt k.b.part vf 3 (BitVec.ofNat 64 va.toNat)).sysDone k o d [1] := by
  simp only [State.performRcompact, List.headD_cons, List.tail_cons, List.drop, hreach, hfound, hback, h]; rfl

variable (hmode : (s.part k.b.part).hostMode 1 = false)
include hmode

theorem rcompact_full (h : 16 ≤ s.compacts.countP (fun c => c.die == k.b.part / 8 && !c.started)) :
    s.performRcompact k o d [asid, va, nia] = s.sysDone k o d [4] := by
  simp only [State.performRcompact, dieOfPart, List.headD_cons, List.tail_cons, List.drop, hreach, hfound, hback, hmode, h]; rfl

theorem rcompact_asks (h : s.compacts.countP (fun c => c.die == k.b.part / 8 && !c.started) < 16) :
    s.performRcompact k o d [asid, va, nia] =
      ({ s with compacts := s.compacts ++ [⟨k.b.part / 8, asid.toNat, vf, k.b.part, d1Base x, nia.toNat / 4096, false⟩] } :
        State).sysDone k o d [0] := by
  simp only [State.performRcompact, dieOfPart, List.headD_cons, List.tail_cons, List.drop, hreach, hfound, hback, hmode, Nat.not_le.mpr h]; rfl

end Rcompact

/-- Settles O32, each instruction by where it ends. -/
theorem rangeInstructionsPerform : Obligations.RangeInstructionsPerform := by
  unfold Obligations.RangeInstructionsPerform
  refine ⟨?_, ?_, ?_, ?_, ?_, ?_, ?_⟩
  · intro s hl k o g one d a b e xs
    simp only [performSystem_rsplit hl]
    refine ⟨rsplit_outOfReach, fun hreach => ⟨fun st => rsplit_notFound hreach, fun i x hfound =>
      ⟨rsplit_badOld hreach hfound, fun hold t r hread => ⟨?_, ?_⟩⟩⟩⟩
    · rintro rfl
      exact rsplit_unread hreach hfound hold hread
    · rintro bs rfl
      exact ⟨rsplit_badNew hreach hfound hold hread, fun hnew hone hfull => rsplit_full hreach hfound hold hread hnew hfull hone,
        fun hnew hfits rest hrest ps hps => rsplit_splits hreach hfound hold hread hnew hfits hrest hps⟩
  · intro s hl k o g d a b xs
    simp only [performSystem_rmerge hl]
    exact ⟨rmerge_outOfReach, fun hreach => ⟨fun st => rmerge_notFound hreach, fun i x hfound =>
      ⟨rmerge_last hreach hfound, fun hnext y rest hrest =>
        ⟨rmerge_refused hreach hfound hnext hrest, fun hok ps => rmerge_merges hreach hfound hnext hrest hok⟩⟩⟩⟩
  · intro s hl k o g all a b e xs
    simp only [performSystem_rinval hl]
    refine ⟨rinval_nothing, fun hrun hreach => ⟨fun hflight => ?_, fun hflight => ?_⟩⟩
    · rw [State.performRinval]
      simp only [rinval_acts hrun hreach]
      exact if_pos hflight
    · rw [State.performRinval]
      simp only [rinval_acts hrun hreach]
      exact if_neg (Bool.eq_false_iff.mp hflight)
  · intro s part asid all lo n e he
    rw [looks_invalidate, List.mem_filter] at he
    obtain ⟨hmem, hout⟩ := he
    refine ⟨hmem, fun ⟨hcore, hasid, hmeet⟩ => ?_⟩
    simp [hcore, hasid, hmeet] at hout
  · intro s hl k o g d a b q asid va
    exact (performSystem_rprobe hl ..).trans rfl
  · intro s hl k o g d a b q vf ia
    refine (performSystem_rprobeS2 hl ..).trans (congrArg (s.probeDone k o g d q) ?_)
    by_cases hvf : vf.toNat < 64 <;> simp [hvf]
  · intro s hl k o g d a b e asid va nia
    simp only [performSystem_rcompact hl]
    exact ⟨rcompact_outOfReach, fun hreach => ⟨fun c => rcompact_notFound hreach, fun i x vf hfound =>
      ⟨rcompact_badBacking hreach hfound, rcompact_toHost hreach hfound, fun hback hmode =>
        ⟨rcompact_full hreach hfound hback hmode, rcompact_asks hreach hfound hback hmode⟩⟩⟩⟩

/-! ### Counters and clearance maps (R386, R388) -/

section Counters
variable {s : State} (hlags : s.lags = []) (k : Ctx) (o : Op) (g : Guard)
include hlags

theorem performSystem_cntcfg (d a b e : Reg) (xs : List DWord) :
    s.performSystem k o (.cntcfg g d a b e) xs = s.performCntcfg k o d xs :=
  congrArg (fun t : State => t.performCntcfg k o d xs) (withoutLags hlags)

theorem performSystem_sealset (d a b : Reg) (xs : List DWord) :
    s.performSystem k o (.sealset g d a b) xs = s.performSealset k o g d xs := by
  simp only [State.performSystem, withoutLags hlags]

end Counters

/-- A counter as CNTCFG leaves its function: event and filter set, its count and its overflow bit zero (R386). -/
def Func.configured (f : Func) (n : Nat) (ev filter : DWord) : Func :=
  { f.setRecord (32 + 8 * n) (leBytes 4 ev.toNat ++ leBytes 4 filter.toNat) with
    cnt := f.cnt.set n 0, ovf := f.ovf &&& ~~~ ((1 : BitVec 8) <<< n) }

theorem cntcfg_configures (s : State) (k : Ctx) (o : Op) (d : Reg) {n ev : DWord} (filter : DWord) (hn : n.toNat < 8) (hev : ev.toNat < 9) :
    s.performCntcfg k o d [n, ev, filter] = (s.modFunc k.b.vf fun f => Func.configured f n.toNat ev filter).sysDone k o d [0] := by
  simp only [State.performCntcfg, List.headD_cons, List.tail_cons, Nat.not_le.mpr hn, Nat.not_le.mpr hev, if_false]
  rfl

/-- Clearing one bit of the overflow bits clears it and no other (R386). -/
theorem cleared_getLsbD (x : BitVec 8) (n j : Nat) :
    (x &&& ~~~ ((1 : BitVec 8) <<< n)).getLsbD j = (x.getLsbD j && !decide (j = n)) := by
  rcases Nat.lt_or_ge j 8 with hj | hj
  · rcases Nat.lt_trichotomy j n with h | rfl | h
    · simp [hj, h, Nat.ne_of_lt h]
    · simp [hj]
    · have hne : j - n ≠ 0 := by omega
      simp [hj, Nat.ne_of_gt h, Nat.not_lt.mpr h.le, hne]
  · simp [BitVec.getLsbD_of_ge _ _ hj]

/-- The seals of a map are the places of its set bits (R76). -/
theorem mem_sealsOf (bs : List Byte) (n : Nat) : n ∈ sealsOf bs ↔ n / 8 < bs.length ∧ (bs[n / 8]?.getD 0).getLsbD (n % 8) = true := by
  simp only [sealsOf, List.mem_flatMap, List.mem_filterMap, List.mem_range, Prod.exists, List.mk_mem_zipIdx_iff_getElem?,
    Option.ite_none_right_eq_some, Option.some.injEq]
  constructor
  · rintro ⟨byte, m, hbyte, i, hi, hbit, rfl⟩
    have hdiv : (8 * m + i) / 8 = m := by omega
    have hmod : (8 * m + i) % 8 = i := by omega
    rw [hdiv, hmod, hbyte]
    exact ⟨(List.getElem?_eq_some_iff.mp hbyte).1, hbit⟩
  · rintro ⟨hlt, hbit⟩
    refine ⟨bs[n / 8], n / 8, List.getElem?_eq_getElem hlt, n % 8, Nat.mod_lt _ (by omega), ?_, Nat.div_add_mod n 8⟩
    simpa only [List.getElem?_eq_getElem hlt, Option.getD_some] using hbit

/-! ### LAUNCH (R358, R385) -/

section Launch
variable {s : State} {k : Ctx} {o : Op} {g : Guard} {d : Reg} {xs : List DWord}

theorem performSystem_launch (hlags : s.lags = []) (k : Ctx) (o : Op) (g : Guard) (d a b : Reg) (xs : List DWord) :
    s.performSystem k o (.launch g d a b) xs = s.performLaunch k o g d xs :=
  congrArg (fun t : State => t.performLaunch k o g d xs) (withoutLags hlags)

theorem launch_noSuchList (h : 8 ≤ (xs.headD 0).toNat) : s.performLaunch k o g d xs = s.launchDone k o d 2 none := by
  simp only [State.performLaunch, Nat.not_lt.mpr h, if_false]
  rfl

variable (hj : (xs.headD 0).toNat < 8)
include hj

theorem launch_empty (h : listKind ((s.func k.b.vf).listRec (xs.headD 0).toNat) = 0) :
    s.performLaunch k o g d xs = s.launchDone k o d 2 none := by
  simp only [State.performLaunch, hj, if_true, h]

variable (hkind : listKind ((s.func k.b.vf).listRec (xs.headD 0).toNat) ≠ 0)
include hkind

theorem launch_tooHigh (h : min k.b.level 3 < listKind ((s.func k.b.vf).listRec (xs.headD 0).toNat)) :
    s.performLaunch k o g d xs = s.launchDone k o d 3 none := by
  simp only [State.performLaunch, hj, if_true, hkind, if_false, h]

variable (hlevel : listKind ((s.func k.b.vf).listRec (xs.headD 0).toNat) ≤ min k.b.level 3)
variable {s1 s2 s3 : State} {bs ht : List Byte} {ps : List Piece}
  (hfetch : s.sysFetch k o g (xs.tail.headD 0).toNat 64 = (s1, some bs))
  (hring : s1.checkRun k.b.core (listAsid ((s.func k.b.vf).listRec (xs.headD 0).toNat)) k.b.part k.b.clr
    (listRing ((s.func k.b.vf).listRec (xs.headD 0).toNat)) 16 .read = (s2, .ok ps))
  (hwords : s2.readRun k.b.vf k.b.core ps = (s3, ht))
include hlevel hfetch hring hwords

theorem launch_full (h : (listSize ((s.func k.b.vf).listRec (xs.headD 0).toNat) : Int)
      ≤ ((dwordOf (ht.take 8) : DWord).toNat : Int) - (dwordOf (ht.drop 8) : DWord).toNat) :
    s.performLaunch k o g d xs = s3.launchDone k o d 4 (some (dwordOf (ht.take 8))) := by
  simp only [State.performLaunch, hj, if_true, hkind, if_false, Nat.not_lt.mpr hlevel, hfetch, hring, hwords, h]

theorem launch_appends (h : ((dwordOf (ht.take 8) : DWord).toNat : Int) - (dwordOf (ht.drop 8) : DWord).toNat
      < (listSize ((s.func k.b.vf).listRec (xs.headD 0).toNat) : Int)) {s4 s5 : State} {rs hs : List Piece}
    (hslot : s3.checkRun k.b.core (listAsid ((s.func k.b.vf).listRec (xs.headD 0).toNat)) k.b.part k.b.clr
      (listSlot ((s.func k.b.vf).listRec (xs.headD 0).toNat) (dwordOf (ht.take 8) : DWord).toNat) 64 .write = (s4, .ok rs))
    (hhead : s4.checkRun k.b.core (listAsid ((s.func k.b.vf).listRec (xs.headD 0).toNat)) k.b.part k.b.clr
      (listRing ((s.func k.b.vf).listRec (xs.headD 0).toNat)) 8 .write = (s5, .ok hs)) :
    s.performLaunch k o g d xs =
      ((s5.writeRun k.b.vf k.b.uid rs bs).writeRun k.b.vf k.b.uid hs (leBytes 8 ((dwordOf (ht.take 8) : DWord) + 1).toNat)).launchDone
        k o d 0 (some (dwordOf (ht.take 8))) := by
  simp only [State.performLaunch, hj, if_true, hkind, if_false, Nat.not_lt.mpr hlevel, hfetch, hring, hwords, Int.not_le.mpr h, hslot, hhead]

end Launch

/-! ### Number networks (R234, R235, R379 to R381) -/

section Networks
variable {s : State} (hlags : s.lags = []) (k : Ctx) (o : Op) (g : Guard)

section
include hlags

theorem performSystem_netdrain (a : Reg) (xs : List DWord) : s.performSystem k o (.netdrain g a) xs = s.performNetdrain k g xs :=
  congrArg (fun t : State => t.performNetdrain k g xs) (withoutLags hlags)

theorem performSystem_netreset (a : Reg) (xs : List DWord) :
    s.performSystem k o (.netreset g a) xs = s.performNetreset k o (.netreset g a) g xs :=
  congrArg (fun t : State => t.performNetreset k o (.netreset g a) g xs) (withoutLags hlags)

theorem performSystem_netsave (d a b : Reg) (xs : List DWord) :
    s.performSystem k o (.netsave g d a b) xs = s.performNetsave k o (.netsave g d a b) g d xs :=
  congrArg (fun t : State => t.performNetsave k o (.netsave g d a b) g d xs) (withoutLags hlags)

theorem performSystem_netload (d a b : Reg) (xs : List DWord) :
    s.performSystem k o (.netload g d a b) xs = s.performNetload k o (.netload g d a b) g d xs :=
  congrArg (fun t : State => t.performNetload k o (.netload g d a b) g d xs) (withoutLags hlags)

end

theorem net_openNet (n m : Nat) (h : n < s.nets.length) :
    (s.openNet n).net m = if m = n then { s.net n with closed := false, resetting := false, lost := false } else s.net m :=
  net_modNet s n m _ h

/-- A reset of a network that has no token left leaves it zero and open (R234). -/
theorem net_netQuiet (n m : Nat) (hn : n < s.nets.length) (hreset : (s.net n).resetting = true) (hempty : (s.net n).tokens = []) :
    (s.netQuiet n).net m = if m = n then
      { s.net n with closed := false, resetting := false, lost := false, bal := 0, cnt := List.replicate 16 0 } else s.net m := by
  have hlen : n < (s.modNet n fun x => { x with bal := 0, cnt := List.replicate 16 0 }).nets.length := by
    simpa only [State.modNet, List.length_modify] using hn
  rw [State.netQuiet, if_pos (by rw [hreset, Net.quiet, hempty]; rfl), net_openNet _ _ hlen, net_modNet s _ _ _ hn, net_modNet s _ _ _ hn,
    if_pos rfl]
  by_cases hm : m = n <;> simp only [hm, if_true, if_false]

theorem netQuiet_mem (s : State) (n : Nat) : SameMemory s (s.netQuiet n) := by
  unfold State.netQuiet
  split
  · exact sameMem rfl rfl rfl rfl
  · exact sameMem rfl rfl rfl rfl

/-- A network that is reset with no token in it is zero and open at once (R234, R380). -/
theorem netreset_of_empty {i : Instr} {n : DWord} (hreach : s.reachesNet k.b n.toNat = true) (hn : n.toNat < s.nets.length)
    (hempty : (s.net n.toNat).tokens = []) : ∃ t, s.performNetreset k o i g [n] = (t.passImplicit k g 1, true) ∧ (t.net n.toNat).bal = 0
      ∧ (t.net n.toNat).cnt = List.replicate 16 0 ∧ (t.net n.toNat).closed = false ∧ SameMemory s t
      ∧ ∀ m, m ≠ n.toNat → t.net m = s.net m := by
  have hmod := fun m => net_modNet s n.toNat m (fun x => { x with closed := true, resetting := true }) hn
  have ht := fun m => net_netQuiet (s := s.modNet n.toNat fun x => { x with closed := true, resetting := true }) n.toNat m
    (by simpa only [State.modNet, List.length_modify] using hn) (by rw [hmod, if_pos rfl]) (by rw [hmod, if_pos rfl]; exact hempty)
  have hmem := netQuiet_mem (s.modNet n.toNat fun x => { x with closed := true, resetting := true }) n.toNat
  have hopen := congrArg Net.resetting ((ht n.toNat).trans (if_pos rfl))
  refine ⟨_, ?_, congrArg Net.bal ((ht n.toNat).trans (if_pos rfl)), congrArg Net.cnt ((ht n.toNat).trans (if_pos rfl)),
    congrArg Net.closed ((ht n.toNat).trans (if_pos rfl)), hmem, fun m hm => ?_⟩
  · simp only [State.performNetreset, List.headD_cons, List.tail_cons, hreach, hopen]
    rfl
  · rw [ht, if_neg hm, hmod, if_neg hm]

end Networks

/-- Settles O33, each instruction by where it ends. -/
theorem systemInstructionsPerform : Obligations.SystemInstructionsPerform := by
  unfold Obligations.SystemInstructionsPerform
  refine ⟨?_, ?_, ?_, ?_, ?_, mem_sealsOf, ?_, ?_, ?_, ?_, ?_, ?_, ?_⟩
  · intro s hl k o g d a b e xs hn
    rw [performSystem_cntcfg hl, State.performCntcfg]
    exact if_pos hn
  · intro s hl k o g d a b e xs hn hev
    rw [performSystem_cntcfg hl, State.performCntcfg]
    exact (if_neg (Nat.not_le.mpr hn)).trans (if_pos hev)
  · intro s hl k o g d a b e n ev f hn hev hvf hlen
    have hfunc : ∀ v, _ := fun v => func_modFunc s k.b.vf v (fun x => Func.configured x n.toNat ev f) hvf
    refine ⟨_, (performSystem_cntcfg hl ..).trans (cntcfg_configures s k o d f hn hev), ?_, ?_, ?_, fun j hj => ⟨?_, ?_⟩, fun v hv => ?_,
      sameMem rfl rfl rfl rfl⟩
    · rw [hfunc, if_pos rfl]; rfl
    · rw [hfunc, if_pos rfl]
      exact List.getElem?_set_self (hlen ▸ hn)
    · rw [hfunc, if_pos rfl, Func.configured, cleared_getLsbD]
      simp only [decide_true, Bool.not_true, Bool.and_false]
    · rw [hfunc, if_pos rfl]
      exact List.getElem?_set_ne (Ne.symm hj)
    · rw [hfunc, if_pos rfl, Func.configured, cleared_getLsbD]
      simp only [hj, decide_false, Bool.not_false, Bool.and_true]
    · exact (hfunc v).trans (if_neg hv)
  · intro s hl k o g d a b xs hn
    rw [performSystem_sealset hl, State.performSealset]
    exact if_pos hn
  · intro s hl k o g d a b xs t bs hn hfetch
    rw [performSystem_sealset hl]
    simp only [State.performSealset, Nat.not_le.mpr hn, if_false, hfetch]
  · intro s hl k o g d a b xs hj
    exact (performSystem_launch hl ..).trans (launch_noSuchList hj)
  · intro s hl k o g d a b xs hj
    simp only [performSystem_launch hl]
    exact ⟨launch_empty hj, launch_tooHigh hj, fun hkind hlevel s1 bs hfetch s2 ps hring s3 ht hwords =>
      ⟨launch_full hj hkind hlevel hfetch hring hwords, fun hroom s4 rs hslot s5 hs hhead =>
        launch_appends hj hkind hlevel hfetch hring hwords hroom hslot hhead⟩⟩
  · intro s hl k o i g d a b xs hi hreach
    have hdenied : (!s.reachesNet k.b (xs.headD 0).toNat) = true := by rw [hreach]; rfl
    rcases hi with rfl | rfl | rfl | rfl
    · exact (performSystem_netdrain hl ..).trans (if_pos hdenied)
    · exact (performSystem_netreset hl ..).trans (if_pos hdenied)
    · exact (performSystem_netsave hl ..).trans (if_pos hdenied)
    · exact (performSystem_netload hl ..).trans (if_pos hdenied)
  · intro s hl k o g a xs hreach
    rw [performSystem_netdrain hl, State.performNetdrain, hreach]
    rfl
  · intro s hl k o g a n hreach hn hempty
    rw [performSystem_netreset hl]
    exact netreset_of_empty k o g hreach hn hempty
  · intro s hl k o g d a b n va hreach t ps hrun hquiet
    rw [performSystem_netsave hl]
    simp only [State.performNetsave, List.headD_cons, List.tail_cons, List.drop, hreach, hrun, hquiet]
    rfl
  · intro s hl k o g d a b n va hreach t bs hfetch
    rw [performSystem_netload hl]
    refine ⟨fun hbad => ?_, fun hok hquiet => ?_⟩
    · simp only [State.performNetload, List.headD_cons, List.tail_cons, List.drop, hreach, hfetch, hbad]
      rfl
    · simp only [State.performNetload, List.headD_cons, List.tail_cons, List.drop, hreach, hfetch, hok, hquiet]
      rfl

end Sys2Proof.Proofs
end

