-- ==== Sys2Proof/Proofs/Frames.lean ====
section
/-! What the machine does beside its blocks: walks, lookasides, requests, reports, counters, the denial log and reads through the L2
(20_ranges R318 to R329). Each leaves the blocks and the launches, and home memory in its canonical form. -/

namespace Sys2Proof.Proofs

open Sys2Proof.Machine Sys2Proof.Laws

/-- No block and no launch has changed, and home memory is still canonical. -/
structure Aside (s t : State) : Prop where
  blocks : t.blocks = s.blocks
  launches : t.launches = s.launches
  nextUid : t.nextUid = s.nextUid
  canonical : KeepsCanonical s t

theorem aside_refl (s : State) : Aside s s := ⟨rfl, rfl, rfl, id⟩

theorem aside_trans {s t u : State} (h : Aside s t) (h' : Aside t u) : Aside s u :=
  ⟨h'.blocks.trans h.blocks, h'.launches.trans h.launches, h'.nextUid.trans h.nextUid, keepsCanonical_trans h.canonical h'.canonical⟩

/-- What changes no block, no launch and not home memory. -/
theorem aside_of {s t : State} (hb : t.blocks = s.blocks) (hm : t.mem = s.mem) (hl : t.launches = s.launches := by rfl)
    (hn : t.nextUid = s.nextUid := by rfl) : Aside s t := ⟨hb, hl, hn, keepsCanonical_of_mem hm⟩

theorem aside_block {s t : State} (h : Aside s t) (u : Nat) : t.block? u = s.block? u := by rw [State.block?, h.blocks]; rfl

theorem aside_foldl {α : Type} {f : State → α → State} (hf : ∀ s a, Aside s (f s a)) : ∀ (l : List α) (s : State), Aside s (l.foldl f s)
  | [], s => aside_refl s
  | a :: l, s => aside_trans (hf s a) (aside_foldl hf l (f s a))

theorem aside_onlyL2 {s t : State} (h : OnlyL2 s t) : Aside s t :=
  aside_of (congrArg State.blocks h.same :) (onlyL2_mem h) (congrArg State.launches h.same :) (congrArg State.nextUid h.same :)

/-! ### Home memory and the L2 -/

theorem writeHome_aside (s : State) (slot : Nat) (cs : List Host.Cell) : Aside s (s.writeHome slot cs) := ⟨rfl, rfl, rfl, memWf_memWrites⟩

theorem putHome_aside (s : State) (slot a n x : Nat) : Aside s (s.putHome slot a n x) := writeHome_aside ..

theorem l2Read_aside (s : State) (vf core : Nat) (p : Piece) : Aside s (s.l2Read vf core p) := aside_onlyL2 (l2Read_only ..)

theorem l2Write_aside (s : State) (vf : Nat) (p : Piece) (h : Hint) : Aside s (s.l2Write vf p h) := aside_onlyL2 (l2Write_only ..)

theorem writeThrough_aside (s : State) (vf : Nat) (p : Piece) (bs : List Byte) : Aside s (s.writeThrough vf p bs) :=
  aside_trans (l2Write_aside ..) (writeHome_aside ..)

theorem owesHost_aside (s : State) (u home n : Nat) (c : HostCause) : Aside s (s.owesHost u home n c) :=
  aside_of (congrArg State.blocks (owesHost_keeps s u home n c) :) (congrArg State.mem (owesHost_keeps s u home n c) :)
    (congrArg State.launches (owesHost_keeps s u home n c) :) (congrArg State.nextUid (owesHost_keeps s u home n c) :)

/-! ### Translation (R75, R318) -/

theorem lookup_aside {s t : State} {core : Nat} {quad : Option Nat} {asid va n : Nat} {e : Look}
    (h : s.lookup core quad asid va n = .ok (e, t)) : Aside s t := by
  unfold State.lookup at h
  split at h
  · cases h; exact aside_of rfl rfl
  split at h
  · cases h; exact aside_of rfl rfl
  split at h
  · cases h
  split at h
  · cases h; exact aside_refl s
  · cases h; exact aside_of rfl rfl

theorem translate_aside (s : State) (core : Nat) (quad : Option Nat) (asid va n : Nat) (kind : AccKind) :
    Aside s (s.translate core quad asid va n kind).1 := by
  unfold State.translate
  split
  · exact aside_refl s
  · exact lookup_aside ‹_›

theorem translateRun_aside (core : Nat) (quad : Option Nat) (asid : Nat) (kind : AccKind) : ∀ (fuel : Nat) (s : State) (va n : Nat),
    Aside s (State.translateRun core quad asid kind fuel s va n).1
  | 0, s, _, _ => aside_refl s
  | fuel + 1, s, va, n => by
    rw [State.translateRun]
    split
    · exact aside_refl s
    split
    · exact aside_refl s
    next e t hlook =>
      split
      · exact aside_trans (lookup_aside hlook) (translateRun_aside core quad asid kind fuel t _ _)
      · exact lookup_aside hlook

/-! ### Reports, messages and counters (R331, R364, R367) -/

theorem gather_aside (s : State) (core : Nat) (h : HLane) : Aside s (s.gather core h) := aside_of rfl rfl

theorem report_aside (s : State) (b : Block) (crew lane : Nat) (cause : Cause) (fault : DWord) (off : Word) :
    Aside s (s.report b crew lane cause fault off) := by
  unfold State.report
  split
  · exact gather_aside ..
  · exact aside_refl s

theorem reportPart_aside (s : State) (p core : Nat) (launch : Word) (cause : Cause) (fault : DWord) :
    Aside s (s.reportPart p core launch cause fault) := gather_aside ..

theorem interrupt_aside (s : State) (part vf kind : Nat) (data : DWord) : Aside s (s.interrupt part vf kind data) := aside_of rfl rfl

theorem modPart_aside (s : State) (p : Nat) (f : Machine.Part → Machine.Part) : Aside s (s.modPart p f) := aside_of rfl rfl

theorem modFunc_aside (s : State) (v : Nat) (f : Func → Func) : Aside s (s.modFunc v f) := aside_of rfl rfl

theorem bump_aside (s : State) (vf i : Nat) : Aside s (s.bump vf i) := by
  unfold State.bump
  dsimp only
  split
  · split
    · exact modFunc_aside ..
    · exact aside_of rfl rfl
  · exact modFunc_aside ..

theorem count_aside (s : State) (vf e : Nat) (ok : Nat → Bool) : Aside s (s.count vf e ok) := by
  unfold State.count
  split
  · refine aside_foldl (fun s i => ?_) _ s
    split
    split
    · exact bump_aside ..
    · exact aside_refl _
  · exact aside_refl s

/-! ### Residency requests (R320) -/

theorem newRequest_aside (s : State) (core asid base g va : Nat) (w : Option Nat) : Aside s (s.newRequest core asid base g va w) :=
  aside_of rfl rfl

theorem askResidency_aside (s : State) (b : Block) (crew lane va : Nat) (off : Word) (w : Park) :
    Aside s (s.askResidency b crew lane va off w) := by
  unfold State.askResidency
  split
  · split
    · exact aside_of rfl rfl
    · dsimp only
      split
      · exact aside_trans (newRequest_aside ..) (interrupt_aside ..)
      · exact aside_trans (newRequest_aside ..) (report_aside ..)
  · exact aside_refl s

theorem askResidencyFront_aside (s : State) (part vf va : Nat) (w : Park) : Aside s (s.askResidencyFront part vf va w) := by
  unfold State.askResidencyFront
  split
  · dsimp only
    split
    · exact aside_of rfl rfl
    · split
      · exact aside_trans (newRequest_aside ..) (interrupt_aside ..)
      · exact aside_trans (newRequest_aside ..) (reportPart_aside ..)
  · exact aside_refl s

/-! ### The denial log (R329) -/

theorem recordAppended_aside (s : State) (part vf : Nat) : Aside s (s.recordAppended part vf) := by
  have hcounted : Aside s ((s.modPart part fun p => { p with p := p.p + 1, owed := p.owed.tail }).count vf 5 fun _ => true) :=
    aside_trans (modPart_aside ..) (count_aside ..)
  unfold State.recordAppended
  dsimp only
  split
  · split
    · exact aside_trans (aside_trans hcounted (modPart_aside ..)) (interrupt_aside ..)
    · exact aside_trans (aside_trans hcounted (modPart_aside ..)) (reportPart_aside ..)
  · exact hcounted

theorem payDenials_aside (part : Nat) : ∀ (fuel : Nat) (s : State), Aside s (State.payDenials part fuel s)
  | 0, s => aside_refl s
  | fuel + 1, s => by
    rw [State.payDenials]
    dsimp only
    split
    · exact aside_refl s
    next vf body rest howed =>
      have hwalk := translate_aside s (s.part part).firstCore none (s.part part).hasid
        ((s.part part).dlogVa + 32 * ((s.part part).p.toNat % 2 ^ (s.part part).dlogK)) 32 .write
      split
      next t x ht =>
        rw [ht] at hwalk
        exact aside_trans hwalk (aside_trans (writeHome_aside ..) (aside_trans (recordAppended_aside ..) (payDenials_aside part fuel _)))
      next t c ht =>
        rw [ht] at hwalk
        exact aside_trans hwalk (aside_trans (recordAppended_aside ..) (payDenials_aside part fuel _))
      next t w ht =>
        rw [ht] at hwalk
        exact aside_trans hwalk (askResidencyFront_aside ..)

theorem payAllDenials_aside (s : State) : Aside s s.payAllDenials := aside_foldl (fun _ _ => payDenials_aside ..) _ s

theorem denial_aside (s : State) (part vf va : Nat) (oid launch : Word) (r : Reader) (write tag : Bool) (sl : Nat) :
    Aside s (s.denial part vf va oid launch r write tag sl) := aside_trans (modPart_aside ..) (payDenials_aside ..)

end Sys2Proof.Proofs
end

