-- ==== Sys2Proof/Proofs/MatrixPerform.lean ====
section
/-! The matrix instructions as they perform, and the K-steps of an MLOOP (11_ordering R181; 17_engines R256 to R272;
18_engine_instructions R289 to R298). -/

namespace Sys2Proof.Proofs

open Sys2Proof.Machine Sys2Proof.Laws

/-! ### Acceptance (R264, R289) -/

theorem blockOf_eq {s : State} {k : Ctx} {b : Block} (hb : s.block? k.b.uid = some b) : s.blockOf k = b := by
  rw [State.blockOf, hb, Option.getD_some]

theorem performOp_instr {s : State} {k : Ctx} {o : Op} {i : Instr} {xs : List DWord} (ho : o.what = .instr i xs) (picks : List Nat) :
    s.performOp k o picks = s.performEngine k o i xs picks := by
  rw [State.performOp, ho]

theorem acceptM_spec {s : State} {k : Ctx} (o : Op) (kind : MKind) {b : Block} (hb : s.block? k.b.uid = some b) :
    ∃ m, SameMemory s (s.acceptM k o kind)
      ∧ (s.acceptM k o kind).block? k.b.uid = some { b with mcmds := b.mcmds ++ [m], nextCmd := b.nextCmd + 1 }
      ∧ m.kind = kind ∧ m.id = b.nextCmd ∧ m.crew = k.ci ∧ m.lane = o.lane ∧ m.pc = o.pc ∧ m.begun = false ∧ m.step = 0
      ∧ ∀ v, v ≠ k.b.uid → (s.acceptM k o kind).block? v = s.block? v :=
  ⟨_, sameDevice_memory (sameDevice_modBlock ..), modBlock_at (fun _ => rfl) hb, rfl, rfl, rfl, rfl, rfl, rfl, rfl,
    fun v hv => by
      unfold State.acceptM
      rw [block_modBlock, if_neg hv]
      exact fun _ => rfl⟩

theorem performMdesc_spec {s : State} {k : Ctx} (o : Op) (l2 : Bool) (fmt : MFmt) (h : BitVec 4) (stride : Word) (xs : List DWord)
    {c : Block} {x : Handle} (hb : s.block? k.b.uid = some c) (hx : c.handles[h.toNat]? = some x) :
    ∃ c' m, SameMemory s (s.performMdesc k o l2 fmt h stride xs)
      ∧ (s.performMdesc k o l2 fmt h stride xs).block? k.b.uid = some c' ∧ c'.mcmds = c.mcmds ++ [m] ∧ m.kind = .mdesc h.toNat
      ∧ c'.tiles = c.tiles
      ∧ c'.handles[h.toNat]? = some ⟨some (if l2 then .l2 fmt (xs.headD 0).toNat stride.toNat
          else .sp fmt (xs.headD 0).toNat (xs.tail.headD 0).toNat stride.toNat), x.gen + 1⟩
      ∧ ∀ j, j ≠ h.toNat → c'.handles[j]? = c.handles[j]? := by
  let bind : Binding := if l2 then .l2 fmt (xs.headD 0).toNat stride.toNat
    else .sp fmt (xs.headD 0).toNat (xs.tail.headD 0).toNat stride.toNat
  let bound : Block → Block := fun b => { b with handles := b.handles.modify h.toNat fun x => ⟨some bind, x.gen + 1⟩ }
  obtain ⟨m, hmem, hb', hkind, -⟩ := acceptM_spec o (.mdesc h.toNat) (modBlock_at (f := bound) (fun _ => rfl) hb)
  refine ⟨_, m, sameMemory_trans (sameDevice_memory (sameDevice_modBlock ..)) hmem, hb', rfl, hkind, rfl, ?_, fun j hj => ?_⟩
  · refine (List.getElem?_modify_eq ..).trans ?_
    rw [hx]
    rfl
  · exact List.getElem?_modify_ne _ _ (Ne.symm hj)

/-! ### What an MFENCE waits for (R181, R297) -/

theorem mayPerform_mfence {s : State} {b : Block} {ci : Nat} {c : Crew} {n : Nat} {o : Op} {g : Guard} {xs : List DWord}
    (ho : c.queue[n]? = some o) (hw : o.what = .instr (.mfence g) xs) (h : s.mayPerform b ci c n = true) :
    (∀ p ∈ c.queue.take n, p.ins = o.ins) ∧ (∀ q ∈ s.posted, q.blk = b.uid → q.crew ≠ ci)
      ∧ ∀ m ∈ b.mcmds, m.crew = ci → ∀ sh t n ha hb x y ia ib, m.kind ≠ .mloop sh t n ha hb x y ia ib := by
  have hbefore : ((c.queue.take n).filter fun p => !(o.what.byEighth && p.ins == o.ins && p.lane / 16 == o.lane / 16)) = c.queue.take n := by
    simp only [hw, OpKind.byEighth, Bool.false_and, Bool.not_false, List.filter_true]
  simp only [State.mayPerform, ho, hbefore] at h
  have hok := (Bool.and_eq_true_iff.mp h).2
  simp only [hw, State.instrOk, Instr.system, Bool.and_eq_true, Bool.false_eq_true, if_false, List.isEmpty_iff, Bool.not_eq_true'] at hok
  obtain ⟨⟨-, ⟨hempty, hmine⟩, hcmds⟩, -⟩ := hok
  refine ⟨fun p hp => ?_, fun q hq hblk hcrew => ?_, fun m hm hcrew sh t n ha hb x y ia ib hkind => ?_⟩
  · simpa using List.filter_eq_nil_iff.mp hempty p hp
  · simpa [hblk, hcrew] using List.any_eq_false.mp hmine q hq
  · simpa [hcrew, hkind] using List.all_eq_true.mp hcmds m hm

/-! ### MREAD (R181, R259, R296) -/

theorem mem_tileSeen (b : Block) (t : Nat) (x : Tile) {y : Tile} (hy : b.tiles[t]? = some y) :
    x ∈ b.tileSeen t ↔ x = y ∨ ∃ n, (t, x, n) ∈ b.past ∧ ∃ m ∈ b.pending, t ∈ m.tiles ∧ m.turn ≤ n := by
  simp only [Block.tileSeen, hy, Option.getD_some, List.mem_cons, List.mem_map, List.mem_filter, Bool.and_eq_true, beq_iff_eq,
    List.any_eq_true, MOpen.lets, List.contains_iff_mem, decide_eq_true_eq]
  refine or_congr_right ⟨?_, fun ⟨n, hpast, hopen⟩ => ⟨(t, x, n), ⟨hpast, rfl, hopen⟩, rfl⟩⟩
  rintro ⟨⟨t', x', n⟩, ⟨hpast, rfl, hopen⟩, rfl⟩
  exact ⟨n, hpast, hopen⟩

theorem picked_mem_tileSeen (b : Block) (t i : Nat) :
    ((b.tileSeen t)[i]?).getD ((b.tileSeen t).headD Tile.zero) ∈ b.tileSeen t := by
  cases h : (b.tileSeen t)[i]? with
  | some x => exact List.mem_of_getElem? h
  | none => exact List.mem_cons_self

section Element
variable {t : Tile} {n : Nat} {m : Int}

theorem readF32_nan (h : t.m[n]? = some nanM) : t.readF32 n = 0x7FC00000 := by simp only [Tile.readF32, h, Option.getD_some, if_true]

theorem readI64_nan (h : t.m[n]? = some nanM) : t.readI64 n = 0xFFFF800000000000 := by simp only [Tile.readI64, h, Option.getD_some, if_true]

variable (h : t.m[n]? = some m) (hm : m ≠ nanM)
include h hm

theorem readF32_zero (he : t.e = none) : t.readF32 n = 0 := by simp only [Tile.readF32, h, Option.getD_some, hm, if_false, he]

theorem readI64_zero (he : t.e = none) : t.readI64 n = 0 := by
  simp only [Tile.readI64, h, Option.getD_some, hm, if_false, he, Option.isNone_none, if_true]

theorem readF32_finite {e : Int} (he : t.e = some e) :
    t.readF32 n = BitVec.ofNat 32 (roundTo .f32 .rne false false (finOf m e false) 0).1 := by
  simp only [Tile.readF32, h, Option.getD_some, hm, if_false, he]

theorem readI64_finite {e : Int} (he : t.e = some e) : t.readI64 n = BitVec.ofInt 64 m := by
  simp only [Tile.readI64, h, Option.getD_some, hm, if_false, he, Option.isNone_some, Bool.false_eq_true]

end Element

/-! ### MWAIT (R41, R181, R295) -/

section Mwait
variable {s : State} {k : Ctx} {o : Op} {os : List Op} {all : Bool} {t : BitVec 3} {b : Block} (hb : s.block? k.b.uid = some b)

theorem performEighth_mwait {g : Guard} {xs : List DWord} (os : List Op) (ho : o.what = .instr (.mwait g all t) xs) :
    s.performEighth k o os = s.performMwait k o os all t := by
  rw [State.performEighth, ho]

include hb

theorem performMwait_of_none (h : b.mwaitFor k.ci all t.toNat = []) :
    s.performMwait k o os all t = s.modBlock k.b.uid (·.cover k.ci o.ins all t.toNat) := by
  simp only [State.performMwait, blockOf_eq hb, h]

theorem performMwait_of_some (h : b.mwaitFor k.ci all t.toNat ≠ []) : s.performMwait k o os all t =
    os.foldl (fun s o => s.parkAfter k o.lane 2 (.mwait o.ins all t.toNat (b.mwaitFor k.ci all t.toNat))) s := by
  obtain ⟨c, cs, hcs⟩ := List.exists_cons_of_ne_nil h
  simp only [State.performMwait, blockOf_eq hb, hcs]

end Mwait

/-- A lane named by some operations, each of which parks its own lane and leaves the others, parks for what those that name it say. -/
theorem laneAt_parkFor {u ci : Nat} {F : State → Op → State} {f : Op → Park} {w : Park} {j : Nat} {l : Lane}
    (hself : ∀ s o m, s.laneAt u ci o.lane = some m → ∃ m', (F s o).laneAt u ci o.lane = some m' ∧ ParkedAs m m' (f o))
    (hother : ∀ s o, j ≠ o.lane → (F s o).laneAt u ci j = s.laneAt u ci j) : ∀ (os : List Op) (s : State) (m : Lane),
    s.laneAt u ci j = some m → m.v = l.v → (∀ p ∈ os, p.lane = j → f p = w) → (ParkedAs l m w ∨ ∃ p ∈ os, p.lane = j) →
    ∃ l', (os.foldl F s).laneAt u ci j = some l' ∧ ParkedAs l l' w
  | [], s, m, hm, _, _, h => by
    obtain hparked | ⟨p, hp, -⟩ := h
    · exact ⟨m, hm, hparked⟩
    · cases hp
  | o :: os, s, m, hm, hv, hf, h => by
    have hf' : ∀ p ∈ os, p.lane = j → f p = w := fun p hp => hf p (List.mem_cons_of_mem _ hp)
    by_cases ho : j = o.lane
    · subst ho
      obtain ⟨m', hm', hparked⟩ := hself s o m hm
      have hparked' : ParkedAs l m' w := ⟨hparked.parked, hparked.act, hparked.park.trans (congrArg some (hf o List.mem_cons_self rfl)),
        hparked.regs.trans hv⟩
      exact laneAt_parkFor hself hother os (F s o) m' hm' hparked'.regs hf' (.inl hparked')
    · refine laneAt_parkFor hself hother os (F s o) m ((hother s o ho).trans hm) hv hf' (h.imp_right fun ⟨p, hp, hj⟩ => ⟨p, ?_, hj⟩)
      exact (List.mem_cons.mp hp).resolve_left fun h => ho (h ▸ hj).symm

theorem parkAfter_self (s : State) (k : Ctx) (lane len : Nat) (w : Park) {m : Lane} (hm : s.laneAt k.b.uid k.ci lane = some m) :
    ∃ m', (s.parkAfter k lane len w).laneAt k.b.uid k.ci lane = some m' ∧ ParkedAs m m' w := by
  rw [laneAt_parkAfter, if_pos rfl, hm]
  exact ⟨_, rfl, rfl, rfl, rfl, rfl⟩

theorem parkAfter_other (s : State) (k : Ctx) {lane j : Nat} (len : Nat) (w : Park) (h : j ≠ lane) :
    (s.parkAfter k lane len w).laneAt k.b.uid k.ci j = s.laneAt k.b.uid k.ci j := by rw [laneAt_parkAfter, if_neg h]

/-! ### MSTAT (R298) -/

/-- The saturation bits of tiles, the first one lowest. -/
def satBits : List Tile → Nat
  | [] => 0
  | t :: ts => t.sat.toNat + 2 * satBits ts

theorem satBits_lt : ∀ ts : List Tile, satBits ts < 2 ^ ts.length
  | [] => Nat.one_pos
  | t :: ts => by
    have := satBits_lt ts
    have := Bool.toNat_le t.sat
    simp only [satBits, List.length_cons, Nat.pow_succ]
    omega

theorem testBit_satBits : ∀ (ts : List Tile) (i : Nat), (satBits ts).testBit i = ((ts[i]?).map (·.sat)).getD false
  | [], i => Nat.zero_testBit i
  | t :: ts, 0 => by
    rw [satBits, Nat.testBit_zero, List.getElem?_cons_zero, Option.map_some, Option.getD_some]
    cases t.sat <;> simp
  | t :: ts, i + 1 => by
    have hhalf : satBits (t :: ts) / 2 = satBits ts := by
      have := Bool.toNat_le t.sat
      rw [satBits]
      omega
    rw [Nat.testBit_succ, hhalf, List.getElem?_cons_succ]
    exact testBit_satBits ts i

theorem foldl_sat : ∀ (ts : List Tile) (i n : Nat),
    (ts.zipIdx i).foldl (fun n t => if t.1.sat then n + 2 ^ (8 + t.2) else n) n = n + 2 ^ (8 + i) * satBits ts
  | [], i, n => by simp only [List.zipIdx_nil, List.foldl_nil, satBits, Nat.mul_zero, Nat.add_zero]
  | t :: ts, i, n => by
    have hpow : 2 ^ (8 + (i + 1)) = 2 ^ (8 + i) * 2 := by rw [← Nat.add_assoc, Nat.pow_succ]
    rw [List.zipIdx_cons, List.foldl_cons, foldl_sat ts (i + 1), satBits, hpow]
    cases t.sat
    · simp only [Bool.false_eq_true, if_false, Bool.toNat_false, Nat.zero_add, Nat.mul_assoc]
    · simp only [if_true, Bool.toNat_true, Nat.mul_add, Nat.mul_one, Nat.mul_assoc, Nat.add_assoc]

/-- The status word is its fields, one above the other. -/
theorem mstatWord_eq (b : Block) : b.mstatWord = BitVec.ofNat 32
    (2 ^ 8 * (b.mcmds.length * 2 ^ 16 + b.mlog.length * 2 ^ 8 + satBits b.tiles) + (b.ref.toNat * 4 + b.opf.toNat * 2 + b.ecc.toNat)) := by
  rw [Block.mstatWord, foldl_sat]
  congr 1
  omega

theorem mstatWord_fields (b : Block) (hcmds : b.mcmds.length ≤ 8) (hlog : b.mlog.length ≤ 16) (htiles : b.tiles.length ≤ 8) :
    (bits b.mstatWord 24 4).toNat = b.mcmds.length ∧ (bits b.mstatWord 16 5).toNat = b.mlog.length
      ∧ b.mstatWord.getLsbD 2 = b.ref ∧ b.mstatWord.getLsbD 1 = b.opf ∧ b.mstatWord.getLsbD 0 = b.ecc
      ∧ ∀ t, t < 8 → b.mstatWord.getLsbD (8 + t) = ((b.tiles[t]?).map (·.sat)).getD false := by
  have hsat : satBits b.tiles < 2 ^ 8 := Nat.lt_of_lt_of_le (satBits_lt _) (Nat.pow_le_pow_right (by omega) htiles)
  have hflags : b.ref.toNat * 4 + b.opf.toNat * 2 + b.ecc.toNat < 2 ^ 8 := by
    have := Bool.toNat_le b.ref
    have := Bool.toNat_le b.opf
    have := Bool.toNat_le b.ecc
    omega
  rw [mstatWord_eq]
  refine ⟨?_, ?_, ?_, ?_, ?_, fun t ht => ?_⟩
  · simp only [bits, BitVec.toNat_ofNat, BitVec.extractLsb'_toNat, Nat.shiftRight_eq_div_pow]
    omega
  · simp only [bits, BitVec.toNat_ofNat, BitVec.extractLsb'_toNat, Nat.shiftRight_eq_div_pow]
    omega
  · rw [BitVec.getLsbD_ofNat, Nat.testBit_two_pow_mul_add _ hflags, if_pos (by omega)]
    cases b.ref <;> cases b.opf <;> cases b.ecc <;> rfl
  · rw [BitVec.getLsbD_ofNat, Nat.testBit_two_pow_mul_add _ hflags, if_pos (by omega)]
    cases b.ref <;> cases b.opf <;> cases b.ecc <;> rfl
  · rw [BitVec.getLsbD_ofNat, Nat.testBit_two_pow_mul_add _ hflags, if_pos (by omega)]
    cases b.ref <;> cases b.opf <;> cases b.ecc <;> rfl
  · have hupper : b.mcmds.length * 2 ^ 16 + b.mlog.length * 2 ^ 8 + satBits b.tiles
        = 2 ^ 8 * (b.mcmds.length * 2 ^ 8 + b.mlog.length) + satBits b.tiles := by omega
    rw [BitVec.getLsbD_ofNat, Nat.testBit_two_pow_mul_add _ hflags, if_neg (by omega), hupper, Nat.add_sub_cancel_left,
      Nat.testBit_two_pow_mul_add _ hsat, if_pos ht, testBit_satBits, decide_eq_true (by omega : 8 + t < 32), Bool.true_and]

/-- Settles O35, each instruction by what it does to its block. -/
theorem matrixInstructionsPerform : Obligations.MatrixInstructionsPerform := by
  unfold Obligations.MatrixInstructionsPerform
  refine ⟨?_, ?_, fun _ _ _ _ => rfl, ?_, fun s k o kind b => acceptM_spec o kind, ?_, ?_, fun s b ci c n o g xs => mayPerform_mfence, ?_,
    fun b t x y => mem_tileSeen b t x, fun t n h => ⟨readF32_nan h, readI64_nan h⟩,
    fun t n m h hm => ⟨fun he => ⟨readF32_zero h hm he, readI64_zero h hm he⟩,
      fun e he => ⟨readI64_finite h hm he, readF32_finite h hm he⟩⟩, ?_, ?_, mstatWord_fields, ?_, ?_, ?_⟩
  · intro s k o picks g t xs ho
    exact performOp_instr ho picks
  · intro s k o picks g int t a b c xs ho
    exact performOp_instr ho picks
  · intro s k o picks g sh t ha hb n ia ib xs b x y ho hblk hx hy
    refine (performOp_instr ho picks).trans ?_
    show s.performMloop k o sh t ha hb n ia ib = _
    rw [State.performMloop, blockOf_eq hblk, hx, hy]
    rfl
  · intro s k o picks g l2 fmt h stride a b c xs x ho hb hx
    rw [performOp_instr ho]
    exact performMdesc_spec o l2 fmt h stride xs hb hx
  · intro s k o picks g xs b ho hb
    rw [performOp_instr ho]
    exact ⟨_, sameDevice_memory (sameDevice_modBlock ..), modBlock_at (fun _ => rfl) hb, rfl, rfl, rfl⟩
  · intro s k o picks g i64 t d a b xs c ho hb
    rw [performOp_instr ho]
    refine ⟨_, picked_mem_tileSeen c t.toNat (picks.headD 0), ?_⟩
    show s.performMread k o i64 t d xs picks = _
    rw [State.performMread, blockOf_eq hb]
  · intro s k o os g all t xs b ho hb
    rw [performEighth_mwait os ho]
    refine ⟨performMwait_of_none hb, fun hsome p hp l hl hsame => ?_⟩
    rw [performMwait_of_some hb hsome]
    obtain ⟨l', hl', hparked⟩ := laneAt_parkFor (f := fun o => .mwait o.ins all t.toNat (b.mwaitFor k.ci all t.toNat))
      (fun s o m hm => parkAfter_self s k o.lane 2 _ hm) (fun s o ho => parkAfter_other s k 2 _ ho) os s l hl rfl
      (fun q hq hlane => by rw [hsame q hq hlane]) (.inr ⟨p, hp, rfl⟩)
    exact ⟨l', hl', hparked.parked, hparked.act, hparked.regs, hparked.park⟩
  · intro s k o picks g d xs b ho hb
    refine (performOp_instr ho picks).trans ?_
    show s.performMstat k o d = _
    rw [State.performMstat, blockOf_eq hb]
  · intro s k o picks g d a xs b ho hb
    rw [performOp_instr ho]
    refine ⟨fun e he => ?_, fun hnone => ?_⟩
    · show s.performMstatLog k o d xs = _
      rw [State.performMstatLog, blockOf_eq hb, he]
      rfl
    · show s.performMstatLog k o d xs = _
      rw [State.performMstatLog, blockOf_eq hb, hnone]
  · intro s k o picks g t d xs b x ho hb hx
    refine (performOp_instr ho picks).trans ?_
    show s.performMstatExp k o t d = _
    rw [State.performMstatExp, blockOf_eq hb, hx]
    rfl
  · intro s k o picks g xs ho
    exact performOp_instr ho picks

end Sys2Proof.Proofs
end

