-- ==== Sys2Proof/Proofs/MatrixSteps.lean ====
section
/-! The K-steps of a running MLOOP (17_engines R257, R262 to R272). -/

namespace Sys2Proof.Proofs

open Sys2Proof.Machine Sys2Proof.Laws

/-! ### Reading operands leaves the tiles (R262, R269, R271) -/

theorem l2Pieces_aside (s : State) (b : Block) (fmt : MFmt) (va stride : Nat) (off : Int) (row : Nat) (int : Bool) :
    Aside s (s.l2Pieces b fmt va stride off row int).1 := by
  unfold State.l2Pieces
  dsimp only
  split
  · exact aside_refl s
  have hwalk := translate_aside s b.core none b.asid (BitVec.ofInt 64 (va + row * stride + off)).toNat 1 .read
  split
  next t _ ht => rwa [ht] at hwalk
  next t _ ht => rwa [ht] at hwalk
  next t x ht =>
    rw [ht] at hwalk
    split
    · exact hwalk
    split
    · exact hwalk
    have hrun := fun ty => translateRun_aside b.core none b.asid .read 8 t (BitVec.ofInt 64 (va + row * stride + off)).toNat (chunkBytes ty)
    split
    · exact aside_trans hwalk (hrun _)
    · exact aside_trans hwalk (hrun _)
    · split <;> exact aside_trans hwalk (hrun _)

theorem l2Reads_aside (s : State) (vf core : Nat) (ps : List Piece) : Aside s (ps.foldl (fun s p => s.l2Read vf core p) s) :=
  aside_foldl (fun _ _ => l2Read_aside ..) ps s

theorem handleChunk_aside (s : State) (b : Block) (m : MCmd) (h : Handle) (inc : Int) (sno row : Nat) (int : Bool) :
    Aside s (s.handleChunk b m h inc sno row int).1 := by
  unfold State.handleChunk
  split
  · exact aside_refl s
  · exact aside_refl s
  next fmt va stride _ =>
    have hwalk := l2Pieces_aside s b fmt va stride (inc * sno) row int
    unfold State.l2Chunk
    split
    next t c ht => rwa [ht] at hwalk
    next t x ty ps ht =>
      rw [ht] at hwalk
      split
      · exact hwalk
      · exact aside_trans hwalk (l2Reads_aside ..)

theorem chosenVals_aside (s : State) (t : Ty) (bs : List Byte) (old : List (List Byte)) : Aside s (s.chosenVals t bs old).1 := by
  unfold State.chosenVals
  dsimp only
  split
  · exact aside_refl s
  · exact aside_of rfl rfl

theorem cacheOperand_aside (s : State) (e : OpCache) : Aside s (s.cacheOperand e) := aside_of rfl rfl

/-- The tiles of a block stay as they are. -/
structure KeepsTiles (u : Nat) (s t : State) : Prop where
  kept : ∀ b, s.block? u = some b → ∃ b', t.block? u = some b' ∧ b'.tiles = b.tiles

section KeepsTiles
variable {u : Nat}

theorem keepsTiles_aside {s t : State} (h : Aside s t) : KeepsTiles u s t := ⟨fun b hb => ⟨b, (aside_block h u).trans hb, rfl⟩⟩

theorem keepsTiles_trans {s t v : State} (h : KeepsTiles u s t) (h' : KeepsTiles u t v) : KeepsTiles u s v := ⟨fun b hb => by
  obtain ⟨b', hb', htiles⟩ := h.kept b hb
  obtain ⟨b'', hb'', htiles'⟩ := h'.kept b' hb'
  exact ⟨b'', hb'', htiles'.trans htiles⟩⟩

theorem keepsTiles_modBlock (s : State) (v : Nat) {f : Block → Block} (huid : ∀ b, (f b).uid = b.uid) (hf : ∀ b, (f b).tiles = b.tiles) :
    KeepsTiles u s (s.modBlock v f) :=
  ⟨fun _ => rel_modBlock (R := fun b b' => b'.tiles = b.tiles) (fun _ => rfl) v huid fun b _ => hf b⟩

theorem operandFault_keepsTiles (s : State) (v id addr : Nat) : KeepsTiles u s (s.operandFault v id addr) := by
  unfold State.operandFault
  have hflag := keepsTiles_modBlock (u := u) s v (f := fun b => { b.modCmd id fun m => { m with reported := true } with opf := true })
    (fun _ => rfl) (fun _ => rfl)
  split
  · exact keepsTiles_aside (aside_refl s)
  · dsimp only
    split
    · exact keepsTiles_trans hflag (keepsTiles_aside (report_aside ..))
    · exact hflag

theorem noteEcc_keeps (b : Block) (m : MCmd) (row hnd stepNo : Nat) (hits : List Nat) :
    (b.noteEcc m row hnd stepNo hits).uid = b.uid ∧ (b.noteEcc m row hnd stepNo hits).tiles = b.tiles := by
  unfold Block.noteEcc
  dsimp only
  split <;> exact ⟨rfl, rfl⟩

theorem operandRow_keepsTiles (s : State) (v id side hnd : Nat) (h : Handle) (inc : Int) (row : Nat) (int : Bool) (cached ecc : List Nat)
    (stepNo : Nat) : KeepsTiles u s (s.operandRow v id side hnd h inc row int cached ecc stepNo).1 := by
  unfold State.operandRow
  split
  · exact keepsTiles_aside (aside_refl s)
  next b _ =>
  split
  · exact keepsTiles_aside (aside_refl s)
  next m _ =>
  have hread := keepsTiles_aside (u := u) (handleChunk_aside s b m h inc stepNo row int)
  have hmark := keepsTiles_trans hread (keepsTiles_modBlock _ v
    (f := (·.modCmd id fun m => { m with noted := deniedMark side row :: m.noted })) (fun _ => rfl) fun _ => rfl)
  dsimp only
  split
  · exact hread
  · split
    · exact hread
    · exact keepsTiles_trans hmark (keepsTiles_aside (denial_aside ..))
  · exact keepsTiles_trans hread (operandFault_keepsTiles ..)
  · refine keepsTiles_trans (keepsTiles_trans hread (keepsTiles_aside ?_))
      (keepsTiles_modBlock _ v (f := (·.noteEcc m row hnd stepNo _)) (fun b => (noteEcc_keeps b ..).1) fun b => (noteEcc_keeps b ..).2)
    split
    · exact chosenVals_aside ..
    · exact aside_trans (cacheOperand_aside ..) (chosenVals_aside ..)

theorem operandRows_keepsTiles (v id side hnd : Nat) (h : Handle) (inc : Int) (int : Bool) (cached ecc : List Nat) (stepNo : Nat) :
    ∀ (rows : List Nat) (s : State), KeepsTiles u s (State.operandRows v id side hnd h inc int cached ecc stepNo rows s).1
  | [], s => keepsTiles_aside (aside_refl s)
  | r :: rs, s => by
    have hrow := operandRow_keepsTiles (u := u) s v id side hnd h inc r int cached ecc stepNo
    rw [State.operandRows]
    split
    next t e ht => rwa [ht] at hrow
    next t vs ht =>
      rw [ht] at hrow
      have hrest := keepsTiles_trans hrow (operandRows_keepsTiles v id side hnd h inc int cached ecc stepNo rs t)
      split
      next t' e ht' => rwa [ht'] at hrest
      next t' vss ht' => rwa [ht'] at hrest

end KeepsTiles

/-! ### Reading ahead (R270) -/

theorem l2Mapped_aside (s : State) (f : L2Line → L2Line) : Aside s { s with l2 := s.l2.map f } := aside_of rfl rfl

theorem fetchRows_aside (s : State) (b : Block) (hnd step : Nat) (h : Handle) (int : Bool) (off : Int) (rows : Nat) :
    Aside s (s.fetchRows b hnd step h int off rows) := by
  unfold State.fetchRows
  split
  · exact aside_trans (l2Reads_aside ..) (aside_of rfl rfl)
  · exact aside_refl s

theorem fetchAhead_aside (s : State) (b : Block) (kind : MKind) (int : Bool) (n : Nat) : Aside s (s.fetchAhead b kind int n) := by
  unfold State.fetchAhead
  split
  · exact aside_foldl (fun _ _ => aside_trans (fetchRows_aside ..) (fetchRows_aside ..)) _ s
  · exact aside_refl s

/-! ### What a step makes of an element (R265 to R267) -/

theorem stepInt_element {t : Tile} {xs : List Int} {j : Nat} {a x : Int} (ha : t.m[j]? = some a) (hx : xs[j]? = some x) :
    (t.stepInt xs).m[j]? = some (if a = nanM then nanM else max (-maxM) (min (a + x) maxM)) := by
  have hzip : (t.m.zip xs)[j]? = some (a, x) := List.getElem?_zip_eq_some.mpr ⟨ha, hx⟩
  simp only [Tile.stepInt, List.getElem?_map, hzip, Option.map_some]

theorem step_nan {t : Tile} {xs : List FVal} {j : Nat} {x : FVal} (ha : t.m[j]? = some nanM) (hx : xs[j]? = some x) :
    (t.step xs).m[j]? = some nanM := by
  have hzip : (t.m.zip xs)[j]? = some (nanM, x) := List.getElem?_zip_eq_some.mpr ⟨ha, hx⟩
  have hps : ((t.m.zip xs).map fun p => if (decide (p.1 = nanM) || !p.2.isFin) = true then (nanM, p.2) else p)[j]? = some (nanM, x) := by
    rw [List.getElem?_map, hzip]
    simp only [Option.map_some, decide_true, Bool.true_or, if_true]
  unfold Tile.step
  dsimp only
  split
  · split
    · rw [List.getElem?_map, hps]; rfl
    · rw [List.getElem?_map, hps]; rfl
  · split
    · rw [List.getElem?_map, ha]; rfl
    · rw [List.getElem?_map, hps]; rfl

/-! ### A step (R263, R265) -/

/-- A step's tile as the step leaves it. -/
def stepTile (int : Bool) (old : Tile) (ra rb : List (List FVal)) : Tile :=
  let sums := ra.flatMap fun x => rb.map fun y => stepElement x y
  { (if int then old.stepInt (sums.map (·.onGrid 0)) else old.step sums) with kind := if int then .int else .float }

/-- The block after a step: its tile is set, and its command stands at the next step. -/
def Block.stepped (tile : Nat) (new : Tile) (id step : Nat) (note : List Nat → List Nat) (b : Block) : Block :=
  (b.setTile tile new).modCmd id fun c => { c with step := step, noted := note c.noted }

/-- What follows a step: the command completes, the next operands are read ahead, or nothing. -/
theorem afterStep_tiles {s s' : State} {u : Nat} {b : Block} (hb : s.block? u = some b) (h : (∃ id, s' = s.mDone u id) ∨ Aside s s') :
    ∃ b', s'.block? u = some b' ∧ b'.tiles = b.tiles := by
  obtain ⟨id, rfl⟩ | haside := h
  · obtain ⟨b', hb', htiles, -⟩ := mDone_block (id := id) hb
    exact ⟨b', hb', htiles⟩
  · exact ⟨b, (aside_block haside u).trans hb, rfl⟩

section Step
variable {s : State} {u : Nat} {b : Block} {m : MCmd} {rest : List MCmd} {sh : Shape} {t n ha hb : Nat} {fa fb : Handle} {ia ib : Int}
  (hblk : s.block? u = some b) (hq : b.mcmds = m :: rest) (hbegun : m.begun = true) (hk : m.kind = .mloop sh t n ha hb fa fb ia ib)
  (cached ecc : List Nat)
include hblk hq hbegun hk

theorem exec_kstep_stopped (hstops : b.unitStops = true) (hstart : m.step % (sh.dims.1 * sh.dims.2) = 0) :
    exec (.matrixKstep u cached ecc) s = .next s := by
  obtain ⟨id, crew, lane, oid, pc, kind, begun, int, reported, step, home, sp, noted⟩ := m
  cases hbegun
  cases hk
  show execMatrixKstep u cached ecc s = _
  simp only [execMatrixKstep, hblk, hq]
  exact if_pos (by rw [hstops]; exact decide_eq_true hstart)

theorem exec_kstep {s1 s2 : State} {ra rb : List (List FVal)} (hruns : b.unitStops = false ∨ m.step % (sh.dims.1 * sh.dims.2) ≠ 0)
    (hra : State.operandRows u m.id 0 ha fa ia m.int cached ecc (m.step / (sh.dims.1 * sh.dims.2))
      ((List.range 64).map (· + 64 * (m.step % (sh.dims.1 * sh.dims.2) / sh.dims.2))) s = (s1, .ok ra))
    (hrb : State.operandRows u m.id 1 hb fb ib m.int cached ecc (m.step / (sh.dims.1 * sh.dims.2))
      ((List.range 64).map (· + 64 * (m.step % (sh.dims.1 * sh.dims.2) % sh.dims.2))) s1 = (s2, .ok rb)) :
    ∃ s' b', exec (.matrixKstep u cached ecc) s = .next s' ∧ s'.block? u = some b'
      ∧ b'.tiles = b.tiles.set (t + m.step % (sh.dims.1 * sh.dims.2))
          (stepTile m.int ((b.tiles[t + m.step % (sh.dims.1 * sh.dims.2)]?).getD Tile.zero) ra rb) := by
  obtain ⟨id, crew, lane, oid, pc, kind, begun, int, reported, step, home, sp, noted⟩ := m
  cases hbegun
  cases hk
  dsimp only at hruns hra hrb ⊢
  have hgo : (b.unitStops && decide (step % (sh.dims.1 * sh.dims.2) = 0)) = false := by
    rcases hruns with hstops | hstep
    · rw [hstops, Bool.false_and]
    · rw [decide_eq_false hstep, Bool.and_false]
  have hread : KeepsTiles u s s2 := by
    have ha := operandRows_keepsTiles (u := u) u id 0 ha fa ia int cached ecc (step / (sh.dims.1 * sh.dims.2))
      ((List.range 64).map (· + 64 * (step % (sh.dims.1 * sh.dims.2) / sh.dims.2))) s
    have hb := operandRows_keepsTiles (u := u) u id 1 hb fb ib int cached ecc (step / (sh.dims.1 * sh.dims.2))
      ((List.range 64).map (· + 64 * (step % (sh.dims.1 * sh.dims.2) % sh.dims.2))) s1
    rw [hra] at ha
    rw [hrb] at hb
    exact keepsTiles_trans ha hb
  obtain ⟨b2, hb2, htiles2⟩ := hread.kept b hblk
  let tile := t + step % (sh.dims.1 * sh.dims.2)
  let new := stepTile int ((b.tiles[tile]?).getD Tile.zero) ra rb
  let after := Block.stepped tile new id (step + 1)
    fun noted => if step % (sh.dims.1 * sh.dims.2) + 1 = sh.dims.1 * sh.dims.2 then [] else noted
  have hset : ((s2.modBlock u after).count b.vf 3 fun _ => true).block? u = some (after b2) :=
    (count_block ..).trans (modBlock_at (f := after) (fun _ => rfl) hb2)
  have htiles : (after b2).tiles = b.tiles.set tile new := congrArg (fun ts => ts.set tile new) htiles2
  have hafter : ∀ s' : State, ((∃ id, s' = ((s2.modBlock u after).count b.vf 3 fun _ => true).mDone u id)
      ∨ Aside ((s2.modBlock u after).count b.vf 3 fun _ => true) s') →
      ∃ t b', (.next s' : Host.Outcome State Fault Refusal) = .next t ∧ t.block? u = some b' ∧ b'.tiles = b.tiles.set tile new :=
    fun s' h => ⟨s', (afterStep_tiles hset h).imp fun _ h => ⟨rfl, h.1, h.2.trans htiles⟩⟩
  show ∃ s' b', execMatrixKstep u cached ecc s = .next s' ∧ s'.block? u = some b' ∧ b'.tiles = b.tiles.set tile new
  simp only [execMatrixKstep, hblk, hq, hra, hrb, hgo, Bool.false_eq_true, if_false]
  split
  · exact hafter _ (.inl ⟨id, rfl⟩)
  split
  · exact hafter _ (.inr (aside_trans (l2Mapped_aside _ _) (fetchAhead_aside ..)))
  · exact hafter _ (.inr (aside_refl _))

end Step

/-- Settles O36: what a step makes of its tile, and of an element. -/
theorem matrixStepsAccumulate : Obligations.MatrixStepsAccumulate := by
  unfold Obligations.MatrixStepsAccumulate
  refine ⟨fun s u cached ecc b m rest sh t n ha hb fa fb ia ib s1 s2 ra rb hblk hq hbegun hk =>
      ⟨exec_kstep_stopped hblk hq hbegun hk cached ecc, exec_kstep hblk hq hbegun hk cached ecc⟩,
    fun t xs j a x ha hx hne => ?_, fun t xs j x ha hx => ?_, fun t xs j x => step_nan⟩
  · rw [stepInt_element ha hx, if_neg hne]
  · rw [stepInt_element ha hx, if_pos rfl]

end Sys2Proof.Proofs
end

