-- ==== Sys2Proof/Proofs/Copies.lean ====
section
/-! What the pieces and the markers of a copy command move (16_program_expert R254, R255; 17_engines R274 to R280). -/

namespace Sys2Proof.Proofs

open Sys2Proof.Machine Sys2Proof.Laws

/-! ### Which piece performs (R276, R278) -/

section Piece
variable {s : State} {u n i p : Nat} {b : Block} {c : CCmd} (hb : s.block? u = some b) (hc : b.ccmds[n]? = some c)
include hb hc

theorem execCopyPiece_none (ecc : Bool) (h : c.done.contains (i, p) = true ∨ c.rows ≤ i ∨ (p < c.pieceCount i ∧ c.mayPiece i p = false)) :
    execCopyPiece u n i p ecc s = .next s := by
  simp only [execCopyPiece, hb, hc]
  by_cases hgone : (decide (c.rows ≤ i) || c.done.contains (i, p)) = true
  · exact if_pos hgone
  · have hlater : p < c.pieceCount i ∧ c.mayPiece i p = false := by
      simp only [Bool.or_eq_true, decide_eq_true_eq, not_or] at hgone
      exact (h.resolve_left hgone.2).resolve_left hgone.1
    rw [if_neg hgone, if_neg (Nat.not_le.mpr hlater.1), hlater.2]
    rfl

theorem execCopyPiece_scale (ecc : Bool) (hi : i < c.rows) (hp : c.pieceCount i ≤ p) (hdone : c.done.contains (i, p) = false) :
    execCopyPiece u n i p ecc s = .next (if (List.range (c.pieceCount i)).all (fun q => c.done.contains (i, q)) then
      s.scalePiece b c i (p - c.pieceCount i) ecc else s) := by
  simp only [execCopyPiece, hb, hc, hdone, Nat.not_le.mpr hi, hp, decide_false, Bool.or_self, Bool.false_eq_true, if_false, if_true]

variable (hi : i < c.rows) (hp : p < c.pieceCount i) (hmay : c.mayPiece i p = true)
include hi hp hmay

theorem execCopyPiece_data (ecc : Bool) : execCopyPiece u n i p ecc s =
    if c.kind.reads then .next (s.readCopyPiece b c i p ecc)
    else match c.rowGlobal i with
      | some _ => .next (s.writeCopyPiece b c i p)
      | none => .next ((s.land b c ((c.rowScratch i).getD 0 + (c.piece i p).1) (c.sourceBytes b i (c.piece i p).1 (c.piece i p).2)).modCmd
          u c.id fun c => { c with done := (i, p) :: c.done }) := by
  have hdone : c.done.contains (i, p) = false := by
    have h := (Bool.and_eq_true_iff.mp hmay).1
    simpa only [Bool.not_eq_true'] using h
  simp only [execCopyPiece, hb, hc, hdone, Nat.not_le.mpr hi, Nat.not_le.mpr hp, hmay, decide_false, Bool.or_self, Bool.false_eq_true,
    if_false, Bool.not_true] <;> rfl

end Piece

/-! ### A data piece that is read from global memory (R254, R255, R278) -/

/-- Bytes land at the place of a piece, which has then performed. -/
def landed (s : State) (b : Block) (c : CCmd) (i p : Nat) (bs : List Byte) (bad : Bool) : State :=
  (s.land b c ((c.rowScratch i).getD 0 + (c.piece i p).1) bs).modCmd b.uid c.id fun c =>
    { c with done := (i, p) :: c.done, bad := if bad then (i :: c.bad).dedup else c.bad }

section Read
variable {s t : State} {b : Block} {c : CCmd} {i p : Nat}

theorem readCopyPiece_ok {x : Piece}
    (h : s.checkPiece b (((c.rowGlobal i).getD 0 + (c.piece i p).1) % 2 ^ 64) (c.piece i p).2 .read = (t, .ok x)) :
    s.readCopyPiece b c i p false = landed (t.engineRead b.vf b.core x).1 b c i p (t.engineRead b.vf b.core x).2 false := by
  simp only [State.readCopyPiece, h]
  rfl

theorem readCopyPiece_uncorrectable {x : Piece}
    (h : s.checkPiece b (((c.rowGlobal i).getD 0 + (c.piece i p).1) % 2 ^ 64) (c.piece i p).2 .read = (t, .ok x)) :
    s.readCopyPiece b c i p true =
      landed (t.modBlock b.uid fun b => { b with cecc := true }) b c i p (List.replicate (c.piece i p).2 0) false := by
  simp only [State.readCopyPiece, h]
  rfl

theorem readCopyPiece_fault (ecc : Bool)
    (h : s.checkPiece b (((c.rowGlobal i).getD 0 + (c.piece i p).1) % 2 ^ 64) (c.piece i p).2 .read = (t, .fault)) :
    s.readCopyPiece b c i p ecc = landed (t.copyFault b c (((c.rowGlobal i).getD 0 + (c.piece i p).1) % 2 ^ 64)) b c i p
      (List.replicate (c.piece i p).2 0) true := by
  simp only [State.readCopyPiece, h]
  rfl

theorem readCopyPiece_denied (ecc : Bool) {sl : Nat × Bool}
    (h : s.checkPiece b (((c.rowGlobal i).getD 0 + (c.piece i p).1) % 2 ^ 64) (c.piece i p).2 .read = (t, .denied sl)) :
    s.readCopyPiece b c i p ecc = landed (t.copyDenied b c (((c.rowGlobal i).getD 0 + (c.piece i p).1) % 2 ^ 64) false sl) b c i p
      (List.replicate (c.piece i p).2 0) true := by
  simp only [State.readCopyPiece, h]
  rfl

end Read

/-! ### A data piece that is written to global memory (R274, R278, R299) -/

/-- What a written piece comes to by its check: the write, a fault, a denial or a wait. -/
def writePiece (s : State) (b : Block) (c : CCmd) (i p : Nat) (va n : Nat) (kind : AccKind) (w : State → Piece → State) : State :=
  let fin := fun (s : State) => s.modCmd b.uid c.id fun c => { c with done := (i, p) :: c.done }
  match s.checkPiece b va n kind with
  | (s, .wait w) => s.askResidency b c.crew c.lane va c.pc w
  | (s, .fault) => fin (s.copyFault b c va)
  | (s, .denied sl) => fin (s.copyDenied b c va true sl)
  | (s, .ok x) => fin (w s x)

section Write
variable {s : State} {b x : Block} {c : CCmd} {i p a : Nat} (hx : s.block? b.uid = some x) (ha : c.rowGlobal i = some a)

theorem writePiece_cases (s : State) (b : Block) (c : CCmd) (i p va n : Nat) (kind : AccKind) (w : State → Piece → State) :
    (∀ t q, s.checkPiece b va n kind = (t, .ok q) →
      writePiece s b c i p va n kind w = (w t q).modCmd b.uid c.id fun c => { c with done := (i, p) :: c.done })
    ∧ (∀ t, s.checkPiece b va n kind = (t, .fault) →
      writePiece s b c i p va n kind w = (t.copyFault b c va).modCmd b.uid c.id fun c => { c with done := (i, p) :: c.done })
    ∧ (∀ t sl, s.checkPiece b va n kind = (t, .denied sl) →
      writePiece s b c i p va n kind w = (t.copyDenied b c va true sl).modCmd b.uid c.id fun c => { c with done := (i, p) :: c.done })
    ∧ ∀ t v, s.checkPiece b va n kind = (t, .wait v) → writePiece s b c i p va n kind w = t.askResidency b c.crew c.lane va c.pc v := by
  refine ⟨fun t q h => ?_, fun t h => ?_, fun t sl h => ?_, fun t v h => ?_⟩ <;> simp only [writePiece, h]

include hx ha

theorem writeCopyPiece_plain (hk : ∀ ty base st ix src, c.kind ≠ .scatadd ty base st ix src) : s.writeCopyPiece b c i p =
    writePiece s b c i p ((a + (c.piece i p).1) % 2 ^ 64) (c.piece i p).2 .write fun t q =>
      t.engineWrite b.vf b.uid q (c.sourceBytes x i (c.piece i p).1 (c.piece i p).2) := by
  unfold State.writeCopyPiece
  cases hkind : c.kind with
  | scatadd ty base st ix src => exact absurd hkind (hk ty base st ix src)
  | gather | scatter | spsp | fill =>
    simp only [hx, ha, Option.getD_some]
    rfl

variable {ty : Ty} {base st ix src : Nat} (hk : c.kind = .scatadd ty base st ix src)
include hk

theorem writeCopyPiece_misaligned (h : a % (addAcc ty).size ≠ 0) : s.writeCopyPiece b c i p =
    (s.copyFault b c ((a + (c.piece i p).1) % 2 ^ 64)).modCmd b.uid c.id fun c => { c with done := (i, p) :: c.done } := by
  unfold State.writeCopyPiece
  simp only [hx, ha, Option.getD_some, hk]
  exact if_pos h

theorem writeCopyPiece_add (h : a % (addAcc ty).size = 0) : s.writeCopyPiece b c i p =
    writePiece s b c i p ((a + (c.piece i p).1) % 2 ^ 64) (c.piece i p).2 .red fun t q =>
      t.addElements b q ty (c.sourceBytes x i (c.piece i p).1 (c.piece i p).2) := by
  unfold State.writeCopyPiece
  simp only [hx, ha, Option.getD_some, hk]
  exact if_neg (not_not_intro h)

end Write

theorem memBytes_get (m : List Host.Cell) (a : Nat) {n j : Nat} (h : j < n) : (memBytes m a n)[j]? = some (memRead m (a + j)) := by
  simp only [memBytes, List.getElem?_map, List.getElem?_range h, Option.map_some]

/-- An engine's write at home: its bytes read as written, and every other byte as the L2 then has it (R179). -/
theorem engineWrite_reads {s : State} (vf u : Nat) (p : Piece) (bs : List Byte) (hw : memWf s.mem = true) :
    (∀ j, j < bs.length → (s.engineWrite vf u p bs).readAt p.key (s.now + 1) (p.home + j) = bs[j]?.getD 0)
    ∧ ∀ y, y < p.home ∨ p.home + bs.length ≤ y →
        (s.engineWrite vf u p bs).readAt p.key (s.now + 1) y = (s.l2Write vf p .none).readAt p.key s.now y := by
  have hnow : s.now = (s.l2Write vf p .none).now := (onlyL2_now (l2Write_only ..)).symm
  have hw' : memWf (s.l2Write vf p .none).mem = true := (onlyL2_mem (l2Write_only s vf p .none)).symm ▸ hw
  refine ⟨fun j hj => ?_, fun y hy => ?_⟩
  · rw [State.engineWrite, owesHost_reads, hnow, List.getElem?_eq_getElem hj]
    exact writeHome_reads p.key p.home bs hw' (List.getElem?_eq_getElem hj)
  · rw [State.engineWrite, owesHost_reads, hnow]
    exact writeHome_reads_other p.key p.home bs hw' hy

/-! ### Scale words (R254, R274, R278) -/

theorem rowScales_spec {s : State} {b : Block} {c : CCmd} {i m ia vf : Nat} {d : BitVec 256} (h : s.rowScales b c i = some (m, ia, d, vf)) :
    ∃ va n o, c.rowGlobal i = some va ∧ s.walk b.asid va = .ok (o, d, vf) ∧ n = chunkBytes (fmtTy (d1Fmt d)) ∧ d1Fmt d ≠ 0
      ∧ m = c.rb / n ∧ ia = d1Spb d * 4096 + (va - d1Base d * 4096) / n * 4 := by
  unfold State.rowScales at h
  split at h
  next va hkind hva =>
    split at h
    · cases h
    split at h
    · cases h
    next o d' vf' hwalk =>
      by_cases hfmt : d1Fmt d' = 0
      · simp [hfmt] at h
      · simp only [hfmt, if_false] at h
        split at h
        · cases h
        · cases h
          exact ⟨va, _, o, hva, hwalk, rfl, hfmt, rfl, rfl⟩
  · cases h

/-- A scale word lands at its place after the rows, where that lies within the scratchpad, and is counted (R254, R302). -/
def landScale (s : State) (b : Block) (c : CCmd) (i j dst : Nat) (w : List Byte) : State :=
  (if dst + 4 ≤ b.scratchSize then s.land b c dst w else s.copyFault b c dst).modCmd b.uid c.id fun c =>
    { c with
      done := (i, c.pieceCount i + j) :: c.done
      scaled := (i, ((c.scaled.lookup i).getD 0) + 4) :: c.scaled.filter (·.1 != i) }

theorem scalePiece_beyond {s : State} {b : Block} {c : CCmd} {i m ia vf : Nat} {d : BitVec 256}
    (h : s.rowScales b c i = some (m, ia, d, vf)) (j : Nat) (ecc : Bool) (hj : m ≤ j) : s.scalePiece b c i j ecc = s := by
  simp only [State.scalePiece, h, hj, if_true]

section Scale
variable {s : State} {b : Block} {c : CCmd} {i j m ia vf va : Nat} {d : BitVec 256} {base st dst ds : Nat} {ix : Option Nat} {mc : Bool}
  (h : s.rowScales b c i = some (m, ia, d, vf)) (hj : j < m) (hk : c.kind = .gather base st ix dst ds mc)
include h hj hk

theorem scalePiece_bad (ecc : Bool) (hbad : i ∈ c.bad) :
    s.scalePiece b c i j ecc = landScale s b c i j (dst + c.rows * ds + 4 * (i * m + j)) (List.replicate 4 0) := by
  simp only [State.scalePiece, h, Nat.not_le.mpr hj, List.contains_iff_mem.mpr hbad, hk, if_false, if_true]
  rfl

variable (hva : c.rowGlobal i = some va) (hgood : i ∉ c.bad)
include hva hgood

theorem scalePiece_fault (ecc : Bool) (hplane : s.planePiece vf va (ia + 4 * j) 4 d = none) : s.scalePiece b c i j ecc =
    landScale (s.copyFault b c va) b c i j (dst + c.rows * ds + 4 * (i * m + j)) (List.replicate 4 0) := by
  have hbad : c.bad.contains i = false := Bool.eq_false_iff.mpr fun hmem => hgood (List.contains_iff_mem.mp hmem)
  simp only [State.scalePiece, h, Nat.not_le.mpr hj, hbad, hk, hva, Option.getD_some, hplane, Bool.false_eq_true, if_false]
  rfl

variable {q : Piece} (hplane : s.planePiece vf va (ia + 4 * j) 4 d = some q)
include hplane

theorem scalePiece_uncorrectable : s.scalePiece b c i j true = landScale (s.modBlock b.uid fun b => { b with cecc := true }) b c i j
    (dst + c.rows * ds + 4 * (i * m + j)) (List.replicate 4 0) := by
  have hbad : c.bad.contains i = false := Bool.eq_false_iff.mpr fun hmem => hgood (List.contains_iff_mem.mp hmem)
  simp only [State.scalePiece, h, Nat.not_le.mpr hj, hbad, hk, hva, Option.getD_some, hplane, Bool.false_eq_true, if_false, if_true]
  rfl

theorem scalePiece_denied {sl : Nat × Bool} (hdenied : s.denies b.part b.clr q = some sl) : s.scalePiece b c i j false =
    landScale (s.copyDenied b c va false sl) b c i j (dst + c.rows * ds + 4 * (i * m + j)) (List.replicate 4 0) := by
  have hbad : c.bad.contains i = false := Bool.eq_false_iff.mpr fun hmem => hgood (List.contains_iff_mem.mp hmem)
  simp only [State.scalePiece, h, Nat.not_le.mpr hj, hbad, hk, hva, Option.getD_some, hplane, hdenied, Bool.false_eq_true, if_false]
  rfl

theorem scalePiece_read (hopen : s.denies b.part b.clr q = none) : s.scalePiece b c i j false =
    landScale (s.engineRead b.vf b.core q).1 b c i j (dst + c.rows * ds + 4 * (i * m + j)) (s.engineRead b.vf b.core q).2 := by
  have hbad : c.bad.contains i = false := Bool.eq_false_iff.mpr fun hmem => hgood (List.contains_iff_mem.mp hmem)
  simp only [State.scalePiece, h, Nat.not_le.mpr hj, hbad, hk, hva, Option.getD_some, hplane, hopen, Bool.false_eq_true, if_false]
  rfl

end Scale

/-! ### Markers (R180, R254, R277, R279) -/

section Marker
variable {s : State} {u n : Nat} {b : Block} {c : CCmd} (hb : s.block? u = some b) (hc : b.ccmds[n]? = some c)
include hb hc

theorem execCopyMarker_undone (h : ((List.range (c.nextMark - c.marked)).map (· + c.marked)).all (s.rowDone b c) = false) :
    execCopyMarker u n s = .next s := by
  simp only [execCopyMarker, hb, hc, h, Bool.false_eq_true, if_false]

variable (hdone : ((List.range (c.nextMark - c.marked)).map (· + c.marked)).all (s.rowDone b c) = true)
include hdone

theorem execCopyMarker_one {r : Nat} (howed : (if c.owed.isEmpty then s.landings b c else c.owed) = [r]) : execCopyMarker u n s =
    .next (let t := s.arriveAt r c.aw (((List.range (c.nextMark - c.marked)).map (· + c.marked)).foldl
        (fun x i => x + c.rb + (c.scaled.lookup i).getD 0) 0)
      if c.nextMark = c.rows then (t.modBlock u fun b => { b with ccmds := b.ccmds.filter (·.id != c.id) }).settleCrews u
      else t.modCmd u c.id fun c => { c with marked := c.nextMark, owed := [] }) := by
  simp only [execCopyMarker, hb, hc, hdone, howed, if_true, List.length_singleton, Nat.le_refl, Nat.zero_mod, List.getElem?_cons_zero,
    Option.getD_some, bne_self_eq_false, Bool.false_eq_true, if_false]

theorem execCopyMarker_several {owed : List Nat} (howed : (if c.owed.isEmpty then s.landings b c else c.owed) = owed)
    (hlen : 2 ≤ owed.length) : ∃ r, r ∈ owed ∧ execCopyMarker u n s = .next
      ((({ s with draws := s.draws + 1 } : State).arriveAt r c.aw (((List.range (c.nextMark - c.marked)).map (· + c.marked)).foldl
        (fun x i => x + c.rb + (c.scaled.lookup i).getD 0) 0)).modCmd u c.id fun c => { c with owed := owed.filter (· != r) }) := by
  have hlt : Config.freeNat s.draws % owed.length < owed.length := Nat.mod_lt _ (by omega)
  refine ⟨owed[Config.freeNat s.draws % owed.length], List.getElem_mem hlt, ?_⟩
  have hmany : ∀ r, (owed != [r]) = true := fun r => bne_iff_ne.mpr fun h => by rw [h] at hlen; exact absurd hlen (by simp)
  simp only [execCopyMarker, hb, hc, hdone, howed, if_true]
  simp only [Nat.not_le.mpr hlen, if_false, State.draw, List.getElem?_eq_getElem hlt, Option.getD_some, hmany, if_true]

end Marker

/-- Settles O37: which piece performs, what it brings where, and when a marker passes. -/
theorem copiesMove : Obligations.CopiesMove := by
  unfold Obligations.CopiesMove
  refine ⟨⟨?_, ?_, ?_⟩, ⟨?_, ?_, fun s vf u p bs => engineWrite_reads vf u p bs, fun _ _ _ _ _ => rfl, ?_, ?_, ?_⟩, ?_⟩
  · exact fun s u n i p ecc b c hb hc => execCopyPiece_none hb hc ecc
  · exact fun s u n i p ecc b c hb hc => execCopyPiece_scale hb hc ecc
  · intro s u n i p b c hb hc hi hp hmay
    obtain rfl := block_uid hb
    have hexec := execCopyPiece_data hb hc hi hp hmay
    refine ⟨fun hreads => ?_, fun hreads a ecc ha => ?_, fun hreads ecc ha => ?_⟩
    · have hread : ∀ ecc, exec (.copyPiece b.uid n i p ecc) s = .next (s.readCopyPiece b c i p ecc) := fun ecc =>
        (hexec ecc).trans (if_pos hreads)
      exact ⟨fun t x h => (hread false).trans (congrArg _ (readCopyPiece_ok h)),
        fun t ecc h => (hread ecc).trans (congrArg _ (readCopyPiece_fault ecc h)),
        fun t sl ecc h => (hread ecc).trans (congrArg _ (readCopyPiece_denied ecc h)),
        fun t x h => (hread true).trans (congrArg _ (readCopyPiece_uncorrectable h))⟩
    · refine (hexec ecc).trans ((if_neg (Bool.eq_false_iff.mp hreads)).trans ?_)
      rw [ha]
    · refine (hexec ecc).trans ((if_neg (Bool.eq_false_iff.mp hreads)).trans ?_)
      rw [ha]
  · intro s b c i p x a hx ha
    refine ⟨fun hk => ?_, fun ty base st ix src hk => ⟨writeCopyPiece_misaligned hx ha hk, fun halign => ?_⟩⟩
    · rw [writeCopyPiece_plain hx ha hk]
      exact writePiece_cases ..
    · rw [writeCopyPiece_add hx ha hk halign]
      exact writePiece_cases ..
  · intro c b i lo n j hj
    unfold CCmd.sourceBytes
    cases c.kind with
    | fill pat glob dst ds => simp only [List.getElem?_map, List.getElem?_range hj, Option.map_some, fillByte]
    | spsp src ss dst ds => exact memBytes_get _ _ hj
    | gather | scatter | scatadd => exact memBytes_get _ _ hj
  · intro s b c i j ecc h
    simp only [State.scalePiece, h]
  · exact fun s b c i m ia d vf h => ⟨scalePiece_beyond h, rowScales_spec h⟩
  · intro s b c i j m ia d vf va base st ix dst ds mc h hj hva hk
    exact ⟨scalePiece_bad h hj hk, fun ecc hgood => scalePiece_fault h hj hk hva hgood ecc, fun q hgood hplane =>
      ⟨scalePiece_uncorrectable h hj hk hva hgood hplane, fun sl => scalePiece_denied h hj hk hva hgood hplane,
        scalePiece_read h hj hk hva hgood hplane⟩⟩
  · intro s u n b c hb hc
    refine ⟨execCopyMarker_undone hb hc, fun hdone => ⟨fun r howed hmore => ?_, fun r howed hlast => ?_, fun hlen _ => ?_⟩⟩
    · exact (execCopyMarker_one hb hc hdone howed).trans (congrArg _ (if_neg hmore))
    · exact (execCopyMarker_one hb hc hdone howed).trans (congrArg _ (if_pos hlast))
    · exact execCopyMarker_several hb hc hdone rfl hlen

end Sys2Proof.Proofs
end

