-- ==== Sys2Proof/Proofs/Collectives.lean ====
section
/-! The collective instructions and CSTAT as they perform, and what the collective engines move (17_engines R281 to R287;
18_engine_instructions R303 to R307). -/

namespace Sys2Proof.Proofs

open Sys2Proof.Machine Sys2Proof.Laws

/-! ### XGRP (R304, R305) -/

section Xgrp
variable {s : State} {k : Ctx} {o : Op} {g : Guard} {slot : BitVec 4} {len : Nat} {xs : List DWord}

theorem performXgrp_live (h : (((s.blockOf k).groups[slot.toNat]?).getD none).isSome = true) :
    s.performXgrp k o g slot len xs = s.trapTakers k g .collError (BitVec.ofNat 64 (xs.headD 0).toNat) := by
  simp only [State.performXgrp, h, if_true]

variable (hfree : (((s.blockOf k).groups[slot.toNat]?).getD none).isSome = false)
include hfree

theorem performXgrp_header :
    (∀ s1 c x, s.checkRun k.b.core k.b.asid k.b.part k.b.clr (xs.headD 0).toNat 32 .read = (s1, .fault c x) →
      s.performXgrp k o g slot len xs = s1.trapTakers k g .collError (BitVec.ofNat 64 (xs.headD 0).toNat))
    ∧ (∀ s1 sl x, s.checkRun k.b.core k.b.asid k.b.part k.b.clr (xs.headD 0).toNat 32 .read = (s1, .denied sl x) →
      s.performXgrp k o g slot len xs = (s1.denyColl k.b.part k.b.vf x (s1.oidOf k o.lane) k.b.launch k.b.core false sl).trapTakers k g
        .collError (BitVec.ofNat 64 (xs.headD 0).toNat))
    ∧ ∀ s1 w x, s.checkRun k.b.core k.b.asid k.b.part k.b.clr (xs.headD 0).toNat 32 .read = (s1, .wait w x) →
      s.performXgrp k o g slot len xs = s1.parkTakers k g x w := by
  refine ⟨fun s1 c x h => ?_, fun s1 sl x h => ?_, fun s1 w x h => ?_⟩ <;>
    simp only [State.performXgrp, hfree, h, Bool.false_eq_true, if_false]

variable {s1 : State} {ps : List Piece}
  (hheader : s.checkRun k.b.core k.b.asid k.b.part k.b.clr (xs.headD 0).toNat 32 .read = (s1, .ok ps))
include hheader

theorem performXgrp_badCount (h : recCount (s1.readRun k.b.vf k.b.core ps).2 = none) : s.performXgrp k o g slot len xs =
    (s1.readRun k.b.vf k.b.core ps).1.trapTakers k g .collError (BitVec.ofNat 64 (xs.headD 0).toNat) := by
  simp only [State.performXgrp, hfree, hheader, h, Bool.false_eq_true, if_false]

variable {n : Nat} {s3 : State} {qs : List Piece} (hn : recCount (s1.readRun k.b.vf k.b.core ps).2 = some n)
  (hrecord : (s1.readRun k.b.vf k.b.core ps).1.checkRun k.b.core k.b.asid k.b.part k.b.clr (xs.headD 0).toNat (32 + 16 * n) .read
    = (s3, .ok qs))
include hn hrecord

theorem performXgrp_badRecord
    (h : (s3.readRun k.b.vf k.b.core qs).1.groupRec k.b (xs.headD 0).toNat (s3.readRun k.b.vf k.b.core qs).2 = none) :
    s.performXgrp k o g slot len xs =
      (s3.readRun k.b.vf k.b.core qs).1.trapTakers k g .collError (BitVec.ofNat 64 (xs.headD 0).toNat) := by
  simp only [State.performXgrp, hfree, hheader, hn, hrecord, h, Bool.false_eq_true, if_false]

theorem performXgrp_declares {gr : Group}
    (h : (s3.readRun k.b.vf k.b.core qs).1.groupRec k.b (xs.headD 0).toNat (s3.readRun k.b.vf k.b.core qs).2 = some gr) :
    s.performXgrp k o g slot len xs = ((s3.readRun k.b.vf k.b.core qs).1.modBlock k.b.uid fun b =>
      { b with groups := b.groups.set slot.toNat (some gr) }).passImplicit k g len := by
  simp only [State.performXgrp, hfree, hheader, hn, hrecord, h, Bool.false_eq_true, if_false]

end Xgrp

/-- What a record that declares a group for a block holds (R304, R305). -/
theorem groupRec_spec {s : State} {b : Block} {va : Nat} {bs : List Byte} {gr : Group} (h : s.groupRec b va bs = some gr) :
    gr.count = 0 ∧ 2 ≤ gr.members.length ∧ gr.members.length ≤ 1024
      ∧ recField bs 16 16 = 0 ∧ gr.tmo = recField bs 4 4 ∧ gr.tmo ≤ 1000000 ∧ gr.tag = BitVec.ofNat 64 (recField bs 8 8)
      ∧ ∃ m, gr.members[gr.self]? = some m ∧ m.dev = s.devId.toNat ∧ m.part = b.part ∧ m.blk = b.bid
        ∧ s.inboxOk b.asid m.inbox = true := by
  unfold State.groupRec at h
  split at h
  · cases h
  next n hn =>
    have hrange : 2 ≤ n ∧ n ≤ 1024 := by
      unfold recCount at hn
      dsimp only at hn
      split at hn
      next hin =>
        cases hn
        exact hin
      next => cases hn
    dsimp only at h
    split at h
    next hok =>
      cases h
      simp only [Bool.and_eq_true, decide_eq_true_eq, beq_iff_eq] at hok
      obtain ⟨⟨⟨⟨⟨⟨⟨hself, hzero⟩, htmo⟩, -⟩, hdev⟩, hpart⟩, hblk⟩, hinbox⟩ := hok
      refine ⟨rfl, ?_, ?_, hzero, rfl, htmo, rfl, recMember bs (recField bs 2 2), ?_, hdev, hpart, hblk, hinbox⟩
      · simpa only [List.length_map, List.length_range] using hrange.1
      · simpa only [List.length_map, List.length_range] using hrange.2
      · simp only [List.getElem?_map, List.getElem?_range hself, Option.map_some]
    next => cases h

/-! ### Operations (R281, R306) -/

/-- An operation that performs takes the next number of its group, and stands open. -/
theorem performXop_spec (s : State) (k : Ctx) (o : Op) (g : Guard) (slot : BitVec 4) (len op : Nat) (t : Ty) (ioff cb : Word) (src : DWord) :
    ((((s.blockOf k).groups[slot.toNat]?).getD none) = none →
      s.performXop k o g slot len op t ioff cb src = s.trapTakers k g .collError 0)
    ∧ ∀ gr, (((s.blockOf k).groups[slot.toNat]?).getD none) = some gr → ∃ c : COp, s.performXop k o g slot len op t ioff cb src =
        (({ s with colls := s.colls ++ [c], nextColl := s.nextColl + 1 } : State).modBlock k.b.uid fun b =>
          { b with groups := b.groups.set slot.toNat (some { gr with count := gr.count + 1 }) }).passImplicit k g len
      ∧ c.id = s.nextColl ∧ c.blk = k.b.uid ∧ c.slot = slot.toNat ∧ c.group = gr ∧ c.seq = gr.count + 1 ∧ c.op = op
      ∧ c.t = t ∧ c.src = src.toNat ∧ c.c = cb.toNat ∧ c.off = ioff.toNat ∧ c.since = s.clk.toNat
      ∧ c.got = [] ∧ c.sent = [] ∧ c.done = false ∧ c.kernel = none := by
  refine ⟨fun h => ?_, fun gr h => ?_⟩
  · simp only [State.performXop, h]
  · simp only [State.performXop, h]
    exact ⟨_, rfl, rfl, rfl, rfl, rfl, rfl, rfl, rfl, rfl, rfl, rfl, rfl, rfl, rfl, rfl, rfl⟩

/-- An instruction that performs as an operation. -/
theorem performed_xop {s : State} {k : Ctx} {o : Op} {picks : List Nat} {g : Guard} {slot : BitVec 4} {len op : Nat} {ty t : Ty}
    {ioff cb : Word} {src : DWord} {xs : List DWord} (hop : s.performOp k o picks = s.performXop k o g slot len op ty ioff cb src)
    (hty : op = 1 → ty = t) (hsrc : src.toNat = (xs.headD 0).toNat) :
    ((((s.blockOf k).groups[slot.toNat]?).getD none) = none → s.performOp k o picks = s.trapTakers k g .collError 0)
    ∧ ∀ gr, (((s.blockOf k).groups[slot.toNat]?).getD none) = some gr → ∃ c : COp, s.performOp k o picks =
        (({ s with colls := s.colls ++ [c], nextColl := s.nextColl + 1 } : State).modBlock k.b.uid fun b =>
          { b with groups := b.groups.set slot.toNat (some { gr with count := gr.count + 1 }) }).passImplicit k g len
      ∧ c.id = s.nextColl ∧ c.blk = k.b.uid ∧ c.slot = slot.toNat ∧ c.group = gr ∧ c.seq = gr.count + 1 ∧ c.op = op
      ∧ (op = 1 → c.t = t) ∧ c.src = (xs.headD 0).toNat ∧ c.c = cb.toNat ∧ c.off = ioff.toNat ∧ c.since = s.clk.toNat
      ∧ c.got = [] ∧ c.sent = [] ∧ c.done = false ∧ c.kernel = none := by
  obtain ⟨htrap, hgo⟩ := performXop_spec s k o g slot len op ty ioff cb src
  refine ⟨fun h => hop.trans (htrap h), fun gr h => ?_⟩
  obtain ⟨c, hc, hid, hblk, hslot, hgroup, hseq, hkind, ht, hs, hrest⟩ := hgo gr h
  exact ⟨c, hop.trans hc, hid, hblk, hslot, hgroup, hseq, hkind, fun h1 => ht.trans (hty h1), hs.trans hsrc, hrest⟩

/-! ### XWAIT (R284, R307) -/

/-- The operations of a block on a slot that are open. -/
def openOn (s : State) (u slot : Nat) : List Nat :=
  (s.colls.filter fun c => c.blk == u && c.slot == slot && !c.done).map (·.id)

theorem mem_openOn {s : State} {u slot : Nat} {c : COp} (hc : c ∈ s.colls) (hblk : c.blk = u) (hslot : c.slot = slot) (hopen : c.done = false) :
    c.id ∈ openOn s u slot :=
  List.mem_map_of_mem (List.mem_filter.mpr ⟨hc, by simp [hblk, hslot, hopen]⟩)

theorem openOn_eq_nil {s : State} {u slot : Nat} (h : ∀ c ∈ s.colls, c.blk = u → c.slot = slot → c.done = true) : openOn s u slot = [] :=
  List.map_eq_nil_iff.mpr (List.filter_eq_nil_iff.mpr fun c hc => by
    simp only [Bool.and_eq_true, beq_iff_eq, Bool.not_eq_true', not_and, Bool.not_eq_false, and_imp]
    exact h c hc)

/-- With no lane of the crew in an XWAIT, one has not been waited for before. -/
theorem waitedSince_none {c : Crew} (h : ∀ l ∈ c.lanes, l.park = none ∧ l.waited = none) (ins : Nat) (lanes wait : List Nat) :
    c.waitedSince ins lanes wait = none := by
  have hparked : (c.lanes.findSome? fun l => match l.park with
      | some (.xwait n _ _ since _ _) => if l.parked && n == ins then some since else none
      | _ => none) = none := List.findSome?_eq_none_iff.mpr fun l hl => by rw [(h l hl).1]
  have hwaited : ∀ i : Nat, (c.lanes[i]?).bind (·.waited) = none := fun i => by
    cases hl : c.lanes[i]? with
    | none => rfl
    | some l => exact (h l (List.mem_of_getElem? hl)).2
  unfold Crew.waitedSince
  refine (congrArg (fun x => Option.orElse x _) hparked).trans ?_
  simp only [Option.orElse, hwaited]
  exact List.findSome?_eq_none_iff.mpr fun _ _ => rfl

/-- A lane parks at an XWAIT for the operations given, since a time. -/
def parkAtXwait (k : Ctx) (slot since : Nat) (wait : List Nat) (s : State) (o : Op) : State :=
  (s.parkAfter k o.lane 2 (.xwait o.ins wait slot since o.lab o.pc)).modLane k.b.uid k.ci o.lane fun l =>
    { l with waited := some (wait, since) }

theorem parkAtXwait_self (k : Ctx) (slot since : Nat) (wait : List Nat) (s : State) (o : Op) {m : Lane}
    (hm : s.laneAt k.b.uid k.ci o.lane = some m) : ∃ m', (parkAtXwait k slot since wait s o).laneAt k.b.uid k.ci o.lane = some m'
      ∧ ParkedAs m m' (.xwait o.ins wait slot since o.lab o.pc) := by
  obtain ⟨m', hm', hparked⟩ := parkAfter_self s k o.lane 2 (.xwait o.ins wait slot since o.lab o.pc) hm
  rw [parkAtXwait, laneAt_modLane, if_pos ⟨rfl, rfl, rfl⟩, hm']
  exact ⟨_, rfl, hparked.parked, hparked.act, hparked.park, hparked.regs⟩

theorem parkAtXwait_other (k : Ctx) (slot since : Nat) (wait : List Nat) (s : State) (o : Op) {j : Nat} (h : j ≠ o.lane) :
    (parkAtXwait k slot since wait s o).laneAt k.b.uid k.ci j = s.laneAt k.b.uid k.ci j := by
  rw [parkAtXwait, laneAt_modLane, if_neg fun hj => h hj.2.2, parkAfter_other s k 2 _ h]

section Xwait
variable {s : State} {k : Ctx} {o : Op} {os : List Op} {g : Guard} {slot : BitVec 4} {xs : List DWord} {b : Block}
  (hb : s.block? k.b.uid = some b)

theorem performEighth_xwait (os : List Op) (ho : o.what = .instr (.xwait g slot) xs) : s.performEighth k o os = s.performXwait k os slot := by
  rw [State.performEighth, ho]

include hb

theorem performXwait_goes (h : (b.groups[slot.toNat]?).getD none = none ∨
      (∀ c ∈ s.colls, c.blk = k.b.uid → c.slot = slot.toNat → c.done = true)) :
    s.performXwait k os slot = os.foldl (fun s o => s.modLane k.b.uid k.ci o.lane fun l => { l with waited := none }) s := by
  have hgo : (((b.groups[slot.toNat]?).getD none).isSome && !(openOn s k.b.uid slot.toNat).isEmpty) = false := by
    rcases h with hnone | hdone
    · rw [hnone]; rfl
    · rw [openOn_eq_nil hdone]
      exact Bool.and_false _
  unfold State.performXwait
  rw [blockOf_eq hb]
  exact if_neg (Bool.eq_false_iff.mp hgo)

theorem performXwait_parks (hlive : ((b.groups[slot.toNat]?).getD none).isSome = true) {c : COp} (hc : c ∈ s.colls)
    (hblk : c.blk = k.b.uid) (hslot : c.slot = slot.toNat) (hopen : c.done = false) : ∃ since ops, c.id ∈ ops
      ∧ ((∀ l ∈ k.c.lanes, l.park = none ∧ l.waited = none) → since = s.clk.toNat)
      ∧ ∀ p ∈ os, ∀ l, s.laneAt k.b.uid k.ci p.lane = some l → (∀ q ∈ os, q.lane = p.lane → q = p) →
        ∃ l', (s.performXwait k os slot).laneAt k.b.uid k.ci p.lane = some l'
        ∧ l'.parked = true ∧ l'.act = false ∧ l'.v = l.v ∧ l'.park = some (.xwait p.ins ops slot.toNat since p.lab p.pc) := by
  have hmem := mem_openOn hc hblk hslot hopen
  have hparks : (((b.groups[slot.toNat]?).getD none).isSome && !(openOn s k.b.uid slot.toNat).isEmpty) = true := by
    rw [hlive, Bool.true_and, Bool.not_eq_true']
    exact List.isEmpty_eq_false_iff_exists_mem.mpr ⟨_, hmem⟩
  let since := (k.c.waitedSince ((os.head?.map (·.ins)).getD 0) (os.map (·.lane)) (openOn s k.b.uid slot.toNat)).getD s.clk.toNat
  have hfold : s.performXwait k os slot = os.foldl (parkAtXwait k slot.toNat since (openOn s k.b.uid slot.toNat)) s := by
    unfold State.performXwait
    rw [blockOf_eq hb]
    exact if_pos hparks
  refine ⟨since, _, hmem, fun hfresh => ?_, fun p hp l hl hsame => ?_⟩
  · exact congrArg (fun x : Option Nat => x.getD s.clk.toNat) (waitedSince_none hfresh _ _ _)
  · obtain ⟨l', hl', hparked⟩ := laneAt_parkFor (F := parkAtXwait k slot.toNat since (openOn s k.b.uid slot.toNat))
      (f := fun o => .xwait o.ins (openOn s k.b.uid slot.toNat) slot.toNat since o.lab o.pc)
      (fun s o _ => parkAtXwait_self k slot.toNat since _ s o) (fun s o => parkAtXwait_other k slot.toNat since _ s o) os s l hl rfl (fun q hq hlane => by rw [hsame q hq hlane]) (.inr ⟨p, hp, rfl⟩)
    rw [hfold]
    exact ⟨l', hl', hparked.parked, hparked.act, hparked.regs, hparked.park⟩

end Xwait

/-! ### CSTAT (R303) -/

theorem cstatWords_fields (b : Block) (h : b.ccmds.length ≤ 16) : ∃ w, b.cstatWords = [w, BitVec.ofNat 32 (min b.cden (2 ^ 32 - 1))]
    ∧ (bits w 0 5).toNat = b.ccmds.length ∧ w.getLsbD 8 = b.cerr ∧ w.getLsbD 9 = b.cecc := by
  have herr := Bool.toNat_le b.cerr
  have hecc := Bool.toNat_le b.cecc
  have hword : b.cecc.toNat * 2 ^ 9 + b.cerr.toNat * 2 ^ 8 + b.ccmds.length = 2 ^ 8 * (b.cecc.toNat * 2 + b.cerr.toNat) + b.ccmds.length := by
    omega
  refine ⟨_, rfl, ?_, ?_, ?_⟩
  · simp only [bits, BitVec.toNat_ofNat, BitVec.extractLsb'_toNat, Nat.shiftRight_eq_div_pow]
    omega
  · rw [BitVec.getLsbD_ofNat, hword, Nat.testBit_two_pow_mul_add _ (by omega), if_neg (by omega)]
    cases b.cerr <;> cases b.cecc <;> rfl
  · rw [BitVec.getLsbD_ofNat, hword, Nat.testBit_two_pow_mul_add _ (by omega), if_neg (by omega)]
    cases b.cerr <;> cases b.cecc <;> rfl

/-- Settles O39, each instruction by where it ends. -/
theorem collectiveInstructionsPerform : Obligations.CollectiveInstructionsPerform := by
  unfold Obligations.CollectiveInstructionsPerform
  refine ⟨?_, fun s b va bs gr => groupRec_spec, ?_, ?_, ?_, ?_, ?_, cstatWords_fields⟩
  · intro s k o picks g slot a xs ho
    have hop : s.performOp k o picks = s.performXgrp k o g slot (Instr.xgrp g slot a).len xs := performOp_instr ho picks
    rw [hop]
    refine ⟨performXgrp_live, fun hfree => ?_⟩
    obtain ⟨hfault, hdenied, hwait⟩ := performXgrp_header (s := s) (o := o) (g := g) (len := (Instr.xgrp g slot a).len) (xs := xs) hfree
    exact ⟨hfault, hdenied, hwait, fun s1 ps hheader => ⟨performXgrp_badCount hfree hheader, fun n s3 qs hn hrecord =>
      ⟨performXgrp_badRecord hfree hheader hn hrecord, fun gr => performXgrp_declares hfree hheader hn hrecord⟩⟩⟩
  · intro s k o picks g slot xs ho
    exact performOp_instr ho picks
  · intro s k o picks i g slot op t ioff cb xs ho hi
    have hperf := performOp_instr (s := s) (k := k) ho picks
    obtain ⟨a, rfl, rfl⟩ | ⟨a, rfl, rfl⟩ | ⟨a, rfl, rfl⟩ | ⟨rfl, rfl, rfl, rfl, rfl⟩ := hi
    · exact performed_xop (ty := .n8) (src := xs.headD 0) hperf (fun h => absurd h (by decide)) rfl
    · exact performed_xop (ty := t) (src := xs.headD 0) hperf (fun _ => rfl) rfl
    · exact performed_xop (ty := .n8) (src := xs.headD 0) hperf (fun h => absurd h (by decide)) rfl
    · exact performed_xop (ty := .n8) (src := 0) hperf (fun h => absurd h (by decide)) rfl
  · intro s k o os g slot xs b ho hb
    rw [performEighth_xwait os ho]
    exact ⟨performXwait_goes hb, fun hlive c hc hblk hslot hopen => performXwait_parks hb hlive hc hblk hslot hopen⟩
  · intro s k o picks g d xs b ho hb
    refine (performOp_instr ho picks).trans ?_
    show s.performCstat k o d false = _
    rw [State.performCstat, blockOf_eq hb]
    rfl
  · intro s k o picks g d xs b ho hb
    refine (performOp_instr ho picks).trans ?_
    show s.performCstat k o d true = _
    rw [State.performCstat, blockOf_eq hb]
    rfl

end Sys2Proof.Proofs
end

