-- ==== Sys2Proof/Proofs/CollectiveMoves.lean ====
section
/-! What the collective engines deliver, and how an operation ends (17_engines R282 to R286; 18_engine_instructions R306). -/

namespace Sys2Proof.Proofs

open Sys2Proof.Machine Sys2Proof.Laws

/-! ### Delivery (R282, R286) -/

section Deliver
variable {s : State} {op m : Nat} {order : List Nat} {c : COp} (hc : s.coll? op = some c)
include hc

theorem execDeliver_blocked (h : (c.done || !s.allIssued c || (s.siblings c).any s.mismatched) = true) :
    execCollectiveDeliver op m order s = .next s := by
  simp only [execCollectiveDeliver, hc, h, if_true]

variable (hopen : c.done = false) (hall : s.allIssued c = true) (hmatch : (s.siblings c).any s.mismatched = false)
include hopen hall hmatch

theorem execDeliver_pieces (hm : m < c.slots) (hkind : c.op = 0 ∨ c.op = 2) :
    execCollectiveDeliver op m order s = .next (order.foldl (fun s p => s.deliverPiece c m p) s) := by
  rcases hkind with hkind | hkind <;>
    simp only [execCollectiveDeliver, hc, hopen, hall, hmatch, hkind, Nat.not_le.mpr hm, Bool.not_true, Bool.or_self, Bool.false_eq_true,
      if_false]

theorem execDeliver_send (hm : c.slots ≤ m) :
    execCollectiveDeliver op m order s = .next (order.foldl (fun s p => s.sendPiece c (m - c.slots) p) s) := by
  simp only [execCollectiveDeliver, hc, hopen, hall, hmatch, hm, Bool.not_true, Bool.or_self, Bool.false_eq_true, if_false, if_true]

theorem execDeliver_element (hm : m < c.slots) (hkind : c.op = 1) (hlt : m * (c.t.width / 8) < c.c) (hnew : c.got.contains (m, 0) = false)
    {s' t : State} {vs : List Nat}
    (hvals : State.elementValues c (c.group.self * c.c + m * (c.t.width / 8)) (c.t.width / 8) (List.range c.n) s = (s', some vs))
    (hwrite : s'.writeInbox c (m * (c.t.width / 8)) ⟨leBytes (c.t.width / 8) (treeOf c.t vs.length order vs), c.oid, c.launch,
        (((s'.sibling c c.group.self).bind fun x =>
          (s'.readContribution x (c.group.self * c.c + m * (c.t.width / 8)) (c.t.width / 8)).2).map (·.sealId)).getD 0⟩ = (t, true)) :
    execCollectiveDeliver op m order s = .next (t.modColl c.id fun c => { c with got := (m, 0) :: c.got }) := by
  simp only [execCollectiveDeliver, hc, hopen, hall, hmatch, hkind, Nat.not_le.mpr hm, Nat.not_le.mpr hlt, hnew, hvals, hwrite,
    Bool.not_true, Bool.or_self, decide_false, Bool.false_eq_true, if_false]

end Deliver

/-! ### Completion (R282) -/

section Complete
variable {s : State} {op : Nat} {c : COp} (hc : s.coll? op = some c) (hopen : c.done = false) (hall : s.allIssued c = true)
include hc hopen hall

theorem execComplete_full (hmatch : (s.siblings c).filter s.mismatched = []) (hfull : c.full = true) (hread : s.contributionRead c = true) :
    execCollectiveOpComplete op c.group.self s =
      .next (((s.modColl c.id fun c => { c with done := true }).refreshInbox c).dropColls c) := by
  simp only [execCollectiveOpComplete, hc, hopen, hall, hmatch, hfull, hread, List.isEmpty_nil, bne_self_eq_false, Bool.not_true,
    Bool.or_self, Bool.and_self, Bool.false_eq_true, if_false, if_true]

theorem execComplete_mismatched (h : (s.siblings c).filter s.mismatched ≠ []) : execCollectiveOpComplete op c.group.self s =
    .next (let r := ((s.siblings c).filter s.mismatched).foldl (fun s x => s.collReport x 0) s
      ((r.siblings c).foldl (fun s x => s.modColl x.id fun x => { x with done := true }) r).dropColls c) := by
  have hbad : ((s.siblings c).filter s.mismatched).isEmpty = false := List.isEmpty_eq_false_iff.mpr h
  simp only [execCollectiveOpComplete, hc, hopen, hall, hbad, bne_self_eq_false, Bool.not_true, Bool.not_false, Bool.or_self,
    Bool.false_eq_true, if_false, if_true]

end Complete

/-! ### Timeout and fallback (R284, R285) -/

section Timeout
variable {s : State} {u ci l : Nat} {b : Block} {x : Lane} {ins : Nat} {ops : List Nat} {slot since : Nat} {lab off : Word} {gr : Group}
  {cr : Crew} (hpark : s.parkedAt u ci l = some (b, x, .xwait ins ops slot since lab off)) (hgroup : b.groups[slot]? = some (some gr))
  (hcrew : b.crews[ci]? = some cr)
include hpark hgroup hcrew

theorem execTimeout_traps (htime : since + (if gr.tmo = 0 then (s.part b.part).ctmo else gr.tmo) * perMicro ≤ s.clk.toNat)
    (hwaits : s.parkOver b ci (.xwait ins ops slot since lab off) = false) : execCollectiveTimeout u ci l s =
      .next (((s.modLane u ci l fun x => { x with parked := false, park := none, waited := none }).trapLane ⟨b, ci, cr, lab, off⟩ l
        .collTimeout (BitVec.ofNat 64 slot) off lab (if off == lab then 0 else off)).settleCrew u ci) := by
  simp only [execCollectiveTimeout, hpark, hgroup, hcrew, Option.getD_some, Option.orElse]
  exact if_pos (by rw [hwaits, decide_eq_true htime]; rfl)

theorem execTimeout_stays (h : s.clk.toNat < since + (if gr.tmo = 0 then (s.part b.part).ctmo else gr.tmo) * perMicro
      ∨ s.parkOver b ci (.xwait ins ops slot since lab off) = true) : execCollectiveTimeout u ci l s = .next s := by
  simp only [execCollectiveTimeout, hpark, hgroup, hcrew, Option.getD_some, Option.orElse]
  refine if_neg fun hgo => ?_
  obtain ⟨htime, hwaits⟩ := Bool.and_eq_true_iff.mp hgo
  rcases h with hearly | hover
  · exact absurd (of_decide_eq_true htime) (Nat.not_le.mpr hearly)
  · rw [hover] at hwaits
    cases hwaits

end Timeout

theorem execFallback_kernel {s : State} {op : Nat} {c : COp} (hc : s.coll? op = some c) (hgot : c.got = []) (hsent : c.sent = [])
    (hopen : c.done = false) (hkernel : c.kernel = none) (htime : c.since + (s.part c.part).fbdl * perMicro ≤ s.clk.toNat) :
    execCollectiveFallback op s = .next (s.modColl op fun x => { x with kernel := s.kernelCore c.part c.launch }) := by
  simp only [execCollectiveFallback, hc, hgot, hsent, hopen, hkernel, htime, List.isEmpty_nil, Bool.not_true, Option.isSome_none,
    Bool.or_self, Bool.not_false, decide_true, Bool.and_self, if_true]

/-! ### A piece of a chunk (R282, R283, R306) -/

theorem deliverPiece_none {s : State} {c : COp} {j p : Nat}
    (h : c.c ≤ 64 * p ∨ ((s.coll? c.id).map (·.got.contains (j, p))).getD true = true) : s.deliverPiece c j p = s := by
  unfold State.deliverPiece
  refine if_pos ?_
  simpa only [Bool.or_eq_true, decide_eq_true_eq] using h

theorem deliverPiece_spec {s : State} {c x : COp} {j p : Nat} (hp : 64 * p < c.c) (hx : s.coll? c.id = some x)
    (hnew : x.got.contains (j, p) = false) :
    (let src := (if c.op = 2 then c.group.self * c.c else 0) + 64 * p
     (∀ t, s.memberBytes c j src (min 64 (c.c - 64 * p)) = (t, none) → s.deliverPiece c j p = t)
     ∧ ∀ t y, s.memberBytes c j src (min 64 (c.c - 64 * p)) = (t, some y) →
       (∀ u, t.writeInbox c (j * c.c + 64 * p) y = (u, true) →
         s.deliverPiece c j p = u.modColl c.id fun c => { c with got := (j, p) :: c.got })
       ∧ ∀ u, t.writeInbox c (j * c.c + 64 * p) y = (u, false) → s.deliverPiece c j p = u) := by
  have hgo : (decide (c.c ≤ 64 * p) || ((s.coll? c.id).map (·.got.contains (j, p))).getD true) = false := by
    rw [hx, decide_eq_false (Nat.not_le.mpr hp)]
    exact hnew
  refine ⟨fun t h => ?_, fun t y h => ⟨fun u hw => ?_, fun u hw => ?_⟩⟩
  · simp only [State.deliverPiece, hgo, h, Bool.false_eq_true, if_false]
  · simp only [State.deliverPiece, hgo, h, hw, Bool.false_eq_true, if_false]
  · simp only [State.deliverPiece, hgo, h, hw, Bool.false_eq_true, if_false]

theorem sendPiece_spec (s : State) (c : COp) (j p : Nat) :
    ((c.c ≤ 64 * p ∨ s.owesChunk c j = false ∨ ((s.coll? c.id).map (·.sent.contains (j, p))).getD true = true) → s.sendPiece c j p = s)
    ∧ ∀ x : COp, 64 * p < c.c → s.owesChunk c j = true → s.coll? c.id = some x → x.sent.contains (j, p) = false →
      (∀ t y, s.readContribution c (j * c.c + 64 * p) (min 64 (c.c - 64 * p)) = (t, some y) →
        s.sendPiece c j p = t.modColl c.id fun c => { c with sent := (j, p) :: c.sent })
      ∧ ∀ t, s.readContribution c (j * c.c + 64 * p) (min 64 (c.c - 64 * p)) = (t, none) → s.sendPiece c j p = t := by
  refine ⟨fun h => ?_, fun x hp howes hx hnew => ?_⟩
  · unfold State.sendPiece
    refine if_pos ?_
    simpa only [Bool.or_eq_true, decide_eq_true_eq, Bool.not_eq_true', or_assoc] using h
  · have hgo : (decide (c.c ≤ 64 * p) || !s.owesChunk c j || ((s.coll? c.id).map (·.sent.contains (j, p))).getD true) = false := by
      rw [hx, decide_eq_false (Nat.not_le.mpr hp), howes]
      exact hnew
    refine ⟨fun t y h => ?_, fun t h => ?_⟩ <;> simp only [State.sendPiece, hgo, h, Bool.false_eq_true, if_false]

theorem memberBytes_spec {s : State} {c : COp} {j : Nat} (o n : Nat) {m : Member} (hm : c.group.members[j]? = some m) :
    (s.remote m = false → ∀ x, s.sibling c j = some x → s.memberBytes c j o n = s.readContribution x o n)
    ∧ (s.remote m = false → s.sibling c j = none → s.memberBytes c j o n = (s, none))
    ∧ (s.remote m = true → s.routed m.dev = false → s.memberBytes c j o n = (s, none))
    ∧ (s.remote m = true → s.routed m.dev = true → ∃ t y, s.memberBytes c j o n = (t, some y) ∧ y.bytes.length = n) := by
  refine ⟨fun hremote x hx => ?_, fun hremote hx => ?_, fun hremote hroute => ?_, fun hremote hroute => ?_⟩
  · simp only [State.memberBytes, hm, hremote, hx, Bool.false_eq_true, if_false]
  · simp only [State.memberBytes, hm, hremote, hx, Bool.false_eq_true, if_false]
  · simp only [State.memberBytes, hm, hremote, hroute, Bool.false_eq_true, if_false, if_true]
  · simp only [State.memberBytes, hm, hremote, hroute, if_true]
    exact ⟨_, _, rfl, (List.length_map ..).trans List.length_range⟩

theorem readContribution_spec {s t : State} {c : COp} {o n : Nat} {r : RunRes}
    (h : s.checkRun c.core c.asid c.part c.clr ((c.src + o) % 2 ^ 64) n .read = (t, r)) :
    (∀ ps, r = .ok ps → s.readContribution c o n = ((t.readRun c.vf c.core ps).1,
      some ⟨(t.readRun c.vf c.core ps).2, c.oid, c.launch, (ps.head?.map (·.sealId)).getD 0⟩))
    ∧ (∀ e va, r = .fault e va → s.readContribution c o n = (t.collReport c va, some ⟨List.replicate n 0, c.oid, c.launch, 0⟩))
    ∧ (∀ sl va, r = .denied sl va → s.readContribution c o n =
      (t.denyColl c.part c.vf va c.oid c.launch c.core false sl, some ⟨List.replicate n 0, c.oid, c.launch, 0⟩))
    ∧ ∀ w va, r = .wait w va → s.readContribution c o n = (t.collWaits c va w, none) := by
  refine ⟨?_, ?_, ?_, ?_⟩ <;> intros <;> subst_vars <;> simp only [State.readContribution, h]

theorem writeInbox_spec {s t : State} {c : COp} {o : Nat} {y : Sent} {r : RunRes}
    (h : s.checkRun c.core c.asid c.part c.clr (c.inbox + c.off + o) y.bytes.length .write = (t, r)) :
    (∀ ps, r = .ok ps → s.writeInbox c o y = ((t.writeRun c.vf c.blk (ps.map fun p => { p with sealId := y.sealId }) y.bytes).modColl c.id
      fun c => { c with landed := c.landed ++ ps.map fun p => (p.home, p.size) }, true))
    ∧ (∀ e va, r = .fault e va → s.writeInbox c o y = (t, true))
    ∧ (∀ sl va, r = .denied sl va → s.writeInbox c o y = (t.denyColl c.part c.vf va y.oid y.launch c.core true sl, true))
    ∧ ∀ w va, r = .wait w va → s.writeInbox c o y = (t.collWaits c va w, false) := by
  refine ⟨?_, ?_, ?_, ?_⟩ <;> intros <;> subst_vars <;> simp only [State.writeInbox, h]

/-- Settles O38, event by event and piece by piece. -/
theorem collectivesMove : Obligations.CollectivesMove := by
  unfold Obligations.CollectivesMove
  refine ⟨⟨fun s op m order c => execDeliver_blocked, fun s op m order c hc hopen hall hmatch =>
      ⟨execDeliver_pieces hc hopen hall hmatch, execDeliver_send hc hopen hall hmatch,
        fun hm hkind hlt hnew s' vs t => execDeliver_element hc hopen hall hmatch hm hkind hlt hnew⟩,
    fun s op c hc hopen hall => ⟨execComplete_full hc hopen hall, execComplete_mismatched hc hopen hall⟩,
    fun s u ci l b x ins ops slot since lab off gr cr hpark hgroup hcrew =>
      ⟨execTimeout_traps hpark hgroup hcrew, execTimeout_stays hpark hgroup hcrew⟩,
    fun s op c => execFallback_kernel⟩,
    fun s c j p => deliverPiece_none, fun s c x j p => deliverPiece_spec, fun s c j o n m => memberBytes_spec o n,
    fun s c o n t r => readContribution_spec, fun s c o y t r => writeInbox_spec, fun s vf u p ps bs => ⟨rfl, rfl⟩, fun s vf core p => rfl,
    sendPiece_spec⟩

end Sys2Proof.Proofs
end

