-- ==== Sys2Proof/Proofs/Crewwide.lean ====
section
/-! Number networks and regrouping as they go on (13_program_filter R213, R223 to R225; 14_crews R229, R234; 15_crew_instructions R249,
R250). -/

namespace Sys2Proof.Proofs

open Sys2Proof.Machine Sys2Proof.Laws

/-! ### A token that comes out (R229, R249) -/

/-- The balancers that a token's way to its output passes. -/
def Net.passed (x : Net) (hops : List Nat) (tok : Nat) : Net := (hops ++ List.replicate 10 tok).foldl Net.hop x

/-- The network once a token has come out on an output, whose count then stands at `m`. -/
def Net.given (x : Net) (i tok : Nat) (m : BitVec 40) : Net := { x with cnt := x.cnt.set i m, tokens := x.tokens.filter (·.id != tok) }

/-- The operation that waits for a token's number. -/
def Crew.waitsFor (c : Crew) (n tok : Nat) : Option Op :=
  c.queue.find? fun o => match o.what with
    | .token m id _ _ _ => m == n && id == tok
    | _ => false

/-- A lane with the number of its token. -/
def Lane.numbered (l : Lane) (o : Op) (num : Nat) : Lane :=
  match o.what with
  | .token _ _ true d q => (l.wr d (BitVec.ofNat 32 num)).wr q (if 2 ^ 32 ≤ num then 1 else 0)
  | .token _ _ false d _ => l.wr64 d (BitVec.ofNat 64 num)
  | _ => l

/-- The machine once a token has come out and the operation that waits for its number has left its queue, with its lane changed. -/
def tokenOut (s : State) (n : Nat) (hops : List Nat) (tok i : Nat) (t : Token) (o : Op) (f : Lane → Lane) : State :=
  ((((s.modNet n (Net.passed · hops tok)).modNet n (Net.given · i tok ((Net.passed (s.net n) hops tok).cnt[i]?.getD 0 + 1))).modCrew t.blk
    t.crew fun c => { c with queue := c.queue.filter (· != o) }).modLane t.blk t.crew o.lane f)

theorem modNet_mem (s : State) (n : Nat) (f : Net → Net) : SameMemory s (s.modNet n f) := sameMem rfl rfl rfl rfl

theorem modCrew_mem (s : State) (u ci : Nat) (f : Crew → Crew) : SameMemory s (s.modCrew u ci f) :=
  sameDevice_memory (sameDevice_modBlock ..)

theorem count_mem (s : State) (v e : Nat) (ok : Nat → Bool) : SameMemory s (s.count v e ok) := sameDevice_memory (count_device ..)

section Token
variable {s : State} {n tok i : Nat} {hops : List Nat} {t : Token} {b : Block} {c : Crew} {o : Op} (f : Lane → Lane)
  (hn : n < s.nets.length)

theorem tokenOut_mem (s : State) (n : Nat) (hops : List Nat) (tok i : Nat) (t : Token) (o : Op) :
    SameMemory s (tokenOut s n hops tok i t o f) :=
  sameMemory_trans (modNet_mem _ _ _) (sameMemory_trans (modNet_mem _ _ _)
    (sameMemory_trans (modCrew_mem _ _ _ _) (modCrew_mem _ _ _ _)))

include hn in
theorem given_net : ((s.modNet n (Net.passed · hops tok)).modNet n (Net.given · i tok ((Net.passed (s.net n) hops tok).cnt[i]?.getD 0 + 1))).net n
    = Net.given (Net.passed (s.net n) hops tok) i tok ((Net.passed (s.net n) hops tok).cnt[i]?.getD 0 + 1) := by
  have hlen : n < (s.modNet n (Net.passed · hops tok)).nets.length := by simpa only [State.modNet, List.length_modify] using hn
  rw [net_modNet _ _ _ _ hlen, if_pos rfl, net_modNet _ _ _ _ hn, if_pos rfl]

include hn in
theorem tokenOut_net : (tokenOut s n hops tok i t o f).net n =
    Net.given (Net.passed (s.net n) hops tok) i tok ((Net.passed (s.net n) hops tok).cnt[i]?.getD 0 + 1) := given_net hn

theorem tokenOut_crew (hcrew : s.crew? t.blk t.crew = some (b, c)) : ∃ b', (tokenOut s n hops tok i t o f).crew? t.blk t.crew =
    some (b', ({ c with queue := c.queue.filter (· != o) } : Crew).modLane o.lane f) :=
  ⟨_, modCrew_at (modCrew_at (s := (s.modNet n (Net.passed · hops tok)).modNet n
    (Net.given · i tok ((Net.passed (s.net n) hops tok).cnt[i]?.getD 0 + 1))) hcrew)⟩

theorem queueAt_of_crew {u ci : Nat} (hcrew : s.crew? u ci = some (b, c)) : s.queueAt u ci = c.queue := by rw [State.queueAt, hcrew]

theorem laneAt_of_crew {u ci : Nat} (hcrew : s.crew? u ci = some (b, c)) (j : Nat) : s.laneAt u ci j = c.lanes[j]? := by
  obtain ⟨hb, hc⟩ := block_of_crew hcrew
  exact laneAt_eq hb hc

/-- What the queue and the lane of a token's operation are once the token has come out. -/
theorem tokenOut_spec (hcrew : s.crew? t.blk t.crew = some (b, c)) :
    (tokenOut s n hops tok i t o f).queueAt t.blk t.crew = c.queue.filter (· != o)
    ∧ ∀ l, c.lanes[o.lane]? = some l → (tokenOut s n hops tok i t o f).laneAt t.blk t.crew o.lane = some (f l) := by
  obtain ⟨b', hcrew'⟩ := tokenOut_crew (n := n) (tok := tok) (i := i) (hops := hops) (o := o) f hcrew
  refine ⟨queueAt_of_crew hcrew', fun l hl => ?_⟩
  rw [laneAt_of_crew hcrew']
  refine (List.getElem?_modify_eq ..).trans ?_
  rw [hl]
  rfl

variable (htok : (s.net n).tokens.find? (·.id == tok) = some t)
  (hout : ((Net.passed (s.net n) hops tok).tokens.find? (·.id == tok)).bind (fun t => netWiring.2.findIdx? (· == t.wire)) = some i)
  (hcrew : s.crew? t.blk t.crew = some (b, c)) (hop : Crew.waitsFor c n tok = some o)
include hn htok hout hcrew hop

/-- Where the token comes out its number goes to the lane, or, while the network resets, the lane parks (R234, R249). -/
theorem execTokenNumberReturn_eq : execTokenNumberReturn n hops tok s = .next
    (if (Net.passed (s.net n) hops tok).resetting then (tokenOut s n hops tok i t o fun l => l.parkAtTake n o).netQuiet n
     else ((tokenOut s n hops tok i t o fun l => Lane.numbered l o (i + 16 * ((Net.passed (s.net n) hops tok).cnt[i]?.getD 0).toNat)).count
       b.vf 4 fun f => f == 0 || decide (i + 16 * ((Net.passed (s.net n) hops tok).cnt[i]?.getD 0).toNat < f)).netQuiet n) := by
  have hpassed : (s.modNet n (Net.passed · hops tok)).net n = Net.passed (s.net n) hops tok := (net_modNet _ _ _ _ hn).trans (if_pos rfl)
  have hmoved : (s.modNet n fun x => (hops ++ List.replicate 10 tok).foldl Net.hop x) = s.modNet n (Net.passed · hops tok) := rfl
  have hgiven : ∀ (s : State) m, (s.modNet n fun x => { x with cnt := x.cnt.set i m, tokens := x.tokens.filter (·.id != tok) })
      = s.modNet n (Net.given · i tok m) := fun _ _ => rfl
  have hout' : ((s.modNet n (Net.passed · hops tok)).modNet n
      (Net.given · i tok ((Net.passed (s.net n) hops tok).cnt[i]?.getD 0 + 1))).crew? t.blk t.crew = some (b, c) := hcrew
  have hresets : ((((s.modNet n (Net.passed · hops tok)).modNet n
      (Net.given · i tok ((Net.passed (s.net n) hops tok).cnt[i]?.getD 0 + 1))).modCrew t.blk t.crew fun c =>
        { c with queue := c.queue.filter (· != o) }).net n).resetting = (Net.passed (s.net n) hops tok).resetting :=
    (congrArg Net.resetting (given_net (i := i) (tok := tok) (hops := hops) hn) :)
  unfold execTokenNumberReturn
  rw [htok]
  dsimp only
  rw [hmoved, hpassed, hout]
  dsimp only
  rw [hgiven, hout']
  dsimp only
  split
  next o' ho' =>
    obtain rfl : o' = o := Option.some.inj (ho'.symm.trans hop)
    rw [hresets]
    split
    · rfl
    · rfl
  next hnone => exact absurd (hnone.symm.trans hop) (by simp)

end Token

theorem numbered_eq (l : Lane) {o : Op} (num : Nat) {m id : Nat} {w32 : Bool} {d q : Reg} (ho : o.what = .token m id w32 d q) :
    Lane.numbered l o num = if w32 then (l.wr d (BitVec.ofNat 32 num)).wr q (if 2 ^ 32 ≤ num then 1 else 0) else l.wr64 d (BitVec.ofNat 64 num) := by
  rw [Lane.numbered, ho]
  cases w32 <;> rfl

theorem netQuiet_of_open {s : State} {n : Nat} (h : (s.net n).resetting = false) : s.netQuiet n = s := by
  rw [State.netQuiet, h]
  rfl

theorem count_net (s : State) (v e : Nat) (ok : Nat → Bool) (n : Nat) : (s.count v e ok).net n = s.net n := by
  rw [State.net, count_nets]
  rfl

theorem crew_count (s : State) (v e : Nat) (ok : Nat → Bool) (u ci : Nat) : (s.count v e ok).crew? u ci = s.crew? u ci := by
  rw [State.crew?, count_block]
  rfl

theorem queueAt_count (s : State) (v e : Nat) (ok : Nat → Bool) (u ci : Nat) : (s.count v e ok).queueAt u ci = s.queueAt u ci := by
  simp only [State.queueAt, crew_count]

theorem laneAt_count (s : State) (v e : Nat) (ok : Nat → Bool) (u ci j : Nat) : (s.count v e ok).laneAt u ci j = s.laneAt u ci j := by
  simp only [State.laneAt, crew_count]

/-! ### A lane whose number is lost to a reset (R234) -/

theorem parkAtTake_waits {l : Lane} {n : Nat} {o : Op} {m i : Nat} (hparked : l.parked = true) (hpark : l.park = some (.network m i))
    (hi : i < o.ins) : l.parkAtTake n o = l := by
  unfold Lane.parkAtTake
  simp only [hpark, hparked, hi, decide_true, Bool.and_self, if_true]

theorem parkAtTake_parks {l : Lane} {n : Nat} {o : Op} (h : ∀ m i, l.parked = true → l.park = some (.network m i) → o.ins ≤ i) :
    l.parkAtTake n o =
      { l with parked := true, act := false, wl := o.lab, ro := if o.pc = o.lab then 0 else o.pc, park := some (.network n o.ins) } := by
  unfold Lane.parkAtTake
  simp only [beq_iff_eq]
  split
  next m i hpark =>
    refine if_neg fun hwaits => ?_
    obtain ⟨hparked, hi⟩ := Bool.and_eq_true_iff.mp hwaits
    exact absurd (of_decide_eq_true hi) (Nat.not_lt.mpr (h m i hparked hpark))
  next => rfl

theorem total_eq (x : Net) : x.total = (x.cnt.map (·.toNat)).sum := by
  rw [Net.total, List.sum_eq_foldl, List.foldl_map]

/-- Settles O40: a token comes out, a reset ends, and NETCNT reads. -/
theorem networkTokensReturn : Obligations.NetworkTokensReturn := by
  unfold Obligations.NetworkTokensReturn
  refine ⟨?_, ?_, fun l n o => ⟨fun m i => parkAtTake_waits, parkAtTake_parks⟩, ?_, ?_, ?_⟩
  · intro s n hops tok t i b c o hn htok _ _ hout hopen hcrew hop
    let num := i + 16 * ((Net.passed (s.net n) hops tok).cnt[i]?.getD 0).toNat
    let out := tokenOut s n hops tok i t o (Lane.numbered · o num)
    have hnet := tokenOut_net (hops := hops) (tok := tok) (i := i) (t := t) (o := o) (Lane.numbered · o num) hn
    obtain ⟨hqueue, hlane⟩ := tokenOut_spec (n := n) (hops := hops) (tok := tok) (i := i) (o := o) (Lane.numbered · o num) hcrew
    have hquiet := netQuiet_of_open (s := out.count b.vf 4 fun f => f == 0 || decide (num < f)) (n := n)
      ((congrArg Net.resetting ((count_net ..).trans hnet)).trans hopen)
    refine ⟨out.count b.vf 4 fun f => f == 0 || decide (num < f), ?_, sameMemory_trans (tokenOut_mem _ s n hops tok i t o) (count_mem _ _ _ _),
      (count_net ..).trans hnet, (queueAt_count ..).trans hqueue, fun l hl w32 d q m id ho => ?_⟩
    · refine (execTokenNumberReturn_eq hn htok hout hcrew hop).trans (congrArg _ ((if_neg (Bool.eq_false_iff.mp hopen)).trans hquiet))
    · exact (laneAt_count ..).trans ((hlane l hl).trans (congrArg some (numbered_eq l num ho)))
  · intro s n hops tok t i b c o hn htok _ hout hreset hcrew hop
    obtain ⟨hqueue, hlane⟩ := tokenOut_spec (n := n) (hops := hops) (tok := tok) (i := i) (o := o) (·.parkAtTake n o) hcrew
    exact ⟨tokenOut s n hops tok i t o (·.parkAtTake n o), (execTokenNumberReturn_eq hn htok hout hcrew hop).trans (congrArg _ (if_pos hreset)),
      tokenOut_mem _ s n hops tok i t o, congrArg Net.tokens (tokenOut_net (·.parkAtTake n o) hn), hqueue, hlane⟩
  · intro s n hn hclosed hreset hempty
    have hnet := fun k => net_netQuiet n k hn hreset hempty
    exact ⟨s.netQuiet n, congrArg _ (if_pos hclosed), netQuiet_mem s n, congrArg Net.bal ((hnet n).trans (if_pos rfl)),
      congrArg Net.cnt ((hnet n).trans (if_pos rfl)), congrArg Net.closed ((hnet n).trans (if_pos rfl)),
      congrArg Net.resetting ((hnet n).trans (if_pos rfl)), fun k hk => (hnet k).trans (if_neg hk)⟩
  · intro s n hclosed hopen
    exact congrArg _ ((if_pos hclosed).trans (netQuiet_of_open hopen))
  · intro s k o n d picks b c ho hcrew
    have hop : s.performOp k o picks = s.performNetcnt k o n d := by rw [State.performOp, ho]
    rw [hop, State.performNetcnt, hcrew, total_eq]
    rfl

/-! ### Pairs (R213, R223) -/

theorem pairBefore_false {x y : Nat × Nat × Nat} (h : pairBefore x y = false) :
    y.1 ≤ x.1 ∧ (y.1 = x.1 → y.2.1 ≤ x.2.1 ∧ (y.2.1 = x.2.1 → y.2.2 ≤ x.2.2)) := by
  simp only [pairBefore, Bool.or_eq_false_iff, Bool.and_eq_false_iff, decide_eq_false_iff_not, beq_eq_false_iff_ne, ne_eq, Nat.not_lt] at h
  obtain ⟨hfirst, hthen⟩ := h
  refine ⟨hfirst, fun heq => ?_⟩
  obtain hne | ⟨hsecond, hlast⟩ := hthen
  · exact absurd heq.symm hne
  · exact ⟨hsecond, fun heq' => hlast.resolve_left fun hne => hne heq'.symm⟩

theorem pairsNext_spec {b : Block} {r d : Crew} (h : b.pairsNext r d = true) :
    r.mayPair d = true ∧ ∀ x ∈ b.crews, ∀ y ∈ b.crews, x.mayPair y = true →
      (r.pairKey d).1 ≤ (x.pairKey y).1 ∧ ((r.pairKey d).1 = (x.pairKey y).1 → r.cid ≤ x.cid ∧ (r.cid = x.cid → d.cid ≤ y.cid)) := by
  obtain ⟨hmay, hfirst⟩ := Bool.and_eq_true_iff.mp h
  refine ⟨hmay, fun x hx y hy hxy => ?_⟩
  have hno := List.all_eq_true.mp (List.all_eq_true.mp hfirst x hx) y hy
  rw [hxy, Bool.not_true, Bool.false_or, Bool.not_eq_true'] at hno
  exact pairBefore_false hno

theorem mayPair_spec {r d : Crew} (h : r.mayPair d = true) : r.cid < d.cid ∧ (∀ l ∈ r.lanes ++ d.lanes, l.parked = false ∧ l.trapped = false)
    ∧ d.lanes.countP (fun l => !l.done) ≤ r.lanes.countP (·.done)
    ∧ ∃ x y, r.regroup = some x ∧ d.regroup = some y ∧ x.off = y.off ∧ x.key = y.key
      ∧ max x.tried y.tried ≤ min x.since y.since + 1024 := by
  unfold Crew.mayPair at h
  split at h
  next x y hx hy =>
    simp only [Bool.and_eq_true, decide_eq_true_eq, beq_iff_eq, List.all_eq_true, Bool.not_eq_true'] at h
    obtain ⟨⟨⟨⟨⟨hcid, hoff⟩, hkey⟩, hlanes⟩, htime⟩, hroom⟩ := h
    exact ⟨hcid, hlanes, hroom, x, y, hx, hy, hoff, hkey, htime⟩
  next => cases h

theorem give_spec (r d : Crew) : (r.give d).seq = .retired ∧ (r.give d).regroup = none ∧ ∀ l ∈ (r.give d).lanes, l.done = true := by
  refine ⟨rfl, rfl, fun l hl => ?_⟩
  obtain ⟨j, hj, rfl⟩ := List.mem_mapIdx.mp hl
  rfl

theorem endRegroup_lanes {c : Crew} {w : Regroup} (h : c.regroup = some w) (x : Bool) : (c.endRegroup x).regroup = none
    ∧ (c.endRegroup x).lanes = c.lanes.map fun l => if l.done then l else l.setPred w.q x := by
  rw [Crew.endRegroup, h]
  exact ⟨rfl, mapIdx_map (fun l : Lane => if l.done then l else l.setPred w.q x) c.lanes⟩

theorem regAt_moveInto (a m : Lane) (vf n : Nat) {k : Nat} (h : k < a.v.length) :
    regAt (a.moveInto m vf n).v k = if vf ≤ k ∧ k < vf + n then regAt m.v k else regAt a.v k := by
  simp only [Lane.moveInto, regAt, List.getElem?_mapIdx, List.getElem?_eq_getElem h, Option.map_some, Option.getD_some, Bool.and_eq_true,
    decide_eq_true_eq]

/-- Settles O41: which pair is made, what moves with it, and when a crew goes on alone. -/
theorem regroupingMoves : Obligations.RegroupingMoves := by
  unfold Obligations.RegroupingMoves
  refine ⟨?_, fun b r d => pairsNext_spec, fun r d => mayPair_spec, give_spec, ?_, fun a m vf n => ⟨rfl, rfl, rfl, rfl, rfl, rfl, fun k =>
    regAt_moveInto a m vf n⟩⟩
  · intro s u i j b r d hb hr hd
    have hexec : exec (.regroupPair u i j) s = execRegroupPair u i j s := rfl
    rw [hexec]
    refine ⟨fun hnext hstop habort => ?_, fun h => ?_⟩
    · have hgo : (b.pairsNext r d && !b.stopping && b.abort.isNone) = true := by rw [hnext, hstop, habort]; rfl
      simp only [execRegroupPair, hb, hr, hd, hgo, if_true, Crew.moveCycles]
    · have hno : (b.pairsNext r d && !b.stopping && b.abort.isNone) = false := by
        rcases h with h | h | h
        · rw [h]; rfl
        · rw [h, Bool.not_true, Bool.and_false, Bool.false_and]
        · rw [← Option.not_isSome, h, Bool.not_true, Bool.and_false]
      simp only [execRegroupPair, hb, hr, hd, hno, Bool.false_eq_true, if_false]
  · intro s u i b c w hcrew hw
    have hexec : exec (.regroupTimeout u i) s = execRegroupTimeout u i s := rfl
    rw [hexec]
    refine ⟨fun htime hnone => ?_, fun h => ?_⟩
    · have halone : (b.crews.any fun y => c.mayPair y || y.mayPair c) = false := List.any_eq_false.mpr fun y hy => by
        rw [(hnone y hy).1, (hnone y hy).2]
        exact Bool.false_ne_true
      refine ⟨s.modCrew u i (·.endRegroup false), c.endRegroup false, ?_, modCrew_mem _ _ _ _, modCrew_at hcrew, endRegroup_lanes hw false⟩
      simp only [execRegroupTimeout, hcrew, hw, halone, htime, decide_true, Bool.not_false, Bool.and_self, if_true]
    · have hno : (decide (w.since + 1024 ≤ s.cyc) && !b.crews.any fun y => c.mayPair y || y.mayPair c) = false := by
        rcases h with hearly | ⟨y, hy, hpair⟩
        · rw [decide_eq_false (Nat.not_le.mpr hearly), Bool.false_and]
        · have hany : (b.crews.any fun y => c.mayPair y || y.mayPair c) = true := List.any_eq_true.mpr ⟨y, hy, Bool.or_eq_true _ _ ▸ hpair⟩
          rw [hany, Bool.not_true, Bool.and_false]
      simp only [execRegroupTimeout, hcrew, hw, hno, Bool.false_eq_true, if_false]

end Sys2Proof.Proofs
end

