-- ==== Sys2Proof/Proofs/Sequencer.lean ====
section
/-! The sequencer: the census, code lines, and lanes that unpark (04_sweep R33 to R44; 05_encoding R52; 11_ordering R177; 14_crews R221,
R222). -/

namespace Sys2Proof.Proofs

open Sys2Proof.Machine Sys2Proof.Laws

/-! ### The census (R33) -/

theorem smallest_spec {c : Crew} {lo : Option Word} {x : Word} (h : c.smallest lo = some x) :
    (∃ l ∈ c.lanes, l.wants = true ∧ l.wl = x) ∧ (∀ y, lo = some y → y.toNat < x.toNat)
      ∧ ∀ l ∈ c.lanes, l.wants = true → (∀ y, lo = some y → y.toNat < l.wl.toNat) → x.toNat ≤ l.wl.toNat := by
  obtain ⟨hfrom, -, hleast⟩ := smallest_fold _ none x h
  have hmem : ∀ l, l ∈ c.lanes.filter (fun l => l.wants && (match lo with
      | some x => decide (x.toNat < l.wl.toNat)
      | none => true)) ↔ l ∈ c.lanes ∧ l.wants = true ∧ ∀ y, lo = some y → y.toNat < l.wl.toNat := fun l => by
    cases lo <;> simp
  obtain ⟨l, hl, rfl⟩ := hfrom.resolve_left (by simp)
  obtain ⟨hlanes, hwants, hahead⟩ := (hmem l).mp hl
  exact ⟨⟨l, hlanes, hwants, rfl⟩, hahead, fun l' hl' hw ha => hleast l' ((hmem l').mpr ⟨hl', hw, ha⟩)⟩

/-- A lane as a visit of a label begins. -/
def Lane.entered (l : Lane) (lab : Word) (marked : Bool) : Lane :=
  if l.wants && l.wl == lab && l.ro == 0 then
    if marked then { l with act := true, rwl := lab, rro := 0, kind := true, rngc := l.rng } else { l with act := true }
  else { l with act := false }

theorem entered_spec (l : Lane) (lab : Word) (marked : Bool) : (Lane.entered l lab marked).act = (l.wants && l.wl == lab && l.ro == 0)
    ∧ (Lane.entered l lab marked).v = l.v ∧ (Lane.entered l lab marked).q = l.q ∧ (Lane.entered l lab marked).wl = l.wl
    ∧ (Lane.entered l lab marked).ro = l.ro := by
  unfold Lane.entered
  split
  next h =>
    rw [h]
    cases marked <;> exact ⟨rfl, rfl, rfl, rfl, rfl⟩
  next h =>
    rw [Bool.eq_false_iff.mpr h]
    exact ⟨rfl, rfl, rfl, rfl, rfl⟩

section Census
variable {s : State} {u ci : Nat} {b : Block} {c : Crew} (hcrew : s.crew? u ci = some (b, c))
include hcrew

section Chosen
variable {y x : Word} (hfree : b.heldAt c = false) (hseq : c.seq = .census (some y))
include hfree hseq

theorem execSpanCensus_census : execSpanCensus u ci s = .next (State.takeCensus u ci censusFuel (some y) s) := by
  simp only [execSpanCensus, hcrew, hfree, hseq, Bool.false_eq_true, if_false]

end Chosen

section Take
variable {lo : Option Word} {x : Word} (fuel : Nat)

theorem takeCensus_none (h : c.smallest lo = none) : State.takeCensus u ci (fuel + 1) lo s = s.sweepEnd u ci := by
  simp only [State.takeCensus, hcrew, h]

variable (hx : c.smallest lo = some x) (hlabel : isHeader x.toNat = false) (hin : x.toNat / 16 < b.nline)
include hx hlabel hin

theorem takeCensus_far (hfar : s.farMove b c x = true) : State.takeCensus u ci (fuel + 1) lo s = s.modCrew u ci fun c =>
    { c with
      line := none, next := none, seq := .load (x.toNat / 16) (.test lo x), busy := max c.busy (s.cyc + 6 + s.late) } := by
  simp only [State.takeCensus, hcrew, hx, hlabel, Nat.not_le.mpr hin, decide_false, Bool.or_self, hfar, Bool.false_eq_true, if_false, if_true]

theorem takeCensus_near (hfar : s.farMove b c x = false) {ln : Line} (hline : c.line = some ln) (hidx : ln.idx = x.toNat / 16)
    (hhas : ln.label (x.toNat % 16 - 1) = true) : State.takeCensus u ci (fuel + 1) lo s = s.startVisit u ci lo x := by
  simp only [State.takeCensus, hcrew, hx, hlabel, Nat.not_le.mpr hin, decide_false, Bool.or_self, hfar, hline, hidx, hhas, Bool.false_eq_true,
    if_false, if_true]

end Take

theorem startVisit_begins {lo : Option Word} {x : Word} (h : s.roWaits b c x = none) : s.startVisit u ci lo x = s.beginVisit u ci x := by
  simp only [State.startVisit, hcrew, h]

/-- With no bad offset among the lanes that want a span, its visit begins and nothing traps. -/
theorem beginVisit_eq {lab : Word}
    (hok : ∀ l ∈ c.lanes, l.wants = true → l.wl = lab → l.ro = 0 ∨ s.inSpan b c lab.toNat l.ro.toNat = true) :
    ∃ marked, s.beginVisit u ci lab = s.modCrew u ci fun c =>
      { c with seq := .visit lab lab, last := some lab, lanes := c.lanes.map (Lane.entered · lab marked) } := by
  have hbad : ∀ l ∈ c.lanes, (l.wants && l.wl == lab && l.ro != 0 && !s.inSpan b c lab.toNat l.ro.toNat) = false := fun l hl => by
    by_contra hb
    simp only [Bool.not_eq_false, Bool.and_eq_true, beq_iff_eq, bne_iff_ne, Bool.not_eq_true'] at hb
    obtain ⟨⟨⟨hwants, hwl⟩, hro⟩, hout⟩ := hb
    rcases hok l hl hwants hwl with hzero | hin
    · exact hro hzero
    · rw [hin] at hout
      cases hout
  have hfault : s.wantedFault u ci (fun l => l.wants && l.wl == lab && l.ro != 0 && !s.inSpan b c lab.toNat l.ro.toNat) = s := by
    rw [State.wantedFault, (block_of_crew hcrew).1]
    exact seqTrap_none hcrew hbad _ _ _
  unfold State.beginVisit
  rw [hcrew]
  dsimp only
  rw [hfault]
  exact ⟨_, rfl⟩

theorem endVisit_eq {pc : Word} (hin : pc.toNat / 16 < b.nline) : s.endVisit u ci pc = s.modCrew u ci fun c =>
    { c with lanes := c.lanes.map fun l => if l.act then { l with wl := pc, ro := 0, act := false } else l } := by
  simp only [State.endVisit, hcrew, Nat.not_le.mpr hin, if_false]

end Census

/-- Settles O42: the choice, the far and the near move, the sweep's end and the fall through. -/
theorem censusChoosesTheSmallest : Obligations.CensusChoosesTheSmallest := by
  unfold Obligations.CensusChoosesTheSmallest
  refine ⟨fun c lo x => smallest_spec, ?_, ?_, ?_, ?_, fun s u ci b c pc hcrew => endVisit_eq hcrew⟩
  · intro s u ci b c y x hcrew hfree hseq hx hlabel hin hfar
    exact (execSpanCensus_census hcrew hfree hseq).trans (congrArg _ (takeCensus_far hcrew 129 hx hlabel hin hfar))
  · intro s u ci b c y x ln hcrew hfree hseq hx hlabel hin hfar hline hidx hhas hro hok
    obtain ⟨marked, hvisit⟩ := beginVisit_eq hcrew hok
    have htake : State.takeCensus u ci censusFuel (some y) s = _ := (takeCensus_near hcrew 129 hx hlabel hin hfar hline hidx hhas).trans
      ((startVisit_begins hcrew hro).trans hvisit)
    refine ⟨_, _, _, (execSpanCensus_census hcrew hfree hseq).trans (congrArg _ htake), modCrew_mem _ _ _ _, modCrew_at hcrew, rfl, rfl,
      fun j l hl => ⟨Lane.entered l x marked, ?_, entered_spec l x marked⟩⟩
    rw [List.getElem?_map, hl]
    rfl
  · intro s u ci b c y hcrew hfree hseq hnone
    exact (execSpanCensus_census hcrew hfree hseq).trans (congrArg _ (takeCensus_none hcrew 129 hnone))
  · intro s u ci b c lab pc hcrew hfree hseq hover
    have hexec : exec (.spanCensus u ci) s = execSpanCensus u ci s := rfl
    rw [hexec]
    simp only [execSpanCensus, hcrew, hfree, hseq, hover, Bool.false_eq_true, if_false, if_true]

/-! ### Code lines (R33, R39, R52, R361) -/

section Load
variable {s s' : State} {u ci time n : Nat} {b : Block} {c : Crew} {k : Cont} (hcrew : s.crew? u ci = some (b, c))
  (hfree : b.heldAt c = false) (hseq : c.seq = .load n k)

theorem filter_of_ne {o : Option Line} (h : ∀ x, o = some x → x.idx ≠ n) : o.filter (·.idx == n) = none := by
  cases o with
  | none => rfl
  | some x => simp [Option.filter, h x rfl]

theorem filter_of_eq {o : Option Line} {l : Line} (h : o = some l) (hidx : l.idx = n) : o.filter (·.idx == n) = some l := by
  subst h
  simp [Option.filter, hidx]

include hcrew hfree hseq

theorem execLoad_slot {l : Line} (hline : c.line = some l) (hidx : l.idx = n) :
    execFetchLineLoad u ci time s = .next (s.lineReady u ci l k) := by
  simp only [execFetchLineLoad, hcrew, hseq, hfree, filter_of_eq hline hidx, Bool.false_eq_true, if_false]

variable (hline : ∀ x, c.line = some x → x.idx ≠ n)
include hline

theorem execLoad_prefetched {l : Line} (hnext : c.next = some l) (hidx : l.idx = n) :
    execFetchLineLoad u ci time s = .next (s.lineLoaded u ci l k time) := by
  simp only [execFetchLineLoad, hcrew, hseq, hfree, filter_of_ne hline, filter_of_eq hnext hidx, Bool.false_eq_true, if_false]

variable (hnext : ∀ x, c.next = some x → x.idx ≠ n)
include hnext

theorem execLoad_fetched {l : Line} (hfetch : s.fetch b ci c n time = (s', .line l)) :
    execFetchLineLoad u ci time s = .next (s'.lineLoaded u ci l k time) := by
  simp only [execFetchLineLoad, hcrew, hseq, hfree, filter_of_ne hline, filter_of_ne hnext, hfetch, Bool.false_eq_true, if_false]

theorem execLoad_waits {w : Park} (hfetch : s.fetch b ci c n time = (s', .wait w)) :
    execFetchLineLoad u ci time s = .next (s'.modCrew u ci fun c => { c with seq := .load n k }) := by
  simp only [execFetchLineLoad, hcrew, hseq, hfree, filter_of_ne hline, filter_of_ne hnext, hfetch, Bool.false_eq_true, if_false]

theorem execLoad_faults {e : Cause} (hfetch : s.fetch b ci c n time = (s', .fault e)) :
    execFetchLineLoad u ci time s = .next ((s'.lineFault u ci n e).afterLineFault u ci k) := by
  simp only [execFetchLineLoad, hcrew, hseq, hfree, filter_of_ne hline, filter_of_ne hnext, hfetch, Bool.false_eq_true, if_false]

end Load

/-- A crew that is there after a change of it is what the change made of one. -/
theorem crew_modCrew {s : State} {u ci : Nat} {f : Crew → Crew} {b' : Block} {c' : Crew} (h : (s.modCrew u ci f).crew? u ci = some (b', c')) :
    ∃ c, c' = f c := by
  obtain ⟨hb, hc⟩ := block_of_crew h
  rw [block_modCrew, if_pos rfl, Option.map_eq_some_iff] at hb
  obtain ⟨b, -, rfl⟩ := hb
  rw [Block.modCrew, List.getElem?_modify_eq] at hc
  obtain ⟨c, -, rfl⟩ := Option.map_eq_some_iff.mp hc
  exact ⟨c, rfl⟩

/-- After a fault of a line neither the fetch slot nor the prefetch holds it, and no lane is active (R52). -/
theorem lineFault_crew {s : State} {u ci n : Nat} {e : Cause} {b' : Block} {c' : Crew} (h : (s.lineFault u ci n e).crew? u ci = some (b', c')) :
    c'.line = none ∧ (∀ x, c'.next = some x → x.idx ≠ n) ∧ ∀ l ∈ c'.lanes, l.act = false := by
  unfold State.lineFault at h
  split at h
  next hnone => rw [State.crew?, hnone] at h; cases h
  next =>
    obtain ⟨c, rfl⟩ := crew_modCrew h
    refine ⟨rfl, fun x hx => ?_, fun l hl => ?_⟩
    · simpa using (Option.filter_eq_some_iff.mp hx).2
    · obtain ⟨l', -, rfl⟩ := List.mem_map.mp hl
      rfl

section Fetch
variable {s t : State} {b : Block} {ci n : Nat} {c : Crew} (time : Nat) {ps : List (Nat × Nat × Xlat)} {r : Option (Nat × XRes)}
  (hrun : State.translateRun b.core (some c.quad) b.asid .exec 4 s (b.code + 128 * n) 128 = (t, ps, r))
include hrun

theorem fetch_faults {va : Nat} {e : Cause} (hr : r = some (va, .fault e)) : s.fetch b ci c n time = (t, .fault e) := by
  subst hr
  simp only [State.fetch, hrun]

theorem fetch_waits {va : Nat} {w : Park} (hr : r = some (va, .park w)) : s.fetch b ci c n time =
    (t.askResidency b ci (c.fetchLane n).1 va (BitVec.ofNat 32 (16 * n)) w, .wait w) := by
  subst hr
  simp only [State.fetch, hrun]

/-- A line that is fetched is the bytes of its place, or zeros where a seal denies it (R49, R328). -/
theorem fetch_line (hr : r = none) : ∃ l, (s.fetch b ci c n time).2 = .line l ∧ l.idx = n ∧ l.words =
    if ∃ p ∈ ps, (t.denies b.part b.clr (pieceOf p.1 p.2.1 p.2.2)).isSome = true then List.replicate 16 0
    else (List.range 16).map fun i => dwordOf ((((t.codeBytes b (ps.map fun p => pieceOf p.1 p.2.1 p.2.2) time).2.drop (8 * i)).take 8)) := by
  subst hr
  simp only [State.fetch, hrun]
  cases hdenied : (ps.map fun p => pieceOf p.1 p.2.1 p.2.2).filterMap fun p => t.denies b.part b.clr p with
  | cons sl sls =>
    refine ⟨_, rfl, rfl, (if_pos ?_).symm⟩
    obtain ⟨q, hq, hsl⟩ := List.mem_filterMap.mp (hdenied ▸ List.mem_cons_self : sl ∈ _)
    obtain ⟨p, hp, rfl⟩ := List.mem_map.mp hq
    exact ⟨p, hp, Option.isSome_iff_exists.mpr ⟨sl, hsl⟩⟩
  | nil =>
    refine ⟨_, rfl, rfl, (if_neg ?_).symm⟩
    rintro ⟨p, hp, hsome⟩
    obtain ⟨sl, hsl⟩ := Option.isSome_iff_exists.mp hsome
    have hmem := List.mem_filterMap.mpr ⟨_, List.mem_map_of_mem (f := fun p => pieceOf p.1 p.2.1 p.2.2) hp, hsl⟩
    rw [hdenied] at hmem
    cases hmem

end Fetch

/-- A run within one L2 line is that run. -/
theorem linesOf_one {a n : Nat} (h : (linesOf a n).length = 1) : linesOf a n = [(a, n)] := by
  simp only [linesOf, List.length_map, List.length_range] at h
  simp only [linesOf, h, List.range_one, List.map_cons, List.map_nil, List.cons.injEq, and_true, Prod.mk.injEq]
  omega

theorem codeBytes_one (s : State) (b : Block) (p : Piece) (time : Nat) (h : (linesOf p.home p.size).length = 1) :
    s.codeBytes b [p] time = (let r := s.codeLine b p.va ⟨p.home, p.key, p.sealId, p.tier, 0, 0⟩ (s.codeFrom b p.va p.home) time
      (r.1, (r.2.drop (p.home % 256)).take p.size)) := by
  simp only [State.codeBytes, List.foldl_cons, List.foldl_nil, linesOf_one h, List.nil_append]

theorem fillTime_now {s : State} (x : Xlat) (since pick : Nat) : s.fillTime x since pick ≤ s.now := by
  unfold State.fillTime
  split
  · split
    next h => exact h.2
    next => exact le_rfl
  · exact le_rfl

theorem codeLine_cached {s : State} {b : Block} {va : Nat} {x : Xlat} {since : Nat} (time : Nat) {l : ILine}
    (h : s.inIcache b.core x.key (x.home / 256) since = some l) : s.codeLine b va x since time = (s, l.data) ∧ since ≤ l.time := by
  have hserves := List.find?_some h
  simp only [Bool.and_eq_true, decide_eq_true_eq] at hserves
  exact ⟨by simp only [State.codeLine, h], hserves.2⟩

theorem codeLine_filled {s : State} {b : Block} {va : Nat} {x : Xlat} {since : Nat} (time : Nat)
    (h : s.inIcache b.core x.key (x.home / 256) since = none) (hsince : since ≤ s.now) : ∃ t, since ≤ t ∧ t ≤ s.now ∧
      (s.codeLine b va x since time).2 = (List.range 256).map fun i => s.readAt x.key t (x.home / 256 * 256 + i) :=
  ⟨s.fillTime x since time, fillTime_from x time hsince, fillTime_now x since time, by simp only [State.codeLine, h]⟩

theorem lineReady_test {s : State} {u ci : Nat} {l : Line} {lo : Option Word} {x : Word} :
    (l.label (x.toNat % 16 - 1) = true → s.lineReady u ci l (.test lo x) = s.startVisit u ci lo x)
    ∧ (l.label (x.toNat % 16 - 1) = false → s.lineReady u ci l (.test lo x) =
      State.takeCensus u ci censusFuel lo (s.wantedFault u ci fun y => y.wants && y.wl == x)) :=
  ⟨fun h => if_pos h, fun h => if_neg (Bool.eq_false_iff.mp h)⟩

/-- Settles O43: where a line comes from, what it holds, and what follows. -/
theorem linesAreLoaded : Obligations.LinesAreLoaded := by
  unfold Obligations.LinesAreLoaded
  exact ⟨fun s u ci time b c n k l hcrew hfree hseq hline => execLoad_slot hcrew hfree hseq hline,
    fun s u ci time b c n k l hcrew hfree hseq hline hnext => execLoad_prefetched hcrew hfree hseq hline hnext,
    fun s u ci time b c n k s' l hcrew hfree hseq hline hnext => execLoad_fetched hcrew hfree hseq hline hnext,
    fun s u ci time b c n k s' w hcrew hfree hseq hline hnext => execLoad_waits hcrew hfree hseq hline hnext,
    fun s u ci n e b' c' => lineFault_crew,
    fun s u ci time b c n k s' e hcrew hfree hseq hline hnext => execLoad_faults hcrew hfree hseq hline hnext,
    fun s u ci l k time hok => if_pos hok,
    fun s u ci l => ⟨fun lab pc => rfl, fun lo x => lineReady_test⟩,
    fun s b ci c n time t ps r hrun => ⟨fun va e => fetch_faults time hrun, fun va w => fetch_waits time hrun, fetch_line time hrun⟩,
    codeBytes_one, fun s b va x since time => ⟨fun l => codeLine_cached time, codeLine_filled time⟩,
    fun s u ci l k time hbad => if_neg (Bool.eq_false_iff.mp hbad)⟩

end Sys2Proof.Proofs
end

