-- ==== Sys2Proof/Proofs/Unparking.lean ====
section
/-! Lanes that unpark, crews that are promoted, and scores that are halved (04_sweep R43, R44; 11_ordering R177; 14_crews R221, R222). -/

namespace Sys2Proof.Proofs

open Sys2Proof.Machine Sys2Proof.Laws

/-! ### A wait that is over (R43, R44, R177) -/

theorem parkedAt_spec {s : State} {u ci j : Nat} {b : Block} {l : Lane} {w : Park} (h : s.parkedAt u ci j = some (b, l, w)) :
    ∃ c, s.crew? u ci = some (b, c) ∧ c.lanes[j]? = some l := by
  unfold State.parkedAt at h
  split at h
  · cases h
  next b' c hcrew =>
    split at h
    next x hx =>
      split at h
      · split at h
        · cases h
          exact ⟨c, hcrew, hx⟩
        · cases h
      · cases h
    · cases h

/-- A lane that has unparked, with what it had of registers and place. -/
structure Unparked (l l' : Lane) : Prop where
  parked : l'.parked = false
  v : l'.v = l.v
  q : l'.q = l.q
  wl : l'.wl = l.wl
  ro : l'.ro = l.ro

/-- The lane unparks, and a sleeping crew with an eligible lane wakes (R44). -/
theorem unpark_spec {s : State} {u ci j : Nat} {b : Block} {c : Crew} {l : Lane} (hcrew : s.crew? u ci = some (b, c)) (hl : c.lanes[j]? = some l) :
    ∃ l', (s.unpark u ci j).laneAt u ci j = some l' ∧ Unparked l l'
      ∧ ∃ b' c', (s.unpark u ci j).crew? u ci = some (b', c') ∧ (c'.lanes.any (·.eligible) = true → c'.seq ≠ .asleep) := by
  let woken : Crew → Crew := fun c =>
    let c := c.modLane j fun x => { x with parked := false, park := none }
    if c.seq == .asleep && c.lanes.any (·.eligible) then { c with seq := .census none } else c
  have hcrew' : (s.unpark u ci j).crew? u ci = some (b.modCrew ci woken, woken c) := modCrew_at hcrew
  have hlanes : (woken c).lanes = c.lanes.modify j fun x => { x with parked := false, park := none } := by
    show (if _ then _ else _ : Crew).lanes = _
    split <;> rfl
  refine ⟨{ l with parked := false, park := none }, ?_, ⟨rfl, rfl, rfl, rfl, rfl⟩, _, _, hcrew', ?_⟩
  · rw [laneAt_of_crew hcrew', hlanes, List.getElem?_modify_eq, hl]
    rfl
  · show (if _ then _ else _ : Crew).lanes.any _ = true → (if _ then _ else _ : Crew).seq ≠ .asleep
    split
    next => exact fun _ h => nomatch h
    next hawake =>
      intro hany hasleep
      exact hawake (by rw [hasleep, hany]; rfl)

/-- What a wait's end does before its lane unparks: a WAITC raises the lane's floor, the others change no lane but `waited`. -/
structure EndsWait (s t : State) (u ci j : Nat) (l : Lane) : Prop where
  bytes : ∀ time a, t.byteAt time a = s.byteAt time a
  lane : ∃ b c l', t.crew? u ci = some (b, c) ∧ c.lanes[j]? = some l' ∧ l'.v = l.v ∧ l'.q = l.q ∧ l'.wl = l.wl ∧ l'.ro = l.ro

theorem endsWait_modLane {s : State} {u ci j : Nat} {b : Block} {c : Crew} {l : Lane} (f : Lane → Lane) (hcrew : s.crew? u ci = some (b, c))
    (hl : c.lanes[j]? = some l) (hf : (f l).v = l.v ∧ (f l).q = l.q ∧ (f l).wl = l.wl ∧ (f l).ro = l.ro) :
    EndsWait s (s.modLane u ci j f) u ci j l :=
  ⟨fun _ _ => rfl, _, _, f l, modCrew_at hcrew, (List.getElem?_modify_eq ..).trans (congrArg (Option.map f) hl), hf⟩

theorem endWait_spec {s : State} {u ci j : Nat} {b : Block} {c : Crew} {l : Lane} (w : Park) (hcrew : s.crew? u ci = some (b, c))
    (hl : c.lanes[j]? = some l) : ∃ t, s.endWait b ci j w = t.unpark u ci j ∧ EndsWait s t u ci j l := by
  obtain ⟨hblk, hc⟩ := block_of_crew hcrew
  obtain rfl := block_uid hblk
  have hsame : EndsWait s s b.uid ci j l := ⟨fun _ _ => rfl, b, c, l, hcrew, hl, rfl, rfl, rfl, rfl⟩
  unfold State.endWait
  split
  next home va cond z rhs off =>
    split
    next p hp =>
      have honly := l2Read_only s b.vf b.core p
      have hcrew' : (s.l2Read b.vf b.core p).crew? b.uid ci = some (b, c) := crew_eq ((onlyL2_block honly b.uid).trans hblk) hc
      obtain ⟨hbytes, hlane⟩ := endsWait_modLane (·.raise s.now p.home z.size) hcrew' hl ⟨rfl, rfl, rfl, rfl⟩
      exact ⟨_, rfl, fun time a => (hbytes time a).trans (onlyL2_byteAt honly time a), hlane⟩
    next => exact ⟨s, rfl, hsame⟩
  next ins all t cs =>
    exact ⟨_, rfl, fun _ _ => rfl, _, c, l, crew_eq (modBlock_at (f := (·.cover ci ins all t)) (fun _ => rfl) hblk) hc, hl, rfl, rfl, rfl, rfl⟩
  next ins ops slot since lab off =>
    exact ⟨_, rfl, endsWait_modLane (fun x => { x with waited := none }) hcrew hl ⟨rfl, rfl, rfl, rfl⟩⟩
  next => exact ⟨s, rfl, hsame⟩

/-! ### Cycles that may pass (R222) -/

/-- A fold that never raises its value ends at or below its start. -/
theorem foldl_le {α : Type} {f : Nat → α → Nat} (hf : ∀ n a, f n a ≤ n) : ∀ (l : List α) (n : Nat), l.foldl f n ≤ n
  | [], _ => le_rfl
  | a :: l, n => (foldl_le hf l (f n a)).trans (hf n a)

/-- A fold that never raises its value ends at or below what one of its elements caps it at. -/
theorem foldl_capped {α : Type} {f : Nat → α → Nat} (hf : ∀ n a, f n a ≤ n) {x : α} {k : Nat} (hx : ∀ n, f n x ≤ k) {l : List α} (hmem : x ∈ l)
    (n : Nat) : l.foldl f n ≤ k := by
  obtain ⟨before, after, rfl⟩ := List.append_of_mem hmem
  rw [List.foldl_append, List.foldl_cons]
  exact (foldl_le hf after _).trans (hx _)

/-- What one crew leaves of the cycles that may pass. -/
def crewCap (s : State) (b : Block) (n : Nat) (c : Crew × Nat) : Nat :=
  if (s.readyInstr b c.2 c.1).isSome then min n (max c.1.since c.1.busy + 2048 - s.cyc) else n

theorem crewCap_le (s : State) (b : Block) (n : Nat) (c : Crew × Nat) : crewCap s b n c ≤ n := by
  unfold crewCap
  split
  · exact Nat.min_le_left _ _
  · exact le_rfl

theorem crewCap_ready {s : State} {b : Block} {ci : Nat} {c : Crew} (hr : (s.readyInstr b ci c).isSome = true) (n : Nat) :
    crewCap s b n (c, ci) ≤ max c.since c.busy + 2048 - s.cyc := by
  rw [crewCap, if_pos hr]
  exact Nat.min_le_right _ _

theorem mayPass_le {s : State} (cycles : Nat) {b : Block} {c : Crew} {ci : Nat} (hready : s.ready = true) (hb : b ∈ s.blocks)
    (hc : b.crews[ci]? = some c) (hr : (s.readyInstr b ci c).isSome = true) : s.mayPass cycles ≤ max c.since c.busy + 2048 - s.cyc := by
  have hmem : (c, ci) ∈ b.crews.zipIdx := List.mk_mem_zipIdx_iff_getElem?.mpr hc
  have hpass : s.mayPass cycles = s.blocks.foldl (fun n b => b.crews.zipIdx.foldl (crewCap s b) n) cycles := by
    rw [State.mayPass, hready]
    rfl
  rw [hpass]
  exact foldl_capped (f := fun n b => b.crews.zipIdx.foldl (crewCap s b) n) (fun n b => foldl_le (crewCap_le s b) _ n)
    (foldl_capped (crewCap_le s b) (crewCap_ready hr) hmem) hb cycles

theorem mem_blocks_of_crew {s : State} {u ci : Nat} {b : Block} {c : Crew} (hcrew : s.crew? u ci = some (b, c)) : b ∈ s.blocks :=
  List.mem_of_find?_eq_some (block_of_crew hcrew).1

/-- The next move comes before a ready crew has waited for more than 2,048 cycles (R222). -/
theorem pass_cyc_le {s : State} (cycles refs : Nat) {u ci : Nat} {b : Block} {c : Crew} (hready : s.ready = true) (hcrew : s.crew? u ci = some (b, c))
    (hr : (s.readyInstr b ci c).isSome = true) (hcyc : s.cyc ≤ max c.since c.busy + 2048) :
    (s.pass cycles refs).cyc ≤ max c.since c.busy + 2048 := by
  have hpass := mayPass_le cycles hready (mem_blocks_of_crew hcrew) (block_of_crew hcrew).2 hr
  have hwatch : (s.pass cycles refs).cyc = s.cyc + s.mayPass cycles := by
    unfold State.pass
    dsimp only
    split
    · rfl
    · rfl
  omega

/-! ### Scores halved (R221) -/

theorem halve_due {s : State} {core : Nat} (hdue : s.decayed core + 1024 ≤ s.cyc) : s.halvings core ≠ 0 := by
  unfold State.halvings
  omega

theorem halve_notDue {s : State} {core : Nat} (hdue : s.cyc < s.decayed core + 1024) : s.halvings core = 0 := by
  unfold State.halvings
  omega

theorem halve_eq {s : State} {core : Nat} (hdue : s.decayed core + 1024 ≤ s.cyc) : s.halve core =
    { s with
      blocks := s.blocks.map fun b =>
        if b.core == core then { b with crews := b.crews.map fun c => { c with score := s.scoreOf core c } } else b
      decays := (core, s.decayed core + 1024 * s.halvings core) :: s.decays.filter (·.1 != core) } :=
  if_neg (halve_due hdue)

theorem decayed_halve {s : State} {core : Nat} (hdue : s.decayed core + 1024 ≤ s.cyc) :
    (s.halve core).decayed core = s.decayed core + 1024 * s.halvings core := by
  rw [halve_eq hdue, State.decayed, List.lookup_cons_self]
  rfl

/-- After the halvings that are due none is, so a halved score counts for what it counted for before. -/
theorem scoreOf_halve {s : State} {core : Nat} (hdue : s.decayed core + 1024 ≤ s.cyc) (c : Crew) :
    (s.halve core).scoreOf core { c with score := s.scoreOf core c } = s.scoreOf core c := by
  have hnone : (s.halve core).halvings core = 0 := by
    have hcyc : (s.halve core).cyc = s.cyc := by rw [halve_eq hdue]
    rw [State.halvings, decayed_halve hdue, hcyc, State.halvings]
    omega
  rw [State.scoreOf, hnone, Nat.pow_zero, Nat.div_one]

/-! ### The moves -/

theorem laneUnpark_over {s : State} {u ci j : Nat} {b : Block} {l : Lane} {w : Park} (hp : s.parkedAt u ci j = some (b, l, w))
    (hover : s.parkOver b ci w = true) : execLaneUnpark u ci j s = .next (s.endWait b ci j w) := by
  simp only [execLaneUnpark, hp, hover, if_true]

theorem laneUnpark_waits {s : State} {u ci j : Nat} {b : Block} {l : Lane} {w : Park} (hp : s.parkedAt u ci j = some (b, l, w))
    (hover : s.parkOver b ci w = false) : execLaneUnpark u ci j s = .next s := by
  simp only [execLaneUnpark, hp, hover, Bool.false_eq_true, if_false]

/-- A lane whose wait is over goes on with its registers, and its crew is awake (R43, R44). -/
theorem laneUnpark_goesOn {s : State} {u ci j : Nat} {b : Block} {l : Lane} {w : Park} (hp : s.parkedAt u ci j = some (b, l, w))
    (hover : s.parkOver b ci w = true) : ∃ t l', execLaneUnpark u ci j s = .next t ∧ (∀ time a, t.byteAt time a = s.byteAt time a)
      ∧ t.laneAt u ci j = some l' ∧ Unparked l l'
      ∧ ∃ b' c', t.crew? u ci = some (b', c') ∧ (c'.lanes.any (·.eligible) = true → c'.seq ≠ .asleep) := by
  obtain ⟨c, hcrew, hl⟩ := parkedAt_spec hp
  obtain ⟨t, ht, hbytes, b₁, c₁, l₁, hcrew₁, hl₁, hv, hq, hwl, hro⟩ := endWait_spec w hcrew hl
  obtain rfl := block_uid (block_of_crew hcrew).1
  obtain ⟨l', hl', hun, hawake⟩ := unpark_spec hcrew₁ hl₁
  refine ⟨_, l', (laneUnpark_over hp hover).trans (congrArg _ ht), fun time a => ?_, hl', ?_, hawake⟩
  · exact hbytes time a
  · exact ⟨hun.parked, hun.v.trans hv, hun.q.trans hq, hun.wl.trans hwl, hun.ro.trans hro⟩

section WaitcPoll

variable {s : State} {u ci j : Nat} {b : Block} {l : Lane} {home va : Nat} {cond : Cond} {z : Acc} {rhs : DWord} {off : Word} {p : Piece}
  (hp : s.parkedAt u ci j = some (b, l, .waitc home va cond z rhs off)) (hpiece : s.waitcPiece b va z.size = some p)
include hp hpiece

theorem waitcPoll_false (hfalse : s.waitcTrue b.part b.clr p cond z rhs = false) : execWaitcPoll u ci j s = .next s := by
  simp only [execWaitcPoll, hp, State.waitcNow, hpiece, hfalse, Bool.false_eq_true, if_false]

theorem waitcPoll_true (htrue : s.waitcTrue b.part b.clr p cond z rhs = true) : execWaitcPoll u ci j s =
    .next (((s.l2Read b.vf b.core p).modLane u ci j (·.raise s.now p.home z.size)).unpark u ci j) := by
  obtain ⟨c, hcrew, _⟩ := parkedAt_spec hp
  obtain rfl := block_uid (block_of_crew hcrew).1
  simp only [execWaitcPoll, hp, State.waitcNow, hpiece, htrue, if_true, State.endWait]

end WaitcPoll

theorem crewPromote_due {s : State} {u ci : Nat} {b : Block} {c : Crew} (hcrew : s.crew? u ci = some (b, c))
    (hr : (s.readyInstr b ci c).isSome = true) (hsince : c.since + 1024 ≤ s.cyc) :
    execCrewPromote u ci s = .next (s.modCrew u ci fun c => { c with promoted := true }) := by
  simp only [execCrewPromote, hcrew, hr, hsince, decide_true, Bool.and_self, if_true]

theorem crewPromote_notDue {s : State} {u ci : Nat} {b : Block} {c : Crew} (hcrew : s.crew? u ci = some (b, c))
    (hnot : (s.readyInstr b ci c).isSome = false ∨ s.cyc < c.since + 1024) : execCrewPromote u ci s = .next s := by
  have hcond : ((s.readyInstr b ci c).isSome && decide (c.since + 1024 ≤ s.cyc)) = false := by
    rcases hnot with hr | hsince
    · rw [hr, Bool.false_and]
    · rw [decide_eq_false (by omega), Bool.and_false]
  simp only [execCrewPromote, hcrew, hcond, Bool.false_eq_true, if_false]

/-- Settles O44: a lane whose wait is over unparks from a state that `endWait_spec` describes; the cycles that may pass are a minimum over the
ready crews; and halving a score by what is due leaves no halving due. -/
theorem lanesUnpark : Obligations.LanesUnpark := by
  refine ⟨?_, fun s u ci j b l w hp hover => laneUnpark_waits hp hover, fun s u ci j b l home va cond z rhs off p hp hpiece =>
    ⟨waitcPoll_false hp hpiece, waitcPoll_true hp hpiece⟩, fun s u ci b c hcrew => ⟨crewPromote_due hcrew, crewPromote_notDue hcrew⟩,
    fun s cycles refs u ci b c hready hcrew hr hcyc => pass_cyc_le cycles refs hready hcrew hr hcyc, ?_, ?_⟩
  · intro s u ci j b l w hp hover
    obtain ⟨t, l', ht, hbytes, hl', ⟨hparked, hv, hq, hwl, hro⟩, hawake⟩ := laneUnpark_goesOn hp hover
    exact ⟨t, l', ht, hbytes, hl', hparked, hv, hq, hwl, hro, hawake⟩
  · intro s core hdue
    refine ⟨s.halve core, rfl, ?_, ?_, decayed_halve hdue, scoreOf_halve hdue⟩
    · rw [halve_eq hdue]
      exact fun _ _ _ => rfl
    · rw [halve_eq hdue]
      simp only [beq_iff_eq, State.scoreOf, State.halvings]
  · intro s core hdue
    exact congrArg Host.Outcome.next (if_pos (halve_notDue hdue))

end Sys2Proof.Proofs
end

