-- ==== Sys2Proof/Proofs/HandlerCrews.lean ====
section
/-! Handler crews as they form (21_traps_preemption R332, R333). -/

namespace Sys2Proof.Proofs

open Sys2Proof.Machine Sys2Proof.Laws

/-- The lane of a handler crew that stands for a gathered lane (R333). -/
def handlerLane (p : Part) (core i : Nat) (h : HLane) : Lane :=
  let l := Lane.start Config.handlerBudget (BitVec.ofNat 32 p.hlbl) (BitVec.ofNat 32 (128 * (core - p.firstCore) + i))
    (rngSeed h.tag (BitVec.ofNat 32 i))
  { l with v := (l.v.set 0 (bits h.tag 0 32)).set 1 (bits h.tag 32 32) }

theorem handlerLane_v (p : Part) (core i : Nat) (h : HLane) :
    (handlerLane p core i h).v = ((List.replicate Config.handlerBudget 0).set 0 (bits h.tag 0 32)).set 1 (bits h.tag 32 32) := rfl

/-- A lane of a handler crew stands for the gathered lane at its slot, or for none. -/
theorem handlerCrew_lane (p : Part) (core age : Nat) (hs : List HLane) {i : Nat} (hi : i < 128) : (handlerCrew p core age hs).lanes[i]? =
    some ((hs[i]?).elim (Lane.blank Config.handlerBudget) (handlerLane p core i)) := by
  have hlanes : (handlerCrew p core age hs).lanes = (List.range 128).map fun i => (hs[i]?).elim (Lane.blank Config.handlerBudget) (handlerLane p core i) := by
    refine List.map_congr_left fun i _ => ?_
    cases hs[i]? with
    | none => rfl
    | some h => rfl
  rw [hlanes, List.getElem?_map, List.getElem?_range hi]
  rfl

/-- Its tag stands in v0 and v1 (R333). -/
theorem handlerLane_tag (p : Part) (core i : Nat) (h : HLane) :
    regAt (handlerLane p core i h).v 0 = bits h.tag 0 32 ∧ regAt (handlerLane p core i h).v 1 = bits h.tag 32 32 := by
  rw [handlerLane_v]
  exact ⟨rfl, rfl⟩

/-! ### What forms a crew -/

theorem formFull_forms {s : State} {core : Nat} (hfree : s.handlerBusy core = false) (hfull : 128 ≤ (s.gatheredOn core).length) :
    execHandlerCrewFormFull core s = .next (s.formHandler core ((s.gatheredOn core).take 128) ((s.gatheredOn core).drop 128)) := by
  simp only [execHandlerCrewFormFull, hfree, hfull, decide_true, Bool.not_false, Bool.and_self, if_true]

theorem formTimeout_forms {s : State} {core : Nat} {h : HLane} {hs : List HLane} (hfree : s.handlerBusy core = false)
    (hgathered : s.gatheredOn core = h :: hs) (hdue : h.time + 256 ≤ s.cyc) :
    execHandlerCrewFormTimeout core s = .next (s.formHandler core ((h :: hs).take 128) ((h :: hs).drop 128)) := by
  simp only [execHandlerCrewFormTimeout, hgathered, hfree, hdue, decide_true, Bool.not_false, Bool.and_self, if_true]

section Busy

variable {s : State} {core : Nat} (hbusy : s.handlerBusy core = true)
include hbusy

theorem formFull_busy : execHandlerCrewFormFull core s = .next s := by
  simp only [execHandlerCrewFormFull, hbusy, Bool.not_true, Bool.false_and, Bool.false_eq_true, if_false]

theorem formTimeout_busy : execHandlerCrewFormTimeout core s = .next s := by
  unfold execHandlerCrewFormTimeout
  split
  next => rfl
  next => simp only [hbusy, Bool.not_true, Bool.false_and, Bool.false_eq_true, if_false]

end Busy

section Forming

variable {s : State} {core : Nat} {h : HLane} (hs rest : List HLane)

/-- A crew that forms is a block of its own, at the image of its partition's handler (R333, R334). -/
theorem formHandler_block {n : Nat} (himage : s.imageLines core (s.part h.part).hasid (s.part h.part).himg = .ok n) :
    ∃ b, (s.formHandler core (h :: hs) rest).blocks = s.blocks ++ [b] ∧ b.level = 4 ∧ b.hnd = h :: hs
      ∧ b.core = core ∧ b.code = (s.part h.part).himg + 128 ∧ b.nline = n ∧ b.asid = (s.part h.part).hasid
      ∧ b.crews = [handlerCrew (s.part h.part) core s.nextAge (h :: hs)] := by
  simp only [State.formHandler, himage]
  exact ⟨_, rfl, rfl, rfl, rfl, rfl, rfl, rfl, rfl⟩

theorem formHandler_waits {w : Park} (himage : s.imageLines core (s.part h.part).hasid (s.part h.part).himg = .error w) :
    s.formHandler core (h :: hs) rest = s.askResidencyFront h.part ((s.part h.part).holder.getD 64) (s.part h.part).himg w := by
  simp only [State.formHandler, himage]

end Forming

/-- Settles O45: the lanes of a handler crew are `handlerCrew_lane`'s, and the conditions of the two moves are tests they make. -/
theorem handlerCrewsForm : Obligations.HandlerCrewsForm := by
  refine ⟨fun s core => formFull_forms, fun s core hbusy => ⟨formFull_busy hbusy, formTimeout_busy hbusy⟩,
    fun s core h hs => formTimeout_forms, fun s core h hs rest n => formHandler_block hs rest, fun s core h hs rest w => formHandler_waits hs rest, ?_, ?_⟩
  · intro p core age hs i h hi hlt
    obtain ⟨htag, htag'⟩ := handlerLane_tag p core i h
    refine ⟨handlerLane p core i h, ?_, rfl, rfl, htag, htag', rfl⟩
    rw [handlerCrew_lane p core age hs hlt, hi]
    rfl
  · intro p core age hs i hi hlt
    refine ⟨Lane.blank Config.handlerBudget, ?_, rfl⟩
    rw [handlerCrew_lane p core age hs hlt, hi]
    rfl

end Sys2Proof.Proofs
end

