-- ==== Sys2Proof/Proofs/BlocksThatEnd.lean ====
section
/-! Blocks that stop and blocks that complete (11_ordering R170; 21_traps_preemption R336, R338, R339). -/

namespace Sys2Proof.Proofs

open Sys2Proof.Machine Sys2Proof.Laws

/-! ### Pins let go, blocks taken out -/

theorem slotLine_unpinL2 (s : State) (u sl a : Nat) :
    (s.unpinL2 u).slotLine sl a = (s.slotLine sl a).map fun l => { l with pins := l.pins.filter (·.1 != u) } := by
  unfold State.slotLine State.unpinL2
  rw [List.find?_map, Option.filter_map]
  rfl

theorem unpinL2_mem (s : State) (u : Nat) : SameMemory s (s.unpinL2 u) :=
  sameMem rfl rfl rfl rfl rfl fun sl x => by
    rw [slotLine_unpinL2, Option.map_map]
    rfl

theorem settle_mem (s : State) (u : Nat) : SameMemory s (s.settle u) := device_mem (settle_device s u)

/-- What taking a block out leaves of the rest of the device. -/
structure Removed (s t : State) (u : Nat) : Prop where
  mem : SameMemory s t
  gone : t.block? u = none
  others : ∀ v, v ≠ u → t.block? v = s.block? v
  launches : t.launches = s.launches

theorem removeBlock_spec (s : State) (b : Block) : Removed s (s.removeBlock b) b.uid := by
  let out : State := { s with
    blocks := s.blocks.filter (·.uid != b.uid), opCache := s.opCache.filter (·.blk != b.uid)
    hostReqs := s.hostReqs.filter (·.blk != b.uid) }
  have hout : Removed s (out.unpinL2 b.uid) b.uid := by
    refine ⟨sameMemory_trans (sameMem rfl rfl rfl rfl) (unpinL2_mem out b.uid), ?_, fun v hv => ?_, rfl⟩
    · exact List.find?_eq_none.mpr fun x hx => by
        have hne := (List.mem_filter.mp hx).2
        simpa using hne
    · refine List.find?_filter.trans (congrArg (fun p => s.blocks.find? p) (funext fun x => ?_))
      by_cases hx : x.uid = v
      · simp [hx, hv]
      · simp [hx]
  show Removed s (if _ then _ else _) b.uid
  split
  · exact ⟨sameMemory_trans hout.mem (sameMem rfl rfl rfl rfl), hout.gone, hout.others, hout.launches⟩
  · exact hout

theorem launch_modLaunch (s : State) (i : Word) {f : Launch → Launch} (hf : ∀ l, (f l).id = l.id) :
    (s.modLaunch i f).launch? i = (s.launch? i).map f := by
  have hkeep : ((·.id == i) ∘ fun l : Launch => if l.id == i then f l else l) = fun l : Launch => l.id == i := funext fun l => by
    simp only [Function.comp]
    split
    · rw [hf]
    · rfl
  simp only [State.launch?, modLaunch_launches, List.find?_map, hkeep]
  cases h : s.launches.find? (·.id == i) with
  | none => rfl
  | some l => rw [Option.map_some, if_pos (by simpa using List.find?_some h)]; rfl

/-! ### A block that stops (R338) -/

/-- A crew that an abort has stopped. -/
structure CrewStopped (c : Crew) : Prop where
  queue : c.queue = []
  lanes : ∀ l ∈ c.lanes, l.act = false ∧ (l.trapped = false → l.done = true)

theorem stopAborted_stopped (c : Crew) : CrewStopped c.stopAborted := by
  refine ⟨rfl, fun l hl => ?_⟩
  obtain ⟨x, _, rfl⟩ := List.mem_map.mp hl
  cases ht : x.trapped with
  | true => exact ⟨by simp, fun h => by simp at h⟩
  | false => exact ⟨by simp, fun _ => by simp⟩

theorem unparkWhere_stopped (p : Park → Bool) {c : Crew} (h : CrewStopped c) : CrewStopped (c.unparkWhere p) := by
  refine ⟨h.queue, fun l hl => ?_⟩
  obtain ⟨x, hx, rfl⟩ := List.mem_map.mp hl
  obtain ⟨hact, hdone⟩ := h.lanes x hx
  split
  · split
    · exact ⟨hact, hdone⟩
    · exact ⟨hact, hdone⟩
  · exact ⟨hact, hdone⟩

/-- A block of some number of crews, all stopped, with its engines stopped but for scatter-adds. -/
structure BlockStopped (n : Nat) (b : Block) : Prop where
  mcmds : b.mcmds = []
  ccmds : ∀ c ∈ b.ccmds, ∃ t a r i o, c.kind = .scatadd t a r i o
  length : b.crews.length = n
  crews : ∀ c ∈ b.crews, CrewStopped c

theorem scatterAdd_kind {c : CCmd} (h : c.scatterAdd = true) : ∃ t a r i o, c.kind = .scatadd t a r i o := by
  unfold CCmd.scatterAdd at h
  split at h
  next t a r i o hk => exact ⟨t, a, r, i, o, hk⟩
  next => cases h

/-- What an abort's stop does to a block. -/
def stoppedBlock (b : Block) : Block :=
  { b with
    errs := b.errs.map fun e => match b.crews.find? (·.cid == e.1) with
      | some c => (e.1, c.visiting, c.skid)
      | none => e
    crews := b.crews.map (·.stopAborted)
    mcmds := [], pending := [], past := [], spLog := []
    ccmds := b.ccmds.filter (·.scatterAdd) }

theorem stoppedBlock_stopped (b : Block) : BlockStopped b.crews.length (stoppedBlock b) := by
  refine ⟨rfl, fun c hc => scatterAdd_kind (List.mem_filter.mp hc).2, List.length_map .., fun c hc => ?_⟩
  obtain ⟨x, _, rfl⟩ := List.mem_map.mp hc
  exact stopAborted_stopped x

/-- A look at the barriers keeps a block stopped. -/
theorem settle_stopped {s : State} {u n : Nat} {b : Block} (hb : s.block? u = some b) (h : BlockStopped n b) :
    ∃ b', (s.settle u).block? u = some b' ∧ BlockStopped n b' := by
  obtain ⟨b', hb', hkeep⟩ := rel_settle (R := fun b b' => BlockStopped n b → BlockStopped n b') (fun _ h => h) (fun h h' x => h' (h x))
    (fun b _ _ _ _ p h => ⟨h.mcmds, h.ccmds, (List.length_map ..).trans h.length, fun c hc => by
      obtain ⟨x, hx, rfl⟩ := List.mem_map.mp hc
      exact unparkWhere_stopped p (h.crews x hx)⟩) u hb
  exact ⟨b', hb', hkeep h⟩

section Stop

variable {s : State} {u : Nat} {b : Block} (hb : s.block? u = some b)
include hb

theorem abortStop_notAborted (h : b.abort = none) : execBlockAbortStop u s = .next s := by
  simp only [execBlockAbortStop, hb, h, Option.isNone_none, Bool.true_or, if_true]

theorem abortStop_stopped (h : b.runs = false) : execBlockAbortStop u s = .next s := by
  simp only [execBlockAbortStop, hb, h, Bool.not_false, Bool.or_true, Bool.true_or, if_true]

theorem abortStop_stops {x : DWord × Origin} (ha : b.abort = some x) (hruns : b.runs = true) (hmid : b.midStep = false)
    (hmay : (b.crews.all fun c => c.mayStop) = true) :
    execBlockAbortStop u s = .next (((s.modBlock u stoppedBlock).unpinL2 u).settle u) := by
  simp only [execBlockAbortStop, hb, ha, hruns, hmid, hmay, Option.isNone_some, Bool.not_true, Bool.or_self, Bool.false_eq_true, if_false]
  rfl

theorem stop_spec : SameMemory s (((s.modBlock u stoppedBlock).unpinL2 u).settle u)
    ∧ ∃ b', (((s.modBlock u stoppedBlock).unpinL2 u).settle u).block? u = some b' ∧ BlockStopped b.crews.length b' := by
  have hblock : SameMemory s (s.modBlock u stoppedBlock) := sameMem rfl rfl rfl rfl
  refine ⟨sameMemory_trans (sameMemory_trans hblock (unpinL2_mem _ u)) (settle_mem ((s.modBlock u stoppedBlock).unpinL2 u) u), ?_⟩
  have hb' : ((s.modBlock u stoppedBlock).unpinL2 u).block? u = some (stoppedBlock b) := modBlock_at (f := stoppedBlock) (fun _ => rfl) hb
  exact settle_stopped hb' (stoppedBlock_stopped b)

end Stop

/-! ### A block that completes (R170, R336) -/

/-- Nothing of a block is under way but its stores and what the host owes it (R170, R336). -/
structure NothingUnderWay (s : State) (u : Nat) (b : Block) : Prop where
  block : s.block? u = some b
  crews : (b.crews.all fun c => c.seq == .retired && c.queue.isEmpty) = true
  mcmds : b.mcmds = []
  ccmds : b.ccmds = []
  posted : (s.posted.any (·.blk == u)) = false
  peers : s.peersReach b = false
  hnd : b.hnd = []
  unacked : b.unacked = 0

section Complete

variable {s : State} {u : Nat} {b : Block}

theorem complete_noError (h : NothingUnderWay s u b) (herr : b.errs? = false) : execBlockComplete u s =
    .next (((s.drainAll u).modLaunch b.launch fun l => { l with completed := l.completed + 1 }).removeBlock b) := by
  obtain ⟨hb, hcrews, hmcmds, hccmds, hposted, hpeers, hhnd, hunacked⟩ := h
  simp only [execBlockComplete, hb, hcrews, hmcmds, hccmds, hposted, hpeers, hhnd, hunacked, herr, List.isEmpty_nil, Bool.not_true,
    Bool.or_self, Bool.false_eq_true, if_false, bne_self_eq_false]

theorem complete_waits (h : NothingUnderWay s u b) (herr : b.errs? = true) {t : State} {va : Nat} {w : Park}
    (hw : (s.drainAll u).writeError b = (t, .wait va w)) :
    execBlockComplete u s = .next ((s.drainAll u).askResidencyFront b.part b.vf va w) := by
  obtain ⟨hb, hcrews, hmcmds, hccmds, hposted, hpeers, hhnd, hunacked⟩ := h
  simp only [execBlockComplete, hb, hcrews, hmcmds, hccmds, hposted, hpeers, hhnd, hunacked, herr, hw, List.isEmpty_nil, Bool.not_true,
    Bool.or_self, Bool.false_eq_true, if_false, if_true, bne_self_eq_false]

theorem complete_written (h : NothingUnderWay s u b) (herr : b.errs? = true) {t : State}
    (hw : (s.drainAll u).writeError b = (t, .done)) : execBlockComplete u s =
      .next ((t.modLaunch b.launch fun l => { l with completed := l.completed + 1 }).removeBlock b) := by
  obtain ⟨hb, hcrews, hmcmds, hccmds, hposted, hpeers, hhnd, hunacked⟩ := h
  simp only [execBlockComplete, hb, hcrews, hmcmds, hccmds, hposted, hpeers, hhnd, hunacked, herr, hw, List.isEmpty_nil, Bool.not_true,
    Bool.or_self, Bool.false_eq_true, if_false, if_true, bne_self_eq_false]

theorem complete_crewsLive (hb : s.block? u = some b) (hcrews : (b.crews.all fun c => c.seq == .retired && c.queue.isEmpty) = false) :
    execBlockComplete u s = .next s := by
  simp only [execBlockComplete, hb, hcrews, Bool.not_false, Bool.true_or, if_true]

theorem complete_peersReach (hb : s.block? u = some b) (hpeers : s.peersReach b = true) : execBlockComplete u s = .next s := by
  simp only [execBlockComplete, hb, hpeers, Bool.or_true, if_true]

theorem drainAll_empty (hb : s.block? u = some b) (hbuf : b.storeBuf = []) : s.drainAll u = s := by
  simp only [State.drainAll, hb, hbuf, List.length_nil, State.drainFirst]

/-- A block that is counted as completed and taken out. -/
theorem completed_spec (s : State) (b : Block) :
    let t := (s.modLaunch b.launch fun l => { l with completed := l.completed + 1 }).removeBlock b
    SameMemory s t ∧ t.block? b.uid = none ∧ (∀ v, v ≠ b.uid → t.block? v = s.block? v)
      ∧ t.launch? b.launch = (s.launch? b.launch).map fun l => { l with completed := l.completed + 1 } := by
  obtain ⟨hmem, hgone, hothers, hlaunches⟩ := removeBlock_spec (s.modLaunch b.launch fun l => { l with completed := l.completed + 1 }) b
  refine ⟨sameMemory_trans (sameMem rfl rfl rfl rfl) hmem, hgone, hothers, ?_⟩
  exact (congrArg (fun ls => List.find? (fun l : Launch => l.id == b.launch) ls) hlaunches).trans (launch_modLaunch s b.launch fun _ => rfl)

end Complete

theorem peersReach_iff (s : State) (b : Block) : s.peersReach b = true ↔
    ∃ x ∈ s.groupOf b, x.uid ≠ b.uid ∧ ∃ c ∈ x.crews, ∃ o ∈ c.queue, b.core ∈ o.what.cores x.core := by
  simp only [State.peersReach, List.any_eq_true, Bool.and_eq_true, bne_iff_ne, List.contains_iff_mem]

/-- Settles O46: a stop leaves a block that `BlockStopped` describes, which looking at its barriers keeps; a completion counts the block and
takes it out. -/
theorem blocksEnd : Obligations.BlocksEnd := by
  refine ⟨fun s u b hb => abortStop_notAborted hb, fun s u b hb => abortStop_stopped hb, ?_, ?_, ?_, fun s u b hb => complete_crewsLive hb,
    fun s u b hb => complete_peersReach hb, peersReach_iff⟩
  · intro s u b x hb ha hruns hmid hmay
    obtain ⟨hmem, b', hb', hstop⟩ := stop_spec hb
    refine ⟨_, b', abortStop_stops hb ha hruns hmid hmay, hmem, hb', hstop.mcmds, hstop.ccmds, hstop.length, fun ci c hc => ?_⟩
    obtain ⟨hqueue, hlanes⟩ := hstop.crews c (List.mem_of_getElem? hc)
    exact ⟨hqueue, hlanes⟩
  · intro s u b hb hcrews hmcmds hccmds hposted hpeers hhnd hbuf hunacked herr
    obtain rfl := block_uid hb
    have hnext := complete_noError ⟨hb, hcrews, hmcmds, hccmds, hposted, hpeers, hhnd, hunacked⟩ herr
    rw [drainAll_empty hb hbuf] at hnext
    exact ⟨_, hnext, completed_spec s b⟩
  · intro s u b hb hcrews hmcmds hccmds hposted hpeers hhnd hunacked herr
    have h : NothingUnderWay s u b := ⟨hb, hcrews, hmcmds, hccmds, hposted, hpeers, hhnd, hunacked⟩
    exact ⟨fun t va w => complete_waits h herr, fun t => complete_written h herr⟩

end Sys2Proof.Proofs
end

