-- ==== Sys2Proof/Proofs/Launches.lean ====
section
/-! Launch records: how a front end takes them, checks them and signals their completion (22_tenants R360 to R362). -/

namespace Sys2Proof.Proofs

open Sys2Proof.Machine Sys2Proof.Laws

/-! ### The front end turns to a list (R360) -/

section Take

variable {s : State} {vf j part : Nat}

/-- The front end of the function's partition serves it, once it has paid the words it owes: what it then does with the list. -/
theorem launchListTake_eq (hj : j < 8) (hpart : (s.func vf).partNo = part) (hplacing : (s.payWords part).placing part = some vf) :
    execLaunchListTake vf j s = .next (match ((s.payWords part).func vf).taken.lookup j with
      | some r => (s.payWords part).checkTaken part vf j r
      | none => if (s.payWords part).listOn vf j then (s.payWords part).turnToList part vf j else s.payWords part) := by
  have hnot : (decide (8 ≤ j) || (s.payWords part).placing part != some vf) = false := by
    rw [hplacing, bne_self_eq_false, Bool.or_false, decide_eq_false (by omega)]
  subst hpart
  simp only [execLaunchListTake, hnot, Bool.false_eq_true, if_false] <;> rfl

end Take

section Turn

variable {s s1 : State} {part vf j : Nat} {l : BitVec 128} {core : Nat} (hl : (s.func vf).listRec j = l) (hcore : (s.part part).firstCore = core)
include hl hcore

section Read

variable {ps : List Piece} (hread : s.plainRun core (listAsid l) (listRing l) 16 .read = (s1, .ok ps))
include hread

/-- The head and the tail of a list are read as one (R360): what the front end does with them. -/
theorem turnToList_empty {h t : DWord} (hh : BitVec.ofNat 64 (leNat ((s1.readRun vf core ps).2.take 8)) = h)
    (ht : BitVec.ofNat 64 (leNat ((s1.readRun vf core ps).2.drop 8)) = t) (hempty : (h - t).toInt ≤ 0) :
    s.turnToList part vf j = (s1.readRun vf core ps).1.modFunc vf fun f => { f with watched := (j :: f.watched).dedup } := by
  simp only [State.turnToList, hl, hcore, hread, hh, ht, hempty, if_true]

theorem turnToList_notTurned {h t : DWord} (hh : BitVec.ofNat 64 (leNat ((s1.readRun vf core ps).2.take 8)) = h)
    (ht : BitVec.ofNat 64 (leNat ((s1.readRun vf core ps).2.drop 8)) = t) (hfull : 0 < (h - t).toInt)
    (hturn : (s1.readRun vf core ps).1.arbitrate part ≠ some (.take j)) : s.turnToList part vf j = (s1.readRun vf core ps).1 := by
  simp only [State.turnToList, hl, hcore, hread, hh, ht, not_le.mpr hfull, if_false, bne_iff_ne.mpr hturn, if_true]

theorem turnToList_takes {h t : DWord} (hh : BitVec.ofNat 64 (leNat ((s1.readRun vf core ps).2.take 8)) = h)
    (ht : BitVec.ofNat 64 (leNat ((s1.readRun vf core ps).2.drop 8)) = t) (hfull : 0 < (h - t).toInt)
    (hturn : (s1.readRun vf core ps).1.arbitrate part = some (.take j)) {s3 : State} {ts : List Piece}
    (hwrite : (s1.readRun vf core ps).1.plainRun core (listAsid l) (listRing l + 8) 8 .write = (s3, .ok ts)) :
    s.turnToList part vf j = s3.takeRecord part vf j l t ts := by
  simp only [State.turnToList, hl, hcore, hread, hh, ht, not_le.mpr hfull, if_false, hturn, bne_self_eq_false, Bool.false_eq_true, hwrite]

end Read

theorem turnToList_faults {c : Cause} {va : Nat} (hread : s.plainRun core (listAsid l) (listRing l) 16 .read = (s1, .fault c va)) :
    s.turnToList part vf j = if s.arbitrate part = some (.take j) then s.outOfService part vf j (listRing l) else s := by
  simp only [State.turnToList, hl, hcore, hread, beq_iff_eq]

end Turn

/-! ### A record that is taken (R360, R361) -/

theorem takeRecord_read {s s1 : State} {part vf j : Nat} {l : BitVec 128} {t : DWord} {ts ps : List Piece}
    (hread : s.plainRun (s.part part).firstCore (listAsid l) (listSlot l t.toNat) 64 .read = (s1, .ok ps)) :
    s.takeRecord part vf j l t ts =
      ((((s1.readRun vf (s1.part part).firstCore ps).1.noteTurn part vf (listKind l) 0).advanceTail vf j t ts).modFunc vf fun f =>
        { f with taken := f.taken ++ [(j, BitVec.ofNat 512 (leNat (s1.readRun vf (s1.part part).firstCore ps).2))] }).checkTaken part vf j
          (BitVec.ofNat 512 (leNat (s1.readRun vf (s1.part part).firstCore ps).2)) := by
  simp only [State.takeRecord, hread]

section Check

variable {s s1 : State} {part vf j : Nat} {r : BitVec 512}

theorem checkTaken_waits (h : s.checkLaunch part vf r = (s1, .wait)) : s.checkTaken part vf j r = s1 := by
  simp only [State.checkTaken, h]

theorem checkTaken_refuses {why : Nat} (h : s.checkLaunch part vf r = (s1, .refuse why)) : s.checkTaken part vf j r =
    (s1.modFunc vf fun f => { f with taken := f.taken.filter (· != (j, r)) }).refuseLaunch part vf r why := by
  simp only [State.checkTaken, h]

theorem checkTaken_accepts {args : List Word} {hdr : BitVec 1024} (h : s.checkLaunch part vf r = (s1, .accept args hdr)) :
    s.checkTaken part vf j r = (s1.modFunc vf fun f => { f with taken := f.taken.filter (· != (j, r)) }).acceptLaunch part vf j r args hdr := by
  simp only [State.checkTaken, h]

theorem refuseLaunch_written {why : Nat} (h : s.writeWord part vf r 0 (completionWord 3 why 0 0) = (s1, true)) :
    s.refuseLaunch part vf r why = s1 := by
  simp only [State.refuseLaunch, h]

theorem refuseLaunch_owed {why : Nat} (h : s.writeWord part vf r 0 (completionWord 3 why 0 0) = (s1, false)) :
    s.refuseLaunch part vf r why = { s1 with words := s1.words ++ [⟨part, vf, r, completionWord 3 why 0 0⟩] } := by
  simp only [State.refuseLaunch, h]

end Check

/-- The counter's next number, 0 being skipped (R361). -/
theorem nextLaunchId_eq (c : Word) : nextLaunchId c = if c + 1 = 0 then 1 else c + 1 := by
  simp only [nextLaunchId, beq_iff_eq]

/-! ### Completion words (R362) -/

theorem completionWord_fields {st why : Nat} (nerr : Nat) (id : Word) (hst : st < 16) (hwhy : why < 16) :
    (bits (completionWord st why nerr id) 60 4).toNat = st ∧ (bits (completionWord st why nerr id) 56 4).toNat = why
      ∧ (bits (completionWord st why nerr id) 32 24).toNat = min nerr (2 ^ 24 - 1) ∧ bits (completionWord st why nerr id) 0 32 = id := by
  unfold completionWord
  refine ⟨?_, ?_, ?_, ?_⟩
  · rw [bits_append_high _ _ 60 4 (by omega), bits_append_high _ _ 28 4 (by omega), bits_append_high _ _ 4 4 (by omega), bits_all,
      BitVec.toNat_ofNat, Nat.mod_eq_of_lt hst]
  · rw [bits_append_high _ _ 56 4 (by omega), bits_append_high _ _ 24 4 (by omega), bits_append_low _ _ 0 4 (by omega), bits_all,
      BitVec.toNat_ofNat, Nat.mod_eq_of_lt hwhy]
  · rw [bits_append_high _ _ 32 24 (by omega), bits_append_low _ _ 0 24 (by omega), bits_all, BitVec.toNat_ofNat, Nat.mod_eq_of_lt (by omega)]
  · rw [bits_append_low _ _ 0 32 (by omega), bits_all]

theorem writeWord_written {s s1 : State} {part vf : Nat} {r : BitVec 512} {id : Word} {w : DWord} {ps : List Piece} (halign : recCword r % 8 = 0)
    (hrun : s.checkRun (s.part part).firstCore (recAsid r) part (recClr r) (recCword r) 8 .write = (s1, .ok ps)) :
    s.writeWord part vf r id w = (s1.writeRun vf 0 ps (leBytes 8 w.toNat), true) := by
  simp only [State.writeWord, halign, ne_eq, not_true_eq_false, if_false, hrun]

theorem listHeadWake_wakes {s : State} {vf j : Nat} (hwatch : (s.func vf).watched.contains j = true)
    (hhas : s.listHas (s.func vf).partNo vf j = true) :
    execListHeadWake vf j s = .next (s.modFunc vf fun f => { f with watched := f.watched.filter (· != j) }) := by
  simp only [execListHeadWake, hwatch, hhas, Bool.and_self, if_true]

section Complete

variable {s : State} {id : Word} {l : Launch} (hl : s.launch? id = some l)
include hl

theorem launchComplete_writes {s1 : State} (hdone : l.completed = recGrid l.record) (hlost : (s.func l.vf).lost = false)
    (hword : s.writeWord l.part l.vf l.record id (completionWord (if l.nerr = 0 then 1 else 2) 0 l.nerr id) = (s1, true)) :
    execLaunchComplete id s = .next { s1 with launches := s1.launches.filter (·.id != id) } := by
  simp only [execLaunchComplete, hl, if_pos hdone, hlost, hword, Bool.false_eq_true, if_false]

theorem launchComplete_waits (hopen : l.completed ≠ recGrid l.record) : execLaunchComplete id s = .next s := by
  simp only [execLaunchComplete, hl, if_neg hopen]

end Complete

/-- Settles O47: each clause is one branch of a front end's moves, by what its reads, its checks and its words end as. -/
theorem launchesAreTaken : Obligations.LaunchesAreTaken := by
  refine ⟨?_, fun s part vf j l t ts s1 ps => takeRecord_read,
    fun s part vf j r s1 => ⟨checkTaken_waits, fun why => checkTaken_refuses, fun args h => checkTaken_accepts⟩,
    fun s part vf j r args h => ⟨_, rfl, rfl, nextLaunchId_eq _, rfl, rfl, rfl, rfl, rfl⟩,
    fun s part vf r why s1 => ⟨refuseLaunch_written, refuseLaunch_owed⟩, fun st why nerr id => completionWord_fields nerr id,
    fun s part vf r id w s1 ps => writeWord_written, fun s vf j => listHeadWake_wakes,
    fun s id l s1 hl => launchComplete_writes hl, fun s id l hl => launchComplete_waits hl⟩
  intro s s0 vf j l part core hj hpart _ hs0 hcore hplacing
  subst hs0
  have htake := launchListTake_eq hj hpart hplacing
  refine ⟨fun r hr => ?_, fun hnone hon hl => ?_⟩
  · rw [hr] at htake
    exact htake
  · rw [hnone, hon] at htake
    have hturn : execLaunchListTake vf j s = .next ((s.payWords part).turnToList part vf j) := htake
    refine ⟨fun s1 ps hread => ⟨fun hempty => ?_, fun hfull hnot => ?_, fun hfull hyes s3 ts hwrite => ?_⟩, fun s1 c va hread => ?_⟩
    · exact hturn.trans (congrArg _ (turnToList_empty hl hcore hread rfl rfl hempty))
    · exact hturn.trans (congrArg _ (turnToList_notTurned hl hcore hread rfl rfl hfull hnot))
    · exact hturn.trans (congrArg _ (turnToList_takes hl hcore hread rfl rfl hfull hyes hwrite))
    · exact hturn.trans (congrArg _ (turnToList_faults hl hcore hread))

end Sys2Proof.Proofs
end

