-- ==== Sys2Proof/Proofs/Restores.lean ====
section
/-! Saved blocks that stand on a core again: their entries, their crews and their lanes (20_ranges R324; 21_traps_preemption R345). -/

namespace Sys2Proof.Proofs

open Sys2Proof.Machine Sys2Proof.Laws

/-! ### What makes room on a core leaves of its blocks (R155, R162) -/

theorem drainStep_aside {s t : State} (h : Aside s t) : DrainStep s t :=
  ⟨fun u b hb => ⟨b, (aside_block h u).trans hb, drained_refl b⟩, by rw [h.blocks], h.launches, h.nextUid, h.canonical⟩

theorem dropWays_step (s : State) (core : Nat) (us : List Nat) : DrainStep s (s.dropWays core us) := drainStep_foldl dropL1_step _ s

theorem restoreLines_step (s : State) (u : Nat) : DrainStep s (s.restoreLines u) := by
  unfold State.restoreLines
  split
  · exact drainStep_refl s
  next b _ =>
    exact drainStep_foldl (fun s (e : Entry) => drainStep_trans (cleanLine_step s b.core (e.p.home / 256) (some u)) (l1Store_step _ _ _ _ _ _)) _ s

theorem advanceStamps_uids (s : State) (u core : Nat) : (s.advanceStamps u core).blocks.map (·.uid) = s.blocks.map (·.uid) :=
  modBlock_uids s u fun _ => rfl

theorem advanceStamps_block {s : State} {u : Nat} {b : Block} (core : Nat) (h : s.block? u = some b) :
    ∃ x y, (s.advanceStamps u core).block? u = some { b with stampC := x, stampS := y } :=
  ⟨_, _, modBlock_at (s := { s with coreStamps := _, sectorStamps := _, l2 := _ }) (fun _ => rfl) h⟩

theorem block_appended {s : State} {b : Block} (hnew : ∀ x ∈ s.blocks, x.uid ≠ b.uid) :
    ({ s with blocks := s.blocks ++ [b] } : State).block? b.uid = some b := by
  have hnone : s.blocks.find? (·.uid == b.uid) = none := List.find?_eq_none.mpr fun x hx => by simpa using hnew x hx
  simp only [State.block?, List.find?_append, hnone, Option.none_or, List.find?_singleton, beq_self_eq_true, if_true]

/-! ### Entries translated again (R324) -/

theorem entryAgain_aside (s : State) (b : Block) (core : Nat) (e : Entry) : Aside s (s.entryAgain b core e).1 := by
  have hwalk := translate_aside s core none b.asid e.p.va e.p.size .write
  unfold State.entryAgain
  split
  next t x ht =>
    rw [ht] at hwalk
    dsimp only
    split <;> exact hwalk
  next t w ht => rwa [ht] at hwalk
  next t c ht => rwa [ht] at hwalk

theorem entriesAgain_aside (b : Block) (core : Nat) : ∀ (es : List Entry) (s : State), Aside s (State.entriesAgain b core es s).1
  | [], s => aside_refl s
  | e :: es, s => by
    have hone := entryAgain_aside s b core e
    rw [State.entriesAgain]
    split
    next t w ht => rwa [ht] at hone
    next t r _ ht =>
      rw [ht] at hone
      have hrest := aside_trans hone (entriesAgain_aside b core es t)
      split
      next u w hu => rwa [hu] at hrest
      next u xs lost den hu =>
        rw [hu] at hrest
        split <;> exact hrest

section Again

variable {s s1 : State} {b : Block} {core : Nat} {e : Entry}

theorem entryAgain_denied {x : Xlat} (hx : s.translate core none b.asid e.p.va e.p.size .write = (s1, .ok x)) {sl : Nat × Bool}
    (hdenied : s1.denies b.part b.clr (pieceOf e.p.va e.p.size x) = some sl) : s.entryAgain b core e = (s1, .denied sl) := by
  simp only [State.entryAgain, hx, hdenied]

theorem entryAgain_open {x : Xlat} (hx : s.translate core none b.asid e.p.va e.p.size .write = (s1, .ok x))
    (hopen : s1.denies b.part b.clr (pieceOf e.p.va e.p.size x) = none) :
    s.entryAgain b core e = (s1, .entry { e with p := pieceOf e.p.va e.p.size x, hint := .none }) := by
  simp only [State.entryAgain, hx, hopen]

theorem entryAgain_lost {c : Cause} (hx : s.translate core none b.asid e.p.va e.p.size .write = (s1, .fault c)) :
    s.entryAgain b core e = (s1, .lost) := by
  simp only [State.entryAgain, hx]

theorem entriesAgain_waits (es : List Entry) {w : Park} (hx : s.translate core none b.asid e.p.va e.p.size .write = (s1, .park w)) :
    State.entriesAgain b core (e :: es) s = (s1, .error (w, e)) := by
  have hone : s.entryAgain b core e = (s1, .wait w) := by simp only [State.entryAgain, hx]
  simp only [State.entriesAgain, hone]

end Again

/-! ### Crews dealt anew (R219, R345) -/

theorem regAt_mapIdx_kept {xs : List Word} {keep : Nat → Bool} {free : Nat → Word} {j : Nat} (h : keep j = true) :
    regAt (xs.mapIdx fun j x => if keep j then x else free j) j = regAt xs j := by
  rw [regAt, List.getElem?_mapIdx, regAt]
  cases xs[j]? with
  | none => rfl
  | some x => simp only [Option.map_some, h, if_true]

/-- A lane as its crew resumes: what it keeps, and where a marked one stands (R345). -/
structure LaneResumes (s : State) (core : Nat) (l : Launch) (vs : BitVec 128) (x x' : Lane) : Prop where
  done : x'.done = x.done
  parked : x'.parked = x.parked
  q : x'.q = x.q
  rng : x'.rng = x.rng
  link : x'.link = x.link
  regs : ∀ j, vs.getLsbD j = true → regAt x'.v j = regAt x.v j
  unmarked : (x.done = true ∨ x.kind = false) → x'.wl = x.wl ∧ x'.ro = x.ro
  marked : ∀ e, x.done = false → x.kind = true → s.pointEntry core l x.wl = some e → x'.wl = e.recipe ∧ x'.ro = 0

section Recipe

variable (s : State) (core : Nat) (l : Launch) (x : Lane)

theorem toRecipe_unmarked (h : x.done = true ∨ x.kind = false) : s.toRecipe core l x = x := by
  have hcond : (x.done || !x.kind) = true := by
    rcases h with h | h
    · rw [h, Bool.true_or]
    · rw [h, Bool.not_false, Bool.or_true]
  rw [State.toRecipe, hcond, if_pos rfl]

theorem toRecipe_marked {e : RewindEntry} (hdone : x.done = false) (hkind : x.kind = true) (he : s.pointEntry core l x.wl = some e) :
    s.toRecipe core l x = { x with wl := e.recipe, ro := 0 } := by
  have hcond : (x.done || !x.kind) = false := by rw [hdone, hkind, Bool.not_true, Bool.or_self]
  simp only [State.toRecipe, hcond, Bool.false_eq_true, if_false, he]

/-- Its recipe moves a lane, and changes nothing else of it. -/
theorem toRecipe_keeps : { s.toRecipe core l x with wl := x.wl, ro := x.ro } = x := by
  unfold State.toRecipe
  split
  · rfl
  · split <;> rfl

theorem lane_resumes (vs : BitVec 128) (free : Nat → Word) : LaneResumes s core l vs x
    { s.toRecipe core l { x with v := x.v.mapIdx fun j y => if vs.getLsbD j then y else free j } with floors := [] } := by
  let y : Lane := { x with v := x.v.mapIdx fun j y => if vs.getLsbD j then y else free j }
  have hkeep := toRecipe_keeps s core l y
  refine ⟨(congrArg Lane.done hkeep :), (congrArg Lane.parked hkeep :), (congrArg Lane.q hkeep :), (congrArg Lane.rng hkeep :), (congrArg Lane.link hkeep :),
    fun j hj => ?_, fun h => ?_, fun e hdone hkind he => ?_⟩
  · have hv : (s.toRecipe core l y).v = y.v := (congrArg Lane.v hkeep :)
    exact (congrArg (regAt · j) hv).trans (regAt_mapIdx_kept hj)
  · have hsame : s.toRecipe core l y = y := toRecipe_unmarked s core l y h
    exact ⟨(congrArg Lane.wl hsame :), (congrArg Lane.ro hsame :)⟩
  · have hrecipe : s.toRecipe core l y = { y with wl := e.recipe, ro := 0 } := toRecipe_marked s core l y hdone hkind he
    exact ⟨(congrArg Lane.wl hrecipe :), (congrArg Lane.ro hrecipe :)⟩

end Recipe

section Resume

variable (s : State) (core : Nat) (l : Launch) (dealt : List (Nat × Nat × Nat)) (c : Crew)

theorem resumeCrew_eq (hlive : c.seq ≠ .retired) : (s.resumeCrew core l dealt c).2 =
    (let m := s.saveMasks core l c
     let at_ := ((dealt.find? (·.1 == c.cid)).map (·.2)).getD (c.quad, c.slot)
     { c.forget m.1 m.2 s.draws with
       quad := at_.1, slot := at_.2, age := s.nextAge + dealt.findIdx (·.1 == c.cid), since := s.cyc
       lanes := (c.forget m.1 m.2 s.draws).lanes.map fun x => { s.toRecipe core l x with floors := [] } }) := by
  have hseq : (c.seq == .retired) = false := beq_eq_false_iff_ne.mpr hlive
  simp only [State.resumeCrew, hseq, Bool.false_eq_true, if_false]
  rfl

theorem resumeCrew_aside : Aside s (s.resumeCrew core l dealt c).1 := by
  unfold State.resumeCrew
  split
  · exact aside_refl s
  · exact aside_of rfl rfl

end Resume

theorem resumeCrews_aside (core : Nat) (l : Launch) (dealt : List (Nat × Nat × Nat)) : ∀ (cs : List Crew) (s : State),
    Aside s (State.resumeCrews core l dealt cs s).1
  | [], s => aside_refl s
  | c :: cs, s => aside_trans (resumeCrew_aside s core l dealt c) (resumeCrews_aside core l dealt cs _)

/-- A crew that resumes: dealt anew, with the registers saved (R219, R345). -/
theorem resumeCrew_spec (s : State) (core : Nat) (l : Launch) (d : List (Nat × Nat × Nat)) (c : Crew) (hlive : c.seq ≠ .retired) :
    let m := s.saveMasks core l c
    let c' := (s.resumeCrew core l d c).2
    c'.age = s.nextAge + d.findIdx (·.1 == c.cid) ∧ (∀ at_, d.find? (·.1 == c.cid) = some at_ → (c'.quad, c'.slot) = at_.2)
      ∧ c'.cid = c.cid ∧ c'.budget = c.budget ∧ c'.swc = c.swc ∧ (∀ j, m.2.getLsbD j = true → regAt c'.s j = regAt c.s j)
      ∧ ∀ (i : Nat) x, c.lanes[i]? = some x → ∃ x', c'.lanes[i]? = some x' ∧ LaneResumes s core l m.1 x x' := by
  intro m c'
  have hc' : c' = _ := resumeCrew_eq s core l d c hlive
  rw [hc']
  refine ⟨rfl, fun at_ hat => ?_, rfl, rfl, rfl, fun j hj => regAt_mapIdx_kept (keep := m.2.getLsbD) hj, fun i x hx => ?_⟩
  · show ((((d.find? (·.1 == c.cid)).map (·.2)).getD (c.quad, c.slot)).1, (((d.find? (·.1 == c.cid)).map (·.2)).getD (c.quad, c.slot)).2) = at_.2
    rw [hat]
    rfl
  · refine ⟨_, ?_, lane_resumes s core l x m.1 fun j => Config.freeWord (s.draws + 64 + 128 * i + j)⟩
    show ((c.lanes.mapIdx _).map _)[i]? = _
    rw [List.getElem?_map, List.getElem?_mapIdx, hx]
    rfl

end Sys2Proof.Proofs
end

