-- ==== Sys2Proof/Proofs/Placing.lean ====
section
/-! Blocks and groups that are placed, and what a saved block's lanes do once it stands on a core again (14_crews R217, R218;
21_traps_preemption R345; 22_tenants R363). -/

namespace Sys2Proof.Proofs

open Sys2Proof.Machine Sys2Proof.Laws

/-! ### Moves made one after another -/

/-- A fold that keeps two properties, one of whose elements leads from the first to the second. -/
theorem foldl_reaches {α : Type} {P Q : State → Prop} {f : State → α → State} {l : List α} (hP : ∀ t, ∀ a ∈ l, P t → P (f t a))
    (hQ : ∀ t, ∀ a ∈ l, Q t → Q (f t a)) {a : α} (ha : a ∈ l) (hreach : ∀ t, P t → Q (f t a)) {s : State} (hs : P s) : Q (l.foldl f s) := by
  obtain ⟨before, after, rfl⟩ := List.append_of_mem ha
  rw [List.foldl_append, List.foldl_cons]
  have hbefore : P (before.foldl f s) := List.foldlRecOn before f hs fun t ht x hx => hP t x (List.mem_append_left _ hx) ht
  exact List.foldlRecOn after f (hreach _ hbefore) fun t ht x hx => hQ t x (List.mem_append_right _ (List.mem_cons_of_mem _ hx)) ht

theorem slots_mem {c : Crew} {x : Nat × Lane} (hx : x ∈ c.slots) : c.lanes[x.1]? = some x.2 := by
  obtain ⟨i, hi, rfl⟩ := List.mem_mapIdx.mp hx
  exact List.getElem?_eq_getElem hi

theorem mem_slots {c : Crew} {i : Nat} {l : Lane} (hl : c.lanes[i]? = some l) : (i, l) ∈ c.slots := by
  obtain ⟨hi, rfl⟩ := List.getElem?_eq_some_iff.mp hl
  exact List.mem_mapIdx.mpr ⟨i, hi, rfl⟩

/-! ### Marked lanes without an entry (R345, R26) -/

/-- A lane of a block that is no handler crew, which stands where one stood and has trapped or is otherwise as it was. -/
structure Stands (u ci i : Nat) (x : Lane) (t : State) : Prop where
  hnd : ∃ b, t.block? u = some b ∧ b.hnd = []
  lane : ∃ y, t.laneAt u ci i = some y ∧ y.wl = x.wl ∧ (y.trapped = true ∨ SameButPark x y)

/-- A lane of a block that is no handler crew, which has trapped where one stood. -/
structure HasTrapped (u ci i : Nat) (x : Lane) (t : State) : Prop where
  hnd : ∃ b, t.block? u = some b ∧ b.hnd = []
  lane : ∃ y, t.laneAt u ci i = some y ∧ y.wl = x.wl ∧ y.trapped = true

theorem hasTrapped_stands {u ci i : Nat} {x : Lane} {t : State} (h : HasTrapped u ci i x t) : Stands u ci i x t := by
  obtain ⟨hhnd, y, hy, hwl, htrapped⟩ := h
  exact ⟨hhnd, y, hy, hwl, .inl htrapped⟩

theorem sameButPark_trapped {a b : Lane} (h : SameButPark a b) : b.trapped = a.trapped := (congrArg Lane.trapped (show _ = b from h) :).symm

theorem sameButPark_wl {a b : Lane} (h : SameButPark a b) : b.wl = a.wl := (congrArg Lane.wl (show _ = b from h) :).symm

theorem trapLane_hnd {s : State} {k : Ctx} (hh : k.b.hnd = []) (j : Nat) (cause : Cause) (fault : DWord) (off wl ro : Word) {u : Nat}
    (h : ∃ b, s.block? u = some b ∧ b.hnd = []) : ∃ b, (s.trapLane k j cause fault off wl ro).block? u = some b ∧ b.hnd = [] := by
  obtain ⟨b, hb, hhnd⟩ := h
  let gathered := (s.modLane k.b.uid k.ci j fun l => { l with trapped := true, act := false, wl := wl, ro := ro }).gather k.b.core
    { cause := cause, tag := k.tag cause j, origin := some ⟨k.b.uid, k.ci, j⟩, fault := fault, off := off, part := k.b.part, time := 0,
      decided := false }
  have htrap : s.trapLane k j cause fault off wl ro = gathered.settle k.b.uid := by
    rw [State.trapLane, hh, if_neg (by decide)]
  obtain ⟨b1, hb1, hsame⟩ := rel_modBlock (R := fun b b' : Block => b'.hnd = b.hnd) (fun _ => rfl) k.b.uid
    (f := (·.modCrew k.ci fun c => c.modLane j fun l => { l with trapped := true, act := false, wl := wl, ro := ro })) (fun _ => rfl) (fun _ _ => rfl) hb
  have hgathered : gathered.block? u = some b1 := hb1
  obtain ⟨b2, hb2, hsame'⟩ := rel_settle (R := fun b b' : Block => b'.hnd = b.hnd) (fun _ => rfl) (fun h h' => h'.trans h) (fun _ _ _ _ _ _ => rfl)
    k.b.uid hgathered
  exact ⟨b2, by rw [htrap, hb2], by rw [hsame', hsame, hhnd]⟩

section TrapOne

variable {k : Ctx} (hh : k.b.hnd = []) (j : Nat) (cause : Cause) (fault : DWord) (off wl ro : Word) {ci i : Nat} {x : Lane}
  (hwl : k.ci = ci → j = i → wl = x.wl)
include hh hwl

theorem trapLane_keeps {t : State} {y : Lane} (hy : t.laneAt k.b.uid ci i = some y) (hx : y.wl = x.wl) :
    ∃ y', (t.trapLane k j cause fault off wl ro).laneAt k.b.uid ci i = some y' ∧ y'.wl = x.wl ∧ (y'.trapped = true ∨ SameButPark y y') := by
  by_cases hself : k.ci = ci ∧ j = i
  · obtain ⟨rfl, rfl⟩ := hself
    obtain ⟨⟨y', hy', htrap⟩, -⟩ := trapLane_spec hh hy cause fault off wl ro
    exact ⟨y', hy', htrap.wl.trans (hwl rfl rfl), .inl htrap.trapped⟩
  · obtain ⟨y', hy', hsame⟩ := trapLane_other hh cause fault off wl ro hy fun h => hself ⟨h.2.1.symm, h.2.2.symm⟩
    exact ⟨y', hy', (sameButPark_wl hsame).trans hx, .inr hsame⟩

theorem trapLane_stands {t : State} (h : Stands k.b.uid ci i x t) : Stands k.b.uid ci i x (t.trapLane k j cause fault off wl ro) := by
  obtain ⟨hhnd, y, hy, hx, hstate⟩ := h
  obtain ⟨y', hy', hx', hstate'⟩ := trapLane_keeps hh j cause fault off wl ro hwl hy hx
  refine ⟨trapLane_hnd hh j cause fault off wl ro hhnd, y', hy', hx', ?_⟩
  rcases hstate' with htrapped | hsame
  · exact .inl htrapped
  · rcases hstate with htrapped | hbefore
    · exact .inl ((sameButPark_trapped hsame).trans htrapped)
    · exact .inr (sameButPark_trans hbefore hsame)

theorem trapLane_hasTrapped {t : State} (h : HasTrapped k.b.uid ci i x t) : HasTrapped k.b.uid ci i x (t.trapLane k j cause fault off wl ro) := by
  obtain ⟨hhnd, y, hy, hx, htrapped⟩ := h
  obtain ⟨y', hy', hx', hstate'⟩ := trapLane_keeps hh j cause fault off wl ro hwl hy hx
  refine ⟨trapLane_hnd hh j cause fault off wl ro hhnd, y', hy', hx', ?_⟩
  rcases hstate' with htrapped' | hsame
  · exact htrapped'
  · exact (sameButPark_trapped hsame).trans htrapped

end TrapOne

/-- The lane whose turn it is traps. -/
theorem trapLane_reaches {k : Ctx} (hh : k.b.hnd = []) (i : Nat) (cause : Cause) (fault : DWord) (off wl ro : Word) {x : Lane} (hwl : wl = x.wl)
    {t : State} (h : Stands k.b.uid k.ci i x t) : HasTrapped k.b.uid k.ci i x (t.trapLane k i cause fault off wl ro) := by
  obtain ⟨hhnd, y, hy, -, -⟩ := h
  obtain ⟨⟨y', hy', htrap⟩, -⟩ := trapLane_spec hh hy cause fault off wl ro
  exact ⟨trapLane_hnd hh i cause fault off wl ro hhnd, y', hy', htrap.wl.trans hwl, htrap.trapped⟩

/-- What the sequencer's trap of a crew's lanes does in one of them. -/
def seqTrapLane (k : Ctx) (cause : Cause) (fault : Lane → DWord) (off : Lane → Word) (t : State) (z : Nat × Lane) : State :=
  t.trapLane k z.1 cause (fault z.2) (off z.2) z.2.wl z.2.ro

section SeqTrap

variable {u cj : Nat} {p : Lane → Bool} {cause : Cause} {fault : Lane → DWord} {off : Lane → Word} {ci i : Nat} {x : Lane} {t : State}

theorem seqTrap_eq {b : Block} {c : Crew} (hcrew : t.crew? u cj = some (b, c)) : t.seqTrap u cj p cause fault off =
    (c.slots.filter fun x => p x.2).foldl (seqTrapLane (seqCtx b cj c) cause fault off) t := by
  simp only [State.seqTrap, hcrew]
  rfl

theorem seqTrap_none' (hcrew : t.crew? u cj = none) : t.seqTrap u cj p cause fault off = t := by
  simp only [State.seqTrap, hcrew]

/-- The lanes that a crew traps keep the labels they want. -/
theorem slots_wl {b : Block} {c : Crew} (hcrew : t.crew? u cj = some (b, c)) {y : Lane} (hy : t.laneAt u ci i = some y) (hx : y.wl = x.wl)
    {z : Nat × Lane} (hz : z ∈ c.slots.filter fun x => p x.2) (hci : cj = ci) (hi : z.1 = i) : z.2.wl = x.wl := by
  subst hci hi
  rw [laneAt_of_crew hcrew, slots_mem (List.mem_filter.mp hz).1] at hy
  rw [Option.some.inj hy, hx]

theorem crew_hnd {b : Block} {c : Crew} (hcrew : t.crew? u cj = some (b, c)) (h : ∃ b, t.block? u = some b ∧ b.hnd = []) : b.hnd = [] := by
  obtain ⟨b', hb', hhnd⟩ := h
  rw [(block_of_crew hcrew).1] at hb'
  rw [Option.some.inj hb', hhnd]

section OneCrew

variable {b : Block} {c : Crew} (hcrew : t.crew? b.uid cj = some (b, c)) (hh : b.hnd = []) {y : Lane} (hy : t.laneAt b.uid ci i = some y)
  (hx : y.wl = x.wl) {z : Nat × Lane} (hz : z ∈ c.slots.filter fun x => p x.2) (s : State)
include hcrew hh hy hx hz

theorem seqTrapLane_stands (hs : Stands b.uid ci i x s) : Stands b.uid ci i x (seqTrapLane (seqCtx b cj c) cause fault off s z) :=
  trapLane_stands (k := seqCtx b cj c) hh z.1 cause (fault z.2) (off z.2) z.2.wl z.2.ro (slots_wl hcrew hy hx hz) hs

theorem seqTrapLane_hasTrapped (hs : HasTrapped b.uid ci i x s) :
    HasTrapped b.uid ci i x (seqTrapLane (seqCtx b cj c) cause fault off s z) :=
  trapLane_hasTrapped (k := seqCtx b cj c) hh z.1 cause (fault z.2) (off z.2) z.2.wl z.2.ro (slots_wl hcrew hy hx hz) hs

end OneCrew

theorem seqTrap_stands (h : Stands u ci i x t) : Stands u ci i x (t.seqTrap u cj p cause fault off) := by
  cases hcrew : t.crew? u cj with
  | none => rwa [seqTrap_none' hcrew]
  | some bc =>
    obtain ⟨b, c⟩ := bc
    obtain rfl := block_uid (block_of_crew hcrew).1
    rw [seqTrap_eq hcrew]
    obtain ⟨y, hy, hx, -⟩ := h.lane
    exact List.foldlRecOn _ _ h fun s hs z hz => seqTrapLane_stands hcrew (crew_hnd hcrew h.hnd) hy hx hz s hs

theorem seqTrap_hasTrapped (h : HasTrapped u ci i x t) : HasTrapped u ci i x (t.seqTrap u cj p cause fault off) := by
  cases hcrew : t.crew? u cj with
  | none => rwa [seqTrap_none' hcrew]
  | some bc =>
    obtain ⟨b, c⟩ := bc
    obtain rfl := block_uid (block_of_crew hcrew).1
    rw [seqTrap_eq hcrew]
    obtain ⟨y, hy, hx, -⟩ := h.lane
    exact List.foldlRecOn _ _ h fun s hs z hz => seqTrapLane_hasTrapped hcrew (crew_hnd hcrew h.hnd) hy hx hz s hs

/-- A lane picked among its crew's traps, whatever it is parked for. -/
theorem seqTrap_reaches (hp : ∀ y, SameButPark x y → p y = true) (h : Stands u ci i x t) : HasTrapped u ci i x (t.seqTrap u ci p cause fault off) := by
  obtain ⟨hhnd, y, hy, hx, htrapped | hsame⟩ := h
  · exact seqTrap_hasTrapped ⟨hhnd, y, hy, hx, htrapped⟩
  · obtain ⟨b, c, hb, hc, hlane⟩ := laneAt_some hy
    have hcrew := crew_eq hb hc
    obtain rfl := block_uid hb
    have hpicked : (i, y) ∈ c.slots.filter fun x => p x.2 := List.mem_filter.mpr ⟨mem_slots hlane, hp y hsame⟩
    have hh := crew_hnd hcrew hhnd
    rw [seqTrap_eq hcrew]
    exact foldl_reaches (P := Stands b.uid ci i x) (Q := HasTrapped b.uid ci i x) (fun s z hz => seqTrapLane_stands hcrew hh hy hx hz s)
      (fun s z hz => seqTrapLane_hasTrapped hcrew hh hy hx hz s) hpicked
      (fun s hs => trapLane_reaches (k := seqCtx b ci c) hh i cause (fault y) (off y) y.wl y.ro hx hs) ⟨hhnd, y, hy, hx, .inr hsame⟩

end SeqTrap

/-- A marked lane whose point has no entry traps before its crew's first sweep (R345). -/
theorem trapPointless_traps {s : State} (l : Launch) {u core ci i : Nat} {b : Block} {c : Crew} {x : Lane} (hcrew : s.crew? u ci = some (b, c))
    (hl : c.lanes[i]? = some x) (hh : b.hnd = []) (hdone : x.done = false) (hkind : x.kind = true) (hpoint : x.wl = x.rwl)
    (hnone : s.pointEntry core l x.rwl = none) : ∃ x', (s.trapPointless u core l).laneAt u ci i = some x' ∧ x'.trapped = true ∧ x'.wl = x.wl := by
  obtain ⟨hb, hc⟩ := block_of_crew hcrew
  have hmem : (c, ci) ∈ b.crews.zipIdx := List.mk_mem_zipIdx_iff_getElem?.mpr hc
  have hpicked : ∀ y, SameButPark x y → (!y.done && y.kind && y.wl == y.rwl && (s.pointEntry core l y.rwl).isNone) = true := fun y hsame => by
    rw [← show { x with parked := y.parked, park := y.park } = y from hsame]
    show (!x.done && x.kind && x.wl == x.rwl && (s.pointEntry core l x.rwl).isNone) = true
    rw [hdone, hkind, hpoint, hnone, beq_self_eq_true]
    rfl
  have hstands : Stands u ci i x s := ⟨⟨b, hb, hh⟩, x, (laneAt_of_crew hcrew i).trans hl, rfl, .inr (sameButPark_refl x)⟩
  have htrapped : HasTrapped u ci i x (s.trapPointless u core l) := by
    simp only [State.trapPointless, hb]
    exact foldl_reaches (fun t z _ => seqTrap_stands) (fun t z _ => seqTrap_hasTrapped) hmem (fun t => seqTrap_reaches hpicked) hstands
  obtain ⟨-, y, hy, hwl, htrap⟩ := htrapped
  exact ⟨y, hy, htrap, hwl⟩

/-! ### Lanes parked in WAITC (R345) -/

/-- A lane that wants the label one wanted. -/
def WantsStill (u ci i : Nat) (x : Lane) (t : State) : Prop := ∃ y, t.laneAt u ci i = some y ∧ y.wl = x.wl

/-- A lane that wants the label one wanted, and is not parked. -/
def GoesOn (u ci i : Nat) (x : Lane) (t : State) : Prop := ∃ y, t.laneAt u ci i = some y ∧ y.wl = x.wl ∧ y.parked = false

/-- What a change of a crew leaves of lanes is what it does to the crew's lanes. -/
theorem laneAt_modCrew_congr {s : State} {v cj : Nat} {f g : Crew → Crew} (h : ∀ c, (f c).lanes = (g c).lanes) (u ci j : Nat) :
    (s.modCrew v cj f).laneAt u ci j = (s.modCrew v cj g).laneAt u ci j := by
  simp only [State.laneAt, State.crew?, block_modCrew]
  by_cases hu : u = v
  · subst hu
    cases s.block? u with
    | none => simp only [if_true, Option.map_none]
    | some b =>
      simp only [if_true, Option.map_some, Block.modCrew, List.getElem?_modify]
      cases hc : b.crews[ci]? with
      | none => rfl
      | some c => by_cases he : cj = ci <;> simp [he, h]
  · simp only [hu, if_false]

theorem laneAt_unpark (t : State) (u cj j v ci i : Nat) : (t.unpark u cj j).laneAt v ci i =
    if v = u ∧ ci = cj ∧ i = j then (t.laneAt v ci i).map fun x => { x with parked := false, park := none } else t.laneAt v ci i := by
  refine (laneAt_modCrew_congr (g := fun c => c.modLane j fun x => { x with parked := false, park := none }) (fun c => ?_) v ci i).trans
    (laneAt_modLane t u cj j _ v ci i)
  dsimp only
  split <;> rfl

theorem laneAt_l2Read (s : State) (vf core : Nat) (p : Piece) (u ci i : Nat) : (s.l2Read vf core p).laneAt u ci i = s.laneAt u ci i := by
  simp only [State.laneAt, State.crew?, aside_block (l2Read_aside s vf core p)]

/-- A WAITC that reads true again changes no label wanted, parks no lane, and lets its own lane go. -/
theorem laneAt_endWaitc {s : State} {b : Block} {w : Park} (hw : s.waitcNow b w = true) (t : State) (cj j : Nat) {ci i : Nat} {y : Lane}
    (hy : t.laneAt b.uid ci i = some y) : ∃ y', (t.endWait b cj j w).laneAt b.uid ci i = some y' ∧ y'.wl = y.wl
      ∧ (y.parked = false ∨ (ci = cj ∧ i = j) → y'.parked = false) := by
  have hunpark : ∀ (r : State) (z : Lane), r.laneAt b.uid ci i = some z → z.wl = y.wl → z.parked = y.parked →
      ∃ y', (r.unpark b.uid cj j).laneAt b.uid ci i = some y' ∧ y'.wl = y.wl ∧ (y.parked = false ∨ (ci = cj ∧ i = j) → y'.parked = false) := by
    intro r z hz hwl hparked
    rw [laneAt_unpark, hz]
    by_cases hself : ci = cj ∧ i = j
    · rw [if_pos ⟨rfl, hself⟩]
      exact ⟨_, rfl, hwl, fun _ => rfl⟩
    · rw [if_neg fun h => hself h.2]
      exact ⟨z, rfl, hwl, fun h => hparked.trans (h.resolve_right hself)⟩
  unfold State.waitcNow at hw
  split at hw
  next home va cond z rhs off =>
    unfold State.endWait
    dsimp only
    split
    next p hp =>
      have hraised := laneAt_modLane (t.l2Read b.vf b.core p) b.uid cj j
        (·.raise t.now p.home z.size) b.uid ci i
      rw [laneAt_l2Read, hy] at hraised
      by_cases hself : b.uid = b.uid ∧ ci = cj ∧ i = j
      · rw [if_pos hself] at hraised
        exact hunpark _ _ hraised rfl rfl
      · rw [if_neg hself] at hraised
        exact hunpark _ _ hraised rfl rfl
    next => exact hunpark t y hy rfl rfl
  next => cases hw

/-- What a lane's wait at a WAITC does as its block's lanes read their words again. -/
def rereadLane (s : State) (b : Block) (cj : Nat) (t : State) (z : Nat × Lane) : State :=
  match z.2.park with
  | some w => if z.2.parked && s.waitcNow b w then t.endWait b cj z.1 w else t
  | none => t

/-- What the lanes of a crew do as they read their words again. -/
def rereadCrew (s : State) (b : Block) (t : State) (z : Crew × Nat) : State := z.1.slots.foldl (rereadLane s b z.2) t

section Reread

variable {s : State} {b : Block} {ci i : Nat} {x : Lane}

theorem rereadWaitc_eq (hb : s.block? b.uid = some b) : s.rereadWaitc b.uid = b.crews.zipIdx.foldl (rereadCrew s b) s := by
  simp only [State.rereadWaitc, hb]
  rfl

theorem rereadLane_lane (cj : Nat) (t : State) (z : Nat × Lane) {y : Lane} (hy : t.laneAt b.uid ci i = some y) :
    ∃ y', (rereadLane s b cj t z).laneAt b.uid ci i = some y' ∧ y'.wl = y.wl ∧ (y.parked = false → y'.parked = false) := by
  unfold rereadLane
  split
  next w _ =>
    split
    next hcond =>
      obtain ⟨y', hy', hwl, hp⟩ := laneAt_endWaitc (Bool.and_eq_true_iff.mp hcond).2 t cj z.1 hy
      exact ⟨y', hy', hwl, fun h => hp (.inl h)⟩
    next => exact ⟨y, hy, rfl, id⟩
  next => exact ⟨y, hy, rfl, id⟩

theorem rereadLane_wantsStill (cj : Nat) (t : State) (z : Nat × Lane) (h : WantsStill b.uid ci i x t) :
    WantsStill b.uid ci i x (rereadLane s b cj t z) := by
  obtain ⟨y, hy, hwl⟩ := h
  obtain ⟨y', hy', hwl', -⟩ := rereadLane_lane (s := s) cj t z hy
  exact ⟨y', hy', hwl'.trans hwl⟩

theorem rereadLane_goesOn (cj : Nat) (t : State) (z : Nat × Lane) (h : GoesOn b.uid ci i x t) :
    GoesOn b.uid ci i x (rereadLane s b cj t z) := by
  obtain ⟨y, hy, hwl, hp⟩ := h
  obtain ⟨y', hy', hwl', hp'⟩ := rereadLane_lane (s := s) cj t z hy
  exact ⟨y', hy', hwl'.trans hwl, hp' hp⟩

theorem rereadCrew_wantsStill (t : State) (z : Crew × Nat) (h : WantsStill b.uid ci i x t) : WantsStill b.uid ci i x (rereadCrew s b t z) :=
  List.foldlRecOn z.1.slots (rereadLane s b z.2) h fun r hr y _ => rereadLane_wantsStill z.2 r y hr

theorem rereadCrew_goesOn (t : State) (z : Crew × Nat) (h : GoesOn b.uid ci i x t) : GoesOn b.uid ci i x (rereadCrew s b t z) :=
  List.foldlRecOn z.1.slots (rereadLane s b z.2) h fun r hr y _ => rereadLane_goesOn z.2 r y hr

variable {w : Park} (hparked : x.parked = true) (hpark : x.park = some w) (hnow : s.waitcNow b w = true)
include hparked hpark hnow

theorem rereadLane_reaches (t : State) (h : WantsStill b.uid ci i x t) : GoesOn b.uid ci i x (rereadLane s b ci t (i, x)) := by
  obtain ⟨y, hy, hwl⟩ := h
  obtain ⟨y', hy', hwl', hp⟩ := laneAt_endWaitc hnow t ci i hy
  have hlane : rereadLane s b ci t (i, x) = t.endWait b ci i w := by
    simp only [rereadLane, hpark, hparked, hnow, Bool.and_self, if_true]
  exact ⟨y', by rw [hlane, hy'], hwl'.trans hwl, hp (.inr ⟨rfl, rfl⟩)⟩

theorem rereadCrew_reaches {c : Crew} (hl : c.lanes[i]? = some x) (t : State) (h : WantsStill b.uid ci i x t) :
    GoesOn b.uid ci i x (rereadCrew s b t (c, ci)) :=
  foldl_reaches (P := WantsStill b.uid ci i x) (Q := GoesOn b.uid ci i x) (f := rereadLane s b ci)
    (fun r z _ => rereadLane_wantsStill ci r z) (fun r z _ => rereadLane_goesOn ci r z) (mem_slots hl)
    (rereadLane_reaches hparked hpark hnow) h

/-- A lane parked in WAITC whose word compares true goes on (R345). -/
theorem rereadWaitc_goesOn {c : Crew} (hcrew : s.crew? b.uid ci = some (b, c)) (hl : c.lanes[i]? = some x) :
    GoesOn b.uid ci i x (s.rereadWaitc b.uid) := by
  obtain ⟨hb, hc⟩ := block_of_crew hcrew
  have hreach := rereadCrew_reaches (ci := ci) hparked hpark hnow hl
  rw [rereadWaitc_eq hb]
  exact foldl_reaches (P := WantsStill b.uid ci i x) (Q := GoesOn b.uid ci i x) (fun t z _ => rereadCrew_wantsStill t z)
    (fun t z _ => rereadCrew_goesOn t z) (List.mk_mem_zipIdx_iff_getElem?.mpr hc) hreach ⟨x, (laneAt_of_crew hcrew i).trans hl, rfl⟩

end Reread

/-! ### A new block (R11, R219) -/

/-- A lane of a crew that starts (R11). -/
def startLane (l : Launch) (bid : Nat) (c : Nat × Nat × Nat) (j : Nat) : Lane :=
  let oid := BitVec.ofNat 32 (bid * 2048 + c.1 * 128 + j)
  { Lane.start c.2.1 (BitVec.ofNat 32 (hdrEntry l.hdr)) oid (rngSeed (recSeed l.record) oid) with done := decide (recLanes l.record ≤ j) }

theorem startCrew_lane (l : Launch) (bid : Nat) (dealt : List (Nat × Nat × Nat)) (age now : Nat) (c : Nat × Nat × Nat) {j : Nat} (hj : j < 128) :
    (l.startCrew bid dealt age now c).lanes[j]? = some (startLane l bid c j) := by
  show ((List.range 128).map (startLane l bid c))[j]? = _
  rw [List.getElem?_map, List.getElem?_range hj]
  rfl

section PlaceOn

variable {s : State} {l : Launch} (core : Nat) (d : List (Nat × Nat × Nat)) (hl : s.launch? l.id = some l)
include hl

/-- A block is placed behind the others once its units' lines have gone home (R20, R217). -/
theorem placeOn_eq : ∃ (t : State) (b : Block) (na : Nat), DrainStep s t ∧ b.uid = s.nextUid ∧ s.placeOn l core d =
    ((({ t with blocks := t.blocks ++ [b], nextUid := t.nextUid + 1, nextAge := na } : State).modLaunch l.id
      fun x => { x with nextBid := x.nextBid + 1 }).advanceStamps b.uid core) := by
  have hdrop := dropWays_step s core (s.takeUnits core (hdrScratch l.hdr))
  refine ⟨s.dropWays core (s.takeUnits core (hdrScratch l.hdr)), _, _, hdrop, ?_, by simp only [State.placeOn, hl]; rfl⟩
  exact hdrop.nextUid

theorem placeOn_uids : (s.placeOn l core d).blocks.map (·.uid) = s.blocks.map (·.uid) ++ [s.nextUid] := by
  obtain ⟨t, b, na, hdrain, hb, heq⟩ := placeOn_eq core d hl
  rw [heq, advanceStamps_uids]
  show (t.blocks ++ [b]).map (·.uid) = _
  rw [List.map_append, hdrain.uids, ← hb]
  rfl

theorem placeOn_launch : (s.placeOn l core d).launch? l.id = some { l with nextBid := l.nextBid + 1 } := by
  obtain ⟨t, b, na, hdrain, hb, heq⟩ := placeOn_eq core d hl
  let placed : State := { t with blocks := t.blocks ++ [b], nextUid := t.nextUid + 1, nextAge := na }
  have hsame : placed.launch? l.id = some l := (congrArg (List.find? fun x : Launch => x.id == l.id) hdrain.launches).trans hl
  have hmod : (placed.modLaunch l.id fun x => { x with nextBid := x.nextBid + 1 }).launch? l.id =
      (placed.launch? l.id).map fun x => { x with nextBid := x.nextBid + 1 } := launch_modLaunch placed l.id fun _ => rfl
  rw [hsame] at hmod
  rw [heq]
  exact hmod

end PlaceOn

/-! ### A saved block added to its core (R20, R324, R345) -/

/-- A saved block as it stands on its core again. -/
def readded (b : Block) (core : Nat) (crews : List Crew) (es : List Entry) (now : Nat) (us : List Nat) : Block :=
  { b with
    core := core, crews := crews, storeBuf := es, refresh := now, refreshAt := [], units := us
    mcmds := b.mcmds.map (fun m => { m with home := now }), ccmds := b.ccmds.map fun c => { c with home := now } }

/-- What a block that stands on its core again has of what was saved. -/
structure StandsAgain (b : Block) (core : Nat) (crews : List Crew) (es : List Entry) (b' : Block) : Prop where
  core : b'.core = core
  bid : b'.bid = b.bid
  crews : b'.crews = crews
  storeBuf : ∀ e ∈ b'.storeBuf, e ∈ es
  scratch : b'.scratch = b.scratch
  scratchSize : b'.scratchSize = b.scratchSize
  tiles : b'.tiles = b.tiles
  handles : b'.handles = b.handles
  groups : b'.groups = b.groups
  mcmds : b'.mcmds.map (·.id) = b.mcmds.map (·.id)
  ccmds : b'.ccmds.map (·.done) = b.ccmds.map (·.done)

theorem standsAgain_of_drained {b b2 : Block} {core : Nat} {crews : List Crew} {es : List Entry} {now : Nat} {us : List Nat}
    (h : Drained (readded b core crews es now us) b2) (x y : BitVec 16) : StandsAgain b core crews es { b2 with stampC := x, stampS := y } := by
  obtain ⟨hsame, hsub⟩ := h
  refine ⟨(congrArg Block.core hsame :), (congrArg Block.bid hsame :), (congrArg Block.crews hsame :), fun e he => hsub.subset he,
    (congrArg Block.scratch hsame :), (congrArg Block.scratchSize hsame :), (congrArg Block.tiles hsame :), (congrArg Block.handles hsame :),
    (congrArg Block.groups hsame :), ?_, ?_⟩
  · refine (congrArg (fun b : Block => b.mcmds.map (·.id)) hsame).trans ?_
    show (b.mcmds.map _).map _ = _
    rw [List.map_map]
    rfl
  · refine (congrArg (fun b : Block => b.ccmds.map (·.done)) hsame).trans ?_
    show (b.ccmds.map _).map _ = _
    rw [List.map_map]
    rfl

/-- What the denials and the losses of a restore leave (R324, R330). -/
def restoreNotes (b : Block) (core : Nat) (lost : List Entry) (den : List (Nat × Nat × Bool)) (s : State) : State :=
  let s := den.foldl (fun s d => s.denial b.part b.vf d.1 0 b.launch (.context core) true d.2.2 d.2.1) s
  match lost with
  | [] => s
  | e :: _ => s.report b e.crew e.lane .storeLost (BitVec.ofNat 64 e.p.va) e.off

theorem restoreNotes_aside (b : Block) (core : Nat) (lost : List Entry) (den : List (Nat × Nat × Bool)) (s : State) :
    Aside s (restoreNotes b core lost den s) := by
  have hden := aside_foldl (f := fun s (d : Nat × Nat × Bool) => s.denial b.part b.vf d.1 0 b.launch (.context core) true d.2.2 d.2.1)
    (fun _ _ => denial_aside ..) den s
  unfold restoreNotes
  dsimp only
  split
  · exact hden
  · exact aside_trans hden (report_aside ..)

section Readd

variable {s : State} {l : Launch} {b : Block} {core : Nat} {d : List (Nat × Nat × Nat)}

theorem readdBlock_pointWaits {va : Nat} {w : Park} (h : s.pointWait core l b = some (va, w)) :
    s.readdBlock l b core d = (s.askResidencyFront l.part l.vf va w, false) := by
  simp only [State.readdBlock, h]

theorem readdBlock_entryWaits {s1 : State} {w : Park × Entry} (hpoint : s.pointWait core l b = none)
    (h : State.entriesAgain b core b.storeBuf s = (s1, .error w)) : s.readdBlock l b core d = (s1.askEntry b core w, false) := by
  simp only [State.readdBlock, hpoint, h]

variable {s1 : State} {es lost : List Entry} {den : List (Nat × Nat × Bool)} (hpoint : s.pointWait core l b = none)
  (h : State.entriesAgain b core b.storeBuf s = (s1, .ok (es, lost, den)))
include hpoint h

theorem readdBlock_eq : ∃ (s3 : State) (now : Nat) (us : List Nat) (b1 : Block) (na : Nat), DrainStep s s3
    ∧ b1 = readded b core (State.resumeCrews core l d b.crews s1).2 es now us
    ∧ s.readdBlock l b core d = (restoreNotes b1 core lost den (((({ s3 with blocks := s3.blocks ++ [b1], nextAge := na } : State).modLaunch l.id
        fun x => { x with saved := x.saved.filter (·.uid != b.uid) }).restoreLines b.uid).advanceStamps b.uid core), true) := by
  have hagain : Aside s s1 := by
    have hrun := entriesAgain_aside b core b.storeBuf s
    rwa [h] at hrun
  let s2 := (State.resumeCrews core l d b.crews s1).1
  have hcrews : Aside s1 s2 := resumeCrews_aside core l d b.crews s1
  let us := s2.takeUnits core b.scratchSize
  refine ⟨s2.dropWays core us, (s2.dropWays core us).now, us, _, (s2.dropWays core us).nextAge + d.length,
    drainStep_trans (drainStep_aside (aside_trans hagain hcrews)) (dropWays_step s2 core _), rfl, ?_⟩
  simp only [State.readdBlock, hpoint, h]
  rfl

theorem readdBlock_spec (hnew : ∀ x ∈ s.blocks, x.uid ≠ b.uid) : ∃ t b', s.readdBlock l b core d = (t, true)
    ∧ t.blocks.map (·.uid) = s.blocks.map (·.uid) ++ [b.uid] ∧ t.block? b.uid = some b'
    ∧ StandsAgain b core (State.resumeCrews core l d b.crews s1).2 es b'
    ∧ (t.launch? l.id) = (s.launch? l.id).map fun x => { x with saved := x.saved.filter (·.uid != b.uid) } := by
  obtain ⟨s3, now, us, b1, na, hdrain, hb1, hreadd⟩ := readdBlock_eq (d := d) hpoint h
  have huid : b1.uid = b.uid := by rw [hb1]; rfl
  let s4 : State := { s3 with blocks := s3.blocks ++ [b1], nextAge := na }
  let s5 := s4.modLaunch l.id fun x => { x with saved := x.saved.filter (·.uid != b.uid) }
  have hnew3 : ∀ x ∈ s3.blocks, x.uid ≠ b1.uid := fun x hx => by
    have hmem : x.uid ∈ s.blocks.map (·.uid) := by
      rw [← hdrain.uids]
      exact List.mem_map_of_mem hx
    obtain ⟨y, hy, hxy⟩ := List.mem_map.mp hmem
    rw [huid, ← hxy]
    exact hnew y hy
  have hblock : s5.block? b.uid = some b1 := by
    have happ := block_appended hnew3
    rw [huid] at happ
    exact happ
  have hlines := restoreLines_step s5 b.uid
  obtain ⟨b2, hb2, hdrained⟩ := hlines.block b.uid b1 hblock
  obtain ⟨x, y, hb3⟩ := advanceStamps_block core hb2
  have hnotes := restoreNotes_aside b1 core lost den ((s5.restoreLines b.uid).advanceStamps b.uid core)
  refine ⟨_, _, hreadd, ?_, (aside_block hnotes b.uid).trans hb3,
    standsAgain_of_drained (hb1 ▸ hdrained) x y, ?_⟩
  · refine (congrArg (List.map (·.uid)) hnotes.blocks).trans ((advanceStamps_uids _ b.uid core).trans (hlines.uids.trans ?_))
    show (s3.blocks ++ [b1]).map (·.uid) = _
    rw [List.map_append, hdrain.uids, ← huid]
    rfl
  · have hl5 : s5.launch? l.id = (s4.launch? l.id).map fun x => { x with saved := x.saved.filter (·.uid != b.uid) } :=
      launch_modLaunch s4 l.id fun _ => rfl
    have hl4 : s4.launch? l.id = s.launch? l.id := (congrArg (List.find? (·.id == l.id)) hdrain.launches :)
    have hlast := (congrArg (List.find? (·.id == l.id)) (hnotes.launches.trans hlines.launches) :)
    exact hlast.trans (hl5.trans (by rw [hl4]))

end Readd

/-! ### The moves (R217, R218, R313) -/

section Place

variable {s : State} {id : Word} {l : Launch} (hl : s.launch? id = some l)
include hl

section Alone

variable (hgroup : hdrGrouped l.hdr = false)
include hgroup

theorem blockPlace_places (hturn : s.arbitrate l.part = some (.place id)) {core : Nat} {d : List (Nat × Nat × Nat)}
    (hcore : s.chooseCore l.part id (hdrNeed l.hdr) = some (core, d)) :
    execBlockPlace id s = .next ((s.noteTurn l.part l.vf l.level 1).placeOn l core d) := by
  have hnot : (some (Choice.place id) == some (Choice.restore id)) = false := beq_eq_false_iff_ne.mpr nofun
  simp only [execBlockPlace, hl, hgroup, hturn, hnot, hcore, Bool.false_eq_true, if_false, beq_self_eq_true, if_true]

theorem blockPlace_restores (hturn : s.arbitrate l.part = some (.restore id)) {b : Block} {bs : List Block} (hsaved : l.saved = b :: bs)
    {core : Nat} {d : List (Nat × Nat × Nat)} (hcore : s.chooseCore l.part id b.need = some (core, d)) {s1 : State}
    (hreadd : s.readdBlock l b core d = (s1, true)) :
    execBlockPlace id s = .next (s.restoredOr l ((s1.resumed l b.uid core).noteRestored l core)) := by
  simp only [execBlockPlace, hl, hgroup, hturn, hsaved, hcore, hreadd, Bool.false_eq_true, if_false, beq_self_eq_true, if_true]

end Alone

section Group

variable (hgroup : hdrGrouped l.hdr = true)
include hgroup

theorem groupPlace_places (hturn : s.arbitrate l.part = some (.place id)) {xs : List (Nat × List (Nat × Nat × Nat))}
    (hcluster : s.chooseCluster l.part (List.replicate 4 (hdrNeed l.hdr)) = some xs) :
    execGroupPlace id s = .next (xs.foldl (fun s x => s.placeOn l x.1 x.2) (s.noteTurn l.part l.vf l.level 4)) := by
  have hnot : (some (Choice.place id) == some (Choice.restore id)) = false := beq_eq_false_iff_ne.mpr nofun
  simp only [execGroupPlace, hl, hgroup, hturn, hnot, hcluster, Bool.not_true, Bool.false_eq_true, if_false, beq_self_eq_true, if_true]

variable (hturn : s.arbitrate l.part = some (.restore id)) {xs : List (Block × Nat × List (Nat × Nat × Nat))}
  (hcores : s.regroupOn l.part l.savedGroup = some xs) {t : State}
include hturn hcores

theorem groupPlace_waits (hready : s.groupReady l (xs.map fun x => (x.1, x.2.1)) = (t, false)) : execGroupPlace id s = .next t := by
  simp only [execGroupPlace, hl, hgroup, hturn, hcores, hready, Bool.not_true, Bool.false_eq_true, if_false, beq_self_eq_true, if_true]

theorem groupPlace_restores (hready : s.groupReady l (xs.map fun x => (x.1, x.2.1)) = (t, true)) : execGroupPlace id s =
    .next (s.restoredOr l ((xs.foldl (fun s x => s.resumed l x.1.uid x.2.1) (xs.foldl (fun s x => (s.readdBlock l x.1 x.2.1 x.2.2).1) t)).noteRestored l
      ((xs.head?.map (·.2.1)).getD 0))) := by
  simp only [execGroupPlace, hl, hgroup, hturn, hcores, hready, Bool.not_true, Bool.false_eq_true, if_false, beq_self_eq_true, if_true]

end Group

end Place

section Noted

variable {s : State} {l : Launch} {core : Nat} {x : Launch} (hl : s.launch? l.id = some x)
include hl

theorem noteRestored_more (hmore : x.saved ≠ []) : s.noteRestored l core = (s, .done) := by
  simp only [State.noteRestored, hl, List.isEmpty_iff, hmore, if_false]

theorem noteRestored_last (hlast : x.saved = []) : s.noteRestored l core = State.writeSections core [(l, 0, leBytes 4 2)] s := by
  simp only [State.noteRestored, hl, hlast, List.isEmpty_nil, if_true]

end Noted

/-- Settles O48: a new block stands behind the others once its units are free (`placeOn_eq`), a saved one as `StandsAgain` says, and its
lanes trap or go on as the folds over its crews come to them. -/
theorem blocksArePlaced : Obligations.BlocksArePlaced := by
  refine ⟨fun s id l core d hl hgroup hturn hcore => blockPlace_places hl hgroup hturn hcore,
    fun s id l xs hl hgroup hturn hcluster => groupPlace_places hl hgroup hturn hcluster, ?_, ?_, ?_, fun _ _ _ _ _ _ => rfl, ?_,
    fun s l b core d => ⟨fun va w => readdBlock_pointWaits, fun s1 w => readdBlock_entryWaits⟩, ?_, ?_, ?_, ?_, fun _ _ _ _ => rfl,
    fun s l core x hl => ⟨noteRestored_more hl, noteRestored_last hl⟩⟩
  · intro s id l b bs core d s1 hl hgroup hturn hsaved hcore hreadd
    have hnext := blockPlace_restores hl hgroup hturn hsaved hcore hreadd
    exact ⟨fun t ht => hnext.trans (by rw [ht]; rfl), fun t va w ht => hnext.trans (by rw [ht]; rfl)⟩
  · intro s l core d hl
    refine ⟨_, ?_, rfl, placeOn_launch core d hl⟩
    rw [placeOn_uids core d hl, List.map_append]
    rfl
  · intro l bid dealt age now c j hj
    exact ⟨startLane l bid c j, startCrew_lane l bid dealt age now c hj, rfl, rfl, rfl, rfl⟩
  · intro s id l xs hl hgroup hturn hcores
    refine ⟨fun t hready => groupPlace_waits hl hgroup hturn hcores hready, fun t hready u hu => ?_⟩
    exact (groupPlace_restores hl hgroup hturn hcores hready).trans (by rw [hu]; rfl)
  · intro s l b core d s1 es lost den hnew hpoint hagain
    obtain ⟨t, b', ht, huids, hb', hstands, hlaunch⟩ := readdBlock_spec (d := d) hpoint hagain hnew
    obtain ⟨hcore, hbid, hcrews, hbuf, hscratch, hsize, htiles, hhandles, hgroups, hmcmds, hccmds⟩ := hstands
    exact ⟨t, b', ht, huids, hb', hcore, hbid, hcrews, hbuf, hscratch, hsize, htiles, hhandles, hgroups, hmcmds, hccmds, hlaunch⟩
  · intro s b core e es
    exact ⟨fun s1 x hx => ⟨fun sl => entryAgain_denied hx, entryAgain_open hx⟩, fun s1 f => entryAgain_lost, fun s1 w => entriesAgain_waits es⟩
  · intro s core l d c hlive
    obtain ⟨hage, hdealt, hcid, hbudget, hswc, hregs, hlanes⟩ := resumeCrew_spec s core l d c hlive
    refine ⟨hage, hdealt, hcid, hbudget, hswc, hregs, fun i x hx => ?_⟩
    obtain ⟨x', hx', hdone, hparked, hq, hrng, hlink, hv, hunmarked, hmarked⟩ := hlanes i x hx
    exact ⟨x', hx', hdone, hparked, hq, hrng, hlink, hv, hunmarked, hmarked⟩
  · intro s l u core b ci c i x hcrew hlane
    refine ⟨fun hh hdone hkind hpoint hnone => trapPointless_traps l hcrew hlane hh hdone hkind hpoint hnone, fun w hparked hpark hnow => ?_⟩
    obtain rfl := block_uid (block_of_crew hcrew).1
    obtain ⟨y, hy, hwl, hp⟩ := rereadWaitc_goesOn hparked hpark hnow hcrew hlane
    exact ⟨y, hy, hp, hwl⟩

end Sys2Proof.Proofs
end

