-- ==== Sys2Proof/Proofs/SavedBytes.lean ====
section
/-! What a switch saves: lanes, crews and blocks rewound, their records, the sections of save areas, counters and networks (14_crews R235;
21_traps_preemption R344, R347 to R351; 22_tenants R364). -/

namespace Sys2Proof.Proofs

open Sys2Proof.Machine Sys2Proof.Laws

/-! ### Rewinding (R344) -/

theorem keepsPark_iff (x : Lane) : x.keepsPark = true ↔ x.parked = true ∧ x.kind = false ∧ x.wl = x.rwl ∧ x.ro = x.rro
    ∧ ((∃ h a c z r o, x.park = some (.waitc h a c z r o)) ∨ (∃ n, x.park = some (.bar n)) ∨ ∃ n, x.park = some (.barc n)) := by
  simp only [Lane.keepsPark, Bool.and_eq_true, Bool.not_eq_true', beq_iff_eq, and_assoc]
  refine and_congr_right fun _ => and_congr_right fun _ => and_congr_right fun _ => and_congr_right fun _ => ?_
  split
  next h a c z r o hp => exact iff_of_true rfl (.inl ⟨h, a, c, z, r, o, hp⟩)
  next n hp => exact iff_of_true rfl (.inr (.inl ⟨n, hp⟩))
  next n hp => exact iff_of_true rfl (.inr (.inr ⟨n, hp⟩))
  next hw hb hbc =>
    refine iff_of_false nofun ?_
    rintro (⟨h, a, c, z, r, o, hp⟩ | ⟨n, hp⟩ | ⟨n, hp⟩)
    · exact hw h a c z r o hp
    · exact hb n hp
    · exact hbc n hp

theorem rewound_done {x : Lane} (h : x.done = true) : x.rewound = { x with act := false } := by rw [Lane.rewound, h, if_pos rfl]

theorem rewound_keepsPark {x : Lane} (h : x.done = false) (hp : x.keepsPark = true) :
    x.rewound = { x with wl := x.rwl, ro := x.rro, rng := x.rngc, act := false, resumed := false } := by
  rw [Lane.rewound, h, if_neg (by decide), hp, if_pos rfl]

theorem rewound_leavesPark {x : Lane} (h : x.done = false) (hp : x.keepsPark = false) : x.rewound =
    { x with parked := false, park := none, wl := x.rwl, ro := x.rro, rng := x.rngc, act := false, resumed := false } := by
  rw [Lane.rewound, h, if_neg (by decide), hp, if_neg (by decide)]

/-- What rewinding keeps of every lane. -/
theorem rewound_keeps (x : Lane) : x.rewound.v = x.v ∧ x.rewound.q = x.q ∧ x.rewound.link = x.link ∧ x.rewound.act = false
    ∧ x.rewound.kind = x.kind := by
  cases h : x.done with
  | true => rw [rewound_done h]; exact ⟨rfl, rfl, rfl, rfl, rfl⟩
  | false =>
    cases hp : x.keepsPark with
    | true => rw [rewound_keepsPark h hp]; exact ⟨rfl, rfl, rfl, rfl, rfl⟩
    | false => rw [rewound_leavesPark h hp]; exact ⟨rfl, rfl, rfl, rfl, rfl⟩

theorem rewound_place {x : Lane} (h : x.done = false) : x.rewound.wl = x.rwl ∧ x.rewound.ro = x.rro ∧ x.rewound.rng = x.rngc := by
  cases hp : x.keepsPark with
  | true => rw [rewound_keepsPark h hp]; exact ⟨rfl, rfl, rfl⟩
  | false => rw [rewound_leavesPark h hp]; exact ⟨rfl, rfl, rfl⟩

theorem rewound_parked {x : Lane} (h : x.done = false) (hp : x.keepsPark = true) : x.rewound.parked = true ∧ x.rewound.park = x.park := by
  rw [rewound_keepsPark h hp]
  exact ⟨((keepsPark_iff x).mp hp).1, rfl⟩

theorem rewound_unparked {x : Lane} (h : x.done = false) (hp : x.keepsPark = false) : x.rewound.parked = false ∧ x.rewound.park = none := by
  rw [rewound_leavesPark h hp]
  exact ⟨rfl, rfl⟩

theorem crew_rewound {c : Crew} (h : c.regroup = none) : c.rewound.lanes = c.lanes.map (·.rewound) ∧ c.rewound.s = c.s ∧ c.rewound.swc = c.swc
    ∧ (c.seq ≠ .retired → c.rewound.seq = .census none) := by
  have hend : c.endRegroup false = c := by simp only [Crew.endRegroup, h]
  unfold Crew.rewound
  rw [hend]
  exact ⟨rfl, rfl, rfl, fun hseq => if_neg (by simpa using hseq)⟩

theorem block_rewound_engines (b : Block) : b.rewound.mcmds.map (·.id) = b.mcmds.map (·.id)
    ∧ b.rewound.ccmds.map (·.done) = b.ccmds.map (fun c => c.done.filter fun p => decide (p.1 < c.marked)) := by
  constructor
  · show (b.mcmds.map _).map _ = _
    rw [List.map_map]
    rfl
  · show (b.ccmds.map _).map _ = _
    rw [List.map_map]
    rfl

/-! ### Records of lanes and crews (R349, R350) -/

/-- One part of a list of parts of one length. -/
theorem drop_take_flatMap {α β : Type} {f : α → List β} {n : Nat} (hf : ∀ x, (f x).length = n) (rest : List β) : ∀ {l : List α} {j : Nat} {x : α},
    l[j]? = some x → ((l.flatMap f ++ rest).drop (n * j)).take n = f x
  | y :: l, 0, x, h => by
    obtain rfl := Option.some.inj h
    rw [Nat.mul_zero, List.drop_zero, List.flatMap_cons, List.append_assoc, List.take_left' (hf y)]
  | y :: l, j + 1, x, h => by
    rw [List.flatMap_cons, List.append_assoc, Nat.mul_succ, Nat.add_comm, ← List.drop_drop, List.drop_left' (hf y)]
    exact drop_take_flatMap hf rest h

theorem length_flatMap_of {α β : Type} {f : α → List β} {n : Nat} (hf : ∀ x, (f x).length = n) (l : List α) : (l.flatMap f).length = l.length * n := by
  rw [List.length_flatMap, List.map_congr_left fun x _ => hf x, List.map_const', List.sum_replicate, smul_eq_mul]

theorem laneRecord_length (l : Lane) : l.recordBytes.length = 64 := by
  simp only [Lane.recordBytes, List.length_append, leBytes_len, length_flatMap_of (fun _ => leBytes_len 4 _), List.length_range]

theorem laneRecord_take (x : Lane) : x.recordBytes.take 24 = [x.wl, x.ro, x.rwl, x.rro, x.rng, x.rngc].flatMap fun w => leBytes 4 w.toNat := by
  have hassoc : ∀ a b c d : List Byte, a ++ b ++ c ++ d = a ++ (b ++ c ++ d) := fun a b c d => by simp only [List.append_assoc]
  rw [Lane.recordBytes, hassoc, List.take_left']
  · simp only [List.flatMap_cons, List.flatMap_nil, List.append_nil, List.append_assoc]
  · simp only [List.length_append, leBytes_len]

theorem crewRecord_lane (c : Crew) (vs : BitVec 128) (ss : DWord) {j : Nat} {x : Lane} (h : c.lanes[j]? = some x) :
    ((c.recordBytes vs ss).drop (64 + 64 * j)).take 64 = x.recordBytes := by
  have hhead : (leBytes 1 c.cid ++ leBytes 1 c.quad ++ leBytes 1 c.role ++ leBytes 1 c.budget ++ leBytes 4 c.swc.toNat
    ++ leBytes 16 vs.toNat ++ leBytes 8 ss.toNat ++ List.replicate 32 0 : List Byte).length = 64 := by
    simp only [List.length_append, leBytes_len, List.length_replicate]
  have hassoc : ∀ a b c d e : List Byte, a ++ b ++ c ++ d ++ e = a ++ (b ++ (c ++ d ++ e)) := fun a b c d e => by simp only [List.append_assoc]
  rw [Crew.recordBytes, hassoc, ← List.drop_drop, List.drop_left' hhead]
  exact drop_take_flatMap laneRecord_length _ h

/-! ### Sections of save areas (R347 to R349) -/

section Slot

variable (s : State) (l : Launch) (b : Block)

/-- What one crew adds to a slot's sections: a retired one nothing. -/
def addCrew (r : Nat × List (Nat × List Byte)) (c : Crew) : Nat × List (Nat × List Byte) :=
  let m := s.saveMasks b.core l c
  (r.1 + crewSize c.budget, if c.seq == .retired then r.2 else r.2 ++ [(r.1, c.recordBytes m.1 m.2)])

theorem addCrew_fst : ∀ (cs : List Crew) (r : Nat × List (Nat × List Byte)),
    (cs.foldl (addCrew s l b) r).1 = r.1 + (cs.map fun c => crewSize c.budget).sum
  | [], _ => rfl
  | c :: cs, r => by
    rw [List.foldl_cons, addCrew_fst cs, List.map_cons, List.sum_cons, ← Nat.add_assoc]
    rfl

theorem addCrew_mem : ∀ (cs : List Crew) (r : Nat × List (Nat × List Byte)) {x : Nat × List Byte}, x ∈ r.2 → x ∈ (cs.foldl (addCrew s l b) r).2
  | [], _, _, h => h
  | c :: cs, r, x, h => addCrew_mem cs _ (by
    show x ∈ (if _ then _ else _)
    split
    · exact h
    · exact List.mem_append_left _ h)

theorem addCrew_record (cs : List Crew) {i : Nat} {c : Crew} (hc : cs[i]? = some c) (hlive : c.seq ≠ .retired) (r : Nat × List (Nat × List Byte)) :
    (r.1 + ((cs.take i).map fun c => crewSize c.budget).sum, c.recordBytes (s.saveMasks b.core l c).1 (s.saveMasks b.core l c).2)
      ∈ (cs.foldl (addCrew s l b) r).2 := by
  induction cs generalizing i r with
  | nil => cases hc
  | cons y cs ih =>
    cases i with
    | zero =>
      obtain rfl := Option.some.inj hc
      have hadds : (addCrew s l b r y).2 = r.2 ++ [(r.1, y.recordBytes (s.saveMasks b.core l y).1 (s.saveMasks b.core l y).2)] :=
        if_neg (by simpa using hlive)
      refine addCrew_mem s l b cs _ ?_
      rw [hadds, List.take_zero, List.map_nil, List.sum_nil, Nat.add_zero]
      exact List.mem_append_right _ (List.mem_singleton.mpr rfl)
    | succ i =>
      have hrest := ih (i := i) hc (addCrew s l b r y)
      rw [List.take_succ_cons, List.map_cons, List.sum_cons, ← Nat.add_assoc]
      exact hrest

theorem foldl_crewSize : ∀ (cs : List Crew) (n : Nat),
    cs.foldl (fun n c => n + crewSize c.budget) n = n + (cs.map fun c => crewSize c.budget).sum
  | [], _ => rfl
  | c :: cs, n => by rw [List.foldl_cons, foldl_crewSize cs, List.map_cons, List.sum_cons, Nat.add_assoc]

theorem slotSections_eq (n : Nat) : s.slotSections l b n =
    (0, b.headerBytes) :: (b.crews.foldl (addCrew s l b) (256, [])).2 ++
      (let crews := 256 + (b.crews.map fun c => crewSize c.budget).sum
       [(crews, b.storeBuf.flatMap (·.recordBytes)), (crews + 131072, b.scratchBytes 0 b.scratchSize),
        (crews + 131072 + b.scratchSize, (List.range engineSize).map fun i => BitVec.ofNat 8 (Config.freeNat (n + i)))]) := by
  unfold State.slotSections
  rw [foldl_crewSize]
  rfl

/-- The sections of a saved block's slot (R349). -/
theorem slotSections_mem (n : Nat) : (let crews := 256 + (b.crews.map fun c => crewSize c.budget).sum
    (0, b.headerBytes) ∈ s.slotSections l b n ∧ (crews, b.storeBuf.flatMap (·.recordBytes)) ∈ s.slotSections l b n
      ∧ (crews + 131072, b.scratchBytes 0 b.scratchSize) ∈ s.slotSections l b n
      ∧ ∀ (i : Nat) c, b.crews[i]? = some c → c.seq ≠ .retired → (256 + ((b.crews.take i).map fun c => crewSize c.budget).sum,
          c.recordBytes (s.saveMasks b.core l c).1 (s.saveMasks b.core l c).2) ∈ s.slotSections l b n) := by
  rw [slotSections_eq]
  refine ⟨List.mem_cons_self, List.mem_append_right _ List.mem_cons_self, List.mem_append_right _ (List.mem_cons_of_mem _ List.mem_cons_self),
    fun i c hc hlive => List.mem_append_left _ (List.mem_cons_of_mem _ (addCrew_record s l b b.crews hc hlive (256, [])))⟩

end Slot

section Area

variable (s : State) (l : Launch) (nets : List Nat)

/-- The sections of a launch's save area: its header, its networks' records, and each saved block's slot (R347, R348). -/
theorem areaSections_mem : (l, 0, l.areaHeader 1 l.saved.length nets.length) ∈ s.areaSections l nets
    ∧ (∀ n ∈ nets, (l, 256 + 96 * n, (s.net n).recordOf n) ∈ s.areaSections l nets)
    ∧ ∀ (k : Nat) b, l.saved[k]? = some b → ∀ x ∈ s.slotSections l b (s.draws + engineSize * k),
        (l, slotsAt + k * l.slotSz + x.1, x.2) ∈ s.areaSections l nets := by
  refine ⟨List.mem_map.mpr ⟨_, List.mem_append_left _ List.mem_cons_self, rfl⟩, fun n hn => ?_, fun k b hb x hx => ?_⟩
  · exact List.mem_map.mpr ⟨_, List.mem_append_left _ (List.mem_cons_of_mem _ (List.mem_map_of_mem hn)), rfl⟩
  · have hslot : (b, k) ∈ l.saved.zipIdx := List.mk_mem_zipIdx_iff_getElem?.mpr hb
    exact List.mem_map.mpr ⟨(slotsAt + k * l.slotSz + x.1, x.2),
      List.mem_append_right _ (List.mem_flatMap.mpr ⟨(b, k), hslot, List.mem_map.mpr ⟨x, hx, rfl⟩⟩), rfl⟩

end Area

section Areas

variable (nets : List Nat) (first : Option Word) {l : Launch} (ls : List Launch) {s : State} {x : Launch} (hx : s.launch? l.id = some x)
include hx

theorem areasOf_unsaved (h : x.saved = []) : State.areasOf nets first (l :: ls) s = State.areasOf nets first ls s := by
  simp only [State.areasOf, hx, h, beq_self_eq_true, if_true]

theorem areasOf_saved (h : x.saved ≠ []) : (State.areasOf nets first (l :: ls) s).2 =
    s.areaSections x (if first = some x.id then nets else [])
      ++ (State.areasOf nets first ls { s with draws := s.draws + engineSize * x.saved.length }).2 := by
  have hsaved : (x.saved == []) = false := beq_eq_false_iff_ne.mpr h
  simp only [State.areasOf, hx, hsaved, Bool.false_eq_true, if_false, beq_iff_eq]

end Areas

theorem sectionRuns_bytes (core : Nat) : ∀ (xs : List Section) {s s1 : State} {rs : List (Nat × List Piece × List Byte)},
    State.sectionRuns core xs s = (s1, .ok rs) → rs.map (·.2.2) = xs.map (·.2.2)
  | [], s, s1, rs, h => by
    obtain ⟨-, h⟩ := Prod.mk.inj h
    rw [← Except.ok.inj h]
    rfl
  | (l, o, bs) :: xs, s, s1, rs, h => by
    rw [State.sectionRuns] at h
    split at h
    next => cases (Prod.mk.inj h).2
    next => cases (Prod.mk.inj h).2
    next => cases (Prod.mk.inj h).2
    next t ps _ =>
      split at h
      next u rs' hrest =>
        obtain ⟨-, h⟩ := Prod.mk.inj h
        rw [← Except.ok.inj h, List.map_cons, List.map_cons, sectionRuns_bytes core xs hrest]
      next => cases (Prod.mk.inj h).2

section Write

variable {core : Nat} {xs : List Section} {s s1 : State}

theorem writeSections_stops {e : Saving} (h : State.sectionRuns core xs s = (s1, .error e)) : State.writeSections core xs s = (s1, e) := by
  simp only [State.writeSections, h]

theorem writeSections_writes {rs : List (Nat × List Piece × List Byte)} (h : State.sectionRuns core xs s = (s1, .ok rs)) :
    State.writeSections core xs s = (rs.foldl (fun s r => s.writeRun r.1 0 r.2.1 r.2.2) s1, .done) := by
  simp only [State.writeSections, h]

end Write

/-! ### Counters in a function's record (R357, R364) -/

theorem getLsbD_setByte {w : Nat} (r : BitVec w) (o : Nat) (b : Byte) {k : Nat} (hk : k < w) :
    (setBytes r o [b]).getLsbD k = if 8 * o ≤ k ∧ k < 8 * o + 8 then b.getLsbD (k - 8 * o) else r.getLsbD k := by
  have hvalue : leNat [b] = b.toNat := by rw [leNat, List.foldr_cons, List.foldr_nil, Nat.mul_zero, Nat.add_zero]
  simp only [setBytes, List.length_singleton, hvalue, BitVec.getLsbD_or, BitVec.getLsbD_and, BitVec.getLsbD_not, BitVec.getLsbD_shiftLeft,
    BitVec.getLsbD_ofNat, hk, decide_true, Bool.true_and, Nat.mul_one, Nat.testBit_two_pow_sub_one]
  by_cases hbelow : k < 8 * o
  · rw [if_neg (by omega), decide_eq_true hbelow, Bool.not_true, Bool.false_and, Bool.false_and, Bool.not_false, Bool.and_true, Bool.or_false]
  · have hin : decide (k - 8 * o < w) = true := decide_eq_true (by omega)
    rw [decide_eq_false hbelow, hin, Bool.not_false, Bool.true_and, Bool.true_and, Bool.true_and, Bool.true_and]
    by_cases habove : k - 8 * o < 8
    · rw [if_pos ⟨by omega, by omega⟩, decide_eq_true habove, Bool.not_true, Bool.and_false, Bool.false_or]
      rfl
    · rw [if_neg (by omega), decide_eq_false habove, Bool.not_false, Bool.and_true]
      exact (congrArg (r.getLsbD k || ·) (BitVec.getLsbD_of_ge b _ (by omega))).trans (Bool.or_false _)

/-- One byte of a record after another byte, or that byte, is replaced. -/
theorem bits_setByte {w : Nat} (r : BitVec w) (o : Nat) (b : Byte) {q : Nat} (hq : 8 * q + 8 ≤ w) :
    bits (setBytes r o [b]) (8 * q) 8 = if q = o then b else bits r (8 * q) 8 := by
  refine BitVec.eq_of_getLsbD_eq fun i hi => ?_
  have hbit : (bits (setBytes r o [b]) (8 * q) 8).getLsbD i = (setBytes r o [b]).getLsbD (8 * q + i) := by
    simp only [bits, BitVec.getLsbD_extractLsb', hi, decide_true, Bool.true_and]
  rw [hbit, getLsbD_setByte r o b (by omega)]
  by_cases hqo : q = o
  · subst hqo
    rw [if_pos ⟨by omega, by omega⟩, if_pos rfl, Nat.add_sub_cancel_left]
  · rw [if_neg (by omega), if_neg hqo]
    simp only [bits, BitVec.getLsbD_extractLsb', hi, decide_true, Bool.true_and]

/-- Bytes set one after another in a record. -/
def setEach {w : Nat} (r : BitVec w) (bs : List (Nat × Byte)) : BitVec w := bs.foldl (fun r b => setBytes r b.1 [b.2]) r

theorem bits_setEach_other {w q : Nat} (hq : 8 * q + 8 ≤ w) : ∀ (bs : List (Nat × Byte)) (r : BitVec w), (∀ b ∈ bs, b.1 ≠ q) →
    bits (setEach r bs) (8 * q) 8 = bits r (8 * q) 8
  | [], _, _ => rfl
  | b :: bs, r, h => by
    have hrest := bits_setEach_other hq bs (setBytes r b.1 [b.2]) fun x hx => h x (List.mem_cons_of_mem _ hx)
    rw [bits_setByte r b.1 b.2 hq, if_neg (h b List.mem_cons_self).symm] at hrest
    exact hrest

theorem bits_setEach {w q : Nat} (hq : 8 * q + 8 ≤ w) {x : Byte} : ∀ (bs : List (Nat × Byte)) (r : BitVec w), (bs.map (·.1)).Nodup → (q, x) ∈ bs →
    bits (setEach r bs) (8 * q) 8 = x
  | b :: bs, r, hnodup, hmem => by
    obtain ⟨hnew, hrest⟩ := List.nodup_cons.mp hnodup
    rcases List.mem_cons.mp hmem with rfl | hin
    · have hothers : ∀ y ∈ bs, y.1 ≠ q := fun y hy he => hnew (List.mem_map.mpr ⟨y, hy, he⟩)
      have hone := bits_setEach_other hq bs (setBytes r q [x]) hothers
      rw [bits_setByte r q x hq, if_pos rfl] at hone
      exact hone
    · exact bits_setEach hq bs _ hrest hin

/-- A field is a value when each of its bytes is that of the value. -/
theorem extract_of_bytes {w n : Nat} (r : BitVec w) (o : Nat) (c : BitVec (8 * n)) (h : ∀ k < n, bits r (8 * (o + k)) 8 = BitVec.ofNat 8 (c.toNat / 256 ^ k)) :
    r.extractLsb' (8 * o) (8 * n) = c := by
  refine BitVec.eq_of_getLsbD_eq fun i hi => ?_
  have hbyte := congrArg (fun b : BitVec 8 => b.getLsbD (i % 8)) (h (i / 8) (by omega))
  have hmod : i % 8 < 8 := Nat.mod_lt _ (by decide)
  have hplace : 8 * (o + i / 8) + i % 8 = 8 * o + i := by omega
  have hpow : (256 : Nat) ^ (i / 8) = 2 ^ (8 * (i / 8)) := by rw [Nat.pow_mul]
  simp only [bits, BitVec.getLsbD_extractLsb', hmod, decide_true, Bool.true_and, hplace, BitVec.getLsbD_ofNat, hpow, Nat.testBit_div_two_pow] at hbyte
  rw [BitVec.getLsbD_extractLsb', decide_eq_true hi, Bool.true_and, hbyte, BitVec.getLsbD]
  congr 1
  omega

/-- The bytes of a function's counters and overflow bits, with their offsets in its record (R357). -/
def counterBytesOf (f : Func) : List (Nat × Byte) :=
  (f.cnt.zipIdx.flatMap fun c => (leBytes 6 c.1.toNat).zipIdx.map fun b => (96 + 6 * c.2 + b.2, b.1)) ++ [(21, f.ovf)]

theorem keepCounters_record {f : Func} (h : f.wrote = []) : f.keepCounters.record = setEach f.record (counterBytesOf f) := by
  have hfold : ∀ (bs : List (Nat × Byte)) (g : Func), g.wrote = [] →
      (bs.foldl (fun f b => if f.wrote.contains b.1 then f else f.setRecord b.1 [b.2]) g).record = setEach g.record bs := by
    intro bs
    induction bs with
    | nil => exact fun _ _ => rfl
    | cons b bs ih =>
      intro g hg
      have hone : (if g.wrote.contains b.1 then g else g.setRecord b.1 [b.2]) = g.setRecord b.1 [b.2] := by rw [hg]; rfl
      rw [List.foldl_cons, hone]
      exact ih (g.setRecord b.1 [b.2]) hg
  exact hfold (counterBytesOf f) f h

theorem counterBytesOf_nodup {f : Func} (h : f.cnt.length = 8) : ((counterBytesOf f).map (·.1)).Nodup := by
  have hfirst : (counterBytesOf f).map (·.1) = ((List.range' 0 8).flatMap fun i => (List.range' 0 6).map fun k => 96 + 6 * i + k) ++ [21] := by
    have hone : ∀ a : BitVec 48 × Nat, (((leBytes 6 a.1.toNat).zipIdx.map fun b => (96 + 6 * a.2 + b.2, b.1)).map (·.1)) =
        (List.range' 0 6).map fun k => 96 + 6 * a.2 + k := fun a => by
      rw [← leBytes_len 6 a.1.toNat, ← List.zipIdx_map_snd, List.map_map, List.map_map]
      rfl
    have hsnd : f.cnt.zipIdx.map (·.2) = List.range' 0 8 := by rw [List.zipIdx_map_snd, h]
    rw [counterBytesOf, List.map_append, List.map_flatMap, List.flatMap_congr fun a _ => hone a, ← hsnd, List.flatMap_map]
    rfl
  rw [hfirst]
  decide

theorem counterBytesOf_mem {f : Func} {i k : Nat} {c : BitVec 48} (hc : f.cnt[i]? = some c) (hk : k < 6) :
    (96 + 6 * i + k, BitVec.ofNat 8 (c.toNat / 256 ^ k)) ∈ counterBytesOf f := by
  refine List.mem_append_left _ (List.mem_flatMap.mpr ⟨(c, i), List.mk_mem_zipIdx_iff_getElem?.mpr hc, List.mem_map.mpr ⟨(_, k), ?_, rfl⟩⟩)
  exact List.mk_mem_zipIdx_iff_getElem?.mpr (leBytes_get 6 c.toNat k hk)

/-- What a switch keeps of the counters the next slice loads (R364). -/
theorem loadCounters_keepCounters {f : Func} (hwrote : f.wrote = []) (hlen : f.cnt.length = 8) :
    f.keepCounters.loadCounters.cnt = f.cnt ∧ f.keepCounters.loadCounters.ovf = f.ovf := by
  have hnodup := counterBytesOf_nodup hlen
  constructor
  · refine List.ext_getElem? fun i => ?_
    show ((List.range 8).map fun i => f.keepCounters.record.extractLsb' (8 * (96 + 6 * i)) 48)[i]? = f.cnt[i]?
    rw [keepCounters_record hwrote, List.getElem?_map]
    by_cases hi : i < 8
    · obtain ⟨c, hc⟩ : ∃ c, f.cnt[i]? = some c := ⟨_, List.getElem?_eq_getElem (hlen ▸ hi)⟩
      rw [List.getElem?_range hi, hc, Option.map_some, Option.some_inj]
      exact extract_of_bytes (n := 6) _ _ c fun k hk => bits_setEach (by omega) _ _ hnodup (counterBytesOf_mem hc hk)
    · rw [List.getElem?_eq_none_iff.mpr (by rw [List.length_range]; omega), List.getElem?_eq_none_iff.mpr (by omega)]
      rfl
  · show f.keepCounters.record.extractLsb' (8 * 21) 8 = f.ovf
    rw [keepCounters_record hwrote]
    exact bits_setEach (q := 21) (by decide) _ _ hnodup (List.mem_append_right _ (List.mem_singleton.mpr rfl))

/-! ### Records of networks (R235, R381) -/

theorem recField_of {bs : List Byte} {o n x : Nat} (h : (bs.drop o).take n = leBytes n x) : recField bs o n = x % 256 ^ n := by
  rw [recField, h, leNat_leBytes]

section NetRecord

variable (x : Net) (n : Nat)

theorem record_assoc (a b c d : List Byte) : a ++ b ++ c ++ d = a ++ (b ++ (c ++ d)) := by simp only [List.append_assoc]

variable (hcnt : x.cnt.length = 16)
include hcnt

theorem netCounts_length : (x.cnt.flatMap fun c => leBytes 5 c.toNat).length = 80 := by
  rw [length_flatMap_of fun _ => leBytes_len 5 _, hcnt]

theorem netRecord_ok (hn : n < 65536) : recordOk n (x.recordOf n) = true := by
  have hno : recField (x.recordOf n) 90 2 = n := by
    refine (recField_of (x := n) ?_).trans (Nat.mod_eq_of_lt hn)
    rw [Net.recordOf, record_assoc, show 90 = 80 + 10 from rfl, ← List.drop_drop, List.drop_left' (netCounts_length x hcnt),
      List.drop_left' (leBytes_len 10 _), List.take_left' (leBytes_len 2 _)]
  have hzero : recField (x.recordOf n) 92 4 = 0 := by
    rw [recField, Net.recordOf, record_assoc, show 92 = 80 + (10 + 2) from rfl, ← List.drop_drop, List.drop_left' (netCounts_length x hcnt),
      ← List.drop_drop, List.drop_left' (leBytes_len 10 _), List.drop_left' (leBytes_len 2 _)]
    rfl
  rw [recordOk, hno, hzero, beq_self_eq_true]
  rfl

theorem netRecord_bal (y : Net) : (y.ofRecord (x.recordOf n)).bal = x.bal := by
  have hbal : recField (x.recordOf n) 80 10 = x.bal.toNat := by
    refine (recField_of (x := x.bal.toNat) ?_).trans (Nat.mod_eq_of_lt x.bal.isLt)
    rw [Net.recordOf, record_assoc, List.drop_left' (netCounts_length x hcnt), List.take_left' (leBytes_len 10 _)]
  show BitVec.ofNat 80 (recField (x.recordOf n) 80 10) = x.bal
  rw [hbal, BitVec.ofNat_toNat, BitVec.setWidth_eq]

theorem netRecord_cnt (y : Net) : (y.ofRecord (x.recordOf n)).cnt = x.cnt := by
  refine List.ext_getElem? fun i => ?_
  show ((List.range 16).map fun i => BitVec.ofNat 40 (recField (x.recordOf n) (5 * i) 5))[i]? = x.cnt[i]?
  rw [List.getElem?_map]
  by_cases hi : i < 16
  · obtain ⟨c, hc⟩ : ∃ c, x.cnt[i]? = some c := ⟨_, List.getElem?_eq_getElem (hcnt ▸ hi)⟩
    have hone : recField (x.recordOf n) (5 * i) 5 = c.toNat := by
      refine (recField_of (x := c.toNat) ?_).trans (Nat.mod_eq_of_lt c.isLt)
      rw [Net.recordOf, record_assoc]
      exact drop_take_flatMap (fun _ => leBytes_len 5 _) _ hc
    rw [List.getElem?_range hi, hc, Option.map_some, hone, BitVec.ofNat_toNat, BitVec.setWidth_eq]
  · rw [List.getElem?_eq_none_iff.mpr (by rw [List.length_range]; omega), List.getElem?_eq_none_iff.mpr (by omega)]
    rfl

end NetRecord

end Sys2Proof.Proofs
end

