-- ==== Sys2Proof/Proofs/Slices.lean ====
section
/-! Slices and switches between functions (21_traps_preemption R343 to R354; 22_tenants R364, R365). -/

namespace Sys2Proof.Proofs

open Sys2Proof.Machine Sys2Proof.Laws

/-! ### Slices (R364, R365) -/

section Expiry

variable {s : State} {part : Nat} (hserved : s.served part = true)
include hserved

theorem sliceExpiry_first (hholder : (s.part part).holder = none) (hworks : s.entryWorks part (s.part part).entry = true) :
    execSliceExpiry part s = .next (s.startSlice part (s.part part).entry) := by
  simp only [execSliceExpiry, hserved, hholder, hworks, Bool.not_true, Bool.false_eq_true, if_false, if_true]

variable {vf : Nat} (hholder : (s.part part).holder = some vf)
include hholder

theorem sliceExpiry_switching {j : Nat} (hswitch : (s.part part).switching = some j) :
    execSliceExpiry part s = .next (s.switchOn part vf j) := by
  simp only [execSliceExpiry, hserved, hholder, hswitch, Bool.not_true, Bool.false_eq_true, if_false]

variable (hswitch : (s.part part).switching = none)
include hswitch

theorem sliceExpiry_goesOn (hrest : s.clk.toNat < (s.part part).sliceStart + ((s.part part).sched (s.part part).entry).2.1 * perSlice) :
    execSliceExpiry part s = .next s := by
  simp only [execSliceExpiry, hserved, hholder, hswitch, hrest, Bool.not_true, Bool.false_eq_true, if_false, if_true]

theorem sliceExpiry_next {j : Nat} (hout : (s.part part).sliceStart + ((s.part part).sched (s.part part).entry).2.1 * perSlice ≤ s.clk.toNat)
    (hnext : s.nextEntry part (s.part part).entry = some j) : execSliceExpiry part s = .next (s.nextSlice part vf j) := by
  simp only [execSliceExpiry, hserved, hholder, hswitch, not_lt.mpr hout, hnext, Bool.not_true, Bool.false_eq_true, if_false]

end Expiry

section EarlyEnd

variable {s : State} {part vf j t : Nat} (hholder : (s.part part).holder = some vf) (hnext : s.nextEntry part (s.part part).entry = some j)
  (hidle : (s.part part).idleSince = some t)
include hholder hnext hidle

theorem sliceEarlyEnd_ends (hmay : s.mayEndEarly part = true) (hlong : t + perMicro ≤ s.clk.toNat) :
    execSliceEarlyEnd part s = .next (s.nextSlice part vf j) := by
  simp only [execSliceEarlyEnd, hholder, hnext, hidle, hmay, hlong, decide_true, Bool.and_self, if_true]

theorem sliceEarlyEnd_goesOn (hnot : s.mayEndEarly part = false ∨ s.clk.toNat < t + perMicro) : execSliceEarlyEnd part s = .next s := by
  have hcond : (s.mayEndEarly part && decide (t + perMicro ≤ s.clk.toNat)) = false := by
    rcases hnot with hmay | hshort
    · rw [hmay, Bool.false_and]
    · rw [decide_eq_false (by omega), Bool.and_false]
  simp only [execSliceEarlyEnd, hholder, hnext, hidle, hcond, Bool.false_eq_true, if_false]

end EarlyEnd

theorem nextSlice_eq (s : State) (part vf j : Nat) : s.nextSlice part vf j = if ((s.part part).sched j).1 = vf then
    s.modPart part fun p => { p with entry := j, sliceStart := s.clk.toNat, idleSince := none } else (s.beginSwitch part vf j).switchOn part vf j := by
  simp only [State.nextSlice, beq_iff_eq]

theorem hostSwitchAck_goesOn {s : State} {part j : Nat} (hready : s.ready = true) (hswitch : (s.part part).switching = some j)
    (hawaits : (s.part part).awaitsHost = true) : execHostSwitchAck part s = .next ((s.startSlice part j).accepted part) := by
  simp only [execHostSwitchAck, hready, hswitch, hawaits, Bool.not_true, Bool.false_eq_true, if_false, if_true]

/-! ### A switch begins (R343, R364) -/

theorem modNet_net {s : State} (f : Net → Net) (m : Nat) {n : Nat} (hn : n < s.nets.length) :
    (s.modNet m f).net n = if n = m then f (s.net n) else s.net n := by
  by_cases hm : n = m
  · subst hm
    rw [net_modNet s n n _ hn]
  · simp only [State.net, State.modNet, List.getElem?_modify, List.getElem?_eq_getElem hn, Ne.symm hm, hm, if_false]
    rfl

/-- Networks changed one after another, by a change that made twice does no more than once. -/
theorem modNets_net {f : Net → Net} (hf : ∀ x, f (f x) = f x) : ∀ (ns : List Nat) (s : State) {n : Nat}, n < s.nets.length →
    (ns.foldl (fun s n => s.modNet n f) s).net n = if n ∈ ns then f (s.net n) else s.net n
  | [], s, n, _ => rfl
  | m :: ns, s, n, hn => by
    have hlen : n < (s.modNet m f).nets.length := by
      show n < (s.nets.modify m _).length
      rwa [List.length_modify]
    rw [List.foldl_cons, modNets_net hf ns _ hlen, modNet_net f m hn]
    by_cases hm : n = m
    · subst hm
      by_cases hin : n ∈ ns
      · simp only [hin, List.mem_cons, true_or, if_true, hf]
      · simp only [hin, List.mem_cons, true_or, if_true, if_false]
    · by_cases hin : n ∈ ns
      · simp only [hm, hin, List.mem_cons, or_true, if_true, if_false]
      · simp only [hm, hin, List.mem_cons, or_self, if_false]

/-- Changing networks changes nothing else. -/
theorem modNets_same (f : Net → Net) : ∀ (ns : List Nat) (s : State), ({ ns.foldl (fun s n => s.modNet n f) s with nets := s.nets } : State) = s
  | [], _ => rfl
  | n :: ns, s => congrArg (fun t : State => { t with nets := s.nets }) (modNets_same f ns (s.modNet n f))

theorem mem_nets (f : Func) (n : Nat) (hn : n < 256) : n ∈ f.nets ↔ f.net n = true := by
  simp only [Func.nets, List.mem_filter, List.mem_range, hn, true_and]

/-- A switch that has begun (R343, R364). -/
structure SwitchBegun (s t : State) (part vf j : Nat) : Prop where
  switching : (t.part part).switching = some j
  placing : t.placing part = none
  mem : SameMemory s t
  blocks : t.blocks = s.blocks.map (fun b => if b.part = part ∧ b.hnd = [] then { b with stopping := true } else b)
  nets : ∀ n, n < 256 → n < s.nets.length → t.net n = if (s.func vf).net n = true then { s.net n with closed := true } else s.net n

theorem beginSwitch_spec (s : State) {part : Nat} (vf j : Nat) (hpart : part < s.parts.length) :
    SwitchBegun s (s.beginSwitch part vf j) part vf j := by
  let stopped := (s.modPart part fun p => { p with switching := some j, idleSince := none }).mapBlocks fun b =>
    if b.part == part && b.hnd.isEmpty then { b with stopping := true } else b
  have hsame := modNets_same (fun x => { x with closed := true }) (s.func vf).nets stopped
  have hbegin : s.beginSwitch part vf j = (s.func vf).nets.foldl (fun s n => s.modNet n fun x => { x with closed := true }) stopped := rfl
  have hparts : (s.beginSwitch part vf j).parts = stopped.parts := (congrArg State.parts hsame :)
  have hswitch : ((s.beginSwitch part vf j).part part).switching = some j := by
    have hone := part_modPart s part part (fun p => { p with switching := some j, idleSince := none }) hpart
    rw [if_pos rfl] at hone
    have hsamePart : (s.beginSwitch part vf j).part part = stopped.part part := congrArg (fun ps : List Machine.Part => ps[part]?.getD Part.reset) hparts
    rw [hsamePart]
    exact (congrArg Part.switching hone :)
  refine ⟨hswitch, ?_, ?_, ?_, fun n hn hlen => ?_⟩
  · simp only [State.placing, hswitch, Option.isNone_some, Bool.and_false, Bool.false_eq_true, if_false]
  · exact sameMem (congrArg State.mem hsame :) (congrArg State.log hsame :) (congrArg State.qkeys hsame :) (congrArg State.keys hsame :)
      (congrArg State.zeroKey hsame :) fun sl x => by
        have hl2 : (s.beginSwitch part vf j).l2 = s.l2 := (congrArg State.l2 hsame :)
        rw [State.slotLine, State.slotLine, hl2]
  · have hblocks : (s.beginSwitch part vf j).blocks = stopped.blocks := (congrArg State.blocks hsame :)
    rw [hblocks]
    refine List.map_congr_left fun b _ => ?_
    simp only [Bool.and_eq_true, beq_iff_eq, List.isEmpty_iff]
  · rw [hbegin, modNets_net (f := fun x => { x with closed := true }) (fun _ => rfl) _ stopped hlen]
    simp only [mem_nets _ n hn]
    rfl

theorem readyInstr_stopping {s : State} {b : Block} (ci : Nat) (c : Crew) (h : b.stopping = true) : s.readyInstr b ci c = none := by
  have hheld : b.heldAt c = true := by rw [Block.heldAt, h, Bool.or_true, Bool.true_or]
  unfold State.readyInstr
  split
  · rw [hheld, if_pos rfl]
  · rfl

/-! ### A switch goes on (R343, R347, R351, R354) -/

theorem switchReady_iff (s : State) (part vf : Nat) : s.switchReady part vf = true ↔ (∀ l ∈ s.launches, l.vf = vf → l.completed ≠ recGrid l.record)
    ∧ (∀ b ∈ s.blocks, b.part = part → b.hnd = [] → b.saveable = true) ∧ ∀ n ∈ (s.func vf).nets, (s.net n).tokens = [] := by
  simp only [State.switchReady, Bool.and_eq_true, List.all_eq_true, Bool.or_eq_true, bne_iff_ne, Bool.not_eq_true', Net.quiet,
    ← List.isEmpty_iff, and_assoc, ne_eq, imp_iff_not_or, Bool.not_eq_true, or_assoc]

section SwitchOn

variable {s t : State} {part vf j : Nat}

theorem switchOn_waits (h : s.switchReady part vf = false) : s.switchOn part vf j = s := by
  simp only [State.switchOn, h, Bool.not_false, if_true]

variable (hready : s.switchReady part vf = true)
include hready

theorem switchOn_unsaved (hout : s.switchOut part vf = (t, false)) : s.switchOn part vf j = t := by
  simp only [State.switchOn, hready, hout, Bool.not_true, Bool.false_eq_true, if_false]

theorem switchOn_starts (hout : s.switchOut part vf = (t, true)) (hmode : (t.part part).hostMode 2 = false) : s.switchOn part vf j = t.startSlice part j := by
  simp only [State.switchOn, hready, hout, hmode, Bool.not_true, Bool.false_eq_true, if_false]

theorem switchOn_asksHost (hout : s.switchOut part vf = (t, true)) (hmode : (t.part part).hostMode 2 = true) :
    s.switchOn part vf j = (t.modPart part fun p => { p with awaitsHost := true }).interrupt part vf 5 0 := by
  simp only [State.switchOn, hready, hout, hmode, Bool.not_true, Bool.false_eq_true, if_false, if_true]

end SwitchOn

section SwitchOut

variable {s t u : State} {part vf : Nat}

theorem switchOut_pointWaits {va : Nat} {w : Park} (h : s.pointsWait part = some (va, w)) :
    s.switchOut part vf = (s.askResidencyFront part vf va w, false) := by
  simp only [State.switchOut, h]

/-- The launch whose save area the networks go to; none where the host moves them (R347, R354). -/
def netsArea (s : State) (part vf : Nat) : Option Word :=
  if (s.part part).hostMode 3 = true then none else ((s.restoreOrder vf).find? fun l => s.residentOf l.id != 0).map (·.id)

variable {xs : List Section} (hpoint : s.pointsWait part = none)
  (hareas : State.areasOf (if (s.part part).hostMode 3 = true then [] else (s.func vf).nets) (netsArea s part vf) (s.restoreOrder vf) (s.saveBlocks part) = (t, xs))
include hpoint hareas

theorem switchOut_saved (hwrite : State.writeSections (s.part part).firstCore xs t = (u, .done)) :
    s.switchOut part vf = ((u.modFunc vf fun f => { f with netsIn := netsArea s part vf }).leaveCores part vf, true) := by
  unfold netsArea at *
  simp only [State.switchOut, hpoint, hareas, hwrite]

theorem switchOut_lost {va : Nat} (hwrite : State.writeSections (s.part part).firstCore xs t = (u, .fault va)) :
    s.switchOut part vf = ((u.loseFunction part vf va).leaveCores part vf, true) := by
  unfold netsArea at hareas
  simp only [State.switchOut, hpoint, hareas, hwrite]

theorem switchOut_waits {va : Nat} {w : Park} (hwrite : State.writeSections (s.part part).firstCore xs t = (u, .wait va w)) :
    s.switchOut part vf = (s.askResidencyFront part vf va w, false) := by
  unfold netsArea at hareas
  simp only [State.switchOut, hpoint, hareas, hwrite]

end SwitchOut

/-! ### What leaves the cores (R343, R347, R351) -/

theorem removeBlock_blocks (s : State) (b : Block) : (s.removeBlock b).blocks = s.blocks.filter (·.uid != b.uid) := by
  show (if _ then _ else _ : State).blocks = _
  split <;> rfl

theorem launch_modLaunch_any (s : State) (i id : Word) {f : Launch → Launch} (hf : ∀ l, (f l).id = l.id) :
    (s.modLaunch i f).launch? id = (s.launch? id).map fun l => if i == id then f l else l := by
  have hkeep : ((·.id == id) ∘ fun l : Launch => if l.id == i then f l else l) = fun l : Launch => l.id == id := funext fun l => by
    simp only [Function.comp]
    split
    · rw [hf]
    · rfl
  simp only [State.launch?, modLaunch_launches, List.find?_map, hkeep]
  cases h : s.launches.find? (·.id == id) with
  | none => rfl
  | some l =>
    have hid : l.id = id := by simpa using List.find?_some h
    rw [Option.map_some, Option.map_some, hid, BEq.comm]

/-- One block leaves its core for its launch's save area. -/
def saveBlock (s : State) (b : Block) : State :=
  (({ s.removeBlock b with hostReqs := s.hostReqs } : State).dropWaits b.uid).modLaunch b.launch fun l => { l with saved := l.saved ++ [b.rewound] }

theorem saveBlock_launch {s : State} {id : Word} {l : Launch} (b : Block) (hl : s.launch? id = some l) : ∃ l',
    (saveBlock s b).launch? id = some l' ∧ l'.saved = l.saved ++ ([b].filter (·.launch == id)).map (·.rewound) := by
  let t : State := ({ s.removeBlock b with hostReqs := s.hostReqs } : State).dropWaits b.uid
  have ht : t.launch? id = some l := (congrArg (List.find? fun x : Launch => x.id == id) (removeBlock_spec s b).launches).trans hl
  have hmod := launch_modLaunch_any t b.launch id (f := fun l => { l with saved := l.saved ++ [b.rewound] }) fun _ => rfl
  rw [ht, Option.map_some] at hmod
  refine ⟨_, hmod, ?_⟩
  cases hid : b.launch == id with
  | true =>
    have hone : [b].filter (fun x => x.launch == id) = [b] := List.filter_cons_of_pos hid
    rw [if_pos rfl, hone]
    rfl
  | false =>
    have hnone : [b].filter (fun x => x.launch == id) = [] := List.filter_cons_of_neg (by rw [hid]; decide)
    rw [if_neg (by decide), hnone]
    exact (List.append_nil _).symm

theorem saveBlocks_launch {id : Word} : ∀ (bs : List Block) {s : State} {l : Launch}, s.launch? id = some l → ∃ l',
    (bs.foldl saveBlock s).launch? id = some l' ∧ l'.saved = l.saved ++ (bs.filter (·.launch == id)).map (·.rewound)
  | [], s, l, hl => ⟨l, hl, (List.append_nil _).symm⟩
  | b :: bs, s, l, hl => by
    obtain ⟨l1, hl1, hsaved⟩ := saveBlock_launch b hl
    obtain ⟨l2, hl2, hsaved'⟩ := saveBlocks_launch bs hl1
    refine ⟨l2, hl2, ?_⟩
    rw [hsaved', hsaved, List.append_assoc, ← List.map_append, ← List.filter_append, List.singleton_append]

theorem saveBlocks_blocks : ∀ (bs : List Block) (s : State), (bs.foldl saveBlock s).blocks = s.blocks.filter fun x => bs.all fun b => x.uid != b.uid
  | [], s => (List.filter_true _).symm
  | b :: bs, s => by
    have hone : (saveBlock s b).blocks = s.blocks.filter (·.uid != b.uid) := removeBlock_blocks s b
    rw [List.foldl_cons, saveBlocks_blocks bs, hone, List.filter_filter]
    exact List.filter_congr fun x _ => by rw [List.all_cons, Bool.and_comm]

/-- The blocks of a partition's function leave their cores, each for its launch's save area (R343, R347). -/
theorem saveBlocks_spec (s : State) (part : Nat) (hnodup : (s.blocks.map (·.uid)).Nodup) :
    (s.saveBlocks part).blocks = s.blocks.filter (fun b => !(b.part == part && b.hnd.isEmpty))
      ∧ ∀ id l, s.launch? id = some l → ∃ l', (s.saveBlocks part).launch? id = some l' ∧ l'.saved = l.saved
          ++ (s.blocks.filter fun b => (b.part == part && b.hnd.isEmpty) && b.launch == id).map (·.rewound) := by
  let mine : Block → Bool := fun b => b.part == part && b.hnd.isEmpty
  have hfold : s.saveBlocks part = (s.blocks.filter mine).foldl saveBlock s := rfl
  refine ⟨?_, fun id l hl => ?_⟩
  · rw [hfold, saveBlocks_blocks]
    refine List.filter_congr fun x hx => ?_
    rw [Bool.eq_iff_iff, List.all_eq_true, Bool.not_eq_true']
    refine ⟨fun hall => ?_, fun hother b hb => ?_⟩
    · by_contra hmine
      have hself := hall x (List.mem_filter.mpr ⟨hx, eq_true_of_ne_false hmine⟩)
      rw [bne_self_eq_false] at hself
      cases hself
    · obtain ⟨hin, hmine⟩ := List.mem_filter.mp hb
      refine bne_iff_ne.mpr fun huid => ?_
      obtain rfl := List.inj_on_of_nodup_map hnodup hx hin huid
      exact absurd hmine (by rw [show mine x = false from hother]; decide)
  · obtain ⟨l', hl', hsaved⟩ := saveBlocks_launch (s.blocks.filter mine) hl
    refine ⟨l', hl', ?_⟩
    rw [hsaved, List.filter_filter]
    exact congrArg (fun bs => l.saved ++ List.map Block.rewound bs) (List.filter_congr fun b _ => Bool.and_comm ..)

theorem netsAwaitHost_same (part vf : Nat) : ∀ (ns : List Nat) (s : State), ({ s.netsAwaitHost part vf ns with hostMsgs := s.hostMsgs } : State) = s
  | [], _ => rfl
  | n :: ns, s => congrArg (fun t : State => { t with hostMsgs := s.hostMsgs }) (netsAwaitHost_same part vf ns (s.interrupt part vf 7 (BitVec.ofNat 64 n)))

/-- A function that leaves its cores keeps its counters in its record, and no lookaside entry of it stays there (R319, R364). -/
theorem leaveCores_spec (s : State) (part : Nat) {vf : Nat} (hvf : vf < s.funcs.length) :
    ((s.leaveCores part vf).func vf).record = (s.func vf).keepCounters.record
      ∧ ∀ e ∈ (s.leaveCores part vf).looks, e ∈ s.looks ∧ ((s.part part).cores.contains e.core = false ∨ e.vf ≠ vf) := by
  let t := if (s.part part).hostMode 3 then s.netsAwaitHost part vf (s.func vf).nets else s
  have ht : ({ t with hostMsgs := s.hostMsgs } : State) = s := by
    show ({ (if _ then _ else _ : State) with hostMsgs := _ } : State) = s
    split
    · exact netsAwaitHost_same part vf _ s
    · rfl
  have hfuncs : t.funcs = s.funcs := (congrArg State.funcs ht :)
  have hlooks : t.looks = s.looks := (congrArg State.looks ht :)
  constructor
  · have hkept := func_modFunc t vf vf (fun f => f.keepCounters) (by rwa [hfuncs])
    rw [if_pos rfl] at hkept
    have hsame : t.func vf = s.func vf := congrArg (fun fs : List Func => fs[vf]?.getD Func.reset) hfuncs
    rw [hsame] at hkept
    exact (congrArg Func.record hkept :)
  · intro e he
    have he' : e ∈ t.looks.filter fun e => !((s.part part).cores.contains e.core && e.vf == vf) := he
    obtain ⟨hin, hcond⟩ := List.mem_filter.mp he'
    refine ⟨hlooks ▸ hin, ?_⟩
    rw [Bool.not_eq_true', Bool.and_eq_false_iff, beq_eq_false_iff_ne] at hcond
    exact hcond

/-- What the hypervisor is told of a function lost rests on no state. -/
theorem interrupt_lost_msgs {s t : State} (part vf : Nat) (d : DWord) (h : t.hostMsgs = s.hostMsgs) :
    (t.interrupt part vf 6 d).hostMsgs = (s.interrupt part vf 6 d).hostMsgs := by
  have hkind : ¬ 6 = 1 := by decide
  simp only [State.interrupt, if_neg hkind, h]

/-- A function that is lost (R351). -/
theorem loseFunction_spec (s : State) (part : Nat) {vf : Nat} (va : Nat) (hvf : vf < s.funcs.length) :
    (s.loseFunction part vf va).launches = s.launches.filter (·.vf != vf) ∧ ((s.loseFunction part vf va).func vf).lost = true
      ∧ (s.loseFunction part vf va).hostMsgs = (s.interrupt part vf 6 (BitVec.ofNat 64 va)).hostMsgs
      ∧ ∀ n ∈ (s.func vf).nets, n < s.nets.length →
        ((s.loseFunction part vf va).net n).closed = true ∧ ((s.loseFunction part vf va).net n).lost = true := by
  let gone : State := { s with launches := s.launches.filter (fun l => l.vf != vf), words := s.words.filter fun w => w.vf != vf }
  let lose : Net → Net := fun x => { x with closed := true, lost := true }
  have hsame := modNets_same lose (s.func vf).nets gone
  have hlost : s.loseFunction part vf va = (((s.func vf).nets.foldl (fun s n => s.modNet n lose) gone).modFunc vf fun f =>
    { f with lost := true, netsIn := none, taken := [] }).interrupt part vf 6 (BitVec.ofNat 64 va) := rfl
  have hfuncs : ((s.func vf).nets.foldl (fun s n => s.modNet n lose) gone).funcs = s.funcs := (congrArg State.funcs hsame :)
  have hmsgs : ((s.func vf).nets.foldl (fun s n => s.modNet n lose) gone).hostMsgs = s.hostMsgs := (congrArg State.hostMsgs hsame :)
  rw [hlost]
  refine ⟨(congrArg State.launches hsame :), ?_, ?_, fun n hn hlen => ?_⟩
  · have hfunc := func_modFunc ((s.func vf).nets.foldl (fun s n => s.modNet n lose) gone) vf vf
      (fun f => { f with lost := true, netsIn := none, taken := [] }) (by rwa [hfuncs])
    rw [if_pos rfl] at hfunc
    exact (congrArg Func.lost hfunc :)
  · exact interrupt_lost_msgs part vf _ hmsgs
  · have hnet := modNets_net (f := lose) (fun _ => rfl) (s.func vf).nets gone hlen
    rw [if_pos hn] at hnet
    exact ⟨(congrArg Net.closed hnet :), (congrArg Net.lost hnet :)⟩

/-! ### The incoming function (R313, R347, R354, R364) -/

/-- A partition as a slice begins, with the function that holds it. -/
def sliceBegins (s : State) (part j : Nat) (h : Option Nat) : State :=
  s.modPart part fun p => { p with holder := h, entry := j, switching := none, awaitsHost := false, sliceStart := s.clk.toNat, idleSince := none }

theorem startSlice_waits {s : State} {part j va : Nat} {w : Park} (h : s.netsWait part ((s.part part).sched j).1 = some (va, w)) :
    s.startSlice part j = (sliceBegins s part j none).askResidencyFront part ((s.part part).sched j).1 va w := by
  simp only [State.startSlice, h, sliceBegins]

theorem startSlice_loads {s : State} {part j : Nat} (h : s.netsWait part ((s.part part).sched j).1 = none) : s.startSlice part j =
    ((sliceBegins s part j (some ((s.part part).sched j).1)).modFunc ((s.part part).sched j).1 (·.loadCounters)).loadNets part
      ((s.part part).sched j).1 := by
  simp only [State.startSlice, h, sliceBegins]

section LoadNets

variable {s : State} {part vf : Nat}

theorem loadNets_asksHost (hmode : (s.part part).hostMode 3 = true) : s.loadNets part vf = s.netsAwaitHost part vf (s.netsBack vf) := by
  simp only [State.loadNets, hmode, if_true]

variable (hmode : (s.part part).hostMode 3 = false)
include hmode

theorem loadNets_opens (hnone : (s.func vf).netsIn.bind s.launch? = none) : s.loadNets part vf = (s.netsBack vf).foldl (fun s n => s.openNet n) s := by
  simp only [State.loadNets, hmode, hnone, Bool.false_eq_true, if_false]

theorem loadNets_loads {l : Launch} (hsome : (s.func vf).netsIn.bind s.launch? = some l) : s.loadNets part vf =
    ((s.netsBack vf).foldl (fun s n => s.loadNet part l n) s).modFunc vf fun f => { f with netsIn := none } := by
  simp only [State.loadNets, hmode, hsome, Bool.false_eq_true, if_false]

end LoadNets

section LoadNet

variable {s s1 s2 : State} {part : Nat} {l : Launch} {n : Nat} {ps : List Piece} {bs : List Byte}
  (hread : s.plainRun (s.part part).firstCore (recAsid l.record) (recSave l.record + 256 + 96 * n) 96 .read = (s1, .ok ps))
  (hbytes : s1.readRun l.vf (s1.part part).firstCore ps = (s2, bs))
include hread hbytes

theorem loadNet_opens (hok : recordOk n bs = true) : s.loadNet part l n = (s2.modNet n fun x => x.ofRecord bs).openNet n := by
  simp only [State.loadNet, hread, hbytes, hok, if_true]

theorem loadNet_fails (hok : recordOk n bs = false) : s.loadNet part l n = (s2.modNet n fun x => { x with lost := true }).reportPart part
    ((s2.modNet n fun x => { x with lost := true }).part part).firstCore 0 .netRestore (BitVec.ofNat 64 n) := by
  simp only [State.loadNet, hread, hbytes, hok, Bool.false_eq_true, if_false]
  rfl

end LoadNet

/-- Settles O49: the moves are tests on the partition and the clock; what a switch saves is what its sections hold, and what it leaves is
folded over the function's networks and the partition's blocks. -/
theorem slicesGoRound : Obligations.SlicesGoRound := by
  refine ⟨⟨fun s part hserved hholder hworks => sliceExpiry_first hserved hholder hworks,
      fun s part vf hserved hholder hswitch hrest => sliceExpiry_goesOn hserved hholder hswitch hrest,
      fun s part vf j hserved hholder hswitch hout hnext => sliceExpiry_next hserved hholder hswitch hout hnext,
      fun s part vf j hserved hholder hswitch => sliceExpiry_switching hserved hholder hswitch,
      fun s part vf j t hholder hnext hidle => ⟨sliceEarlyEnd_ends hholder hnext hidle, sliceEarlyEnd_goesOn hholder hnext hidle⟩,
      nextSlice_eq, fun s part j hready hswitch hawaits => hostSwitchAck_goesOn hready hswitch hawaits⟩,
    fun s part vf j hpart => ?_, fun s b ci c h => readyInstr_stopping ci c h, switchReady_iff, fun s part vf j h => switchOn_waits h,
    fun s part vf j t hready => ⟨switchOn_unsaved hready, fun hout => ⟨switchOn_starts hready hout, switchOn_asksHost hready hout⟩⟩,
    fun s part vf va w h => switchOut_pointWaits h,
    fun s part vf t xs hpoint hareas => ⟨fun u => switchOut_saved hpoint hareas, fun u va => switchOut_lost hpoint hareas,
      fun u va w => switchOut_waits hpoint hareas⟩,
    saveBlocks_spec, fun nets first l ls s x hx => ⟨areasOf_unsaved nets first ls hx, areasOf_saved nets first ls hx⟩, areaSections_mem,
    slotSections_mem, fun c vs ss j x h => ⟨crewRecord_lane c vs ss h, laneRecord_take x⟩,
    fun core xs s s1 => ⟨fun e => writeSections_stops, fun rs h => ⟨sectionRuns_bytes core xs h, writeSections_writes h⟩⟩,
    fun s part vf hvf => leaveCores_spec s part hvf, fun f => loadCounters_keepCounters, fun s part vf va hvf => loseFunction_spec s part va hvf,
    ?_, ?_, fun s part j => ⟨fun va w => startSlice_waits, startSlice_loads⟩,
    fun s part vf => ⟨loadNets_asksHost, loadNets_opens, fun l hmode hsome => loadNets_loads hmode hsome⟩,
    fun s part l n s1 ps hread s2 bs hbytes => ⟨loadNet_opens hread hbytes, loadNet_fails hread hbytes⟩,
    fun x y n hcnt hn => ⟨netRecord_ok x n hcnt hn, netRecord_bal x n hcnt y, netRecord_cnt x n hcnt y⟩⟩
  · obtain ⟨hswitch, hplacing, hmem, hblocks, hnets⟩ := beginSwitch_spec s vf j hpart
    exact ⟨hswitch, hplacing, hmem, hblocks, hnets⟩
  · intro x
    obtain ⟨hv, hq, hlink, hact, hkind⟩ := rewound_keeps x
    refine ⟨hv, hq, hlink, hact, hkind, fun h => by rw [rewound_done h]; exact ⟨rfl, rfl⟩, fun h => ?_, keepsPark_iff x⟩
    obtain ⟨hwl, hro, hrng⟩ := rewound_place h
    exact ⟨hwl, hro, hrng, rewound_parked h, rewound_unparked h⟩
  · intro b
    obtain ⟨hmcmds, hccmds⟩ := block_rewound_engines b
    refine ⟨rfl, rfl, rfl, rfl, hmcmds, hccmds, fun ci c hc hregroup => ⟨c.rewound, ?_, crew_rewound hregroup⟩⟩
    show (b.crews.map _)[ci]? = _
    rw [List.getElem?_map, hc]
    rfl

end Sys2Proof.Proofs
end

