-- ==== Sys2Proof/Proofs/Records.lean ====
section
/-! Partition resets and record writes (21_traps_preemption R353; 22_tenants R355, R357, R368; 24_host_fabric R394). -/

namespace Sys2Proof.Proofs

open Sys2Proof.Machine Sys2Proof.Laws

/-! ### Everything drains (R159, R170, R353) -/

/-- A block without its store buffer. -/
def unbuffered (b : Block) : Block := { b with storeBuf := [], refreshAt := [] }

/-- Some stores have gone home, and nothing else has changed. -/
structure GoneHome (s t : State) : Prop where
  same : { t with mem := s.mem, log := s.log, qkeys := s.qkeys, l2 := s.l2, hostReqs := s.hostReqs, hostNo := s.hostNo, blocks := s.blocks } = s
  blocks : t.blocks.map unbuffered = s.blocks.map unbuffered

theorem goneHome_refl (s : State) : GoneHome s s := ⟨rfl, rfl⟩

theorem goneHome_trans {s t u : State} (h : GoneHome s t) (h' : GoneHome t u) : GoneHome s u := by
  refine ⟨?_, h'.blocks.trans h.blocks⟩
  have hback := congrArg (fun t : State => ({ t with mem := s.mem, log := s.log, qkeys := s.qkeys, l2 := s.l2, hostReqs := s.hostReqs, hostNo := s.hostNo, blocks := s.blocks } : State)) h'.same
  exact hback.trans h.same

theorem goneHome_foldl {α : Type} {f : State → α → State} (hf : ∀ s x, GoneHome s (f s x)) : ∀ (l : List α) (s : State), GoneHome s (l.foldl f s)
  | [], s => goneHome_refl s
  | x :: l, s => goneHome_trans (hf s x) (goneHome_foldl hf l (f s x))

theorem goneHome_onlyL2 {s t : State} (h : OnlyL2 s t) : GoneHome s t :=
  ⟨(congrArg (fun t : State => ({ t with mem := s.mem, log := s.log, hostNo := s.hostNo, blocks := s.blocks } : State)) h.same :),
    (congrArg (fun t : State => t.blocks.map unbuffered) h.same :)⟩

theorem owesHost_goneHome (s : State) (u home n : Nat) (cause : HostCause) : GoneHome s (s.owesHost u home n cause) := by
  have hkeeps := owesHost_keeps s u home n cause
  exact ⟨(congrArg (fun t : State => ({ t with mem := s.mem, log := s.log, qkeys := s.qkeys, l2 := s.l2, blocks := s.blocks } : State)) hkeeps :),
    (congrArg (fun t : State => t.blocks.map unbuffered) hkeeps :)⟩

theorem drainAt_goneHome (s : State) (u n : Nat) : GoneHome s (s.drainAt u n) := by
  cases hb : s.block? u with
  | none =>
    have hsame : s.drainAt u n = s := by simp only [State.drainAt, hb]
    rw [hsame]
    exact goneHome_refl s
  | some b =>
    cases he : b.storeBuf[n]? with
    | none =>
      have hsame : s.drainAt u n = s := by simp only [State.drainAt, hb, he]
      rw [hsame]
      exact goneHome_refl s
    | some e =>
      rw [drainAt_eq hb he]
      let t := (s.l2Write b.vf e.p e.hint).writeHome e.p.key e.cells
      have hwrite : GoneHome (s.l2Write b.vf e.p e.hint) t := ⟨rfl, rfl⟩
      have hblock : GoneHome t (t.modBlock u (drainedEntry e n t.now)) := by
        refine ⟨rfl, ?_⟩
        show (t.blocks.map _).map unbuffered = _
        rw [List.map_map]
        refine List.map_congr_left fun x _ => ?_
        simp only [Function.comp]
        split <;> rfl
      exact goneHome_trans (goneHome_onlyL2 (l2Write_only ..)) (goneHome_trans hwrite (goneHome_trans hblock (owesHost_goneHome ..)))

theorem drainFirst_goneHome (u : Nat) : ∀ (n : Nat) (s : State), GoneHome s (State.drainFirst u n s)
  | 0, s => goneHome_refl s
  | n + 1, s => goneHome_trans (drainAt_goneHome s u 0) (drainFirst_goneHome u n _)

theorem drainAll_goneHome (s : State) (u : Nat) : GoneHome s (s.drainAll u) := by
  unfold State.drainAll
  split
  · exact drainFirst_goneHome u _ s
  · exact goneHome_refl s

theorem drainBlocks_goneHome (s : State) (mine : Block → Bool) : GoneHome s (s.drainBlocks mine) :=
  goneHome_foldl (α := Block) (f := fun s b => s.drainAll b.uid) (fun s b => drainAll_goneHome s b.uid) (s.blocks.filter mine) s

theorem cleanL2_only (s : State) (mine : L2Line → Bool) : OnlyL2 s (s.cleanL2 mine) :=
  ⟨(onlyL2_foldl (f := State.writeBack) (fun _ _ => ⟨rfl⟩) (s.l2.filter mine) s).same⟩

/-! ### A partition reset (R353, R368) -/

/-- What the end of a partition's work leaves (R353). -/
structure WorkEnded (s t : State) (part : Nat) : Prop where
  uids : t.blocks.map (·.uid) = (s.blocks.filter (·.part != part)).map (·.uid)
  launches : t.launches = s.launches.filter (·.part != part)
  gathered : t.gathered = s.gathered.filter (·.2.part != part)
  parts : t.parts = s.parts

theorem endWork_spec (s : State) (part : Nat) : WorkEnded s (s.endWork part) part := by
  let t := (s.drainBlocks (·.part == part)).cleanL2 fun l => (s.funcsOf part).contains l.owner
  obtain ⟨hsame, hblocks⟩ := goneHome_trans (drainBlocks_goneHome s (·.part == part)) (goneHome_onlyL2 (cleanL2_only (s.drainBlocks (·.part == part))
    fun l => (s.funcsOf part).contains l.owner))
  have hbare : ∀ bs : List Block, (bs.filter (·.part != part)).map (·.uid) = ((bs.map unbuffered).filter (·.part != part)).map (·.uid) := fun bs => by
    rw [List.filter_map, List.map_map]
    rfl
  refine ⟨?_, ?_, ?_, (congrArg State.parts hsame :)⟩
  · show (t.blocks.filter (·.part != part)).map (·.uid) = _
    refine (hbare t.blocks).trans (.trans ?_ (hbare s.blocks).symm)
    exact congrArg (fun bs : List Block => (bs.filter (·.part != part)).map (·.uid)) hblocks
  · exact (congrArg (fun t : State => t.launches.filter (·.part != part)) hsame :)
  · exact (congrArg (fun t : State => t.gathered.filter (·.2.part != part)) hsame :)

/-- What changes neither blocks, launches, gathered lanes nor partitions. -/
structure KeepsWork (s t : State) : Prop where
  blocks : t.blocks = s.blocks
  launches : t.launches = s.launches
  gathered : t.gathered = s.gathered
  parts : t.parts = s.parts

theorem keepsWork_refl (s : State) : KeepsWork s s := ⟨rfl, rfl, rfl, rfl⟩

theorem keepsWork_foldl {α : Type} {f : State → α → State} (hf : ∀ s x, KeepsWork s (f s x)) : ∀ (l : List α) (s : State), KeepsWork s (l.foldl f s)
  | [], s => keepsWork_refl s
  | x :: l, s => by
    obtain ⟨hb, hl, hg, hp⟩ := keepsWork_foldl hf l (f s x)
    obtain ⟨hb', hl', hg', hp'⟩ := hf s x
    exact ⟨hb.trans hb', hl.trans hl', hg.trans hg', hp.trans hp'⟩

theorem zeroNets_keepsWork (s : State) (part : Nat) : KeepsWork s (s.zeroNets part) :=
  keepsWork_foldl (f := fun s n => s.modNet n fun _ => Net.reset) (fun _ _ => ⟨rfl, rfl, rfl, rfl⟩) ((s.funcsOf part).flatMap fun v => (s.func v).nets) s

/-- The counters that a holder's reset keeps in its record (R368). -/
def holderKept (s : State) (part : Nat) : State :=
  match (s.part part).holder with
  | some v => if (s.part part).awaitsHost then s else s.modFunc v fun f => f.keepCounters
  | none => s

theorem holderKept_keepsWork (s : State) (part : Nat) : KeepsWork s (holderKept s part) := by
  unfold holderKept
  split
  · split
    · exact keepsWork_refl s
    · exact ⟨rfl, rfl, rfl, rfl⟩
  · exact keepsWork_refl s

/-- The functions of a reset partition: nothing of them is under way. -/
def idleFunc (s : State) (v : Nat) : State := s.modFunc v fun f => { f with netsIn := none, watched := [], taken := [] }

def idleFuncs (s : State) (part : Nat) : State := (s.funcsOf part).foldl idleFunc s

theorem idleFuncs_keepsWork (s : State) (part : Nat) : KeepsWork s (idleFuncs s part) :=
  keepsWork_foldl (f := idleFunc) (fun _ _ => ⟨rfl, rfl, rfl, rfl⟩) (s.funcsOf part) s

theorem partitionReset_eq {s : State} {part : Nat} (hready : s.ready = true) (hpart : part < 16) : execPartitionReset part s =
    .next ((idleFuncs (((holderKept s part).endWork part).zeroNets part) part).modPart part fun p =>
      { p with draining := true, awaitsHost := false, switching := none, holder := none, idleSince := none, refusedWrite := false }) := by
  have hopen : ¬ ((!s.ready || decide (16 ≤ part)) = true) := by rw [hready, decide_eq_false (by omega)]; exact Bool.false_ne_true
  exact if_neg hopen

theorem partitionReset_spec {s : State} {part : Nat} (hready : s.ready = true) (hpart : part < 16) (hlen : s.parts.length = 16) :
    ∃ t, execPartitionReset part s = .next t ∧ t.blocks.map (·.uid) = (s.blocks.filter (·.part != part)).map (·.uid)
      ∧ t.launches = s.launches.filter (·.part != part) ∧ t.gathered = s.gathered.filter (·.2.part != part) ∧ (t.part part).draining = true
      ∧ (t.part part).holder = none ∧ ∀ q, q ≠ part → t.part q = s.part q := by
  obtain ⟨hb1, hl1, hg1, hp1⟩ := holderKept_keepsWork s part
  obtain ⟨huids, hl2, hg2, hp2⟩ := endWork_spec (holderKept s part) part
  obtain ⟨hb3, hl3, hg3, hp3⟩ := zeroNets_keepsWork ((holderKept s part).endWork part) part
  obtain ⟨hb4, hl4, hg4, hp4⟩ := idleFuncs_keepsWork (((holderKept s part).endWork part).zeroNets part) part
  let t := idleFuncs (((holderKept s part).endWork part).zeroNets part) part
  have hparts : t.parts = s.parts := hp4.trans (hp3.trans (hp2.trans hp1))
  have hmod := fun q => part_modPart t part q (fun p =>
    { p with draining := true, awaitsHost := false, switching := none, holder := none, idleSince := none, refusedWrite := false }) (by rw [hparts, hlen]; exact hpart)
  have hself := hmod part
  rw [if_pos rfl] at hself
  refine ⟨_, partitionReset_eq hready hpart, ?_, ?_, ?_, ?_, ?_, fun q hq => ?_⟩
  · show t.blocks.map (·.uid) = _
    rw [show t.blocks = _ from hb4.trans hb3, huids, hb1]
  · show t.launches = _
    rw [show t.launches = _ from hl4.trans (hl3.trans hl2), hl1]
  · show t.gathered = _
    rw [show t.gathered = _ from hg4.trans (hg3.trans hg2), hg1]
  · rw [hself]
  · rw [hself]
  · rw [hmod q, if_neg hq]
    exact congrArg (fun ps : List Machine.Part => ps[q]?.getD Part.reset) hparts

/-! ### The parts of a record write (R394) -/

/-- A write within one eight of bytes is one part. -/
theorem eightsOf_one {off : Nat} {data : List Byte} (hdata : data ≠ []) (hone : off / 8 = (off + data.length - 1) / 8) :
    eightsOf off data = [(off, data)] := by
  have hpos : 0 < data.length := List.length_pos_iff.mpr hdata
  have hcount : (off + data.length + 7) / 8 - off / 8 = 1 := by omega
  have hlo : max off (8 * (off / 8 + 0)) = off := by omega
  simp only [eightsOf, hcount, List.range_one, List.map_cons, List.map_nil, hlo, Nat.sub_self, List.drop_zero]
  rw [List.take_of_length_le (by omega)]

theorem writeParts_whole {s : State} {size off : Nat} {data : List Byte} (f : State → Nat → List Byte → State)
    (hwhole : off = 0 ∧ data.length = size ∧ size ≤ 244) : s.writeParts size off data f = f s off data := if_pos hwhole

theorem writeParts_eights {s : State} {size off : Nat} {data : List Byte} (f : State → Nat → List Byte → State)
    (hmany : 244 < size ∨ off ≠ 0 ∨ data.length ≠ size) : s.writeParts size off data f = (eightsOf off data).foldl (fun s p => f s p.1 p.2) s :=
  if_neg (by omega)

theorem writeParts_one {s : State} {size off : Nat} {data : List Byte} (f : State → Nat → List Byte → State) (hdata : data ≠ [])
    (hone : off / 8 = (off + data.length - 1) / 8) : s.writeParts size off data f = f s off data := by
  unfold State.writeParts
  split
  · rfl
  · rw [eightsOf_one hdata hone]
    rfl

/-! ### Writes that change a record, and writes that are refused (R355, R357) -/

theorem modPart_accepted (s : State) (part : Nat) (f : Machine.Part → Machine.Part) :
    (s.modPart part f).accepted part = s.modPart part fun p => { f p with refusedWrite := false } := by
  simp only [State.accepted, State.modPart, List.modify_modify_eq]
  rfl

theorem writePart_eq (s : State) (part off : Nat) (data : List Byte) :
    let old := s.part part
    let new : Machine.Part := { old with record := keepFields (setBytes old.record off data) partFields }
    let moves := new.cbase != old.cbase || new.clim != old.clim || (s.overlaps part new && !s.overlaps part old)
    s.writePart part off data = s.modPart part fun p =>
      if moves && s.partBusy part then { p with refusedWrite := true } else { p with record := new.record, refusedWrite := false } := by
  intro old new moves
  show (if moves && s.partBusy part then s.modPart part fun p => { p with refusedWrite := true }
    else (s.modPart part fun p => { p with record := new.record }).accepted part) = _
  cases moves && s.partBusy part with
  | true => rfl
  | false => exact modPart_accepted s part _

/-- A function's record as a write leaves it (R357, 00_scope R5). -/
abbrev writtenRecord (s : State) (vf off : Nat) (data : List Byte) : BitVec 2560 := keepFields (setBytes (s.func vf).record off data) funcFields

/-- What of a function's record stands while it has blocks: S2, PART and NETS (R357). -/
def fixedFields (r : BitVec 2560) : Nat × Nat × Nat := (byteField r 24 64, byteField r 20 8, byteField r 160 256)

theorem fixedFields_ne_iff (r r' : BitVec 2560) : (fixedFields r != fixedFields r') = true
    ↔ byteField r 24 64 ≠ byteField r' 24 64 ∨ byteField r 20 8 ≠ byteField r' 20 8 ∨ byteField r 160 256 ≠ byteField r' 160 256 := by
  simp only [fixedFields, bne_iff_ne, ne_eq, Prod.mk.injEq, not_and_or]

/-- Whether R357 forbids a write to a function's record. -/
def forbidden (s : State) (vf off : Nat) (data : List Byte) : Bool :=
  s.netsTaken vf { s.func vf with record := writtenRecord s vf off data } (s.func vf)
    || (s.busy vf && fixedFields (writtenRecord s vf off data) != fixedFields (s.func vf).record)

theorem writeFunc_forbidden {s : State} {part vf off : Nat} {data : List Byte} (h : forbidden s vf off data = true) :
    s.writeFunc part vf off data = s.modPart part fun p => { p with refusedWrite := true } := if_pos h

/-- A function as an accepted write to its record leaves it (R357, R360). -/
def writtenFunc (s : State) (vf off : Nat) (data : List Byte) (f : Func) : Func :=
  { f with
    record := writtenRecord s vf off data, out := [], watched := [], lost := false
    wrote := if s.holds vf then f.wrote ++ counterBytes off data.length else f.wrote }

theorem writeFunc_allowed {s : State} {part vf off : Nat} {data : List Byte} (h : forbidden s vf off data = false) :
    s.writeFunc part vf off data = (s.modFunc vf (writtenFunc s vf off data)).accepted part := if_neg (ne_true_of_eq_false h)

theorem writeFunc_accepts {s : State} {part vf off : Nat} {data : List Byte} (hallowed : forbidden s vf off data = false) (hpart : part < s.parts.length)
    (hvf : vf < s.funcs.length) :
    let t := s.writeFunc part vf off data
    (t.func vf).record = writtenRecord s vf off data ∧ (t.func vf).out = []
      ∧ (t.func vf).wrote = (if s.holds vf = true then (s.func vf).wrote ++ counterBytes off data.length else (s.func vf).wrote)
      ∧ (t.part part).refusedWrite = false ∧ (∀ v, v ≠ vf → t.func v = s.func v) ∧ SameMemory s t := by
  have hfunc : ∀ v, ((s.modFunc vf (writtenFunc s vf off data)).accepted part).func v = if v = vf then writtenFunc s vf off data (s.func vf) else s.func v :=
    fun v => func_modFunc s vf v _ hvf
  have hpartOf := part_modPart (s.modFunc vf (writtenFunc s vf off data)) part part (fun p => { p with refusedWrite := false }) hpart
  have hself := (hfunc vf).trans (if_pos rfl)
  intro t
  have ht : t = (s.modFunc vf (writtenFunc s vf off data)).accepted part := writeFunc_allowed hallowed
  rw [ht, hself]
  refine ⟨rfl, rfl, rfl, ?_, fun v hv => (hfunc v).trans (if_neg hv), fun _ _ _ => rfl⟩
  exact congrArg Machine.Part.refusedWrite (hpartOf.trans (if_pos rfl))

theorem busy_iff (s : State) (vf : Nat) : s.busy vf = true ↔ (∃ b ∈ s.blocks, b.vf = vf ∧ b.hnd = []) ∨ ∃ l ∈ s.launches, l.vf = vf ∧ l.saved ≠ [] := by
  simp only [State.busy, Bool.or_eq_true, List.any_eq_true, Bool.and_eq_true, beq_iff_eq, List.isEmpty_iff, bne_iff_ne]

theorem partitionRecordWrite_writes {s : State} {part off : Nat} {data : List Byte} (hready : s.ready = true) (hpart : part < 16)
    (hfits : off + data.length ≤ 128) : execPartitionRecordWrite part off data s = .next (s.writeParts 128 off data (State.writePart part)) := by
  have hopen : (!s.ready || decide (16 ≤ part) || decide (128 < off + data.length)) = false := by
    rw [hready, decide_eq_false (by omega), decide_eq_false (by omega)]
    rfl
  exact congrArg Host.Outcome.next (if_neg (ne_true_of_eq_false hopen))

theorem functionRecordWrite_writes {s : State} {part vf off : Nat} {data : List Byte} (hready : s.ready = true) (hpart : part < 16) (hvf : vf < 64)
    (hfits : off + data.length ≤ 320) (hown : (s.func vf).valid = true → (s.func vf).partNo = part) :
    execFunctionRecordWrite part vf off data s = .next (s.writeParts 320 off data (State.writeFunc part vf)) := by
  have hmine : ((s.func vf).valid && (s.func vf).partNo != part) = false := by
    cases hv : (s.func vf).valid with
    | false => rfl
    | true => rw [hown hv, bne_self_eq_false]; rfl
  have hopen : (!s.ready || decide (16 ≤ part) || decide (64 ≤ vf) || decide (320 < off + data.length)
      || ((s.func vf).valid && (s.func vf).partNo != part)) = false := by
    rw [hmine, hready, decide_eq_false (by omega), decide_eq_false (by omega), decide_eq_false (by omega)]
    rfl
  exact congrArg Host.Outcome.next (if_neg (ne_true_of_eq_false hopen))

/-- C of a partition's denial log as the drainer writes it (R329). -/
def consumed (c : DWord) (p : Machine.Part) : Machine.Part :=
  { p with c := c, drainAsked := p.drainAsked && decide (2 ^ (p.dlogK - 1) ≤ (p.p - c).toNat) }

theorem denialConsumerWrite_spec {s : State} {part : Nat} {c : DWord} (hready : s.ready = true) (hpart : part < s.parts.length) :
    ∃ t, execDenialConsumerWrite part c s = .next t ∧ SameMemory s t ∧ (t.part part).c = c ∧ (t.part part).record = (s.part part).record
      ∧ (t.part part).p = (s.part part).p := by
  have hwritten : (s.modPart part (consumed c)).accepted part = s.modPart part fun p => { consumed c p with refusedWrite := false } := modPart_accepted s part _
  have hself := (part_modPart s part part (fun p => { consumed c p with refusedWrite := false }) hpart).trans (if_pos rfl)
  refine ⟨(s.modPart part (consumed c)).accepted part, congrArg Host.Outcome.next (if_pos hready), fun _ _ _ => rfl, ?_⟩
  rw [hwritten, hself]
  exact ⟨rfl, rfl, rfl⟩

/-- Settles O50: the blocks, launches and gathered lanes are followed through a reset; a record write is one change of the partition or the function. -/
theorem recordsAndResets : Obligations.RecordsAndResets := by
  unfold Obligations.RecordsAndResets
  refine ⟨fun s part hready hpart hlen => partitionReset_spec hready hpart hlen, fun _ _ => rfl,
    fun s part off data hready hpart hfits => partitionRecordWrite_writes hready hpart hfits,
    fun s part vf off data hready hpart hvf hfits hown => functionRecordWrite_writes hready hpart hvf hfits hown,
    fun s size off data f => ⟨writeParts_whole f, writeParts_eights f, writeParts_one f⟩, writePart_eq, fun s part vf off data htaken => ?_,
    fun s part vf off data hbusy => ?_, busy_iff, fun s part vf off data hpart hvf hfuncs hparts hstands hfree => ?_,
    fun s part c hready hpart => denialConsumerWrite_spec hready hpart⟩
  · refine writeFunc_forbidden ?_
    simp only [forbidden, htaken, Bool.true_or]
  · intro old new hchanged
    refine writeFunc_forbidden ?_
    have hfixed := (fixedFields_ne_iff new old).mpr hchanged
    simp only [forbidden, hbusy, Bool.true_and]
    exact Bool.or_eq_true_iff.mpr (.inr hfixed)
  · refine writeFunc_accepts ?_ (by omega) (by omega)
    have hkept : (s.busy vf && fixedFields (writtenRecord s vf off data) != fixedFields (s.func vf).record) = false := by
      obtain hidle | ⟨hs2, hpartNo, hnets⟩ := hstands
      · rw [hidle, Bool.false_and]
      · have hsame : fixedFields (writtenRecord s vf off data) = fixedFields (s.func vf).record := by
          simp only [fixedFields, hs2, hpartNo, hnets]
        rw [hsame, bne_self_eq_false, Bool.and_false]
    exact Bool.or_eq_false_iff.mpr ⟨hfree, hkept⟩

end Sys2Proof.Proofs
end

