-- ==== Sys2Proof/Proofs/Fuller.lean ====
section
/-! The fuller: a range moves granule by granule behind its watermark (20_ranges R327). -/

namespace Sys2Proof.Proofs

open Sys2Proof.Machine Sys2Proof.Laws

theorem newest_of_noLags {s : State} (h : s.lags = []) : s.newest = s := by
  cases s
  simp only [State.newest, State.mk.injEq, true_and, and_true]
  exact h.symm

/-! ### The start of a move -/

theorem fullerStart_starts {s s1 : State} {die : Nat} {c : Compact} {i : Nat} {d : BitVec 256} (hlags : s.lags = [])
    (hidle : (s.compacts.any fun c => c.die == die && c.started) = false) (hfirst : s.compacts.find? (fun c => c.die == die) = some c)
    (hrange : s.compactRange c = some (i, d)) (hbacking : s.backingOk c.vf d (c.nia * 4096) = true)
    (hset : s.setRange c.asid i d (d1Moving d c.nia 0) = some s1) : execFullerStart die s = .next
      { s1 with compacts := s1.compacts.map fun x => if x == c then { x with started := true } else x } := by
  simp only [execFullerStart, newest_of_noLags hlags, hidle, hfirst, hrange, hbacking, hset, Bool.not_true, Bool.false_eq_true, if_false]

/-! ### One granule -/

section
variable {s : State} {die : Nat} {c : Compact} {i : Nat} {d : BitVec 256}

/-- The first address of the granule at a range's watermark. -/
abbrev granuleAt (d : BitVec 256) : Nat := (d1Base d + d1Wm d) * 4096

/-- A state with the stores to the granule at a range's watermark drained. -/
abbrev granuleDrained (s : State) (c : Compact) (d : BitVec 256) : State := s.drainGranule c.part c.asid (granuleAt d) 4096

/-- Whether an access to the granule at a range's watermark is in flight. -/
abbrev granuleUsed (s : State) (c : Compact) (d : BitVec 256) : Bool :=
  s.inFlight c.part c.asid (fun p => overlap (granuleAt d) 4096 p.va p.size) false (granuleAt d) 4096

variable (hlags : s.lags = []) (hrequest : s.compacts.find? (fun c => c.die == die && c.started) = some c)
  (hrange : s.compactRange c = some (i, d)) (hmode : d1Mode d = 2)

include hlags hrequest hrange hmode

theorem fullerGranuleMove_waits (hused : granuleUsed (granuleDrained s c d) c d = true) :
    execFullerGranuleMove die s = .next (granuleDrained s c d) := by
  simp only [execFullerGranuleMove, newest_of_noLags hlags, hrequest, hrange, hmode, bne_self_eq_false, Bool.false_eq_true, if_false, hused, if_true]

theorem fullerGranuleMove_passes {t u : State} (hfree : granuleUsed (granuleDrained s c d) c d = false)
    (hcopy : (granuleDrained s c d).copyGranule c d (d1Wm d) = some t) (hmore : d1Wm d + 1 < d1Size d)
    (hset : t.setRange c.asid i d (d1Moving d (d1Nia d) (d1Wm d + 1)) = some u) : execFullerGranuleMove die s = .next u.payAllDenials := by
  simp only [execFullerGranuleMove, newest_of_noLags hlags, hrequest, hrange, hmode, bne_self_eq_false, Bool.false_eq_true, if_false, hfree, hcopy,
    if_pos hmore, hset]

theorem fullerGranuleMove_ends {t u : State} (hfree : granuleUsed (granuleDrained s c d) c d = false)
    (hcopy : (granuleDrained s c d).copyGranule c d (d1Wm d) = some t) (hlast : d1Size d ≤ d1Wm d + 1)
    (hset : t.setRange c.asid i d (d1Moved d (d1Nia d)) = some u) : execFullerGranuleMove die s = .next (u.dropCompact c).payAllDenials := by
  simp only [execFullerGranuleMove, newest_of_noLags hlags, hrequest, hrange, hmode, bne_self_eq_false, Bool.false_eq_true, if_false, hfree, hcopy,
    if_neg (Nat.not_lt.mpr hlast), hset]

end

/-! ### What is in flight -/

theorem queueUses_iff (b : Block) (use : Piece → Bool) : (b.crews.any fun c => c.queue.any fun o => o.what.pieces.any use) = true
    ↔ ∃ c ∈ b.crews, ∃ o ∈ c.queue, ∃ p ∈ o.what.pieces, use p = true := by
  simp only [List.any_eq_true]

theorem inFlight_iff (s : State) (part asid : Nat) (use : Piece → Bool) (all : Bool) (lo n : Nat) : s.inFlight part asid use all lo n = true
    ↔ (∃ b ∈ s.blocks, b.part = part ∧ b.asid = asid ∧ ((∃ c ∈ b.crews, ∃ o ∈ c.queue, ∃ p ∈ o.what.pieces, use p = true)
        ∨ ∃ e ∈ b.storeBuf, runsMeet all lo n e.p.va e.p.size = true))
      ∨ ∃ q ∈ s.posted, ∃ b, (s.block? q.blk).or (s.savedBlock q.blk) = some b ∧ b.part = part ∧ b.asid = asid
          ∧ ∃ p ∈ q.op.what.pieces, use p = true := by
  simp only [State.inFlight, Bool.or_eq_true, List.any_eq_true (l := s.blocks), List.any_eq_true (l := s.posted), Bool.and_eq_true, beq_iff_eq,
    queueUses_iff, List.any_eq_true (p := fun e : Entry => runsMeet all lo n e.p.va e.p.size), and_assoc]
  refine or_congr Iff.rfl (exists_congr fun q => and_congr_right fun _ => ?_)
  cases (s.block? q.blk).or (s.savedBlock q.blk) with
  | none => exact ⟨fun h => absurd h Bool.false_ne_true, fun ⟨_, h, _⟩ => nomatch h⟩
  | some b =>
    simp only [Option.some.injEq, exists_eq_left', Bool.and_eq_true, beq_iff_eq, List.any_eq_true, and_assoc]

/-- Settles O51: with no walk behind, each clause is one path through the fuller's move; what is in flight is read off its lists. -/
theorem theFullerMoves : Obligations.TheFullerMoves := by
  unfold Obligations.TheFullerMoves
  refine ⟨fun _ _ => ⟨rfl, rfl⟩, fun s die c i d s1 hlags hidle hfirst hrange hbacking hset => fullerStart_starts hlags hidle hfirst hrange hbacking hset,
    fun s die c i d hlags hrequest hrange hmode => ?_, inFlight_iff⟩
  exact ⟨fun hused => fullerGranuleMove_waits hlags hrequest hrange hmode hused, fun hfree t hcopy =>
    ⟨fun hmore u hset => fullerGranuleMove_passes hlags hrequest hrange hmode hfree hcopy hmore hset,
      fun hlast u hset => fullerGranuleMove_ends hlags hrequest hrange hmode hfree hcopy hlast hset⟩⟩

end Sys2Proof.Proofs
end

