-- ==== Sys2Proof/Proofs/HostAccess.lean ====
section
/-! The host's reads and writes of the device: aperture registers, apertures, recalls and acknowledgements (24_host_fabric R392 to R395). -/

namespace Sys2Proof.Proofs

open Sys2Proof.Machine Sys2Proof.Laws

/-! ### Aperture registers (R392) -/

theorem registerWrite_sets {s : State} {a : Nat} (v : DWord) (hlink : s.linkUp = true) (ha : a < 16) : execRegisterWrite (0x100100 + 8 * a) v s = .next
    { s with
      apEn := s.apEn.set a ((bits v 63 1).setWidth 64), apKey := s.apKey.set a ((bits v 16 11).setWidth 64)
      apPab := s.apPab.set a ((bits v 0 16).setWidth 64) } := by
  have hindex : (0x100100 + 8 * a - 0x100100) / 8 = a := by omega
  have hfirst : 0x100100 ≤ 0x100100 + 8 * a := by omega
  have halign : (0x100100 + 8 * a) % 8 = 0 := by omega
  simp only [execRegisterWrite, hindex, hlink, halign, ha, hfirst, decide_true, beq_self_eq_true, Bool.and_self, if_true]

theorem registerWrite_ignores {s : State} {off : Nat} (v : DWord) (hout : off < 0x100100 ∨ 0x100180 ≤ off) : execRegisterWrite off v s = .next s := by
  refine congrArg Host.Outcome.next (if_neg fun h => ?_)
  simp only [Bool.and_eq_true, decide_eq_true_eq] at h
  omega

/-! ### Apertures (R392, R393) -/

theorem foldl_single {σ α : Type} [DecidableEq α] {f : σ → α → σ} {a : α} (hf : ∀ s x, x ≠ a → f s x = s) : ∀ (l : List α), l.Nodup → ∀ s : σ,
    l.foldl f s = if a ∈ l then f s a else s
  | [], _, s => rfl
  | x :: l, hl, s => by
    obtain ⟨hx, hl⟩ := List.nodup_cons.mp hl
    rw [List.foldl_cons, foldl_single hf l hl]
    by_cases hax : x = a
    · subst hax
      rw [if_neg hx, if_pos List.mem_cons_self]
    · rw [hf s x hax]
      simp only [List.mem_cons, Ne.symm hax, false_or]

/-- The link offset `o` bytes into an aperture (R392). -/
abbrev inAperture (a o : Nat) : Nat := apertureBase + a * apertureSize + o

theorem inAperture_index (a : Nat) {o : Nat} (ho : o < apertureSize) : (inAperture a o - apertureBase) / apertureSize = a := by
  have hsize : apertureSize = 68719476736 := rfl
  rw [hsize] at ho
  simp only [inAperture, hsize]
  omega

theorem throughAperture_on {s : State} {a o : Nat} (ha : a < 16) (hon : s.apertureOn a = true) (ho : o < apertureSize) :
    s.throughAperture (inAperture a o) = some (s.aperturePa a + o, s.apertureKey a) := by
  have hindex := inAperture_index a ho
  have hbase : apertureBase ≤ inAperture a o := by simp only [inAperture]; omega
  have hrest : (inAperture a o - apertureBase) % apertureSize = o := by
    have hsize : apertureSize = 68719476736 := rfl
    rw [hsize] at ho
    simp only [inAperture, hsize]
    omega
  simp only [State.throughAperture, hindex, hrest, hbase, ha, hon, decide_true, Bool.and_self, if_true]

theorem throughAperture_off {s : State} {a o : Nat} (hoff : s.apertureOn a = false) (ho : o < apertureSize) :
    s.throughAperture (inAperture a o) = none := by
  simp only [State.throughAperture, inAperture_index a ho, hoff, Bool.and_false, Bool.false_eq_true, if_false]

section
variable (s : State) {a o : Nat} {data : List Byte} (hfits : o + data.length ≤ apertureSize)

include hfits

/-- A write within one aperture has no cell in another. -/
theorem apertureCells_other {x : Nat} (hx : x ≠ a) : s.apertureCells x (inAperture a o) data = [] := by
  refine List.filterMap_eq_nil_iff.mpr fun b hb => if_neg ?_
  have hi : b.2 < data.length := by simpa using (List.mem_zipIdx hb).2.1
  have hindex := inAperture_index a (o := o + b.2) (by omega)
  rw [show inAperture a o + b.2 = inAperture a (o + b.2) from Nat.add_assoc .., hindex]
  exact Ne.symm hx

theorem apertureCells_off (hoff : s.apertureOn a = false) : s.apertureCells a (inAperture a o) data = [] := by
  refine List.filterMap_eq_nil_iff.mpr fun b hb => ?_
  have hi : b.2 < data.length := by simpa using (List.mem_zipIdx hb).2.1
  have hnone := throughAperture_off hoff (o := o + b.2) (by omega)
  rw [show inAperture a o + b.2 = inAperture a (o + b.2) from Nat.add_assoc ..]
  dsimp only
  rw [hnone]
  exact ite_self _

/-- A write within an enabled aperture makes its bytes' cells at the aperture's base. -/
theorem apertureCells_on (ha : a < 16) (hon : s.apertureOn a = true) :
    s.apertureCells a (inAperture a o) data = cellsOf (s.aperturePa a + o) data := by
  rw [cellsOf, List.mapIdx_eq_zipIdx_map, ← List.filterMap_eq_map]
  refine List.filterMap_congr fun b hb => ?_
  have hi : b.2 < data.length := by simpa using (List.mem_zipIdx hb).2.1
  have hthrough := throughAperture_on ha hon (o := o + b.2) (by omega)
  rw [show inAperture a o + b.2 = inAperture a (o + b.2) from Nat.add_assoc .., if_pos (inAperture_index a (by omega)), hthrough]
  exact congrArg (fun n => some (n, b.1)) (Nat.add_assoc ..).symm

end

theorem apertureWrite_none {s : State} {a off : Nat} {data : List Byte} (h : s.apertureCells a off data = []) : s.apertureWrite a off data = s := by
  rw [State.apertureWrite, h]

/-- The piece of home memory that a write through an aperture goes to. -/
def aperturePiece (s : State) (a pa n : Nat) : Piece := ⟨0, pa, n, s.apertureKey a, 0, 0, 0, 0⟩

theorem apertureWrite_cells {s : State} {a off pa : Nat} {data : List Byte} (hdata : data ≠ []) (h : s.apertureCells a off data = cellsOf pa data) :
    s.apertureWrite a off data = s.writeThrough 64 (aperturePiece s a pa data.length) data := by
  have hbytes : (cellsOf pa data).map (·.2) = data := by
    rw [cellsOf, List.mapIdx_eq_zipIdx_map, List.map_map]
    exact List.zipIdx_map_fst ..
  have hlen : (cellsOf pa data).length = data.length := by simp only [cellsOf, List.length_mapIdx]
  have hfirst := cellsOf_get pa data 0
  rw [State.apertureWrite, h]
  cases hcells : cellsOf pa data with
  | nil => exact absurd (List.length_eq_zero_iff.mp (hlen ▸ congrArg List.length hcells)) hdata
  | cons c cs =>
    rw [hcells] at hbytes hlen hfirst
    obtain ⟨x, -, hx⟩ := Option.map_eq_some_iff.mp hfirst.symm
    dsimp only
    rw [hbytes, ← hlen, ← hx]
    rfl

theorem hostApertureWrite_on {s : State} {a o : Nat} {data : List Byte} (hready : s.ready = true) (ha : a < 16) (hon : s.apertureOn a = true)
    (hfits : o + data.length ≤ apertureSize) (hdata : data ≠ []) : execHostApertureWrite (inAperture a o) data s =
      .next (s.writeThrough 64 (aperturePiece s a (s.aperturePa a + o) data.length) data) := by
  have hfold := foldl_single (f := fun (s : State) x => s.apertureWrite x (inAperture a o) data) (a := a)
    (fun s x hx => apertureWrite_none (apertureCells_other s hfits hx)) (List.range 16) List.nodup_range s
  rw [if_pos (List.mem_range.mpr ha), apertureWrite_cells hdata (apertureCells_on s hfits ha hon)] at hfold
  exact congrArg Host.Outcome.next ((if_pos hready).trans hfold)

theorem hostApertureWrite_off {s : State} {a o : Nat} {data : List Byte} (hready : s.ready = true) (hoff : s.apertureOn a = false)
    (hfits : o + data.length ≤ apertureSize) : execHostApertureWrite (inAperture a o) data s = .next s := by
  refine congrArg Host.Outcome.next ((if_pos hready).trans (List.foldl_fixed' (fun x => ?_) _))
  by_cases hx : x = a
  · subst hx
    exact apertureWrite_none (apertureCells_off s hfits hoff)
  · exact apertureWrite_none (apertureCells_other s hfits hx)

/-! ### An engine's or the host's write at home -/

section
variable {s : State} (vf : Nat) (p : Piece) {bs : List Byte} (hw : memWf s.mem = true)

include hw

theorem writeThrough_reads {i : Nat} {x : Byte} (hx : bs[i]? = some x) :
    (s.writeThrough vf p bs).readAt p.key (s.writeThrough vf p bs).now (p.home + i) = x :=
  writeHome_reads (s := s.l2Write vf p .none) p.key p.home bs (by rwa [onlyL2_mem (l2Write_only ..)]) hx

theorem writeThrough_byteAt {y : Nat} (hy : y < p.home ∨ p.home + bs.length ≤ y) :
    (s.writeThrough vf p bs).byteAt (s.writeThrough vf p bs).now y = s.byteAt s.now y := by
  have honly := l2Write_only s vf p .none
  have hwrite := writeHome_byteAt (s := s.l2Write vf p .none) p.key (cellsOf p.home bs) (by rwa [onlyL2_mem honly]) y
  rw [find_cellsOf_none p.home bs y hy] at hwrite
  exact hwrite.trans (by rw [onlyL2_now honly]; exact onlyL2_byteAt honly s.now y)

end

/-! ### Reads (R393) -/

theorem linkByte_aperture {s : State} {a o : Nat} (hready : s.ready = true) (ha : a < 16) (hon : s.apertureOn a = true) (ho : o < apertureSize) :
    s.linkByte (inAperture a o) = s.readAt (s.apertureKey a) s.now (s.aperturePa a + o) := by
  have hbase : apertureBase = 1099511627776 := rfl
  have hfar : 1099511627776 ≤ inAperture a o := by simp only [inAperture, hbase]; omega
  rw [State.linkByte, if_neg (by omega), throughAperture_on ha hon ho, hready, if_neg (by decide), if_neg (by omega)]

/-! ### Recalls and acknowledgements (R395) -/

theorem mem_foldl_dropL2 : ∀ (ls : List L2Line) {s : State} {l : L2Line}, l ∈ (ls.foldl State.dropL2 s).l2 → l ∈ s.l2 ∧ l ∉ ls
  | [], _, _, h => ⟨h, List.not_mem_nil⟩
  | d :: ls, s, l, h => by
    obtain ⟨hmem, hnot⟩ := mem_foldl_dropL2 ls h
    obtain ⟨hold, hne⟩ := List.mem_filter.mp hmem
    exact ⟨hold, fun hd => (List.mem_cons.mp hd).elim (bne_iff_ne.mp hne) hnot⟩

/-- A state with every line of the L2 dropped that holds an address's line. -/
def lineDropped (s : State) (a : Nat) : State := (s.l2.filter fun l => l.line * 256 == a).foldl State.dropL2 s

theorem lineDropped_only (s : State) (a : Nat) : OnlyL2 s (lineDropped s a) := onlyL2_foldl dropL2_only _ s

theorem lineDropped_line {s : State} {a : Nat} {l : L2Line} (h : l ∈ (lineDropped s a).l2) : l.line * 256 ≠ a := by
  obtain ⟨hold, hnot⟩ := mem_foldl_dropL2 _ h
  exact fun hline => hnot (List.mem_filter.mpr ⟨hold, beq_iff_eq.mpr hline⟩)

theorem hostRecall_writes {s : State} (line off : Nat) {data : List Byte} (hready : s.ready = true) (hdata : data ≠ [])
    (hfits : off % 256 + data.length ≤ 256) : execHostRecall line off data s =
      .next ((lineDropped s (hostBase + line * 256)).writeHome 0 (cellsOf (hostBase + line * 256 + off % 256) data)) := by
  have hfull : data.isEmpty = false := List.isEmpty_eq_false_iff.mpr hdata
  simp only [execHostRecall, hready, if_true, hfull, Bool.false_eq_true, if_false, List.take_of_length_le (Nat.le_sub_of_add_le (Nat.add_comm .. ▸ hfits))]
  rfl

theorem hostRecall_spec {s : State} (line off : Nat) {data : List Byte} (hready : s.ready = true) (hdata : data ≠ [])
    (hfits : off % 256 + data.length ≤ 256) (hw : memWf s.mem = true) : ∃ t, execHostRecall line off data s = .next t
      ∧ (∀ l ∈ t.l2, l.line * 256 ≠ hostBase + line * 256)
      ∧ ∀ (i : Nat) x, data[i]? = some x → t.readAt 0 t.now (hostBase + line * 256 + off % 256 + i) = x := by
  have hmem := onlyL2_mem (lineDropped_only s (hostBase + line * 256))
  refine ⟨_, hostRecall_writes line off hready hdata hfits, fun l hl => ?_, fun i x hx => writeHome_reads 0 _ data (hmem ▸ hw) hx⟩
  obtain ⟨old, hold, hput⟩ := List.mem_map.mp hl
  have hline : l.line = old.line := by
    rw [← hput]
    split <;> rfl
  exact hline ▸ lineDropped_line hold

theorem dropL2_hostReqs (s : State) {l : L2Line} (h : l.print = none) : (s.dropL2 l).hostReqs =
    s.hostReqs.map fun r => if r.home / 256 = l.line then { r with sent := true } else r := by
  simp only [State.dropL2, State.writeBack, h, BEq.rfl, if_true, beq_iff_eq]

theorem hostTierResponse_ends {s : State} {k : Nat} {r : HostReq} (hr : s.hostReqs[k]? = some r) :
    (r.sent = true → execHostTierResponse k s = .next { s with hostReqs := s.hostReqs.eraseIdx k })
      ∧ (r.sent = false → execHostTierResponse k s = .next s) := by
  constructor <;> intro hsent <;> simp [execHostTierResponse, hr, hsent]

/-- Settles O52: a write through an aperture is one write at home through the L2; a recall is a fold of drops. -/
theorem hostReachesMemory : Obligations.HostReachesMemory := by
  unfold Obligations.HostReachesMemory
  refine ⟨fun s a v hlink ha => registerWrite_sets v hlink ha, fun s off v hout => registerWrite_ignores v hout,
    fun s a o data hready ha hon hfits hdata hw => ?_, fun s a o data hready ha hoff hfits => hostApertureWrite_off hready hoff hfits,
    fun _ _ _ => rfl, fun s a o hready ha hon ho => linkByte_aperture hready ha hon ho,
    fun s line off data hready hdata hfits hw => hostRecall_spec line off hready hdata hfits hw,
    fun s line off hready => congrArg Host.Outcome.next (if_pos hready), fun s l => ⟨rfl, dropL2_hostReqs s⟩,
    fun s k r hr => hostTierResponse_ends hr⟩
  let p := aperturePiece s a (s.aperturePa a + o) data.length
  refine ⟨s.writeThrough 64 p data, hostApertureWrite_on hready ha hon hfits hdata, (writeThrough_aside s 64 p data).canonical hw,
    fun i x hx => writeThrough_reads 64 p hw hx, fun y hy => writeThrough_byteAt 64 p hw ?_⟩
  show y < s.aperturePa a + o ∨ s.aperturePa a + o + data.length ≤ y
  have hlen := List.length_pos_iff.mpr hdata
  omega

end Sys2Proof.Proofs
end

