-- ==== Sys2Proof/Proofs/Flits.lean ====
section
/-! Flits of the link and the fabric, and the fabric's routes (24_host_fabric R391, R397; 25_bringup R399, R407). -/

namespace Sys2Proof.Proofs

open Sys2Proof.Machine Sys2Proof.Laws

/-! ### Flits (R391, R397) -/

section
variable (p : Port) (bs : List Byte)

/-- The SEQ of a flit's header. -/
abbrev headerSeq (bs : List Byte) : BitVec 12 := flitSeq (BitVec.ofNat 64 (leNat (bs.take 8)))

/-- The CRC that a flit carries. -/
abbrev carriedCrc (bs : List Byte) : BitVec 32 := BitVec.ofNat 32 (leNat (bs.drop (bs.length - 4)))

theorem receive_wrong (h : crc32 (bs.take (bs.length - 4)) ≠ carriedCrc bs ∨ headerSeq bs ≠ p.next) : p.receive bs = { p with retry := true } := by
  have hwrong : (crc32 (bs.take (bs.length - 4)) != carriedCrc bs || headerSeq bs != p.next) = true := by
    simpa only [Bool.or_eq_true, bne_iff_ne] using h
  exact if_pos hwrong

theorem receive_right (hcrc : crc32 (bs.take (bs.length - 4)) = carriedCrc bs) (hseq : headerSeq bs = p.next) :
    (p.receive bs).next = p.next + 1 ∧ (p.receive bs).ack = p.next ∧ (p.receive bs).retry = false := by
  have hright : (crc32 (bs.take (bs.length - 4)) != carriedCrc bs || headerSeq bs != p.next) = false := by
    rw [hcrc, hseq, bne_self_eq_false, bne_self_eq_false]
    rfl
  rw [show p.receive bs = _ from if_neg (ne_true_of_eq_false hright)]
  exact ⟨rfl, hseq, rfl⟩

end

theorem fabricFlitReceive_counts {s : State} {port : Nat} (flit : BitVec 512) {p : Port} (hlink : s.linkUp = true) (hp : s.fabric[port]? = some p) :
    ∃ n, execFabricFlitReceive port flit s = .next { s with
        fabric := s.fabric.modify port fun p => p.receive (leBytes 64 flit.toNat)
        fabricCounts := s.fabricCounts.modify port fun c => (c.1 + n, c.2 + (1 - n)) }
      ∧ n = (if (p.receive (leBytes 64 flit.toNat)).retry then 0 else 1) := by
  refine ⟨_, ?_, rfl⟩
  simp only [execFabricFlitReceive, hlink, if_true, hp, Option.any_some, Port.takes]
  cases (p.receive (leBytes 64 flit.toNat)).retry <;> rfl

/-! ### Routes (R397, R407) -/

theorem lookup_filter_same (k : Nat) : ∀ l : List (Nat × Nat), (l.filter (·.1 != k)).lookup k = none
  | [] => rfl
  | (a, b) :: l => by
    by_cases h : a = k
    · rw [List.filter_cons_of_neg (by simp [h])]
      exact lookup_filter_same k l
    · rw [List.filter_cons_of_pos (by simpa using h), List.lookup_cons, beq_false_of_ne (Ne.symm h)]
      exact lookup_filter_same k l

theorem lookup_filter_other {k x : Nat} (hx : x ≠ k) : ∀ l : List (Nat × Nat), (l.filter (·.1 != k)).lookup x = l.lookup x
  | [] => rfl
  | (a, b) :: l => by
    by_cases h : a = k
    · rw [List.filter_cons_of_neg (by simp [h]), List.lookup_cons, beq_false_of_ne (h ▸ hx)]
      exact lookup_filter_other hx l
    · rw [List.filter_cons_of_pos (by simpa using h), List.lookup_cons, List.lookup_cons, lookup_filter_other hx l]

/-- The route table with one entry set or taken away. -/
def routesWith (routes : List (Nat × Nat)) (d : Nat) (port : Option Nat) : List (Nat × Nat) :=
  (port.map fun p => (d, p)).toList ++ routes.filter (·.1 != d)

theorem routesWith_lookup (routes : List (Nat × Nat)) (d : Nat) (port : Option Nat) (x : Nat) :
    (routesWith routes d port).lookup x = if x = d then port else routes.lookup x := by
  by_cases hx : x = d
  · subst hx
    rw [if_pos rfl]
    cases port with
    | none => exact lookup_filter_same x routes
    | some p => exact List.lookup_cons_self
  · rw [if_neg hx]
    cases port with
    | none => exact lookup_filter_other hx routes
    | some p =>
      show ((d, p) :: routes.filter (·.1 != d)).lookup x = _
      rw [List.lookup_cons, beq_false_of_ne hx]
      exact lookup_filter_other hx routes

theorem fabricRouteWrite_route {s : State} (d : BitVec 16) (port : Option (Fin 12)) (hpower : s.power = true) :
    execFabricRouteWrite (.route d port) s = .next { s with routes := routesWith s.routes d.toNat (port.map (·.val)) } := by
  rw [execFabricRouteWrite, hpower]
  cases port <;> rfl

/-- Settles O53: a flit is right or wrong by its CRC and its SEQ; a route is an entry of an association list. -/
theorem flitsAndRoutes : Obligations.FlitsAndRoutes := by
  unfold Obligations.FlitsAndRoutes
  refine ⟨fun s flit hlink => congrArg Host.Outcome.next (if_pos hlink), fun s port flit p hlink hp => fabricFlitReceive_counts flit hlink hp,
    fun s flit port f hlink => ⟨congrArg Host.Outcome.next (if_neg (ne_true_of_eq_false hlink)), congrArg Host.Outcome.next (if_neg (ne_true_of_eq_false hlink))⟩,
    fun p bs hseq => receive_wrong p bs (.inr hseq), fun p bs hcrc => receive_wrong p bs (.inl hcrc),
    fun p bs hcrc hseq => receive_right p bs hcrc hseq, fun s d hpower hd => ?_, fun s => ?_, fun s d port hpower => ?_⟩
  · show execFabricRouteWrite (.devId d) s = _
    simp only [execFabricRouteWrite, hpower, Bool.not_true, Bool.false_eq_true, if_false, beq_false_of_ne hd]
  · exact congrArg Host.Outcome.next (ite_self s)
  · exact ⟨_, fabricRouteWrite_route d port hpower, (routesWith_lookup ..).trans (if_pos rfl), fun x hx => (routesWith_lookup ..).trans (if_neg hx)⟩

end Sys2Proof.Proofs
end

