-- ==== Sys2Proof/Proofs/PowerUp.lean ====
section
/-! Power-up, and the rest of power and management (25_bringup R399 to R407). -/

namespace Sys2Proof.Proofs

open Sys2Proof.Machine Sys2Proof.Laws

/-! ### Power-up (R399) -/

theorem powerGood_starts {s : State} (hoff : s.power = false) : execPowerGood s = .next
    { s with power := true, stage := 1, err := 0, sensors := readings s.draws, draws := s.draws + 3 } :=
  congrArg Host.Outcome.next (if_neg (ne_true_of_eq_false hoff))

section
variable {s : State} (hpower : s.power = true) (hready : s.ready = false) (htrip : s.tripped = false) (herr : s.err = 0)

include hpower hready htrip herr

/-- A stage in progress completes as its result says. -/
theorem bootStage_open : (!s.power || s.ready || s.tripped || s.err != 0) = false := by
  rw [hpower, hready, htrip, herr]
  rfl

theorem bootStage_clears (hstage : s.stage = 5) : execBootStageComplete .ok s = .next { s.clearMemory with stage := 6 } :=
  congrArg Host.Outcome.next ((if_neg (ne_true_of_eq_false (bootStage_open hpower hready htrip herr))).trans (if_pos hstage))

theorem bootStage_readies (hstage : s.stage = 6) : execBootStageComplete .ok s = .next s.setReady := by
  have h5 : s.stage ≠ 5 := by omega
  exact congrArg Host.Outcome.next ((if_neg (ne_true_of_eq_false (bootStage_open hpower hready htrip herr))).trans ((if_neg h5).trans (if_pos hstage)))

theorem bootStage_goesOn (h5 : s.stage ≠ 5) (h6 : s.stage ≠ 6) : execBootStageComplete .ok s = .next { s with stage := s.stage + 1 } :=
  congrArg Host.Outcome.next ((if_neg (ne_true_of_eq_false (bootStage_open hpower hready htrip herr))).trans ((if_neg h5).trans (if_neg h6)))

theorem bootStage_fails (e : Byte) : execBootStageComplete (.failed e) s = .next (if failsWith s.stage e = true then { s with err := e } else s) :=
  congrArg Host.Outcome.next (if_neg (ne_true_of_eq_false (bootStage_open hpower hready htrip herr)))

end

/-! ### Stage 5 clears memory -/

theorem lookup_cons_filter (k v x : Nat) (l : List (Nat × Nat)) : ((k, v) :: l.filter (·.1 != k)).lookup x = if x = k then some v else l.lookup x :=
  routesWith_lookup l k (some v) x

theorem clearMemory_keyOf (s : State) (k : Nat) : s.clearMemory.keyOf k = if k = 0 then some (3 * Config.freeNat s.draws) else s.keyOf k :=
  lookup_cons_filter ..

theorem clearMemory_byteAt (s : State) (t a : Nat) : s.clearMemory.byteAt t a = 0 := if_pos (Nat.zero_le t)

/-- Memory as cleared is under slot 0's key. -/
theorem clearMemory_readAt (s : State) (t a : Nat) : s.clearMemory.readAt 0 t a = 0 := by
  show s.clearMemory.readVia false none 0 t a = 0
  unfold State.readVia
  split
  · exact clearMemory_byteAt s t a
  · next hlow =>
    have hmaterial : s.clearMemory.material 0 a = 3 * Config.freeNat s.draws := by
      rw [State.material, if_neg hlow, clearMemory_keyOf, if_pos rfl]
      rfl
    show s.clearMemory.decrypt none (s.clearMemory.material 0 a) t a = 0
    rw [hmaterial]
    exact (if_pos rfl).trans (clearMemory_byteAt s t a)

theorem replicate_getD {α : Type} (n i : Nat) (x : α) : ((List.replicate n x)[i]?).getD x = x := by
  rw [List.getElem?_replicate]
  split <;> rfl

theorem failsWith_iff (stage : Nat) (e : Byte) : failsWith stage e = true ↔ (stage, e) ∈ [(2, 1), (2, 2), (3, 3), (4, 4), (5, 5)] := by
  simp only [failsWith, Bool.or_eq_true, Bool.and_eq_true, beq_iff_eq, List.mem_cons, Prod.mk.injEq, List.not_mem_nil, or_false, and_or_left, or_assoc]

theorem make_unready {s : State} {m : Move} (hready : s.ready = false) (hfree : ∀ i, m = .event i → readyFree i = false) : s.make m = .next s := by
  cases m with
  | issue u ci =>
    show (if (!s.ready) = true then _ else _) = _
    rw [hready]
    rfl
  | event i =>
    show (if (s.ready || readyFree i) = true then _ else _) = _
    rw [hready, hfree i rfl]
    rfl

/-- Settles O54: each stage is one branch of the boot; cleared memory is read under slot 0's new key. -/
theorem powerComesUp : Obligations.PowerComesUp := by
  unfold Obligations.PowerComesUp
  refine ⟨fun s hoff => ⟨_, powerGood_starts hoff, rfl⟩, fun s hpower hready htrip herr h5 h6 => bootStage_goesOn hpower hready htrip herr h5 h6,
    fun s hpower hready htrip herr hstage => ⟨_, bootStage_clears hpower hready htrip herr hstage, rfl, (clearMemory_keyOf s 0).trans (if_pos rfl),
      fun k hk => (clearMemory_keyOf s k).trans (if_neg hk), clearMemory_readAt s⟩,
    fun s hpower hready htrip herr hstage => ⟨_, bootStage_readies hpower hready htrip herr hstage, rfl, rfl, rfl, rfl,
      fun p => replicate_getD 16 p Part.reset, fun v => replicate_getD 64 v Func.reset⟩,
    fun s e hpower hready htrip herr => bootStage_fails hpower hready htrip herr e, failsWith_iff, fun s m hready hfree => make_unready hready hfree⟩

/-! ### Limits, trips and retraining (R402 to R404) -/

theorem plimSet_sets {s : State} {w : Nat} (hpower : s.power = true) (hlow : 1200 ≤ w) (hhigh : w ≤ 1900) (hstep : w % 25 = 0) :
    execPlimSet w s = .next { s with plim := w } := by
  simp only [execPlimSet, hpower, hlow, hhigh, hstep, decide_true, beq_self_eq_true, Bool.and_self, if_true]

theorem plimSet_ignores (s : State) {w : Nat} (hout : w < 1200 ∨ 1900 < w ∨ w % 25 ≠ 0) : execPlimSet w s = .next s := by
  refine congrArg Host.Outcome.next (if_neg fun h => ?_)
  simp only [Bool.and_eq_true, decide_eq_true_eq, beq_iff_eq] at h
  omega

theorem cleanL2_clean {s : State} {p : L2Line → Bool} {l : L2Line} (hl : l ∈ (s.cleanL2 p).l2) (hp : p l = true) : l.mask = 0 := by
  obtain ⟨old, -, hold⟩ := List.mem_map.mp hl
  cases hm : p old with
  | true => rw [← hold, hm]; rfl
  | false =>
    rw [hm] at hold
    rw [← hold] at hp
    exact absurd (hm.symm.trans hp) Bool.false_ne_true

theorem drainAll_empties {s : State} {u : Nat} {b : Block} (hb : s.block? u = some b) : ∃ b', (s.drainAll u).block? u = some b' ∧ b'.storeBuf = [] := by
  have hall : s.drainAll u = State.drainFirst u b.storeBuf.length s := by simp only [State.drainAll, hb]
  obtain ⟨b', hb', hbuf, -⟩ := drainFirst_drop u b.storeBuf.length hb
  exact ⟨b', by rw [hall, hb'], hbuf.trans List.drop_length⟩

theorem memoryRetrain_serves {s : State} {ch : Nat} (hready : s.ready = true) (hmay : s.retrainNeedsRequest = false ∨ ch ∈ s.retraining) :
    execMemoryRetrain ch s = .next { s with retraining := s.retraining.filter (· != ch) } := by
  refine congrArg Host.Outcome.next (if_pos ?_)
  simpa [hready] using hmay

theorem memoryRetrain_waits {s : State} {ch : Nat} (hneeds : s.retrainNeedsRequest = true) (hnot : ch ∉ s.retraining) :
    execMemoryRetrain ch s = .next s := by
  refine congrArg Host.Outcome.next (if_neg ?_)
  simp [hneeds, hnot]

/-! ### Keys, reports and what management reads (R405 to R407) -/

theorem keySlotLoad_loads {s : State} {slot key : Nat} (hpower : s.power = true) (hlow : 1 ≤ slot) (hhigh : slot < 2048) :
    ∃ t, execKeySlotLoad slot key s = .next t ∧ t.keyOf slot = some (3 * key + 1) ∧ ∀ x, x ≠ slot → t.keyOf x = s.keyOf x := by
  have hmay : (s.power && decide (1 ≤ slot) && decide (slot < 2048)) = true := by
    rw [hpower, decide_eq_true hlow, decide_eq_true hhigh]
    rfl
  exact ⟨_, congrArg Host.Outcome.next (if_pos hmay), (lookup_cons_filter ..).trans (if_pos rfl), fun x hx => (lookup_cons_filter ..).trans (if_neg hx)⟩

theorem keySlotLoad_ignores (s : State) {slot : Nat} (key : Nat) (hout : slot = 0 ∨ 2048 ≤ slot) : execKeySlotLoad slot key s = .next s := by
  refine congrArg Host.Outcome.next (if_neg fun h => ?_)
  simp only [Bool.and_eq_true, decide_eq_true_eq] at h
  omega

/-- A report: its body and the signature of that (R405). -/
def reportOf (s : State) (nonce : BitVec 384) : List Byte := s.reportBody nonce ++ leBytes 96 (Config.signature (s.reportBody nonce)).toNat

theorem attestationReport_reports {s : State} (nonce : BitVec 384) (hpower : s.power = true) :
    execAttestationReport nonce s = .next { s with reports := s.reports ++ [reportOf s nonce] } := congrArg Host.Outcome.next (if_pos hpower)

theorem reportOf_length (s : State) (nonce : BitVec 384) : (reportOf s nonce).length = 200 := by
  simp only [reportOf, State.reportBody, List.length_append, leBytes_len, List.length_replicate]

/-- The bytes of a part of a list. -/
theorem part_take {α : Type} (pre mid post : List α) {n k : Nat} (hpre : pre.length = n) (hmid : mid.length = k) :
    ((pre ++ (mid ++ post)).drop n).take k = mid := by
  rw [← hpre, List.drop_left, ← hmid, List.take_left]

theorem reportOf_devId (s : State) (nonce : BitVec 384) : leNat ((reportOf s nonce).take 2) = s.devId.toNat := by
  have hbytes : (reportOf s nonce).take 2 = leBytes 2 s.devId.toNat := by
    simp only [reportOf, State.reportBody, List.append_assoc]
    exact part_take [] _ _ rfl (leBytes_len ..)
  rw [hbytes, leNat_leBytes]
  exact Nat.mod_eq_of_lt s.devId.isLt

theorem reportOf_nonce (s : State) (nonce : BitVec 384) : leNat (((reportOf s nonce).drop 8).take 48) = nonce.toNat := by
  have hbytes : ((reportOf s nonce).drop 8).take 48 = leBytes 48 nonce.toNat := by
    simp only [reportOf, State.reportBody, List.append_assoc]
    rw [← List.append_assoc]
    exact part_take _ _ _ (by rw [List.length_append, leBytes_len, List.length_replicate]) (leBytes_len ..)
  rw [hbytes, leNat_leBytes]
  exact Nat.mod_eq_of_lt (nonce.isLt.trans_eq (pow_mul 2 8 48))

/-- Settles O55: each management command is one branch; a trip is the drain of every block and the write-back of every line. -/
theorem powerIsManaged : Obligations.PowerIsManaged := by
  unfold Obligations.PowerIsManaged
  refine ⟨fun s w hpower hlow hhigh hstep => plimSet_sets hpower hlow hhigh hstep, fun s w hout => plimSet_ignores s hout,
    fun s lower space hready => congrArg Host.Outcome.next (if_pos hready), fun s hready => ⟨readings s.draws, congrArg Host.Outcome.next (if_pos hready), rfl⟩,
    fun s => ⟨rfl, rfl, rfl, fun d p hp => ?_, fun n x hx => ?_, fun port n hn => ⟨?_, ?_⟩⟩, fun s hpower => congrArg Host.Outcome.next (if_pos hpower),
    fun s p l hl _ hp => cleanL2_clean hl hp, fun s u b hb => drainAll_empties hb, fun s ch hpower => ⟨_, congrArg Host.Outcome.next (if_pos hpower), fun x => ?_⟩,
    fun s ch hready hmay => memoryRetrain_serves hready hmay, fun s ch _ hneeds hnot => memoryRetrain_waits hneeds hnot,
    fun s slot key hpower hlow hhigh => keySlotLoad_loads hpower hlow hhigh, fun s slot key hout => keySlotLoad_ignores s key hout,
    fun s nonce hpower => ⟨_, reportOf s nonce, attestationReport_reports nonce hpower, rfl, reportOf_length s nonce, reportOf_devId s nonce, reportOf_nonce s nonce⟩,
    fun _ => rfl⟩
  · exact congrArg (Option.map (BitVec.ofNat 64)) hp
  · exact congrArg (Option.map (BitVec.ofNat 64)) hx
  · rw [State.managed, hn]; rfl
  · rw [State.managed, hn]; rfl
  · exact List.mem_dedup.trans List.mem_cons

end Sys2Proof.Proofs
end

