-- ==== Sys2Proof/Proofs/HomeUnwritten.lean ====
section
/-! What leaves home memory as it is (10_memory R152): the operations of the model that write nothing at home, in the model's order. Each
lemma goes through the branches of its operation; none of them writes. -/

namespace Sys2Proof.Proofs

open Sys2Proof.Machine Sys2Proof.Laws

/-- A fold of moves that leave home memory. -/
@[simp] theorem foldl_sameMem {α : Type} {f : State → α → State} (hf : ∀ s x, (f s x).mem = s.mem) : ∀ (l : List α) (s : State),
    (l.foldl f s).mem = s.mem
  | [], _ => rfl
  | x :: l, s => (foldl_sameMem hf l (f s x)).trans (hf s x)

@[simp] theorem ite_sameMem {p : Prop} [Decidable p] {s t u : State} (ht : t.mem = s.mem) (hu : u.mem = s.mem) :
    (if p then t else u).mem = s.mem := by
  split
  · exact ht
  · exact hu

/-- A fold of moves, each with a result beside it, that leave home memory. -/
@[simp] theorem foldlPair_sameMem {α β : Type} {f : State × β → α → State × β} (hf : ∀ r x, (f r x).1.mem = r.1.mem) : ∀ (l : List α) (r : State × β),
    (l.foldl f r).1.mem = r.1.mem
  | [], _ => rfl
  | x :: l, r => (foldlPair_sameMem hf l (f r x)).trans (hf r x)

@[simp] theorem settleBarc_sameMem (s : State) (u : Nat) : (s.settleBarc u).mem = s.mem := by
  unfold State.settleBarc
  repeat' split
  all_goals simp

@[simp] theorem settle_sameMem (s : State) (u : Nat) : (s.settle u).mem = s.mem := by
  simp [State.settle]

@[simp] theorem killLane_sameMem (s : State) (o : Origin) (n : Nat) : (s.killLane o n).mem = s.mem := rfl

@[simp] theorem settleCrew_sameMem (s : State) (u ci : Nat) : (s.settleCrew u ci).mem = s.mem := by
  unfold State.settleCrew
  split <;> simp

@[simp] theorem settleCrews_sameMem (s : State) (u : Nat) : (s.settleCrews u).mem = s.mem := by
  unfold State.settleCrews
  split <;> simp

@[simp] theorem verdict_sameMem (s : State) (h : HLane) (v : Verdict) : (s.verdict h v).mem = s.mem := by
  simp only [State.verdict]
  repeat' split
  all_goals simp

@[simp] theorem passVerdict_sameMem (s : State) (u lane : Nat) (v : Verdict) : (s.passVerdict u lane v).mem = s.mem := by
  unfold State.passVerdict
  repeat' split
  all_goals simp

@[simp] theorem trapLane_sameMem (s : State) (k : Ctx) (lane : Nat) (cause : Cause) (fault : DWord) (off wl ro : Word) :
    (s.trapLane k lane cause fault off wl ro).mem = s.mem := by
  unfold State.trapLane
  split <;> simp

@[simp] theorem trapAgain_sameMem (s : State) (k : Ctx) (lane : Nat) (cause : Cause) (fault : DWord) : (s.trapAgain k lane cause fault).mem = s.mem := by
  unfold State.trapAgain
  split <;> simp

@[simp] theorem trapActive_sameMem (s : State) (k : Ctx) (cause : Cause) : (s.trapActive k cause).mem = s.mem := by
  simp [State.trapActive]

@[simp] theorem report_sameMem (s : State) (b : Block) (crew lane : Nat) (cause : Cause) (fault : DWord) (off : Word) :
    (s.report b crew lane cause fault off).mem = s.mem := by
  unfold State.report
  split <;> rfl

@[simp] theorem reportPart_sameMem (s : State) (p : Nat) (core : Nat) (launch : Word) (cause : Cause) (fault : DWord) :
    (s.reportPart p core launch cause fault).mem = s.mem := rfl

@[simp] theorem bump_sameMem (s : State) (vf i : Nat) : (s.bump vf i).mem = s.mem := by
  simp only [State.bump]
  repeat' split
  all_goals simp

@[simp] theorem count_sameMem (s : State) (vf event : Nat) (ok : Nat → Bool) : (s.count vf event ok).mem = s.mem := by
  simp [State.count, apply_ite State.mem]

theorem lookup_sameMem {s t : State} {core : Nat} {quad : Option Nat} {asid va n : Nat} {e : Look} (h : s.lookup core quad asid va n = .ok (e, t)) :
    t.mem = s.mem := by
  grind [State.lookup]

@[simp] theorem translate_sameMem (s : State) (core : Nat) (quad : Option Nat) (asid va n : Nat) (kind : AccKind) :
    (s.translate core quad asid va n kind).1.mem = s.mem := by
  unfold State.translate
  split
  · rfl
  · next h => exact lookup_sameMem h

@[simp] theorem translateRun_sameMem (core : Nat) (quad : Option Nat) (asid : Nat) (kind : AccKind) : ∀ (fuel : Nat) (s : State) (va n : Nat),
    (State.translateRun core quad asid kind fuel s va n).1.mem = s.mem
  | 0, s, _, _ => rfl
  | fuel + 1, s, va, n => by
    unfold State.translateRun
    split
    · rfl
    split
    · rfl
    · next h =>
      split
      · exact (translateRun_sameMem core quad asid kind fuel ..).trans (lookup_sameMem h)
      · exact lookup_sameMem h

@[simp] theorem remap_sameMem (s : State) (kind : RemapKind) (asid lo hi : Nat) : (s.remap kind asid lo hi).mem = s.mem := rfl

@[simp] theorem edited_sameMem (s : State) (asid since : Nat) : (s.edited asid since).mem = s.mem := rfl

@[simp] theorem newRequest_sameMem (s : State) (core asid base g va : Nat) (w : Option Nat) : (s.newRequest core asid base g va w).mem = s.mem := rfl

@[simp] theorem askResidency_sameMem (s : State) (b : Block) (crew lane : Nat) (va : Nat) (off : Word) (w : Park) :
    (s.askResidency b crew lane va off w).mem = s.mem := by
  simp only [State.askResidency]
  repeat' split
  all_goals simp

@[simp] theorem askResidencyFront_sameMem (s : State) (part vf va : Nat) (w : Park) : (s.askResidencyFront part vf va w).mem = s.mem := by
  simp only [State.askResidencyFront]
  repeat' split
  all_goals simp

@[simp] theorem recordAppended_sameMem (s : State) (part vf : Nat) : (s.recordAppended part vf).mem = s.mem := by
  simp only [State.recordAppended]
  repeat' split
  all_goals simp

@[simp] theorem noteIssue_sameMem (s : State) (k : Ctx) (i : Instr) : (s.noteIssue k i).mem = s.mem := rfl

@[simp] theorem begun_sameMem (s : State) (k : Ctx) (i : Instr) : (s.begun k i).mem = s.mem := rfl

@[simp] theorem countIssue_sameMem (s : State) (k : Ctx) (i : Instr) : (s.countIssue k i).mem = s.mem := by
  unfold State.countIssue
  split <;> simp

@[simp] theorem passImplicit_sameMem (s : State) (k : Ctx) (g : Guard) (len : Nat) : (s.passImplicit k g len).mem = s.mem := rfl

@[simp] theorem advanceStamps_sameMem (s : State) (u core : Nat) : (s.advanceStamps u core).mem = s.mem := rfl

@[simp] theorem draw_sameMem (s : State) : (s.draw).2.mem = s.mem := rfl

@[simp] theorem freeBytes_sameMem (s : State) (n : Nat) : (s.freeBytes n).1.mem = s.mem := rfl

@[simp] theorem writeBack_sameMem (s : State) (l : L2Line) : (s.writeBack l).mem = s.mem := rfl

@[simp] theorem dropL2_sameMem (s : State) (l : L2Line) : (s.dropL2 l).mem = s.mem := rfl

@[simp] theorem l2Fill_sameMem (s : State) (e : L2Line) : (s.l2Fill e).mem = s.mem := by
  simp only [State.l2Fill]
  repeat' split
  all_goals simp

@[simp] theorem l2Access_sameMem (s : State) (pr : Option Nat) (vf key sl a : Nat) (mask : BitVec 256) (h : Hint) (stamp : BitVec 16) :
    (s.l2Access pr vf key sl a mask h stamp).mem = s.mem := by
  unfold State.l2Access
  repeat' split
  all_goals simp

@[simp] theorem l2Write_sameMem (s : State) (vf : Nat) (p : Piece) (h : Hint) : (s.l2Write vf p h).mem = s.mem := by
  simp [State.l2Write]

@[simp] theorem l2Get_sameMem (s : State) (vf key sl a : Nat) (need : List Nat) (h : Hint) (stamp : BitVec 16) :
    (s.l2Get vf key sl a need h stamp).mem = s.mem := by
  unfold State.l2Get
  split <;> simp

@[simp] theorem l2Read_sameMem (s : State) (vf core : Nat) (p : Piece) : (s.l2Read vf core p).mem = s.mem := by
  simp [State.l2Read]

@[simp] theorem cleanL2_sameMem (s : State) (mine : L2Line → Bool) : (s.cleanL2 mine).mem = s.mem :=
  foldl_sameMem (f := State.writeBack) (fun _ _ => rfl) (s.l2.filter mine) s

@[simp] theorem owesHost_sameMem (s : State) (u home n : Nat) (c : HostCause) : (s.owesHost u home n c).mem = s.mem := by
  unfold State.owesHost
  split <;> simp

@[simp] theorem halve_sameMem (s : State) (core : Nat) : (s.halve core).mem = s.mem := by
  unfold State.halve
  split <;> rfl

@[simp] theorem victimHit_sameMem (s : State) (b : Block) (ci a : Nat) : (s.victimHit b ci a).mem = s.mem := by
  unfold State.victimHit
  split <;> simp

@[simp] theorem countL2_sameMem (s : State) (counted : Bool) (vf event owner : Nat) : (s.countL2 counted vf event owner).mem = s.mem := by
  unfold State.countL2
  split <;> simp

@[simp] theorem l2Lookup_sameMem (s : State) (b : Block) (p : Piece) (need : List Nat) (home counted : Bool) (h : Hint) :
    (s.l2Lookup b p need home counted h).1.mem = s.mem := by
  simp only [State.l2Lookup]
  repeat' split
  all_goals simp

@[simp] theorem checkUnits_sameMem (k : Ctx) (asid : Nat) (kind : AccKind) (size : Nat) : ∀ (us : List (Nat × Nat)) (s : State) (ps : List Piece),
    (State.checkUnits k asid kind size us s ps).1.mem = s.mem
  | [], _, _ => rfl
  | (va, _) :: us, s, ps => by
    have hone := translate_sameMem s k.b.core (some k.c.quad) asid va size kind
    unfold State.checkUnits
    split
    · next h => exact (checkUnits_sameMem k asid kind size us _ _).trans (by rw [h] at hone; exact hone)
    · next h => rw [h] at hone; exact hone
    · next h => rw [h] at hone; exact hone

@[simp] theorem checkGlobal_sameMem (s : State) (k : Ctx) (va n : Nat) (kind : AccKind) : (s.checkGlobal k va n kind).1.mem = s.mem := by
  unfold State.checkGlobal
  split <;> simp

@[simp] theorem readPiece_sameMem (s : State) (k : Ctx) (lane : Nat) (home : Bool) (tags : List Passed) (p : Piece) (pick : Nat) :
    (s.readPiece k lane home tags p pick).1.mem = s.mem := by
  simp only [State.readPiece]
  repeat' split
  all_goals simp

@[simp] theorem readAll_sameMem (k : Ctx) (lane : Nat) (home : Bool) (tags : List Passed) : ∀ (ps : List Piece) (ts : List Nat) (s : State),
    (State.readAll k lane home tags ps ts s).1.mem = s.mem
  | [], _, _ => rfl
  | _ :: ps, ts, _ => (readAll_sameMem k lane home tags ps ts.tail _).trans (readPiece_sameMem ..)

@[simp] theorem forLanes_sameMem {f : State → Nat → Lane → State} (hf : ∀ s n l, (f s n l).mem = s.mem) (s : State) (ls : List (Nat × Lane)) :
    (s.forLanes ls f).mem = s.mem := foldl_sameMem (by intros; exact hf ..) ls s

@[simp] theorem refillPicks_sameMem (b : Block) (l : Lane) : ∀ (ps : List Piece) (s : State), (State.refillPicks b l ps s).1.mem = s.mem
  | [], _ => rfl
  | p :: ps, s => by
    refine (refillPicks_sameMem b l ps _).trans ?_
    show (if s.now ≤ s.openFrom b l p then (s.now, s) else _).2.mem = s.mem
    split <;> rfl

@[simp] theorem once_sameMem {f : Ctx → State → State} (hf : ∀ k s, (f k s).mem = s.mem) (g : Guard) (k : Ctx) (s : State) :
    (once g f k s).mem = s.mem := by
  unfold once
  split
  · rfl
  · exact hf k s

@[simp] theorem icachePut_sameMem (s : State) (e : ILine) : (s.icachePut e).mem = s.mem := by
  simp only [State.icachePut]
  repeat' split
  all_goals simp

@[simp] theorem codeLine_sameMem (s : State) (b : Block) (va : Nat) (x : Xlat) (since pick : Nat) : (s.codeLine b va x since pick).1.mem = s.mem := by
  unfold State.codeLine
  split <;> simp

@[simp] theorem requestLine_sameMem (s : State) (b : Block) (n : Nat) : (s.requestLine b n).mem = s.mem := by
  simp only [State.requestLine]
  repeat' split
  all_goals simp

@[simp] theorem pinLine_sameMem (s : State) (b : Block) (n : Nat) : (s.pinLine b n).mem = s.mem := by
  simp only [State.pinLine]
  repeat' split
  all_goals simp

@[simp] theorem pushOnce_sameMem (s : State) (k : Ctx) (g : Guard) (w : OpKind) : (s.pushOnce k g w).mem = s.mem := by
  unfold State.pushOnce
  split <;> rfl

@[simp] theorem unqueue_sameMem (s : State) (u ci n : Nat) : (s.unqueue u ci n).mem = s.mem := rfl

@[simp] theorem scratchStore_sameMem (s : State) (u a : Nat) (bs : List Byte) : (s.scratchStore u a bs).mem = s.mem := rfl

@[simp] theorem arriveAt_sameMem (s : State) (u a n : Nat) : (s.arriveAt u a n).mem = s.mem := by
  unfold State.arriveAt
  split <;> rfl

theorem checkGlobal_passed {s t : State} {k : Ctx} {va n : Nat} {kind : AccKind} {r : Check} (h : s.checkGlobal k va n kind = (t, r)) : t.mem = s.mem := by
  rw [← checkGlobal_sameMem s k va n kind, h]

theorem translate_passed {s t : State} {core : Nat} {quad : Option Nat} {asid va n : Nat} {kind : AccKind} {r : XRes}
    (h : s.translate core quad asid va n kind = (t, r)) : t.mem = s.mem := by
  rw [← translate_sameMem s core quad asid va n kind, h]

theorem failCheck_sameMem (s : State) (k : Ctx) (lane : Nat) (r : Check) : (s.failCheck k lane r).mem = s.mem := by
  unfold State.failCheck
  split <;> simp

@[simp] theorem loadLane_sameMem (s : State) (k : Ctx) (lane va : Nat) (z : Acc) (home : Bool) (h : Hint) (d : Reg) :
    (s.loadLane k lane va z home h d).mem = s.mem := by
  unfold State.loadLane
  split
  · split
    · next ht =>
      dsimp only
      split <;> simp [translate_passed ht]
    · next ht => simp [translate_passed ht]
    · next ht => simp [translate_passed ht]
  · split
    · next hc => exact (push_mem ..).trans (checkGlobal_passed hc)
    · next hc => exact (failCheck_sameMem ..).trans (checkGlobal_passed hc)

@[simp] theorem storeLane_sameMem (s : State) (k : Ctx) (lane : Nat) (l : Lane) (va : Nat) (z : Acc) (h : Hint) (d : Reg) :
    (s.storeLane k lane l va z h d).mem = s.mem := by
  unfold State.storeLane
  split
  · next hc => exact (push_mem ..).trans (checkGlobal_passed hc)
  · next hc => exact (failCheck_sameMem ..).trans (checkGlobal_passed hc)

@[simp] theorem orTrap_sameMem (s : State) (k : Ctx) (lane a : Nat) (r : Except Cause (Nat × Nat)) (f : Nat → Nat → OpKind) :
    (s.orTrap k lane a r f).mem = s.mem := by
  unfold State.orTrap
  split <;> simp

@[simp] theorem atomLane_sameMem (s : State) (k : Ctx) (lane : Nat) (l : Lane) (z : Acc) (spc : ASpace) (kind : AccKind) (m : Mem)
    (f : Place → OpKind) : (s.atomLane k lane l z spc kind m f).mem = s.mem := by
  unfold State.atomLane
  split
  · dsimp only
    split
    · simp
    split
    · next hc => exact (push_mem ..).trans (checkGlobal_passed hc)
    · next hc => exact (failCheck_sameMem ..).trans (checkGlobal_passed hc)
  · simp [apply_ite State.mem]

@[simp] theorem arrivalLane_sameMem (s : State) (k : Ctx) (lane : Nat) (l : Lane) (m : Mem) (f : Nat → OpKind) :
    (s.arrivalLane k lane l m f).mem = s.mem := by
  simp only [State.arrivalLane]
  repeat' split
  all_goals simp

@[simp] theorem performSpLoad_sameMem (s : State) (k : Ctx) (o : Op) (z : Acc) (core a : Nat) (d : Reg) :
    (s.performSpLoad k o z core a d).mem = s.mem := by
  unfold State.performSpLoad
  split <;> rfl

@[simp] theorem performSpStore_sameMem (s : State) (k : Ctx) (core a n : Nat) (x : BitVec 128) : (s.performSpStore k core a n x).mem = s.mem := by
  unfold State.performSpStore
  split <;> rfl

@[simp] theorem refresh_sameMem (s : State) (u core : Nat) : (s.refresh u core).mem = s.mem := rfl

@[simp] theorem parkAfter_sameMem (s : State) (k : Ctx) (lane len : Nat) (w : Park) : (s.parkAfter k lane len w).mem = s.mem := rfl

@[simp] theorem unqueueEighth_sameMem (s : State) (u ci : Nat) (o : Op) : (s.unqueueEighth u ci o).mem = s.mem := rfl

@[simp] theorem parkAll_sameMem (k : Ctx) (os : List Op) (len : Nat) (w : Op → Park) (s : State) :
    (os.foldl (fun s o => s.parkAfter k o.lane len (w o)) s).mem = s.mem := foldl_sameMem (by intros; rfl) os s

@[simp] theorem performBar_sameMem (s : State) (k : Ctx) (os : List Op) : (s.performBar k os).mem = s.mem := by
  simp only [State.performBar]
  split
  · simp
  · exact parkAll_sameMem k os 1 (fun _ => .bar _) _

@[simp] theorem performBarc_sameMem (s : State) (k : Ctx) (os : List Op) : (s.performBarc k os).mem = s.mem := by
  simp only [State.performBarc]
  split
  · simp
  · exact parkAll_sameMem k os 1 (fun _ => .barc _) _

@[simp] theorem performAwait_sameMem (s : State) (k : Ctx) (o : Op) (a : Nat) (gen : BitVec 16) : (s.performAwait k o a gen).mem = s.mem := by
  unfold State.performAwait
  split <;> rfl

@[simp] theorem cleanHostTier_sameMem (s : State) : (s.cleanHostTier).mem = s.mem := by
  simp [State.cleanHostTier]

@[simp] theorem performFence_sameMem (s : State) (sc : Scope) : (s.performFence sc).mem = s.mem := by
  unfold State.performFence
  split <;> simp

@[simp] theorem performSfence_sameMem (s : State) (k : Ctx) (a : Nat) (len : Option Nat) : (s.performSfence k a len).mem = s.mem := rfl

@[simp] theorem performNetcnt_sameMem (s : State) (k : Ctx) (o : Op) (n : Nat) (d : Reg) : (s.performNetcnt k o n d).mem = s.mem :=
  foldl_sameMem (by intros; rfl) _ (s.modCur k fun c => { c with queue := c.queue.filter fun p => p.ins != o.ins })

@[simp] theorem openNet_sameMem (s : State) (n : Nat) : (s.openNet n).mem = s.mem := rfl

@[simp] theorem netQuiet_sameMem (s : State) (n : Nat) : (s.netQuiet n).mem = s.mem := by
  unfold State.netQuiet
  split <;> rfl

@[simp] theorem noteOpen_sameMem (s : State) (k : Ctx) (i : Instr) : (s.noteOpen k i).mem = s.mem := by
  unfold State.noteOpen
  split <;> rfl

theorem translateRun_passed {s t : State} {core : Nat} {quad : Option Nat} {asid : Nat} {kind : AccKind} {fuel va n : Nat}
    {r : List (Nat × Nat × Xlat) × Option (Nat × XRes)} (h : State.translateRun core quad asid kind fuel s va n = (t, r)) : t.mem = s.mem := by
  rw [← translateRun_sameMem core quad asid kind fuel s va n, h]

@[simp] theorem l2Pieces_sameMem (s : State) (b : Block) (fmt : MFmt) (va stride : Nat) (off : Int) (row : Nat) (int : Bool) :
    (s.l2Pieces b fmt va stride off row int).1.mem = s.mem := by
  grind [State.l2Pieces, translate_sameMem, translateRun_sameMem]

@[simp] theorem readsAll_sameMem (vf core : Nat) (ps : List Piece) (s : State) : (ps.foldl (fun s p => s.l2Read vf core p) s).mem = s.mem :=
  foldl_sameMem (fun s p => l2Read_sameMem s vf core p) ps s

@[simp] theorem l2Chunk_sameMem (s : State) (b : Block) (t0 : Nat) (fmt : MFmt) (va stride : Nat) (off : Int) (row : Nat) (int : Bool) :
    (s.l2Chunk b t0 fmt va stride off row int).1.mem = s.mem := by
  have hpieces := l2Pieces_sameMem s b fmt va stride off row int
  unfold State.l2Chunk
  split
  · next h => rw [h] at hpieces; exact hpieces
  · next h =>
    rw [h] at hpieces
    split
    · exact hpieces
    · exact (readsAll_sameMem ..).trans hpieces

@[simp] theorem handleChunk_sameMem (s : State) (b : Block) (m : MCmd) (h : Handle) (inc : Int) (sno row : Nat) (int : Bool) :
    (s.handleChunk b m h inc sno row int).1.mem = s.mem := by
  unfold State.handleChunk
  split <;> simp

@[simp] theorem cacheOperand_sameMem (s : State) (e : OpCache) : (s.cacheOperand e).mem = s.mem := rfl

@[simp] theorem chosenVals_sameMem (s : State) (t : Ty) (bs : List Byte) (old : List (List Byte)) : (s.chosenVals t bs old).1.mem = s.mem := by
  unfold State.chosenVals
  split <;> rfl

@[simp] theorem operandFault_sameMem (s : State) (u id addr : Nat) : (s.operandFault u id addr).mem = s.mem := by
  unfold State.operandFault
  repeat' split
  all_goals simp

@[simp] theorem acceptM_sameMem (s : State) (k : Ctx) (o : Op) (kind : MKind) : (s.acceptM k o kind).mem = s.mem := rfl

@[simp] theorem mDone_sameMem (s : State) (u id : Nat) : (s.mDone u id).mem = s.mem := by
  simp [State.mDone]

@[simp] theorem performMdesc_sameMem (s : State) (k : Ctx) (o : Op) (l2 : Bool) (fmt : MFmt) (h : BitVec 4) (stride : Word) (xs : List DWord) :
    (s.performMdesc k o l2 fmt h stride xs).mem = s.mem := rfl

@[simp] theorem performMloop_sameMem (s : State) (k : Ctx) (o : Op) (sh : Shape) (t : BitVec 3) (ha hb : BitVec 4) (n : BitVec 16)
    (ia ib : BitVec 20) : (s.performMloop k o sh t ha hb n ia ib).mem = s.mem := rfl

@[simp] theorem performMfence_sameMem (s : State) (k : Ctx) : (s.performMfence k).mem = s.mem := rfl

@[simp] theorem performMwait_sameMem (s : State) (k : Ctx) (o : Op) (os : List Op) (all : Bool) (t : BitVec 3) :
    (s.performMwait k o os all t).mem = s.mem := by
  unfold State.performMwait
  split
  · rfl
  · exact parkAll_sameMem k os 2 (fun o => .mwait o.ins all t.toNat _) s

@[simp] theorem performMread_sameMem (s : State) (k : Ctx) (o : Op) (i64 : Bool) (t : BitVec 3) (d : Reg) (xs : List DWord) (picks : List Nat) :
    (s.performMread k o i64 t d xs picks).mem = s.mem := rfl

@[simp] theorem performMstat_sameMem (s : State) (k : Ctx) (o : Op) (d : Reg) : (s.performMstat k o d).mem = s.mem := rfl

@[simp] theorem performMstatLog_sameMem (s : State) (k : Ctx) (o : Op) (d : Reg) (xs : List DWord) : (s.performMstatLog k o d xs).mem = s.mem := rfl

@[simp] theorem performMstatExp_sameMem (s : State) (k : Ctx) (o : Op) (t : BitVec 3) (d : Reg) : (s.performMstatExp k o t d).mem = s.mem := rfl

@[simp] theorem performMstatClr_sameMem (s : State) (k : Ctx) : (s.performMstatClr k).mem = s.mem := rfl

@[simp] theorem mRefuse_sameMem (s : State) (b : Block) (m : MCmd) (addr : Nat) : (s.mRefuse b m addr).mem = s.mem := by
  simp [State.mRefuse]

@[simp] theorem beginFormat_sameMem (s : State) (b : Block) (h : Handle) : (s.beginFormat b h).1.mem = s.mem := by
  grind [State.beginFormat, translate_sameMem]

@[simp] theorem seqTrap_sameMem (s : State) (u ci : Nat) (p : Lane → Bool) (cause : Cause) (fault : Lane → DWord) (off : Lane → Word) :
    (s.seqTrap u ci p cause fault off).mem = s.mem := by
  unfold State.seqTrap
  split <;> simp

@[simp] theorem wantedFault_sameMem (s : State) (u ci : Nat) (p : Lane → Bool) : (s.wantedFault u ci p).mem = s.mem := by
  unfold State.wantedFault
  split <;> simp

@[simp] theorem lineFault_sameMem (s : State) (u ci n : Nat) (cause : Cause) : (s.lineFault u ci n cause).mem = s.mem := by
  unfold State.lineFault
  split <;> simp

@[simp] theorem loopTop_sameMem (s : State) (u ci : Nat) : (s.loopTop u ci).mem = s.mem := by
  unfold State.loopTop
  split <;> simp

@[simp] theorem sweepEnd_sameMem (s : State) (u ci : Nat) : (s.sweepEnd u ci).mem = s.mem := by
  unfold State.sweepEnd
  split <;> simp

@[simp] theorem beginVisit_sameMem (s : State) (u ci : Nat) (lab : Word) : (s.beginVisit u ci lab).mem = s.mem := by
  unfold State.beginVisit
  split <;> simp

@[simp] theorem askLine_sameMem (s : State) (b : Block) (ci : Nat) (c : Crew) (w : Nat × Park) : (s.askLine b ci c w).mem = s.mem := by
  simp [State.askLine]

@[simp] theorem startVisit_sameMem (s : State) (u ci : Nat) (lo : Option Word) (lab : Word) : (s.startVisit u ci lo lab).mem = s.mem := by
  unfold State.startVisit
  repeat' split
  all_goals simp

@[simp] theorem endVisit_sameMem (s : State) (u ci : Nat) (pc : Word) : (s.endVisit u ci pc).mem = s.mem := by
  unfold State.endVisit
  split <;> rfl

@[simp] theorem codeBytes_sameMem (s : State) (b : Block) (ps : List Piece) (pick : Nat) : (s.codeBytes b ps pick).1.mem = s.mem := by
  refine foldlPair_sameMem (fun r p => foldlPair_sameMem (fun r x => ?_) _ r) ps (s, [])
  grind [codeLine_sameMem]

@[simp] theorem takeCensus_sameMem (u ci fuel : Nat) (lo : Option Word) (s : State) : (State.takeCensus u ci fuel lo s).mem = s.mem := by
  induction fuel generalizing s with
  | zero => rfl
  | succ fuel again =>
    unfold State.takeCensus
    split
    · rfl
    split
    · simp
    · repeat' split
      all_goals simp [again]

@[simp] theorem afterLineFault_sameMem (s : State) (u ci : Nat) (k : Cont) : (s.afterLineFault u ci k).mem = s.mem := takeCensus_sameMem ..

@[simp] theorem lineReady_sameMem (s : State) (u ci : Nat) (l : Line) (k : Cont) : (s.lineReady u ci l k).mem = s.mem := by
  unfold State.lineReady
  split
  · split
    · simp
    · exact (takeCensus_sameMem ..).trans (wantedFault_sameMem ..)
  · rfl

@[simp] theorem unpark_sameMem (s : State) (u ci l : Nat) : (s.unpark u ci l).mem = s.mem := rfl

@[simp] theorem endWait_sameMem (s : State) (b : Block) (ci l : Nat) (w : Park) : (s.endWait b ci l w).mem = s.mem := by
  unfold State.endWait
  repeat' split
  all_goals simp

@[simp] theorem performCopy_sameMem (s : State) (k : Ctx) (o : Op) (i : Instr) (xs : List DWord) : (s.performCopy k o i xs).mem = s.mem := rfl

@[simp] theorem performCstat_sameMem (s : State) (k : Ctx) (o : Op) (d : Reg) (clr : Bool) : (s.performCstat k o d clr).mem = s.mem := by
  unfold State.performCstat
  split <;> rfl

@[simp] theorem modCmd_sameMem (s : State) (u id : Nat) (f : CCmd → CCmd) : (s.modCmd u id f).mem = s.mem := rfl

@[simp] theorem copyFault_sameMem (s : State) (b : Block) (c : CCmd) (addr : Nat) : (s.copyFault b c addr).mem = s.mem := by
  simp only [State.copyFault]
  repeat' split
  all_goals simp

@[simp] theorem checkPiece_sameMem (s : State) (b : Block) (va n : Nat) (kind : AccKind) : (s.checkPiece b va n kind).1.mem = s.mem := by
  grind [State.checkPiece, translate_sameMem]

@[simp] theorem engineRead_sameMem (s : State) (vf core : Nat) (p : Piece) : (s.engineRead vf core p).1.mem = s.mem := by
  simp [State.engineRead]

@[simp] theorem land_sameMem (s : State) (b : Block) (c : CCmd) (a : Nat) (bs : List Byte) : (s.land b c a bs).mem = s.mem :=
  foldl_sameMem (by intros; exact scratchStore_sameMem ..) (s.landings b c) s

@[simp] theorem trapTakers_sameMem (s : State) (k : Ctx) (g : Guard) (cause : Cause) (fault : DWord) : (s.trapTakers k g cause fault).mem = s.mem := by
  simp [State.trapTakers]

@[simp] theorem parkTakers_sameMem (s : State) (k : Ctx) (g : Guard) (va : Nat) (w : Park) : (s.parkTakers k g va w).mem = s.mem := by
  unfold State.parkTakers
  split
  · rfl
  · exact (foldl_sameMem (by intros; rfl) _ _).trans (askResidency_sameMem ..)

@[simp] theorem checkRun_sameMem (s : State) (core asid part clr va n : Nat) (kind : AccKind) :
    (s.checkRun core asid part clr va n kind).1.mem = s.mem := by
  grind [State.checkRun, translateRun_sameMem]

@[simp] theorem readRun_sameMem (s : State) (vf core : Nat) (ps : List Piece) : (s.readRun vf core ps).1.mem = s.mem :=
  foldlPair_sameMem (by intros; exact engineRead_sameMem ..) ps (s, [])

@[simp] theorem performXgrpEnd_sameMem (s : State) (k : Ctx) (g : Guard) (slot : BitVec 4) (len : Nat) : (s.performXgrpEnd k g slot len).mem = s.mem := rfl

@[simp] theorem performXop_sameMem (s : State) (k : Ctx) (o : Op) (g : Guard) (slot : BitVec 4) (len op : Nat) (t : Ty) (ioff cb : Word)
    (src : DWord) : (s.performXop k o g slot len op t ioff cb src).mem = s.mem := by
  unfold State.performXop
  split <;> simp

@[simp] theorem performXwait_sameMem (s : State) (k : Ctx) (os : List Op) (slot : BitVec 4) : (s.performXwait k os slot).mem = s.mem := by
  simp only [State.performXwait]
  split <;> exact foldl_sameMem (by intros; rfl) os s

@[simp] theorem modColl_sameMem (s : State) (id : Nat) (f : COp → COp) : (s.modColl id f).mem = s.mem := rfl

@[simp] theorem collReport_sameMem (s : State) (c : COp) (addr : Nat) : (s.collReport c addr).mem = s.mem := by
  unfold State.collReport
  split <;> rfl

@[simp] theorem remoteBytes_sameMem (s : State) (n : Nat) : (s.remoteBytes n).1.mem = s.mem := rfl

@[simp] theorem collWaits_sameMem (s : State) (c : COp) (va : Nat) (w : Park) : (s.collWaits c va w).mem = s.mem := by
  unfold State.collWaits
  split <;> simp

@[simp] theorem refreshInbox_sameMem (s : State) (c : COp) : (s.refreshInbox c).mem = s.mem := rfl

@[simp] theorem dropColls_sameMem (s : State) (c : COp) : (s.dropColls c).mem = s.mem := by
  unfold State.dropColls
  split <;> rfl

@[simp] theorem sysRun_sameMem (s : State) (k : Ctx) (g : Guard) (va n : Nat) (kind : AccKind) : (s.sysRun k g va n kind).1.mem = s.mem := by
  grind [State.sysRun, translateRun_sameMem, trapTakers_sameMem, parkTakers_sameMem]

@[simp] theorem sysDone_sameMem (s : State) (k : Ctx) (o : Op) (d : Reg) (ws : List Word) : (s.sysDone k o d ws).1.mem = s.mem := rfl

@[simp] theorem invalidate_sameMem (s : State) (part asid : Nat) (all : Bool) (lo n : Nat) : (s.invalidate part asid all lo n).mem = s.mem := by
  simp only [State.invalidate, mapBlocks_mem]
  split <;> exact foldl_sameMem (by intros; rfl) _ s

@[simp] theorem probeDone_sameMem (s : State) (k : Ctx) (o : Op) (g : Guard) (d : Reg) (q : BitVec 3) (x : Option (BitVec 256)) :
    (s.probeDone k o g d q x).1.mem = s.mem := rfl

@[simp] theorem performRprobe_sameMem (s : State) (k : Ctx) (o : Op) (g : Guard) (d : Reg) (q : BitVec 3) (xs : List DWord) :
    (s.performRprobe k o g d q xs).1.mem = s.mem := rfl

@[simp] theorem performRprobeS2_sameMem (s : State) (k : Ctx) (o : Op) (g : Guard) (d : Reg) (q : BitVec 3) (xs : List DWord) :
    (s.performRprobeS2 k o g d q xs).1.mem = s.mem := rfl

@[simp] theorem performRcompact_sameMem (s : State) (k : Ctx) (o : Op) (d : Reg) (xs : List DWord) : (s.performRcompact k o d xs).1.mem = s.mem := by
  simp only [State.performRcompact]
  repeat' split
  all_goals simp

@[simp] theorem closeNet_sameMem (s : State) (n : Nat) : (s.closeNet n).mem = s.mem := rfl

@[simp] theorem waitWith_sameMem (s : State) (k : Ctx) (o : Op) (i : Instr) (xs : List DWord) : (s.waitWith k o i xs).1.mem = s.mem := rfl

@[simp] theorem performNetdrain_sameMem (s : State) (k : Ctx) (g : Guard) (xs : List DWord) : (s.performNetdrain k g xs).1.mem = s.mem := by
  simp only [State.performNetdrain]
  repeat' split
  all_goals simp

@[simp] theorem performNetreset_sameMem (s : State) (k : Ctx) (o : Op) (i : Instr) (g : Guard) (xs : List DWord) :
    (s.performNetreset k o i g xs).1.mem = s.mem := by
  simp only [State.performNetreset]
  repeat' split
  all_goals simp

@[simp] theorem launchDone_sameMem (s : State) (k : Ctx) (o : Op) (d : Reg) (st : Word) (h : Option DWord) : (s.launchDone k o d st h).1.mem = s.mem := by
  unfold State.launchDone
  split <;> rfl

@[simp] theorem performCntcfg_sameMem (s : State) (k : Ctx) (o : Op) (d : Reg) (xs : List DWord) : (s.performCntcfg k o d xs).1.mem = s.mem := by
  simp only [State.performCntcfg]
  repeat' split
  all_goals simp

@[simp] theorem putOriginReg_sameMem (s : State) (o : Origin) (budget : Nat) (r : Reg) (x : Word) : (s.putOriginReg o budget r x).mem = s.mem := rfl

@[simp] theorem formHandler_sameMem (s : State) (core : Nat) (hs rest : List HLane) : (s.formHandler core hs rest).mem = s.mem := by
  simp only [State.formHandler]
  repeat' split
  all_goals simp

@[simp] theorem unpinL2_sameMem (s : State) (u : Nat) : (s.unpinL2 u).mem = s.mem := rfl

@[simp] theorem plainRun_sameMem (s : State) (core asid va n : Nat) (kind : AccKind) : (s.plainRun core asid va n kind).1.mem = s.mem := by
  grind [State.plainRun, translateRun_sameMem]

@[simp] theorem sectionRuns_sameMem (core : Nat) : ∀ (ss : List Section) (s : State), (State.sectionRuns core ss s).1.mem = s.mem
  | [], _ => rfl
  | (l, o, bs) :: r, s => by
    have again := sectionRuns_sameMem core r
    grind [State.sectionRuns, plainRun_sameMem]

@[simp] theorem entryAgain_sameMem (s : State) (b : Block) (core : Nat) (e : Entry) : (s.entryAgain b core e).1.mem = s.mem := by
  grind [State.entryAgain, translate_sameMem]

@[simp] theorem resumeCrew_sameMem (s : State) (core : Nat) (l : Launch) (dealt : List (Nat × Nat × Nat)) (c : Crew) :
    (s.resumeCrew core l dealt c).1.mem = s.mem := by
  unfold State.resumeCrew
  split <;> rfl

@[simp] theorem entriesAgain_sameMem (b : Block) (core : Nat) : ∀ (es : List Entry) (s : State), (State.entriesAgain b core es s).1.mem = s.mem
  | [], _ => rfl
  | e :: es, s => by
    have again := entriesAgain_sameMem b core es
    grind [State.entriesAgain, entryAgain_sameMem]

@[simp] theorem resumeCrews_sameMem (core : Nat) (l : Launch) (dealt : List (Nat × Nat × Nat)) : ∀ (cs : List Crew) (s : State),
    (State.resumeCrews core l dealt cs s).1.mem = s.mem
  | [], _ => rfl
  | _ :: cs, _ => (resumeCrews_sameMem core l dealt cs _).trans (resumeCrew_sameMem ..)

@[simp] theorem rereadWaitc_sameMem (s : State) (u : Nat) : (s.rereadWaitc u).mem = s.mem := by
  unfold State.rereadWaitc
  split
  · rfl
  · refine foldl_sameMem (fun t _ => foldl_sameMem (fun t _ => ?_) _ t) _ s
    split
    · simp [apply_ite State.mem]
    · rfl

@[simp] theorem trapPointless_sameMem (s : State) (u : Nat) (core : Nat) (l : Launch) : (s.trapPointless u core l).mem = s.mem := by
  unfold State.trapPointless
  split <;> simp

@[simp] theorem askEntry_sameMem (s : State) (b : Block) (core : Nat) (w : Park × Entry) : (s.askEntry b core w).mem = s.mem := by
  simp [State.askEntry]

@[simp] theorem resumed_sameMem (s : State) (l : Launch) (u core : Nat) : (s.resumed l u core).mem = s.mem := by
  simp [State.resumed]

@[simp] theorem storeLost_sameMem (s : State) (part : Nat) (launch : Word) (va : Nat) : (s.storeLost part launch va).mem = s.mem := rfl

@[simp] theorem noteTurn_sameMem (s : State) (part vf level n : Nat) : (s.noteTurn part vf level n).mem = s.mem := by
  unfold State.noteTurn
  repeat' split
  all_goals simp

@[simp] theorem outOfService_sameMem (s : State) (part vf j va : Nat) : (s.outOfService part vf j va).mem = s.mem := rfl

@[simp] theorem acceptLaunch_sameMem (s : State) (part vf j : Nat) (r : BitVec 512) (args : List Word) (h : BitVec 1024) :
    (s.acceptLaunch part vf j r args h).mem = s.mem := rfl

theorem restoredOr_sameMem {s : State} (l : Launch) {r : State × Saving} (hr : r.1.mem = s.mem) : (s.restoredOr l r).mem = s.mem := by
  unfold State.restoredOr
  split
  · simp
  · exact hr

@[simp] theorem groupReady_sameMem (s : State) (l : Launch) (bs : List (Block × Nat)) : (s.groupReady l bs).1.mem = s.mem := by
  refine foldlPair_sameMem (fun r b => ?_) bs (s, true)
  grind [entriesAgain_sameMem, askEntry_sameMem, askResidencyFront_sameMem]

@[simp] theorem removeBlock_sameMem (s : State) (b : Block) : (s.removeBlock b).mem = s.mem := by
  simp only [State.removeBlock]
  repeat' split
  all_goals simp

@[simp] theorem dropCompact_sameMem (s : State) (c : Compact) : (s.dropCompact c).mem = s.mem := rfl

@[simp] theorem newest_sameMem (s : State) : (s.newest).mem = s.mem := rfl

@[simp] theorem beginSwitch_sameMem (s : State) (part vf j : Nat) : (s.beginSwitch part vf j).mem = s.mem :=
  foldl_sameMem (f := fun s n => s.closeNet n) (fun s n => closeNet_sameMem s n) _ _

@[simp] theorem dropWaits_sameMem (s : State) (u : Nat) : (s.dropWaits u).mem = s.mem := rfl

@[simp] theorem saveBlocks_sameMem (s : State) (part : Nat) : (s.saveBlocks part).mem = s.mem :=
  foldl_sameMem (by intros; exact removeBlock_sameMem ..) _ s

@[simp] theorem loseFunction_sameMem (s : State) (part vf va : Nat) : (s.loseFunction part vf va).mem = s.mem :=
  foldl_sameMem (by intros; rfl) _ _

@[simp] theorem areasOf_sameMem (nets : List Nat) (first : Option Word) : ∀ (ls : List Launch) (s : State), (State.areasOf nets first ls s).1.mem = s.mem
  | [], _ => rfl
  | l :: ls, s => by
    have again := areasOf_sameMem nets first ls
    grind [State.areasOf]

@[simp] theorem netsAwaitHost_sameMem (s : State) (part vf : Nat) (nets : List Nat) : (s.netsAwaitHost part vf nets).mem = s.mem :=
  foldl_sameMem (by intros; rfl) nets s

@[simp] theorem leaveCores_sameMem (s : State) (part vf : Nat) : (s.leaveCores part vf).mem = s.mem := by
  simp only [State.leaveCores]
  repeat' split
  all_goals simp

@[simp] theorem loadNet_sameMem (s : State) (part : Nat) (l : Launch) (n : Nat) : (s.loadNet part l n).mem = s.mem := by
  have hplain := plainRun_sameMem s (s.part part).firstCore (recAsid l.record) (recSave l.record + 256 + 96 * n) 96 .read
  simp only [State.loadNet]
  split
  · next h =>
    rw [h] at hplain
    dsimp only at hplain ⊢
    split <;> simp [hplain]
  · next h =>
    rw [h] at hplain
    simpa using hplain

@[simp] theorem loadNets_sameMem (s : State) (part vf : Nat) : (s.loadNets part vf).mem = s.mem := by
  simp only [State.loadNets]
  split
  · simp
  split
  · next l _ => exact foldl_sameMem (fun s n => loadNet_sameMem s part l n) _ s
  · exact foldl_sameMem (fun s n => openNet_sameMem s n) _ s

@[simp] theorem startSlice_sameMem (s : State) (part j : Nat) : (s.startSlice part j).mem = s.mem := by
  simp only [State.startSlice]
  repeat' split
  all_goals simp

@[simp] theorem accepted_sameMem (s : State) (part : Nat) : (s.accepted part).mem = s.mem := rfl

@[simp] theorem zeroNets_sameMem (s : State) (part : Nat) : (s.zeroNets part).mem = s.mem := foldl_sameMem (by intros; rfl) _ s

theorem writeParts_sameMem {f : State → Nat → List Byte → State} (hf : ∀ s off data, (f s off data).mem = s.mem) (s : State) (size off : Nat)
    (data : List Byte) : (s.writeParts size off data f).mem = s.mem := by
  unfold State.writeParts
  split
  · exact hf s off data
  · exact foldl_sameMem (by intros; exact hf ..) _ s

@[simp] theorem writePart_sameMem (part : Nat) (s : State) (off : Nat) (data : List Byte) : (State.writePart part s off data).mem = s.mem := by
  simp only [State.writePart]
  repeat' split
  all_goals simp

@[simp] theorem writeFunc_sameMem (part vf : Nat) (s : State) (off : Nat) (data : List Byte) : (State.writeFunc part vf s off data).mem = s.mem := by
  simp only [State.writeFunc]
  repeat' split
  all_goals simp

@[simp] theorem resultsLate_sameMem (s : State) (u ci : Nat) : (s.resultsLate u ci).mem = s.mem := by
  unfold State.resultsLate
  split <;> rfl

@[simp] theorem setReady_sameMem (s : State) : (s.setReady).mem = s.mem := rfl

@[simp] theorem issueState_sameMem (s : State) (u ci : Nat) (lab p : Word) : (s.issueState u ci lab p).mem = s.mem := rfl

@[simp] theorem opening_sameMem (s : State) (m : Move) : (s.opening m).mem = s.mem := by
  unfold State.opening
  split <;> rfl

@[simp] theorem watch_sameMem (s : State) (cyc : Nat) : (s.watch cyc).mem = s.mem := rfl

@[simp] theorem pass_sameMem (s : State) (cycles refs : Nat) : (s.pass cycles refs).mem = s.mem := by
  simp only [State.pass]
  repeat' split
  all_goals simp

@[simp] theorem inTurn_sameMem (s : State) (t : Turn) : (s.inTurn t).mem = s.mem := rfl

end Sys2Proof.Proofs
end

