-- ==== Sys2Proof/Proofs/HomeCanonical.lean ====
section
/-! What writes home memory leaves it in its canonical form (10_memory R152; 25_bringup R399 stage 5): every write is one of `writeHome`,
and each operation of the model, in the model's order, is a sequence of such writes and of moves that write nothing. -/

namespace Sys2Proof.Proofs

open Sys2Proof.Machine Sys2Proof.Laws

/-! ### Folds and moves that write nothing -/

theorem canonical_foldl {α : Type} {f : State → α → State} (hf : ∀ s x, KeepsCanonical s (f s x)) : ∀ (l : List α) (s : State),
    KeepsCanonical s (l.foldl f s)
  | [], s => keepsCanonical_refl s
  | x :: l, s => keepsCanonical_trans (hf s x) (canonical_foldl hf l (f s x))

theorem canonical_foldlPair {α β : Type} {f : State × β → α → State × β} (hf : ∀ r x, KeepsCanonical r.1 (f r x).1) : ∀ (l : List α) (r : State × β),
    KeepsCanonical r.1 (l.foldl f r).1
  | [], r => keepsCanonical_refl r.1
  | x :: l, r => keepsCanonical_trans (hf r x) (canonical_foldlPair hf l (f r x))

theorem writeHome_canonical (s : State) (slot : Nat) (cs : List Host.Cell) : KeepsCanonical s (s.writeHome slot cs) := memWf_memWrites

theorem putHome_canonical (s : State) (slot a n x : Nat) : KeepsCanonical s (s.putHome slot a n x) := memWf_memWrites

theorem payDenials_canonical (part fuel : Nat) (s : State) : KeepsCanonical s (State.payDenials part fuel s) := (payDenials_aside part fuel s).canonical

theorem payAllDenials_canonical (s : State) : KeepsCanonical s s.payAllDenials := (payAllDenials_aside s).canonical

theorem denial_canonical (s : State) (part vf : Nat) (va : Nat) (oid launch : Word) (r : Reader) (write tag : Bool) (sl : Nat) :
    KeepsCanonical s (s.denial part vf va oid launch r write tag sl) := by
  grind [State.denial, KeepsCanonical, modPart_mem, payDenials_canonical]

theorem writeThrough_canonical (s : State) (vf : Nat) (p : Piece) (bs : List Byte) : KeepsCanonical s (s.writeThrough vf p bs) :=
  (writeThrough_aside s vf p bs).canonical

theorem drainAt_canonical (s : State) (u k : Nat) : KeepsCanonical s (s.drainAt u k) := (drainAt_step s u k).canonical

theorem drainOver_canonical (u a n fuel : Nat) (s : State) : KeepsCanonical s (State.drainOver u a n fuel s) := (drainOver_step u a n fuel s).canonical

theorem drainRun_canonical (s : State) (u a n : Nat) : KeepsCanonical s (s.drainRun u a n) := (drainRun_step s u a n).canonical

theorem drainFirst_canonical (u : Nat) : ∀ (n : Nat) (s : State), KeepsCanonical s (State.drainFirst u n s)
  | 0, s => keepsCanonical_refl s
  | n + 1, s => keepsCanonical_trans (drainAt_canonical s u 0) (drainFirst_canonical u n _)

theorem cleanLine_canonical (s : State) (core line : Nat) (but : Option Nat) : KeepsCanonical s (s.cleanLine core line but) :=
  (cleanLine_step s core line but).canonical

theorem dropL1_canonical (s : State) (l : L1Line) : KeepsCanonical s (s.dropL1 l) := (dropL1_step s l).canonical

theorem l1Alloc_canonical (s : State) (e : L1Line) : KeepsCanonical s (s.l1Alloc e) := (l1Alloc_step s e).canonical

theorem l1Fill_canonical (s : State) (core a quad slot : Nat) (stamp : BitVec 16) (e : Filled) (h : Hint) :
    KeepsCanonical s (s.l1Fill core a quad slot stamp e h) := by
  grind [State.l1Fill, KeepsCanonical, l1Alloc_canonical]

theorem l1Store_canonical (s : State) (core line quad slot : Nat) (h : Hint) : KeepsCanonical s (s.l1Store core line quad slot h) :=
  (l1Store_step s core line quad slot h).canonical

theorem addEntry_canonical (s : State) (u : Nat) (e : Entry) (h : Hint) : KeepsCanonical s (s.addEntry u e h) := by
  grind [State.addEntry, KeepsCanonical, cleanLine_canonical, drainAt_canonical, l1Store_canonical, modBlock_mem]

theorem passCaches_canonical (s : State) (b : Block) (ci : Nat) (p : Piece) (need : List Nat) (home counted : Bool) (h : Hint) :
    KeepsCanonical s (s.passCaches b ci p need home counted h).1 := by
  grind [State.passCaches, KeepsCanonical, draw_sameMem, l1Fill_canonical, l2Access_sameMem, l2Lookup_sameMem, victimHit_sameMem]

theorem denyLane_canonical (s : State) (k : Ctx) (lane va : Nat) (write : Bool) (sl : Nat × Bool) : KeepsCanonical s (s.denyLane k lane va write sl) := by
  grind [State.denyLane, KeepsCanonical, denial_canonical]

theorem passQuarters_canonical (s : State) (k : Ctx) (home counted : Bool) (h : Hint) (ps : List Piece) :
    KeepsCanonical s (s.passQuarters k home counted h ps).1 := by
  refine canonical_foldlPair (fun r p => ?_) _ (s, [])
  split
  · exact keepsCanonical_refl r.1
  · exact passCaches_canonical _ _ _ _ _ _ _ _

theorem addEntries_canonical (s : State) (k : Ctx) (lane : Nat) (h : Hint) (ps : List (Piece × DWord)) : KeepsCanonical s (ps.foldl (fun s p =>
    if (s.denies k.b.part k.b.clr p.1).isSome then s else s.addEntry k.b.uid ⟨p.1, p.2, s.oidOf k lane, k.ci, lane, k.pc, 0, h⟩ h) s) := by
  refine canonical_foldl (fun s p => ?_) ps s
  split
  · exact keepsCanonical_refl s
  · exact addEntry_canonical _ _ _ _

theorem storePieces_canonical (s : State) (k : Ctx) (lane : Nat) (h : Hint) (ps : List (Piece × DWord)) :
    KeepsCanonical s (s.storePieces k lane h ps) := by
  have hadd := addEntries_canonical s k lane h ps
  simp only [State.storePieces]
  split
  · exact keepsCanonical_trans hadd (denyLane_canonical _ _ _ _ _ _)
  · exact hadd

theorem call_canonical (s : State) (k : Ctx) (lane : Nat) (l : Lane) (target ret : Word) : KeepsCanonical s (s.call k lane l target ret) := by
  grind [State.call, KeepsCanonical, checkGlobal_sameMem, failCheck_sameMem, modLane_mem, pass_sameMem, storePieces_canonical, trapAgain_sameMem]

theorem refill_canonical (s : State) (k : Ctx) (lane : Nat) (l : Lane) (ps : List Piece) : KeepsCanonical s (s.refill k lane l ps).1 := by
  grind [State.refill, KeepsCanonical, denyLane_canonical, passQuarters_canonical, readAll_sameMem, refillPicks_sameMem]

theorem ret_canonical (s : State) (k : Ctx) (lane : Nat) (l : Lane) : KeepsCanonical s (s.ret k lane l) := by
  grind [State.ret, KeepsCanonical, checkGlobal_sameMem, failCheck_sameMem, modLane_mem, pass_sameMem, refill_canonical, trapAgain_sameMem]

theorem performLoad_canonical (s : State) (k : Ctx) (o : Op) (z : Acc) (home : Bool) (h : Hint) (ps : List Piece) (d : Reg) (picks : List Nat) :
    KeepsCanonical s (s.performLoad k o z home h ps d picks) := by
  grind [State.performLoad, KeepsCanonical, denyLane_canonical, modCur_mem, passQuarters_canonical, readAll_sameMem]

theorem performDecode_canonical (s : State) (k : Ctx) (o : Op) (z : Acc) (home : Bool) (h : Hint) (va fmt : Nat) (code scale : Piece) (hi : Bool)
    (d : Reg) (picks : List Nat) :
    KeepsCanonical s (s.performDecode k o z home h va fmt code scale hi d picks) := by
  unfold State.performDecode
  grind [KeepsCanonical, denyLane_canonical, modCur_mem, passQuarters_canonical, readPiece_sameMem]

theorem performStore_canonical (s : State) (k : Ctx) (o : Op) (h : Hint) (ps : List (Piece × DWord)) : KeepsCanonical s (s.performStore k o h ps) := by
  grind [State.performStore, KeepsCanonical, storePieces_canonical]

theorem atomicAt_canonical (s : State) (k : Ctx) (lane : Nat) (z : Acc) (p : Place) (write : Bool) (f : DWord → Option DWord) :
    KeepsCanonical s (s.atomicAt k lane z p write f).1 := by
  unfold State.atomicAt
  grind [KeepsCanonical, denyLane_canonical, drainRun_canonical, freeBytes_sameMem, l2Read_sameMem, modLane_mem, scratchStore_sameMem,
    writeThrough_canonical]

theorem performAtom_canonical (s : State) (k : Ctx) (o : Op) (op : AtomOp) (z : Acc) (p : Place) (v : DWord) (d : Reg) :
    KeepsCanonical s (s.performAtom k o op z p v d) := by
  grind [State.performAtom, KeepsCanonical, atomicAt_canonical, modCur_mem]

theorem performCas_canonical (s : State) (k : Ctx) (o : Op) (z : Acc) (p : Place) (cmp new : DWord) (d : Reg) :
    KeepsCanonical s (s.performCas k o z p cmp new d) := by
  grind [State.performCas, KeepsCanonical, atomicAt_canonical, modCur_mem]

theorem performRed_canonical (s : State) (k : Ctx) (o : Op) (op : AtomOp) (z : Acc) (p : Place) (v : DWord) :
    KeepsCanonical s (s.performRed k o op z p v) := by
  unfold State.performRed
  grind [KeepsCanonical, atomicAt_canonical, modBlock_mem]

theorem performRedOf_canonical (s : State) (b : Block) (q : Posted) (op : AtomOp) (z : Acc) (p : Piece) (v : DWord) :
    KeepsCanonical s (s.performRedOf b q op z p v) := by
  grind [State.performRedOf, KeepsCanonical, denial_canonical, drainRun_canonical, l2Read_sameMem, modLane_mem, owesHost_sameMem, writeThrough_canonical]

theorem performPosted_canonical (s : State) (n : Nat) : KeepsCanonical s (s.performPosted n) := by
  unfold State.performPosted
  split
  · exact keepsCanonical_refl s
  · next q _ =>
    have hred := fun b op z p v => performRedOf_canonical { s with posted := s.posted.eraseIdx n } b q op z p v
    dsimp only
    split
    · split
      · exact keepsCanonical_trans (hred _ _ _ _ _) (keepsCanonical_of_mem rfl)
      · split
        · exact keepsCanonical_trans (hred _ _ _ _ _) (keepsCanonical_of_mem rfl)
        · exact keepsCanonical_of_mem rfl
    · exact keepsCanonical_of_mem rfl

theorem performPhase_canonical (s : State) (k : Ctx) (o : Op) (pub ref : Bool) (mark : Option Nat) :
    KeepsCanonical s (s.performPhase k o pub ref mark) := by
  grind [State.performPhase, KeepsCanonical, drainFirst_canonical, modCur_mem, refresh_sameMem]

theorem performWaitc_canonical (s : State) (k : Ctx) (o : Op) (cond : Cond) (z : Acc) (p : Piece) (rhs : DWord) :
    KeepsCanonical s (s.performWaitc k o cond z p rhs) := by
  grind [State.performWaitc, KeepsCanonical, denyLane_canonical, drainRun_canonical, l2Read_sameMem, modLane_mem, parkAfter_sameMem]

theorem operandRow_canonical (s : State) (u id side hnd : Nat) (h : Handle) (inc : Int) (row : Nat) (int : Bool) (cached ecc : List Nat) (stepNo : Nat) :
    KeepsCanonical s (s.operandRow u id side hnd h inc row int cached ecc stepNo).1 := by
  unfold State.operandRow
  split
  · exact keepsCanonical_refl s
  split
  · exact keepsCanonical_refl s
  next b _ _ m _ =>
  have hchunk := keepsCanonical_of_mem (handleChunk_sameMem s b m h inc stepNo row int)
  dsimp only
  split
  · exact hchunk
  · split
    · exact hchunk
    · exact keepsCanonical_trans hchunk (denial_canonical ((s.handleChunk b m h inc stepNo row int).1.modBlock u _) _ _ _ _ _ _ _ _ _)
  · exact keepsCanonical_trans hchunk (keepsCanonical_of_mem (operandFault_sameMem ..))
  · split
    · exact keepsCanonical_trans hchunk (keepsCanonical_of_mem (chosenVals_sameMem ..))
    · exact keepsCanonical_trans hchunk (keepsCanonical_of_mem (chosenVals_sameMem ..))

theorem operandRows_canonical (u id side hnd : Nat) (h : Handle) (inc : Int) (int : Bool) (cached ecc : List Nat) (stepNo : Nat) :
    ∀ (rs : List Nat) (s : State), KeepsCanonical s (State.operandRows u id side hnd h inc int cached ecc stepNo rs s).1
  | [], s => keepsCanonical_refl s
  | r :: rs, s => by
    have hrow := operandRow_canonical s u id side hnd h inc r int cached ecc stepNo
    have hrest := operandRows_canonical u id side hnd h inc int cached ecc stepNo rs
    grind [State.operandRows, KeepsCanonical]

theorem fetchRows_canonical (s : State) (b : Block) (hnd step : Nat) (h : Handle) (int : Bool) (off : Int) (rows : Nat) :
    KeepsCanonical s (s.fetchRows b hnd step h int off rows) := (fetchRows_aside s b hnd step h int off rows).canonical

theorem fetchAhead_canonical (s : State) (b : Block) (kind : MKind) (int : Bool) (n : Nat) : KeepsCanonical s (s.fetchAhead b kind int n) := by
  unfold State.fetchAhead
  grind [KeepsCanonical, fetchRows_canonical]

theorem beginMloop_canonical (s : State) (b : Block) (m : MCmd) (sh : Shape) (t : Nat) (ha hb : Handle) :
    KeepsCanonical s (s.beginMloop b m sh t ha hb) := by
  grind [State.beginMloop, KeepsCanonical, askResidency_sameMem, beginFormat_sameMem, fetchAhead_canonical, mRefuse_sameMem, modBlock_mem]

theorem fetch_canonical (s : State) (b : Block) (ci : Nat) (c : Crew) (n pick : Nat) : KeepsCanonical s (s.fetch b ci c n pick).1 := by
  have hrun : KeepsCanonical s (State.translateRun b.core (some c.quad) b.asid .exec 4 s (b.code + 128 * n) 128).1 :=
    keepsCanonical_of_mem (translateRun_sameMem ..)
  unfold State.fetch
  dsimp only
  split
  · next h => rw [h] at hrun; exact hrun
  · next h =>
    rw [h] at hrun
    exact keepsCanonical_trans hrun (keepsCanonical_of_mem (askResidency_sameMem ..))
  · next h =>
    rw [h] at hrun
    split
    · exact keepsCanonical_trans hrun (denial_canonical _ _ _ _ _ _ _ _ _ _)
    · exact keepsCanonical_trans hrun (keepsCanonical_of_mem (codeBytes_sameMem ..))

theorem prefetch_canonical (s : State) (u ci n time : Nat) : KeepsCanonical s (s.prefetch u ci n time) := by
  unfold State.prefetch
  split
  · exact keepsCanonical_refl s
  · next b c _ =>
    have hfetch := fetch_canonical s b ci c n time
    split
    · exact keepsCanonical_refl s
    split
    · exact keepsCanonical_refl s
    split
    · exact keepsCanonical_refl s
    split
    · next h => rw [h] at hfetch; exact hfetch
    · next h => rw [h] at hfetch; exact hfetch

theorem lineLoaded_canonical (s : State) (u ci : Nat) (l : Line) (k : Cont) (time : Nat) : KeepsCanonical s (s.lineLoaded u ci l k time) := by
  unfold State.lineLoaded
  split
  · exact keepsCanonical_trans (prefetch_canonical (s.modCrew u ci fun c => { c with line := some l }) u ci (l.idx + 1) time)
      (keepsCanonical_of_mem (lineReady_sameMem ..))
  · exact keepsCanonical_of_mem ((afterLineFault_sameMem ..).trans (lineFault_sameMem ..))

theorem copyDenied_canonical (s : State) (b : Block) (c : CCmd) (va : Nat) (write : Bool) (sl : Nat × Bool) :
    KeepsCanonical s (s.copyDenied b c va write sl) := by
  grind [State.copyDenied, KeepsCanonical, denial_canonical, modBlock_mem]

theorem engineWrite_canonical (s : State) (vf u : Nat) (p : Piece) (bs : List Byte) : KeepsCanonical s (s.engineWrite vf u p bs) := by
  grind [State.engineWrite, KeepsCanonical, owesHost_sameMem, writeThrough_canonical]

theorem addElements_canonical (s : State) (b : Block) (p : Piece) (t : Ty) (bs : List Byte) : KeepsCanonical s (s.addElements b p t bs) := by
  refine keepsCanonical_trans (keepsCanonical_trans ?_ (canonical_foldl (fun s j => writeThrough_canonical s _ _ _) _ _)) (keepsCanonical_of_mem
    (owesHost_sameMem ..))
  exact keepsCanonical_trans (drainRun_canonical s b.uid p.home p.size) (keepsCanonical_of_mem (l2Read_sameMem ..))

theorem readCopyPiece_canonical (s : State) (b : Block) (c : CCmd) (i p : Nat) (ecc : Bool) : KeepsCanonical s (s.readCopyPiece b c i p ecc) := by
  grind [State.readCopyPiece, KeepsCanonical, askResidency_sameMem, checkPiece_sameMem, copyDenied_canonical, copyFault_sameMem, engineRead_sameMem,
    land_sameMem, modBlock_mem, modCmd_sameMem]

theorem writeCopyPiece_canonical (s : State) (b : Block) (c : CCmd) (i p : Nat) : KeepsCanonical s (s.writeCopyPiece b c i p) := by
  grind [State.writeCopyPiece, KeepsCanonical, addElements_canonical, askResidency_sameMem, checkPiece_sameMem, copyDenied_canonical,
    copyFault_sameMem, engineWrite_canonical, modCmd_sameMem]

theorem scalePiece_canonical (s : State) (b : Block) (c : CCmd) (i j : Nat) (ecc : Bool) : KeepsCanonical s (s.scalePiece b c i j ecc) := by
  unfold State.scalePiece
  grind [KeepsCanonical, copyDenied_canonical, copyFault_sameMem, engineRead_sameMem, gather_mem, land_sameMem, lookup_sameMem, modBlock_mem,
    modCmd_sameMem]

theorem writeRun_canonical (s : State) (vf u : Nat) (ps : List Piece) (bs : List Byte) : KeepsCanonical s (s.writeRun vf u ps bs) :=
  canonical_foldlPair (by intros; exact engineWrite_canonical _ _ _ _ _) ps (s, bs)

theorem denyColl_canonical (s : State) (part vf : Nat) (va : Nat) (oid launch : Word) (core : Nat) (write : Bool) (sl : Nat × Bool) :
    KeepsCanonical s (s.denyColl part vf va oid launch core write sl) := by
  grind [State.denyColl, KeepsCanonical, denial_canonical]

theorem performXgrp_canonical (s : State) (k : Ctx) (o : Op) (g : Guard) (slot : BitVec 4) (len : Nat) (xs : List DWord) :
    KeepsCanonical s (s.performXgrp k o g slot len xs) := by
  unfold State.performXgrp
  extract_lets va fail read bad
  have hfail : ∀ t, KeepsCanonical t (fail t) := fun t => keepsCanonical_of_mem (trapTakers_sameMem ..)
  have hread : ∀ t n, KeepsCanonical t (read t n).1 := fun t n => keepsCanonical_of_mem (checkRun_sameMem ..)
  have hbad : ∀ r, KeepsCanonical r.1 (bad r) := fun r => by
    unfold bad
    split
    · exact keepsCanonical_of_mem (parkTakers_sameMem ..)
    · exact keepsCanonical_trans (denyColl_canonical _ _ _ _ _ _ _ _ _) (hfail _)
    · exact hfail _
  split
  · exact hfail s
  have hhead := hread s 32
  split
  · next s1 ps h =>
    rw [h] at hhead
    have hbytes := keepsCanonical_trans hhead (keepsCanonical_of_mem (readRun_sameMem s1 k.b.vf k.b.core ps))
    generalize s1.readRun k.b.vf k.b.core ps = r at hbytes ⊢
    dsimp only
    split
    · exact keepsCanonical_trans hbytes (hfail _)
    · next n _ =>
      have hrecord := keepsCanonical_trans hbytes (hread r.1 (32 + 16 * n))
      split
      · next h =>
        rw [h] at hrecord
        split
        · exact keepsCanonical_trans hrecord (keepsCanonical_of_mem (readRun_sameMem ..))
        · exact keepsCanonical_trans hrecord (keepsCanonical_trans (keepsCanonical_of_mem (readRun_sameMem ..)) (hfail _))
      · exact keepsCanonical_trans hrecord (hbad _)
  · exact keepsCanonical_trans hhead (hbad _)

theorem readContribution_canonical (s : State) (c : COp) (o n : Nat) : KeepsCanonical s (s.readContribution c o n).1 := by
  grind [State.readContribution, KeepsCanonical, checkRun_sameMem, collReport_sameMem, collWaits_sameMem, denyColl_canonical, readRun_sameMem]

theorem writeInbox_canonical (s : State) (c : COp) (o : Nat) (x : Sent) : KeepsCanonical s (s.writeInbox c o x).1 := by
  grind [State.writeInbox, KeepsCanonical, checkRun_sameMem, collWaits_sameMem, denyColl_canonical, modColl_sameMem, writeRun_canonical]

theorem memberBytes_canonical (s : State) (c : COp) (j o n : Nat) : KeepsCanonical s (s.memberBytes c j o n).1 := by
  grind [State.memberBytes, KeepsCanonical, readContribution_canonical, remoteBytes_sameMem]

theorem elementValues_canonical (c : COp) (o w : Nat) : ∀ (js : List Nat) (s : State), KeepsCanonical s (State.elementValues c o w js s).1
  | [], s => keepsCanonical_refl s
  | j :: js, s => by
    have hone := memberBytes_canonical s c j o w
    have hrest := elementValues_canonical c o w js
    grind [State.elementValues, KeepsCanonical]

theorem deliverPiece_canonical (s : State) (c : COp) (j p : Nat) : KeepsCanonical s (s.deliverPiece c j p) := by
  grind [State.deliverPiece, KeepsCanonical, memberBytes_canonical, modColl_sameMem, writeInbox_canonical]

theorem sendPiece_canonical (s : State) (c : COp) (j p : Nat) : KeepsCanonical s (s.sendPiece c j p) := by
  grind [State.sendPiece, KeepsCanonical, modColl_sameMem, readContribution_canonical]

theorem sysDeny_canonical (s : State) (k : Ctx) (lane : Nat) (write : Bool) (ps : List Piece) : KeepsCanonical s (s.sysDeny k lane write ps) := by
  grind [State.sysDeny, KeepsCanonical, denyLane_canonical]

theorem sysRead_canonical (s : State) (k : Ctx) (lane : Nat) (ps : List Piece) : KeepsCanonical s (s.sysRead k lane ps).1 := by
  refine keepsCanonical_trans (sysDeny_canonical s k lane false ps) (canonical_foldlPair (fun r p => ?_) ps (s.sysDeny k lane false ps, []))
  split
  · exact keepsCanonical_refl r.1
  · exact keepsCanonical_of_mem (engineRead_sameMem ..)

theorem sysWrite_canonical (s : State) (k : Ctx) (lane : Nat) (ps : List Piece) (bs : List Byte) : KeepsCanonical s (s.sysWrite k lane ps bs) := by
  refine keepsCanonical_trans (sysDeny_canonical s k lane true ps) (canonical_foldlPair (fun r p => ?_) ps (s.sysDeny k lane true ps, bs))
  dsimp only
  split
  · exact keepsCanonical_refl r.1
  · exact engineWrite_canonical _ _ _ _ _

theorem sysFetch_canonical (s : State) (k : Ctx) (o : Op) (g : Guard) (va n : Nat) : KeepsCanonical s (s.sysFetch k o g va n).1 := by
  grind [State.sysFetch, KeepsCanonical, sysRead_canonical, sysRun_sameMem]

theorem putTable_canonical (s : State) (ps : List (Nat × Nat)) (ds : List (BitVec 256)) : KeepsCanonical s (s.putTable ps ds) :=
  canonical_foldl (by intros; exact putHome_canonical _ _ _ _ _) _ s

theorem setTableSize_canonical (s : State) (asid n : Nat) : KeepsCanonical s (s.setTableSize asid n) := by
  grind [State.setTableSize, KeepsCanonical, putHome_canonical]

theorem performRsplit_canonical (s : State) (k : Ctx) (o : Op) (g : Guard) (one : Bool) (d : Reg) (xs : List DWord) :
    KeepsCanonical s (s.performRsplit k o g one d xs).1 := by
  have hfetch := sysFetch_canonical s k o g ((xs.drop 2).headD 0).toNat (if one then 32 else 64)
  have hdone := fun (t : State) w => keepsCanonical_of_mem (sysDone_sameMem t k o d w)
  unfold State.performRsplit
  dsimp only
  split
  · exact hdone s _
  split
  · exact hdone s _
  split
  · exact hdone s _
  split
  · next h => rw [h] at hfetch; exact hfetch
  · next t bs h =>
    rw [h] at hfetch
    refine keepsCanonical_trans hfetch ?_
    grind [KeepsCanonical, sysDone_sameMem, putTable_canonical, setTableSize_canonical, edited_sameMem]

theorem performRmerge_canonical (s : State) (k : Ctx) (o : Op) (d : Reg) (xs : List DWord) : KeepsCanonical s (s.performRmerge k o d xs).1 := by
  unfold State.performRmerge
  grind [KeepsCanonical, edited_sameMem, putTable_canonical, setTableSize_canonical, sysDone_sameMem]

theorem performRinval_canonical (s : State) (k : Ctx) (g : Guard) (all : Bool) (xs : List DWord) : KeepsCanonical s (s.performRinval k g all xs).1 := by
  grind [State.performRinval, KeepsCanonical, invalidate_sameMem, passImplicit_sameMem, payAllDenials_canonical]

theorem performNetsave_canonical (s : State) (k : Ctx) (o : Op) (i : Instr) (g : Guard) (d : Reg) (xs : List DWord) :
    KeepsCanonical s (s.performNetsave k o i g d xs).1 := by
  grind [State.performNetsave, KeepsCanonical, closeNet_sameMem, sysDone_sameMem, sysRun_sameMem, sysWrite_canonical, trapTakers_sameMem, waitWith_sameMem]

/-- A network that is closed and loaded once it is quiet writes nothing at home. -/
theorem netLoaded_sameMem (s : State) (k : Ctx) (o : Op) (i : Instr) (d : Reg) (n : Nat) (ws xs : List DWord) :
    (if ((s.closeNet n).net n).quiet then
        ((((s.closeNet n).modNet n fun x => x.ofRecord (ws.flatMap bytesOf)).openNet n).sysDone k o d [0])
      else (s.closeNet n).waitWith k o i xs).1.mem = s.mem := by
  split <;> simp

theorem performNetload_canonical (s : State) (k : Ctx) (o : Op) (i : Instr) (g : Guard) (d : Reg) (xs : List DWord) :
    KeepsCanonical s (s.performNetload k o i g d xs).1 := by
  have hfetch := sysFetch_canonical s k o g (xs.tail.headD 0).toNat 96
  unfold State.performNetload
  dsimp only
  split
  · exact keepsCanonical_of_mem (trapTakers_sameMem ..)
  split
  · split
    · next h => rw [h] at hfetch; exact hfetch
    · next h =>
      rw [h] at hfetch
      split
      · exact keepsCanonical_trans hfetch (keepsCanonical_of_mem (netLoaded_sameMem ..))
      · exact keepsCanonical_trans hfetch (keepsCanonical_of_mem (sysDone_sameMem ..))
  · exact keepsCanonical_of_mem (netLoaded_sameMem ..)

theorem ringFail_canonical {s : State} (s0 t : State) (k : Ctx) (o : Op) (d : Reg) (write : Bool) (h : Option DWord) (r : RunRes)
    (h0 : KeepsCanonical s s0) (ht : KeepsCanonical s t) : KeepsCanonical s (State.ringFail s0 t k o d write h r).1 := by
  unfold State.ringFail
  split
  · exact keepsCanonical_trans h0 (keepsCanonical_of_mem (askResidency_sameMem ..))
  · exact keepsCanonical_trans ht (keepsCanonical_trans (denyLane_canonical _ _ _ _ _ _) (keepsCanonical_of_mem (launchDone_sameMem ..)))
  · exact keepsCanonical_trans ht (keepsCanonical_of_mem (launchDone_sameMem ..))

theorem performLaunch_canonical (s : State) (k : Ctx) (o : Op) (g : Guard) (d : Reg) (xs : List DWord) :
    KeepsCanonical s (s.performLaunch k o g d xs).1 := by
  have hfetch := sysFetch_canonical s k o g (xs.tail.headD 0).toNat 64
  have hdone := fun (t : State) st h => keepsCanonical_of_mem (launchDone_sameMem t k o d st h)
  unfold State.performLaunch
  extract_lets s0 j l run
  have hrun : ∀ (t : State) va n kind, KeepsCanonical t (run t va n kind).1 := fun t va n kind => keepsCanonical_of_mem (checkRun_sameMem ..)
  split
  · exact hdone s _ _
  split
  · exact hdone s _ _
  split
  · next h => rw [h] at hfetch; exact hfetch
  · next s1 bs h =>
    rw [h] at hfetch
    have hring := hrun s1 (listRing l) 16 .read
    split
    · next s2 ps h =>
      rw [h] at hring
      have hread := keepsCanonical_of_mem (readRun_sameMem s2 k.b.vf k.b.core ps)
      generalize s2.readRun k.b.vf k.b.core ps = r at hread ⊢
      have hthere := keepsCanonical_trans hfetch (keepsCanonical_trans hring hread)
      have hslot := keepsCanonical_trans hthere (hrun r.1 (listSlot l (dwordOf (r.2.take 8)).toNat) 64 .write)
      dsimp only
      split
      · exact keepsCanonical_trans hthere (hdone _ _ _)
      split
      · next s3 rs h =>
        rw [h] at hslot
        have hhead := keepsCanonical_trans hslot (hrun s3 (listRing l) 8 .write)
        split
        · next h =>
          rw [h] at hhead
          exact keepsCanonical_trans hhead
            (keepsCanonical_trans (writeRun_canonical _ _ _ _ _) (keepsCanonical_trans (writeRun_canonical _ _ _ _ _) (hdone _ _ _)))
        · next h =>
          rw [h] at hhead
          exact ringFail_canonical _ _ _ _ _ _ _ _ (keepsCanonical_refl s) hhead
      · next h =>
        rw [h] at hslot
        exact ringFail_canonical _ _ _ _ _ _ _ _ (keepsCanonical_refl s) hslot
    · next h =>
      rw [h] at hring
      exact ringFail_canonical _ _ _ _ _ _ _ _ (keepsCanonical_refl s) (keepsCanonical_trans hfetch hring)

theorem performSealset_canonical (s : State) (k : Ctx) (o : Op) (g : Guard) (d : Reg) (xs : List DWord) :
    KeepsCanonical s (s.performSealset k o g d xs).1 := by
  grind [State.performSealset, KeepsCanonical, modPart_mem, sysDone_sameMem, sysFetch_canonical]

theorem dropWays_canonical (s : State) (core : Nat) (us : List Nat) : KeepsCanonical s (s.dropWays core us) := (dropWays_step s core us).canonical

theorem writeSections_canonical (core : Nat) (xs : List Section) (s : State) : KeepsCanonical s (State.writeSections core xs s).1 := by
  have hruns := keepsCanonical_of_mem (sectionRuns_sameMem core xs s)
  unfold State.writeSections
  split
  · next h => rw [h] at hruns; exact hruns
  · next h =>
    rw [h] at hruns
    exact keepsCanonical_trans hruns (canonical_foldl (by intros; exact writeRun_canonical _ _ _ _ _) _ _)

theorem restoreLines_canonical (s : State) (u : Nat) : KeepsCanonical s (s.restoreLines u) := (restoreLines_step s u).canonical

theorem readdBlock_canonical (s : State) (l : Launch) (b : Block) (core : Nat) (dealt : List (Nat × Nat × Nat)) :
    KeepsCanonical s (s.readdBlock l b core dealt).1 := by
  cases hpoint : s.pointWait core l b with
  | some p =>
    have hwait : s.readdBlock l b core dealt = (s.askResidencyFront l.part l.vf p.1 p.2, false) := by simp only [State.readdBlock, hpoint]
    rw [hwait]
    exact keepsCanonical_of_mem (askResidencyFront_sameMem ..)
  | none =>
    have hentries := keepsCanonical_of_mem (entriesAgain_sameMem b core b.storeBuf s)
    rcases h : State.entriesAgain b core b.storeBuf s with ⟨s1, r⟩
    cases r with
    | error w =>
      have hwait : s.readdBlock l b core dealt = (s1.askEntry b core w, false) := by simp only [State.readdBlock, hpoint, h]
      rw [h] at hentries
      rw [hwait]
      exact keepsCanonical_trans hentries (keepsCanonical_of_mem (askEntry_sameMem ..))
    | ok r =>
      obtain ⟨s3, now, us, b1, na, hdrain, -, hback⟩ := readdBlock_eq (d := dealt) hpoint h
      let s4 : State :=
        ({ s3 with blocks := s3.blocks ++ [b1], nextAge := na } : State).modLaunch l.id fun x => { x with saved := x.saved.filter (·.uid != b.uid) }
      rw [hback]
      exact keepsCanonical_trans hdrain.canonical (keepsCanonical_trans (restoreLines_canonical s4 b.uid) (restoreNotes_aside b1 core _ _
    ((s4.restoreLines b.uid).advanceStamps b.uid core)).canonical)

theorem noteRestored_canonical (s : State) (l : Launch) (core : Nat) : KeepsCanonical s (s.noteRestored l core).1 := by
  grind [State.noteRestored, KeepsCanonical, writeSections_canonical]

theorem frontDenial_canonical (s : State) (part vf va : Nat) (launch : Word) (write : Bool) (sl : Nat × Bool) :
    KeepsCanonical s (s.frontDenial part vf va launch write sl) := by
  grind [State.frontDenial, KeepsCanonical, denial_canonical]

theorem writeWord_canonical (s : State) (part vf : Nat) (r : BitVec 512) (launch : Word) (w : DWord) :
    KeepsCanonical s (s.writeWord part vf r launch w).1 := by
  grind [State.writeWord, KeepsCanonical, askResidencyFront_sameMem, checkRun_sameMem, frontDenial_canonical, storeLost_sameMem, writeRun_canonical]

theorem frontRead_canonical (s : State) (part vf asid clr va n : Nat) : KeepsCanonical s (s.frontRead part vf asid clr va n).1 := by
  grind [State.frontRead, KeepsCanonical, askResidencyFront_sameMem, checkRun_sameMem, frontDenial_canonical, readRun_sameMem]

theorem checkLaunch_canonical (s : State) (part vf : Nat) (r : BitVec 512) : KeepsCanonical s (s.checkLaunch part vf r).1 := by
  grind [State.checkLaunch, KeepsCanonical, frontRead_canonical]

theorem placeOn_canonical (s : State) (l : Launch) (core : Nat) (dealt : List (Nat × Nat × Nat)) : KeepsCanonical s (s.placeOn l core dealt) := by
  grind [State.placeOn, KeepsCanonical, advanceStamps_sameMem, dropWays_canonical, modLaunch_mem]

theorem refuseLaunch_canonical (s : State) (part vf : Nat) (r : BitVec 512) (why : Nat) : KeepsCanonical s (s.refuseLaunch part vf r why) := by
  grind [State.refuseLaunch, KeepsCanonical, writeWord_canonical]

theorem payWords_canonical (s : State) (part : Nat) : KeepsCanonical s (s.payWords part) := by
  refine canonical_foldl (fun s w => ?_) _ s
  have hword := writeWord_canonical s part w.vf w.record 0 w.word
  split
  · next h => rw [h] at hword; exact hword
  · next h => rw [h] at hword; exact hword

theorem advanceTail_canonical (s : State) (vf j : Nat) (t : DWord) (ts : List Piece) : KeepsCanonical s (s.advanceTail vf j t ts) := by
  grind [State.advanceTail, KeepsCanonical, modFunc_mem, writeRun_canonical]

theorem checkTaken_canonical (s : State) (part vf j : Nat) (r : BitVec 512) : KeepsCanonical s (s.checkTaken part vf j r) := by
  grind [State.checkTaken, KeepsCanonical, acceptLaunch_sameMem, checkLaunch_canonical, modFunc_mem, refuseLaunch_canonical]

theorem takeRecord_canonical (s : State) (part vf j : Nat) (l : BitVec 128) (t : DWord) (ts : List Piece) :
    KeepsCanonical s (s.takeRecord part vf j l t ts) := by
  grind [State.takeRecord, KeepsCanonical, advanceTail_canonical, askResidencyFront_sameMem, checkTaken_canonical, modFunc_mem, noteTurn_sameMem,
    plainRun_sameMem, readRun_sameMem, storeLost_sameMem]

theorem turnToList_canonical (s : State) (part vf j : Nat) : KeepsCanonical s (s.turnToList part vf j) := by
  grind [State.turnToList, KeepsCanonical, askResidencyFront_sameMem, modFunc_mem, outOfService_sameMem, plainRun_sameMem, readRun_sameMem,
    takeRecord_canonical]

theorem drainAll_canonical (s : State) (u : Nat) : KeepsCanonical s (s.drainAll u) := by
  grind [State.drainAll, KeepsCanonical, drainFirst_canonical]

theorem writeError_canonical (s : State) (b : Block) : KeepsCanonical s (s.writeError b).1 := by
  grind [State.writeError, KeepsCanonical, modLaunch_mem, writeSections_canonical]

theorem setRange_canonical {s t : State} (asid i : Nat) (old new : BitVec 256) : (s.setRange asid i old new = some t) → KeepsCanonical s t := by
  grind [State.setRange, KeepsCanonical, edited_sameMem, putHome_canonical]

theorem drainGranule_canonical (s : State) (part asid lo n : Nat) : KeepsCanonical s (s.drainGranule part asid lo n) := by
  refine canonical_foldl (fun s b => ?_) _ s
  split
  · refine canonical_foldl (fun s e => ?_) _ s
    split
    · exact drainRun_canonical _ _ _ _
    · exact keepsCanonical_refl s
  · exact keepsCanonical_refl s

theorem copyGranule_canonical {s t : State} (c : Compact) (d : BitVec 256) (g : Nat) : (s.copyGranule c d g = some t) → KeepsCanonical s t := by
  grind [State.copyGranule, KeepsCanonical, remap_sameMem, writeThrough_canonical]

theorem switchOut_canonical (s : State) (part vf : Nat) : KeepsCanonical s (s.switchOut part vf).1 := by
  grind [State.switchOut, KeepsCanonical, areasOf_sameMem, askResidencyFront_sameMem, leaveCores_sameMem, loseFunction_sameMem, modFunc_mem,
    saveBlocks_sameMem, writeSections_canonical]

theorem switchOn_canonical (s : State) (part vf j : Nat) : KeepsCanonical s (s.switchOn part vf j) := by
  grind [State.switchOn, KeepsCanonical, interrupt_mem, modPart_mem, startSlice_sameMem, switchOut_canonical]

theorem nextSlice_canonical (s : State) (part vf j : Nat) : KeepsCanonical s (s.nextSlice part vf j) := by
  grind [State.nextSlice, KeepsCanonical, beginSwitch_sameMem, modPart_mem, switchOn_canonical]

theorem drainBlocks_canonical (s : State) (mine : Block → Bool) : KeepsCanonical s (s.drainBlocks mine) :=
  canonical_foldl (by intros; exact drainAll_canonical _ _) _ s

theorem endWork_canonical (s : State) (part : Nat) : KeepsCanonical s (s.endWork part) := by
  grind [State.endWork, KeepsCanonical, cleanL2_sameMem, drainBlocks_canonical]

theorem apertureWrite_canonical (s : State) (a off : Nat) (data : List Byte) : KeepsCanonical s (s.apertureWrite a off data) := by
  grind [State.apertureWrite, KeepsCanonical, writeThrough_canonical]

theorem performEngine_canonical (s : State) (k : Ctx) (o : Op) (i : Instr) (xs : List DWord) (picks : List Nat) :
    KeepsCanonical s (s.performEngine k o i xs picks) := by
  unfold State.performEngine
  grind [KeepsCanonical, acceptM_sameMem, performCopy_sameMem, performCstat_sameMem, performMdesc_sameMem, performMfence_sameMem,
    performMloop_sameMem, performMread_sameMem, performMstatClr_sameMem, performMstatExp_sameMem, performMstatLog_sameMem, performMstat_sameMem,
    performXgrpEnd_sameMem, performXgrp_canonical, performXop_sameMem]

theorem performSystem_canonical (s : State) (k : Ctx) (o : Op) (i : Instr) (xs : List DWord) : KeepsCanonical s (s.performSystem k o i xs).1 := by
  unfold State.performSystem
  grind [KeepsCanonical, performCntcfg_sameMem, performLaunch_canonical, performNetdrain_sameMem, performNetload_canonical, performNetreset_sameMem,
    performNetsave_canonical, performRcompact_sameMem, performRinval_canonical, performRmerge_canonical, performRprobeS2_sameMem,
    performRprobe_sameMem, performRsplit_canonical, performSealset_canonical]

theorem performOp_canonical (s : State) (k : Ctx) (o : Op) (picks : List Nat) : KeepsCanonical s (s.performOp k o picks) := by
  grind [State.performOp, KeepsCanonical, arriveAt_sameMem, performAtom_canonical, performAwait_sameMem, performCas_canonical,
    performDecode_canonical, performEngine_canonical, performFence_sameMem, performLoad_canonical, performNetcnt_sameMem, performPhase_canonical,
    performRed_canonical, performSfence_sameMem, performSpLoad_sameMem, performSpStore_sameMem, performStore_canonical, performWaitc_canonical,
    scratchStore_sameMem]

theorem performEighth_canonical (s : State) (k : Ctx) (o : Op) (os : List Op) : KeepsCanonical s (s.performEighth k o os) := by
  unfold State.performEighth
  split
  · refine canonical_foldl (fun s o => ?_) os s
    split
    · exact performWaitc_canonical _ _ _ _ _ _ _
    · exact keepsCanonical_refl s
  · refine canonical_foldl (fun s o => ?_) os s
    split
    · exact keepsCanonical_of_mem (performAwait_sameMem ..)
    · exact keepsCanonical_refl s
  · exact keepsCanonical_of_mem (performBar_sameMem ..)
  · exact keepsCanonical_of_mem (performBarc_sameMem ..)
  · exact keepsCanonical_of_mem (performMwait_sameMem ..)
  · exact keepsCanonical_of_mem (performXwait_sameMem ..)
  · exact keepsCanonical_refl s

theorem sysWait_sameMem {s t : State} {u ci : Nat} {c : Crew} {w : OpKind} (h : s.sysWait u ci c w = some t) : t.mem = s.mem := by
  simp only [State.sysWait] at h
  split at h
  · obtain rfl := Option.some.inj h
    exact cleanHostTier_sameMem s
  · cases h

theorem performNext_canonical (s : State) (u ci n : Nat) (c : Crew) (o : Op) (k : Ctx) (picks : List Nat) :
    KeepsCanonical s (s.performNext u ci n c o k picks) := by
  have hop : KeepsCanonical s ((s.unqueue u ci n).performOp k o picks) := performOp_canonical (s.unqueue u ci n) k o picks
  unfold State.performNext
  split
  · exact keepsCanonical_refl s
  split
  · next h => exact keepsCanonical_of_mem (sysWait_sameMem h)
  split
  · exact performEighth_canonical (s.unqueueEighth u ci o) k o _
  split
  · next i xs _ =>
    have hsys := performSystem_canonical s k o i xs
    split
    · split
      · next h => rw [h] at hsys; exact hsys
      · next h => rw [h] at hsys; exact hsys
    · exact hop
  · exact hop
  · exact hop

end Sys2Proof.Proofs
end

