-- ==== Sys2Proof/Proofs/CanonicalIssue.lean ====
section
/-! An instruction that issues leaves home memory in its canonical form (10_memory R152): what every instruction does as it issues writes no
memory, so that only its own effect is to be looked at. -/

namespace Sys2Proof.Proofs

open Sys2Proof.Machine Sys2Proof.Laws

/-- An outcome from a state: where it goes on, home memory is canonical if it was before. -/
def StaysCanonical (s : State) (o : Host.Outcome State Fault Refusal) : Prop := ∀ t, o = .next t → KeepsCanonical s t

theorem stays_next {s t : State} (h : KeepsCanonical s t) : StaysCanonical s (.next t) := by
  rintro u ⟨⟩
  exact h

theorem stays_self {s : State} : StaysCanonical s (.next s) := stays_next (keepsCanonical_refl s)

theorem stays_of_mem {s t : State} (h : t.mem = s.mem) : StaysCanonical s (.next t) := stays_next (keepsCanonical_of_mem h)

/-- What holds of an outcome from a state holds of it from every state with the same home memory. -/
theorem StaysCanonical.of_mem {s t : State} {o : Host.Outcome State Fault Refusal} (ho : StaysCanonical t o) (h : t.mem = s.mem) :
    StaysCanonical s o := fun u hu => keepsCanonical_trans (keepsCanonical_of_mem h) (ho u hu)

theorem canonical_forLanes {f : State → Nat → Lane → State} (hf : ∀ s n l, KeepsCanonical s (f s n l)) (s : State) (ls : List (Nat × Lane)) :
    KeepsCanonical s (s.forLanes ls f) := canonical_foldl (fun s (p : Nat × Lane) => hf s p.1 p.2) ls s

/-! ### The shared forms of issue -/

theorem issue_canonical {i : Instr} {f : Ctx → State → State} {s : State} (hf : ∀ k s, KeepsCanonical s (f k s)) :
    StaysCanonical s (issue i f s) := by
  unfold issue
  split
  · exact stays_self
  · next k _ =>
    split
    · exact stays_of_mem (trapActive_sameMem (s.noteIssue k i) k .illegal)
    split
    · exact stays_of_mem (trapActive_sameMem (s.noteIssue k i) k .privilege)
    · have hown : KeepsCanonical s (f k (s.begun k i)) := hf k (s.begun k i)
      exact stays_next (keepsCanonical_trans hown (keepsCanonical_of_mem (countIssue_sameMem ..)))

theorem issue_sameMem_canonical {i : Instr} {f : Ctx → State → State} {s : State} (hf : ∀ k s, (f k s).mem = s.mem) :
    StaysCanonical s (issue i f s) := issue_canonical fun k s => keepsCanonical_of_mem (hf k s)

theorem issue_once_canonical {i : Instr} {g : Guard} {f : Ctx → State → State} {s : State} (hf : ∀ k s, (f k s).mem = s.mem) :
    StaysCanonical s (issue i (once g f) s) := issue_sameMem_canonical (once_sameMem hf g)

theorem issueAlu_canonical {i : Instr} {w64 : Bool} {d : Reg} {val : Crew → Lane → Val} {s : State} :
    StaysCanonical s (issueAlu i w64 d val s) := issue_sameMem_canonical fun _ _ => rfl

theorem issueLanes_canonical {i : Instr} {ls : Crew → List (Nat × Lane)} {f : Ctx → State → Nat → Lane → State} {s : State}
    (hf : ∀ k s n l, (f k s n l).mem = s.mem) : StaysCanonical s (issueLanes i ls f s) :=
  issue_sameMem_canonical fun k s => forLanes_sameMem (hf k) s (ls k.c)

theorem issueLanes_keeps {i : Instr} {ls : Crew → List (Nat × Lane)} {f : Ctx → State → Nat → Lane → State} {s : State}
    (hf : ∀ k s n l, KeepsCanonical s (f k s n l)) : StaysCanonical s (issueLanes i ls f s) :=
  issue_canonical fun k s => canonical_forLanes (hf k) s (ls k.c)

theorem issueOnce_canonical {i : Instr} {ls : Crew → List (Nat × Lane)} {f : Ctx → State → Nat → Lane → State} {s : State}
    (hf : ∀ k s n l, (f k s n l).mem = s.mem) : StaysCanonical s (issueOnce i ls f s) :=
  issue_sameMem_canonical fun k s => forLanes_sameMem (hf k) s (ls k.c)

theorem trapWith_canonical {i : Instr} {cause : Cause} {x : Word} {s : State} : StaysCanonical s (trapWith i cause x s) :=
  issue_sameMem_canonical fun _ s => forLanes_sameMem (fun _ _ _ => trapLane_sameMem ..) s _

theorem issueEngine_canonical {i : Instr} {implicit : Bool} {vals : Crew → Lane → List DWord} {s : State} :
    StaysCanonical s (issueEngine i implicit vals s) := by
  refine issue_sameMem_canonical fun k s => ?_
  split
  · rfl
  · exact ite_sameMem (noteOpen_sameMem ..) (noteOpen_sameMem ..)

theorem issuePhase_canonical {i : Instr} {pub ref : Bool} {s : State} : StaysCanonical s (issuePhase i pub ref s) :=
  issue_sameMem_canonical fun _ _ => ite_sameMem rfl (pushOnce_sameMem ..)

theorem issueCopy_canonical {i : Instr} {pd pa : Bool} {d a b c : Reg} {s : State} : StaysCanonical s (issueCopy i pd pa d a b c s) := by
  refine issueOnce_canonical fun k s n l => ?_
  extract_lets xs
  split
  split
  · exact trapAgain_sameMem ..
  · rfl

theorem issueVerdict_canonical {i : Instr} {v : Verdict} {s : State} : StaysCanonical s (issueVerdict i v s) :=
  issue_sameMem_canonical fun _ s => forLanes_sameMem (fun _ _ _ => passVerdict_sameMem ..) s _

/-! ### Control and code lines -/

theorem execDone_canonical {g : Guard} {s : State} : StaysCanonical s (execDone g s) :=
  issue_sameMem_canonical fun _ _ => (settle_sameMem ..).trans (forLanes_sameMem (fun _ _ _ => passVerdict_sameMem ..) _ _)

theorem execPrefiIc_canonical {g : Guard} {n : Reg} {line : BitVec 28} {s : State} : StaysCanonical s (execPrefiIc g n line s) :=
  issue_once_canonical fun _ s => foldl_sameMem (fun _ _ => requestLine_sameMem ..) _ s

theorem execPrefiL2_canonical {g : Guard} {n : Reg} {line : BitVec 28} {s : State} : StaysCanonical s (execPrefiL2 g n line s) := by
  refine issue_once_canonical fun k s => foldl_sameMem (fun s i => ?_) _ s
  split
  · exact ite_sameMem rfl (l2Read_sameMem ..)
  · rfl

theorem execPini_canonical {g : Guard} {n : Reg} {line : BitVec 28} {s : State} : StaysCanonical s (execPini g n line s) :=
  issue_once_canonical fun _ s => foldl_sameMem (fun _ _ => pinLine_sameMem ..) _ s

theorem execUnpini_canonical {g : Guard} {n : Reg} {line : BitVec 28} {s : State} : StaysCanonical s (execUnpini g n line s) :=
  issue_once_canonical fun _ _ => rfl

/-- A call may store a label to its lane's link area. -/
theorem execCall_canonical {g : Guard} {w : BitVec 16} {l : Word} {s : State} : StaysCanonical s (execCall g w l s) :=
  issue_canonical fun k s => canonical_forLanes (fun s n x => call_canonical s k n x l _) s _

theorem execCallx_canonical {g : Guard} {r : Reg} {l : Word} {s : State} : StaysCanonical s (execCallx g r l s) :=
  issue_canonical fun k s => canonical_forLanes (fun s n x => call_canonical s k n x _ l) s _

theorem execRet_canonical {g : Guard} {s : State} : StaysCanonical s (execRet g s) :=
  issue_canonical fun k s => canonical_forLanes (fun s n x => ret_canonical s k n x) s _

theorem execGot_canonical {g : Guard} {r : Reg} {tbl : Word} {n w : BitVec 16} {s : State} : StaysCanonical s (execGot g r tbl n w s) := by
  refine issue_canonical fun k s => canonical_forLanes (fun s i l => ?_) s _
  grind [KeepsCanonical, translate_passed, trapAgain_sameMem, askResidency_sameMem, parkAgain_mem, modLane_mem, denial_canonical,
    passCaches_canonical]

/-! ### Memory instructions -/

theorem execLd_canonical {g : Guard} {z : Acc} {h : Hint} {home : Bool} {d : Reg} {m : Mem} {s : State} :
    StaysCanonical s (execLd g z h home d m s) := issueLanes_canonical fun _ _ _ _ => loadLane_sameMem ..

theorem execSt_canonical {g : Guard} {z : Acc} {h : Hint} {d : Reg} {m : Mem} {s : State} : StaysCanonical s (execSt g z h d m s) :=
  issueLanes_canonical fun _ _ _ _ => storeLane_sameMem ..

theorem execLds_canonical {g : Guard} {z : Acc} {d : Reg} {m : Mem} {s : State} : StaysCanonical s (execLds g z d m s) :=
  issueLanes_canonical fun _ _ _ _ => orTrap_sameMem ..

theorem execSts_canonical {g : Guard} {z : Acc} {d : Reg} {m : Mem} {s : State} : StaysCanonical s (execSts g z d m s) :=
  issueLanes_canonical fun _ _ _ _ => orTrap_sameMem ..

theorem execLdp_canonical {g : Guard} {z : Acc} {d : Reg} {m : Mem} {s : State} : StaysCanonical s (execLdp g z d m s) :=
  issueLanes_canonical fun _ _ _ _ => orTrap_sameMem ..

theorem execStp_canonical {g : Guard} {z : Acc} {d : Reg} {m : Mem} {s : State} : StaysCanonical s (execStp g z d m s) :=
  issueLanes_canonical fun _ _ _ _ => orTrap_sameMem ..

theorem execLdl_canonical {g : Guard} {z : Acc} {h : Hint} {d : Reg} {m : Mem} {s : State} : StaysCanonical s (execLdl g z h d m s) :=
  issueLanes_canonical fun _ _ _ _ => ite_sameMem (trapAgain_sameMem ..) (loadLane_sameMem ..)

theorem execStl_canonical {g : Guard} {z : Acc} {h : Hint} {d : Reg} {m : Mem} {s : State} : StaysCanonical s (execStl g z h d m s) :=
  issueLanes_canonical fun _ _ _ _ => ite_sameMem (trapAgain_sameMem ..) (storeLane_sameMem ..)

theorem execAtom_canonical {g : Guard} {op : AtomOp} {z : Acc} {spc : ASpace} {d : Reg} {m : Mem} {s : State} :
    StaysCanonical s (execAtom g op z spc d m s) := issueOnce_canonical fun _ _ _ _ => atomLane_sameMem ..

theorem execCas_canonical {g : Guard} {z : Acc} {spc : ASpace} {d : Reg} {m : Mem} {s : State} :
    StaysCanonical s (execCas g z spc d m s) := issueOnce_canonical fun _ _ _ _ => atomLane_sameMem ..

theorem execRed_canonical {g : Guard} {op : AtomOp} {z : Acc} {spc : ASpace} {d : Reg} {m : Mem} {s : State} :
    StaysCanonical s (execRed g op z spc d m s) := issueOnce_canonical fun _ _ _ _ => atomLane_sameMem ..

/-- PREF may push dirty bytes home out of a cache that its line enters. -/
theorem execPref_canonical {g : Guard} {l2 : Bool} {h : Hint} {m : Mem} {s : State} : StaysCanonical s (execPref g l2 h m s) := by
  refine issueLanes_keeps fun k s i l => ?_
  grind [KeepsCanonical, translate_passed, l2Access_sameMem, l1Fill_canonical]

/-! ### Ordering, barriers and arrival words -/

theorem execFence_canonical {g : Guard} {sc : Scope} {s : State} : StaysCanonical s (execFence g sc s) :=
  issue_sameMem_canonical fun _ _ => pushOnce_sameMem ..

theorem execSfence_canonical {g : Guard} {a b : Reg} {s : State} : StaysCanonical s (execSfence g a b s) := by
  refine issue_sameMem_canonical fun k s => ?_
  split <;> rfl

theorem execWaitc_canonical {g : Guard} {cond : Cond} {z : Acc} {d : Reg} {m : Mem} {s : State} :
    StaysCanonical s (execWaitc g cond z d m s) := by
  refine issueOnce_canonical fun k s n l => ?_
  grind [trapAgain_sameMem, checkGlobal_passed, failCheck_sameMem, push_mem]

theorem execBar_canonical {s : State} : StaysCanonical s (execBar s) := issueOnce_canonical fun _ _ _ _ => rfl

theorem execBarc_canonical {s : State} : StaysCanonical s (execBarc s) := issueOnce_canonical fun _ _ _ _ => rfl

theorem execAwinit_canonical {g : Guard} {d : Reg} {m : Mem} {s : State} : StaysCanonical s (execAwinit g d m s) :=
  issueOnce_canonical fun _ _ _ _ => arrivalLane_sameMem ..

theorem execArrive_canonical {g : Guard} {d : Reg} {m : Mem} {s : State} : StaysCanonical s (execArrive g d m s) :=
  issueOnce_canonical fun _ _ _ _ => arrivalLane_sameMem ..

theorem execAwait_canonical {g : Guard} {d : Reg} {m : Mem} {s : State} : StaysCanonical s (execAwait g d m s) :=
  issueLanes_canonical fun _ _ _ _ => arrivalLane_sameMem ..

/-! ### Crews and networks -/

theorem execBallot_canonical {g : Guard} {d : Reg} {q : BitVec 3} {s : State} : StaysCanonical s (execBallot g d q s) :=
  issue_once_canonical fun _ _ => rfl

theorem execIsect_canonical {g : Guard} {t : Ty} {q : BitVec 3} {d a b sc : Reg} {s : State} : StaysCanonical s (execIsect g t q d a b sc s) :=
  issue_once_canonical fun _ _ => rfl

theorem execTake_canonical {g : Guard} {w32 : Bool} {d a q : Reg} {s : State} : StaysCanonical s (execTake g w32 d a q s) :=
  issueOnce_canonical fun _ _ _ _ => ite_sameMem (trapAgain_sameMem ..) (ite_sameMem rfl rfl)

theorem execNetcnt_canonical {g : Guard} {d a : Reg} {s : State} : StaysCanonical s (execNetcnt g d a s) := by
  refine issue_sameMem_canonical fun k s => ?_
  split
  · rfl
  · exact ite_sameMem (forLanes_sameMem (fun _ _ _ => trapAgain_sameMem ..) s _)
      (ite_sameMem rfl (forLanes_sameMem (by intros; rfl) s _))

theorem execMwait_canonical {g : Guard} {all : Bool} {t : BitVec 3} {s : State} : StaysCanonical s (execMwait g all t s) :=
  issueLanes_canonical fun _ _ _ _ => rfl

theorem execMread_canonical {g : Guard} {i64 : Bool} {t : BitVec 3} {d a b : Reg} {s : State} :
    StaysCanonical s (execMread g i64 t d a b s) := issueLanes_canonical fun _ _ _ _ => rfl

theorem execXwait_canonical {g : Guard} {slot : BitVec 4} {s : State} : StaysCanonical s (execXwait g slot s) :=
  issueLanes_canonical fun _ _ _ _ => rfl

/-! ### Handlers -/

theorem execHput_canonical {g : Guard} {r a : Reg} {s : State} : StaysCanonical s (execHput g r a s) := by
  refine issue_sameMem_canonical fun k s => forLanes_sameMem (fun s n l => ?_) s _
  split
  · rfl
  · rfl

end Sys2Proof.Proofs
end

