-- ==== Sys2Proof/Proofs/CanonicalSteps.lean ====
section
/-! Every event and so every step leaves home memory in its canonical form (10_memory R152; 11_ordering R156): the events in the model's
order, then `exec`, a move, and the step. -/

namespace Sys2Proof.Proofs

open Sys2Proof.Machine Sys2Proof.Laws

/-! ### Networks, crews and the sequencer -/

theorem execTokenNumberReturn_canonical {n : Nat} {hops : List Nat} {tok : Nat} {s : State} :
    StaysCanonical s (execTokenNumberReturn n hops tok s) := by
  unfold execTokenNumberReturn
  split
  · exact stays_self
  extract_lets moved
  have hmoved : moved.mem = s.mem := rfl
  clear_value moved
  split
  · exact stays_of_mem hmoved
  extract_lets count number came
  have hcame : came.mem = s.mem := hmoved
  clear_value came
  have hquiet (t : State) (ht : t.mem = came.mem) : StaysCanonical s (.next (t.netQuiet n)) :=
    stays_of_mem ((netQuiet_sameMem t n).trans (ht.trans hcame))
  split
  · exact hquiet came rfl
  split
  · extract_lets lane unqueued
    split
    · exact hquiet _ rfl
    · exact hquiet _ (count_sameMem ..)
  · exact hquiet came rfl

theorem execNetworkDrained_canonical {n : Nat} {s : State} : StaysCanonical s (execNetworkDrained n s) :=
  stays_of_mem (ite_sameMem (netQuiet_sameMem ..) rfl)

theorem execRegroupPair_canonical {u c c2 : Nat} {s : State} : StaysCanonical s (execRegroupPair u c c2 s) := by
  unfold execRegroupPair
  split
  · exact stays_self
  split
  · split
    · exact stays_of_mem (settle_sameMem ..)
    · exact stays_self
  · exact stays_self

theorem execRegroupTimeout_canonical {u c : Nat} {s : State} : StaysCanonical s (execRegroupTimeout u c s) := by
  unfold execRegroupTimeout
  split
  · split
    · exact stays_of_mem (ite_sameMem rfl rfl)
    · exact stays_self
  · exact stays_self

theorem census_sameMem {u ci : Nat} {lo : Option Word} {s t : State} (h : t.mem = s.mem) :
    (State.takeCensus u ci censusFuel lo t).mem = s.mem := (takeCensus_sameMem u ci censusFuel lo t).trans h

theorem execSpanCensus_canonical {u ci : Nat} {s : State} : StaysCanonical s (execSpanCensus u ci s) := by
  unfold execSpanCensus
  split
  · exact stays_self
  · next b c _ =>
    split
    · exact stays_self
    generalize c.seq = q
    cases q with
    | census lo =>
      cases lo with
      | none =>
        change StaysCanonical s (ite ..)
        split
        · exact stays_of_mem (census_sameMem rfl)
        · exact stays_of_mem (loopTop_sameMem s u ci)
      | some l => exact stays_of_mem (census_sameMem rfl)
    | visit lab pc =>
      change StaysCanonical s (ite ..)
      split
      · exact stays_of_mem (census_sameMem (endVisit_sameMem s u ci pc))
      · exact stays_self
    | asleep => exact stays_of_mem (settleCrew_sameMem ..)
    | shell => exact stays_of_mem (settleCrew_sameMem ..)
    | retired => exact stays_self
    | load n k => exact stays_self

theorem execFetchLineLoad_canonical {u ci time : Nat} {s : State} : StaysCanonical s (execFetchLineLoad u ci time s) := by
  unfold execFetchLineLoad
  split
  · exact stays_self
  · next b c _ =>
    dsimp only
    split
    · split
      · exact stays_of_mem (askLine_sameMem ..)
      · exact stays_self
    · next n k _ =>
      have hfetch := fetch_canonical s b ci c n time
      split
      · exact stays_self
      split
      · exact stays_of_mem (lineReady_sameMem ..)
      · exact stays_next (lineLoaded_canonical s u ci _ k time)
      · rcases h : s.fetch b ci c n time with ⟨t, r⟩
        rw [h] at hfetch
        cases r with
        | line l => exact stays_next (keepsCanonical_trans hfetch (lineLoaded_canonical t u ci l k time))
        | fault e =>
          have hfault : ((t.lineFault u ci n e).afterLineFault u ci k).mem = t.mem := (afterLineFault_sameMem _ u ci k).trans (lineFault_sameMem ..)
          exact stays_next (keepsCanonical_trans hfetch (keepsCanonical_of_mem hfault))
        | wait w => exact stays_next hfetch

theorem execLaneUnpark_canonical {u ci l : Nat} {s : State} : StaysCanonical s (execLaneUnpark u ci l s) := by
  unfold execLaneUnpark
  split
  · exact stays_of_mem (ite_sameMem (endWait_sameMem ..) rfl)
  · exact stays_self

theorem execWaitcPoll_canonical {u ci l : Nat} {s : State} : StaysCanonical s (execWaitcPoll u ci l s) := by
  unfold execWaitcPoll
  split
  · exact stays_of_mem (ite_sameMem (endWait_sameMem ..) rfl)
  · exact stays_self

theorem execCrewPromote_canonical {u ci : Nat} {s : State} : StaysCanonical s (execCrewPromote u ci s) := by
  unfold execCrewPromote
  split
  · exact stays_self
  · exact stays_of_mem (ite_sameMem rfl rfl)

theorem execLocalityScoreDecay_canonical {core : Nat} {s : State} : StaysCanonical s (execLocalityScoreDecay core s) :=
  stays_of_mem (halve_sameMem ..)

/-! ### Memory operations -/

theorem execOperationPerform_canonical {u ci n : Nat} {posted : Bool} {picks : List Nat} {s : State} :
    StaysCanonical s (execOperationPerform u ci n posted picks s) := by
  unfold execOperationPerform
  split
  · split
    · exact stays_next (performPosted_canonical s n)
    · exact stays_self
  split
  · exact stays_self
  split
  · exact stays_self
  split
  · exact stays_self
  · next k _ =>
    split
    · exact stays_next (keepsCanonical_trans (keepsCanonical_of_mem (resultsLate_sameMem ..)) (performNext_canonical _ u ci n _ _ k picks))
    · exact stays_self

theorem execDrain_canonical {u k : Nat} {s : State} : StaysCanonical s (execDrain u k s) := by
  unfold execDrain
  split
  · split
    · exact stays_next (drainAt_canonical s u k)
    · exact stays_self
  · exact stays_self

/-! ### The engines -/

theorem execMatrixCmdExecute_canonical {u : Nat} {s : State} : StaysCanonical s (execMatrixCmdExecute u s) := by
  unfold execMatrixCmdExecute
  grind [stays_of_mem, stays_next, mDone_sameMem, modBlock_mem, mRefuse_sameMem, beginMloop_canonical]

theorem execMatrixKstep_canonical {u : Nat} {cached ecc : List Nat} {s : State} : StaysCanonical s (execMatrixKstep u cached ecc s) := by
  unfold execMatrixKstep
  grind [StaysCanonical, KeepsCanonical, operandRows_canonical, askResidency_sameMem, modBlock_mem, count_sameMem, mDone_sameMem,
    fetchAhead_canonical]

theorem execCopyPiece_canonical {u n i p : Nat} {ecc : Bool} {s : State} : StaysCanonical s (execCopyPiece u n i p ecc s) := by
  unfold execCopyPiece
  grind [stays_of_mem, stays_next, keepsCanonical_refl, scalePiece_canonical, readCopyPiece_canonical, writeCopyPiece_canonical,
    land_sameMem, modCmd_sameMem]

theorem execCopyMarker_canonical {u n : Nat} {s : State} : StaysCanonical s (execCopyMarker u n s) := by
  unfold execCopyMarker
  grind [stays_of_mem, draw_sameMem, arriveAt_sameMem, modCmd_sameMem, modBlock_mem, settleCrews_sameMem]

theorem writeInbox_wrote {s t : State} {c : COp} {o : Nat} {x : Sent} {wrote : Bool} (h : s.writeInbox c o x = (t, wrote)) :
    KeepsCanonical s t := by
  have hwrote := writeInbox_canonical s c o x
  rwa [h] at hwrote

theorem execCollectiveDeliver_canonical {op m : Nat} {order : List Nat} {s : State} : StaysCanonical s (execCollectiveDeliver op m order s) := by
  unfold execCollectiveDeliver
  split
  · exact stays_self
  · next c _ =>
    split
    · exact stays_self
    split
    · exact stays_next (canonical_foldl (fun s p => sendPiece_canonical s c _ p) order s)
    split
    · exact stays_next (canonical_foldl (fun s p => deliverPiece_canonical s c m p) order s)
    · exact stays_next (canonical_foldl (fun s p => deliverPiece_canonical s c m p) order s)
    · extract_lets w
      split
      · exact stays_self
      have hvalues := elementValues_canonical c (c.group.self * c.c + m * w) w (List.range c.n) s
      rcases h : State.elementValues c (c.group.self * c.c + m * w) w (List.range c.n) s with ⟨t, vs⟩
      rw [h] at hvalues
      cases vs with
      | none => exact stays_next hvalues
      | some vs =>
        dsimp only
        split
        · next u h =>
          have hwrote : KeepsCanonical t u := writeInbox_wrote h
          exact stays_next (keepsCanonical_trans hvalues hwrote)
        · next h => exact stays_next (keepsCanonical_trans hvalues (writeInbox_wrote h))
    · exact stays_self

theorem execCollectiveOpComplete_canonical {op m : Nat} {s : State} : StaysCanonical s (execCollectiveOpComplete op m s) := by
  unfold execCollectiveOpComplete
  split
  · exact stays_self
  split
  · exact stays_self
  extract_lets bad
  split
  · next reported _ =>
    have hreported : reported.mem = s.mem := foldl_sameMem (fun s x => collReport_sameMem s x 0) bad s
    exact stays_of_mem ((dropColls_sameMem ..).trans ((foldl_sameMem (by intros; rfl) _ reported).trans hreported))
  split
  · exact stays_of_mem (dropColls_sameMem ..)
  · exact stays_self

theorem execCollectiveTimeout_canonical {u ci l : Nat} {s : State} : StaysCanonical s (execCollectiveTimeout u ci l s) := by
  unfold execCollectiveTimeout
  grind [stays_of_mem, settleCrew_sameMem, trapLane_sameMem, modLane_mem]

theorem execCollectiveFallback_canonical {op : Nat} {s : State} : StaysCanonical s (execCollectiveFallback op s) := by
  unfold execCollectiveFallback
  split
  · exact stays_self
  · exact stays_of_mem (ite_sameMem rfl rfl)

/-! ### Handler crews and blocks that end -/

theorem execHandlerCrewFormFull_canonical {core : Nat} {s : State} : StaysCanonical s (execHandlerCrewFormFull core s) :=
  stays_of_mem (ite_sameMem (formHandler_sameMem ..) rfl)

theorem execHandlerCrewFormTimeout_canonical {core : Nat} {s : State} : StaysCanonical s (execHandlerCrewFormTimeout core s) := by
  unfold execHandlerCrewFormTimeout
  split
  · exact stays_self
  · exact stays_of_mem (ite_sameMem (formHandler_sameMem ..) rfl)

theorem execBlockAbortStop_canonical {u : Nat} {s : State} : StaysCanonical s (execBlockAbortStop u s) := by
  unfold execBlockAbortStop
  split
  · exact stays_self
  split
  · exact stays_self
  · exact stays_of_mem (settle_sameMem ..)

/-- A block that completes drains its store buffer, and then writes its error record. -/
theorem execBlockComplete_canonical {u : Nat} {s : State} : StaysCanonical s (execBlockComplete u s) := by
  unfold execBlockComplete
  grind [StaysCanonical, KeepsCanonical, drainAll_canonical, writeError_canonical, removeBlock_sameMem, askResidencyFront_sameMem,
    modLaunch_mem]

/-! ### Launches, placing and slices -/

theorem execLaunchListTake_canonical {vf j : Nat} {s : State} : StaysCanonical s (execLaunchListTake vf j s) := by
  unfold execLaunchListTake
  grind [StaysCanonical, KeepsCanonical, payWords_canonical, checkTaken_canonical, turnToList_canonical]

theorem execListHeadWake_canonical {vf j : Nat} {s : State} : StaysCanonical s (execListHeadWake vf j s) :=
  stays_of_mem (ite_sameMem rfl rfl)

theorem execLaunchComplete_canonical {id : Word} {s : State} : StaysCanonical s (execLaunchComplete id s) := by
  unfold execLaunchComplete
  grind [StaysCanonical, KeepsCanonical, writeWord_canonical]

theorem restoredOr_canonical {s : State} (l : Launch) {r : State × Saving} (h : KeepsCanonical s r.1) : KeepsCanonical s (s.restoredOr l r) := by
  unfold State.restoredOr
  split
  · exact keepsCanonical_of_mem (askResidencyFront_sameMem ..)
  · exact h

theorem execBlockPlace_canonical {id : Word} {s : State} : StaysCanonical s (execBlockPlace id s) := by
  unfold execBlockPlace
  split
  · exact stays_self
  next l _ =>
  split
  · exact stays_self
  split
  · split
    · exact stays_self
    next b _ _ =>
    split
    · next core d _ =>
      have hback := readdBlock_canonical s l b core d
      rcases h : s.readdBlock l b core d with ⟨t, done⟩
      rw [h] at hback
      cases done with
      | true =>
        have hresumed := keepsCanonical_of_mem (resumed_sameMem t l b.uid core)
        have hnoted := noteRestored_canonical (t.resumed l b.uid core) l core
        exact stays_next (restoredOr_canonical l (keepsCanonical_trans hback (keepsCanonical_trans hresumed hnoted)))
      | false => exact stays_next hback
    · exact stays_self
  split
  · split
    · next core d _ =>
      have hplaced := placeOn_canonical (s.noteTurn l.part l.vf l.level 1) l core d
      exact stays_next (keepsCanonical_trans (keepsCanonical_of_mem (noteTurn_sameMem s ..)) hplaced)
    · exact stays_self
  · exact stays_self

/-- The blocks of a saved group are added to their cores, resume, and their launch's save area is noted restored. -/
theorem restoreGroup_canonical (l : Launch) (xs : List (Block × Nat × List (Nat × Nat × Nat))) (t : State) :
    KeepsCanonical t ((xs.foldl (fun s x => s.resumed l x.1.uid x.2.1)
      (xs.foldl (fun s x => (s.readdBlock l x.1 x.2.1 x.2.2).1) t)).noteRestored l ((xs.head?.map (·.2.1)).getD 0)).1 := by
  refine keepsCanonical_trans (canonical_foldl (fun s x => readdBlock_canonical s l x.1 x.2.1 x.2.2) xs t) ?_
  refine keepsCanonical_trans ?_ (noteRestored_canonical _ l _)
  exact keepsCanonical_of_mem (foldl_sameMem (fun s x => resumed_sameMem s l x.1.uid x.2.1) xs _)

theorem execGroupPlace_canonical {id : Word} {s : State} : StaysCanonical s (execGroupPlace id s) := by
  unfold execGroupPlace
  split
  · exact stays_self
  · next l _ =>
    split
    · exact stays_self
    split
    · split
      · exact stays_self
      · next xs _ =>
        have hready := groupReady_sameMem s l (xs.map fun x => (x.1, x.2.1))
        split
        · next h => rw [h] at hready; exact stays_of_mem hready
        · next h =>
          rw [h] at hready
          exact stays_next (restoredOr_canonical l (keepsCanonical_trans (keepsCanonical_of_mem hready) (restoreGroup_canonical l xs _)))
    split
    · split
      · exact stays_self
      · next xs _ =>
        have hplaced := canonical_foldl (fun s (x : Nat × _) => placeOn_canonical s l x.1 x.2) xs (s.noteTurn l.part l.vf l.level 4)
        exact stays_next (keepsCanonical_trans (keepsCanonical_of_mem (noteTurn_sameMem s ..)) hplaced)
    · exact stays_self

theorem execSliceExpiry_canonical {part : Nat} {s : State} : StaysCanonical s (execSliceExpiry part s) := by
  unfold execSliceExpiry
  grind [stays_of_mem, stays_next, startSlice_sameMem, switchOn_canonical, nextSlice_canonical]

theorem execSliceEarlyEnd_canonical {part : Nat} {s : State} : StaysCanonical s (execSliceEarlyEnd part s) := by
  unfold execSliceEarlyEnd
  grind [stays_next, keepsCanonical_refl, nextSlice_canonical]

theorem execHostSwitchAck_canonical {part : Nat} {s : State} : StaysCanonical s (execHostSwitchAck part s) := by
  unfold execHostSwitchAck
  grind [stays_of_mem, startSlice_sameMem, accepted_sameMem]

/-! ### Records, resets and the fuller -/

theorem execPartitionReset_canonical {part : Nat} {s : State} : StaysCanonical s (execPartitionReset part s) := by
  unfold execPartitionReset
  split
  · exact stays_self
  · extract_lets s1 s2 s3
    have h1 : s1.mem = s.mem := by
      simp only [s1]
      split
      · exact ite_sameMem rfl rfl
      · rfl
    have h2 : KeepsCanonical s1 s2 := keepsCanonical_trans (endWork_canonical s1 part) (keepsCanonical_of_mem (zeroNets_sameMem ..))
    have h3 : s3.mem = s2.mem := foldl_sameMem (by intros; rfl) _ s2
    exact stays_next (keepsCanonical_trans (keepsCanonical_of_mem h1) (keepsCanonical_trans h2 (keepsCanonical_of_mem h3)))

theorem execPartitionRecordWrite_canonical {part off : Nat} {data : List Byte} {s : State} :
    StaysCanonical s (execPartitionRecordWrite part off data s) :=
  stays_of_mem (ite_sameMem rfl (writeParts_sameMem (writePart_sameMem part) s 128 off data))

theorem execFunctionRecordWrite_canonical {part vf off : Nat} {data : List Byte} {s : State} :
    StaysCanonical s (execFunctionRecordWrite part vf off data s) :=
  stays_of_mem (ite_sameMem rfl (writeParts_sameMem (writeFunc_sameMem part vf) s 320 off data))

theorem execDenialConsumerWrite_canonical {part : Nat} {c : DWord} {s : State} : StaysCanonical s (execDenialConsumerWrite part c s) :=
  stays_of_mem (ite_sameMem rfl rfl)

theorem execFullerStart_canonical {die : Nat} {s : State} : StaysCanonical s (execFullerStart die s) := by
  unfold execFullerStart
  extract_lets s0
  have h0 : s0.mem = s.mem := newest_sameMem s
  refine StaysCanonical.of_mem (t := s0) ?_ h0
  split
  · exact stays_self
  split
  · exact stays_self
  split
  · exact stays_of_mem (dropCompact_sameMem ..)
  split
  · exact stays_of_mem (dropCompact_sameMem ..)
  split
  · exact stays_of_mem (dropCompact_sameMem ..)
  · next t h =>
    have hset : KeepsCanonical s0 t := setRange_canonical _ _ _ _ h
    exact stays_next hset

theorem execFullerGranuleMove_canonical {die : Nat} {s : State} : StaysCanonical s (execFullerGranuleMove die s) := by
  unfold execFullerGranuleMove
  extract_lets s0
  have h0 : s0.mem = s.mem := newest_sameMem s
  refine StaysCanonical.of_mem (t := s0) ?_ h0
  split
  · exact stays_self
  next c _ =>
  split
  · exact stays_of_mem (dropCompact_sameMem ..)
  split
  · exact stays_of_mem (dropCompact_sameMem ..)
  extract_lets g lo drained
  have hdrained : KeepsCanonical s0 drained := drainGranule_canonical s0 c.part c.asid lo 4096
  split
  · exact stays_next hdrained
  split
  · exact stays_next hdrained
  next t hcopy =>
  have hcopied : KeepsCanonical s0 t := keepsCanonical_trans hdrained (copyGranule_canonical _ _ _ hcopy)
  split
  · split
    · next v hset =>
      have hv : KeepsCanonical s0 v := keepsCanonical_trans hcopied (setRange_canonical _ _ _ _ hset)
      exact stays_next (keepsCanonical_trans hv (payAllDenials_canonical v))
    · exact stays_next hdrained
  · split
    · next v hset =>
      have hv : KeepsCanonical s0 v := keepsCanonical_trans hcopied (setRange_canonical _ _ _ _ hset)
      exact stays_next (keepsCanonical_trans hv (payAllDenials_canonical (v.dropCompact c)))
    · exact stays_next hdrained

/-! ### The host, links, fabric and power -/

theorem execHostApertureWrite_canonical {off : Nat} {data : List Byte} {s : State} : StaysCanonical s (execHostApertureWrite off data s) := by
  unfold execHostApertureWrite
  split
  · exact stays_next (canonical_foldl (fun s a => apertureWrite_canonical s a off data) _ s)
  · exact stays_self

theorem execHostRecall_canonical {line off : Nat} {data : List Byte} {s : State} : StaysCanonical s (execHostRecall line off data s) := by
  unfold execHostRecall
  extract_lets a s1
  have hdrop : s1.mem = s.mem := foldl_sameMem (fun s l => dropL2_sameMem s l) _ s
  split
  · split
    · exact stays_of_mem hdrop
    · exact stays_next (keepsCanonical_trans (keepsCanonical_of_mem hdrop) (writeHome_canonical s1 0 _))
  · exact stays_self

theorem execLinkFlitReceive_canonical {flit : BitVec 2048} {s : State} : StaysCanonical s (execLinkFlitReceive flit s) :=
  stays_of_mem (ite_sameMem rfl rfl)

theorem execFabricFlitReceive_canonical {port : Nat} {flit : BitVec 512} {s : State} : StaysCanonical s (execFabricFlitReceive port flit s) :=
  stays_of_mem (ite_sameMem rfl rfl)

theorem execFabricRouteWrite_canonical {w : RouteWrite} {s : State} : StaysCanonical s (execFabricRouteWrite w s) := by
  refine stays_of_mem (ite_sameMem rfl ?_)
  split
  · exact ite_sameMem rfl rfl
  · split <;> rfl

theorem execRegisterWrite_canonical {off : Nat} {v : DWord} {s : State} : StaysCanonical s (execRegisterWrite off v s) :=
  stays_of_mem (ite_sameMem rfl rfl)

theorem execHostTierResponse_canonical {k : Nat} {s : State} : StaysCanonical s (execHostTierResponse k s) :=
  stays_of_mem (ite_sameMem rfl rfl)

theorem execPowerGood_canonical {s : State} : StaysCanonical s (execPowerGood s) := stays_of_mem (ite_sameMem rfl rfl)

theorem execAdaptiveAdjust_canonical {s : State} : StaysCanonical s (execAdaptiveAdjust s) := stays_of_mem (ite_sameMem rfl rfl)

theorem execPlimSet_canonical {watts : Nat} {s : State} : StaysCanonical s (execPlimSet watts s) := stays_of_mem (ite_sameMem rfl rfl)

theorem execPowerLimitThrottle_canonical {lower space : Bool} {s : State} : StaysCanonical s (execPowerLimitThrottle lower space s) :=
  stays_of_mem (ite_sameMem rfl rfl)

theorem execMemoryRetrain_canonical {channel : Nat} {s : State} : StaysCanonical s (execMemoryRetrain channel s) :=
  stays_of_mem (ite_sameMem rfl rfl)

theorem execRetrainRequest_canonical {channel : Nat} {s : State} : StaysCanonical s (execRetrainRequest channel s) :=
  stays_of_mem (ite_sameMem rfl rfl)

theorem execAttestationReport_canonical {nonce : BitVec 384} {s : State} : StaysCanonical s (execAttestationReport nonce s) :=
  stays_of_mem (ite_sameMem rfl rfl)

theorem execKeySlotLoad_canonical {slot key : Nat} {s : State} : StaysCanonical s (execKeySlotLoad slot key s) :=
  stays_of_mem (ite_sameMem rfl rfl)

/-- Stage 5 zeroes memory: nothing is then listed. -/
theorem execBootStageComplete_canonical {r : BootResult} {s : State} : StaysCanonical s (execBootStageComplete r s) := by
  unfold execBootStageComplete
  split
  · exact stays_self
  split
  · exact stays_of_mem (ite_sameMem rfl rfl)
  split
  · exact stays_next fun _ => rfl
  · exact stays_of_mem (ite_sameMem (setReady_sameMem s) rfl)

theorem execPowerRemoved_canonical {s : State} : StaysCanonical s (execPowerRemoved s) := stays_next fun _ => rfl

theorem execThermalTrip_canonical {s : State} : StaysCanonical s (execThermalTrip s) := by
  unfold execThermalTrip
  split
  · exact stays_next (keepsCanonical_trans (drainBlocks_canonical s _) (keepsCanonical_of_mem (cleanL2_sameMem _ _)))
  · exact stays_self

/-! ### Every instruction and event, a move, and the step -/

theorem exec_canonical (i : Instr) (s : State) : StaysCanonical s (exec i s) := by
  unfold exec
  cases i with
  | nop | go | gox | movs | addc | subb | icmp | fcmp | shfl | scan | matchI | regroup | qnt | hinfo | hget | cntrd
  | unassignedMajor => exact issue_sameMem_canonical fun _ _ => rfl
  | call => exact execCall_canonical
  | callx => exact execCallx_canonical
  | ret => exact execRet_canonical
  | done => exact execDone_canonical
  | trap | brk => exact trapWith_canonical
  | wantc | mov | movi | movh | iadd | iadd3 | isub | imul | imulh | imad | imin | imax | iabs | ineg | and | or | xor | andn | shl | shr
  | sar | rot | bfx | bfi | popc | clz | ctz | brev | isel | lea | idot4 | fadd | fsub | fmul | ffma | fmin | fmax | fclass | frcp | frsq
  | fsqrt | fexp2 | flog2 | fsin | fcos | ftanh | fscale | frnd | fdot2 | cvt | pack | unpack | vote | reduce => exact issueAlu_canonical
  | prefiIc => exact execPrefiIc_canonical
  | prefiL2 => exact execPrefiL2_canonical
  | pini => exact execPini_canonical
  | unpini => exact execUnpini_canonical
  | got => exact execGot_canonical
  | ballot => exact execBallot_canonical
  | isect => exact execIsect_canonical
  | take => exact execTake_canonical
  | netcnt => exact execNetcnt_canonical
  | ld => exact execLd_canonical
  | st => exact execSt_canonical
  | lds => exact execLds_canonical
  | sts => exact execSts_canonical
  | ldp => exact execLdp_canonical
  | stp => exact execStp_canonical
  | ldl => exact execLdl_canonical
  | stl => exact execStl_canonical
  | atom => exact execAtom_canonical
  | cas => exact execCas_canonical
  | red => exact execRed_canonical
  | fence => exact execFence_canonical
  | phasePub | phaseRef | phaseFull => exact issuePhase_canonical
  | waitc => exact execWaitc_canonical
  | pref => exact execPref_canonical
  | sfence => exact execSfence_canonical
  | bar => exact execBar_canonical
  | barc => exact execBarc_canonical
  | awinit => exact execAwinit_canonical
  | arrive => exact execArrive_canonical
  | await => exact execAwait_canonical
  | mdesc | mzero | mwrite | mloop | mfence | mstat | mstatLog | mstatExp | mstatClr | cstat | cstatClr | xgrp | xgrpEnd | xgather | xrscat
  | xa2a | xbar | rsplit | rmerge | rinval | rprobe | rprobeS2 | rcompact | netsave | netload | netdrain | netreset | launch | cntcfg
  | sealset => exact issueEngine_canonical
  | mwait => exact execMwait_canonical
  | mread => exact execMread_canonical
  | cgather | cscatter | cscatadd | ccopy | cfill => exact issueCopy_canonical
  | xwait => exact execXwait_canonical
  | hput => exact execHput_canonical
  | hresume | hkill | habort => exact issueVerdict_canonical
  | spanCensus => exact execSpanCensus_canonical
  | fetchLineLoad => exact execFetchLineLoad_canonical
  | laneUnpark => exact execLaneUnpark_canonical
  | operationPerform => exact execOperationPerform_canonical
  | drain => exact execDrain_canonical
  | waitcPoll => exact execWaitcPoll_canonical
  | regroupPair => exact execRegroupPair_canonical
  | regroupTimeout => exact execRegroupTimeout_canonical
  | crewPromote => exact execCrewPromote_canonical
  | localityScoreDecay => exact execLocalityScoreDecay_canonical
  | tokenNumberReturn => exact execTokenNumberReturn_canonical
  | networkDrained => exact execNetworkDrained_canonical
  | handlerCrewFormFull => exact execHandlerCrewFormFull_canonical
  | handlerCrewFormTimeout => exact execHandlerCrewFormTimeout_canonical
  | blockAbortStop => exact execBlockAbortStop_canonical
  | blockComplete => exact execBlockComplete_canonical
  | launchComplete => exact execLaunchComplete_canonical
  | launchListTake => exact execLaunchListTake_canonical
  | listHeadWake => exact execListHeadWake_canonical
  | blockPlace => exact execBlockPlace_canonical
  | groupPlace => exact execGroupPlace_canonical
  | copyPiece => exact execCopyPiece_canonical
  | copyMarker => exact execCopyMarker_canonical
  | matrixCmdExecute => exact execMatrixCmdExecute_canonical
  | matrixKstep => exact execMatrixKstep_canonical
  | collectiveDeliver => exact execCollectiveDeliver_canonical
  | collectiveOpComplete => exact execCollectiveOpComplete_canonical
  | collectiveTimeout => exact execCollectiveTimeout_canonical
  | collectiveFallback => exact execCollectiveFallback_canonical
  | fullerStart => exact execFullerStart_canonical
  | fullerGranuleMove => exact execFullerGranuleMove_canonical
  | sliceExpiry => exact execSliceExpiry_canonical
  | sliceEarlyEnd => exact execSliceEarlyEnd_canonical
  | partitionReset => exact execPartitionReset_canonical
  | partitionDrainComplete | hostApertureRead => exact stays_of_mem rfl
  | hostSwitchAck => exact execHostSwitchAck_canonical
  | partitionRecordWrite => exact execPartitionRecordWrite_canonical
  | functionRecordWrite => exact execFunctionRecordWrite_canonical
  | denialConsumerWrite => exact execDenialConsumerWrite_canonical
  | registerWrite => exact execRegisterWrite_canonical
  | hostApertureWrite => exact execHostApertureWrite_canonical
  | hostRecall => exact execHostRecall_canonical
  | hostTierResponse => exact execHostTierResponse_canonical
  | linkFlitReceive => exact execLinkFlitReceive_canonical
  | fabricFlitReceive => exact execFabricFlitReceive_canonical
  | fabricRouteWrite => exact execFabricRouteWrite_canonical
  | powerGood => exact execPowerGood_canonical
  | bootStageComplete => exact execBootStageComplete_canonical
  | adaptiveAdjust => exact execAdaptiveAdjust_canonical
  | plimSet => exact execPlimSet_canonical
  | powerLimitThrottle => exact execPowerLimitThrottle_canonical
  | thermalTrip => exact execThermalTrip_canonical
  | memoryRetrain => exact execMemoryRetrain_canonical
  | retrainRequest => exact execRetrainRequest_canonical
  | attestationReport => exact execAttestationReport_canonical
  | keySlotLoad => exact execKeySlotLoad_canonical
  | powerRemoved => exact execPowerRemoved_canonical

theorem make_canonical (s : State) (m : Move) : StaysCanonical s (s.make m) := by
  have hopening := opening_sameMem s m
  unfold State.make
  split
  · split
    · exact stays_self
    split
    · exact (exec_canonical _ _).of_mem ((issueState_sameMem ..).trans hopening)
    · exact stays_self
  · split
    · exact StaysCanonical.of_mem (exec_canonical _ _) hopening
    · exact stays_self

theorem turn_canonical (s : State) : StaysCanonical s s.turn := by
  unfold State.turn
  split
  · exact (make_canonical _ _).of_mem ((pass_sameMem ..).trans (inTurn_sameMem ..))
  · split
    · nofun
    · exact (make_canonical _ _).of_mem ((pass_sameMem ..).trans (inTurn_sameMem ..))

/-- Settles O58: a step is a move, a move an instruction or an event, and each of these writes home memory only by writes that keep its
canonical form. -/
theorem stepKeepsMemoryCanonical : Obligations.StepKeepsMemoryCanonical := by
  intro s t hs ht
  exact turn_canonical s t ht hs

end Sys2Proof.Proofs
end
